-- ==== Sys2Proof/Word.lean ====
section
/-! DEFINITION. The word types of the machine and nothing else (spec/00 R2, R6; spec/02 R33). -/
namespace Sys2Proof

/-- One byte of memory or of a tile (R203). -/
abbrev Byte := BitVec 8
/-- A varying or uniform register, 32 bits (R33). -/
abbrev Word := BitVec 32
/-- A 64-bit value: a PC, an effective address, a register pair, a wide hardware register. -/
abbrev DWord := BitVec 64
/-- A set of lanes of one warp by lane index (R28). -/
abbrev Mask := BitVec 64

end Sys2Proof
end

