-- ==== Sys2Proof/Config.lean ====
section
/-! DEFINITION. The free values: what the manual leaves open, as constants without a body. Nothing can
be proved of them, so a theorem about the machine holds for every value (spec/00 R491; log 1 to 3). -/
namespace Sys2Proof.Config

/-- Whether a line that is written stays as it was for fetches of running threads, by tick and line, and which version of a block a fetch finds, by
tick and address (R55). Log 11. -/
opaque keepOld : Nat → Nat → Bool
opaque textChoice : Nat → Nat → Nat
/-- Which of several possible next steps happens (R219, R491): argument the tick. Log 3. -/
opaque freeChoice : Nat → Nat
/-- Device time that one step takes, in ns (R491). Log 3. -/
opaque freeDelay : Nat → Nat
/-- Any unstated 64-bit value; argument the tick (R436 noise, R235 order, undefined fields). Log 2. -/
opaque freeValue : Nat → BitVec 64
/-- The regulator's measured energy of a cluster in a correction interval (R340). Log 2. -/
opaque freeEnergy : Nat → Nat → Nat
/-- The junction temperature of a cluster, in 0.25 degree units (R348, R350). Log 2. -/
opaque freeTemp : Nat → Nat → Nat
/-- The mean current of an island, in 1/16 A (R25). Log 2. -/
opaque freeCurrent : Nat → Nat → Nat
/-- The monitor power of a ring, in 1/64 uW (R391). Log 2. -/
opaque freePower : Nat → Nat → Nat
/-- The package power outside the islands, in W (R353). Log 2. -/
opaque freeOther : Nat → Nat
/-- RSASSA-PSS signature by the device's attestation key, 384 bytes (R355, R439): the key is private. Log 2. -/
opaque sign : List Byte → Nat → BitVec 8
/-- The correctly rounded special function where the model's enclosure does not decide the rounding:
arguments the function's number and the operand's bits (R168; log 12). -/
opaque freeSpecial : Nat → BitVec 32 → BitVec 32
/-- The SRAM power-up fingerprint of the root of trust as the helper data correct it, unless they cannot (R437): the second argument the tick. Log 71. -/
opaque fingerprint : List Byte → Nat → Option (List Byte)
/-- The public key, modulus and exponent, in a device certificate, whose format the spec does not give (R437). Log 71. -/
opaque certKey : List Byte → Nat × Nat
/-- Bases of the Miller-Rabin rounds of a candidate (R437). Log 71. -/
opaque witness : Nat → Nat → Nat
/-- Candidates that the search for two primes can go through (R437). Log 71. -/
opaque candidates : Nat
/-- The vendor's public key, modulus and exponent, from its bytes, whose format the spec does not give (R431, R435). Log 71. -/
opaque vendorKey : List Byte → Nat × Nat
/-- The SHA-256 hash of the vendor's public key that ROM holds (R431). Log 71. -/
opaque vendorHash : List Byte
/-- The contents of a configuration record are valid (R434). Log 71. -/
opaque configOk : List Byte → Bool
/-- The ROM of the root-of-trust core, by address, and where its first block lies (R22). Log 72. -/
opaque rom : Nat → BitVec 8
opaque romEntry : Nat
/-- The sensors of an island read within their range during a bring-up step (R432). Log 2. -/
opaque sensorOk : Nat → Bool
/-- The board kept HBM4 powered while the package was off (R443). Log 2. -/
opaque hbmKept : Nat → Bool
/-- Steps that a write able to be performed can be passed over (R215). Log 60. -/
opaque patience : Nat
/-- The base resonance of a ring, in units of 0.001 nm: its excess over λ_0 at temperature 0, so that it holds the reference temperature too
(R390). Log 69. -/
opaque ringBase : Nat → Nat
/-- Device time at which the rotors' slots begin, modulo 2500 ns (R384). Log 2. -/
opaque rotorPhase : Nat

end Sys2Proof.Config
end

