-- ==== Sys2Proof/Syntax.lean ====
section
/-! DEFINITION. The syntax of the machine: operands, modifiers and the one inductive `Instr`, with one
constructor per row of spec/opcode_table.json: instructions (spec/03 to spec/16) and device events. -/
namespace Sys2Proof

/-- The lane and coordinate constants of R37, class 0b11 index 0xC0 on. -/
inductive Konst where
  | laneid | wwidth | wslot | lbase | corex | corey | relx | rely | lwidth | lheight | coreid | clusid
  | island | roleid | ctxid | spawned
  deriving DecidableEq, Repr

/-- An operand field (R60, R61): a register of a class, a short immediate, a constant, or NONE. -/
inductive Opd where
  | v (n : Fin 256) | a (n : Fin 32) | s (n : Fin 64) | imm (n : BitVec 7) | p (n : Fin 12) | pt
  | cv (n : Fin 8) | nb (n : Fin 16) | const (k : Konst) | none
  deriving DecidableEq, Repr

/-- A predicate field: p0 to p11 or pt (R56). -/
inductive PSel where
  | p (n : Fin 12) | pt
  deriving DecidableEq, Repr

/-- The common upper fields of a word (R56). -/
structure Ctl where
  neg : Bool
  pred : PSel
  look : BitVec 4
  hint : BitVec 2
  reuse : Bool
  split : Bool
  fmt : BitVec 3
  deriving DecidableEq, Repr

/-- Operand fields of format F5 (R63). -/
structure O5 where
  d : Opd
  a : Opd
  b : Opd
  c : Opd
  e : Opd
  deriving DecidableEq, Repr
/-- Operand fields of format RI (R63). -/
structure ORI where
  d : Opd
  a : Opd
  imm : BitVec 32
  deriving DecidableEq, Repr
/-- Operand fields of format M (R64). -/
structure OM where
  data : Opd
  addr : Opd
  ubase : BitVec 6
  off : BitVec 20
  deriving DecidableEq, Repr
/-- Operand fields of format T (R65). `pd` none is PD = 15. -/
structure OT where
  data : Opd
  tile : Opd
  timm : BitVec 10
  addr : Opd
  ubase : BitVec 6
  count : BitVec 6
  pd : Option (Fin 12)
  deriving DecidableEq, Repr
/-- Operand fields of format B (R66). -/
structure OB where
  offb : BitVec 30
  treg : Opd
  tlen : Opd
  deriving DecidableEq, Repr
/-- Operand fields of format X (R66). -/
structure OX where
  d : Opd
  a : Opd
  sel : BitVec 16
  deriving DecidableEq, Repr

/-- Integer type TY (R123). -/
inductive ITy where | i32 | n32 | i64 | n64
  deriving DecidableEq, Repr
/-- Element type FT (R149). -/
inductive FTy where | f32 | f16 | bf16 | f16x2 | bf16x2
  deriving DecidableEq, Repr
/-- Integer comparison (R138). -/
inductive Cond where | eq | ne | lt | le | gt | ge
  deriving DecidableEq, Repr
/-- Floating comparison (R157). -/
inductive FCond where | eq | ne | lt | le | gt | ge | uno | ord
  deriving DecidableEq, Repr
/-- Predicate combination BOP (R138). -/
inductive BOp where | none | and | or | xor
  deriving DecidableEq, Repr
/-- Source format SF of a conversion (R159). -/
inductive SrcF where
  | f32 | f16 | bf16 | e4m3 | e5m2 | i8 | n8 | i16 | n16 | i32 | n32 | i64 | n64
  deriving DecidableEq, Repr
/-- Rounding modes (R102). -/
inductive Rnd where | rne | rz | ru | rd | rs
  deriving DecidableEq, Repr
/-- Mode of `vote` (R145). -/
inductive VoteMode where | mask | cnt | cntf | first | last
  deriving DecidableEq, Repr
/-- Activation of an epilogue (R196). -/
inductive Act where | none | relu | clamp6 | tanh | sigm
  deriving DecidableEq, Repr
/-- Size and extension of `ld` (R240). -/
inductive LdSz where | n8 | i8 | n16 | i16 | b32 | b64 | b128
  deriving DecidableEq, Repr
/-- Size of `st` (R240). -/
inductive StSz where | b8 | b16 | b32 | b64 | b128
  deriving DecidableEq, Repr
/-- Size of `lds`, `sts` and `take` (R240, R252). -/
inductive TSz where | b32 | b64 | b128
  deriving DecidableEq, Repr
/-- Tag behaviour of `lds` (R243). -/
inductive LdsTag where | wait | take | ut
  deriving DecidableEq, Repr
/-- Scopes (R208). -/
inductive Scope where | warp | core | clus | dev | fab
  deriving DecidableEq, Repr
/-- Ordering of an atomic (R209, R245). -/
inductive AOrd where | rlx | acq | rel | ar
  deriving DecidableEq, Repr
/-- Ordering of a fence (R209, R247). -/
inductive FOrd where | acq | rel | ar | sc
  deriving DecidableEq, Repr
/-- Operation of `sred` (R255). -/
inductive SredOp where | add | fadd | smin | umin | smax | umax | and | or | xor
  deriving DecidableEq, Repr
/-- Privilege levels (R395). -/
inductive Priv where | program | supervisor | firmware
  deriving DecidableEq, Repr

/-- Kinds of named hardware registers (R24, R25, R316, R317, R321, R324, R339 to R351, R364 to R394, R425, R430). -/
inductive RegKind where
  | cbal | cinf | cuse | ccor | tbud | tuse | tdebt | pcfg | opmb | ilim | imeas | clst
  | rcfg | rack | pdem | pcap | ctxt | cwin | hvec | cimg | ctxs | ctxd | evrb | evrs | qmap | qstat
  | psch | part | s2r | tpeer | peerid | rots | peerp | peere | fseg | ohtr | ompd | otxm | orxm | ostr
  | oqd | bstat | istat
  deriving DecidableEq, Repr

/-- One Kebinlink request (R20): the OP is the constructor's, except for an unassigned one. -/
structure KReq where
  op : BitVec 16
  len : Nat
  tag : BitVec 32
  rstat : BitVec 32
  arg0 : BitVec 32
  arg1 : BitVec 64
  arg2 : BitVec 64
  payload : List Byte
  deriving DecidableEq, Repr

/-- One flit of the fabric (R388): header fields, its CHK, and the 64 payload bytes. `cost` and `fill` are the drops that a reply carries back
(R239, R332): of home accesses or an arrival, and of HBM4 bursts; where in a reply they lie the spec leaves open (log 30). -/
structure Flit where
  dst : BitVec 12
  src : BitVec 12
  seg : BitVec 8
  off : BitVec 40
  ty : BitVec 4
  sten : BitVec 8
  hop : BitVec 2
  tag : BitVec 16
  rsv : BitVec 2
  chk : BitVec 24
  payload : List Byte
  cost : Nat
  fill : Nat
  deriving DecidableEq, Repr

/-- The steps of the machine: one constructor per row of spec/opcode_table.json. -/
inductive Instr where
  /-- R76: Performs no operation and advances each lane to the next sequential PC. -/
  | nop (c : Ctl) (o : O5)
  /-- R125: F5 integer add with optional carry in and carry out predicates. -/
  | add (c : Ctl) (ty : ITy) (o : O5)
  /-- R125: Integer add of a 32-bit immediate. -/
  | addRi (c : Ctl) (ty : ITy) (o : ORI)
  /-- R125: F5 integer subtract with optional borrow in and borrow out predicates. -/
  | sub (c : Ctl) (ty : ITy) (o : O5)
  /-- R125: Integer subtract of a 32-bit immediate. -/
  | subRi (c : Ctl) (ty : ITy) (o : ORI)
  /-- R126: Saturating 32-bit add that sets SAT when it clamps. -/
  | addSat (c : Ctl) (ty : ITy) (o : O5)
  /-- R126: Saturating 32-bit subtract that sets SAT when it clamps. -/
  | subSat (c : Ctl) (ty : ITy) (o : O5)
  /-- R127: Low bits of the product. -/
  | mulLo (c : Ctl) (ty : ITy) (o : O5)
  /-- R127: Low bits of the product with a 32-bit immediate. -/
  | mulLoRi (c : Ctl) (ty : ITy) (o : ORI)
  /-- R127: High 32 bits of a 32-bit product. -/
  | mulHi (c : Ctl) (ty : ITy) (o : O5)
  /-- R127: 64-bit product of 32-bit sources, written to a pair. -/
  | mulWide (c : Ctl) (ty : ITy) (o : O5)
  /-- R127: Multiply-add modulo 2^32. -/
  | madLo (c : Ctl) (ty : ITy) (o : O5)
  /-- R127: Multiply-add modulo 2^64 into a pair. -/
  | madWide (c : Ctl) (ty : ITy) (o : O5)
  /-- R128: Integer minimum under the type's reading. -/
  | min (c : Ctl) (ty : ITy) (o : O5)
  /-- R128: Integer maximum under the type's reading. -/
  | max (c : Ctl) (ty : ITy) (o : O5)
  /-- R128: Integer minimum with a 32-bit immediate. -/
  | minRi (c : Ctl) (ty : ITy) (o : ORI)
  /-- R128: Integer maximum with a 32-bit immediate. -/
  | maxRi (c : Ctl) (ty : ITy) (o : ORI)
  /-- R128: Two's-complement negation with wrap. -/
  | neg (c : Ctl) (ty : ITy) (o : O5)
  /-- R128: Absolute value with wrap and no flag. -/
  | abs (c : Ctl) (ty : ITy) (o : O5)
  /-- R128: Absolute value that saturates MIN and sets SAT. -/
  | absSat (c : Ctl) (ty : ITy) (o : O5)
  /-- R129: Long-latency integer quotient per R114, with an optional divide-by-zero trap at completion. -/
  | div (c : Ctl) (ty : ITy) (o : O5)
  /-- R129: Long-latency integer remainder per R114. -/
  | rem (c : Ctl) (ty : ITy) (o : O5)
  /-- R130: Reads the integer and affine sticky flags into a varying register. -/
  | flgiRd (c : Ctl) (o : O5)
  /-- R130: Clears the selected integer and affine sticky flags. -/
  | flgiClr (c : Ctl) (m : BitVec 4) (o : O5)
  /-- R132: Bitwise combination of up to three sources through two function tables (and, or, xor, not aliases). -/
  | lcomb (c : Ctl) (f1 f2 : BitVec 4) (o : O5)
  /-- R131: Bitwise AND with a 32-bit immediate. -/
  | andRi (c : Ctl) (o : ORI)
  /-- R131: Bitwise OR with a 32-bit immediate. -/
  | orRi (c : Ctl) (o : ORI)
  /-- R131: Bitwise XOR with a 32-bit immediate. -/
  | xorRi (c : Ctl) (o : ORI)
  /-- R133: Shift left, giving 0 for amounts at or above the width. -/
  | shl (c : Ctl) (ty : ITy) (o : O5)
  /-- R133: Logical shift right. -/
  | shr (c : Ctl) (ty : ITy) (o : O5)
  /-- R133: Arithmetic shift right. -/
  | sar (c : Ctl) (ty : ITy) (o : O5)
  /-- R134: Bit-field extract, sign- or zero-extended. -/
  | bfe (c : Ctl) (ty : ITy) (o : O5)
  /-- R134: Bit-field insert. -/
  | bfi (c : Ctl) (o : O5)
  /-- R135: Counts the one bits. -/
  | popc (c : Ctl) (wide : Bool) (o : O5)
  /-- R135: Counts the leading zeros. -/
  | clz (c : Ctl) (wide : Bool) (o : O5)
  /-- R135: Counts the trailing zeros. -/
  | ctz (c : Ctl) (wide : Bool) (o : O5)
  /-- R135: Reverses the bit order. -/
  | brev (c : Ctl) (wide : Bool) (o : O5)
  /-- R136: Selects one of two sources by a predicate. -/
  | sel (c : Ctl) (wide : Bool) (o : O5)
  /-- R136: Copies a source unchanged, including an affine base and stride. -/
  | mov (c : Ctl) (wide : Bool) (o : O5)
  /-- R136: Writes a 32-bit immediate to a uniform register. -/
  | movRi (c : Ctl) (o : ORI)
  /-- R137: Computes a + b x 2^k with an AOV check. -/
  | lea (c : Ctl) (k : BitVec 3) (uns : Bool) (o : O5)
  /-- R138: F5 integer compare that writes a predicate pair, optionally combined with a predicate. -/
  | cmp (c : Ctl) (ty : ITy) (cond : Cond) (bop : BOp) (o : O5)
  /-- R138: Integer compare against an immediate that writes one predicate. -/
  | cmpRi (c : Ctl) (ty : ITy) (cond : Cond) (o : ORI)
  /-- R139: Combines predicates through function tables (pand, por, pxor, pnot). -/
  | pcomb (c : Ctl) (f1 f2 : BitVec 4) (o : O5)
  /-- R140: Makes an affine register (u, 0) from a uniform value. -/
  | movAS (c : Ctl) (o : O5)
  /-- R140: Makes an affine register from a base and a stride. -/
  | amk (c : Ctl) (o : O5)
  /-- R140: Materialises an affine value per lane into a varying register. -/
  | matl (c : Ctl) (o : O5)
  /-- R140: Broadcasts a uniform value to a varying register. -/
  | bcst (c : Ctl) (o : O5)
  /-- R140: Broadcasts a 32-bit immediate to a varying register. -/
  | bcstRi (c : Ctl) (o : ORI)
  /-- R140: Reads the base of an affine register into a uniform register. -/
  | agetBase (c : Ctl) (o : O5)
  /-- R140: Reads the stride of an affine register into a uniform register. -/
  | agetStride (c : Ctl) (o : O5)
  /-- R141: Reads one lane's varying value into a uniform register, with fill and an absent report. -/
  | rdlane (c : Ctl) (o : O5)
  /-- R144: Cross-lane read where each lane names its source lane. -/
  | lanexSel (c : Ctl) (wide : Bool) (o : O5)
  /-- R144: Cross-lane read through a shared lane pattern. -/
  | lanexPat (c : Ctl) (wide : Bool) (o : O5)
  /-- R145: Summarises a predicate over the warp as mask, cnt, cntf, first or last. -/
  | vote (c : Ctl) (mode : VoteMode) (o : O5)
  /-- R152: Floating-point add, rounded once under RNE. -/
  | fadd (c : Ctl) (ft : FTy) (o : O5)
  /-- R152: Floating-point add of an immediate. -/
  | faddRi (c : Ctl) (ft : FTy) (o : ORI)
  /-- R152: Floating-point subtract. -/
  | fsub (c : Ctl) (ft : FTy) (o : O5)
  /-- R152: Floating-point subtract of an immediate. -/
  | fsubRi (c : Ctl) (ft : FTy) (o : ORI)
  /-- R152: Floating-point multiply. -/
  | fmul (c : Ctl) (ft : FTy) (o : O5)
  /-- R152: Floating-point multiply by an immediate. -/
  | fmulRi (c : Ctl) (ft : FTy) (o : ORI)
  /-- R153: Fused a x b + c with one rounding. -/
  | fma (c : Ctl) (ft : FTy) (o : O5)
  /-- R153: Fused a x b - c with one rounding. -/
  | fms (c : Ctl) (ft : FTy) (o : O5)
  /-- R153: Fused -(a x b) + c with one rounding. -/
  | fnma (c : Ctl) (ft : FTy) (o : O5)
  /-- R154: minimumNumber of two operands. -/
  | fmin (c : Ctl) (ft : FTy) (o : O5)
  /-- R154: maximumNumber of two operands. -/
  | fmax (c : Ctl) (ft : FTy) (o : O5)
  /-- R155: Median of three via FMin and FMax. -/
  | fmed3 (c : Ctl) (ft : FTy) (o : O5)
  /-- R155: Clamps x to [lo, hi] via FMin and FMax. -/
  | fclamp (c : Ctl) (ft : FTy) (o : O5)
  /-- R156: Clears the sign bit of each element. -/
  | fabs (c : Ctl) (ft : FTy) (o : O5)
  /-- R156: Flips the sign bit of each element. -/
  | fneg (c : Ctl) (ft : FTy) (o : O5)
  /-- R157: Floating-point compare that writes a predicate pair. -/
  | fcmp (c : Ctl) (ft : FTy) (cond : FCond) (bop : BOp) (o : O5)
  /-- R158: Reads the floating-point sticky flags. -/
  | fflgRd (c : Ctl) (o : O5)
  /-- R158: Clears the selected floating-point sticky flags. -/
  | fflgClr (c : Ctl) (m : BitVec 5) (o : O5)
  /-- R162: Converts a source to FP32. -/
  | cvtF32 (c : Ctl) (sf : SrcF) (rm : Rnd) (sat : Bool) (o : O5)
  /-- R162: Converts a source to FP16 (single value or pair). -/
  | cvtF16 (c : Ctl) (sf : SrcF) (rm : Rnd) (sat : Bool) (o : O5)
  /-- R162: Converts a source to BF16 (single value or pair). -/
  | cvtBf16 (c : Ctl) (sf : SrcF) (rm : Rnd) (sat : Bool) (o : O5)
  /-- R162: Converts up to four values to E4M3. -/
  | cvtE4m3 (c : Ctl) (sf : SrcF) (rm : Rnd) (sat : Bool) (o : O5)
  /-- R162: Converts up to four values to E5M2. -/
  | cvtE5m2 (c : Ctl) (sf : SrcF) (rm : Rnd) (sat : Bool) (o : O5)
  /-- R162: Converts a source to INT32. -/
  | cvtI32 (c : Ctl) (sf : SrcF) (rm : Rnd) (sat : Bool) (o : O5)
  /-- R162: Converts a source to UINT32. -/
  | cvtN32 (c : Ctl) (sf : SrcF) (rm : Rnd) (sat : Bool) (o : O5)
  /-- R162: Converts a source to INT64. -/
  | cvtI64 (c : Ctl) (sf : SrcF) (rm : Rnd) (sat : Bool) (o : O5)
  /-- R162: Converts a source to UINT64. -/
  | cvtN64 (c : Ctl) (sf : SrcF) (rm : Rnd) (sat : Bool) (o : O5)
  /-- R164: Converts FP32 into a format slot's element format. -/
  | cvtfTo (c : Ctl) (rm : Rnd) (slot sat : Bool) (o : O5)
  /-- R164: Converts a slot-format element to FP32. -/
  | cvtfFrom (c : Ctl) (rm : Rnd) (slot sat : Bool) (o : O5)
  /-- R165: Decodes two block-scaled elements into a BF16 pair. -/
  | bsdec (c : Ctl) (k : BitVec 2) (o : O5)
  /-- R166: Sets the thread's generator state. -/
  | rngSeed (c : Ctl) (o : O5)
  /-- R166: Reads the thread's generator state. -/
  | rngRd (c : Ctl) (o : O5)
  /-- R166: Draws NextRand and advances the generator. -/
  | rngNext (c : Ctl) (o : O5)
  /-- R168: Correctly rounded reciprocal. -/
  | frcp (c : Ctl) (ft : FTy) (o : O5)
  /-- R168: Correctly rounded reciprocal square root. -/
  | frsq (c : Ctl) (ft : FTy) (o : O5)
  /-- R168: Correctly rounded square root. -/
  | fsqrt (c : Ctl) (ft : FTy) (o : O5)
  /-- R168: Correctly rounded 2^x. -/
  | fex2 (c : Ctl) (ft : FTy) (o : O5)
  /-- R168: Correctly rounded log2 x. -/
  | flg2 (c : Ctl) (ft : FTy) (o : O5)
  /-- R168: Correctly rounded sin(pi x). -/
  | fsinpi (c : Ctl) (ft : FTy) (o : O5)
  /-- R168: Correctly rounded cos(pi x). -/
  | fcospi (c : Ctl) (ft : FTy) (o : O5)
  /-- R168: Correctly rounded tanh x. -/
  | ftanh (c : Ctl) (ft : FTy) (o : O5)
  /-- R169: Correctly rounded division with its special cases. -/
  | fdiv (c : Ctl) (ft : FTy) (o : O5)
  /-- R190: Declares a convergence register, clearing signatures, locks and latch. -/
  | cvdecl (c : Ctl) (o : O5)
  /-- R191: Signs a convergence register and locks the signing lane's A registers. -/
  | sign (c : Ctl) (o : O5)
  /-- R192: Obtains A and posts a dense reservation entry for one to four passes. -/
  | mmaBf16 (c : Ctl) (n1 : BitVec 2) (take z : Bool) (o : O5)
  /-- R192: Obtains A and posts a sparse reservation entry for one to four passes. -/
  | mmaSpBf16 (c : Ctl) (n1 : BitVec 2) (take z : Bool) (o : O5)
  /-- R184: The arbiter grants a ready reservation entry all its passes back to back. -/
  | matrixPassGrant (cl : Nat)
  /-- R171: A pass writes its accumulator block and is charged. -/
  | matrixPassComplete (cl id : Nat)
  /-- R194: Zeros a run of accumulator blocks and marks them HELD. -/
  | accZero (c : Ctl) (o : O5)
  /-- R194: Marks HELD blocks RELEASING. -/
  | accFree (c : Ctl) (o : O5)
  /-- R195: Reads one accumulator element per lane. -/
  | accRd (c : Ctl) (o : O5)
  /-- R195: Writes one accumulator element per lane. -/
  | accWr (c : Ctl) (o : O5)
  /-- R196: Scales, biases, activates and converts a block and stores it to memory. -/
  | epiSt (c : Ctl) (act : Act) (scl bias tr : Bool) (o : OM)
  /-- R196: Scales, biases, activates and converts a block into tiles. -/
  | epiT (c : Ctl) (act : Act) (scl bias : Bool) (o : OT)
  /-- R177: An epilogue's stores or arrivals have all entered, so waiting releases move blocks to FREE. -/
  | epilogueAccepted (wg id : Nat)
  /-- R242: Loads 1 to 16 bytes with an ordering and scope. -/
  | ld (c : Ctl) (sz : LdSz) (acq : Bool) (sc : Scope) (o : OM)
  /-- R242: Stores 1 to 16 bytes with an ordering and scope. -/
  | st (c : Ctl) (sz : StSz) (rel : Bool) (sc : Scope) (o : OM)
  /-- R243: Reads scratchpad, non-consuming, consuming or untagged. -/
  | lds (c : Ctl) (sz : TSz) (tag : LdsTag) (o : OM)
  /-- R243: Untagged write to scratchpad. -/
  | sts (c : Ctl) (sz : TSz) (o : OM)
  /-- R244: Removes the line of each address from the core's L1. -/
  | lcln (c : Ctl) (o : OM)
  /-- R245: Atomic integer add. -/
  | atomAdd (c : Ctl) (ord : AOrd) (sc : Scope) (nr wide : Bool) (o : OM)
  /-- R245: Atomic signed minimum. -/
  | atomSmin (c : Ctl) (ord : AOrd) (sc : Scope) (nr wide : Bool) (o : OM)
  /-- R245: Atomic unsigned minimum. -/
  | atomUmin (c : Ctl) (ord : AOrd) (sc : Scope) (nr wide : Bool) (o : OM)
  /-- R245: Atomic signed maximum. -/
  | atomSmax (c : Ctl) (ord : AOrd) (sc : Scope) (nr wide : Bool) (o : OM)
  /-- R245: Atomic unsigned maximum. -/
  | atomUmax (c : Ctl) (ord : AOrd) (sc : Scope) (nr wide : Bool) (o : OM)
  /-- R245: Atomic AND. -/
  | atomAnd (c : Ctl) (ord : AOrd) (sc : Scope) (nr wide : Bool) (o : OM)
  /-- R245: Atomic OR. -/
  | atomOr (c : Ctl) (ord : AOrd) (sc : Scope) (nr wide : Bool) (o : OM)
  /-- R245: Atomic XOR. -/
  | atomXor (c : Ctl) (ord : AOrd) (sc : Scope) (nr wide : Bool) (o : OM)
  /-- R245: Atomic exchange. -/
  | atomExch (c : Ctl) (ord : AOrd) (sc : Scope) (nr wide : Bool) (o : OM)
  /-- R245: Atomic compare-and-swap. -/
  | atomCas (c : Ctl) (ord : AOrd) (sc : Scope) (nr wide : Bool) (o : OM)
  /-- R245: Atomic FP32 add, rounded RNE. -/
  | atomFaddF32 (c : Ctl) (ord : AOrd) (sc : Scope) (nr : Bool) (o : OM)
  /-- R247: Creates a fence event of its kind and scope. -/
  | fence (c : Ctl) (ord : FOrd) (sc : Scope) (o : OX)
  /-- R247: The writes a release fence orders have been performed, so held accesses proceed. -/
  | fenceComplete (wk id : Nat)
  /-- R238: A lane's load, gather or atomic reply arrives and writes its destination. -/
  | memoryReply (wk id lane : Nat)
  /-- R206: A store or RMW is accepted at its home and retires as a sink. -/
  | storePerformed (id : Nat)
  /-- R375: A table walk finishes, yielding a translation or a precise fault. -/
  | pageWalkComplete (id : Nat)
  /-- R239: A dirty line leaves the LLC and is charged as an HBM4 write-back. -/
  | lineWriteback (line : Nat)
  /-- R250: Arms an EMPTY tile with an arrival count and optional filter. -/
  | tarm (c : Ctl) (o : OT)
  /-- R252: Waits for a FULL tile, reads it per lane and consumes it. -/
  | take (c : Ctl) (sz : TSz) (o : OT)
  /-- R248: A consuming read retires and its tile becomes EMPTY. -/
  | tileReadRetire (wk id : Nat)
  /-- R253: Sends 64 B arrival units to a tile and retries refused ones. -/
  | putTRetry (c : Ctl) (unit : BitVec 5) (o : OT)
  /-- R253: Sends 64 B arrival units to a tile and reports refusals in a predicate. -/
  | putTRep (c : Ctl) (unit : BitVec 5) (o : OT)
  /-- R248: An arrival reaches a tile and is accepted or refused, possibly making it FULL. -/
  | tileArrival (id : Nat)
  /-- R254: A refused unit's back-off expires and the unit is sent again. -/
  | arrivalRetry (id : Nat)
  /-- R255: Relaxed reduction RMW at the home. -/
  | sred (c : Ctl) (op : SredOp) (o : OM)
  /-- R256: Relaxed loads performed at the home. -/
  | hgath (c : Ctl) (wide : Bool) (o : OM)
  /-- R257: Reads a card descriptor and posts it to the task scheduler. -/
  | card (c : Ctl) (o : OM)
  /-- R260: A ready card starts on the copy engine. -/
  | cardRun (cl id : Nat)
  /-- R261: A card writes STATUS and increments its completion counter. -/
  | cardComplete (cl id : Nat)
  /-- R263: Reports how an address translates through the fabric windows. -/
  | wpeer (c : Ctl) (o : OM)
  /-- R264: Reads memory and sends it as arrival units into a local tile. -/
  | rgetT (c : Ctl) (o : OT)
  /-- R295: Direct branch, splitting and possibly ejecting the minority side. -/
  | bra (c : Ctl) (o : OB)
  /-- R296: Writes the link and branches to a direct target. -/
  | call (c : Ctl) (o : OB)
  /-- R296: Writes the link and branches to an indirect target. -/
  | calli (c : Ctl) (o : OB)
  /-- R297: Returns to the address in a pair. -/
  | ret (c : Ctl) (o : OB)
  /-- R298: Indirect branch checked for landing pads. -/
  | brx (c : Ctl) (o : OB)
  /-- R299: Indexed branch through a table with a default target. -/
  | jtb (c : Ctl) (base : BitVec 6) (o : OB)
  /-- R300: Ends the guard-true threads and re-evaluates barrier completion. -/
  | exit (c : Ctl) (o : OB)
  /-- R279: The RJT wait at a JOIN block expires and the group proceeds. -/
  | joinTimeout (wk : Nat) (pc : DWord)
  /-- R301: Arrives at a named barrier and waits for the phase. -/
  | barw (c : Ctl) (o : O5)
  /-- R301: Arrives at a named barrier and continues. -/
  | bara (c : Ctl) (o : O5)
  /-- R302: Releases, increments the phase counter and waits on the lead condition. -/
  | phaseAdv (c : Ctl) (o : O5)
  /-- R286: A neighbour's phase advance arrives and may satisfy the lead condition. -/
  | phaseAdvanceReceive (wg dir : Nat)
  /-- R302: Reads the core's or a neighbour's phase counter. -/
  | phaseRd (c : Ctl) (o : O5)
  /-- R303: Creates a warp in a spawn slot, waiting for one if none is free. -/
  | spawn (c : Ctl) (o : OB)
  /-- R303: Creates a warp if a slot is free and reports the outcome. -/
  | spawnTry (c : Ctl) (o : OB)
  /-- R47: A freed slot is granted to the oldest waiting spawn, which creates its warp. -/
  | spawnSlotGrant (wg : Nat)
  /-- R305: Pushes a launch packet into a device-side queue, waiting for room. -/
  | enq (c : Ctl) (o : O5)
  /-- R305: Pushes a launch packet if the queue has room, else reports full. -/
  | enqTry (c : Ctl) (o : O5)
  /-- R305: A waiting enq finds room and performs its atomic push. -/
  | enqPush (wk : Nat)
  /-- R306: Gives up the warp's selection until every other ready warp is offered one. -/
  | yield (c : Ctl) (o : O5)
  /-- R307: Blocks the group for at least n ns of device time. -/
  | waitNs (c : Ctl) (o : O5)
  /-- R307: The timed wait's deadline passes and the group becomes ready. -/
  | waitNsExpiry (wk : Nat)
  /-- R290: No sink retired for the interval, so the context is stopped and reported. -/
  | sinkWatchdogExpiry (ctx : Nat)
  /-- R419: Raises the software trap with a code. -/
  | trap (c : Ctl) (o : OX)
  /-- R399: A trap takes a frame and enters the handler or the continuation. -/
  | trapEntry (wk : Nat)
  /-- R408: A recorded remote error is delivered at the next boundary. -/
  | remoteErrorDelivery (wk : Nat)
  /-- R362: An armed deadline is reached and the warp takes the timer trap. -/
  | timerDeadlineFire (wk : Nat) (ctx : Bool)
  /-- R407: Ends the level-1 frame, restores state and re-injects the replay queue. -/
  | retr (c : Ctl) (o : OX)
  /-- R407: Ends a serviced continuation frame named by a token. -/
  | retrC (c : Ctl) (o : OX)
  /-- R421: Reads a field of the level-1 frame. -/
  | frmRd (c : Ctl) (o : OX)
  /-- R421: Writes a writable field of the level-1 frame. -/
  | frmWr (c : Ctl) (o : OX)
  /-- R422: Arms or disarms the warp's continuation PC. -/
  | contSet (c : Ctl) (o : OX)
  /-- R423: Marks a pending continuation frame serviced. -/
  | contSig (c : Ctl) (o : OX)
  /-- R424: Reads a context or tenant system register. -/
  | srRd (c : Ctl) (o : OX)
  /-- R424: Writes a context or tenant system register. -/
  | srWr (c : Ctl) (o : OX)
  /-- R426: Holds a context and switches it out. -/
  | ctxCtlHold (c : Ctl) (o : OX)
  /-- R426: Clears a context's HOLD. -/
  | ctxCtlRelease (c : Ctl) (o : OX)
  /-- R426: Stops a context and completes its launches with STOPPED. -/
  | ctxCtlKill (c : Ctl) (o : OX)
  /-- R427: Invalidates a context's translations over a VA range. -/
  | tlbiVa (c : Ctl) (o : OX)
  /-- R427: Invalidates every translation of a context. -/
  | tlbiCtx (c : Ctl) (o : OX)
  /-- R427: Invalidates every stage-2 translation of a tenant. -/
  | tlbiTen (c : Ctl) (o : OX)
  /-- R358: Reads an energy register. -/
  | erd (c : Ctl) (o : OX)
  /-- R358: Writes an energy register. -/
  | ewr (c : Ctl) (o : OX)
  /-- R359: Loads a weight bank from a 128-byte image. -/
  | ewt (c : Ctl) (o : OX)
  /-- R360: Requests a signed meter reading for the tenant. -/
  | meter (c : Ctl) (o : OX)
  /-- R355: After T1 the root-of-trust core writes and signs the reading and then DONE. -/
  | meterRecordWrite (t : Nat)
  /-- R361: Reads dtime or ctxtime. -/
  | tmrRd (c : Ctl) (ctx : Bool) (o : OX)
  /-- R362: Arms the warp's dev or ctx deadline. -/
  | tmrArm (c : Ctl) (ctx : Bool) (o : OX)
  /-- R362: Disarms the warp's dev or ctx deadline. -/
  | tmrOff (c : Ctl) (ctx : Bool) (o : OX)
  /-- R410: Stops a context's warps, queues waiting instructions and withdraws entries and cards. -/
  | contextSwitchOut (ctx : Nat)
  /-- R410: Reposts entries and cards, re-injects switch queues and resumes the warps. -/
  | contextSwitchIn (ctx : Nat)
  /-- R325: A partition's slice ends and the ready contexts are ranked by drops per share. -/
  | sliceBoundary (p : Nat)
  /-- R338: At each 1 ms boundary inflow is added and tenant budgets restart. -/
  | periodBoundary
  /-- R341: At each 10 us boundary corrections are applied, static charges made and operating points recomputed. -/
  | correctionInterval
  /-- R349: A supply move completes, OPNOW changes and a further move may start. -/
  | opMoveComplete (cl : Nat)
  /-- R25: Each 1 us the island current sample updates and the issue throttle is applied or lifted. -/
  | imeasSample
  /-- R352: Each package broadcasts its demand for the round. -/
  | rackCapBroadcast
  /-- R352: At 500 us into a round the package cap is divided and island caps updated. -/
  | rackCapCompute
  /-- R316: Host request to map or unmap a queue. -/
  | mapq (q : KReq)
  /-- R316: QMAP_t write with OP 1 starts a queue map request. -/
  | qmapMap (t : Nat) (v : DWord)
  /-- R316: QMAP_t write with OP 2 starts a queue unmap request. -/
  | qmapUnmap (t : Nat) (v : DWord)
  /-- R316: QMAP_t write with OP 3 gives RESULT 2. -/
  | qmapBadOp (t : Nat) (v : DWord)
  /-- R316: A queue map or unmap request finishes and writes RESULT and SLOT. -/
  | qmapComplete (t : Nat)
  /-- R313: A LAUNCH packet starts, is checked and is placed. -/
  | launch (isl slot : Nat)
  /-- R319: A core gains capacity and the launch's workgroup is released on it. -/
  | workgroupRelease (l core : Nat)
  /-- R314: A launch completes and its completion record is written. -/
  | launchComplete (l : Nat)
  /-- R312: A WRSIG packet writes a value and adds to a signal. -/
  | wrsig (isl slot : Nat)
  /-- R312: A WAIT packet starts and loads its address. -/
  | wait (isl slot : Nat)
  /-- R312: Every 2 us a WAIT packet reloads its address and may complete. -/
  | waitReload (isl slot : Nat)
  /-- R324: Firmware write of CTXD_n, discarded on bad SHARE or TENANT, unmapping queues when VALID clears. -/
  | ctxdWrite (n : Nat) (v : Word)
  /-- R324: Firmware write of PSCH_n, discarded when SLICE is 0. -/
  | pschWrite (n : Nat) (v : Word)
  /-- R344: Firmware write of PCFG_p with its discards and TARGET clamp. -/
  | pcfgWrite (n : Nat) (v : Word)
  /-- R345: Supervisor write of the OP request mailbox, clamped into range. -/
  | opmbWrite (n : Nat) (v : Word)
  /-- R24: Firmware write of an island current limit, discarded and flagged if out of range. -/
  | ilimWrite (n : Nat) (v : Word)
  /-- R365: Firmware write of PART_p with its discard conditions. -/
  | partWrite (n : Nat) (v : Word)
  /-- R381: Firmware write of a segment descriptor word, discarding bad VALID settings. -/
  | fsegWrite (s word : Nat) (v : Word)
  /-- R378: Firmware write of peer enables, ignoring unpopulated peers. -/
  | peereWrite (n : Nat) (v : Word)
  /-- R392: Write of a ring-to-channel map, discarded unless a permutation, applied at the next slot. -/
  | otxmWrite (n : Nat) (v : Word)
  /-- R393: Write of the requested stripe width, waking or parking lasers. -/
  | ostrWrite (n : Nat) (v : Word)
  /-- R393: A woken laser becomes stable and sets its LOCK bit. -/
  | laserLock (k ch : Nat)
  /-- R4: A write to a register with no row of its own, including W1C clears. -/
  | registerWrite (r : RegKind) (n : Nat) (v : DWord) (lv : Priv)
  /-- R391: Each 1 us the monitor and queue-depth samples update. -/
  | opticsSample
  /-- R384: Every rotor switches to the next slot and queued flits are sent or relayed. -/
  | rotorSlotBoundary
  /-- R388: A flit arrives, is checked, and is served by the fabric MMU, relayed or delivered as a reply. -/
  | flitReceive (f : Flit)
  /-- R386: A relayed flit not forwarded within 160 us is discarded and reported. -/
  | relayTimeout (id : Nat)
  /-- R380: A remote access has no reply after 1 ms, so the peer is disabled and its accesses end in error. -/
  | peerLost (peer : Nat)
  /-- R432: An island's bring-up step finishes and the next starts. -/
  | bringupStepComplete
  /-- R432: An island step exceeds its limit and bring-up fails. -/
  | bringupStepTimeout
  /-- R440: A command processor or service core takes a trap and is declared failed. -/
  | firmwareCoreTrap (core : Nat)
  /-- R440: A firmware core retires nothing for 1 ms, or a command processor stalls 10 ms, and is declared failed. -/
  | firmwareWatchdogExpiry (core : Nat)
  /-- R441: A failed firmware core's image is reloaded and verified, and the core released. -/
  | firmwareReloadComplete (core : Nat)
  /-- R329: The rebooted command processor takes over from the fallback scheduler at a packet's pre-emption point. -/
  | fallbackHandOver (isl : Nat)
  /-- R442: A trap on the root-of-trust core resets the package. -/
  | rootTrap
  /-- R69: A division, special function, fdiv, slot conversion or acc.rd writes its register results, releasing waiting instructions and possibly raising the divide-by-zero trap at completion. -/
  | longLatencyComplete (wk id : Nat)
  /-- R313: A packet whose KIND is 0 or 4-15 starts, fails its check and stops its queue. -/
  | invalidKindPacket (isl slot : Nat)
  /-- R309: The command processor observes a changed WR within 2 us, and a WR below RD or too far above it stops the queue with PKT_INVALID. -/
  | queueWrChange (isl slot : Nat)
  /-- R409: A register-cache miss fill completes and is charged to the context whose issue missed. -/
  | registerCacheFill (ctx line : Nat) (hbm : Bool)
  /-- R21: Host request returning BSTAT and ISTAT. -/
  | status (q : KReq)
  /-- R21: Host request returning part of the device certificate. -/
  | cert (q : KReq)
  /-- R439: Host request returning a signed attestation report over a nonce. -/
  | attest (q : KReq)
  /-- R431: Host request that starts bring-up from the failed or off state. -/
  | bringup (q : KReq)
  /-- R21: Host read of a context's memory. -/
  | memrd (q : KReq)
  /-- R21: Host write of a context's memory. -/
  | memwr (q : KReq)
  /-- R19: The host link trains at 8, 4 or 2 lanes or goes down. -/
  | kebinlinkTraining (lanes : BitVec 8)
  /-- R20: A Kebinlink request with an unassigned OP receives BAD_REQUEST and has no effect. -/
  | unassignedOpRequest (q : KReq)
  /-- R431: The package powers up and the root-of-trust core begins bring-up. -/
  | powerOn (kept : Bool)
  /-- R443: The adapter card acknowledges a trip-log entry, letting the save proceed. -/
  | tripLogAck
  /-- R444: A junction reaches 105 C and every context is held and saved. -/
  | softTrip (cl tj : Nat)
  /-- R446: A junction reaches 115 C and island and optics power is cut. -/
  | hardTrip (cl tj : Nat)
  deriving DecidableEq, Repr

end Sys2Proof
end

