-- ==== Sys2Proof/WellFormed.lean ====
section
/-! DEFINITION. Which terms of `Instr` are instructions: the static part of checks 4 to 7 of R71
(accepted fields R58, R68; operand classes R60 to R62 and each entry; MOD and SEL values R67; the computed
class R34, R118, R119). A device event has no word, so it is not well-formed as an instruction. -/
namespace Sys2Proof

/-- Register class of a result or a source (R33, R118). -/
inductive Cls where | uni | aff | vary
  deriving DecidableEq, Repr

def ITy.wide : ITy → Bool
  | .i64 | .n64 => true
  | _ => false
def ITy.signed : ITy → Bool
  | .i32 | .i64 => true
  | _ => false

namespace WF

def evenR {n : Nat} (k : Fin n) : Bool := k.val % 2 == 0

/-- A value source; with `wide` a register must be the even one of a pair (R62, R123). -/
def src (wide : Bool) : Opd → Bool
  | .v n => !wide || evenR n
  | .s n => !wide || evenR n
  | .a _ | .imm _ | .const _ => true
  | _ => false
def src32 : Opd → Bool := src false
/-- A source register (R161). -/
def srcReg : Opd → Bool
  | .v _ | .s _ | .a _ => true
  | _ => false
def srcN (x : Opd) : Bool := src32 x || x == .none
/-- A uniform source: register, immediate or uniform constant (R37). -/
def uni : Opd → Bool
  | .s _ | .imm _ => true
  | .const k => k != .laneid
  | _ => false
def uniN (x : Opd) : Bool := uni x || x == .none
/-- A uniform source that is read at 64 bits: an even pair, or a constant zero-extended (R37). -/
def uni64 : Opd → Bool
  | .s n => evenR n
  | .const k => k != .laneid
  | _ => false
def sReg : Opd → Bool
  | .s _ => true
  | _ => false
def sPair : Opd → Bool
  | .s n => evenR n
  | _ => false
def vReg : Opd → Bool
  | .v _ => true
  | _ => false
def vPair : Opd → Bool
  | .v n => evenR n
  | _ => false
def aff : Opd → Bool
  | .a _ => true
  | .const k => k == .laneid
  | _ => false
def pred : Opd → Bool
  | .p _ | .pt => true
  | _ => false
def predN (x : Opd) : Bool := pred x || x == .none
def isNone (x : Opd) : Bool := x == .none
def isCv : Opd → Bool
  | .cv _ => true
  | _ => false
def isNb : Opd → Bool
  | .nb _ => true
  | _ => false

/-- The class a source has for R34 (a predicate makes a result varying). -/
def clsOf : Opd → Cls
  | .s _ | .imm _ | .none => .uni
  | .const k => if k == .laneid then .aff else .uni
  | .a _ => .aff
  | _ => .vary
def anyAff (xs : List Opd) : Bool := xs.any aff
/-- R118 rules 2 to 5: `pat` says whether the operands match an affine-preserving pattern (R119). -/
def cls (pat : Bool) (xs : List Opd) : Cls :=
  if xs.any (fun x => clsOf x == .vary) then .vary
  else if anyAff xs then (if pat then .aff else .vary)
  else .uni
/-- A destination of the computed class (check 7), an even register where a pair is written. -/
def dst (wide : Bool) (k : Cls) : Opd → Bool
  | .v n => k == .vary && (!wide || evenR n)
  | .a _ => k == .aff && !wide
  | .s n => k == .uni && (!wide || evenR n)
  | _ => false

/-- The word's optional fields that an instruction accepts (R58, R68). -/
structure Acc where
  look : Bool := false
  hint : Bool := false
  reuse : Bool := false
  split : Bool := false
  fmt : Bool := false

def ctl (c : Ctl) (a : Acc) : Bool :=
  (a.look || c.look == 0) && (a.hint || c.hint == 0) && (a.reuse || !c.reuse) &&
  (a.split || !c.split) && (a.fmt || c.fmt == 0)

def noAffWide (ty : ITy) (xs : List Opd) : Bool := !(ty.wide && anyAff xs)

/-- `add` and `sub` (R124, R119). -/
def addSub (c : Ctl) (ty : ITy) (o : O5) : Bool :=
  ctl c { split := vReg o.d } && src ty.wide o.a && src ty.wide o.b && predN o.c && predN o.e &&
  (!ty.wide || (isNone o.c && isNone o.e)) &&
  !(anyAff [o.a, o.b] && (ty.wide || !isNone o.c || !isNone o.e)) &&
  dst ty.wide (if isNone o.c then cls (!ty.wide) [o.a, o.b] else .vary) o.d
/-- A two-source form with no affine-preserving pattern, at the width `w` for sources and `wd` for the result. -/
def two (c : Ctl) (look w wd : Bool) (o : O5) : Bool :=
  ctl c { split := vReg o.d, look := look } && src w o.a && src w o.b && isNone o.c && isNone o.e &&
  dst wd (cls false [o.a, o.b]) o.d
def one (c : Ctl) (w wd : Bool) (o : O5) : Bool :=
  ctl c { split := vReg o.d } && src w o.a && isNone o.b && isNone o.c && isNone o.e &&
  dst wd (cls false [o.a]) o.d
def three (c : Ctl) (w : Bool) (o : O5) : Bool :=
  ctl c { split := vReg o.d } && src32 o.a && src32 o.b && src w o.c && isNone o.e &&
  dst w (cls false [o.a, o.b, o.c]) o.d
def ri (c : Ctl) (ty : ITy) (pat : Bool) (o : ORI) : Bool :=
  ctl c { split := vReg o.d } && src ty.wide o.a && !(pat && ty.wide && aff o.a) &&
  dst ty.wide (cls pat [o.a]) o.d
/-- One affine and one uniform source (R119, `mul.lo` and `and`). -/
def oneAffOneUni (x y : Opd) : Bool := (aff x && uni y) || (uni x && aff y)

def none5 (o : O5) : Bool := isNone o.d && isNone o.a && isNone o.b && isNone o.c && isNone o.e

def ubase (u : BitVec 6) : Bool := u == 63 || u.toNat % 2 == 0
def group4 : Opd → Bool
  | .v n => n.val % 4 == 0
  | .s n => n.val % 4 == 0
  | _ => false
def group8s : Opd → Bool
  | .s n => n.val % 8 == 0
  | _ => false

def fDst (o : O5) (xs : List Opd) : Bool := dst false (cls false xs) o.d
def f2 (c : Ctl) (look : Bool) (o : O5) : Bool :=
  ctl c { split := vReg o.d, look := look } && src32 o.a && src32 o.b && isNone o.c && isNone o.e &&
  fDst o [o.a, o.b]
def f3 (c : Ctl) (o : O5) : Bool :=
  ctl c { split := vReg o.d } && src32 o.a && src32 o.b && src32 o.c && isNone o.e && fDst o [o.a, o.b, o.c]
def f1 (c : Ctl) (look : Bool) (o : O5) : Bool :=
  ctl c { split := vReg o.d, look := look } && src32 o.a && isNone o.b && isNone o.c && isNone o.e && fDst o [o.a]
def fri (c : Ctl) (ft : FTy) (o : ORI) : Bool :=
  ctl c { split := vReg o.d } && src32 o.a && dst false (cls false [o.a]) o.d &&
  (match ft with
   | .f16 | .bf16 => o.imm.toNat / 65536 == 0
   | _ => true)
def half : FTy → Bool
  | .f32 | .f16 => true
  | _ => false

/-- An element selector (R161): a short immediate below `n`, or NONE. -/
def selector (n : Nat) : Opd → Bool
  | .imm k => k.toNat < n
  | .none => true
  | _ => false

def srcBits : SrcF → Nat
  | .f32 | .i32 | .n32 => 32
  | .f16 | .bf16 | .i16 | .n16 => 16
  | .e4m3 | .e5m2 | .i8 | .n8 => 8
  | .i64 | .n64 => 64
def srcFloat : SrcF → Bool
  | .f32 | .f16 | .bf16 | .e4m3 | .e5m2 => true
  | _ => false

/-- `cvt` to FP32 (R160, R161). -/
def rsOk (rm : Rnd) (d : Opd) : Bool := !(rm == .rs && sReg d)
def cvtNarrow (c : Ctl) (sf : SrcF) (rm : Rnd) (wd : Bool) (o : O5) : Bool :=
  ctl c { split := vReg o.d } && rsOk rm o.d && isNone o.c && isNone o.e &&
  (if srcBits sf < 32 then srcReg o.a && selector (32 / srcBits sf) o.b && dst wd (cls false [o.a]) o.d
   else src (srcBits sf == 64) o.a && isNone o.b && dst wd (cls false [o.a]) o.d)
/-- `cvt` to FP16 or BF16: a 32- or 64-bit source may fill both halves (R161). -/
def cvtHalf (c : Ctl) (sf : SrcF) (rm : Rnd) (o : O5) : Bool :=
  if srcBits sf < 32 then cvtNarrow c sf rm false o
  else ctl c { split := vReg o.d } && rsOk rm o.d && isNone o.c && isNone o.e &&
    src (srcBits sf == 64) o.a && (src (srcBits sf == 64) o.b || isNone o.b) && fDst o [o.a, o.b]
/-- `cvt` to an 8-bit format (R160, R161). -/
def cvtByte (c : Ctl) (sf : SrcF) (rm : Rnd) (o : O5) : Bool :=
  ctl c { split := vReg o.d } && rsOk rm o.d &&
  (match sf with
   | .f32 | .f16 | .bf16 => true
   | _ => false) &&
  src32 o.a && srcN o.b && srcN o.c && srcN o.e && fDst o [o.a, o.b, o.c, o.e]
def cvtInt (c : Ctl) (sf : SrcF) (rm : Rnd) (sat : Bool) (wd : Bool) (o : O5) : Bool :=
  cvtNarrow c sf rm wd o && (if srcFloat sf then !sat else rm == .rne)

/-- Destination of a load-like instruction of `bytes` bytes, of the class computed from the address (R235, R240). -/
def ldDst (bytes : Nat) (k : Cls) (d : Opd) : Bool :=
  dst (bytes == 8) k d && (bytes != 16 || group4 d)
def addr (x : Opd) : Bool := srcN x
def addrCls (x : Opd) : Cls := cls false [x]
/-- Source of a store: any value source; a group must be a register group (R62, R240). -/
def stSrc (bytes : Nat) (x : Opd) : Bool := if bytes == 16 then group4 x else src (bytes == 8) x
def atomD (o : OM) (nr wide : Bool) (c : Ctl) : Bool :=
  ctl c { look := true, hint := true, split := !nr && vReg o.data } && addr o.addr && ubase o.ubase &&
  (if nr then src wide o.data else dst wide (cls false [o.addr, o.data]) o.data)
def tile (c : Ctl) (o : OT) : Bool :=
  ctl c { look := true, hint := true } && uniN o.tile && o.timm.toNat < 768 && ubase o.ubase

def frmWide (n : Nat) : Bool := n == 2 || n == 3 || n == 4 || n == 7 || n == 13 || n == 16
/-- Range of the index x of `frm.rd` and `frm.wr`, if the field takes one (R421). -/
def frmX (n : Nat) : Option Nat := if n == 9 || n == 12 then some 8 else if n == 13 || n == 14 then some 16 else none
def frmA (n : Nat) (x : Opd) : Bool :=
  match frmX n with
  | none => isNone x
  | some r => match x with
    | .imm k => k.toNat < r
    | y => uni y

end WF

open WF in
/-- Width in bits of the register an `erd`/`ewr` selector names, and whether it takes an index (R357). -/
def eSel (n : Nat) : Option (RegKind × Nat × Bool) :=
  match n with
  | 0x0000 => some (.cbal, 64, true) | 0x0001 => some (.cinf, 64, true)
  | 0x0002 => some (.cuse, 64, true) | 0x0003 => some (.ccor, 64, true)
  | 0x0010 => some (.tbud, 64, true) | 0x0011 => some (.tuse, 64, true) | 0x0012 => some (.tdebt, 64, true)
  | 0x0020 => some (.pcfg, 32, true) | 0x0021 => some (.opmb, 32, true)
  | 0x0030 => some (.ilim, 32, true) | 0x0031 => some (.imeas, 32, true)
  | 0x0040 => some (.clst, 32, true)
  | 0x0050 => some (.rcfg, 32, false) | 0x0051 => some (.rack, 32, false)
  | 0x0052 => some (.pdem, 32, false) | 0x0053 => some (.pcap, 32, false)
  | _ => none
/-- The register an `sr.rd`/`sr.wr` selector names and its width (R424). -/
def sSel (n : Nat) : Option (RegKind × Nat) :=
  match n with
  | 0x0000 => some (.ctxt, 64) | 0x0001 => some (.cwin, 64) | 0x0002 => some (.hvec, 64)
  | 0x0003 => some (.cimg, 64) | 0x0004 => some (.ctxs, 32) | 0x0008 => some (.ctxd, 32)
  | 0x0010 => some (.evrb, 64) | 0x0011 => some (.evrs, 32) | 0x0012 => some (.qmap, 64)
  | 0x0013 => some (.qstat, 32)
  | _ => none

namespace WF
def eReg (c : Ctl) (o : OX) : Bool :=
  ctl c {} && (match eSel o.sel.toNat with
   | some (_, w, ix) => (if w == 64 then sPair o.d else sReg o.d) && (if ix then uniN o.a else isNone o.a)
   | none => false)
def sysReg (c : Ctl) (o : OX) : Bool :=
  ctl c {} && (match sSel o.sel.toNat with
   | some (_, w) => (if w == 64 then sPair o.d else sReg o.d) && uniN o.a
   | none => false)
def ldBytes : LdSz → Nat
  | .n8 | .i8 => 1 | .n16 | .i16 => 2 | .b32 => 4 | .b64 => 8 | .b128 => 16
def stBytes : StSz → Nat
  | .b8 => 1 | .b16 => 2 | .b32 => 4 | .b64 => 8 | .b128 => 16
def tBytes : TSz → Nat
  | .b32 => 4 | .b64 => 8 | .b128 => 16
end WF

open WF in
/-- Whether a term is an instruction that the decoder may deliver (R71, checks 4 to 7). -/
def WellFormed : Instr → Bool
  | .nop c o => ctl c {} && none5 o
  | .add c ty o | .sub c ty o => addSub c ty o
  | .addSat c ty o | .subSat c ty o => !ty.wide && two c false false false o
  | .mulLo c ty o => ctl c { split := vReg o.d } && src ty.wide o.a && src ty.wide o.b && isNone o.c && isNone o.e &&
      noAffWide ty [o.a, o.b] && dst ty.wide (cls (oneAffOneUni o.a o.b) [o.a, o.b]) o.d
  | .mulHi c ty o => !ty.wide && two c false false false o
  | .mulWide c ty o => !ty.wide && two c false false true o
  | .madLo c ty o => !ty.wide && three c false o
  | .madWide c ty o => !ty.wide && three c true o
  | .min c ty o | .max c ty o => two c false ty.wide ty.wide o
  | .neg c ty o | .abs c ty o | .absSat c ty o => ty.signed && one c ty.wide ty.wide o
  | .div c ty o | .rem c ty o => two c true ty.wide ty.wide o
  | .addRi c ty o | .subRi c ty o | .mulLoRi c ty o => ri c ty true o
  | .minRi c ty o | .maxRi c ty o => ri c ty false o
  | .flgiRd c o => ctl c { split := true } && vReg o.d && isNone o.a && isNone o.b && isNone o.c && isNone o.e
  | .flgiClr c _ o => ctl c {} && none5 o
  | .lcomb c f1 f2 o => ctl c { split := vReg o.d } && src32 o.a && srcN o.b && srcN o.c && isNone o.e &&
      (!isNone o.c || f2 == 0) &&
      dst false (cls (f1 == 8 && f2 == 0 && isNone o.c && oneAffOneUni o.a o.b) [o.a, o.b, o.c]) o.d
  | .andRi c o => ri c .i32 true o
  | .orRi c o | .xorRi c o => ri c .i32 false o
  | .shl c ty o => ctl c { split := vReg o.d } && src ty.wide o.a && src32 o.b && isNone o.c && isNone o.e &&
      noAffWide ty [o.a, o.b] && dst ty.wide (cls (aff o.a && uni o.b) [o.a, o.b]) o.d
  | .shr c ty o => !ty.signed && ctl c { split := vReg o.d } && src ty.wide o.a && src32 o.b && isNone o.c &&
      isNone o.e && dst ty.wide (cls false [o.a, o.b]) o.d
  | .sar c ty o => ty.signed && ctl c { split := vReg o.d } && src ty.wide o.a && src32 o.b && isNone o.c &&
      isNone o.e && dst ty.wide (cls false [o.a, o.b]) o.d
  | .bfe c ty o => !ty.wide && three c false o
  | .bfi c o => ctl c { split := vReg o.d } && src32 o.a && src32 o.b && src32 o.c && src32 o.e &&
      dst false (cls false [o.a, o.b, o.c, o.e]) o.d
  | .popc c w o | .clz c w o | .ctz c w o => one c w false o
  | .brev c w o => one c w w o
  | .sel c w o => ctl c { split := true } && src w o.a && src w o.b && pred o.c && isNone o.e && dst w .vary o.d
  | .mov c w o => ctl c { split := vReg o.d } && src w o.a && isNone o.b && isNone o.c && isNone o.e &&
      !(w && aff o.a) && dst w (cls true [o.a]) o.d
  | .movRi c o => ctl c {} && sReg o.d && isNone o.a
  | .lea c _ _ o => ctl c { split := vReg o.d } && src32 o.a && src32 o.b && isNone o.c && isNone o.e &&
      dst false (cls true [o.a, o.b]) o.d
  | .cmp c ty _ bop o => ctl c { split := cls false [o.a, o.b, o.c] != .uni } && src ty.wide o.a && src ty.wide o.b &&
      pred o.d && pred o.e && (if bop == .none then isNone o.c else pred o.c)
  | .cmpRi c ty _ o => ctl c { split := clsOf o.a != .uni } && src ty.wide o.a && pred o.d
  | .pcomb c _ f2 o => ctl c { split := true } && predN o.a && predN o.b && predN o.c && pred o.d && pred o.e &&
      (!isNone o.c || f2 == 0)
  | .movAS c o => ctl c {} && (match o.d with | .a _ => true | _ => false) && uni o.a && isNone o.b && isNone o.c && isNone o.e
  | .amk c o => ctl c {} && (match o.d with | .a _ => true | _ => false) && uni o.a && uni o.b && isNone o.c && isNone o.e
  | .matl c o => ctl c { split := true } && vReg o.d && aff o.a && isNone o.b && isNone o.c && isNone o.e
  | .bcst c o => ctl c { split := true } && vReg o.d && uni o.a && isNone o.b && isNone o.c && isNone o.e
  | .bcstRi c o => ctl c { split := true } && vReg o.d && isNone o.a
  | .agetBase c o | .agetStride c o => ctl c {} && sReg o.d && aff o.a && isNone o.b && isNone o.c && isNone o.e
  | .rdlane c o => ctl c {} && sReg o.d && vReg o.a && uni o.b && uniN o.c && predN o.e
  | .lanexSel c w o => ctl c {} && dst w .vary o.d && (if w then vPair o.a else vReg o.a) && src32 o.b && uniN o.c && predN o.e
  | .lanexPat c w o => ctl c {} && dst w .vary o.d && (if w then vPair o.a else vReg o.a) && uni o.b && uniN o.c && predN o.e
  | .vote c m o => ctl c {} && (if m == .mask then sPair o.d else sReg o.d) && pred o.a && isNone o.b && isNone o.c && isNone o.e
  | .fadd c _ o | .fsub c _ o | .fmul c _ o | .fmin c _ o | .fmax c _ o => f2 c false o
  | .faddRi c ft o | .fsubRi c ft o | .fmulRi c ft o => fri c ft o
  | .fma c _ o | .fms c _ o | .fnma c _ o | .fmed3 c _ o | .fclamp c _ o => f3 c o
  | .fabs c _ o | .fneg c _ o => f1 c false o
  | .fcmp c ft _ bop o => ctl c { split := true } && (ft == .f32 || ft == .f16 || ft == .bf16) && src32 o.a && src32 o.b &&
      pred o.d && pred o.e && (if bop == .none then isNone o.c else pred o.c)
  | .fflgRd c o => ctl c { split := true } && vReg o.d && isNone o.a && isNone o.b && isNone o.c && isNone o.e
  | .fflgClr c _ o => ctl c {} && none5 o
  | .cvtF32 c sf rm _ o => sf != .f32 && cvtNarrow c sf rm false o
  | .cvtF16 c sf rm _ o => sf != .f16 && cvtHalf c sf rm o
  | .cvtBf16 c sf rm _ o => sf != .bf16 && cvtHalf c sf rm o
  | .cvtE4m3 c sf rm _ o => cvtByte c sf rm o
  | .cvtE5m2 c sf rm _ o => cvtByte c sf rm o
  | .cvtI32 c sf rm sat o => sf != .i32 && cvtInt c sf rm sat false o
  | .cvtN32 c sf rm sat o => sf != .n32 && cvtInt c sf rm sat false o
  | .cvtI64 c sf rm sat o => sf != .i64 && cvtInt c sf rm sat true o
  | .cvtN64 c sf rm sat o => sf != .n64 && cvtInt c sf rm sat true o
  | .cvtfTo c rm slot _ o => ctl c { look := true, fmt := true, split := vReg o.d } && (!slot || rm == .rne) && rsOk rm o.d &&
      src32 o.a && isNone o.b && isNone o.c && isNone o.e && fDst o [o.a]
  | .cvtfFrom c rm slot _ o => ctl c { look := true, fmt := true, split := vReg o.d } && (!slot || rm == .rne) && rsOk rm o.d &&
      srcReg o.a && selector 4 o.b && isNone o.c && isNone o.e && fDst o [o.a]
  | .bsdec c _ o => ctl c { look := true, fmt := true, split := vReg o.d } && src32 o.a && src32 o.b && src32 o.c &&
      isNone o.e && fDst o [o.a, o.b, o.c]
  | .rngSeed c o => ctl c {} && isNone o.d && (vPair o.a || uni64 o.a) && isNone o.b && isNone o.c && isNone o.e
  | .rngRd c o => ctl c { split := true } && vPair o.d && isNone o.a && isNone o.b && isNone o.c && isNone o.e
  | .rngNext c o => ctl c { split := true } && vReg o.d && isNone o.a && isNone o.b && isNone o.c && isNone o.e
  | .frcp c ft o | .frsq c ft o | .fsqrt c ft o | .fex2 c ft o | .flg2 c ft o | .fsinpi c ft o | .fcospi c ft o
  | .ftanh c ft o => half ft && f1 c true o
  | .fdiv c ft o => half ft && f2 c true o
  | .cvdecl c o => ctl c { look := true } && isCv o.d && vReg o.a && (sPair o.b || isNone o.b) && isNone o.c && isNone o.e
  | .sign c o => ctl c { look := true } && isNone o.d && isCv o.a && isNone o.b && isNone o.c && isNone o.e
  | .mmaBf16 c _ _ _ o | .mmaSpBf16 c _ _ _ o => ctl c { look := true, reuse := true } && isNone o.d && isCv o.a &&
      uni o.b && uni o.c && isNone o.e
  | .accZero c o | .accFree c o => ctl c { look := true } && isNone o.d && uni o.a && uni o.b && isNone o.c && isNone o.e
  | .accRd c o => ctl c { look := true } && vReg o.d && uni o.a && uni o.b && isNone o.c && isNone o.e
  | .accWr c o => ctl c { look := true } && isNone o.d && uni o.a && uni o.b && vReg o.c && isNone o.e
  | .epiSt c _ _ _ _ o => ctl c { look := true, fmt := true } && sReg o.data && group4 o.data && uniN o.addr && ubase o.ubase
  | .epiT c _ _ _ o => ctl c { look := true, fmt := true } && sReg o.data && group4 o.data && uniN o.tile &&
      o.timm.toNat < 768 && isNone o.addr && o.ubase == 63 && o.count == 0 && o.pd == none
  | .ld c sz _ _ o => ctl c { look := true, hint := true, split := vReg o.data } && addr o.addr && ubase o.ubase &&
      ldDst (ldBytes sz) (addrCls o.addr) o.data
  | .st c sz _ _ o => ctl c { look := true, hint := true } && addr o.addr && ubase o.ubase && stSrc (stBytes sz) o.data
  | .lds c sz _ o => ctl c { look := true, hint := true } && addr o.addr && ubase o.ubase &&
      ldDst (tBytes sz) (addrCls o.addr) o.data
  | .sts c sz o => ctl c { look := true, hint := true } && addr o.addr && ubase o.ubase && stSrc (tBytes sz) o.data
  | .lcln c o => ctl c { look := true, hint := true } && addr o.addr && ubase o.ubase && isNone o.data
  | .atomAdd c _ _ nr w o | .atomSmin c _ _ nr w o | .atomUmin c _ _ nr w o | .atomSmax c _ _ nr w o
  | .atomUmax c _ _ nr w o | .atomAnd c _ _ nr w o | .atomOr c _ _ nr w o | .atomXor c _ _ nr w o
  | .atomExch c _ _ nr w o => atomD o nr w c
  | .atomCas c _ _ nr w o => ctl c { look := true, hint := true, split := !nr } && addr o.addr && ubase o.ubase &&
      (if w then vReg o.data && group4 o.data else vPair o.data)
  | .atomFaddF32 c _ _ nr o => atomD o nr false c
  | .fence c _ _ o => ctl c { look := true, hint := true } && isNone o.d && isNone o.a && o.sel == 0
  | .tarm c o => tile c o && (sReg o.data || isNone o.data) && isNone o.addr && o.ubase == 63 &&
      1 ≤ o.count.toNat && o.count.toNat ≤ 32 && o.pd == none
  | .take c sz o => tile c o && o.ubase == 63 && o.count == 0 && o.pd == none &&
      (if isNone o.data then isNone o.addr && sz == .b32
       else uniN o.addr && vReg o.data && ldDst (tBytes sz) .vary o.data)
  | .putTRetry c _ o => tile c o && vReg o.data && uniN o.addr && o.count == 0 && o.pd == none
  | .putTRep c _ o => tile c o && vReg o.data && uniN o.addr && o.count == 0 && o.pd != none
  | .sred c _ o => ctl c { look := true, hint := true } && addr o.addr && ubase o.ubase && (vReg o.data || uni o.data)
  | .hgath c w o => ctl c { look := true, hint := true, split := true } && addr o.addr && ubase o.ubase && dst w .vary o.data
  | .card c o => ctl c { look := true, hint := true } && (uni64 o.data || isNone o.data) && uniN o.addr && ubase o.ubase
  | .wpeer c o => ctl c { look := true, hint := true } && sReg o.data && uniN o.addr && ubase o.ubase
  | .rgetT c o => tile c o && isNone o.data && uniN o.addr && 1 ≤ o.count.toNat && o.count.toNat ≤ 32 && o.pd == none
  | .bra c o => ctl c {} && isNone o.treg && isNone o.tlen
  | .call c o => ctl c {} && vPair o.treg && isNone o.tlen
  | .calli c o => ctl c {} && o.offb == 0 && vPair o.treg && (vPair o.tlen || sPair o.tlen)
  | .ret c o | .brx c o => ctl c {} && o.offb == 0 && (vPair o.treg || sPair o.treg) && isNone o.tlen
  | .jtb c base o => ctl c {} && src32 o.treg && uni o.tlen && base.toNat % 2 == 0
  | .exit c o => ctl c {} && o.offb == 0 && isNone o.treg && isNone o.tlen
  | .barw c o | .bara c o => ctl c {} && isNone o.d && isNb o.a && uni o.b && isNone o.c && isNone o.e
  | .phaseAdv c o | .yield c o => ctl c {} && none5 o
  | .phaseRd c o => ctl c {} && sReg o.d && (match o.a with | .imm k => k.toNat ≤ 4 | _ => false) &&
      isNone o.b && isNone o.c && isNone o.e
  | .spawn c o => ctl c {} && group8s o.treg && isNone o.tlen
  | .spawnTry c o => ctl c {} && group8s o.treg && pred o.tlen
  | .enq c o => ctl c {} && (sReg o.d || isNone o.d) && uni64 o.a && uni64 o.b && isNone o.c && isNone o.e
  | .enqTry c o => ctl c {} && sReg o.d && uni64 o.a && uni64 o.b && isNone o.c && isNone o.e
  | .waitNs c o => ctl c {} && isNone o.d && uni o.a && isNone o.b && isNone o.c && isNone o.e
  | .trap c o => ctl c {} && isNone o.d && isNone o.a
  | .retr c o => ctl c {} && isNone o.d && isNone o.a && o.sel == 0
  | .retrC c o => ctl c {} && isNone o.d && vReg o.a && o.sel == 0
  | .frmRd c o => ctl c {} && o.sel.toNat ≤ 16 && frmA o.sel.toNat o.a && (if frmWide o.sel.toNat then vPair o.d else vReg o.d)
  | .frmWr c o => ctl c {} && (match o.sel.toNat with
      | 3 => vPair o.d
      | 9 | 10 | 11 | 12 | 14 => vReg o.d
      | _ => false) && frmA o.sel.toNat o.a
  | .contSet c o => ctl c {} && isNone o.d && (uni64 o.a || isNone o.a) && o.sel == 0
  | .contSig c o => ctl c {} && sReg o.d && uni o.a && o.sel == 0
  | .srRd c o | .srWr c o => sysReg c o
  | .ctxCtlHold c o => ctl c {} && sReg o.d && uniN o.a && o.sel == 0
  | .ctxCtlRelease c o => ctl c {} && sReg o.d && uniN o.a && o.sel == 1
  | .ctxCtlKill c o => ctl c {} && sReg o.d && uniN o.a && o.sel == 2
  | .tlbiVa c o => ctl c {} && uni64 o.d && uniN o.a
  | .tlbiCtx c o => ctl c {} && isNone o.d && uniN o.a && o.sel == 0
  | .tlbiTen c o => ctl c {} && isNone o.d && uni o.a && o.sel == 0
  | .erd c o | .ewr c o => eReg c o
  | .ewt c o => ctl c {} && uni64 o.d && (match o.a with | .s _ => true | _ => false) && o.sel == 0
  | .meter c o => ctl c {} && sReg o.d && uni64 o.a && o.sel == 0
  | .tmrRd c _ o => ctl c {} && sPair o.d && isNone o.a && o.sel == 0
  | .tmrArm c _ o => ctl c {} && isNone o.d && uni64 o.a && o.sel == 0
  | .tmrOff c _ o => ctl c {} && isNone o.d && isNone o.a && o.sel == 0
  | .matrixPassGrant _ | .matrixPassComplete _ _ | .epilogueAccepted _ _ | .fenceComplete _ _ | .memoryReply _ _ _
  | .storePerformed _ | .pageWalkComplete _ | .lineWriteback _ | .tileReadRetire _ _ | .tileArrival _
  | .arrivalRetry _ | .cardRun _ _ | .cardComplete _ _ | .joinTimeout _ _ | .phaseAdvanceReceive _ _
  | .spawnSlotGrant _ | .enqPush _ | .waitNsExpiry _ | .sinkWatchdogExpiry _ | .trapEntry _
  | .remoteErrorDelivery _ | .timerDeadlineFire _ _ | .meterRecordWrite _ | .contextSwitchOut _
  | .contextSwitchIn _ | .sliceBoundary _ | .periodBoundary | .correctionInterval | .opMoveComplete _
  | .imeasSample | .rackCapBroadcast | .rackCapCompute | .status _ | .cert _ | .attest _ | .bringup _ | .mapq _
  | .memrd _ | .memwr _ | .kebinlinkTraining _ | .qmapMap _ _ | .qmapUnmap _ _ | .qmapBadOp _ _ | .qmapComplete _
  | .launch _ _ | .workgroupRelease _ _ | .launchComplete _ | .wrsig _ _ | .wait _ _ | .waitReload _ _
  | .ctxdWrite _ _ | .pschWrite _ _ | .pcfgWrite _ _ | .opmbWrite _ _ | .ilimWrite _ _ | .partWrite _ _
  | .fsegWrite _ _ _ | .peereWrite _ _ | .otxmWrite _ _ | .ostrWrite _ _ | .laserLock _ _ | .registerWrite _ _ _ _
  | .opticsSample | .rotorSlotBoundary | .flitReceive _ | .relayTimeout _ | .peerLost _ | .powerOn _
  | .bringupStepComplete | .bringupStepTimeout | .firmwareCoreTrap _ | .firmwareWatchdogExpiry _
  | .firmwareReloadComplete _ | .fallbackHandOver _ | .rootTrap | .softTrip _ _ | .tripLogAck | .hardTrip _ _
  | .longLatencyComplete _ _ | .invalidKindPacket _ _ | .queueWrChange _ _ | .unassignedOpRequest _
  | .registerCacheFill _ _ _ => false

end Sys2Proof
end

