-- ==== Sys2Proof/Decode.lean ====
section
/-! DEFINITION. The instruction word (R56, R60 to R67), the opcode map (R74, R75) with each entry's MOD and
SEL values, the decoder, total on any bytes and rejecting by name, and the encoder. -/
namespace Sys2Proof

/-- Why a word is not an instruction: checks 4, 5 and 6/7 of R71, or a text that is not 12 bytes. -/
inductive DecodeError where
  | length | opcode | guard | field | form
  deriving DecidableEq, Repr

/-- Bits [lo+n-1:lo] of a value. -/
def bits {w : Nat} (x : BitVec w) (lo n : Nat) : BitVec n := x.extractLsb' lo n

/-- The six formats with their operand fields and the MOD field (R63 to R66). -/
inductive Body where
  | f5 (o : O5) (m : BitVec 8) | ri (o : ORI) (m : BitVec 8) | m (o : OM) (m : BitVec 8)
  | t (o : OT) (m : BitVec 8) | b (o : OB) (m : BitVec 8) | x (o : OX) (m : BitVec 8)
  deriving DecidableEq, Repr

/-- A format without its fields. -/
inductive Fmt where | f5 | ri | m | t | b | x
  deriving DecidableEq, Repr

/-! ### Operand fields -/

def Konst.dec : Nat → Konst
  | 0 => .laneid | 1 => .wwidth | 2 => .wslot | 3 => .lbase | 4 => .corex | 5 => .corey | 6 => .relx | 7 => .rely
  | 8 => .lwidth | 9 => .lheight | 10 => .coreid | 11 => .clusid | 12 => .island | 13 => .roleid | 14 => .ctxid
  | _ => .spawned
def Konst.num : Konst → Nat
  | .laneid => 0 | .wwidth => 1 | .wslot => 2 | .lbase => 3 | .corex => 4 | .corey => 5 | .relx => 6 | .rely => 7
  | .lwidth => 8 | .lheight => 9 | .coreid => 10 | .clusid => 11 | .island => 12 | .roleid => 13 | .ctxid => 14
  | .spawned => 15

/-- Class 0b11 of an operand field (R61). -/
def decSpecial (n : Nat) : Option Opd :=
  if n < 0x80 then some (.imm (BitVec.ofNat 7 n))
  else if h : n - 0x80 < 12 then some (.p ⟨n - 0x80, h⟩)
  else if n = 0x8F then some .pt
  else if h : 0x90 ≤ n ∧ n - 0x90 < 8 then some (.cv ⟨n - 0x90, h.2⟩)
  else if h : 0xA0 ≤ n ∧ n - 0xA0 < 16 then some (.nb ⟨n - 0xA0, h.2⟩)
  else if 0xC0 ≤ n ∧ n < 0xD0 then some (.const (Konst.dec (n - 0xC0)))
  else if n = 0xFF then some .none
  else none
/-- An operand field: class in bits 9:8, index in bits 7:0 (R60). -/
def decOpd (f : BitVec 10) : Option Opd :=
  let c := f.toNat / 256
  let n := f.toNat % 256
  if c = 0 then some (.v ⟨n, Nat.mod_lt _ (by decide)⟩)
  else if c = 1 then (if h : n < 32 then some (.a ⟨n, h⟩) else none)
  else if c = 2 then (if h : n < 64 then some (.s ⟨n, h⟩) else none)
  else decSpecial n
def encOpd : Opd → BitVec 10
  | .v n => BitVec.ofNat 10 n.val
  | .a n => BitVec.ofNat 10 (0x100 + n.val)
  | .s n => BitVec.ofNat 10 (0x200 + n.val)
  | .imm n => BitVec.ofNat 10 (0x300 + n.toNat)
  | .p n => BitVec.ofNat 10 (0x380 + n.val)
  | .pt => 0x38F
  | .cv n => BitVec.ofNat 10 (0x390 + n.val)
  | .nb n => BitVec.ofNat 10 (0x3A0 + n.val)
  | .const k => BitVec.ofNat 10 (0x3C0 + k.num)
  | .none => 0x3FF

/-! ### The guard and the common fields (R56) -/

def decPSel (f : BitVec 4) : Option PSel :=
  if h : f.toNat < 12 then some (.p ⟨f.toNat, h⟩) else if f = 15 then some .pt else none
def encPSel : PSel → BitVec 4
  | .p n => BitVec.ofNat 4 n.val
  | .pt => 15
def decCtl (w : BitVec 96) : Option Ctl :=
  (decPSel (bits w 81 4)).map fun p =>
    ⟨w.getLsbD 85, p, bits w 77 4, bits w 75 2, w.getLsbD 74, w.getLsbD 73, bits w 70 3⟩
/-- Bits 85:70 of the word. -/
def encCtl (c : Ctl) : BitVec 16 :=
  BitVec.ofBool c.neg ++ encPSel c.pred ++ c.look ++ c.hint ++ BitVec.ofBool c.reuse ++ BitVec.ofBool c.split ++ c.fmt

/-! ### Codes in MOD -/

def ITy.dec (b : BitVec 2) : ITy := match b.toNat with | 0 => .i32 | 1 => .n32 | 2 => .i64 | _ => .n64
def ITy.code : ITy → BitVec 2 | .i32 => 0 | .n32 => 1 | .i64 => 2 | .n64 => 3
def FTy.dec : Nat → Option FTy
  | 0 => some .f32 | 1 => some .f16 | 2 => some .bf16 | 3 => some .f16x2 | 4 => some .bf16x2 | _ => none
def FTy.code : FTy → BitVec 3 | .f32 => 0 | .f16 => 1 | .bf16 => 2 | .f16x2 => 3 | .bf16x2 => 4
def Cond.dec : Nat → Option Cond
  | 0 => some .eq | 1 => some .ne | 2 => some .lt | 3 => some .le | 4 => some .gt | 5 => some .ge | _ => none
def Cond.code : Cond → BitVec 3 | .eq => 0 | .ne => 1 | .lt => 2 | .le => 3 | .gt => 4 | .ge => 5
def FCond.dec (b : BitVec 3) : FCond :=
  match b.toNat with
  | 0 => .eq | 1 => .ne | 2 => .lt | 3 => .le | 4 => .gt | 5 => .ge | 6 => .uno | _ => .ord
def FCond.code : FCond → BitVec 3
  | .eq => 0 | .ne => 1 | .lt => 2 | .le => 3 | .gt => 4 | .ge => 5 | .uno => 6 | .ord => 7
def BOp.dec (b : BitVec 2) : BOp := match b.toNat with | 0 => .none | 1 => .and | 2 => .or | _ => .xor
def BOp.code : BOp → BitVec 2 | .none => 0 | .and => 1 | .or => 2 | .xor => 3
def SrcF.dec : Nat → Option SrcF
  | 0 => some .f32 | 1 => some .f16 | 2 => some .bf16 | 3 => some .e4m3 | 4 => some .e5m2 | 5 => some .i8
  | 6 => some .n8 | 7 => some .i16 | 8 => some .n16 | 9 => some .i32 | 10 => some .n32 | 11 => some .i64
  | 12 => some .n64 | _ => none
def SrcF.code : SrcF → BitVec 4
  | .f32 => 0 | .f16 => 1 | .bf16 => 2 | .e4m3 => 3 | .e5m2 => 4 | .i8 => 5 | .n8 => 6 | .i16 => 7 | .n16 => 8
  | .i32 => 9 | .n32 => 10 | .i64 => 11 | .n64 => 12
def Rnd.dec : Nat → Option Rnd
  | 0 => some .rne | 1 => some .rz | 2 => some .ru | 3 => some .rd | 4 => some .rs | _ => none
def Rnd.code : Rnd → BitVec 3 | .rne => 0 | .rz => 1 | .ru => 2 | .rd => 3 | .rs => 4
def VoteMode.dec : Nat → Option VoteMode
  | 0 => some .mask | 1 => some .cnt | 2 => some .cntf | 3 => some .first | 4 => some .last | _ => none
def VoteMode.code : VoteMode → BitVec 8 | .mask => 0 | .cnt => 1 | .cntf => 2 | .first => 3 | .last => 4
def Act.dec : Nat → Option Act
  | 0 => some .none | 1 => some .relu | 2 => some .clamp6 | 3 => some .tanh | 4 => some .sigm | _ => Option.none
def Act.code : Act → BitVec 3 | .none => 0 | .relu => 1 | .clamp6 => 2 | .tanh => 3 | .sigm => 4
def Scope.dec : Nat → Option Scope
  | 0 => some .warp | 1 => some .core | 2 => some .clus | 3 => some .dev | 4 => some .fab | _ => none
def Scope.code : Scope → BitVec 3 | .warp => 0 | .core => 1 | .clus => 2 | .dev => 3 | .fab => 4
def AOrd.dec : Nat → Option AOrd
  | 0 => some .rlx | 1 => some .acq | 2 => some .rel | 3 => some .ar | _ => none
def AOrd.code : AOrd → BitVec 3 | .rlx => 0 | .acq => 1 | .rel => 2 | .ar => 3
def FOrd.dec : Nat → Option FOrd
  | 1 => some .acq | 2 => some .rel | 3 => some .ar | 4 => some .sc | _ => none
def FOrd.code : FOrd → BitVec 3 | .acq => 1 | .rel => 2 | .ar => 3 | .sc => 4
def LdsTag.dec : Nat → Option LdsTag
  | 0 => some .wait | 1 => some .take | 2 => some .ut | _ => none
def LdsTag.code : LdsTag → BitVec 8 | .wait => 0 | .take => 1 | .ut => 2
def TSz.dec : Nat → Option TSz
  | 0 => some .b32 | 1 => some .b64 | 2 => some .b128 | _ => none
def TSz.code : TSz → BitVec 8 | .b32 => 0 | .b64 => 1 | .b128 => 2
def SredOp.dec : Nat → Option SredOp
  | 0 => some .add | 1 => some .fadd | 2 => some .smin | 3 => some .umin | 4 => some .smax | 5 => some .umax
  | 6 => some .and | 7 => some .or | 8 => some .xor | _ => none
def SredOp.code : SredOp → BitVec 8
  | .add => 0 | .fadd => 1 | .smin => 2 | .umin => 3 | .smax => 4 | .umax => 5 | .and => 6 | .or => 7 | .xor => 8
/-- TY 0 or 2: a form with only `.b32` and `.b64`. -/
def wideOf (m : BitVec 8) : Option Bool :=
  match m.toNat % 4 with | 0 => some false | 2 => some true | _ => none
def wideCode (w : Bool) : BitVec 2 := if w then 2 else 0

/-! ### From the opcode, MOD and fields to an instruction -/

/-- A MOD of bits 7:2 SUB, bits 1:0 TY (R123). -/
def tyMod (sub : BitVec 6) (ty : BitVec 2) : BitVec 8 := sub ++ ty
/-- A MOD of bits 7:3 SUB, bits 2:0 FT (R149). -/
def ftMod (sub : BitVec 5) (ft : BitVec 3) : BitVec 8 := sub ++ ft

def cvtWith (k : SrcF → Rnd → Bool → Instr) (m : BitVec 8) : Option Instr :=
  (SrcF.dec (bits m 0 4).toNat).bind fun sf => (Rnd.dec (bits m 4 3).toNat).map fun rm => k sf rm (m.getLsbD 7)
def cvtMod (sf : SrcF) (rm : Rnd) (sat : Bool) : BitVec 8 := BitVec.ofBool sat ++ rm.code ++ sf.code
def cvtfWith (k : Rnd → Bool → Bool → Instr) (m : BitVec 8) : Option Instr :=
  if bits m 5 3 = 0 then (Rnd.dec (bits m 0 3).toNat).map fun rm => k rm (m.getLsbD 3) (m.getLsbD 4) else none
def cvtfMod (rm : Rnd) (slot sat : Bool) : BitVec 8 :=
  (0 : BitVec 3) ++ BitVec.ofBool sat ++ BitVec.ofBool slot ++ rm.code
def ftWith (m : BitVec 8) (k : FTy → Option Instr) : Option Instr := (FTy.dec (bits m 0 3).toNat).bind k
def mmaWith (k : BitVec 2 → Bool → Bool → Instr) (m : BitVec 8) : Option Instr :=
  if bits m 4 4 = 0 then some (k (bits m 0 2) (m.getLsbD 2) (m.getLsbD 3)) else none
def mmaMod (n1 : BitVec 2) (take z : Bool) : BitVec 8 := (0 : BitVec 4) ++ BitVec.ofBool z ++ BitVec.ofBool take ++ n1
def only (m : BitVec 8) (i : Instr) : Option Instr := if m = 0 then some i else none

/-- The instructions of format F5 (R76, R124, R131, R137 to R145, R151, R159 to R167, R186, R293). -/
def decF5 (opc : Nat) (m : BitVec 8) (c : Ctl) (o : O5) : Option Instr :=
  let ty := ITy.dec (bits m 0 2)
  let sub := (bits m 2 6).toNat
  let fsub := (bits m 3 5).toNat
  match opc with
  | 0x001 => only m (.nop c o)
  | 0x002 => if sub = 0 then some (.add c ty o) else none
  | 0x004 => if sub = 0 then some (.sub c ty o) else none
  | 0x006 => match sub with | 0 => some (.addSat c ty o) | 1 => some (.subSat c ty o) | _ => none
  | 0x008 => match sub with
    | 0 => some (.mulLo c ty o) | 1 => some (.mulHi c ty o) | 2 => some (.mulWide c ty o) | _ => none
  | 0x00A => match sub with | 0 => some (.madLo c ty o) | 1 => some (.madWide c ty o) | _ => none
  | 0x00C => match sub with | 0 => some (.min c ty o) | 1 => some (.max c ty o) | _ => none
  | 0x00E => match sub with
    | 0 => some (.neg c ty o) | 1 => some (.abs c ty o) | 2 => some (.absSat c ty o) | _ => none
  | 0x010 => if sub = 0 then some (.div c ty o) else none
  | 0x011 => if sub = 0 then some (.rem c ty o) else none
  | 0x018 => if m = 0 then some (.flgiRd c o)
    else if bits m 0 4 = 4 then some (.flgiClr c (bits m 4 4) o) else none
  | 0x040 => some (.lcomb c (bits m 0 4) (bits m 4 4) o)
  | 0x042 => match sub with
    | 0 => some (.shl c ty o) | 1 => some (.shr c ty o) | 2 => some (.sar c ty o) | _ => none
  | 0x044 => if sub = 0 then some (.bfe c ty o) else none
  | 0x045 => only m (.bfi c o)
  | 0x046 => (wideOf m).bind fun w => match sub with
    | 0 => some (.popc c w o) | 1 => some (.clz c w o) | 2 => some (.ctz c w o) | 3 => some (.brev c w o) | _ => none
  | 0x047 => if sub = 0 then (wideOf m).map fun w => .sel c w o else none
  | 0x048 => if sub = 0 then (wideOf m).map fun w => .mov c w o else none
  | 0x060 => if bits m 4 4 = 0 then some (.lea c (bits m 0 3) (m.getLsbD 3) o) else none
  | 0x080 => if m.getLsbD 7 then none
    else (Cond.dec (bits m 2 3).toNat).map fun k => .cmp c ty k (BOp.dec (bits m 5 2)) o
  | 0x082 => some (.pcomb c (bits m 0 4) (bits m 4 4) o)
  | 0x0A0 => only m (.movAS c o)
  | 0x0A1 => only m (.amk c o)
  | 0x0A2 => only m (.matl c o)
  | 0x0A3 => only m (.bcst c o)
  | 0x0A5 => if m = 0 then some (.agetBase c o) else if m = 1 then some (.agetStride c o) else none
  | 0x0A6 => only m (.rdlane c o)
  | 0x0B0 => if bits m 3 5 = 0 then
      (match (bits m 0 2).toNat with
        | 0 => some (.lanexSel c (m.getLsbD 2) o) | 1 => some (.lanexPat c (m.getLsbD 2) o) | _ => none)
    else none
  | 0x0B1 => (VoteMode.dec m.toNat).map fun k => .vote c k o
  | 0x0C0 => ftWith m fun ft => match fsub with | 0 => some (.fadd c ft o) | 1 => some (.fsub c ft o) | _ => none
  | 0x0C2 => ftWith m fun ft => if fsub = 0 then some (.fmul c ft o) else none
  | 0x0C4 => ftWith m fun ft => match fsub with
    | 0 => some (.fma c ft o) | 1 => some (.fms c ft o) | 2 => some (.fnma c ft o) | _ => none
  | 0x0C6 => ftWith m fun ft => match fsub with | 0 => some (.fmin c ft o) | 1 => some (.fmax c ft o) | _ => none
  | 0x0C7 => ftWith m fun ft => if fsub = 0 then some (.fmed3 c ft o) else none
  | 0x0C8 => ftWith m fun ft => if fsub = 0 then some (.fclamp c ft o) else none
  | 0x0C9 => ftWith m fun ft => match fsub with | 0 => some (.fabs c ft o) | 1 => some (.fneg c ft o) | _ => none
  | 0x0CA => ftWith m fun ft => some (.fcmp c ft (FCond.dec (bits m 3 3)) (BOp.dec (bits m 6 2)) o)
  | 0x0FE => if m = 0 then some (.fflgRd c o)
    else if bits m 0 3 = 4 then some (.fflgClr c (bits m 3 5) o) else none
  | 0x100 => cvtWith (fun sf rm sat => .cvtF32 c sf rm sat o) m
  | 0x101 => cvtWith (fun sf rm sat => .cvtF16 c sf rm sat o) m
  | 0x102 => cvtWith (fun sf rm sat => .cvtBf16 c sf rm sat o) m
  | 0x103 => cvtWith (fun sf rm sat => .cvtE4m3 c sf rm sat o) m
  | 0x104 => cvtWith (fun sf rm sat => .cvtE5m2 c sf rm sat o) m
  | 0x105 => cvtWith (fun sf rm sat => .cvtI32 c sf rm sat o) m
  | 0x106 => cvtWith (fun sf rm sat => .cvtN32 c sf rm sat o) m
  | 0x107 => cvtWith (fun sf rm sat => .cvtI64 c sf rm sat o) m
  | 0x108 => cvtWith (fun sf rm sat => .cvtN64 c sf rm sat o) m
  | 0x110 => cvtfWith (fun rm slot sat => .cvtfTo c rm slot sat o) m
  | 0x111 => cvtfWith (fun rm slot sat => .cvtfFrom c rm slot sat o) m
  | 0x112 => if bits m 2 6 = 0 then some (.bsdec c (bits m 0 2) o) else none
  | 0x11E => if m = 0 then some (.rngSeed c o) else if m = 1 then some (.rngRd c o)
    else if m = 2 then some (.rngNext c o) else none
  | 0x120 => ftWith m fun ft => match fsub with
    | 0 => some (.frcp c ft o) | 1 => some (.frsq c ft o) | 2 => some (.fsqrt c ft o) | 3 => some (.fex2 c ft o)
    | 4 => some (.flg2 c ft o) | 5 => some (.fsinpi c ft o) | 6 => some (.fcospi c ft o) | 7 => some (.ftanh c ft o)
    | _ => none
  | 0x121 => ftWith m fun ft => if fsub = 0 then some (.fdiv c ft o) else none
  | 0x140 => only m (.cvdecl c o)
  | 0x141 => only m (.sign c o)
  | 0x142 => mmaWith (fun n take z => .mmaBf16 c n take z o) m
  | 0x143 => mmaWith (fun n take z => .mmaSpBf16 c n take z o) m
  | 0x150 => only m (.accZero c o)
  | 0x151 => only m (.accFree c o)
  | 0x152 => only m (.accRd c o)
  | 0x153 => only m (.accWr c o)
  | 0x260 => if m = 0 then some (.barw c o) else if m = 1 then some (.bara c o) else none
  | 0x262 => only m (.phaseAdv c o)
  | 0x263 => only m (.phaseRd c o)
  | 0x271 => if m = 0 then some (.enq c o) else if m = 1 then some (.enqTry c o) else none
  | 0x272 => only m (.yield c o)
  | 0x273 => only m (.waitNs c o)
  | _ => none

/-- The instructions of format RI (R124, R131, R138, R140, R151). -/
def decRI (opc : Nat) (m : BitVec 8) (c : Ctl) (o : ORI) : Option Instr :=
  let ty := ITy.dec (bits m 0 2)
  let sub := (bits m 2 6).toNat
  let fsub := (bits m 3 5).toNat
  match opc with
  | 0x003 => if sub = 0 then some (.addRi c ty o) else none
  | 0x005 => if sub = 0 then some (.subRi c ty o) else none
  | 0x009 => if sub = 0 then some (.mulLoRi c ty o) else none
  | 0x00D => match sub with | 0 => some (.minRi c ty o) | 1 => some (.maxRi c ty o) | _ => none
  | 0x041 => if m = 0 then some (.andRi c o) else if m = 1 then some (.orRi c o)
    else if m = 2 then some (.xorRi c o) else none
  | 0x049 => only m (.movRi c o)
  | 0x081 => if bits m 5 3 = 0 then (Cond.dec (bits m 2 3).toNat).map fun k => .cmpRi c ty k o else none
  | 0x0A4 => only m (.bcstRi c o)
  | 0x0C1 => ftWith m fun ft => match fsub with | 0 => some (.faddRi c ft o) | 1 => some (.fsubRi c ft o) | _ => none
  | 0x0C3 => ftWith m fun ft => if fsub = 0 then some (.fmulRi c ft o) else none
  | _ => none

/-- Ordering in MOD[2:0], scope in MOD[5:3], MOD[7:6] zero, and two orderings accepted (R241). -/
def ordWith (m : BitVec 8) (strong : BitVec 3) (k : Bool → Scope → Instr) : Option Instr :=
  if bits m 6 2 = 0 then
    (Scope.dec (bits m 3 3).toNat).bind fun sc =>
      if bits m 0 3 = 0 then some (k false sc) else if bits m 0 3 = strong then some (k true sc) else none
  else none
def ordMod (strong : BitVec 3) (b : Bool) (sc : Scope) : BitVec 8 :=
  (0 : BitVec 2) ++ sc.code ++ (if b then strong else 0)
def atomWith (m : BitVec 8) (k : AOrd → Scope → Bool → Bool → Instr) : Option Instr :=
  (AOrd.dec (bits m 0 3).toNat).bind fun a =>
    (Scope.dec (bits m 3 3).toNat).map fun sc => k a sc (m.getLsbD 6) (m.getLsbD 7)
def atomMod (a : AOrd) (sc : Scope) (nr w : Bool) : BitVec 8 := BitVec.ofBool w ++ BitVec.ofBool nr ++ sc.code ++ a.code
def epiMod (a : Act) (scl bias tr : Bool) : BitVec 8 :=
  (0 : BitVec 2) ++ BitVec.ofBool tr ++ BitVec.ofBool bias ++ BitVec.ofBool scl ++ a.code

/-- The instructions of format M (R196, R240 to R245, R255 to R257, R263). -/
def decM (opc : Nat) (m : BitVec 8) (c : Ctl) (o : OM) : Option Instr :=
  match opc with
  | 0x160 => if bits m 6 2 = 0 then
      (Act.dec (bits m 0 3).toNat).map fun a => .epiSt c a (m.getLsbD 3) (m.getLsbD 4) (m.getLsbD 5) o else none
  | 0x180 => ordWith m 1 fun q sc => .ld c .n8 q sc o
  | 0x181 => ordWith m 1 fun q sc => .ld c .i8 q sc o
  | 0x182 => ordWith m 1 fun q sc => .ld c .n16 q sc o
  | 0x183 => ordWith m 1 fun q sc => .ld c .i16 q sc o
  | 0x184 => ordWith m 1 fun q sc => .ld c .b32 q sc o
  | 0x185 => ordWith m 1 fun q sc => .ld c .b64 q sc o
  | 0x186 => ordWith m 1 fun q sc => .ld c .b128 q sc o
  | 0x188 => ordWith m 2 fun q sc => .st c .b8 q sc o
  | 0x189 => ordWith m 2 fun q sc => .st c .b16 q sc o
  | 0x18A => ordWith m 2 fun q sc => .st c .b32 q sc o
  | 0x18B => ordWith m 2 fun q sc => .st c .b64 q sc o
  | 0x18C => ordWith m 2 fun q sc => .st c .b128 q sc o
  | 0x190 => (LdsTag.dec m.toNat).map fun t => .lds c .b32 t o
  | 0x191 => (LdsTag.dec m.toNat).map fun t => .lds c .b64 t o
  | 0x192 => (LdsTag.dec m.toNat).map fun t => .lds c .b128 t o
  | 0x198 => only m (.sts c .b32 o)
  | 0x199 => only m (.sts c .b64 o)
  | 0x19A => only m (.sts c .b128 o)
  | 0x1B0 => only m (.lcln c o)
  | 0x1C0 => atomWith m fun a sc nr w => .atomAdd c a sc nr w o
  | 0x1C1 => atomWith m fun a sc nr w => .atomSmin c a sc nr w o
  | 0x1C2 => atomWith m fun a sc nr w => .atomUmin c a sc nr w o
  | 0x1C3 => atomWith m fun a sc nr w => .atomSmax c a sc nr w o
  | 0x1C4 => atomWith m fun a sc nr w => .atomUmax c a sc nr w o
  | 0x1C5 => atomWith m fun a sc nr w => .atomAnd c a sc nr w o
  | 0x1C6 => atomWith m fun a sc nr w => .atomOr c a sc nr w o
  | 0x1C7 => atomWith m fun a sc nr w => .atomXor c a sc nr w o
  | 0x1C8 => atomWith m fun a sc nr w => .atomExch c a sc nr w o
  | 0x1C9 => atomWith m fun a sc nr w => .atomCas c a sc nr w o
  | 0x1CA => if m.getLsbD 7 then none else atomWith m fun a sc nr _ => .atomFaddF32 c a sc nr o
  | 0x200 => (SredOp.dec m.toNat).map fun k => .sred c k o
  | 0x201 => if bits m 1 7 = 0 then some (.hgath c (m.getLsbD 0) o) else none
  | 0x220 => only m (.card c o)
  | 0x230 => only m (.wpeer c o)
  | _ => none

/-- The instructions of format T (R196, R250, R252, R253, R264). -/
def decT (opc : Nat) (m : BitVec 8) (c : Ctl) (o : OT) : Option Instr :=
  match opc with
  | 0x161 => if bits m 5 3 = 0 then
      (Act.dec (bits m 0 3).toNat).map fun a => .epiT c a (m.getLsbD 3) (m.getLsbD 4) o else none
  | 0x1F0 => only m (.tarm c o)
  | 0x1F1 => (TSz.dec m.toNat).map fun z => .take c z o
  | 0x1F2 => if m.getLsbD 7 then none else match (bits m 0 2).toNat with
    | 1 => some (.putTRetry c (bits m 2 5) o) | 2 => some (.putTRep c (bits m 2 5) o) | _ => none
  | 0x231 => only m (.rgetT c o)
  | _ => none
def putMod (unit : BitVec 5) (k : BitVec 2) : BitVec 8 := (0 : BitVec 1) ++ unit ++ k

/-- The instructions of format B (R293, R303). -/
def decB (opc : Nat) (m : BitVec 8) (c : Ctl) (o : OB) : Option Instr :=
  match opc with
  | 0x240 => only m (.bra c o)
  | 0x241 => only m (.call c o)
  | 0x242 => only m (.brx c o)
  | 0x243 => only m (.calli c o)
  | 0x244 => only m (.ret c o)
  | 0x245 => if bits m 6 2 = 0 then some (.jtb c (bits m 0 6) o) else none
  | 0x246 => only m (.exit c o)
  | 0x270 => if m = 0 then some (.spawn c o) else if m = 1 then some (.spawnTry c o) else none
  | _ => none

/-- The instructions of format X (R247, R356 to R362, R418 to R427). -/
def decX (opc : Nat) (m : BitVec 8) (c : Ctl) (o : OX) : Option Instr :=
  match opc with
  | 0x1E0 => if bits m 6 2 = 0 then
      (FOrd.dec (bits m 0 3).toNat).bind fun a => (Scope.dec (bits m 3 3).toNat).map fun sc => .fence c a sc o
    else none
  | 0x280 => only m (.trap c o)
  | 0x281 => if m = 0 then some (.retr c o) else if m = 1 then some (.retrC c o) else none
  | 0x282 => only m (.frmRd c o)
  | 0x283 => only m (.frmWr c o)
  | 0x284 => only m (.contSet c o)
  | 0x285 => only m (.contSig c o)
  | 0x286 => only m (.srRd c o)
  | 0x287 => only m (.srWr c o)
  | 0x288 => if m = 0 then (match o.sel.toNat with
      | 0 => some (.ctxCtlHold c o) | 1 => some (.ctxCtlRelease c o) | 2 => some (.ctxCtlKill c o) | _ => none) else none
  | 0x289 => if m = 0 then some (.tlbiVa c o) else if m = 1 then some (.tlbiCtx c o)
    else if m = 2 then some (.tlbiTen c o) else none
  | 0x2A0 => only m (.erd c o)
  | 0x2A1 => only m (.ewr c o)
  | 0x2A2 => only m (.ewt c o)
  | 0x2A3 => only m (.meter c o)
  | 0x2B0 => if m = 0 then some (.tmrRd c false o) else if m = 1 then some (.tmrRd c true o) else none
  | 0x2B1 => match m.toNat with
    | 0 => some (.tmrArm c false o) | 1 => some (.tmrArm c true o)
    | 2 => some (.tmrOff c false o) | 3 => some (.tmrOff c true o) | _ => none
  | _ => none

def decBody (opc : BitVec 10) (c : Ctl) : Body → Option Instr
  | .f5 o m => decF5 opc.toNat m c o
  | .ri o m => decRI opc.toNat m c o
  | .m o m => decM opc.toNat m c o
  | .t o m => decT opc.toNat m c o
  | .b o m => decB opc.toNat m c o
  | .x o m => decX opc.toNat m c o

/-- The one format of each assigned opcode; none for an unassigned one (R74, R75). -/
def fmtOf (opc : BitVec 10) : Option Fmt :=
  let n := opc.toNat
  if [0x003, 0x005, 0x009, 0x00D, 0x041, 0x049, 0x081, 0x0A4, 0x0C1, 0x0C3].contains n then some .ri
  else if [0x001, 0x002, 0x004, 0x006, 0x008, 0x00A, 0x00C, 0x00E, 0x010, 0x011, 0x018, 0x040, 0x042, 0x044, 0x045,
      0x046, 0x047, 0x048, 0x060, 0x080, 0x082, 0x0A0, 0x0A1, 0x0A2, 0x0A3, 0x0A5, 0x0A6, 0x0B0, 0x0B1, 0x0C0, 0x0C2,
      0x0C4, 0x0C6, 0x0C7, 0x0C8, 0x0C9, 0x0CA, 0x0FE].contains n then some .f5
  else if (0x100 ≤ n && n ≤ 0x108) || [0x110, 0x111, 0x112, 0x11E, 0x120, 0x121, 0x140, 0x141, 0x142, 0x143, 0x150,
      0x151, 0x152, 0x153, 0x260, 0x262, 0x263, 0x271, 0x272, 0x273].contains n then some .f5
  else if (0x180 ≤ n && n ≤ 0x186) || (0x188 ≤ n && n ≤ 0x18C) || (0x1C0 ≤ n && n ≤ 0x1CA) ||
      [0x160, 0x190, 0x191, 0x192, 0x198, 0x199, 0x19A, 0x1B0, 0x200, 0x201, 0x220, 0x230].contains n then some .m
  else if [0x161, 0x1F0, 0x1F1, 0x1F2, 0x231].contains n then some .t
  else if (0x240 ≤ n && n ≤ 0x246) || n == 0x270 then some .b
  else if n == 0x1E0 || (0x280 ≤ n && n ≤ 0x289) || (0x2A0 ≤ n && n ≤ 0x2A3) || n == 0x2B0 || n == 0x2B1 then some .x
  else none

/-! ### The 70 operand bits -/

def decPd (f : BitVec 4) : Option (Option (Fin 12)) :=
  if h : f.toNat < 12 then some (some ⟨f.toNat, h⟩) else if f = 15 then some none else none
def encPd : Option (Fin 12) → BitVec 4
  | some n => BitVec.ofNat 4 n.val
  | none => 15

/-- The fields of a format; none if a reserved bit is set or an operand field is illegal (R60 to R67). -/
def unpack (f : Fmt) (w : BitVec 70) : Option Body :=
  match f with
  | .f5 => do
    let d ← decOpd (bits w 60 10); let a ← decOpd (bits w 50 10); let b ← decOpd (bits w 40 10)
    let c ← decOpd (bits w 30 10); let e ← decOpd (bits w 20 10)
    if bits w 0 12 = 0 then some (.f5 ⟨d, a, b, c, e⟩ (bits w 12 8)) else none
  | .ri => do
    let d ← decOpd (bits w 60 10); let a ← decOpd (bits w 50 10)
    if bits w 0 10 = 0 then some (.ri ⟨d, a, bits w 10 32⟩ (bits w 42 8)) else none
  | .m => do
    let d ← decOpd (bits w 60 10); let a ← decOpd (bits w 50 10)
    if bits w 0 16 = 0 then some (.m ⟨d, a, bits w 44 6, bits w 24 20⟩ (bits w 16 8)) else none
  | .t => do
    let d ← decOpd (bits w 60 10); let t ← decOpd (bits w 50 10); let a ← decOpd (bits w 30 10)
    let p ← decPd (bits w 6 4)
    if bits w 0 6 = 0 then some (.t ⟨d, t, bits w 40 10, a, bits w 24 6, bits w 18 6, p⟩ (bits w 10 8)) else none
  | .b => do
    let t ← decOpd (bits w 30 10); let l ← decOpd (bits w 20 10)
    if bits w 0 12 = 0 then some (.b ⟨bits w 40 30, t, l⟩ (bits w 12 8)) else none
  | .x => do
    let d ← decOpd (bits w 60 10); let a ← decOpd (bits w 50 10)
    if bits w 0 26 = 0 then some (.x ⟨d, a, bits w 34 16⟩ (bits w 26 8)) else none

def pack : Body → BitVec 70
  | .f5 o m => encOpd o.d ++ encOpd o.a ++ encOpd o.b ++ encOpd o.c ++ encOpd o.e ++ m ++ (0 : BitVec 12)
  | .ri o m => encOpd o.d ++ encOpd o.a ++ m ++ o.imm ++ (0 : BitVec 10)
  | .m o m => encOpd o.data ++ encOpd o.addr ++ o.ubase ++ o.off ++ m ++ (0 : BitVec 16)
  | .t o m => encOpd o.data ++ encOpd o.tile ++ o.timm ++ encOpd o.addr ++ o.ubase ++ o.count ++ m ++ encPd o.pd ++ (0 : BitVec 6)
  | .b o m => o.offb ++ encOpd o.treg ++ encOpd o.tlen ++ m ++ (0 : BitVec 12)
  | .x o m => encOpd o.d ++ encOpd o.a ++ o.sel ++ m ++ (0 : BitVec 26)

/-! ### The decoder -/

/-- Checks 4 to 7 of R71 on one instruction word, in their order. -/
def decodeWord (w : BitVec 96) : Except DecodeError Instr :=
  match fmtOf (bits w 86 10) with
  | none => .error .opcode
  | some f =>
    match decCtl w with
    | none => .error .guard
    | some c =>
      match (unpack f (bits w 0 70)).bind (decBody (bits w 86 10) c) with
      | none => .error .field
      | some i => if WellFormed i then .ok i else .error .form

/-- A little-endian number (R50). -/
def leNat : List Byte → Nat
  | [] => 0
  | b :: r => b.toNat + 256 * leNat r
/-- The `n` low bytes of a number, lowest first (R50). -/
def toBytes : Nat → Nat → List Byte
  | 0, _ => []
  | n + 1, x => BitVec.ofNat 8 x :: toBytes n (x / 256)

/-- One slot's twelve bytes. -/
def decodeBytes (bs : List Byte) : Except DecodeError Instr :=
  if bs.length = 12 then decodeWord (BitVec.ofNat 96 (leNat bs)) else .error .length

/-- The host's view of the decoder: the word's low `nbits` bits, the rest zero, laid out as a slot. -/
def decodeTableWord (nbits w : Nat) : Option Instr :=
  match decodeBytes (toBytes 12 (w % 2 ^ nbits)) with
  | .ok i => some i
  | .error _ => none

/-! ### The encoder -/

/-- Opcode, common fields, operand fields and MOD of an instruction; a device event has none. -/
def parts : Instr → Option (Ctl × BitVec 10 × Body)
  | .nop c o => some (c, 0x001, .f5 o 0)
  | .add c ty o => some (c, 0x002, .f5 o (tyMod 0 ty.code))
  | .sub c ty o => some (c, 0x004, .f5 o (tyMod 0 ty.code))
  | .addSat c ty o => some (c, 0x006, .f5 o (tyMod 0 ty.code))
  | .subSat c ty o => some (c, 0x006, .f5 o (tyMod 1 ty.code))
  | .mulLo c ty o => some (c, 0x008, .f5 o (tyMod 0 ty.code))
  | .mulHi c ty o => some (c, 0x008, .f5 o (tyMod 1 ty.code))
  | .mulWide c ty o => some (c, 0x008, .f5 o (tyMod 2 ty.code))
  | .madLo c ty o => some (c, 0x00A, .f5 o (tyMod 0 ty.code))
  | .madWide c ty o => some (c, 0x00A, .f5 o (tyMod 1 ty.code))
  | .min c ty o => some (c, 0x00C, .f5 o (tyMod 0 ty.code))
  | .max c ty o => some (c, 0x00C, .f5 o (tyMod 1 ty.code))
  | .neg c ty o => some (c, 0x00E, .f5 o (tyMod 0 ty.code))
  | .abs c ty o => some (c, 0x00E, .f5 o (tyMod 1 ty.code))
  | .absSat c ty o => some (c, 0x00E, .f5 o (tyMod 2 ty.code))
  | .div c ty o => some (c, 0x010, .f5 o (tyMod 0 ty.code))
  | .rem c ty o => some (c, 0x011, .f5 o (tyMod 0 ty.code))
  | .flgiRd c o => some (c, 0x018, .f5 o 0)
  | .flgiClr c k o => some (c, 0x018, .f5 o (k ++ (4 : BitVec 4)))
  | .lcomb c f1 f2 o => some (c, 0x040, .f5 o (f2 ++ f1))
  | .shl c ty o => some (c, 0x042, .f5 o (tyMod 0 ty.code))
  | .shr c ty o => some (c, 0x042, .f5 o (tyMod 1 ty.code))
  | .sar c ty o => some (c, 0x042, .f5 o (tyMod 2 ty.code))
  | .bfe c ty o => some (c, 0x044, .f5 o (tyMod 0 ty.code))
  | .bfi c o => some (c, 0x045, .f5 o 0)
  | .popc c w o => some (c, 0x046, .f5 o (tyMod 0 (wideCode w)))
  | .clz c w o => some (c, 0x046, .f5 o (tyMod 1 (wideCode w)))
  | .ctz c w o => some (c, 0x046, .f5 o (tyMod 2 (wideCode w)))
  | .brev c w o => some (c, 0x046, .f5 o (tyMod 3 (wideCode w)))
  | .sel c w o => some (c, 0x047, .f5 o (tyMod 0 (wideCode w)))
  | .mov c w o => some (c, 0x048, .f5 o (tyMod 0 (wideCode w)))
  | .lea c k u o => some (c, 0x060, .f5 o ((0 : BitVec 4) ++ BitVec.ofBool u ++ k))
  | .cmp c ty k b o => some (c, 0x080, .f5 o ((0 : BitVec 1) ++ b.code ++ k.code ++ ty.code))
  | .pcomb c f1 f2 o => some (c, 0x082, .f5 o (f2 ++ f1))
  | .movAS c o => some (c, 0x0A0, .f5 o 0)
  | .amk c o => some (c, 0x0A1, .f5 o 0)
  | .matl c o => some (c, 0x0A2, .f5 o 0)
  | .bcst c o => some (c, 0x0A3, .f5 o 0)
  | .agetBase c o => some (c, 0x0A5, .f5 o 0)
  | .agetStride c o => some (c, 0x0A5, .f5 o 1)
  | .rdlane c o => some (c, 0x0A6, .f5 o 0)
  | .lanexSel c w o => some (c, 0x0B0, .f5 o ((0 : BitVec 5) ++ BitVec.ofBool w ++ (0 : BitVec 2)))
  | .lanexPat c w o => some (c, 0x0B0, .f5 o ((0 : BitVec 5) ++ BitVec.ofBool w ++ (1 : BitVec 2)))
  | .vote c k o => some (c, 0x0B1, .f5 o k.code)
  | .fadd c ft o => some (c, 0x0C0, .f5 o (ftMod 0 ft.code))
  | .fsub c ft o => some (c, 0x0C0, .f5 o (ftMod 1 ft.code))
  | .fmul c ft o => some (c, 0x0C2, .f5 o (ftMod 0 ft.code))
  | .fma c ft o => some (c, 0x0C4, .f5 o (ftMod 0 ft.code))
  | .fms c ft o => some (c, 0x0C4, .f5 o (ftMod 1 ft.code))
  | .fnma c ft o => some (c, 0x0C4, .f5 o (ftMod 2 ft.code))
  | .fmin c ft o => some (c, 0x0C6, .f5 o (ftMod 0 ft.code))
  | .fmax c ft o => some (c, 0x0C6, .f5 o (ftMod 1 ft.code))
  | .fmed3 c ft o => some (c, 0x0C7, .f5 o (ftMod 0 ft.code))
  | .fclamp c ft o => some (c, 0x0C8, .f5 o (ftMod 0 ft.code))
  | .fabs c ft o => some (c, 0x0C9, .f5 o (ftMod 0 ft.code))
  | .fneg c ft o => some (c, 0x0C9, .f5 o (ftMod 1 ft.code))
  | .fcmp c ft k b o => some (c, 0x0CA, .f5 o (b.code ++ k.code ++ ft.code))
  | .fflgRd c o => some (c, 0x0FE, .f5 o 0)
  | .fflgClr c k o => some (c, 0x0FE, .f5 o (k ++ (4 : BitVec 3)))
  | .cvtF32 c sf rm sat o => some (c, 0x100, .f5 o (cvtMod sf rm sat))
  | .cvtF16 c sf rm sat o => some (c, 0x101, .f5 o (cvtMod sf rm sat))
  | .cvtBf16 c sf rm sat o => some (c, 0x102, .f5 o (cvtMod sf rm sat))
  | .cvtE4m3 c sf rm sat o => some (c, 0x103, .f5 o (cvtMod sf rm sat))
  | .cvtE5m2 c sf rm sat o => some (c, 0x104, .f5 o (cvtMod sf rm sat))
  | .cvtI32 c sf rm sat o => some (c, 0x105, .f5 o (cvtMod sf rm sat))
  | .cvtN32 c sf rm sat o => some (c, 0x106, .f5 o (cvtMod sf rm sat))
  | .cvtI64 c sf rm sat o => some (c, 0x107, .f5 o (cvtMod sf rm sat))
  | .cvtN64 c sf rm sat o => some (c, 0x108, .f5 o (cvtMod sf rm sat))
  | .cvtfTo c rm slot sat o => some (c, 0x110, .f5 o (cvtfMod rm slot sat))
  | .cvtfFrom c rm slot sat o => some (c, 0x111, .f5 o (cvtfMod rm slot sat))
  | .bsdec c k o => some (c, 0x112, .f5 o ((0 : BitVec 6) ++ k))
  | .rngSeed c o => some (c, 0x11E, .f5 o 0)
  | .rngRd c o => some (c, 0x11E, .f5 o 1)
  | .rngNext c o => some (c, 0x11E, .f5 o 2)
  | .frcp c ft o => some (c, 0x120, .f5 o (ftMod 0 ft.code))
  | .frsq c ft o => some (c, 0x120, .f5 o (ftMod 1 ft.code))
  | .fsqrt c ft o => some (c, 0x120, .f5 o (ftMod 2 ft.code))
  | .fex2 c ft o => some (c, 0x120, .f5 o (ftMod 3 ft.code))
  | .flg2 c ft o => some (c, 0x120, .f5 o (ftMod 4 ft.code))
  | .fsinpi c ft o => some (c, 0x120, .f5 o (ftMod 5 ft.code))
  | .fcospi c ft o => some (c, 0x120, .f5 o (ftMod 6 ft.code))
  | .ftanh c ft o => some (c, 0x120, .f5 o (ftMod 7 ft.code))
  | .fdiv c ft o => some (c, 0x121, .f5 o (ftMod 0 ft.code))
  | .cvdecl c o => some (c, 0x140, .f5 o 0)
  | .sign c o => some (c, 0x141, .f5 o 0)
  | .mmaBf16 c n take z o => some (c, 0x142, .f5 o (mmaMod n take z))
  | .mmaSpBf16 c n take z o => some (c, 0x143, .f5 o (mmaMod n take z))
  | .accZero c o => some (c, 0x150, .f5 o 0)
  | .accFree c o => some (c, 0x151, .f5 o 0)
  | .accRd c o => some (c, 0x152, .f5 o 0)
  | .accWr c o => some (c, 0x153, .f5 o 0)
  | .barw c o => some (c, 0x260, .f5 o 0)
  | .bara c o => some (c, 0x260, .f5 o 1)
  | .phaseAdv c o => some (c, 0x262, .f5 o 0)
  | .phaseRd c o => some (c, 0x263, .f5 o 0)
  | .enq c o => some (c, 0x271, .f5 o 0)
  | .enqTry c o => some (c, 0x271, .f5 o 1)
  | .yield c o => some (c, 0x272, .f5 o 0)
  | .waitNs c o => some (c, 0x273, .f5 o 0)
  | .addRi c ty o => some (c, 0x003, .ri o (tyMod 0 ty.code))
  | .subRi c ty o => some (c, 0x005, .ri o (tyMod 0 ty.code))
  | .mulLoRi c ty o => some (c, 0x009, .ri o (tyMod 0 ty.code))
  | .minRi c ty o => some (c, 0x00D, .ri o (tyMod 0 ty.code))
  | .maxRi c ty o => some (c, 0x00D, .ri o (tyMod 1 ty.code))
  | .andRi c o => some (c, 0x041, .ri o 0)
  | .orRi c o => some (c, 0x041, .ri o 1)
  | .xorRi c o => some (c, 0x041, .ri o 2)
  | .movRi c o => some (c, 0x049, .ri o 0)
  | .cmpRi c ty k o => some (c, 0x081, .ri o ((0 : BitVec 3) ++ k.code ++ ty.code))
  | .bcstRi c o => some (c, 0x0A4, .ri o 0)
  | .faddRi c ft o => some (c, 0x0C1, .ri o (ftMod 0 ft.code))
  | .fsubRi c ft o => some (c, 0x0C1, .ri o (ftMod 1 ft.code))
  | .fmulRi c ft o => some (c, 0x0C3, .ri o (ftMod 0 ft.code))
  | .epiSt c a scl bias tr o => some (c, 0x160, .m o (epiMod a scl bias tr))
  | .ld c .n8 q sc o => some (c, 0x180, .m o (ordMod 1 q sc))
  | .ld c .i8 q sc o => some (c, 0x181, .m o (ordMod 1 q sc))
  | .ld c .n16 q sc o => some (c, 0x182, .m o (ordMod 1 q sc))
  | .ld c .i16 q sc o => some (c, 0x183, .m o (ordMod 1 q sc))
  | .ld c .b32 q sc o => some (c, 0x184, .m o (ordMod 1 q sc))
  | .ld c .b64 q sc o => some (c, 0x185, .m o (ordMod 1 q sc))
  | .ld c .b128 q sc o => some (c, 0x186, .m o (ordMod 1 q sc))
  | .st c .b8 q sc o => some (c, 0x188, .m o (ordMod 2 q sc))
  | .st c .b16 q sc o => some (c, 0x189, .m o (ordMod 2 q sc))
  | .st c .b32 q sc o => some (c, 0x18A, .m o (ordMod 2 q sc))
  | .st c .b64 q sc o => some (c, 0x18B, .m o (ordMod 2 q sc))
  | .st c .b128 q sc o => some (c, 0x18C, .m o (ordMod 2 q sc))
  | .lds c .b32 t o => some (c, 0x190, .m o t.code)
  | .lds c .b64 t o => some (c, 0x191, .m o t.code)
  | .lds c .b128 t o => some (c, 0x192, .m o t.code)
  | .sts c .b32 o => some (c, 0x198, .m o 0)
  | .sts c .b64 o => some (c, 0x199, .m o 0)
  | .sts c .b128 o => some (c, 0x19A, .m o 0)
  | .lcln c o => some (c, 0x1B0, .m o 0)
  | .atomAdd c a sc nr w o => some (c, 0x1C0, .m o (atomMod a sc nr w))
  | .atomSmin c a sc nr w o => some (c, 0x1C1, .m o (atomMod a sc nr w))
  | .atomUmin c a sc nr w o => some (c, 0x1C2, .m o (atomMod a sc nr w))
  | .atomSmax c a sc nr w o => some (c, 0x1C3, .m o (atomMod a sc nr w))
  | .atomUmax c a sc nr w o => some (c, 0x1C4, .m o (atomMod a sc nr w))
  | .atomAnd c a sc nr w o => some (c, 0x1C5, .m o (atomMod a sc nr w))
  | .atomOr c a sc nr w o => some (c, 0x1C6, .m o (atomMod a sc nr w))
  | .atomXor c a sc nr w o => some (c, 0x1C7, .m o (atomMod a sc nr w))
  | .atomExch c a sc nr w o => some (c, 0x1C8, .m o (atomMod a sc nr w))
  | .atomCas c a sc nr w o => some (c, 0x1C9, .m o (atomMod a sc nr w))
  | .atomFaddF32 c a sc nr o => some (c, 0x1CA, .m o (atomMod a sc nr false))
  | .sred c k o => some (c, 0x200, .m o k.code)
  | .hgath c w o => some (c, 0x201, .m o ((0 : BitVec 7) ++ BitVec.ofBool w))
  | .card c o => some (c, 0x220, .m o 0)
  | .wpeer c o => some (c, 0x230, .m o 0)
  | .epiT c a scl bias o => some (c, 0x161, .t o (epiMod a scl bias false))
  | .tarm c o => some (c, 0x1F0, .t o 0)
  | .take c z o => some (c, 0x1F1, .t o z.code)
  | .putTRetry c u o => some (c, 0x1F2, .t o (putMod u 1))
  | .putTRep c u o => some (c, 0x1F2, .t o (putMod u 2))
  | .rgetT c o => some (c, 0x231, .t o 0)
  | .bra c o => some (c, 0x240, .b o 0)
  | .call c o => some (c, 0x241, .b o 0)
  | .brx c o => some (c, 0x242, .b o 0)
  | .calli c o => some (c, 0x243, .b o 0)
  | .ret c o => some (c, 0x244, .b o 0)
  | .jtb c base o => some (c, 0x245, .b o ((0 : BitVec 2) ++ base))
  | .exit c o => some (c, 0x246, .b o 0)
  | .spawn c o => some (c, 0x270, .b o 0)
  | .spawnTry c o => some (c, 0x270, .b o 1)
  | .fence c a sc o => some (c, 0x1E0, .x o ((0 : BitVec 2) ++ sc.code ++ a.code))
  | .trap c o => some (c, 0x280, .x o 0)
  | .retr c o => some (c, 0x281, .x o 0)
  | .retrC c o => some (c, 0x281, .x o 1)
  | .frmRd c o => some (c, 0x282, .x o 0)
  | .frmWr c o => some (c, 0x283, .x o 0)
  | .contSet c o => some (c, 0x284, .x o 0)
  | .contSig c o => some (c, 0x285, .x o 0)
  | .srRd c o => some (c, 0x286, .x o 0)
  | .srWr c o => some (c, 0x287, .x o 0)
  | .ctxCtlHold c o | .ctxCtlRelease c o | .ctxCtlKill c o => some (c, 0x288, .x o 0)
  | .tlbiVa c o => some (c, 0x289, .x o 0)
  | .tlbiCtx c o => some (c, 0x289, .x o 1)
  | .tlbiTen c o => some (c, 0x289, .x o 2)
  | .erd c o => some (c, 0x2A0, .x o 0)
  | .ewr c o => some (c, 0x2A1, .x o 0)
  | .ewt c o => some (c, 0x2A2, .x o 0)
  | .meter c o => some (c, 0x2A3, .x o 0)
  | .tmrRd c k o => some (c, 0x2B0, .x o ((0 : BitVec 7) ++ BitVec.ofBool k))
  | .tmrArm c k o => some (c, 0x2B1, .x o ((0 : BitVec 7) ++ BitVec.ofBool k))
  | .tmrOff c k o => some (c, 0x2B1, .x o ((0 : BitVec 6) ++ (1 : BitVec 1) ++ BitVec.ofBool k))
  | .matrixPassGrant _ | .matrixPassComplete _ _ | .epilogueAccepted _ _ | .fenceComplete _ _ | .memoryReply _ _ _
  | .storePerformed _ | .pageWalkComplete _ | .lineWriteback _ | .tileReadRetire _ _ | .tileArrival _
  | .arrivalRetry _ | .cardRun _ _ | .cardComplete _ _ | .joinTimeout _ _ | .phaseAdvanceReceive _ _
  | .spawnSlotGrant _ | .enqPush _ | .waitNsExpiry _ | .sinkWatchdogExpiry _ | .trapEntry _
  | .remoteErrorDelivery _ | .timerDeadlineFire _ _ | .meterRecordWrite _ | .contextSwitchOut _
  | .contextSwitchIn _ | .sliceBoundary _ | .periodBoundary | .correctionInterval | .opMoveComplete _
  | .imeasSample | .rackCapBroadcast | .rackCapCompute | .status _ | .cert _ | .attest _ | .bringup _ | .mapq _
  | .memrd _ | .memwr _ | .kebinlinkTraining _ | .qmapMap _ _ | .qmapUnmap _ _ | .qmapBadOp _ _ | .qmapComplete _
  | .launch _ _ | .workgroupRelease _ _ | .launchComplete _ | .wrsig _ _ | .wait _ _ | .waitReload _ _
  | .ctxdWrite _ _ | .pschWrite _ _ | .pcfgWrite _ _ | .opmbWrite _ _ | .ilimWrite _ _ | .partWrite _ _
  | .fsegWrite _ _ _ | .peereWrite _ _ | .otxmWrite _ _ | .ostrWrite _ _ | .laserLock _ _ | .registerWrite _ _ _ _
  | .opticsSample | .rotorSlotBoundary | .flitReceive _ | .relayTimeout _ | .peerLost _ | .powerOn _
  | .bringupStepComplete | .bringupStepTimeout | .firmwareCoreTrap _ | .firmwareWatchdogExpiry _
  | .firmwareReloadComplete _ | .fallbackHandOver _ | .rootTrap | .softTrip _ _ | .tripLogAck | .hardTrip _ _
  | .longLatencyComplete _ _ | .invalidKindPacket _ _ | .queueWrChange _ _ | .unassignedOpRequest _
  | .registerCacheFill _ _ _ => none

/-- The word of an instruction (R56): opcode, common fields, operand fields. -/
def encodeParts (p : Ctl × BitVec 10 × Body) : BitVec 96 := p.2.1 ++ encCtl p.1 ++ pack p.2.2
/-- The word of a well-formed instruction; none for a device event. -/
def encode (i : Instr) : Option (BitVec 96) := (parts i).map encodeParts
/-- The opcode of an instruction (R74); 0, which is unassigned, for a device event. -/
def opcodeOf (i : Instr) : Nat :=
  match parts i with
  | some (_, n, _) => n.toNat
  | none => 0
/-- The common fields of an instruction; those of an unguarded word for a device event. -/
def ctlOf (i : Instr) : Ctl :=
  match parts i with
  | some (c, _, _) => c
  | none => ⟨false, .pt, 0, 0, false, false, 0⟩

end Sys2Proof
end

