-- ==== Sys2Proof/Machine/State.lean ====
section
/-! DEFINITION. The state of the machine as plain data: every piece of state INVENTORY.md lists, the reasons a
step can stop, and the state after reset. Sparse maps are lists of (key, value) with rising keys. -/
namespace Sys2Proof.Machine

/-- A sparse map: keys strictly rising; the meaning of an absent key is its reader's. -/
abbrev SMap (α : Type) := List (Nat × α)

/-- Why the machine stops with a fault. -/
inductive Fault where
  /-- Raised by an instruction's meaning when no group, ejected thread or firmware thread has been selected to
  issue it (`cur` is none or names no warp); a state no step produces. Safe. -/
  | noIssuer
  deriving DecidableEq, Repr

/-- Why an instruction has no meaning. -/
inductive Refusal where
  /-- Raised by an arm of `exec` whose instruction has no meaning yet. Safe. -/
  | notModelled (mnemonic : String)
  deriving DecidableEq, Repr

/-- State of a thread (R27). -/
inductive LaneSt where | grouped | ejected | trapped | exited | absent
  deriving DecidableEq, Repr

/-- What a grouped thread waits for after its instruction has acted (R269). -/
inductive Wait where
  | none | barrier (b : Nat) | phase | timed (t : Nat) | frame | slot | room | retr (f : Nat) | table
  deriving DecidableEq, Repr

/-- An open lookahead window (R69, R70): the instruction, instructions left, the registers it writes (as keys:
v n is n, a n is 1024 + n, s n is 2048 + n, p n is 3072 + n). -/
structure Win where
  id : Nat
  left : Nat
  regs : List Nat
  deriving DecidableEq, Repr

/-- One thread (R26): PC, state, varying registers, predicates, flags (R112), generator (R104), its wait, the
open lookahead windows, its JOIN wait set (R279; none before arrival),
the skip count of its group (R270), since when it has stood at its instruction or in its wait (R291), and its well slot (R274). -/
structure Lane where
  pc : DWord
  st : LaneSt
  v : SMap Word
  p : BitVec 12
  flg : Word
  gs : DWord
  wait : Wait
  wins : List Win
  join : Option Mask
  skip : Nat
  since : Nat
  well : Nat
  deriving DecidableEq, Repr

/-- Register results of a long-latency instruction: destination, registers, one value of up to 128 bits and flags to set
per lane (one entry for a uniform destination), and whether a zero divisor was met (R115). -/
structure Res where
  dst : Opd
  n : Nat
  vals : List (BitVec 128)
  flags : List Nat
  dz : Bool
  deriving DecidableEq, Repr

/-- A lane of a load not yet performed: its address and where it leads; `cached` is its policy (R231). -/
structure LdLane where
  lane : Nat
  va : Nat
  pa : Nat
  cached : Bool
  deriving DecidableEq, Repr

/-- What completes an issued instruction (R69, R238). -/
inductive OutKind where
  /-- Results computed; completed by LONG_LATENCY_COMPLETE. -/
  | alu
  /-- Loads performed lane by lane as their replies arrive (R238): scope, bytes, sign extension, served at the home
  without the L1 (R226, R231), lanes still to read. -/
  | load (sc : Scope) (bytes : Nat) (sext home : Bool) (todo : List LdLane)
  /-- Values known once performed (an RMW, an untagged tile read): each lane's reply delivers its value. `todo`: the threads
  whose RMW is still to be performed (R213). -/
  | reply (todo : Mask)
  /-- Lanes answered by the fabric (R262). -/
  | remote (bytes : Nat) (sext : Bool)
  /-- A tile read: physical tiles, consuming or not, where each lane reads; `done` once it has been granted and has read
  its bytes (R243, R248, R252). -/
  | tile (tiles : List Nat) (take done : Bool) (offs : List Nat)
  /-- A fence holding back later accesses of its threads until it completes (R217, R247). -/
  | fence (ord : FOrd) (sc : Scope)
  /-- Reads accumulator elements in block order (R189, R195). -/
  | accRd (blk f0 : Nat)
  /-- Units of a `put.t` not yet accepted or reported (R253, R254). -/
  | put
  /-- An epilogue: its arrivals, if it has any, have been `sent` (R197, R198). -/
  | epi (sent : Bool)
  /-- A control instruction that waits for reads through a fabric window: the entries of a `jtb`, the packet of an `enq` (R299, R305). -/
  | await
  /-- Its translation has failed: the trap is still to be taken, with the group where its window lets it go on (R69, R399). -/
  | faulty (cause : Nat) (fva : DWord) (synd : Word)
  /-- Not performed: re-injected, to run from its captured operands (R205). -/
  | held
  deriving DecidableEq, Repr

/-- An issued-but-unfinished instruction: PC, group, guard-true threads, the register sources it captured in field order
(for a varying source the words of lane 0, then lane 1, ...), lanes still to complete, whether later accesses wait for
it (an acquire, R216), units of a `put.t` accepted, the home lines charged at completion with the fills of them that were found when it was
performed, and its age (R69, R205, R239, R402). -/
structure Outst where
  id : Nat
  pc : DWord
  ins : Instr
  mask : Mask
  act : Mask
  capt : List (List Word)
  kind : OutKind
  res : Res
  left : Mask
  acq : Bool
  age : Nat
  units : BitVec 32
  lines : List Nat
  fills : Nat
  deriving DecidableEq, Repr

/-- A point of program order: threads of a warp, and the age of their instruction (R204, R216). -/
structure Point where
  core : Nat
  ctx : Nat
  wk : Nat
  lanes : Mask
  age : Nat
  deriving DecidableEq, Repr

/-- A trap on its way to a frame (R399, R400). -/
structure Trap where
  mask : Mask
  cause : Nat
  fpc : DWord
  rpc : DWord
  fva : DWord
  synd : Word
  queue : Option Outst
  deriving DecidableEq, Repr

/-- A deadline of R362. -/
structure Deadline where
  t : DWord
  armed : Bool
  held : Bool
  deriving DecidableEq, Repr

/-- The recorded remote error of a warp (R408), with the lanes it affects. -/
structure RemErr where
  code : Word
  count : Word
  ifa : DWord
  lanes : Mask
  deriving DecidableEq, Repr

/-- A warp (R28, R33, R41, R414). `fw` names the firmware core whose one thread this is (R22); `code`: the blocks it has fetched, each as
it read it (R55). -/
structure Warp where
  ctx : Nat
  wg : Nat
  core : Nat
  index : Nat
  width : Nat
  role : Nat
  spawned : Bool
  fw : Option Nat
  nv : Nat
  na : Nat
  ns : Nat
  lanes : List Lane
  s : SMap Word
  a : SMap (Word × Word)
  level : Nat
  frame : Option Nat
  cpc : DWord
  dev : Deadline
  ctxd : Deadline
  rem : RemErr
  outs : List Outst
  swq : List Outst
  pend : List Trap
  hold : Option (List Nat)
  code : List (Nat × List Byte)
  deriving DecidableEq, Repr

/-- An entry of a replay queue (R402). -/
structure Rep where
  o : Outst
  valid : Bool
  drop : Bool
  deriving DecidableEq, Repr

/-- A trap frame (R401); `state` 0 free, 1 level 1 in use, 2 pending, 3 serviced. -/
structure Frame where
  cause : Word
  state : Nat
  fpc : DWord
  rpc : DWord
  fva : DWord
  synd : Word
  token : Word
  gmask : Mask
  gen : Nat
  rcnt : Word
  rifa : DWord
  pred : List (BitVec 12)
  flg : List Word
  ss : List Word
  sv : List (List Word)
  rep : List Rep
  warp : Nat
  deriving DecidableEq, Repr

/-- A named barrier (R281); sets are by warp index. `gone`: members that have exited and whose warp's slot another warp has taken. -/
structure Bar where
  e : Nat
  arrived : SMap Mask
  members : SMap Mask
  gone : Nat
  deriving DecidableEq, Repr

/-- A convergence register (R178): the declaring warp by index and by key. -/
structure Cv where
  declared : Bool
  warp : Nat
  wk : Nat
  vb : Nat
  m : Mask
  sigs : Mask
  latch : Option (List Word)
  deriving DecidableEq, Repr

/-- State of an accumulator block (R177). -/
inductive AccSt where | free | held | releasing
  deriving DecidableEq, Repr
/-- An accumulator block: state, elements 32m+n that are not +0, epilogues its release waits for, and the age of an
`acc.free` that has to follow passes still to come (R177, R189). -/
structure Acc where
  st : AccSt
  els : SMap Word
  waits : List Nat
  freeAt : Option Nat
  deriving DecidableEq, Repr

/-- An epilogue not yet accepted: its block, the arrivals that have not been taken (R177), its place in po, and what an `epi.st` is to store: runs of
physical bytes, and runs behind a window by peer, segment, offset and size (R206, R225, R227). -/
structure Epi where
  id : Nat
  po : Point
  blk : Nat
  arrivals : List Nat
  store : Bool
  bytes : List (Nat × Nat)
  wins : List (Nat × Nat × Nat × Nat)
  deriving DecidableEq, Repr

/-- A `spawn` waiting for a slot (R47, R303), held in its warp as instruction `id`. -/
structure SpawnReq where
  id : Nat
  wk : Nat
  mask : Mask
  pc : DWord
  params : List Word
  deriving DecidableEq, Repr

/-- A workgroup (R41, R413). `recv`: the counters received from the four neighbours; `advs`: for each of its latest phase
advances that some neighbour has still to receive, the point whose earlier writes it follows (R285). -/
structure Workgroup where
  launch : Nat
  ctx : Nat
  core : Nat
  phase : BitVec 16
  recv : SMap (BitVec 16)
  advs : List Point
  bars : List Bar
  cvs : List Cv
  accs : List Nat
  tiles : List Nat
  frames : List Frame
  restart : Bool
  epis : List Epi
  warps : SMap Nat
  spawnQ : List SpawnReq
  area : Nat
  deriving DecidableEq, Repr

/-- A role descriptor (R85). -/
structure Role where
  entry : DWord
  t : Nat
  nv : Nat
  na : Nat
  ns : Nat
  deriving DecidableEq, Repr

/-- A launch record (R85). -/
structure LRec where
  width : Nat
  roles : Nat
  cor : Bool
  idem : Bool
  aovt : Bool
  dzt : Bool
  lead : Nat
  ejt : Nat
  nb : Nat
  nparam : Nat
  spawn : Nat
  rjt : Nat
  acc : Nat
  tiles : Nat
  wdi : Nat
  fmtv : Nat
  r0 : Role
  r1 : Role
  param : List Word
  fmts : List (BitVec 128)
  deriving DecidableEq, Repr

/-- A launch in progress (R44, R312 to R319): its record and address, rectangle, the key of its queue's slot and the queue's header, the cores released and
ended, and whether the fallback scheduler started it, until the first period after the hand-over (R329). -/
structure Launch where
  ctx : Nat
  lr : LRec
  addr : DWord
  x0 : Nat
  y0 : Nat
  w : Nat
  h : Nat
  island : Nat
  slot : Nat
  hdr : DWord
  compl : DWord
  released : List Nat
  ended : List Nat
  depth : Nat
  parent : Option Nat
  childErr : Bool
  fbk : Bool
  status : Option Nat
  deriving DecidableEq, Repr

/-- A context beside its registers (R289, R325, R361, R410); `stopping` while its switch out is under way; `lost`: some workgroup held a tile that
was not EMPTY or a block that was not FREE at its last switch out (R445). -/
structure Ctx where
  resident : Bool
  stop : Nat
  energyOut : Bool
  stopping : Bool
  time : Nat
  wd : Nat
  lastSink : Nat
  lost : Bool
  deriving DecidableEq, Repr

/-- A queue-map request in progress (R316). -/
structure MapReq where
  unmap : Bool
  ctx : Nat
  hdr : DWord
  bad : Bool
  tag : Option Nat
  deriving DecidableEq, Repr

/-- A meter reading in progress (R354, R355); `snap` holds its first 512 bytes once its span has ended. -/
structure Reading where
  ctx : Nat
  buf : DWord
  t1 : Nat
  snap : List Byte
  deriving DecidableEq, Repr

/-- A tenant beside its registers (R321, R322, R316, R354); `res`: the time at each operating point, since the span began, of clusters that its
partition has given up or kept through a change (R355, R365). -/
structure Tenant where
  ceil : Nat
  avail : Nat
  map : Option MapReq
  waiting : List MapReq
  seq : Nat
  t0 : Nat
  reading : Option Reading
  drops : SMap Nat
  corr : Int
  clamps : Nat
  ctxs : List Nat
  res : SMap Nat
  deriving DecidableEq, Repr

/-- A partition's dispatcher (R325, R329): the time of its last ranking, the rotation, and the contexts that are to be resident. -/
structure Part where
  ranked : Nat
  rot : Nat
  want : List Nat
  deriving DecidableEq, Repr

/-- A slot of a queue table (R309, R312, R316). `wait`: the WAIT packet in progress and its last load time; `recs`: by packet observed and not
yet started, where its launch record lies and units of it as they were at some moment since (R88); `held`: since when it has had a packet that
it could start (R440). -/
structure Queue where
  hdr : DWord
  ring : DWord
  logn : Nat
  dev : Bool
  ctx : Nat
  rd : Nat
  wr : Nat
  depth : SMap (Nat × Nat)
  stopped : Bool
  wait : Option (DWord × DWord × Nat)
  recs : SMap (Nat × List Byte)
  held : Option Nat
  deriving DecidableEq, Repr

/-- An entry of a reservation table (R183, R184), with the place in po of its `mma`; `b` and `live` are what it has read of its B tiles. -/
structure ResEntry where
  id : Nat
  po : Point
  core : Nat
  ctx : Nat
  wg : Nat
  blk : Nat
  tile : Nat
  n : Nat
  take : Bool
  z : Bool
  sparse : Bool
  prio : Nat
  promo : Nat
  a : List Word
  granted : Bool
  done : Nat
  b : List (List (Nat × Word))
  live : List Word
  reads : List Nat
  deriving DecidableEq, Repr

/-- A card of a task scheduler (R257 to R261): its descriptor and address, its counter, whether it translates at supervisor
level, whether it has started, STATUS and FVA, arrivals not yet accepted, and what it has read and written (R239). `todo`: the 16-byte units it has
still to make (R211), of a COPY the next offset; `perm`: the table it reads rows through (R101); `got`: values read for columns not yet sent, value k of
column i at 32i + k; `data`: the bytes of the tiles it stores. -/
structure Card where
  id : Nat
  po : Point
  core : Nat
  ctx : Nat
  wg : Nat
  launch : Nat
  desc : List Byte
  dva : DWord
  ctr : Option DWord
  sup : Bool
  running : Bool
  status : Nat
  fva : DWord
  arrivals : List Nat
  rlines : List Nat
  wlines : List Nat
  units : Nat
  dtiles : Nat
  todo : List Nat
  perm : List Nat
  got : SMap Nat
  data : List Byte
  deriving DecidableEq, Repr

/-- An operating-point move (R349). -/
structure Move where
  goal : Nat
  due : Nat
  deriving DecidableEq, Repr

/-- A cluster's engines and governor (R183, R257, R331, R340, R346, R349), and the well slot that each scalar core issued last (R12,
R266). Absent weights are the OP 6 column. -/
structure Cluster where
  table : List ResEntry
  cards : List Card
  banks : SMap Word
  chg : SMap Nat
  hist : BitVec 4096
  move : Option Move
  since : Nat
  res : SMap Nat
  turn : SMap Nat
  deriving DecidableEq, Repr

/-- Tag of a tile (R248). -/
inductive Tag where
  | empty | armed (n c : Nat) | full
  deriving DecidableEq, Repr
/-- A tile of a core: absent bytes are 0. `grant`: the consuming instruction granted its FULL; `queue`: consuming
instructions waiting, oldest first; `last`: the context of its last holder (R249). -/
structure Tile where
  tag : Tag
  filter : Option Word
  bytes : SMap Byte
  grant : Option Nat
  last : Option Nat
  deriving DecidableEq, Repr

/-- An L1 line (R206, R230); `unc`: the bytes that an uncached mapping has written at the home since the line was filled, each with what the
home held before (R231), `mark`: the HINT of its latest access (R59). -/
structure L1Line where
  ctx : Nat
  va : Nat
  pa : Nat
  bytes : List Byte
  unc : SMap Byte
  mark : Nat
  deriving DecidableEq, Repr

/-- The open issue slot of a core (R32, R328): its instant, the context and PC of the groups in it, and their lane quarters. -/
structure Slot where
  t : Nat
  ctx : Nat
  pc : DWord
  quarters : List Nat
  deriving DecidableEq, Repr

/-- A line of a core's register cache (R13, R43, R409): whose it is, the role of its warp, the physical line, and whether a switch out
has marked it evictable. -/
structure RcLine where
  ctx : Nat
  wg : Nat
  role : Nat
  line : Nat
  free : Bool
  deriving DecidableEq, Repr

/-- A core (R12, R13, R43, R176, R248, R328): `sel` names the warp selected last by context, index and workgroup. -/
structure Core where
  tiles : SMap Tile
  acc : SMap Acc
  l1 : List L1Line
  sel : Option (Nat × Nat × Nat)
  slot : Option Slot
  rc : List RcLine
  deriving DecidableEq, Repr

/-- An RMW still to be performed (R213, R245, R255): the operation by its code, its operands, whether in the core's L1, and the unfinished
instruction whose `lane` receives the old value, if it has one. -/
structure RmwOp where
  op : Nat
  wide : Bool
  x : DWord
  cmp : DWord
  near : Bool
  acq : Bool
  ret : Option (Nat × Nat)
  deriving DecidableEq, Repr

/-- A store or RMW issued and not yet performed at its home (R206), in coherence order by `id` on one core; no bytes: the release
fence that later writes of its threads follow. `rel`: the scope of a release; `entered`: when it entered the core's L1 (in
names given so far); `readers`: reads of other threads made since it was visible to them; `cached`: its policy; `cls`: the class it is charged
at when it is performed, 0 where its line or message is charged with another of its instruction (R239, R336); `hint`: R59. -/
structure PStore where
  id : Nat
  po : Point
  va : Nat
  pa : Nat
  bytes : List Byte
  rel : Option Scope
  cached : Bool
  cls : Nat
  hint : Nat
  entered : Option Nat
  readers : List Point
  rmw : Option RmwOp
  deriving DecidableEq, Repr

/-- An LLC line (R239): present, dirty, the context that last wrote it, and the HINT of its latest access (R59). -/
structure LlcLine where
  line : Nat
  dirty : Bool
  ctx : Option Nat
  mark : Nat
  deriving DecidableEq, Repr

/-- A cached translation (R374) of a 64 KiB page of a context: the physical page, the low eight bits of the two
leaf entries, and their levels; for a page of a fabric window (R376), its peer, segment, PERM and offset in the segment; and the run of pages of
the stage-1 translation or descriptor that it is part of (R427). -/
structure Tlb where
  ctx : Nat
  page : Nat
  pa : Nat
  tenant : Nat
  leaf1 : Nat
  leaf2 : Nat
  lev1 : Nat
  lev2 : Nat
  win : Option (Nat × Nat × Nat × Nat)
  first : Nat
  pages : Nat
  deriving DecidableEq, Repr

/-- A table walk whose charge and fill are still to come (R375). -/
structure Walk where
  id : Nat
  ctx : Nat
  va : Nat
  lines : List Nat
  cluster : Nat
  deriving DecidableEq, Repr

/-- An arrival unit on its way to a tile (R248, R253, R254): of a `put.t` (`wk`, `out`), an epilogue, a card or, with
`srcPeer` and the transaction `tag`, a remote package. `win` is a target in a fabric window, `backoff` a refused unit, `src` the physical
address that a unit of an `rget.t` has still to read, with its HINT (R264). -/
structure Arrival where
  id : Nat
  ctx : Nat
  srcCore : Nat
  srcPeer : Option Nat
  launch : Nat
  core : Nat
  tile : Nat
  off : Nat
  data : List Byte
  po : Point
  retry : Bool
  backoff : Bool
  wk : Option Nat
  out : Nat
  lanes : Mask
  epi : Option (Nat × Nat)
  card : Option (Nat × Nat)
  tag : Option (Nat × Nat)
  win : Option (Nat × Nat × Nat)
  src : Option (Nat × Nat)
  deriving DecidableEq, Repr

/-- An outstanding remote access (R262, R380): kind 0 load, 1 atomic, 2 store, 3 atomic without return, 4 `put.t` unit (of
arrival `out`), 5 `rget.t` read (of arrival `out`), 6 the packet of an `enq`; `sent` is 0 until its request has left and then the time plus 1;
`seq` is its age; `hops` counts the flit hops of the request (R239), `cl` is the cluster it came from. -/
structure Remote where
  tag : Nat
  peer : Nat
  ctx : Nat
  wk : Nat
  out : Nat
  lane : Nat
  bytes : Nat
  kind : Nat
  ifa : DWord
  sent : Nat
  seq : Nat
  hops : Nat
  cl : Nat
  deriving DecidableEq, Repr

/-- A flit on a fibre (R389): the fibre pair, the stripe width that the preamble of its slot named, and the bytes of each channel in use. -/
structure Light where
  pair : Nat
  width : Nat
  lanes : List (List Byte)
  deriving DecidableEq, Repr

/-- The optical fabric (R376 to R394): flits waiting by destination peer, the relay region with each flit's name and time
of acceptance, outstanding accesses, request flits whose data flit is still to come, ring maps in force, waking lasers, the
time in 0.1 ns that each transmitter has used of the slot in force (R384, R389), the flits that have left as light,
the losses reported to firmware (R380), by ring the code before a heater write and the time of
the write (R390), and the destinations whose flit a relay has refused in the slot in force (R386). -/
structure Fabric where
  tx : SMap (List Flit)
  relay : List (Nat × Nat × Flit)
  remotes : List Remote
  inbox : List Flit
  otxm : SMap Word
  orxm : SMap Word
  waking : SMap Nat
  used : SMap Nat
  out : List Light
  lost : List Nat
  heat : SMap (Nat × Nat)
  refused : List Nat
  deriving DecidableEq, Repr

/-- A firmware core (R22, R440, R441): 0 the root of trust, 1 to 6 the command processors, 7 to 12 the service cores. `status` is
coded as SCST of R430 (1 while a command processor waits to take over), `last` is when it last retired an instruction,
and `fails` the times of its failures. -/
structure FwCore where
  status : Nat
  crash : Bool
  last : Nat
  fails : List Nat
  deriving DecidableEq, Repr

/-- An island beside its registers (R323, R329, R347): the queue served last of each tenant and in fallback, held reports,
and whether a current sample of the control interval exceeded CAP or 7/8 of it. -/
structure Island where
  rr : SMap Nat
  fbk : Nat
  held : List (Nat × List Byte)
  hot : Bool
  high : Bool
  deriving DecidableEq, Repr

/-- The root of trust beside BSTAT and ISTAT (R431 to R444): whether bring-up is under way, the time limit of its step, the chain M,
BOOTID, the contexts saved in a soft trip, the sequence number of the next trip-log entry, the island of a soft trip that is ending bring-up (R444),
and the cluster, TJ and time of the first sample of 115 °C or above (R446). -/
structure Boot where
  running : Bool
  due : Nat
  m : List Byte
  bootid : DWord
  saved : List Nat
  seq : Nat
  trip : Option Nat
  hot : Option (Nat × Nat × Nat)
  deriving DecidableEq, Repr

/-- A firmware image in flash (R435): its load address, length, bytes and signature. -/
structure FwImage where
  addr : Nat
  len : Nat
  bytes : List Byte
  sig : List Byte
  deriving DecidableEq, Repr

/-- What package flash holds (R16, R22, R351, R352, R378, R431, R435, R437): the configuration record's bytes and what it names (this peer, the members
of its cap group, the populated peers, whether the fabric is enabled, the vendor's public key), its signature, the certificate, the helper data of the
SRAM identity, and the image of each firmware core by number. Before a record is put into flash the model takes the fabric as enabled (log 4). -/
structure Flash where
  config : List Byte
  sig : List Byte
  vkey : List Byte
  peer : Nat
  members : List Nat
  populated : List Nat
  fabric : Bool
  cert : List Byte
  helper : List Byte
  images : SMap FwImage
  deriving DecidableEq, Repr

/-- A Kebinlink response (R20); LEN is the payload's length. -/
structure KResp where
  op : BitVec 16
  tag : BitVec 32
  rstat : Nat
  arg0 : Word
  arg1 : DWord
  payload : List Byte
  deriving DecidableEq, Repr

/-- The 16-byte accesses of a host's MEMRD or MEMWR (R21): the context, whether it writes, whether ACQ or REL is set, the units still
to be made as (offset, physical address), and the bytes read or to be written. -/
structure HostJob where
  ctx : Nat
  write : Bool
  order : Bool
  units : List (Nat × Nat)
  data : List Byte
  deriving DecidableEq, Repr

/-- An outstanding Kebinlink request: while it waits for an acquire before it the request itself (R21), then its accesses, and its response once it
is known. -/
structure KPend where
  id : Nat
  op : BitVec 16
  tag : BitVec 32
  req : Option KReq
  job : Option HostJob
  done : Option KResp
  deriving DecidableEq, Repr

/-- The host link (R19, R20): lanes trained, requests outstanding in the order received, and responses sent. -/
structure Link where
  lanes : Nat
  pending : List KPend
  resp : List KResp
  deriving DecidableEq, Repr

/-- A trip-log entry (R443), with whether the adapter card has acknowledged it. -/
structure Trip where
  bootid : DWord
  time : Nat
  kind : Nat
  ctx : Nat
  info : Nat
  seq : Nat
  acked : Bool
  deriving DecidableEq, Repr

/-- The issuer a step has selected: warp, the lanes of the group, their PC, the block's SLOTS and JOIN
flag, whether the thread is ejected, and whether the group is co-issued (R32). -/
structure Cur where
  wk : Nat
  mask : Mask
  pc : DWord
  slots : Nat
  join : Bool
  ejected : Bool
  co : Bool
  deriving DecidableEq, Repr

/-- What comes by itself in finite time (R215, R266, R491): an event, the issue of a core's next group, of a scalar latency core's next thread
or of a firmware thread, a store's entry into its L1, a unit of a host access, of an `rget.t` or of a card, the trap of a failed translation, a flit that leaves,
a loan, a save, a throttle, a hard trip. -/
inductive Task where
  | ins (i : Instr) | core (c : Nat) | well (cl n : Nat) | fwThread (k : Nat) | enter (id : Nat) | host (a b : Nat) | read (id : Nat)
  | unit (cl id : Nat) | fault (wk id : Nat) | own (f : Flit) | send (d : Nat) | loan | save | throttle | hardTrip
  deriving DecidableEq, Repr

/-- A task that waits, since which tick and which instant. -/
structure Waiting where
  task : Task
  tick : Nat
  now : Nat
  deriving DecidableEq, Repr

/-- A 64-byte block of memory as it was before a write, by its address and the first name not given by then: launches named before may still fetch
it (R55). -/
structure Old where
  pa : Nat
  time : Nat
  bytes : List Byte
  deriving DecidableEq, Repr

/-- The machine. -/
structure State where
  mem : List Host.Cell
  hw : SMap DWord
  warps : SMap Warp
  wgs : SMap Workgroup
  launches : SMap Launch
  ctxs : SMap Ctx
  tens : SMap Tenant
  parts : SMap Part
  queues : SMap Queue
  clusters : SMap Cluster
  cores : SMap Core
  islands : SMap Island
  fws : SMap FwCore
  stores : List PStore
  llc : List LlcLine
  tlb : List Tlb
  walks : List Walk
  arrivals : List Arrival
  fabric : Fabric
  boot : Boot
  flash : Flash
  link : Link
  trips : List Trip
  demands : SMap (Nat × Nat)
  now : Nat
  tick : Nat
  cur : Option Cur
  agenda : List Instr
  nextId : Nat
  waits : List Waiting
  old : List Old
  deriving DecidableEq, Repr

/-- The machine right after device reset (R432, R446, R4): memory cleared, every register at its reset value (an
absent entry of `hw`, `clusters`, `cores`, … reads as that value), no thread, no time elapsed. The values that the
spec leaves open, such as what flash holds and that its record enables the fabric (R16), are in log entries 4 and 5. -/
def State.reset : State where
  mem := []
  hw := []
  warps := []
  wgs := []
  launches := []
  ctxs := []
  tens := []
  parts := []
  queues := []
  clusters := []
  cores := []
  islands := []
  fws := []
  stores := []
  llc := []
  tlb := []
  walks := []
  arrivals := []
  fabric := ⟨[], [], [], [], [], [], [], [], [], [], [], []⟩
  boot := ⟨false, 0, List.replicate 32 0, 0, [], 0, none, none⟩
  flash := ⟨[], [], [], 0, [], [], true, [], [], []⟩
  link := ⟨0, [], []⟩
  trips := []
  demands := []
  now := 0
  tick := 0
  cur := none
  agenda := []
  nextId := 0
  waits := []
  old := []

end Sys2Proof.Machine
end

