-- ==== Sys2Proof/Machine/Data.lean ====
section
/-! DEFINITION. Sparse maps, the byte memory in its one canonical form, and bit and list helpers. -/
namespace Sys2Proof.Machine

/-! ### Sparse maps -/

/-- The value at a key. -/
def find {α : Type} : SMap α → Nat → Option α
  | [], _ => none
  | (k, v) :: r, x => if k = x then some v else find r x
/-- The value at a key, or a default. -/
def findD {α : Type} (m : SMap α) (x : Nat) (d : α) : α := (find m x).getD d
/-- The map with a key set, keys kept rising. -/
def put {α : Type} : SMap α → Nat → α → SMap α
  | [], x, v => [(x, v)]
  | (k, w) :: r, x, v =>
    if x < k then (x, v) :: (k, w) :: r
    else if x = k then (x, v) :: r
    else (k, w) :: put r x v
/-- The map without a key. -/
def del {α : Type} (m : SMap α) (x : Nat) : SMap α := m.filter fun e => e.1 != x
/-- Set a key, keeping no entry equal to the default `d`. -/
def putD {α : Type} [DecidableEq α] (m : SMap α) (x : Nat) (v d : α) : SMap α := if v = d then del m x else put m x v
/-- Set or remove a key. -/
def putO {α : Type} (m : SMap α) (x : Nat) : Option α → SMap α
  | some v => put m x v
  | none => del m x
/-- Change the value at a key that is present. -/
def modify {α : Type} (m : SMap α) (x : Nat) (f : α → α) : SMap α := m.map fun e => if e.1 = x then (e.1, f e.2) else e
/-- Keys strictly rising, all above `lo`. -/
def risingFrom {α : Type} : Option Nat → SMap α → Bool
  | _, [] => true
  | none, (k, _) :: r => risingFrom (some k) r
  | some l, (k, _) :: r => decide (l < k) && risingFrom (some k) r
/-- Keys strictly rising. -/
def rising {α : Type} (m : SMap α) : Bool := risingFrom none m

/-! ### Memory (R14, R90, R432) -/

/-- What an address that memory does not list reads as: bring-up clears memory (R432; log 6). -/
def memDefault : Byte := 0
/-- One byte of memory. -/
def memGet (m : List Host.Cell) (a : Nat) : Byte := findD m a memDefault
/-- Memory with one byte written, in canonical form. -/
def memSet (m : List Host.Cell) (a : Nat) (b : Byte) : List Host.Cell := putD m a b memDefault
/-- The canonical form: addresses rising, and no entry equal to what an unlisted address reads as. -/
def memWf (m : List Host.Cell) : Bool := rising m && m.all fun e => e.2 != memDefault
/-- `n` bytes from address `a` on. -/
def memBytes (m : List Host.Cell) (a n : Nat) : List Byte := (List.range n).map fun i => memGet m (a + i)
/-- The little-endian number in `n` bytes (R90). -/
def memNat (m : List Host.Cell) (a n : Nat) : Nat := leNat (memBytes m a n)

/-- The end of HBM4 (R14). -/
def memEnd : Nat := 0x9000000000

/-! ### Bits -/

/-- Bits hi..lo of a natural number. -/
def nbits (x lo n : Nat) : Nat := x / 2 ^ lo % 2 ^ n
/-- Bits lo+n-1..lo of a 64-bit value as a number. -/
def dbits (x : DWord) (lo n : Nat) : Nat := nbits x.toNat lo n
def wbits (x : Word) (lo n : Nat) : Nat := nbits x.toNat lo n
def dbit (x : DWord) (i : Nat) : Bool := x.getLsbD i
/-- A field of a word replaced. -/
def setBits (x lo n v : Nat) : Nat := x - nbits x lo n * 2 ^ lo + v % 2 ^ n * 2 ^ lo
def dset (x : DWord) (lo n v : Nat) : DWord := BitVec.ofNat 64 (setBits x.toNat lo n v)
def b2n (b : Bool) : Nat := if b then 1 else 0
def dw (n : Nat) : DWord := BitVec.ofNat 64 n
def wd (n : Nat) : Word := BitVec.ofNat 32 n
/-- The low and high words of a 64-bit value. -/
def lo32 (x : DWord) : Word := x.extractLsb' 0 32
def hi32 (x : DWord) : Word := x.extractLsb' 32 32
def pair (lo hi : Word) : DWord := hi ++ lo
/-- Sign extension of a word. -/
def sx64 (x : Word) : DWord := x.signExtend 64
def zx64 (x : Word) : DWord := x.setWidth 64
def sat64 (x : Int) : Int := max (-(2 ^ 63)) (min (2 ^ 63 - 1) x)

/-! ### Lane masks -/

def inMask (m : Mask) (i : Nat) : Bool := m.getLsbD i
/-- The lanes of 0 .. 63 satisfying a test. -/
def maskOf (n : Nat) (f : Nat → Bool) : Mask :=
  (List.range n).foldl (fun m i => if f i then m ||| BitVec.ofNat 64 (2 ^ i) else m) 0
def lanesOf (m : Mask) : List Nat := (List.range 64).filter (inMask m)
def lowest (m : Mask) : Nat := (lanesOf m).headD 0
def popcount (m : Mask) : Nat := (lanesOf m).length

/-! ### Lists -/

/-- The element at an index, or a default. -/
def nth {α : Type} (l : List α) (i : Nat) (d : α) : α := l.getD i d
/-- A list with the element at an index replaced, if there is one. -/
def setAt {α : Type} (l : List α) (i : Nat) (x : α) : List α := l.set i x
/-- Map with the index. -/
def mapI {α β : Type} (f : Nat → α → β) (l : List α) : List β := l.zipIdx.map fun e => f e.2 e.1
/-- A list without repeats, first occurrences kept. -/
def dedup (l : List Nat) : List Nat := l.foldl (fun acc x => if acc.contains x then acc else acc ++ [x]) []
/-- Insert into a list sorted by a key. -/
def insertBy {α : Type} (le : α → α → Bool) (x : α) : List α → List α
  | [] => [x]
  | y :: r => if le x y then x :: y :: r else y :: insertBy le x r
def sortBy {α : Type} (le : α → α → Bool) (l : List α) : List α := l.foldr (insertBy le) []
def minNat? : List Nat → Option Nat
  | [] => none
  | x :: r => some (r.foldl min x)

end Sys2Proof.Machine
end

