-- ==== Sys2Proof/Machine/Regs.lean ====
section
/-! DEFINITION. The named hardware registers: widths, reserved bits, reset values, and the map that holds them. -/
namespace Sys2Proof.Machine

/-- A register's place in the map. -/
def kindNum : RegKind → Nat
  | .cbal => 0 | .cinf => 1 | .cuse => 2 | .ccor => 3 | .tbud => 4 | .tuse => 5 | .tdebt => 6 | .pcfg => 7 | .opmb => 8
  | .ilim => 9 | .imeas => 10 | .clst => 11 | .rcfg => 12 | .rack => 13 | .pdem => 14 | .pcap => 15 | .ctxt => 16
  | .cwin => 17 | .hvec => 18 | .cimg => 19 | .ctxs => 20 | .ctxd => 21 | .evrb => 22 | .evrs => 23 | .qmap => 24
  | .qstat => 25 | .psch => 26 | .part => 27 | .s2r => 28 | .tpeer => 29 | .peerid => 30 | .rots => 31 | .peerp => 32
  | .peere => 33 | .fseg => 34 | .ohtr => 35 | .ompd => 36 | .otxm => 37 | .orxm => 38 | .ostr => 39 | .oqd => 40
  | .bstat => 41 | .istat => 42
/-- Registers of a kind (R8, R24, R321, R324, R364, R378, R381, R391 to R394). -/
def kindCount : RegKind → Nat
  | .cbal | .cinf | .cuse | .ccor | .ctxt | .cwin | .hvec | .cimg | .ctxs | .ctxd => 1024
  | .tbud | .tuse | .tdebt | .pcfg | .opmb | .clst | .evrb | .evrs | .qmap | .qstat | .psch | .part | .s2r | .tpeer => 192
  | .ilim | .imeas | .istat => 6
  | .rcfg | .rack | .pdem | .pcap | .peerid | .rots | .bstat => 1
  | .peerp | .peere => 32
  | .fseg => 2048
  | .ohtr | .ompd => 4096
  | .otxm | .orxm | .ostr | .oqd => 256
/-- 64-bit registers. -/
def kindWide : RegKind → Bool
  | .cbal | .cinf | .cuse | .ccor | .tbud | .tuse | .tdebt | .ctxt | .cwin | .hvec | .cimg | .evrb | .qmap | .s2r => true
  | _ => false
/-- The bits that are not reserved; a reserved bit reads as zero. Word `n mod 8` of a segment descriptor (R381). -/
def regMask (k : RegKind) (n : Nat) : DWord :=
  match k with
  | .cbal | .ccor => 0xFFFFFFFFFFFFFFFF
  | .cinf | .cuse | .tuse => 0x00007FFFFFFFFFFF
  | .tbud => 0x80007FFFFFFFFFFF
  | .tdebt => 0x0000FFFFFFFFFFFF
  | .pcfg => 0x83FF00FF
  | .opmb => 0x800030FF
  | .ilim => 0x87FF07FF
  | .imeas | .clst | .rcfg | .rack | .pcap | .evrs | .rots | .peerp | .peere | .ompd | .oqd => 0xFFFFFFFF
  | .pdem => 0xFFFF
  | .ctxt => 0x800000FFFFFF0000
  | .cwin => 0x000000FFFFFFFFDF
  | .hvec => 0x000FFFFFFFFFFFC0
  | .cimg => 0xFFFFFFFFFFFF0000
  | .ctxs => 0x8000000F
  | .ctxd => 0x83FFFF03
  | .evrb => 0x800FFFFFFFFFFFC0
  | .qmap => 0xFFFFFFFFFFFFFFC0
  | .qstat => 0x80FF003F
  | .psch => 0x3FFFF
  | .part => 0xC71F071F
  | .s2r => 0x800000FFFFFFE000
  | .tpeer => 0x0FFF0FFF
  | .peerid => 0xFFF
  | .fseg => match n % 8 with
    | 0 => 0xFCFFF0FF | 1 => 0x3FF | 2 | 3 => 0xFFFFFFFF | 4 => 0xFFFFFF | _ => 0
  | .ohtr => 0xFFF
  | .otxm | .orxm => 0x80FFFFFF
  | .ostr => 0x80FFFF0F
  | .bstat => 0xFFF107
  | .istat => 0xFE7
/-- The value after device reset: as the register's table gives it; log 4 for `PEERP`/`PEERE` and TJ. -/
def regReset (k : RegKind) (n : Nat) : DWord :=
  match k with
  | .pcfg => 0x60
  | .opmb => 0x66
  | .ilim => 0x03E803E8
  | .clst => 0x66FF0
  | .rcfg => 0x05DC0000
  | .pdem | .pcap => 5000
  | .ctxd => 0x10000
  | .psch => 100
  | .tpeer => 0xFFF
  | .peerp | .peere => if n = 0 then 1 else 0
  | .otxm | .orxm => 0xFAC688
  | .ostr => 0xFFFF00
  | _ => 0
def regKey (k : RegKind) (n : Nat) : Nat := kindNum k * 65536 + n % 65536
/-- The register's value in a map that lists only values differing from reset. -/
def hwGet (m : SMap DWord) (k : RegKind) (n : Nat) : DWord := findD m (regKey k n) (regReset k n)
/-- A register stored: reserved bits stay zero. -/
def hwSet (m : SMap DWord) (k : RegKind) (n : Nat) (v : DWord) : SMap DWord :=
  putD m (regKey k n) (v &&& regMask k n) (regReset k n)

end Sys2Proof.Machine
end

