-- ==== Sys2Proof/Machine/Base.lean ====
section
/-! DEFINITION. Updates of the state as data, the readers of its parts, the geometry of the die (R8, R9, R14, R15),
and charges (R331 to R336). Every step of the machine is a list of updates applied in order. -/
namespace Sys2Proof.Machine

/-- One change of the state. -/
inductive Upd where
  | byte (pa : Nat) (b : Byte) | reg (k : RegKind) (n : Nat) (v : DWord)
  | warp (k : Nat) (w : Option Warp) | wg (k : Nat) (g : Option Workgroup) | launch (k : Nat) (l : Option Launch)
  | ctx (n : Nat) (c : Ctx) | ten (n : Nat) (t : Tenant) | part (n : Nat) (p : Part) | queue (k : Nat) (q : Option Queue)
  | cluster (n : Nat) (c : Cluster) | core (n : Nat) (c : Core) | island (n : Nat) (i : Island) | fw (n : Nat) (f : FwCore)
  | stores (l : List PStore) | llc (l : List LlcLine) | tlb (l : List Tlb) | walks (l : List Walk)
  | arrivals (l : List Arrival) | fabric (f : Fabric) | boot (b : Boot) | link (l : Link) | trips (l : List Trip)
  | demands (m : SMap (Nat × Nat)) | now (t : Nat) | tick (t : Nat) | cur (c : Option Cur) | agenda (l : List Instr)
  | nextId (n : Nat) | waits (l : List Waiting) | old (l : List Old)
  /-- Clearing of an island's HBM4 pair at bring-up (R14, R432). -/
  | memClear (island : Nat)
  /-- The power of the islands and the optics cut (R434, R442, R444, R446): everything they hold is gone, the root of trust aside. -/
  | powerCut
  /-- A package reset: every hardware register at its reset value (R432, R442). -/
  | hwClear

/-- The state after one change. -/
def applyUpd (s : State) : Upd → State
  | .byte pa b => { s with mem := memSet s.mem pa b }
  | .reg k n v => { s with hw := hwSet s.hw k n v }
  | .warp k w => { s with warps := putO s.warps k w }
  | .wg k g => { s with wgs := putO s.wgs k g }
  | .launch k l => { s with launches := putO s.launches k l }
  | .ctx n c => { s with ctxs := put s.ctxs n c }
  | .ten n t => { s with tens := put s.tens n t }
  | .part n p => { s with parts := put s.parts n p }
  | .queue k q => { s with queues := putO s.queues k q }
  | .cluster n c => { s with clusters := put s.clusters n c }
  | .core n c => { s with cores := put s.cores n c }
  | .island n i => { s with islands := put s.islands n i }
  | .fw n f => { s with fws := put s.fws n f }
  | .stores l => { s with stores := l }
  | .llc l => { s with llc := l }
  | .tlb l => { s with tlb := l }
  | .walks l => { s with walks := l }
  | .arrivals l => { s with arrivals := l }
  | .fabric f => { s with fabric := f }
  | .boot b => { s with boot := b }
  | .link l => { s with link := l }
  | .trips l => { s with trips := l }
  | .demands m => { s with demands := m }
  | .now t => { s with now := t }
  | .tick t => { s with tick := t }
  | .cur c => { s with cur := c }
  | .agenda l => { s with agenda := l }
  | .nextId n => { s with nextId := n }
  | .waits l => { s with waits := l }
  | .old l => { s with old := l }
  | .memClear n => { s with mem := s.mem.filter fun e => e.1 / 0x1800000000 != n }
  | .hwClear => { s with hw := [] }
  | .powerCut => { s with
      warps := s.warps.filter fun e => e.2.fw == some 0, wgs := [], launches := [], ctxs := [], tens := [], parts := [], queues := [], clusters := [], cores := [],
      islands := [], fws := s.fws.filter fun e => e.1 == 0, stores := [], llc := [], tlb := [], walks := [], arrivals := [],
      fabric := { s.fabric with tx := [], relay := [], remotes := [], inbox := [], otxm := [], orxm := [], waking := [], used := [], lost := [], heat := [], refused := [] }, demands := [], cur := none, waits := [], old := [] }

/-- The state after a list of changes, in order. -/
def commit (s : State) (us : List Upd) : State := us.foldl applyUpd s

/-- An action: the changes it makes, computed from the state it is applied to. -/
abbrev Action := State → List Upd

/-- The state after an action. -/
def run (a : Action) (s : State) : State := commit s (a s)
/-- No change. -/
def skip : Action := fun _ => []
/-- One action after another, each seeing the changes of those before it. -/
def acts : List Action → Action
  | [], _ => []
  | a :: r, s => let us := a s; us ++ acts r (commit s us)
/-- An action for each element of a list, in order. -/
def forEach {α : Type} (l : List α) (f : α → Action) : Action := acts (l.map f)
/-- An action or nothing. -/
def whenA (b : Bool) (a : Action) : Action := if b then a else skip
/-- An action that depends on the state. -/
def look (f : State → Action) : Action := fun s => f s s
/-- One change. -/
def upd (u : Upd) : Action := fun _ => [u]

/-! ### Readers, with what an absent entry stands for -/

def reg (s : State) (k : RegKind) (n : Nat) : DWord := hwGet s.hw k n
def regN (s : State) (k : RegKind) (n : Nat) : Nat := (reg s k n).toNat
def ctxOf (s : State) (n : Nat) : Ctx := findD s.ctxs n ⟨false, 0, false, false, 0, 0, 0, false⟩
def clusterOf (s : State) (n : Nat) : Cluster := findD s.clusters n ⟨[], [], [], [], 0, none, 0, [], []⟩
def coreOf (s : State) (n : Nat) : Core := findD s.cores n ⟨[], [], [], none, none, []⟩
def tenantOf (s : State) (n : Nat) : Tenant := findD s.tens n ⟨0, 0, none, [], 0, 0, none, [], 0, 0, [], []⟩
def partOf (s : State) (n : Nat) : Part := findD s.parts n ⟨0, 0, []⟩
def islandOf (s : State) (n : Nat) : Island := findD s.islands n ⟨[], 0, [], false, false⟩
def fwOf (s : State) (n : Nat) : FwCore := findD s.fws n ⟨0, false, 0, []⟩
def tileOf (c : Core) (n : Nat) : Tile := findD c.tiles n ⟨.empty, none, [], none, none⟩
def accOf (c : Core) (n : Nat) : Acc := findD c.acc n ⟨.free, [], [], none⟩

/-! ### Contexts (R324) -/

def ctxValid (s : State) (n : Nat) : Bool := dbit (reg s .ctxd n) 31
def ctxClass (s : State) (n : Nat) : Nat := dbits (reg s .ctxd n) 24 2
def ctxShare (s : State) (n : Nat) : Nat := dbits (reg s .ctxd n) 16 8
def ctxTenant (s : State) (n : Nat) : Nat := dbits (reg s .ctxd n) 8 8
def ctxSup (s : State) (n : Nat) : Bool := dbit (reg s .ctxd n) 1

/-! ### Geometry -/

def coreX (c : Nat) : Nat := c % 48
def coreY (c : Nat) : Nat := c / 48
/-- The cluster of a core (R8). -/
def clusterNo (core : Nat) : Nat := coreX core / 2 + 24 * (coreY core / 2)
def islandOfCore (core : Nat) : Nat := coreX core / 16 + 3 * (coreY core / 8)
def islandOfCluster (cl : Nat) : Nat := cl % 24 / 8 + 3 * (cl / 24 / 4)
def coresOfCluster (cl : Nat) : List Nat :=
  let x := 2 * (cl % 24)
  let y := 2 * (cl / 24)
  [x + 48 * y, x + 1 + 48 * y, x + 48 * (y + 1), x + 1 + 48 * (y + 1)]
/-- The HBM4 stacks of an island (R9). -/
def stacksOfIsland (n : Nat) : List Nat := [2 * n, 2 * n + 1]
/-- The stack that holds a physical address, and its address there (R14). -/
def stackOf (pa : Nat) : Nat := 2 * (pa / 0x1800000000) + nbits (pa % 0x1800000000) 8 1
def stackAddr (pa : Nat) : Nat := let o := pa % 0x1800000000; o / 512 * 256 + o % 256
/-- The island that a fibre pair serves (R18). -/
def islandOfPair (k : Nat) : Nat :=
  if k < 48 then 0 else if k < 80 then 1 else if k < 128 then 2 else if k < 176 then 3 else if k < 208 then 4 else 5
/-- The straits that a message crosses between two islands, in x and then in y (R7, R10). -/
def routeOf (a b : Nat) : List (Nat × Nat) :=
  let col (n : Nat) : Nat := n % 3
  let row (n : Nat) : Nat := n / 3 * 3
  let xs := if col a ≤ col b then (List.range (col b - col a)).map fun i => (row a + col a + i, row a + col a + i + 1)
    else (List.range (col a - col b)).map fun i => (row a + col a - i, row a + col a - i - 1)
  xs ++ if row a = row b then [] else [(row a + col b, row b + col b)]
/-- The home cluster of a physical address (R15). -/
def homeCluster (pa : Nat) : Nat :=
  let n := pa / 0x1800000000
  let o := pa - n * 0x1800000000
  let j := nbits o 6 5 ^^^ nbits o 11 5 ^^^ nbits o 16 5 ^^^ nbits o 21 5 ^^^ nbits o 26 5 ^^^ nbits o 31 5 ^^^ nbits o 36 1
  8 * (n % 3) + j % 8 + 24 * (4 * (n / 3) + j / 8)
/-- Rectangle of a partition in clusters: column, row, width, height (R365). -/
def partRect (s : State) (p : Nat) : Nat × Nat × Nat × Nat :=
  let r := reg s .part p
  (dbits r 0 5, dbits r 8 3, dbits r 16 5 + 1, dbits r 24 3 + 1)
def partValid (s : State) (p : Nat) : Bool := dbit (reg s .part p) 31
def inPart (s : State) (p cl : Nat) : Bool :=
  let (x, y, w, h) := partRect s p
  partValid s p && decide (x ≤ cl % 24) && decide (cl % 24 < x + w) && decide (y ≤ cl / 24) && decide (cl / 24 < y + h)
/-- The partition a cluster lies in (R366). -/
def partOfCluster (s : State) (cl : Nat) : Option Nat := (List.range 192).find? fun p => inPart s p cl
def clustersOfPart (s : State) (p : Nat) : List Nat := (List.range 192).filter (inPart s p)
/-- The island that serves a partition's queues: the one holding its origin cluster (R309). -/
def islandOfPart (s : State) (p : Nat) : Nat :=
  let (x, y, _, _) := partRect s p
  islandOfCluster (x + 24 * y)

/-! ### Free values -/

/-- A fresh free value: the tick advances and names it. -/
def withFree (f : Nat → Action) : Action := fun s => acts [upd (.tick (s.tick + 1)), f s.tick] s
/-- A fresh name for a pending operation. -/
def withId (f : Nat → Action) : Action := fun s => acts [upd (.nextId (s.nextId + 1)), f s.nextId] s

/-! ### Charges (R331 to R336) -/

/-- A charge: event class, count, and the cluster whose bank prices it and to which it is attributed. -/
structure Chg where
  cls : Nat
  n : Nat
  cl : Nat
  deriving DecidableEq, Repr

/-- Weights of R331 at OP 6. -/
def op6 : List Nat :=
  [16, 64, 32, 4, 6, 10, 24, 256, 256, 1024, 1024, 24576, 256, 1024, 30720, 80000, 2500, 1250, 4000, 1024, 12000, 1024, 2400000]
/-- Classes that no cluster is attributed (R331). -/
def unattributed (cls : Nat) : Bool := cls == 11 || cls == 14 || cls == 21
def opNow (s : State) (cl : Nat) : Nat := dbits (reg s .clst cl) 12 4
/-- The weight in force in a cluster's bank (R331, R332). -/
def weightIn (s : State) (cl bank cls : Nat) : Nat :=
  match find (clusterOf s cl).banks (32 * bank + cls) with
  | some w => w.toNat
  | none => nth op6 cls 0
def weight (s : State) (cl cls : Nat) : Nat := weightIn s cl (opNow s cl) cls
def drops (s : State) (c : Chg) : Nat := c.n * weight s c.cl c.cls

/-- Add to a context's cistern registers; `pos` counts toward USED (R334, R339, R341). -/
def addCbal (n : Nat) (amount : Int) : Action := fun s =>
  [.reg .cbal n (BitVec.ofInt 64 (sat64 ((reg s .cbal n).toInt + amount)))]
def clampUsed (x : Int) : DWord := BitVec.ofInt 64 (max 0 (min (2 ^ 47 - 1) x))
/-- STATE of BSTAT (R430), and whether the islands and the optics run: STATE 1, or 3 but in a trip that ends bring-up (R444). -/
def devState (s : State) : Nat := dbits (reg s .bstat 0) 0 3
def powered (s : State) : Bool := devState s == 1 || (devState s == 3 && s.boot.trip.isNone)
/-- An island has been released, and a strait is open when both of its islands have been (R432, R433). -/
def released (s : State) (isl : Nat) : Bool := dbits (reg s .istat isl) 0 3 == 4
def straitOpen (s : State) (e : Nat × Nat) : Bool := released s e.1 && released s e.2
/-- A message for an address goes through; at a closed strait it waits. Until bring-up ends only the root of trust, in island 0, sends any
(R433). -/
def reaches (s : State) (pa : Nat) : Bool :=
  powered s || (released s (islandOfCluster (homeCluster pa)) && (routeOf 0 (islandOfCluster (homeCluster pa))).all (straitOpen s))
/-- Whether the island serving a tenant is in fallback (R329). -/
def fallback (s : State) (isl : Nat) : Bool := dbit (reg s .istat isl) 11
/-- Account an amount against a context: balance down, USED of the context and of its tenant up (R321, R339). -/
def debit (n : Nat) (amount : Int) : Action := fun s =>
  let t := ctxTenant s n
  [.reg .cbal n (BitVec.ofInt 64 (sat64 ((reg s .cbal n).toInt - amount))),
   .reg .cuse n (clampUsed (regN s .cuse n + amount))] ++
  (if fallback s (islandOfPart s t) || (s.launches.any fun e => e.2.ctx == n && e.2.fbk) then [] else [.reg .tuse t (clampUsed (regN s .tuse t + amount))])
/-- Meter counts of a charge (R354). -/
def meterCount (n : Nat) (cs : List Chg) : Action := fun s =>
  let t := ctxTenant s n
  let r := tenantOf s t
  [.ten t { r with
    drops := cs.foldl (fun m c => put m c.cls (findD m c.cls 0 + drops s c)) r.drops
    ctxs := if r.ctxs.contains n then r.ctxs else r.ctxs ++ [n] }]
/-- Attribute charges to clusters for correction (R340): account 0 is the foreign one, n + 1 context n. -/
def attrCharge (acct : Nat) (cs : List Chg) : Action := forEach cs fun c s =>
  if unattributed c.cls || drops s c = 0 then [] else
    let r := clusterOf s c.cl
    [.cluster c.cl { r with chg := put r.chg acct (findD r.chg acct 0 + drops s c) }]
/-- Apply charges to a context, or as foreign events (R332 to R336). A charge of an invalid context is discarded. -/
def charge (ctx : Option Nat) (cs : List Chg) : Action := fun s =>
  match ctx with
  | none => attrCharge 0 cs s
  | some n =>
    if ctxValid s n then
      acts [debit n ((cs.map (drops s)).foldl (· + ·) 0 : Nat), meterCount n cs, attrCharge (n + 1) cs] s
    else []

end Sys2Proof.Machine
end

