-- ==== Sys2Proof/Machine/Float.lean ====
section
/-! DEFINITION. Floating point (spec/05, spec/07): formats, exact values, Round, conversions, arithmetic, the special
functions by an enclosure of 512 fraction bits, DecodeBlock and the generator. Flags are those of R112 as a number. -/
namespace Sys2Proof.Machine

/-! ### Flags (R112) -/

def fNX : Nat := 1
def fUF : Nat := 2
def fOF : Nat := 4
def fDZ : Nat := 8
def fIV : Nat := 16
def iDZ : Nat := 32
def iOV : Nat := 64
def iSAT : Nat := 128
def aOV : Nat := 256

/-! ### Formats and values (R91, R92) -/

/-- A format: precision, fraction bits, exponent bits, width, largest finite encoding, canonical NaN; `e4m3` is the
format without an infinity. -/
structure FFmt where
  p : Nat
  eb : Nat
  w : Nat
  maxEnc : Nat
  nan : Nat
  e4m3 : Bool
  deriving DecidableEq, Repr
def fp32 : FFmt := ⟨24, 8, 32, 0x7F7FFFFF, 0x7FC00000, false⟩
def fp16 : FFmt := ⟨11, 5, 16, 0x7BFF, 0x7E00, false⟩
def bf16 : FFmt := ⟨8, 8, 16, 0x7F7F, 0x7FC0, false⟩
def e4m3 : FFmt := ⟨4, 4, 8, 0x7E, 0x7F, true⟩
def e5m2 : FFmt := ⟨3, 5, 8, 0x7B, 0x7E, false⟩
/-- Emin = 1 - bias, and the exponent of the smallest spacing. -/
def FFmt.emin (f : FFmt) : Int := 2 - 2 ^ (f.eb - 1)
def FFmt.qmin (f : FFmt) : Int := f.emin - (f.p : Int) + 1
/-- A sign bit placed above a magnitude. -/
def FFmt.signed (f : FFmt) (neg : Bool) (mag : Nat) : Nat := b2n neg * 2 ^ (f.w - 1) + mag
def FFmt.inf (f : FFmt) (neg : Bool) : Nat := f.signed neg (f.maxEnc + 1)

/-- A value: a NaN (signalling or not), an infinity, or (-1)^neg n 2^e; n = 0 is a signed zero. -/
inductive FVal where
  | nan (sig : Bool) | inf (neg : Bool) | fin (neg : Bool) (n : Nat) (e : Int)
  deriving DecidableEq, Repr
/-- The value of an encoding (R92). -/
def FFmt.decode (f : FFmt) (bits : Nat) : FVal :=
  let fb := f.p - 1
  let neg := nbits bits (f.w - 1) 1 == 1
  let ex := nbits bits fb f.eb
  let fr := nbits bits 0 fb
  if f.e4m3 && nbits bits 0 7 == 0x7F then .nan false
  else if !f.e4m3 && ex == 2 ^ f.eb - 1 then
    if fr = 0 then .inf neg else .nan (decide (8 < f.w) && fr < 2 ^ (fb - 1))
  else if ex = 0 then .fin neg fr f.qmin
  else .fin neg (2 ^ fb + fr) (f.qmin + (ex - 1))
def FVal.isNan : FVal → Bool
  | .nan _ => true
  | _ => false
def FVal.isSig : FVal → Bool
  | .nan s => s
  | _ => false
def FVal.neg : FVal → FVal
  | .nan s => .nan s
  | .inf n => .inf (!n)
  | .fin n m e => .fin (!n) m e

/-! ### Round (R103) -/

/-- The generator's next state and value (R104). -/
def genNext (gs : DWord) : DWord × Word :=
  let gs := gs + 0x9E3779B97F4A7C15
  let z := (gs ^^^ (gs >>> 30)) * 0xBF58476D1CE4E5B9
  let z := (z ^^^ (z >>> 27)) * 0x94D049BB133111EB
  let z := z ^^^ (z >>> 31)
  (gs, hi32 z)
/-- Whether the magnitude rounds up from m q, given x = (m + rem / 2^sh) q and whether anything lies below `rem`. -/
def roundsUp (mode : Rnd) (neg : Bool) (r m rem sh : Nat) (st : Bool) : Bool :=
  let full := 2 ^ sh
  let exact := rem == 0 && !st
  if exact then false else
  match mode with
  | .rne => decide (full < 2 * rem) || (2 * rem == full && (st || m % 2 == 1))
  | .rz => false
  | .ru => !neg
  | .rd => neg
  | .rs => if neg then !decide (r * full < (full - rem) * 2 ^ 32) else decide (r * full < rem * 2 ^ 32)
/-- Round of a non-zero magnitude in [n 2^e, (n + 1) 2^e), equal to n 2^e unless `st`. Encoding and flags. -/
def roundMag (f : FFmt) (mode : Rnd) (sat : Bool) (r : Nat) (neg : Bool) (n : Nat) (e : Int) (st : Bool) : Nat × Nat :=
  let k : Int := (n.log2 : Int) + e
  let q : Int := max k f.emin - (f.p : Int) + 1
  let sh := (q - e).toNat
  let m := if e ≤ q then n / 2 ^ sh else n * 2 ^ (e - q).toNat
  let rem := if e ≤ q then n % 2 ^ sh else 0
  let exact := rem == 0 && !st
  let m := m + b2n (roundsUp mode neg r m rem sh st)
  let enc := (q - f.qmin).toNat * 2 ^ (f.p - 1) + m
  let fl := if exact then 0 else fNX + (if k < f.emin then fUF else 0)
  if enc ≤ f.maxEnc then (f.signed neg enc, fl)
  else
    let toMax := sat || mode == .rz || (mode == .ru && neg) || (mode == .rd && !neg)
    (if toMax then f.signed neg f.maxEnc else if f.e4m3 then f.nan else f.inf neg, (fl ||| fOF) ||| fNX)
/-- Conversion of a value into a format (R103, R106, R107). -/
def convert (f : FFmt) (mode : Rnd) (sat : Bool) (r : Nat) : FVal → Nat × Nat
  | .nan sig => (f.nan, if sig then fIV else 0)
  | .inf neg => if sat then (f.signed neg f.maxEnc, 0) else if f.e4m3 then (f.nan, fIV) else (f.inf neg, 0)
  | .fin neg n e => if n = 0 then (f.signed neg 0, 0) else roundMag f mode sat r neg n e false
/-- An integer as a value. -/
def ofInt (x : Int) : FVal := .fin (decide (x < 0)) x.natAbs 0
/-- Conversion to an integer in lo .. hi (R111): result and flags. -/
def toInt (mode : Rnd) (r : Nat) (lo hi : Int) : FVal → Int × Nat
  | .nan _ => (0, fIV)
  | .inf neg => (if neg then lo else hi, fIV)
  | .fin neg n e =>
    let sh := (-e).toNat
    let m := if 0 ≤ e then n * 2 ^ e.toNat else n / 2 ^ sh
    let rem := if 0 ≤ e then 0 else n % 2 ^ sh
    let m := m + b2n (roundsUp mode neg r m rem sh false)
    let y : Int := if neg then -(m : Int) else m
    if y < lo then (lo, fIV) else if hi < y then (hi, fIV) else (y, if rem = 0 then 0 else fNX)

/-! ### Sums and products -/

/-- The exact sum of signed magnitudes on a common exponent. -/
def addExact (a b : Bool × Nat × Int) : Int × Int :=
  let e := min a.2.2 b.2.2
  let t (x : Bool × Nat × Int) : Int := (if x.1 then -1 else 1) * (x.2.1 * 2 ^ (x.2.2 - e).toNat : Nat)
  (t a + t b, e)
/-- The sum of two values, neither NaN nor opposite infinities being excluded: R107, R109. -/
def addV (f : FFmt) (a b : FVal) : Nat × Nat :=
  match a, b with
  | .nan s, y => (f.nan, if s || y.isSig then fIV else 0)
  | x, .nan s => (f.nan, if s || x.isSig then fIV else 0)
  | .inf s, .inf t => if s = t then (f.inf s, 0) else (f.nan, fIV)
  | .inf s, _ => (f.inf s, 0)
  | _, .inf t => (f.inf t, 0)
  | .fin s n e, .fin t m g =>
    let (x, k) := addExact (s, n, e) (t, m, g)
    if x = 0 then (f.signed (s && t) 0, 0) else roundMag f .rne false 0 (decide (x < 0)) x.natAbs k false
/-- The exact product; none where it is 0 times infinity (R107). -/
def mulX (a b : FVal) : Option FVal :=
  match a, b with
  | .nan s, y => some (.nan (s || y.isSig))
  | x, .nan s => some (.nan (s || x.isSig))
  | .inf s, .inf t => some (.inf (s != t))
  | .inf s, .fin t m _ => if m = 0 then none else some (.inf (s != t))
  | .fin t m _, .inf s => if m = 0 then none else some (.inf (s != t))
  | .fin s n e, .fin t m g => some (.fin (s != t) (n * m) (e + g))
def mulV (f : FFmt) (a b : FVal) : Nat × Nat :=
  match mulX a b with
  | none => (f.nan, fIV)
  | some x => convert f .rne false 0 x
/-- a b + c rounded once (R153); `nb` negates the product. -/
def fmaV (f : FFmt) (nb : Bool) (a b c : FVal) : Nat × Nat :=
  match mulX a b with
  | none => (f.nan, fIV)
  | some x => addV f (if nb then x.neg else x) c
/-- Quotient (R169). -/
def divV (f : FFmt) (a b : FVal) : Nat × Nat :=
  match a, b with
  | .nan s, y => (f.nan, if s || y.isSig then fIV else 0)
  | x, .nan s => (f.nan, if s || x.isSig then fIV else 0)
  | .inf _, .inf _ => (f.nan, fIV)
  | .inf s, .fin t _ _ => (f.inf (s != t), 0)
  | .fin s _ _, .inf t => (f.signed (s != t) 0, 0)
  | .fin s n e, .fin t m g =>
    if m = 0 then (if n = 0 then (f.nan, fIV) else (f.inf (s != t), fDZ))
    else if n = 0 then (f.signed (s != t) 0, 0)
    else roundMag f .rne false 0 (s != t) (n * 2 ^ 96 / m) (e - g - 96) (n * 2 ^ 96 % m != 0)
/-- Order of two values that are not NaN: -0 equals +0. -/
def ltV (a b : FVal) : Bool :=
  match a, b with
  | .inf s, .inf t => s && !t
  | .inf s, _ => s
  | _, .inf t => !t
  | .fin s n e, .fin t m g => decide ((addExact (s, n, e) (!t, m, g)).1 < 0)
  | _, _ => false
def negV : FVal → Bool
  | .inf s => s
  | .fin s _ _ => s
  | .nan _ => false
/-- The order of R110: -0 below +0. -/
def ltZ (a b : FVal) : Bool := ltV a b || (!ltV b a && negV a && !negV b)
/-- FMin or FMax of two encodings (R110, R154): an operand unchanged, or the canonical NaN. -/
def minMax (f : FFmt) (wantMax : Bool) (x y : Nat) : Nat × Nat :=
  let a := f.decode x
  let b := f.decode y
  let fl := if a.isSig || b.isSig then fIV else 0
  if a.isNan && b.isNan then (f.nan, fl) else if a.isNan then (y, fl) else if b.isNan then (x, fl)
  else (if (if wantMax then ltZ a b else ltZ b a) then y else x, 0)
/-- The comparison of R157 with the FIV it raises. -/
def fcompare (c : FCond) (a b : FVal) : Bool × Nat :=
  let u := a.isNan || b.isNan
  let ordered := c == .lt || c == .le || c == .gt || c == .ge
  let lt := !u && ltV a b
  let gt := !u && ltV b a
  let t := if u then c == .ne || c == .uno else
    match c with
    | .eq => !lt && !gt | .ne => lt || gt | .lt => lt | .le => !gt | .gt => gt | .ge => !lt | .uno => false | .ord => true
  (t, if a.isSig || b.isSig || (u && ordered) then fIV else 0)

/-! ### Special functions (R168): lower and upper bounds in units of 2^-512 -/

def kOne : Nat := 2 ^ 512
/-- The floor of 2^512 ln 2. -/
def kLn2 : Nat := 0xb17217f7d1cf79abc9e3b39803f2f6af40f343267298b62d8a0d175b8baafa2be7b876206debac98559552fb4afa1b10ed2eae35c138214427573b291169b825
/-- The floor of 2^512 pi. -/
def kPi : Nat := 0x3243f6a8885a308d313198a2e03707344a4093822299f31d0082efa98ec4e6c89452821e638d01377be5466cf34e90c6cc0ac29b7c97c50dd3f84d5b5b5470917
/-- Terms t^k / k! for k = j, j + 1, ... in fixed point. -/
def expTerms (t : Nat) : Nat → Nat → Nat → Nat
  | 0, _, _ => 0
  | n + 1, j, term => term + expTerms t n (j + 1) (term * t / kOne / (j + 1))
/-- Every second term, from the one given. -/
def evenTerms (t : Nat) : Nat → Nat → Nat → Nat
  | 0, _, _ => 0
  | n + 1, j, term => term + evenTerms t n (j + 4) (term * t / kOne * t / kOne * t / kOne * t / kOne / ((j + 1) * (j + 2) * (j + 3) * (j + 4)))
/-- The most that the fixed-point series lose, in units of 2^-512. -/
def kErr : Nat := 4096
/-- Lower bound of e^t for 0 ≤ t < 1; the upper bound is `kErr` above. -/
def expFix (t : Nat) : Nat := expTerms t 110 0 kOne
/-- Sine and cosine of 0 ≤ t < 0.8, within `kErr`. -/
def sinFix (t : Nat) : Nat := evenTerms t 30 1 t - evenTerms t 30 3 (t * t / kOne * t / kOne / 6)
def cosFix (t : Nat) : Nat := evenTerms t 30 0 kOne - evenTerms t 30 2 (t * t / kOne / 2)
/-- The sum of z^(2j+1) / (2j+1), z² given. -/
def atanhTerms (z2 : Nat) : Nat → Nat → Nat → Nat
  | 0, _, _ => 0
  | n + 1, j, term => term / (2 * j + 1) + atanhTerms z2 n (j + 1) (term * z2 / kOne)
/-- Integer square root by bits, below 2^(b + 1). -/
def isqrtBits (n : Nat) : Nat → Nat → Nat
  | 0, r => if (r + 1) * (r + 1) ≤ n then r + 1 else r
  | b + 1, r => isqrtBits n b (if (r + 2 ^ (b + 1)) * (r + 2 ^ (b + 1)) ≤ n then r + 2 ^ (b + 1) else r)
def isqrt (n : Nat) : Nat := isqrtBits n (n.log2 / 2 + 1) 0

/-- What a special function of a finite operand gives. -/
inductive SpVal where
  /-- An exact value, possibly a signed zero. -/
  | exact (neg : Bool) (n : Nat) (e : Int)
  /-- A value strictly inside n 2^e .. (n + 1) 2^e. -/
  | sticky (neg : Bool) (n : Nat) (e : Int)
  /-- An inexact magnitude strictly between two bounds in units of 2^e. -/
  | between (neg : Bool) (lo hi : Nat) (e : Int)
  /-- An infinity with FDZ. -/
  | pole (neg : Bool)
  | invalid
  deriving DecidableEq, Repr

/-- Integer part (floor) and fraction in units of 2^-512 of a finite operand with e ≥ -512. -/
def splitFix (neg : Bool) (n : Nat) (e : Int) : Int × Nat :=
  let m := n * 2 ^ (e + 512).toNat
  if neg then (-((m + kOne - 1) / kOne : Nat), (kOne - m % kOne) % kOne) else ((m / kOne : Nat), m % kOne)
def clampInt (lo hi x : Int) : Int := max lo (min hi x)
def spEx2 (neg : Bool) (n : Nat) (e : Int) : SpVal :=
  if 64 < e then .exact false 1 (if neg then -4096 else 4096)
  else
    let (i, t) := splitFix neg n e
    let i := clampInt (-4096) 4096 i
    if t = 0 then .exact false 1 i
    else
      let u := t * kLn2 / kOne
      .between false (expFix u) (expFix (u + 2) + kErr) (i - 512)
def spLg2 (neg : Bool) (n : Nat) (e : Int) : SpVal :=
  if n = 0 then .pole true
  else if neg then .invalid
  else
    let l := n.log2
    let k : Int := e + l
    if n = 2 ^ l then .exact (decide (k < 0)) k.natAbs 0
    else
      -- log2 (n / 2^l) from z = (m - 1) / (m + 1)
      let z := (n - 2 ^ l) * kOne / (n + 2 ^ l)
      let s := 2 * atanhTerms (z * z / kOne) 180 0 z
      let lo : Int := ((s * kOne / (kLn2 + 1) : Nat) : Int) + k * kOne
      let hi : Int := ((((s + kErr) * kOne / kLn2 + 1) : Nat) : Int) + k * kOne
      if 0 ≤ lo then .between false lo.toNat hi.toNat (-512) else .between true (-hi).toNat (-lo).toNat (-512)
/-- Sine or cosine of pi r for a fraction 0 ≤ r ≤ 1/2 given in units of 2^-512. -/
def spQuarter (neg cosine : Bool) (r : Nat) : SpVal :=
  let useCos := decide (r ≤ kOne / 4) == cosine
  let r := if r ≤ kOne / 4 then r else kOne / 2 - r
  let t := kPi * r / kOne
  let y := if useCos then cosFix t else sinFix t
  .between neg (y - kErr) (y + kErr) (-512)
def spSinpi (neg : Bool) (n : Nat) (e : Int) : SpVal :=
  if 24 ≤ e then .exact neg 0 0
  else
    let m := n * 2 ^ (e + 512).toNat % (2 * kOne)
    let flip := decide (kOne ≤ m)
    let r := m % kOne
    let r := if kOne / 2 < r then kOne - r else r
    if r = 0 then .exact neg 0 0
    else if r = kOne / 2 then .exact (neg != flip) 1 0
    else spQuarter (neg != flip) false r
def spCospi (n : Nat) (e : Int) : SpVal :=
  if 25 ≤ e then .exact false 1 0
  else
    let m := n * 2 ^ (e + 512).toNat % (2 * kOne)
    let r := if kOne < m then 2 * kOne - m else m
    let flip := decide (kOne / 2 < r)
    let r := if flip then kOne - r else r
    if r = kOne / 2 then .exact false 0 0
    else if r = 0 then .exact flip 1 0
    else spQuarter flip true r
/-- Bounds of e^x for x ≥ 0 in units of 2^-512 of the second factor: 2^q, lower, upper. -/
def expBounds (x : Nat) : Nat × Nat × Nat :=
  let q := x / (kLn2 + 1)
  let hi := x - q * kLn2
  (q, expFix (hi - q), expFix hi + kErr)
/-- (e^y - 1) / (e^y + 1) with y = 2x, as tanh x. -/
def spTanh (neg : Bool) (n : Nat) (e : Int) : SpVal :=
  if n = 0 then .exact neg 0 0
  else if 7 ≤ (n.log2 : Int) + e then .sticky neg (kOne - 1) (-512)
  else
    let (q, l, h) := expBounds (2 * (n * 2 ^ (e + 512).toNat))
    let t (x : Nat) : Nat := (2 ^ q * x - kOne) * kOne / (2 ^ q * x + kOne)
    .between neg (t l) (t h + 1) (-512)
/-- 1 / (1 + e^-t) (R197). -/
def spSigm (neg : Bool) (n : Nat) (e : Int) : SpVal :=
  if n = 0 then .exact false 1 (-1)
  else if 7 ≤ (n.log2 : Int) + e then
    if neg then .sticky false 1 (-4096) else .sticky false (kOne - 1) (-512)
  else
    let (q, l, h) := expBounds (n * 2 ^ (e + 512).toNat)
    if neg then .between false (2 ^ 1024 / (2 ^ q * h + kOne)) (2 ^ 1024 / (2 ^ q * l + kOne) + 1) (-512)
    else .between false (2 ^ q * l * kOne / (2 ^ q * l + kOne)) (2 ^ q * h * kOne / (2 ^ q * h + kOne) + 1) (-512)
def spSqrt (neg : Bool) (n : Nat) (e : Int) : SpVal :=
  if n = 0 then .exact neg 0 0
  else if neg then .invalid
  else
    let m := n * 2 ^ (128 + (e % 2).toNat)
    let r := isqrt m
    let g := (e - e % 2 - 128) / 2
    if r * r = m then .exact false r g else .sticky false r g
def spRsq (neg : Bool) (n : Nat) (e : Int) : SpVal :=
  if n = 0 then .pole neg
  else if neg then .invalid
  else
    let m := n * 2 ^ (e % 2).toNat
    let a := 2 ^ 256 / m
    let r := isqrt a
    let g := -((e - e % 2) / 2) - 128
    if r * r * m = 2 ^ 256 then .exact false r g else .sticky false r g
def spRcp (neg : Bool) (n : Nat) (e : Int) : SpVal :=
  if n = 0 then .pole neg
  else if 2 ^ 128 % n = 0 then .exact neg (2 ^ 128 / n) (-e - 128) else .sticky neg (2 ^ 128 / n) (-e - 128)

/-- The functions of R167 and the sigmoid, by SUB. -/
inductive SpFn where | rcp | rsq | sqrt | ex2 | lg2 | sinpi | cospi | tanh | sigm
  deriving DecidableEq, Repr
def SpFn.num : SpFn → Nat
  | .rcp => 0 | .rsq => 1 | .sqrt => 2 | .ex2 => 3 | .lg2 => 4 | .sinpi => 5 | .cospi => 6 | .tanh => 7 | .sigm => 8
/-- The value of a function of a finite operand. -/
def spFin (fn : SpFn) (neg : Bool) (n : Nat) (e : Int) : SpVal :=
  match fn with
  | .rcp => spRcp neg n e
  | .rsq => spRsq neg n e
  | .sqrt => spSqrt neg n e
  | .ex2 => if n = 0 then .exact false 1 0 else spEx2 neg n e
  | .lg2 => spLg2 neg n e
  | .sinpi => spSinpi neg n e
  | .cospi => if n = 0 then .exact false 1 0 else spCospi n e
  | .tanh => spTanh neg n e
  | .sigm => spSigm neg n e
/-- The column for infinities (R168, R197). -/
def spInf (f : FFmt) (fn : SpFn) (neg : Bool) : Nat × Nat :=
  match fn with
  | .rcp => (f.signed neg 0, 0)
  | .rsq => if neg then (f.nan, fIV) else (f.signed false 0, 0)
  | .sqrt | .lg2 => if neg then (f.nan, fIV) else (f.inf false, 0)
  | .ex2 => if neg then (f.signed false 0, 0) else (f.inf false, 0)
  | .sinpi | .cospi => (f.nan, fIV)
  | .tanh => convert f .rne false 0 (ofInt (if neg then -1 else 1))
  | .sigm => convert f .rne false 0 (ofInt (if neg then 0 else 1))
/-- A special function, correctly rounded. Where the enclosure does not decide the rounding the value is free; log 12. -/
def special (f : FFmt) (fn : SpFn) (bits : Nat) : Nat × Nat :=
  match f.decode bits with
  | .nan sig => (f.nan, if sig then fIV else 0)
  | .inf neg => spInf f fn neg
  | .fin neg n e =>
    match spFin fn neg n e with
    | .invalid => (f.nan, fIV)
    | .pole neg => (f.inf neg, fDZ)
    | .exact neg n e => convert f .rne false 0 (.fin neg n e)
    | .sticky neg n e => roundMag f .rne false 0 neg n e true
    | .between neg lo hi e =>
      let a := roundMag f .rne false 0 neg lo e true
      if lo != 0 && a == roundMag f .rne false 0 neg hi e true then a
      else ((Config.freeSpecial fn.num (BitVec.ofNat 32 bits)).toNat % 2 ^ f.w, a.2)

/-! ### Block-scaled elements (R94, R96) -/

def codebook : List Int := [-64, -44, -32, -24, -18, -12, -6, 0, 5, 10, 16, 22, 28, 36, 48, 64]
/-- A codebook value or an integer element: exact, zero positive. -/
def codeVal (q : Nat) : FVal :=
  let x := nth codebook q 0
  .fin (decide (x < 0)) x.natAbs (-6)
/-- DecodeBlock (R96): the BF16 encoding. -/
def decodeBlock (v : FVal) (c : Nat) (sc : FVal) : Nat :=
  match mulX v sc with
  | none | some (.nan _) => bf16.nan
  | some (.inf neg) => if c = 0 then bf16.nan else bf16.inf neg
  | some (.fin neg n e) => (convert bf16 .rne false 0 (.fin neg (n * c) (e - 8))).1

end Sys2Proof.Machine
end

