-- ==== Sys2Proof/Machine/Info.lean ====
section
/-! DEFINITION. Static facts of an instruction that the checks of R71 need: the registers it reads and writes with their
widths, its opcode range, the privilege it needs, and what returns an ejected thread (R35, R36, R70, R276, R395). -/
namespace Sys2Proof.Machine

/-- An operand with the number of consecutive registers it names. -/
abbrev Span := Opd × Nat
/-- Keys of the registers of a span: v n is n, a n is 1024 + n, s n is 2048 + n, p n is 3072 + n. -/
def spanKeys : Span → List Nat
  | (.v n, w) => (List.range w).map (n.val + ·)
  | (.a n, _) => [1024 + n.val]
  | (.s n, w) => (List.range w).map (2048 + n.val + ·)
  | (.p n, _) => [3072 + n.val]
  | _ => []

/-- Registers of a 64-bit or 32-bit operand. -/
def wn (wide : Bool) : Nat := if wide then 2 else 1
def baseSpan (u : BitVec 6) : List Span := if u == 63 then [] else [(.s u.toFin, 2)]

/-- Registers read and written. -/
structure Uses where
  reads : List Span
  writes : List Span

/-- F5 with destination width `d`, sources A, B, C of widths `a`, `b`, `c`, and E a destination. -/
def useF5 (d a b c : Nat) (o : O5) : Uses := ⟨[(o.a, a), (o.b, b), (o.c, c)], [(o.d, d), (o.e, 1)]⟩
def useF5e (o : O5) : Uses := ⟨[(o.a, 1), (o.b, 1), (o.c, 1), (o.e, 1)], [(o.d, 1)]⟩
def useRI (w : Nat) (o : ORI) : Uses := ⟨[(o.a, w)], [(o.d, w)]⟩
def dataSpan (o : Opd) (n : Nat) : List Span := if n = 0 then [] else [(o, n)]
def useM (r w : Nat) (o : OM) : Uses := ⟨dataSpan o.data r ++ (o.addr, 1) :: baseSpan o.ubase, dataSpan o.data w⟩
def useT (r w : Nat) (o : OT) : Uses :=
  ⟨dataSpan o.data r ++ (o.tile, 1) :: (o.addr, 1) :: baseSpan o.ubase,
   dataSpan o.data w ++ (match o.pd with | some p => [(.p p, 1)] | none => [])⟩
def srcW (f : SrcF) : Nat := wn (WF.srcBits f == 64)
def regWide (sel : BitVec 16) : Nat :=
  match eSel sel.toNat with
  | some (_, w, _) => w / 32
  | none => 1
def sysWide (sel : BitVec 16) : Nat :=
  match sSel sel.toNat with
  | some (_, w) => w / 32
  | none => 1
def useX (dr dw a : Nat) (o : OX) : Uses := ⟨dataSpan o.d dr ++ [(o.a, a)], dataSpan o.d dw⟩
def atomUse (nr w : Bool) (o : OM) : Uses := useM (wn w) (if nr then 0 else wn w) o
def ubSpan (b : BitVec 6) : Span := (.s b.toFin, 2)

/-- What an instruction reads and writes, its guard aside. A device event names no register. -/
def usesOf : Instr → Uses
  | .nop _ _ => ⟨[], []⟩
  | .add _ ty o | .sub _ ty o | .mulLo _ ty o | .min _ ty o | .max _ ty o | .div _ ty o | .rem _ ty o =>
    useF5 (wn ty.wide) (wn ty.wide) (wn ty.wide) 1 o
  | .addSat _ _ o | .subSat _ _ o | .mulHi _ _ o | .madLo _ _ o | .bfe _ _ o => useF5 1 1 1 1 o
  | .mulWide _ _ o => useF5 2 1 1 1 o
  | .madWide _ _ o => useF5 2 1 1 2 o
  | .neg _ ty o | .abs _ ty o | .absSat _ ty o => useF5 (wn ty.wide) (wn ty.wide) 1 1 o
  | .addRi _ ty o | .subRi _ ty o | .mulLoRi _ ty o | .minRi _ ty o | .maxRi _ ty o => useRI (wn ty.wide) o
  | .flgiRd _ o | .flgiClr _ _ o | .lcomb _ _ _ o | .lea _ _ _ o | .pcomb _ _ _ o | .movAS _ o | .amk _ o | .matl _ o
  | .bcst _ o | .agetBase _ o | .agetStride _ o | .rdlane _ o | .fflgRd _ o | .fflgClr _ _ o | .rngNext _ o => useF5 1 1 1 1 o
  | .andRi _ o | .orRi _ o | .xorRi _ o | .movRi _ o | .bcstRi _ o | .faddRi _ _ o | .fsubRi _ _ o | .fmulRi _ _ o => useRI 1 o
  | .shl _ ty o | .shr _ ty o | .sar _ ty o => useF5 (wn ty.wide) (wn ty.wide) 1 1 o
  | .bfi _ o => useF5e o
  | .popc _ w o | .clz _ w o | .ctz _ w o => useF5 1 (wn w) 1 1 o
  | .brev _ w o | .mov _ w o => useF5 (wn w) (wn w) 1 1 o
  | .sel _ w o => useF5 (wn w) (wn w) (wn w) 1 o
  | .cmp _ ty _ _ o => useF5 1 (wn ty.wide) (wn ty.wide) 1 o
  | .cmpRi _ ty _ o => ⟨[(o.a, wn ty.wide)], [(o.d, 1)]⟩
  | .lanexSel _ w o | .lanexPat _ w o => useF5 (wn w) (wn w) 1 1 o
  | .vote _ m o => useF5 (wn (m == .mask)) 1 1 1 o
  | .fadd _ _ o | .fsub _ _ o | .fmul _ _ o | .fmin _ _ o | .fmax _ _ o | .fma _ _ o | .fms _ _ o | .fnma _ _ o
  | .fmed3 _ _ o | .fclamp _ _ o | .fabs _ _ o | .fneg _ _ o | .fcmp _ _ _ _ o => useF5 1 1 1 1 o
  | .cvtF32 _ sf _ _ o | .cvtF16 _ sf _ _ o | .cvtBf16 _ sf _ _ o | .cvtI32 _ sf _ _ o | .cvtN32 _ sf _ _ o =>
    useF5 1 (srcW sf) (srcW sf) 1 o
  | .cvtE4m3 _ _ _ _ o | .cvtE5m2 _ _ _ _ o => useF5e o
  | .cvtI64 _ sf _ _ o | .cvtN64 _ sf _ _ o => useF5 2 (srcW sf) 1 1 o
  | .cvtfTo _ _ _ _ o | .cvtfFrom _ _ _ _ o | .bsdec _ _ o => useF5 1 1 1 1 o
  | .rngSeed _ o => useF5 0 2 1 1 o
  | .rngRd _ o => useF5 2 1 1 1 o
  | .frcp _ _ o | .frsq _ _ o | .fsqrt _ _ o | .fex2 _ _ o | .flg2 _ _ o | .fsinpi _ _ o | .fcospi _ _ o | .ftanh _ _ o
  | .fdiv _ _ o => useF5 1 1 1 1 o
  | .cvdecl _ o => ⟨[(o.b, 2)], []⟩
  | .sign _ _ => ⟨[], []⟩
  | .mmaBf16 _ _ _ _ o | .mmaSpBf16 _ _ _ _ o => ⟨[(o.b, 1), (o.c, 1)], []⟩
  | .accZero _ o | .accFree _ o => ⟨[(o.a, 1), (o.b, 1)], []⟩
  | .accRd _ o => ⟨[(o.a, 1), (o.b, 1)], [(o.d, 1)]⟩
  | .accWr _ o => ⟨[(o.a, 1), (o.b, 1), (o.c, 1)], []⟩
  | .epiSt _ _ _ _ _ o => useM 4 0 o
  | .epiT _ _ _ _ o => useT 4 0 o
  | .ld _ sz _ _ o => useM 0 (match sz with | .b64 => 2 | .b128 => 4 | _ => 1) o
  | .st _ sz _ _ o => useM (match sz with | .b64 => 2 | .b128 => 4 | _ => 1) 0 o
  | .lds _ sz _ o => useM 0 (WF.tBytes sz / 4) o
  | .sts _ sz o => useM (WF.tBytes sz / 4) 0 o
  | .lcln _ o => useM 0 0 o
  | .atomAdd _ _ _ nr w o | .atomSmin _ _ _ nr w o | .atomUmin _ _ _ nr w o | .atomSmax _ _ _ nr w o
  | .atomUmax _ _ _ nr w o | .atomAnd _ _ _ nr w o | .atomOr _ _ _ nr w o | .atomXor _ _ _ nr w o
  | .atomExch _ _ _ nr w o => atomUse nr w o
  | .atomCas _ _ _ nr w o => useM (2 * wn w) (if nr then 0 else wn w) o
  | .atomFaddF32 _ _ _ nr o => atomUse nr false o
  | .fence _ _ _ _ => ⟨[], []⟩
  | .tarm _ o => useT 1 0 o
  | .take _ sz o => useT 0 (WF.tBytes sz / 4) o
  | .putTRetry _ _ o | .putTRep _ _ o => useT 1 0 o
  | .sred _ _ o => useM 1 0 o
  | .hgath _ w o => useM 0 (wn w) o
  | .card _ o => useM 2 0 o
  | .wpeer _ o => useM 0 1 o
  | .rgetT _ o => useT 0 0 o
  | .bra _ _ | .exit _ _ => ⟨[], []⟩
  | .call _ o => ⟨[], [(o.treg, 2)]⟩
  | .calli _ o => ⟨[(o.tlen, 2)], [(o.treg, 2)]⟩
  | .ret _ o | .brx _ o => ⟨[(o.treg, 2)], []⟩
  | .jtb _ b o => ⟨[(o.treg, 1), (o.tlen, 1), ubSpan b], []⟩
  | .barw _ o | .bara _ o => ⟨[(o.b, 1)], []⟩
  | .phaseAdv _ _ | .yield _ _ => ⟨[], []⟩
  | .phaseRd _ o => ⟨[], [(o.d, 1)]⟩
  | .spawn _ o => ⟨[(o.treg, 8)], []⟩
  | .spawnTry _ o => ⟨[(o.treg, 8)], [(o.tlen, 1)]⟩
  | .enq _ o | .enqTry _ o => ⟨[(o.a, 2), (o.b, 2)], [(o.d, 1)]⟩
  | .waitNs _ o => ⟨[(o.a, 1)], []⟩
  | .trap _ _ | .retr _ _ | .tmrOff _ _ _ => ⟨[], []⟩
  | .retrC _ o => ⟨[(o.a, 1)], []⟩
  | .frmRd _ o => useX 0 (wn (WF.frmWide o.sel.toNat)) 1 o
  | .frmWr _ o => useX (wn (WF.frmWide o.sel.toNat)) 0 1 o
  | .contSet _ o => ⟨[(o.a, 2)], []⟩
  | .contSig _ o => useX 0 1 1 o
  | .srRd _ o => useX 0 (sysWide o.sel) 1 o
  | .srWr _ o => useX (sysWide o.sel) 0 1 o
  | .ctxCtlHold _ o | .ctxCtlRelease _ o | .ctxCtlKill _ o => useX 0 1 1 o
  | .tlbiVa _ o => useX 2 0 1 o
  | .tlbiCtx _ o | .tlbiTen _ o => useX 0 0 1 o
  | .erd _ o => useX 0 (regWide o.sel) 1 o
  | .ewr _ o => useX (regWide o.sel) 0 1 o
  | .ewt _ o => useX 2 0 1 o
  | .meter _ o => useX 0 1 2 o
  | .tmrRd _ _ o => useX 0 2 0 o
  | .tmrArm _ _ o => useX 0 0 2 o
  | .matrixPassGrant _ | .matrixPassComplete _ _ | .epilogueAccepted _ _ | .fenceComplete _ _ | .memoryReply _ _ _
  | .storePerformed _ | .pageWalkComplete _ | .lineWriteback _ | .tileReadRetire _ _ | .tileArrival _
  | .arrivalRetry _ | .cardRun _ _ | .cardComplete _ _ | .joinTimeout _ _ | .phaseAdvanceReceive _ _
  | .spawnSlotGrant _ | .enqPush _ | .waitNsExpiry _ | .sinkWatchdogExpiry _ | .trapEntry _
  | .remoteErrorDelivery _ | .timerDeadlineFire _ _ | .meterRecordWrite _ | .contextSwitchOut _
  | .contextSwitchIn _ | .sliceBoundary _ | .periodBoundary | .correctionInterval | .opMoveComplete _
  | .imeasSample | .rackCapBroadcast | .rackCapCompute | .status _ | .cert _ | .attest _ | .bringup _ | .mapq _
  | .memrd _ | .memwr _ | .kebinlinkTraining _ | .qmapMap _ _ | .qmapUnmap _ _ | .qmapBadOp _ _ | .qmapComplete _
  | .launch _ _ | .workgroupRelease _ _ | .launchComplete _ | .wrsig _ _ | .wait _ _ | .waitReload _ _
  | .ctxdWrite _ _ | .pschWrite _ _ | .pcfgWrite _ _ | .opmbWrite _ _ | .ilimWrite _ _ | .partWrite _ _
  | .fsegWrite _ _ _ | .peereWrite _ _ | .otxmWrite _ _ | .ostrWrite _ _ | .laserLock _ _ | .registerWrite _ _ _ _
  | .opticsSample | .rotorSlotBoundary | .flitReceive _ | .relayTimeout _ | .peerLost _ | .powerOn _
  | .bringupStepComplete | .bringupStepTimeout | .firmwareCoreTrap _ | .firmwareWatchdogExpiry _
  | .firmwareReloadComplete _ | .fallbackHandOver _ | .rootTrap | .softTrip _ _ | .tripLogAck | .hardTrip _ _
  | .longLatencyComplete _ _ | .invalidKindPacket _ _ | .queueWrChange _ _ | .unassignedOpRequest _
  | .registerCacheFill _ _ _ => ⟨[], []⟩

/-- Keys read, the guard predicate among them, and keys written (R70). -/
def readKeys (i : Instr) : List Nat :=
  (match (ctlOf i).pred with
   | .p n => [3072 + n.val]
   | .pt => []) ++ (usesOf i).reads.flatMap spanKeys
def writeKeys (i : Instr) : List Nat := (usesOf i).writes.flatMap spanKeys

/-- Registers of A held by a convergence declaration at width W (R173). -/
def aRegs (w : Nat) : Nat := 512 / w
/-- Further registers that an instruction names without reading them (R190), at a warp width. -/
def namedKeys (width : Nat) : Instr → List Nat
  | .cvdecl _ o => match o.a with
    | .v n => spanKeys (.v n, aRegs width)
    | _ => []
  | _ => []
/-- The named barriers an instruction names (R281). -/
def barrierOf : Instr → Option Nat
  | .barw _ o | .bara _ o => match o.a with
    | .nb n => some n.val
    | _ => none
  | _ => none

/-- OPC 0x240 to 0x2BF: the instructions that close lookahead windows (R69). -/
def isControl (i : Instr) : Bool := decide (0x240 ≤ opcodeOf i)
/-- A uniform operand. -/
def isUni (o : Opd) : Bool := WF.clsOf o == .uni
/-- Long-latency instructions (R68). -/
def isLong (i : Instr) : Bool :=
  let n := opcodeOf i
  (decide (0x120 ≤ n) && decide (n < 0x240)) || n == 0x010 || n == 0x011 || n == 0x110 || n == 0x111 || n == 0x112
/-- Instructions that may stay unfinished, of which a warp holds 16 (R402, R411). -/
def takesEntry : Instr → Bool
  | .spawn _ _ | .enq _ _ | .enqTry _ _ | .jtb _ _ _ => true
  | i => isLong i
/-- The destination is uniform or affine, or a convergence register (R187), or the entry asks for the whole active set
(R294, R418): R35 applies. -/
def needsWhole : Instr → Bool
  | .cvdecl _ _ | .enq _ _ | .enqTry _ _ | .contSet _ _ => true
  | i => (writeKeys i).any fun k => decide (1024 ≤ k) && decide (k < 3072)
/-- What an ejected thread does not execute (R276). -/
def bounces (i : Instr) : Bool :=
  let n := opcodeOf i
  needsWhole i || n == 0x0A6 || n == 0x0B0 || n == 0x0B1 || (decide (0x140 ≤ n) && decide (n < 0x180)) ||
  (decide (0x1F0 ≤ n) && decide (n < 0x200)) || n == 0x220 || n == 0x231 || (decide (0x260 ≤ n) && decide (n < 0x270)) ||
  (decide (0x270 ≤ n) && decide (n < 0x274)) || decide (0x280 ≤ n)
/-- The least privilege that some use of the instruction has (check 8 of R71; R357, R359, R360, R418). What its index
needs beyond that is its own check. -/
def privOf : Instr → Priv
  | .contSig _ _ | .srRd _ _ | .srWr _ _ | .ctxCtlHold _ _ | .ctxCtlRelease _ _ | .ctxCtlKill _ _ | .tlbiVa _ _
  | .tlbiCtx _ _ | .meter _ _ => .supervisor
  | .tlbiTen _ _ | .ewt _ _ => .firmware
  | .erd _ o => if o.sel == 0 || o.sel == 2 || o.sel == 3 then .program else .supervisor
  | .ewr _ o => if o.sel == 0x21 then .supervisor else .firmware
  | _ => .program
def privNum : Priv → Nat
  | .program => 0
  | .supervisor => 1
  | .firmware => 2
/-- Instructions whose accesses a fence or a waiting tagged read of the thread holds back (R217, R220, R247). -/
def isAccess (i : Instr) : Bool :=
  let n := opcodeOf i
  (decide (0x160 ≤ n) && decide (n < 0x240)) || n == 0x245 || (decide (0x260 ≤ n) && decide (n < 0x272)) ||
  n == 0x285 || n == 0x289 || n == 0x2A2 || n == 0x2A3
/-- What a firmware core executes: the scalar subset (R481), and `tlbi.ten`, which R427 gives to firmware alone (log 33). -/
def fwSubset (i : Instr) : Bool :=
  let n := opcodeOf i
  decide (n < 0x140) || (decide (0x180 ≤ n) && decide (n < 0x1F0) && !notScalar i) || (decide (0x240 ≤ n) && decide (n < 0x246)) ||
  n == 0x272 || n == 0x273 || (decide (0x2A0 ≤ n) && decide (n < 0x2B2)) || isTen i
where
  isTen : Instr → Bool
    | .tlbiTen _ _ => true
    | _ => false
  /-- Tile-memory accesses stand among the loads and stores but not in the subset. -/
  notScalar : Instr → Bool
    | .lds _ _ _ _ | .sts _ _ _ => true
    | _ => false
/-- Replies arrive lane by lane (R238). -/
def perLane : Instr → Bool
  | .ld _ _ _ _ _ | .hgath _ _ _ | .atomAdd _ _ _ _ _ _ | .atomSmin _ _ _ _ _ _ | .atomUmin _ _ _ _ _ _
  | .atomSmax _ _ _ _ _ _ | .atomUmax _ _ _ _ _ _ | .atomAnd _ _ _ _ _ _ | .atomOr _ _ _ _ _ _
  | .atomXor _ _ _ _ _ _ | .atomExch _ _ _ _ _ _ | .atomCas _ _ _ _ _ _ | .atomFaddF32 _ _ _ _ _ => true
  | _ => false
/-- Format RI: an immediate operand (R120). -/
def hasImm : Instr → Bool
  | .addRi _ _ _ | .subRi _ _ _ | .mulLoRi _ _ _ | .minRi _ _ _ | .maxRi _ _ _ | .andRi _ _ | .orRi _ _ | .xorRi _ _
  | .movRi _ _ | .bcstRi _ _ | .faddRi _ _ _ | .fsubRi _ _ _ | .fmulRi _ _ _ | .cmpRi _ _ _ _ => true
  | _ => false
/-- No uniform, affine, immediate, convergence or barrier operand: the instruction may be co-issued (R32, R120, R292). -/
def coIssuable (i : Instr) : Bool :=
  let n := opcodeOf i
  !hasImm i && !(decide (0x140 ≤ n) && decide (n < 0x160)) && n != 0x260 &&
  ((usesOf i).reads ++ (usesOf i).writes).all fun u => match u.1 with
    | .v _ | .p _ | .pt | .none => true
    | _ => false
/-- Call-class instructions (R53). -/
def isCall : Instr → Bool
  | .call _ _ | .calli _ _ => true
  | _ => false

end Sys2Proof.Machine
end

