-- ==== Sys2Proof/Machine/Operands.lean ====
section
/-! DEFINITION. Operands of an issued instruction: what each lane reads (R37, R61, R116, R118), how a result is written
(R33, R57, R113), effective addresses (R64), and operands captured for a held instruction (R205). -/
namespace Sys2Proof.Machine

/-- An instruction at issue: the warp's key and value, the group, its guard-true threads, and the constants of R37. -/
structure Iss where
  k : Nat
  w : Warp
  i : Instr
  pc : DWord
  slots : Nat
  join : Bool
  ejected : Bool
  mask : Mask
  g : Mask
  env : Konst → Nat
  co : Bool
  po : Option Nat

/-! ### Registers -/

def absentLane : Lane := ⟨0, .absent, [], 0, 0, 0, .none, [], none, 0, 0, 0⟩
def laneOf (w : Warp) (i : Nat) : Lane := nth w.lanes i absentLane
def Lane.rd (l : Lane) (n : Nat) : Word := findD l.v n 0
def Lane.wr (l : Lane) (n : Nat) (x : Word) : Lane := { l with v := putD l.v n x 0 }
/-- A value of `k` registers from register n on, low word first. -/
def Lane.wrN (l : Lane) (n : Nat) (x : BitVec 128) : Nat → Lane
  | 0 => l
  | k + 1 => (l.wrN n x k).wr (n + k) (x.extractLsb' (32 * k) 32)
def Lane.pred (l : Lane) : PSel → Bool
  | .p n => l.p.getLsbD n.val
  | .pt => true
/-- A predicate operand; NONE reads as false (R139). -/
def Lane.predOpd (l : Lane) : Opd → Bool
  | .p n => l.p.getLsbD n.val
  | .pt => true
  | _ => false
def Lane.setP (l : Lane) (n : Nat) (b : Bool) : Lane :=
  { l with p := if b then l.p ||| BitVec.ofNat 12 (2 ^ n) else l.p &&& ~~~ BitVec.ofNat 12 (2 ^ n) }
/-- A predicate destination: a register, or `pt` and NONE which discard the write. -/
def Lane.setPOpd (l : Lane) (d : Opd) (b : Bool) : Lane :=
  match d with
  | .p n => l.setP n.val b
  | _ => l
/-- Sticky flags set (R113). -/
def Lane.orFlags (l : Lane) (f : Nat) : Lane := { l with flg := l.flg ||| wd f }
def Warp.rdS (w : Warp) (n : Nat) : Word := findD w.s n 0
def Warp.wrS (w : Warp) (n : Nat) (x : Word) : Warp := { w with s := putD w.s n x 0 }
def Warp.wrSN (w : Warp) (n : Nat) (x : BitVec 128) : Nat → Warp
  | 0 => w
  | k + 1 => (w.wrSN n x k).wrS (n + k) (x.extractLsb' (32 * k) 32)
def Warp.rdA (w : Warp) (n : Nat) : Word × Word := findD w.a n (0, 0)
def Warp.wrA (w : Warp) (n : Nat) (x : Word × Word) : Warp := { w with a := putD w.a n x (0, 0) }
/-- Lanes of a set changed, every other lane as it was. -/
def Warp.mapLanes (w : Warp) (m : Mask) (f : Nat → Lane → Lane) : Warp :=
  { w with lanes := mapI (fun i l => if inMask m i then f i l else l) w.lanes }
/-- A wait that ends. -/
def Lane.wake (l : Lane) (now : Nat) : Lane := { l with wait := .none, since := now }
/-- The active set (R27). -/
def Lane.active (l : Lane) : Bool := l.st != .exited && l.st != .absent
def Warp.activeSet (w : Warp) : Mask := maskOf w.width fun i => (laneOf w i).active
def Warp.lanesIn (w : Warp) (p : Lane → Bool) : Mask := maskOf w.width fun i => p (laneOf w i)

/-! ### Constants (R37) -/

/-- First core lane of a warp (R28). -/
def firstLane (width index : Nat) : Nat := width * (index % (64 / width))
def konstOf (s : State) (w : Warp) (k : Konst) : Nat := if w.fw.isSome && k != .wwidth then 0 else match k with
  | .laneid => 0
  | .wwidth => w.width
  | .wslot => w.index
  | .lbase => firstLane w.width w.index
  | .corex => coreX w.core
  | .corey => coreY w.core
  | .relx => match (find s.wgs w.wg).bind fun g => find s.launches g.launch with
    | some l => coreX w.core - l.x0
    | none => 0
  | .rely => match (find s.wgs w.wg).bind fun g => find s.launches g.launch with
    | some l => coreY w.core - l.y0
    | none => 0
  | .lwidth => match (find s.wgs w.wg).bind fun g => find s.launches g.launch with
    | some l => l.w
    | none => 0
  | .lheight => match (find s.wgs w.wg).bind fun g => find s.launches g.launch with
    | some l => l.h
    | none => 0
  | .coreid => w.core
  | .clusid => clusterNo w.core
  | .island => islandOfCore w.core
  | .roleid => w.role
  | .ctxid => w.ctx
  | .spawned => b2n w.spawned

/-! ### Reading -/

/-- `Val(x, i)`: the 32-bit value that lane i reads (R118). NONE reads as 0. -/
def Iss.val (x : Iss) (o : Opd) (i : Nat) : Word :=
  match o with
  | .v n => (laneOf x.w i).rd n.val
  | .a n => (x.w.rdA n.val).1 + (x.w.rdA n.val).2 * wd i
  | .s n => x.w.rdS n.val
  | .imm k => k.signExtend 32
  | .const .laneid => wd i
  | .const k => wd (x.env k)
  | _ => 0
/-- The 64-bit value: a pair, a sign-extended immediate, a zero-extended constant (R37), or an affine value extended in the
same way (log 62). -/
def Iss.val64 (x : Iss) (o : Opd) (i : Nat) : DWord :=
  match o with
  | .v n => pair ((laneOf x.w i).rd n.val) ((laneOf x.w i).rd (n.val + 1))
  | .s n => pair (x.w.rdS n.val) (x.w.rdS (n.val + 1))
  | .imm k => k.signExtend 64
  | o => zx64 (x.val o i)
def Iss.valW (x : Iss) (wide : Bool) (o : Opd) (i : Nat) : DWord := if wide then x.val64 o i else zx64 (x.val o i)
/-- A value under a type's reading (R123). -/
def Iss.int (x : Iss) (ty : ITy) (o : Opd) (i : Nat) : Int :=
  let v := x.valW ty.wide o i
  if ty.signed then (if ty.wide then v.toInt else (lo32 v).toInt) else v.toNat
/-- The immediate of format RI as a value of the type: sign-extended at 64 bits (R118). -/
def immVal (ty : ITy) (imm : BitVec 32) : DWord := if ty.wide then sx64 imm else zx64 imm
def toTy (ty : ITy) (v : DWord) : Int :=
  if ty.signed then (if ty.wide then v.toInt else (lo32 v).toInt) else v.toNat
/-- The pair (b, st) of an affine or uniform operand (R116). -/
def Iss.affine (x : Iss) (o : Opd) : Word × Word :=
  match o with
  | .a n => x.w.rdA n.val
  | .const .laneid => (0, 1)
  | o => (x.val o 0, 0)
/-- The base pair of UBASE (R64). -/
def Iss.ubase (x : Iss) (u : BitVec 6) : DWord :=
  if u == 63 then 0 else pair (x.w.rdS u.toNat) (x.w.rdS (u.toNat + 1))
/-- Effective address of format M (R64). -/
def Iss.ea (x : Iss) (o : OM) (i : Nat) : DWord := x.ubase o.ubase + zx64 (x.val o.addr i) + o.off.signExtend 64
/-- Address of format T (R235): no offset. -/
def Iss.eaT (x : Iss) (o : OT) (i : Nat) : DWord := x.ubase o.ubase + zx64 (x.val o.addr i)
/-- The tile number of format T (R65). -/
def Iss.tileNo (x : Iss) (o : OT) : Nat := (x.val o.tile (lowest x.g)).toNat + o.timm.toNat
/-- Words of an operand of up to four registers, low first. -/
def Iss.words (x : Iss) (o : Opd) (n i : Nat) : List Word :=
  match o with
  | .v r => (List.range n).map fun j => (laneOf x.w i).rd (r.val + j)
  | .s r => (List.range n).map fun j => x.w.rdS (r.val + j)
  | o => if n = 1 then [x.val o i] else [lo32 (x.val64 o i), hi32 (x.val64 o i)]
def wordsNat : List Word → Nat
  | [] => 0
  | w :: r => w.toNat + 2 ^ 32 * wordsNat r

/-! ### Guards, lanes, program counters -/

/-- The guard of a lane (R57). -/
def guardOf (c : Ctl) (l : Lane) : Bool := l.pred c.pred != c.neg
/-- The guard-true threads of a set. -/
def guardMask (w : Warp) (c : Ctl) (m : Mask) : Mask := maskOf w.width fun i => inMask m i && guardOf c (laneOf w i)
/-- Block address and slot of a PC; the next sequential PC (R52). -/
def blockAddr (pc : DWord) : DWord := pc &&& ~~~ (63 : DWord)
def slotOf (pc : DWord) : Nat := (pc.toNat % 64 - 4) / 12
def nextPc (pc : DWord) (slots : Nat) : DWord := if slotOf pc + 1 < slots then pc + 12 else blockAddr pc + 68
def Iss.next (x : Iss) : DWord := nextPc x.pc x.slots
/-- The group advances in sequence. -/
def Warp.advance (w : Warp) (m : Mask) (pc : DWord) : Warp := w.mapLanes m fun _ l => { l with pc := pc }

/-! ### Writing -/

/-- A result written to a destination by its class: per guard-true lane into a varying register, once into a uniform
one, with the flags of R113. `n` registers wide. -/
def Iss.write (x : Iss) (w : Warp) (d : Opd) (n : Nat) (f : Nat → BitVec 128 × Nat) : Warp :=
  match d with
  | .v r => w.mapLanes x.g fun i l => (l.wrN r.val (f i).1 n).orFlags (f i).2
  | .s r => (w.wrSN r.val (f (lowest x.g)).1 n).mapLanes x.g fun _ l => l.orFlags (f (lowest x.g)).2
  | _ => w
/-- A 32- or 64-bit result without flags. -/
def Iss.writeD (x : Iss) (w : Warp) (d : Opd) (wide : Bool) (f : Nat → DWord) : Warp :=
  x.write w d (wn wide) fun i => ((f i).setWidth 128, 0)

/-! ### Issue charges (R335, R153 and the energy class of each entry, R278) -/

/-- The energy class of an entry. -/
inductive Price where
  /-- Uniform-or-affine issue. -/
  | uni
  /-- Varying issue with a per-lane class. -/
  | vary (cls : Nat)
  /-- Branch or control. -/
  | ctl
  deriving DecidableEq, Repr
/-- The issue charge of a group, or of a thread in the well: the base weight, once for the groups of one slot (R32, R335), and
the weights of the lanes. -/
def Iss.price (x : Iss) (p : Price) : List Chg :=
  let cl := clusterNo x.w.core
  let base (c : Nat) : List Chg := if x.co then [] else [⟨c, 1, cl⟩]
  match p with
  | .uni => base 0
  | .ctl => base 2
  | .vary c => base (if x.ejected then 0 else 1) ++ [⟨c, popcount x.g, cl⟩]
/-- The price of a result: uniform issue for a uniform or affine destination. -/
def dstPrice (d : Opd) (cls : Nat) : Price :=
  match d with
  | .s _ | .a _ => .uni
  | _ => .vary cls

end Sys2Proof.Machine
end

