-- ==== Sys2Proof/Machine/Flags.lean ====
section
/-! DEFINITION. Integer results with their carries and flags (R114, R125 to R128, R132 to R135), the affine overflow check
(R117, R119), and the flags of the affine-preserving patterns. -/
namespace Sys2Proof.Machine

/-- Width in bits of a type. -/
def tyBits (ty : ITy) : Nat := if ty.wide then 64 else 32
def modW (ty : ITy) (x : Int) : DWord := BitVec.ofNat 64 (x % 2 ^ tyBits ty).toNat
/-- Smallest and largest value under a type's reading. -/
def tyMin (ty : ITy) : Int := if ty.signed then -(2 ^ (tyBits ty - 1)) else 0
def tyMax (ty : ITy) : Int := if ty.signed then 2 ^ (tyBits ty - 1) - 1 else 2 ^ tyBits ty - 1

/-- Sum with carry in: result and carry out (R125); operands are unsigned values of the width. -/
def addCarry (ty : ITy) (a b : Nat) (cin : Bool) : DWord × Bool :=
  let t := a + b + b2n cin
  (modW ty t, decide (2 ^ tyBits ty ≤ t))
/-- Difference with borrow in: result and borrow out (R125). -/
def subBorrow (ty : ITy) (a b : Nat) (cin : Bool) : DWord × Bool :=
  let t : Int := (a : Int) - b - b2n cin
  (modW ty t, decide (t < 0))
/-- Saturation to the type's range, with SAT (R126, R128). -/
def saturate (ty : ITy) (x : Int) : DWord × Nat :=
  if x < tyMin ty then (modW ty (tyMin ty), iSAT)
  else if tyMax ty < x then (modW ty (tyMax ty), iSAT) else (modW ty x, 0)
/-- Quotient and remainder with their flag (R114). -/
def divRem (ty : ITy) (x y : Int) : Int × Int × Nat :=
  if y = 0 then (0, x, iDZ)
  else if ty.signed ∧ x = tyMin ty ∧ y = -1 then (x, 0, iOV)
  else (x.tdiv y, x.tmod y, 0)

/-- A function table of R132: bit 2x + y of the table. -/
def table2 (f : BitVec 4) (x y : Bool) : Bool := f.getLsbD (2 * b2n x + b2n y)
/-- A table applied bit by bit. -/
def tableW (f : BitVec 4) (x y : Word) : Word :=
  (if f.getLsbD 3 then x &&& y else 0) ||| (if f.getLsbD 2 then x &&& ~~~y else 0) |||
  (if f.getLsbD 1 then ~~~x &&& y else 0) ||| (if f.getLsbD 0 then ~~~x &&& ~~~y else 0)
def lcombW (f1 f2 : BitVec 4) (a b : Word) (c : Option Word) : Word :=
  let t := tableW f1 a b
  match c with
  | none => t
  | some c => tableW f2 t c

/-- Shifts (R133) of an operand's bits by an unsigned amount. -/
def shlW (ty : ITy) (a : DWord) (n : Nat) : DWord :=
  if tyBits ty ≤ n then 0 else modW ty (a.toNat * 2 ^ n : Nat)
def shrW (ty : ITy) (a : DWord) (n : Nat) : DWord := if tyBits ty ≤ n then 0 else dw (a.toNat / 2 ^ n)
def sarW (ty : ITy) (a : Int) (n : Nat) : DWord := modW ty (a / 2 ^ (min n 64))
/-- Bit-field extract and insert (R134). -/
def bfeW (signed : Bool) (a : Word) (pos len : Nat) : Word :=
  let len := min len 32
  let x : Int := if signed then a.toInt else a.toNat
  let f := (x / 2 ^ (min pos 64) % 2 ^ len).toNat
  wd (if signed && 0 < len && nbits f (len - 1) 1 == 1 then f + (2 ^ 32 - 2 ^ len) else f)
def bfiW (base ins : Word) (pos len : Nat) : Word :=
  let len := min len 32
  let m := wd (2 ^ len - 1) <<< pos
  if 32 ≤ pos then base else (base &&& ~~~m) ||| ((ins <<< pos) &&& m)
/-- Bit counts over a width (R135). -/
def popW (n : Nat) : Nat → Nat
  | 0 => 0
  | k + 1 => nbits n k 1 + popW n k
def clzW (n : Nat) : Nat → Nat
  | 0 => 0
  | k + 1 => if nbits n k 1 = 1 then 0 else clzW n k + 1
def ctzFrom (n i : Nat) : Nat → Nat
  | 0 => 0
  | k + 1 => if nbits n i 1 = 1 then 0 else ctzFrom n (i + 1) k + 1
def brevW (n : Nat) : Nat → Nat
  | 0 => 0
  | k + 1 => brevW n k * 2 + nbits n k 1
/-- Integer comparison (R138). -/
def condOf (c : Cond) (a b : Int) : Bool :=
  match c with
  | .eq => decide (a = b) | .ne => decide (a ≠ b) | .lt => decide (a < b)
  | .le => decide (a ≤ b) | .gt => decide (b < a) | .ge => decide (b ≤ a)
/-- Predicate combination of R138. -/
def bopOf (b : BOp) (t q : Bool) : Bool :=
  match b with
  | .none => t
  | .and => t && q
  | .or => t || q
  | .xor => t != q

/-! ### Affine results (R116, R117, R119) -/

/-- The affine-preserving operations. -/
inductive AffOp where | add | sub | mul | and | shl | lea (k : Nat) | mov
  deriving DecidableEq, Repr
/-- The computed pair. -/
def affResult (op : AffOp) (x y : Word × Word) : Word × Word :=
  match op with
  | .add => (x.1 + y.1, x.2 + y.2)
  | .sub => (x.1 - y.1, x.2 - y.2)
  | .mul => if x.2 = 0 then (y.1 * x.1, y.2 * x.1) else (x.1 * y.1, x.2 * y.1)
  | .and => if x.2 = 0 then (y.1 &&& x.1, y.2 &&& x.1) else (x.1 &&& y.1, x.2 &&& y.1)
  | .shl => if 32 ≤ y.1.toNat then (0, 0) else (x.1 <<< y.1.toNat, x.2 <<< y.1.toNat)
  | .lea k => (x.1 + y.1 <<< k, x.2 + y.2 <<< k)
  | .mov => x
/-- A word read as signed or unsigned. -/
def readW (signed : Bool) (x : Word) : Int := if signed then x.toInt else x.toNat
def laneVal (p : Word × Word) (i : Nat) : Word := p.1 + p.2 * wd i
/-- Whether lane i's result differs from the exact one (R117). -/
def aovAt (op : AffOp) (signed : Bool) (x y : Word × Word) (i : Nat) : Bool :=
  let r := affResult op x y
  let w : Int := readW signed (laneVal r i)
  let e (p : Word × Word) : Int := readW signed p.1 + p.2.toInt * i
  match op with
  | .add => e x + e y != w
  | .sub => e x - e y != w
  | .mul => e x * e y != w
  | .and => (laneVal x i &&& laneVal y i) != laneVal r i
  | .shl => if 32 ≤ y.1.toNat then e x != 0 else e x * 2 ^ y.1.toNat != w
  | .lea k => e x + e y * 2 ^ k != w
  | .mov => false
/-- AOV: some lane of the active set differs (R117). -/
def aovOf (op : AffOp) (signed : Bool) (x y : Word × Word) (active : Mask) : Bool :=
  (lanesOf active).any (aovAt op signed x y)

end Sys2Proof.Machine
end

