-- ==== Sys2Proof/Machine/Translate.lean ====
section
/-! DEFINITION. Address translation (R364, R367 to R377), the peer check (R379) and the homes of a walk's lines (R375). -/
namespace Sys2Proof.Machine

/-- What an access needs (R372, R373 ACC); `clean` is `lcln`, which looks at no permission. -/
inductive AccKind where | read | write | rmw | fetch | clean
  deriving DecidableEq, Repr
def accCode : AccKind → Nat | .read => 0 | .write => 1 | .rmw => 2 | .fetch => 3 | .clean => 0
/-- The permission bits 4:2 (X W R) an access needs. -/
def accNeeds : AccKind → Nat | .read => 1 | .write => 2 | .rmw => 3 | .fetch => 4 | .clean => 0

/-- A translation failure: KIND, LEVEL, STAGE (R373), and the table lines read before it (R375). -/
structure XFault where
  kind : Nat
  level : Nat
  stage : Nat
  lines : List Nat
  deriving DecidableEq, Repr
/-- The syndrome word (R373). -/
def syndrome (a : AccKind) (f : XFault) : Word := wd (f.kind * 4096 + f.level * 1024 + f.stage * 256 + accCode a * 16)
/-- KIND 8 to 10 belong to the peer fault (cause 11), every other to the translation fault (cause 10), and a
fetch's to cause 9 (R373, R397). -/
def faultCause (a : AccKind) (f : XFault) : Nat :=
  if 8 ≤ f.kind && f.kind ≤ 10 then 11 else if a = .fetch then 9 else 10

/-- Where an address leads: memory (cached or not), a fabric window, or the firmware register space. -/
inductive Where where
  | mem (pa : Nat) (cached : Bool) | win (peer seg off : Nat) | fwreg (off : Nat)
  deriving DecidableEq, Repr

/-- An entry with V = 1 that breaks a rule of R370. `leafOk`, `leafReq`: what its level allows; `pbits`, `tbits`:
alignment of a page and of the next table. -/
def badEntry (e : Nat) (stage2 leafOk leafReq : Bool) (pbits tbits : Nat) : Bool :=
  let leaf := nbits e 1 1 == 1
  let addr := nbits e 8 32 * 256
  e / 2 ^ 40 != 0 || nbits e 7 1 != 0 || (!leaf && nbits e 2 5 != 0) || (leaf && !leafOk) || (!leaf && leafReq) ||
  (stage2 && nbits e 5 1 != 0) || (if leaf then addr % 2 ^ pbits != 0 else addr % 2 ^ tbits != 0)

/-- A level of a walk: number, lowest index bit, index bits, leaf allowed, leaf required, alignment of the next table. -/
structure Level where
  num : Nat
  lo : Nat
  n : Nat
  leafOk : Bool
  leafReq : Bool
  tbits : Nat
def levels1 : List Level :=
  [⟨0, 39, 13, false, false, 12⟩, ⟨1, 30, 9, true, false, 12⟩, ⟨2, 21, 9, true, false, 8⟩, ⟨3, 16, 5, true, true, 0⟩]
def levels2 : List Level := [⟨1, 30, 10, true, false, 12⟩, ⟨2, 21, 9, true, false, 8⟩, ⟨3, 16, 5, true, true, 0⟩]

/-- The result of a walk: address, the leaf entry, its level, and the physical lines read. -/
structure Leaf where
  addr : Nat
  entry : Nat
  level : Nat
  lines : List Nat
  deriving DecidableEq, Repr

/-- Stage 2 from a table on (R369 to R371): `stage` is the STAGE of a failure. -/
def walk2From (mem : List Host.Cell) (stage ipa : Nat) : List Level → Nat → List Nat → Except XFault Leaf
  | [], _, lines => .error ⟨0, 3, stage, lines⟩
  | l :: r, table, lines =>
    let ea := table + 8 * nbits ipa l.lo l.n
    if memEnd < ea + 8 then .error ⟨3, l.num, stage, lines⟩
    else
      let e := memNat mem ea 8
      let lines := lines ++ [ea / 64]
      if e % 2 = 0 then .error ⟨0, l.num, stage, lines⟩
      else if badEntry e true l.leafOk l.leafReq l.lo l.tbits then .error ⟨1, l.num, stage, lines⟩
      else
        let addr := nbits e 8 32 * 256
        if memEnd ≤ addr then .error ⟨3, l.num, stage, lines⟩
        else if nbits e 1 1 = 1 then
          let pa := addr + ipa % 2 ^ l.lo
          if memEnd ≤ pa then .error ⟨3, l.num, stage, lines⟩ else .ok ⟨pa, e, l.num, lines⟩
        else walk2From mem stage ipa r addr lines
/-- Stage 2 of a tenant for an IPA. -/
def walk2 (s : State) (t stage ipa : Nat) : Except XFault Leaf :=
  let root := reg s .s2r t
  if !dbit root 63 then .error ⟨4, 1, 1, []⟩ else walk2From s.mem stage ipa levels2 (dbits root 13 27 * 8192) []
/-- Stage 1 from a table on; every table address is an IPA (R367). -/
def walk1From (s : State) (t ea : Nat) : List Level → Nat → List Nat → Except XFault Leaf
  | [], _, lines => .error ⟨0, 3, 0, lines⟩
  | l :: r, table, lines =>
    match walk2 s t 1 (table + 8 * nbits ea l.lo l.n) with
    | .error f => .error { f with lines := lines ++ f.lines }
    | .ok p =>
      let e := memNat s.mem p.addr 8
      let lines := lines ++ p.lines ++ [p.addr / 64]
      if e % 2 = 0 then .error ⟨0, l.num, 0, lines⟩
      else if badEntry e false l.leafOk l.leafReq l.lo l.tbits then .error ⟨1, l.num, 0, lines⟩
      else
        let addr := nbits e 8 32 * 256
        if nbits e 1 1 = 1 then .ok ⟨addr + ea % 2 ^ l.lo, e, l.num, lines⟩ else walk1From s t ea r addr lines

/-- Permissions and cache policy combined (R372): U at stage 1 for program level, then the needed bits of each stage. -/
def permit (a : AccKind) (sup : Bool) (e1 l1 e2 l2 : Nat) : Except XFault Bool :=
  let need := accNeeds a
  let has (e : Nat) : Bool := nbits e 2 3 &&& need == need
  if a = .clean then .ok (nbits e1 6 1 == 0 && nbits e2 6 1 == 0)
  else if !sup && nbits e1 5 1 == 0 then .error ⟨2, l1, 0, []⟩
  else if !has e1 then .error ⟨2, l1, 0, []⟩
  else if !has e2 then .error ⟨2, l2, 2, []⟩
  else .ok (nbits e1 6 1 == 0 && nbits e2 6 1 == 0)

/-- A window descriptor (R376). -/
structure Window where
  vbase : Nat
  size : Nat
  peer : Nat
  seg : Nat
  perm : Nat
  off : Nat
  bad : Bool
  deriving DecidableEq, Repr
def parseWindow (b : List Byte) : Window :=
  let f (o n : Nat) : Nat := leNat ((b.drop o).take n)
  let vb := f 0 8
  let sz := f 8 4
  ⟨vb, sz, nbits (f 12 2) 0 12, f 14 1, f 15 1, f 16 8,
    vb % 2 ^ 21 != 0 || decide (2 ^ 52 ≤ vb) || sz == 0 || decide (2 ^ 52 < vb + 2 ^ 21 * sz) || nbits (f 12 2) 12 4 != 0 ||
    decide (4 ≤ f 15 1) || f 16 8 % 65536 != 0 || decide (2 ^ 40 ≤ f 16 8) || f 24 8 != 0⟩
def overlaps (a b : Window) : Bool :=
  decide (a.vbase < b.vbase + 2 ^ 21 * b.size) && decide (b.vbase < a.vbase + 2 ^ 21 * a.size)
def anyOverlap : List Window → Bool
  | [] => false
  | w :: r => r.any (overlaps w) || anyOverlap r
/-- The windows of a context with the lines read (R368, R376). -/
def windowTable (s : State) (n : Nat) : Except XFault (List Window × List Nat) :=
  let c := reg s .cwin n
  (List.range (dbits c 0 5)).foldl (fun acc i =>
    acc.bind fun (ws, ls) =>
      (walk2 s (ctxTenant s n) 1 (dbits c 6 34 * 64 + 32 * i)).bind fun p =>
        if nbits p.entry 2 1 = 0 then .error ⟨2, p.level, 1, ls ++ p.lines⟩
        else .ok (ws ++ [parseWindow (memBytes s.mem p.addr 32)], ls ++ p.lines ++ [p.addr / 64])) (.ok ([], []))

/-- The peer check of R379 for a tenant. -/
def peerCheck (s : State) (t peer : Nat) : Option XFault :=
  let bit (k : RegKind) : Bool := dbit (reg s k (peer / 32)) (peer % 32)
  if 1024 ≤ peer || !bit .peerp then some ⟨8, 0, 3, []⟩
  else if !bit .peere then some ⟨9, 0, 3, []⟩
  else
    let r := reg s .tpeer t
    if peer < dbits r 0 12 || dbits r 16 12 < peer then some ⟨10, 0, 3, []⟩ else none

/-- The window that holds an address, if any; a table with an invalid descriptor faults every address (R376). -/
def findWindow (s : State) (n ea : Nat) : Except XFault (Option Window × List Nat) :=
  (windowTable s n).bind fun (ws, ls) =>
    if ws.any (·.bad) || anyOverlap ws then .error ⟨5, 0, 3, ls⟩
    else .ok (ws.find? fun w => decide (w.vbase ≤ ea) && decide (ea < w.vbase + 2 ^ 21 * w.size), ls)

/-- A translation with the table lines that a walk for it read. -/
structure Xlate where
  dest : Where
  lines : List Nat
  deriving DecidableEq, Repr

/-- Lines read before a result, added to it. -/
def withLines (ls : List Nat) : Except XFault Xlate → Except XFault Xlate
  | .error f => .error { f with lines := ls ++ f.lines }
  | .ok x => .ok { x with lines := ls ++ x.lines }
/-- The intermediate fabric address of an access through a window (R377). -/
def windowTo (a : AccKind) (peer seg perm off : Nat) : Except XFault Where :=
  if a = .clean then .ok (.win peer seg off)
  else if 2 ^ 40 ≤ off then .error ⟨7, 0, 3, []⟩
  else if (a = .fetch || nbits perm 0 2 &&& accNeeds a != accNeeds a) then .error ⟨6, 0, 3, []⟩
  else .ok (.win peer seg off)
/-- What a cached translation gives an access, unless it fails: every failing access walks again (R374). -/
def tlbHit (a : AccKind) (sup : Bool) (e : Nat) (t : Tlb) : Option Xlate :=
  match (match t.win with
    | some (peer, seg, perm, off) => windowTo a peer seg perm (off + e % 65536)
    | none => (permit a sup t.leaf1 t.lev1 t.leaf2 t.lev2).map fun c => .mem (t.pa + e % 65536) c) with
  | .ok d => some ⟨d, []⟩
  | .error _ => none
/-- Local translation of a context's access (R367). A cached translation is used while it is held (R374). -/
def xlateCtx (s : State) (n : Nat) (sup : Bool) (a : AccKind) (ea : DWord) : Except XFault Xlate :=
  let e := ea.toNat
  if 2 ^ 52 ≤ e then .error ⟨3, 0, 0, []⟩
  else if !dbit (reg s .ctxt n) 63 then .error ⟨4, 0, 0, []⟩
  else if !dbit (reg s .s2r (ctxTenant s n)) 63 then .error ⟨4, 1, 1, []⟩
  else match (s.tlb.find? fun t => t.ctx == n && t.page == e / 65536).bind (tlbHit a sup e) with
  | some x => .ok x
  | none => (findWindow s n e).bind fun (w, wl) =>
    match w with
    | some w => withLines wl ((windowTo a w.peer w.seg w.perm (w.off + (e - w.vbase))).map fun d => ⟨d, []⟩)
    | none =>
        withLines wl ((walk1From s (ctxTenant s n) e levels1 (dbits (reg s .ctxt n) 16 24 * 65536) []).bind fun p1 =>
        withLines p1.lines ((walk2 s (ctxTenant s n) 2 p1.addr).bind fun p2 =>
        withLines p2.lines ((permit a sup p1.entry p1.level p2.entry p2.level).map fun c => ⟨.mem p2.addr c, []⟩)))
/-- A firmware core's access (R364). -/
def xlateFw (ea : DWord) : Except XFault Xlate :=
  let e := ea.toNat
  if e < memEnd then .ok ⟨.mem e false, []⟩
  else if 0xF000000000 ≤ e ∧ e < 0xF001000000 then .ok ⟨.fwreg (e - 0xF000000000), []⟩
  else .error ⟨3, 0, 0, []⟩

/-- The peer check applied to a translation that leads into a window (R377). -/
def checkPeer (s : State) (t : Nat) (x : Xlate) : Except XFault Xlate :=
  match x.dest with
  | .win p _ _ => match peerCheck s t p with
    | some f => .error { f with lines := x.lines }
    | none => .ok x
  | _ => .ok x

/-- Translation of an access of a context, peer check included (R237 check 3). -/
def translate (s : State) (n : Nat) (sup : Bool) (a : AccKind) (ea : DWord) : Except XFault Xlate :=
  (xlateCtx s n sup a ea).bind fun x => if a = .clean then .ok x else checkPeer s (ctxTenant s n) x

/-- The walk behind a translation, successful or not, is recorded: its lines are charged and its result cached when it
completes; walks of one context on one page are one on each island (R374, R375). -/
def noteWalk (n cl : Nat) (ea : DWord) (lines : List Nat) : Action := fun s =>
  if lines.isEmpty || s.walks.any (fun w => w.ctx == n && w.va / 65536 == ea.toNat / 65536 && islandOfCluster w.cluster == islandOfCluster cl) then [] else
    [.walks (s.walks ++ [⟨s.nextId, n, ea.toNat, lines, cl⟩]), .nextId (s.nextId + 1)]

/-- The 64 KiB pages of a leaf at a level of stage 1 (R369). -/
def leafPages (level : Nat) : Nat := if level = 1 then 2 ^ 14 else if level = 2 then 32 else 1
/-- The cached translation a walk leaves for an address, if it now succeeds. -/
def tlbFill (s : State) (n ea : Nat) : Option Tlb :=
  let t := ctxTenant s n
  match findWindow s n ea with
  | .error _ => none
  | .ok (some w, _) =>
    let off := w.off + (ea - ea % 65536 - w.vbase)
    if 2 ^ 40 ≤ off then none else some ⟨n, ea / 65536, 0, t, 0, 0, 0, 0, some (w.peer, w.seg, w.perm, off), w.vbase / 65536, 32 * w.size⟩
  | .ok (none, _) => match walk1From s t ea levels1 (dbits (reg s .ctxt n) 16 24 * 65536) [] with
    | .error _ => none
    | .ok p1 => match walk2 s t 2 p1.addr with
      | .error _ => none
      | .ok p2 => some ⟨n, ea / 65536, p2.addr - ea % 65536, t, p1.entry % 256, p2.entry % 256, p1.level, p2.level, none,
          ea / 65536 / leafPages p1.level * leafPages p1.level, leafPages p1.level⟩

end Sys2Proof.Machine
end

