-- ==== Sys2Proof/Machine/Home.lean ====
section
/-! DEFINITION. Accesses at the home and through a core's L1 (R206, R207, R230, R231, R239), sinks (R288), and the tenants'
event rings (R315, R317). -/
namespace Sys2Proof.Machine

/-! ### Changing one part -/

def modWarp (k : Nat) (f : Warp → Warp) : Action := fun s =>
  match find s.warps k with
  | some w => [.warp k (some (f w))]
  | none => []
def modWg (k : Nat) (f : Workgroup → Workgroup) : Action := fun s =>
  match find s.wgs k with
  | some g => [.wg k (some (f g))]
  | none => []
def modLaunch (k : Nat) (f : Launch → Launch) : Action := fun s =>
  match find s.launches k with
  | some l => [.launch k (some (f l))]
  | none => []
def modCore (c : Nat) (f : Core → Core) : Action := fun s => [.core c (f (coreOf s c))]
def modCluster (c : Nat) (f : Cluster → Cluster) : Action := fun s => [.cluster c (f (clusterOf s c))]
def modCtx (n : Nat) (f : Ctx → Ctx) : Action := fun s => [.ctx n (f (ctxOf s n))]
def modTenant (t : Nat) (f : Tenant → Tenant) : Action := fun s => [.ten t (f (tenantOf s t))]
def modReg (k : RegKind) (n : Nat) (f : DWord → DWord) : Action := fun s => [.reg k n (f (reg s k n))]
/-- A field of a register. -/
def setField (k : RegKind) (n lo bits v : Nat) : Action := modReg k n fun r => dset r lo bits v
def modTile (core t : Nat) (f : Tile → Tile) : Action :=
  modCore core fun c => { c with tiles := put c.tiles t (f (tileOf c t)) }
def modAcc (core a : Nat) (f : Acc → Acc) : Action := modCore core fun c => { c with acc := put c.acc a (f (accOf c a)) }
def modOut (k id : Nat) (f : Outst → Outst) : Action :=
  modWarp k fun w => { w with outs := w.outs.map fun o => if o.id = id then f o else o }
def dropOut (k id : Nat) : Action := modWarp k fun w => { w with outs := w.outs.filter fun o => o.id != id }
def wgOf (s : State) (w : Warp) : Option Workgroup := find s.wgs w.wg
def launchOf (s : State) (w : Warp) : Option Launch := (wgOf s w).bind fun g => find s.launches g.launch

/-- A workgroup has not ended: it has a warp (R300). One that has ended stays on record while its cards and granted passes are performed
(R44; log 24). -/
def Workgroup.live (g : Workgroup) : Bool := !g.warps.isEmpty
/-- The workgroup of a pending operation has ended. -/
def wgGone (s : State) (k : Nat) : Bool := match find s.wgs k with | some g => !g.live | none => true

/-! ### Sinks (R288, R289) -/

/-- A sink of a context: its watchdog count restarts. -/
def sink (ctx : Nat) : Action := fun s => [.ctx ctx { ctxOf s ctx with wd := 0, lastSink := s.now }]

/-! ### Homes -/

/-- Two runs of bytes share a byte. -/
def meet (a n b m : Nat) : Bool := decide (a < b + m) && decide (b < a + n)
/-- Bytes of a line within a run. -/
def lineHits (line pa n : Nat) : List Nat := (List.range 64).filter fun i => decide (pa ≤ 64 * line + i) && decide (64 * line + i < pa + n)
/-- The L1 lines that hold bytes of a run, changed on every core. -/
def modLines (pa n : Nat) (need : L1Line → Bool) (f : L1Line → L1Line) : Action := fun s =>
  (s.cores.filter fun e => e.2.l1.any fun l => meet (64 * l.pa) 64 pa n && need l).map fun (c, r) => Upd.core c { r with l1 := r.l1.map f }
/-- A write that lines recognise: its bytes are no longer `unc` (R231). -/
def clearAlias (pa n : Nat) : Action := modLines pa n (fun l => !l.unc.isEmpty) fun l =>
  { l with unc := l.unc.filter fun e => !(lineHits l.pa pa n).contains e.1 }
/-- Before a write through an uncached mapping: cached lines keep what the home holds of its bytes (R231). -/
def markAlias (pa n : Nat) : Action := look fun s => modLines pa n (fun _ => true) fun l =>
  { l with unc := (lineHits l.pa pa n).foldl (fun m i => if (find m i).isSome then m else put m i (memGet s.mem (64 * l.pa + i))) l.unc }
/-- The distinct 64 B lines of a run of bytes. -/
def linesOf (a n : Nat) : List Nat := (List.range ((a + n - 1) / 64 - a / 64 + 1)).map (a / 64 + ·)
/-- Lines about to change may be fetched as they were by threads that are already running (R55; log 11). -/
def keepOld (lines : List Nat) : Action := fun s =>
  [.old ((s.old.filter fun o => s.launches.any fun l => decide (l.1 < o.time)) ++
    (lines.filter (Config.keepOld s.tick)).map fun l => ⟨64 * l, s.nextId, memBytes s.mem (64 * l) 64⟩)]
/-- Bytes written in memory, by an access that lines of its bytes recognise or through an uncached mapping (R231). -/
def pokeAs (unc : Bool) (pa : Nat) (bs : List Byte) : Action := acts [
  keepOld (linesOf pa bs.length),
  if unc then markAlias pa bs.length else skip,
  fun _ => mapI (fun i b => Upd.byte (pa + i) b) bs,
  if unc then skip else clearAlias pa bs.length]
def poke (pa : Nat) (bs : List Byte) : Action := pokeAs false pa bs
/-- A line is touched at its home: an absent line is filled, a written one becomes dirty (R239), and it is marked by its HINT (R59).
The latest touched stands last. -/
def llcTouch (line mark : Nat) (dirty : Option (Option Nat)) (l : List LlcLine) : List LlcLine :=
  let old := l.find? fun e => e.line == line
  let rest := l.filter fun e => e.line != line
  rest ++ [match dirty with
    | some c => ⟨line, true, c, mark⟩
    | none => match old with
      | some e => { e with mark := mark }
      | none => ⟨line, false, none, mark⟩]
/-- Lines touched at their homes. -/
def llcTouches (lines : List Nat) (mark : Nat) (dirty : Option (Option Nat)) : Action := fun s =>
  [.llc (lines.foldl (fun l x => llcTouch x mark dirty l) s.llc)]
/-- Home access charges for lines: class 9 at each home, class 11 for a fill from HBM4 (R239). `cl` prices the burst. -/
def homeCharges (s : State) (cl : Nat) (lines : List Nat) : List Chg :=
  lines.map (fun l => ⟨9, 1, homeCluster (64 * l)⟩) ++
  ((dedup lines).filter fun l => s.llc.all fun e => e.line != l).map fun _ => ⟨11, 1, cl⟩
/-- An access of distinct lines at their homes with a HINT, charged (foreign when `ctx` is none). -/
def homeHinted (ctx : Option Nat) (cl mark : Nat) (write : Bool) (lines : List Nat) : Action := fun s =>
  acts [charge ctx (homeCharges s cl lines), llcTouches lines mark (if write then some ctx else none)] s
/-- An access of distinct lines at their homes. -/
def homeAccess (ctx : Option Nat) (cl : Nat) (write : Bool) (lines : List Nat) : Action := homeHinted ctx cl 0 write lines
/-- A write performed at the home at once, for engines, firmware and agents outside the cores. -/
def homeWrite (ctx : Option Nat) (cl pa : Nat) (bs : List Byte) : Action :=
  if bs.isEmpty then skip else acts [poke pa bs, homeAccess ctx cl true (linesOf pa bs.length)]

/-- A write performed at the home without a charge. -/
def quietWrite (who : Option Nat) (pa : Nat) (bs : List Byte) : Action := acts [poke pa bs,
  llcTouches (linesOf pa bs.length) 0 (some who)]
/-- A write whose lines are charged at class 9 alone (R360). -/
def recordWrite (ctx pa : Nat) (bs : List Byte) : Action := acts [quietWrite (some ctx) pa bs,
  charge (some ctx) ((linesOf pa bs.length).map fun l => ⟨9, 1, homeCluster (64 * l)⟩)]

/-! ### A core's view of memory (R206, R207, R230) -/

/-- Scopes that do not reach beyond the core (R208). -/
def near (sc : Scope) : Bool := sc == .warp || sc == .core
/-- Two points of one thread. -/
def Point.same (a b : Point) : Bool := a.wk == b.wk && a.lanes &&& b.lanes != 0
/-- A store covers bytes of a run. -/
def PStore.hits (q : PStore) (pa n : Nat) : Bool := meet q.pa q.bytes.length pa n
/-- Stores that a thread's read at a point sees over its home's bytes: those that have entered its core's L1, and its own earlier
ones (R206). An RMW is seen once performed. -/
def PStore.seenBy (q : PStore) (p : Point) : Bool :=
  q.po.core == p.core && q.po.ctx == p.ctx && q.rmw.isNone && (q.entered.isSome || (q.po.same p && decide (q.po.age < p.age)))
/-- Bytes with stores over them, in coherence order. -/
def layer (l : List PStore) (base : Nat → Byte) (pa n : Nat) : List Byte :=
  (List.range n).map fun i => l.foldl (fun b q =>
    if decide (q.pa ≤ pa + i) && decide (pa + i < q.pa + q.bytes.length) then nth q.bytes (pa + i - q.pa) b else b) (base (pa + i))
/-- Bytes of memory at `pa` as a thread's read at a point sees them. -/
def overlay (s : State) (p : Point) (pa n : Nat) : List Byte := layer (s.stores.filter fun q => q.seenBy p) (memGet s.mem) pa n
/-- The point of no thread: what every thread of a context on a core sees. -/
def corePoint (core ctx : Nat) : Point := ⟨core, ctx, 0, 0, 0⟩
/-- The line of an address in a core's L1, if its own context filled it. -/
def l1Find (c : Core) (ctx va : Nat) : Option L1Line := c.l1.find? fun l => l.ctx == ctx && l.va == va / 64
/-- An L1 holds at most 1024 lines (R13); one marked first for eviction leaves, else the oldest (R59). -/
def l1Put (c : Core) (l : L1Line) : Core :=
  let r := c.l1.filter fun x => !(x.ctx == l.ctx && x.va == l.va)
  let r := if r.length < 1024 then r
    else match r.find? fun x => x.mark == 1 with
      | some v => r.erase v
      | none => r.drop 1
  { c with l1 := r ++ [l] }
/-- Lines that a context holds of a physical line read the home's bytes: what one mapping has read, another of its policy does not
miss (R203, R218). -/
def l1Refresh (core ctx pa : Nat) : Action := fun s =>
  let c := coreOf s core
  if c.l1.any fun l => l.ctx == ctx && l.pa == pa / 64 then
    [.core core { c with l1 := c.l1.map fun l => if l.ctx == ctx && l.pa == pa / 64 then
      { l with bytes := overlay s (corePoint core ctx) (pa / 64 * 64) 64, unc := [] } else l }]
  else []
/-- The line of an address is filled from the home. -/
def l1Fill (core ctx va pa mark : Nat) : Action := acts [l1Refresh core ctx pa, fun s =>
  [.core core (l1Put (coreOf s core) ⟨ctx, va / 64, pa / 64, overlay s (corePoint core ctx) (pa / 64 * 64) 64, [], mark⟩)]]
/-- A store passes through the lines of its physical address that its context holds (R206). -/
def l1Store (core ctx pa : Nat) (bs : List Byte) : Action := modCore core fun c =>
  { c with l1 := c.l1.map fun l =>
      if l.ctx == ctx then
        { l with bytes := mapI (fun i b =>
            let a := 64 * l.pa + i
            if decide (pa ≤ a) && decide (a < pa + bs.length) then nth bs (a - pa) b else b) l.bytes }
      else l }
/-- A line as an acquire leaves it: the home's bytes, but for those written through another policy's mapping, which stay as they were
before that (R231). -/
def L1Line.acquired (s : State) (core : Nat) (l : L1Line) : L1Line :=
  let old (a : Nat) : Byte := (find l.unc (a % 64)).getD (memGet s.mem a)
  { l with bytes := layer (s.stores.filter fun q => q.seenBy (corePoint core l.ctx)) old (64 * l.pa) 64 }
/-- An acquire at scope clus or wider discards the lines of the core that may be stale (R231, R242): those that hold no store still
pending and no byte whose staleness it does not recognise. What it keeps reads as at the home elsewhere. -/
def l1Discard (core : Nat) : Action := fun s =>
  [.core core { coreOf s core with l1 := ((coreOf s core).l1.filter fun l => !l.unc.isEmpty || s.stores.any fun q =>
      q.po.core == core && q.po.ctx == l.ctx && q.entered.isSome && q.hits (64 * l.pa) 64).map (L1Line.acquired s core) }]
def l1Clean (core ctx va : Nat) : Action := modCore core fun c =>
  { c with l1 := c.l1.filter fun l => !(l.ctx == ctx && l.va == va / 64) }

/-! ### Translated writes of the device itself -/

/-- Translation of every 64 KiB page that a run of bytes touches. -/
def xlateAll (s : State) (ctx : Nat) (sup : Bool) (a : AccKind) (ea : DWord) (n : Nat) : Except (DWord × XFault) Unit :=
  (List.range ((ea.toNat + n - 1) / 65536 - ea.toNat / 65536 + 1)).foldl (fun r i =>
    r.bind fun _ =>
      let p := if i = 0 then ea else dw ((ea.toNat / 65536 + i) * 65536)
      match xlateCtx s ctx sup a p with
      | .error f => .error (p, f)
      | .ok x => match x.dest with
        | .mem _ _ => .ok ()
        | _ => .error (p, ⟨6, 0, 3, []⟩)) (.ok ())
/-- The cluster that prices what a partition's command processor does: the origin cluster. -/
def originCluster (s : State) (ctx : Nat) : Nat :=
  let (x, y, _, _) := partRect s (ctxTenant s ctx)
  x + 24 * y
/-- The walks of the device's own accesses at supervisor level (R375). -/
def vaWalks (ctx cl : Nat) (a : AccKind) (eas : List Nat) : Action := look fun s => forEach eas fun ea =>
  noteWalk ctx cl (dw ea) (match xlateCtx s ctx true a (dw ea) with | .ok r => r.lines | .error f => f.lines)
/-- An address in each 64 KiB page of a run. -/
def pagesOf (a n : Nat) : List Nat := (List.range ((a + n - 1) / 65536 - a / 65536 + 1)).map fun i => max a (65536 * (a / 65536 + i))
/-- The walks of the command processor for a context. -/
def devWalk (ctx : Nat) (a : AccKind) (eas : List Nat) : Action := look fun s => vaWalks ctx (originCluster s ctx) a eas
/-- The physical address of a translated byte. -/
def paOf (s : State) (ctx : Nat) (sup : Bool) (a : AccKind) (ea : Nat) : Option Nat :=
  match xlateCtx s ctx sup a (dw ea) with
  | .ok ⟨.mem pa _, _⟩ => some pa
  | _ => none
/-- Bytes read or written through a context's translation; an untranslatable byte reads as 0 and is not written. -/
def vaRead (s : State) (ctx : Nat) (sup : Bool) (ea n : Nat) : List Byte :=
  (List.range n).map fun i => match paOf s ctx sup .read (ea + i) with
    | some pa => memGet s.mem pa
    | none => 0
/-- Cuts a run into pieces that do not cross a 64 B line. -/
def chop : Nat → Nat → List Byte → List (Nat × List Byte)
  | 0, _, _ => []
  | f + 1, a, bs =>
    if bs.isEmpty then [] else
      let n := 64 - a % 64
      (a, bs.take n) :: chop f (a + n) (bs.drop n)
def vaWriteBy (ctx : Nat) (sup : Bool) (write : Nat → List Byte → Action) (ea : Nat) (bs : List Byte) : Action :=
  forEach (chop (bs.length / 64 + 2) ea bs) fun (a, b) s =>
    match paOf s ctx sup .write a with
    | some pa => write pa b s
    | none => []
def vaWrite (ctx : Nat) (sup : Bool) (chg : Option Nat) (ea : Nat) (bs : List Byte) : Action :=
  vaWriteBy ctx sup (homeWrite chg 0) ea bs

/-! ### Event rings (R309, R315, R317) -/

def le (n v : Nat) : List Byte := toBytes n v
def zeros (n : Nat) : List Byte := List.replicate n 0
/-- A queue or ring header as read from memory. -/
structure Header where
  ring : Nat
  logn : Nat
  dev : Bool
  ctx : Nat
  wr : Nat
  rd : Nat
  bad : Bool
  deriving DecidableEq, Repr
def parseHeader (b : List Byte) : Header :=
  let f (o n : Nat) : Nat := leNat ((b.drop o).take n)
  let q := f 8 4
  ⟨f 0 8, nbits q 0 4, nbits q 4 1 == 1, nbits q 16 10, f 0x10 8, f 0x18 8,
    q / 2 ^ 26 != 0 || nbits q 5 11 != 0 || f 0xC 4 != 0 || (b.drop 0x20).any (· != 0) ||
    decide (nbits q 0 4 < 1) || decide (12 < nbits q 0 4) || f 0 8 % 64 != 0⟩
/-- The owner context of a tenant's partition (R344). -/
def ownerOf (s : State) (t : Nat) : Nat := dbits (reg s .pcfg t) 16 10
/-- The state of a tenant's ring: header address and header, or none when an entry is dropped into `EVRS_t`. -/
def ringOf (s : State) (t : Nat) : Option (Nat × Header) :=
  let r := reg s .evrb t
  let hdr := dbits r 6 46 * 64
  if !dbit r 63 then none
  else match xlateAll s (ownerOf s t) true .rmw (dw hdr) 64 with
    | .error _ => none
    | .ok _ =>
      let h := parseHeader (vaRead s (ownerOf s t) true hdr 64)
      if h.logn < 1 || 12 < h.logn || h.wr < h.rd || h.rd + 2 ^ h.logn < h.wr then none
      else match xlateAll s (ownerOf s t) true .write (dw (h.ring + 128 * (h.wr % 2 ^ h.logn))) 128 with
        | .error _ => none
        | .ok _ => some (hdr, h)
/-- Whether an entry would be written (R398). -/
def ringRoom (s : State) (t : Nat) : Bool :=
  match ringOf s t with
  | some (_, h) => decide (h.wr < h.rd + 2 ^ h.logn)
  | none => false
/-- One 128-byte entry, then WR; a full ring counts in its header, every other failure in `EVRS_t` (R315, R317).
The writes are foreign, or charged to
`chg` at class 9 for the entry (R399). -/
def evWrite (t : Nat) (chg : Option Nat) (entry : List Byte) : Action := fun s =>
  let own := ownerOf s t
  let hdrWalk : Action := if dbit (reg s .evrb t) 63 then devWalk own .rmw [dbits (reg s .evrb t) 6 46 * 64] else skip
  match ringOf s t with
  | none => acts [hdrWalk, upd (.reg .evrs t (dw (min (2 ^ 32 - 1) (regN s .evrs t + 1))))] s
  | some (hdr, h) =>
    acts [hdrWalk, devWalk own .write [h.ring + 128 * (h.wr % 2 ^ h.logn)], fun s => if h.wr < h.rd + 2 ^ h.logn then
      let a := h.ring + 128 * (h.wr % 2 ^ h.logn)
      acts [match chg with
          | none => vaWrite own true none a entry
          | some c => acts [vaWriteBy own true (quietWrite (some c)) a entry, look fun s => match paOf s own true .write a with
              | some pa => charge (some c) [⟨9, 1, homeCluster pa⟩]
              | none => skip],
        vaWrite own true none (hdr + 0x10) (le 8 (h.wr + 1))] s
    else
      vaWrite own true none (hdr + 0xC) (le 4 (min (2 ^ 32 - 1) (leNat (vaRead s own true (hdr + 0xC) 4) + 1))) s] s
/-- A hang, stop or double-fault report: held, up to 64, while the island is in fallback (R329). -/
def evReport (t : Nat) (entry : List Byte) : Action := fun s =>
  let isl := islandOfPart s t
  if fallback s isl then
    let i := islandOf s isl
    if i.held.length < 64 then [.island isl { i with held := i.held ++ [(t, entry)] }] else []
  else evWrite t none entry s

end Sys2Proof.Machine
end

