-- ==== Sys2Proof/Machine/Order.lean ====
section
/-! DEFINITION. When a read has been made and a write may become visible (R206, R208, R214 to R217, R225, R228): what a point of
program order waits for. -/
namespace Sys2Proof.Machine

/-! ### Reads still to be made -/

/-- An unfinished instruction has a read of some of the threads still to make. -/
def unread (lanes : Mask) (o : Outst) : Bool := o.mask &&& lanes != 0 && (match o.kind with
  | .load _ _ _ _ todo => todo.any fun a => isUni o.res.dst || inMask lanes a.lane
  | .remote _ _ => o.left &&& lanes != 0
  | .reply todo => todo &&& lanes != 0
  | .tile _ _ done _ => !done
  | _ => false)
/-- A unit of an `rget.t` of some threads that has still to read memory (R264). -/
def Arrival.unread (a : Arrival) (p : Point) : Bool := a.src.isSome && a.po.same p && decide (a.po.age < p.age)
/-- The unfinished instructions of a point's warp. -/
def outsAt (s : State) (p : Point) : List Outst := match find s.warps p.wk with | some w => w.outs | none => []
/-- Every read of the point's threads before it has been made (R214). -/
def readsDone (s : State) (p : Point) : Bool :=
  ((outsAt s p).all fun o => decide (p.age ≤ o.age) || !unread p.lanes o) &&
  (s.fabric.remotes.all fun r => !((r.kind == 3 && inMask p.lanes r.lane || r.kind == 5) && r.wk == p.wk && decide (r.seq < p.age))) &&
  (s.arrivals.all fun a => !a.unread p) &&
  s.stores.all fun q => q.rmw.isNone || !(q.po.same p && decide (q.po.age < p.age))
/-- Every acquire of the point's threads before it has read, fences among them (R216). -/
def acquiresDone (s : State) (p : Point) : Bool := (outsAt s p).all fun o => decide (p.age ≤ o.age) ||
  (match o.kind with | .fence _ _ => o.mask &&& p.lanes == 0 | .tile _ _ _ _ => !unread p.lanes o | _ => !(o.acq && unread p.lanes o))

/-- The B tiles of every `mma` of the point's threads before it have been read, and the biases of their epilogues: reads of memory after
those acquires follow them (R220; log 28). -/
def engineReads (s : State) (p : Point) : Bool :=
  ((clusterOf s (clusterNo p.core)).table.all fun e => e.granted || !e.b.isEmpty || !(e.po.same p && decide (e.po.age < p.age))) &&
  (outsAt s p).all fun o => decide (p.age ≤ o.age) || !(o.kind == .epi false && o.mask &&& p.lanes != 0 && isBiased o.ins && o.res.vals.isEmpty)
where isBiased : Instr → Bool
  | .epiSt _ _ _ b _ _ | .epiT _ _ _ b _ => b
  | _ => false

/-! ### Remote accesses of a thread -/

def ownPeer (s : State) : Nat := regN s .peerid 0 % 4096
/-- A remote access belongs to the threads of a point. -/
def Remote.by (r : Remote) (p : Point) : Bool := r.wk == p.wk && (decide (4 ≤ r.kind) || inMask p.lanes r.lane)
def Remote.writes (r : Remote) : Bool := r.kind != 0 && r.kind != 5 && r.kind != 6
/-- The writes of the point's threads before it that went through a window have been performed: at scope fab all of them (R206, R228),
at a lesser one those for the own package (R377). -/
def remoteDone (s : State) (sc : Scope) (p : Point) : Bool := s.fabric.remotes.all fun r =>
  !(r.by p && r.writes && decide (r.seq < p.age) && (sc == .fab || r.peer == ownPeer s))
/-- The physical address of an offset in a segment of this package (R381). -/
def segRun (s : State) (g off : Nat) : Nat := regN s .fseg (8 * g + 2) + 2 ^ 32 * regN s .fseg (8 * g + 3) + off
/-- The physical run of an access through a window of the own package (R377). -/
def ownRun (s : State) (r : Remote) : Option (Nat × Nat) :=
  if r.peer = ownPeer s then some (segRun s (dbits r.ifa 40 8) (dbits r.ifa 0 40), r.bytes) else none
/-- No earlier write of the point's threads to a run of bytes is on its way through a window of the own package. -/
def ownWindowClear (s : State) (p : Point) (pa n : Nat) : Bool := s.fabric.remotes.all fun r =>
  !(r.by p && r.writes && decide (r.seq < p.age)) || (match ownRun s r with | some (a, m) => !meet a m pa n | none => true)

/-! ### Epilogues of a thread -/

/-- Some `epi.st` of the point's threads before it is still to store through a window to bytes of a segment (R206, R227). -/
def epiWindowHit (s : State) (p : Point) (peer seg off n : Nat) : Bool := s.wgs.any fun e => e.2.epis.any fun x =>
  x.po.same p && decide (x.po.age < p.age) && x.wins.any fun w => w.1 == peer && w.2.1 == seg && meet w.2.2.1 w.2.2.2 off n
/-- The `epi.st` of the point's threads before it have been accepted (R225). -/
def episDone (s : State) (p : Point) : Bool := s.wgs.all fun e => e.2.epis.all fun x => !(x.store && x.po.same p && decide (x.po.age < p.age))
/-- None of them is still to store through a window (R206, R225). -/
def epiWindowsDone (s : State) (p : Point) : Bool := s.wgs.all fun e => e.2.epis.all fun x => !(!x.wins.isEmpty && x.po.same p && decide (x.po.age < p.age))
/-- None of them is still to store to a run of bytes (R206). -/
def epiClear (s : State) (p : Point) (pa n : Nat) : Bool := s.wgs.all fun e => e.2.epis.all fun x =>
  !(x.po.same p && decide (x.po.age < p.age) && x.bytes.any fun r => meet r.1 r.2 pa n)

/-! ### Stores before a point -/

/-- The fences of the point's threads before it hold what follows them no longer: on their core, and at the homes (R216, R217). -/
def fencesNear (s : State) (p : Point) : Bool := s.stores.all fun q => !(q.bytes.isEmpty && q.po.same p && decide (q.po.age < p.age)) || q.entered.isSome
def fencesGone (s : State) (p : Point) : Bool := s.stores.all fun q => !(q.bytes.isEmpty && q.po.same p && decide (q.po.age < p.age))

/-- A pending store that is visible at a point: its threads' own before it, and what entered their L1 before it or before a read of theirs
that comes before it (R217). -/
def PStore.before (q : PStore) (p : Point) : Bool :=
  q.po.core == p.core && q.po.ctx == p.ctx &&
  (if q.po.same p then decide (q.po.age < p.age)
    else (match q.entered with | some e => decide (e ≤ p.age) | none => false) || q.readers.any fun r => r.same p && decide (r.age < p.age))
/-- What a release at scope `clus` or wider waits for. -/
def relDone (s : State) (sc : Scope) (p : Point) : Bool :=
  readsDone s p && (s.stores.all fun q => !q.before p) && remoteDone s sc p && episDone s p
/-- What a release at scope `warp` or `core` waits for: its threads' earlier writes are visible on their core. -/
def nearDone (s : State) (p : Point) : Bool :=
  readsDone s p && (s.stores.all fun q => !(q.po.same p && decide (q.po.age < p.age)) || q.entered.isSome) && remoteDone s .dev p && episDone s p
/-- Two pending stores of one context on one core. -/
def PStore.mate (a b : PStore) : Bool := a.po.core == b.po.core && a.po.ctx == b.po.ctx
/-- A fence of the threads of a store before it. -/
def PStore.fences (r q : PStore) : Bool := r.bytes.isEmpty && r.po.same q.po && decide (r.po.age < q.po.age)
def PStore.relFar (q : PStore) : Bool := match q.rel with | some sc => !near sc | none => false
/-- A store may become visible to the other threads of its core: at once for those of a cached mapping (R206, R231). -/
def mayEnter (s : State) (q : PStore) : Bool :=
  readsDone s q.po && epiClear s q.po q.pa q.bytes.length && ownWindowClear s q.po q.pa q.bytes.length &&
  (s.stores.all fun r => !r.mate q || r.entered.isSome || !((decide (r.id < q.id) && r.hits q.pa q.bytes.length) || r.fences q)) &&
  (q.rel.isNone || nearDone s q.po)
/-- A store can be performed at its home now. -/
def storeReady (s : State) (q : PStore) : Bool :=
  reaches s q.pa && (q.entered.isSome || mayEnter s q) &&
  (s.stores.all fun r => !r.mate q || !((decide (r.id < q.id) && r.hits q.pa q.bytes.length) || (r.relFar && r.fences q))) &&
  (!q.relFar || relDone s (q.rel.getD .dev) q.po)

end Sys2Proof.Machine
end

