-- ==== Sys2Proof/Machine/Image.lean ====
section
/-! DEFINITION. The context image (R48, R401, R402, R412 to R414): where each field lies, writing a context's image at a
switch out or a stop, and reading it back at a switch in. -/
namespace Sys2Proof.Machine

/-! ### Captured operands (R402) -/

/-- Words of one captured source. -/
def captureOne (w : Warp) : Span → List Word
  | (.v r, n) => (List.range w.width).flatMap fun i => (List.range n).map fun j => (laneOf w i).rd (r.val + j)
  | (.s r, n) => (List.range n).map fun j => w.rdS (r.val + j)
  | (.a r, _) => [(w.rdA r.val).1, (w.rdA r.val).2]
  | _ => []
/-- The register sources of an instruction in field order. -/
def capture (w : Warp) (i : Instr) : List (List Word) := (usesOf i).reads.map (captureOne w)
/-- A warp whose registers read as they were captured. -/
def uncaptureOne (w : Warp) (p : Span × List Word) : Warp :=
  match p with
  | ((.v r, n), ws) => { w with lanes := mapI (fun i l =>
      (List.range n).foldl (fun l j => l.wr (r.val + j) (nth ws (n * i + j) 0)) l) w.lanes }
  | ((.s r, n), ws) => (List.range n).foldl (fun w j => w.wrS (r.val + j) (nth ws j 0)) w
  | ((.a r, _), ws) => w.wrA r.val (nth ws 0 0, nth ws 1 0)
  | _ => w
def uncapture (w : Warp) (i : Instr) (c : List (List Word)) : Warp := ((usesOf i).reads.zip c).foldl uncaptureOne w

/-! ### Fields -/

/-- A field of `α` at an offset: bytes, value, update. -/
structure Fld (α : Type) where
  off : Nat
  n : Nat
  get : α → Nat
  set : α → Nat → α
/-- Bytes that hold zero. -/
def gap (α : Type) (off n : Nat) : Fld α := ⟨off, n, fun _ => 0, fun x _ => x⟩
def setLane (w : Warp) (i : Nat) (f : Lane → Lane) : Warp := { w with lanes := mapI (fun j l => if j = i then f l else l) w.lanes }
def laneStNum : LaneSt → Nat
  | .grouped | .ejected => 0
  | .trapped => 2
  | .exited => 3
  | .absent => 4
def laneStOf (n : Nat) : LaneSt := if n = 2 then .trapped else if n = 3 then .exited else if n = 4 then .absent else .grouped
def laneFields (i : Nat) : List (Fld Warp) :=
  [⟨0x200 + 8 * i, 8, fun w => (laneOf w i).pc.toNat, fun w x => setLane w i fun l => { l with pc := dw x }⟩,
   ⟨0x400 + i, 1, fun w => laneStNum (laneOf w i).st, fun w x => setLane w i fun l => { l with st := laneStOf x }⟩,
   ⟨0x440 + 2 * i, 2, fun w => (laneOf w i).p.toNat, fun w x => setLane w i fun l => { l with p := BitVec.ofNat 12 x }⟩,
   ⟨0x4C0 + 4 * i, 4, fun w => (laneOf w i).flg.toNat, fun w x => setLane w i fun l => { l with flg := wd x &&& 0x1FF }⟩,
   ⟨0x5C0 + 8 * i, 8, fun w => (laneOf w i).gs.toNat, fun w x => setLane w i fun l => { l with gs := dw x }⟩]
def timerBits (w : Warp) : Nat := b2n w.dev.armed + 2 * b2n w.ctxd.armed + 4 * b2n w.dev.held + 8 * b2n w.ctxd.held
/-- The warp area of R414, the switch queue aside. -/
def warpFields (w : Warp) : List (Fld Warp) :=
  ((List.range 64).map fun k => ⟨4 * k, 4, fun w => (w.rdS k).toNat, fun w x => w.wrS k (wd x)⟩) ++
  ((List.range 32).flatMap fun k =>
    [⟨0x100 + 8 * k, 4, fun w => (w.rdA k).1.toNat, fun w x => w.wrA k (wd x, (w.rdA k).2)⟩,
     ⟨0x104 + 8 * k, 4, fun w => (w.rdA k).2.toNat, fun w x => w.wrA k ((w.rdA k).1, wd x)⟩]) ++
  ((List.range w.width).flatMap laneFields) ++
  [⟨0x7C0, 8, fun w => w.dev.t.toNat, fun w x => { w with dev := { w.dev with t := dw x } }⟩,
   ⟨0x7C8, 8, fun w => w.ctxd.t.toNat, fun w x => { w with ctxd := { w.ctxd with t := dw x } }⟩,
   ⟨0x7D0, 4, timerBits, fun w x => { w with
      dev := { w.dev with armed := nbits x 0 1 == 1, held := nbits x 2 1 == 1 },
      ctxd := { w.ctxd with armed := nbits x 1 1 == 1, held := nbits x 3 1 == 1 } }⟩,
   ⟨0x7D8, 8, fun w => w.cpc.toNat, fun w x => { w with cpc := dw x }⟩,
   ⟨0x7E0, 4, fun w => w.rem.code.toNat, fun w x => { w with rem := { w.rem with code := wd x } }⟩,
   ⟨0x7E4, 4, fun w => w.rem.count.toNat, fun w x => { w with rem := { w.rem with count := wd x } }⟩,
   ⟨0x7E8, 8, fun w => w.rem.ifa.toNat, fun w x => { w with rem := { w.rem with ifa := dw x } }⟩,
   ⟨0x7F0, 4, fun w => w.level, fun w x => { w with level := min x 1 }⟩,
   ⟨0x7F4, 4, fun w => w.frame.getD 0, fun w x => { w with frame := w.frame.map fun _ => x % 8 }⟩,
   gap Warp 0x7D4 4, gap Warp 0x7F8 8] ++
  ((List.range w.nv).flatMap fun k => (List.range w.width).map fun i =>
    ⟨0x9400 + 4 * w.width * k + 4 * i, 4, fun w => ((laneOf w i).rd k).toNat, fun w x => setLane w i fun l => l.wr k (wd x)⟩)

/-- Descriptor and capture area of entry e of a replay or switch queue (R402). -/
def padTo (n : Nat) (b : List Byte) : List Byte := b ++ zeros ((n - b.length % n) % n)
/-- A varying source takes its width times 64 lanes; every source starts at a 16-byte boundary. -/
def captUnit : Span → Nat
  | (.v _, n) => 256 * n
  | _ => 16
def captBytes (spans : List Span) (c : List (List Word)) : List Byte :=
  (spans.zip c).flatMap fun (sp, ws) => padTo (captUnit sp) (ws.flatMap fun w => le 4 w.toNat)
def takeWords (b : List Byte) (n : Nat) : List Word := (List.range n).map fun j => wd (leNat ((b.drop (4 * j)).take 4))
def captSize (sp : Span) (ws : List Word) : Nat := (4 * ws.length + captUnit sp - 1) / captUnit sp * captUnit sp
def captParse : List (Span × List Word) → List Byte → List (List Word)
  | [], _ => []
  | (sp, ws) :: r, b => takeWords b ws.length :: captParse r (b.drop (captSize sp ws))
def instrBits (i : Instr) : Nat := match encode i with | some w => w.toNat | none => 0
def repDescriptor (r : Rep) : List Byte :=
  le 8 r.o.pc.toNat ++ le 12 (instrBits r.o.ins) ++ zeros 4 ++ le 8 r.o.mask.toNat ++ le 8 r.o.act.toNat ++
  le 4 r.o.units.toNat ++ le 4 (b2n r.valid + 2 * b2n r.drop) ++ zeros 16
/-- The 16 entries of a queue; one that holds nothing is not VALID. -/
def repWrites (base : Nat) (l : List Rep) : List (Nat × List Byte) :=
  (mapI (fun e r => [(base + 64 * e, repDescriptor r), (base + 0x400 + 2048 * e, captBytes (usesOf r.o.ins).reads r.o.capt)]) (l.take 16)).flatten ++
  (List.range (16 - l.length)).map fun i => (base + 64 * (l.length + i) + 0x2C, zeros 4)
/-- An entry read back: PC, masks, flags and captured operands. -/
def repRead (ok : Nat → Bool) (rd : Nat → Nat → List Byte) (base e : Nat) (r : Rep) : Rep :=
  if !ok (base + 64 * e) then r else
  let f (o n : Nat) : Nat := leNat (rd (base + 64 * e + o) n)
  let c := (usesOf r.o.ins).reads.zip r.o.capt
  { r with
    valid := nbits (f 0x2C 4) 0 1 == 1, drop := nbits (f 0x2C 4) 1 1 == 1
    o := { r.o with pc := dw (f 0 8), mask := BitVec.ofNat 64 (f 0x18 8), act := BitVec.ofNat 64 (f 0x20 8),
                    units := BitVec.ofNat 32 (f 0x28 4),
                    capt := captParse c (rd (base + 0x400 + 2048 * e) ((c.map fun p => captSize p.1 p.2).foldl (· + ·) 0)) } }

/-- Fields of a frame (R401). -/
def frameFields (width : Nat) : List (Fld Frame) :=
  [⟨0x00, 4, fun f => f.cause.toNat, fun f x => { f with cause := wd x }⟩,
   ⟨0x04, 4, fun f => f.state, fun f x => { f with state := x % 4 }⟩,
   ⟨0x08, 8, fun f => f.fpc.toNat, fun f x => { f with fpc := dw x }⟩,
   ⟨0x10, 8, fun f => f.rpc.toNat, fun f x => { f with rpc := dw x }⟩,
   ⟨0x18, 8, fun f => f.fva.toNat, fun f x => { f with fva := dw x }⟩,
   ⟨0x20, 4, fun f => f.synd.toNat, fun f x => { f with synd := wd x }⟩,
   ⟨0x24, 4, fun f => f.token.toNat, fun f x => { f with token := wd x }⟩,
   ⟨0x28, 8, fun f => f.gmask.toNat, fun f x => { f with gmask := BitVec.ofNat 64 x }⟩,
   ⟨0x30, 4, fun f => f.rep.length, fun f x => { f with rep := f.rep.take x }⟩,
   ⟨0x34, 4, fun f => f.gen, fun f x => { f with gen := x % 4 }⟩,
   ⟨0x38, 4, fun f => f.rcnt.toNat, fun f x => { f with rcnt := wd x }⟩,
   ⟨0x40, 8, fun f => f.rifa.toNat, fun f x => { f with rifa := dw x }⟩,
   gap Frame 0x3C 4, gap Frame 0x48 184] ++
  ((List.range width).map fun i => ⟨0x100 + 2 * i, 2, fun f => (nth f.pred i 0).toNat,
    fun f x => { f with pred := setAt f.pred i (BitVec.ofNat 12 x) }⟩) ++
  ((List.range width).map fun i => ⟨0x180 + 4 * i, 4, fun f => (nth f.flg i 0).toNat,
    fun f x => { f with flg := setAt f.flg i (wd x &&& 0x1FF) }⟩) ++
  ((List.range 8).map fun k => ⟨0x280 + 4 * k, 4, fun f => (nth f.ss k 0).toNat, fun f x => { f with ss := setAt f.ss k (wd x) }⟩) ++
  ((List.range 8).flatMap fun k => (List.range width).map fun i =>
    ⟨0x400 + 256 * k + 4 * i, 4, fun f => (nth (nth f.sv i []) k 0).toNat,
      fun f x => { f with sv := setAt f.sv i (setAt (nth f.sv i []) k (wd x)) }⟩)

/-- A set of lanes by warp index as the bits of R413. -/
def setBytes (width : Nat) (m : SMap Mask) : Nat := m.foldl (fun acc e => acc + e.2.toNat % 2 ^ width * 2 ^ (width * e.1)) 0
def setOfBytes (width x : Nat) : SMap Mask :=
  (List.range (2048 / width)).filterMap fun w =>
    let v := nbits x (width * w) width
    if v = 0 then none else some (w, BitVec.ofNat 64 v)
def modBar (g : Workgroup) (k : Nat) (f : Bar → Bar) : Workgroup := { g with bars := mapI (fun j b => if j = k then f b else b) g.bars }
def modCv (g : Workgroup) (k : Nat) (f : Cv → Cv) : Workgroup := { g with cvs := mapI (fun j c => if j = k then f c else c) g.cvs }
def noBar : Bar := ⟨0, [], [], 0⟩
def noCv : Cv := ⟨false, 0, 0, 0, 0, 0, none⟩
/-- The workgroup area of R413, frames and withdrawn work aside. -/
def wgFields (width : Nat) (g : Workgroup) : List (Fld Workgroup) :=
  [⟨0x8, 2, fun g => g.phase.toNat, fun g x => { g with phase := BitVec.ofNat 16 x }⟩,
   ⟨0xA, 1, fun g => b2n g.restart, fun g x => { g with restart := nbits x 0 1 == 1 }⟩] ++
  ((List.range g.bars.length).flatMap fun k =>
    [⟨0x100 + 16 * k, 4, fun g => (nth g.bars k noBar).e, fun g x => modBar g k fun b => { b with e := x }⟩,
     gap Workgroup (0x104 + 16 * k) 12,
     ⟨0x1000 + 256 * k, 256, fun g => setBytes width (nth g.bars k noBar).arrived,
       fun g x => modBar g k fun b => { b with arrived := setOfBytes width x }⟩,
     ⟨0x2000 + 256 * k, 256, fun g => setBytes width (nth g.bars k noBar).members,
       fun g x => modBar g k fun b => { b with members := setOfBytes width x }⟩]) ++
  ((List.range 8).flatMap fun k =>
    let c (g : Workgroup) : Cv := nth g.cvs k noCv
    [⟨0x3000 + 64 * k, 4, fun g => b2n (c g).declared, fun g x => modCv g k fun c => { c with declared := x == 1 }⟩,
     ⟨0x3004 + 64 * k, 4, fun g => (c g).warp,
       fun g x => modCv g k fun c => if c.warp = x then c else { c with warp := x, wk := (find g.warps x).getD c.wk }⟩,
     ⟨0x3008 + 64 * k, 4, fun g => (c g).vb, fun g x => modCv g k fun c => { c with vb := x % 256 }⟩,
     gap Workgroup (0x300C + 64 * k) 4, gap Workgroup (0x3024 + 64 * k) 28,
     ⟨0x3010 + 64 * k, 8, fun g => (c g).m.toNat, fun g x => modCv g k fun c => { c with m := BitVec.ofNat 64 x }⟩,
     ⟨0x3018 + 64 * k, 8, fun g => (c g).sigs.toNat, fun g x => modCv g k fun c => { c with sigs := BitVec.ofNat 64 x }⟩,
     ⟨0x3020 + 64 * k, 4, fun g => b2n (c g).latch.isSome,
       fun g x => modCv g k fun c => { c with latch := if x == 1 then some (c.latch.getD (List.replicate 512 0)) else none }⟩,
     ⟨0x6000 + 2048 * k, 2048, fun g => leNat (((c g).latch.getD []).flatMap fun w => le 4 w.toNat),
       fun g x => modCv g k fun c => { c with latch := c.latch.map fun _ => (List.range 512).map fun j => wd (nbits x (32 * j) 32) }⟩])

/-! ### Addresses -/

def imgBase (s : State) (ctx : Nat) : Nat := dbits (reg s .cimg ctx) 16 36 * 65536
def imgSize (s : State) (ctx : Nat) : Nat := dbits (reg s .cimg ctx) 52 12 * 2 ^ 20
def frameOff (f : Nat) : Nat := 0x1A000 + 0x9000 * f
/-- Bytes of a warp area, rounded up to 4 KiB (R412, R414). -/
def warpArea (width nv : Nat) : Nat := (0x9400 + 4 * width * nv + 4095) / 4096 * 4096
/-- Warps of role 0 (R29, R41). -/
def warpsOf (width t : Nat) : Nat := (t + width - 1) / width
/-- Allotment of varying registers that R412 counts for each warp and spawn slot: the larger role for a slot. -/
def slotNv (l : LRec) : Nat := max l.r0.nv (if l.roles = 2 then l.r1.nv else 0)
def areaSize (l : LRec) : Nat :=
  0x62000 + warpsOf l.width l.r0.t * warpArea l.width l.r0.nv +
    (if l.roles = 2 then warpsOf l.width l.r1.t * warpArea l.width l.r1.nv else 0) + l.spawn * warpArea l.width (slotNv l)
/-- Offset of the area of warp index w: role 0, then role 1, then the spawn slots. -/
def warpOffset (l : LRec) (w : Nat) : Nat :=
  let np := warpsOf l.width l.r0.t
  let nc := if l.roles = 2 then warpsOf l.width l.r1.t else 0
  0x62000 + min w np * warpArea l.width l.r0.nv + min (w - np) nc * warpArea l.width l.r1.nv +
    (w - np - nc) * warpArea l.width (slotNv l)

/-! ### Writing and reading the image -/

/-- Uncharged writes of up to 64 KiB at supervisor level, each page translated once; a page that does not translate is not written (R409). -/
def imgWrite (ctx ea : Nat) (bs : List Byte) : Action := fun s =>
  let part (a : Nat) (bs : List Byte) : List Upd := match paOf s ctx true .write a with
    | some pa => mapI (fun i b => Upd.byte (pa + i) b) bs
    | none => []
  let n := 65536 - ea % 65536
  part ea (bs.take n) ++ if n < bs.length then part (ea + n) (bs.drop n) else []
def imgRead (s : State) (ctx ea n : Nat) : List Byte := vaRead s ctx true ea n
def fldWrites {α : Type} (base : Nat) (x : α) (fs : List (Fld α)) : List (Nat × List Byte) :=
  fs.map fun f => (base + f.off, le f.n (f.get x))
def fldReads {α : Type} (s : State) (ctx base : Nat) (fs : List (Fld α)) (x : α) : α :=
  fs.foldl (fun x f => match paOf s ctx true .read (base + f.off) with
    | some pa => f.set x (memNat s.mem pa f.n)
    | none => x) x
def recOf (s : State) (g : Workgroup) : LRec :=
  match find s.launches g.launch with
  | some l => l.lr
  | none => ⟨16, 1, false, false, false, false, 0, 0, 0, 0, 0, 0, 0, 0, 0, 0, ⟨0, 0, 0, 0, 0⟩, ⟨0, 0, 0, 0, 0⟩, [], []⟩
/-- A warp's area (R414). -/
def warpImage (base : Nat) (w : Warp) : List (Nat × List Byte) :=
  fldWrites base w (warpFields w) ++ repWrites (base + 0x1000) (w.swq.map fun o => ⟨o, true, false⟩)
/-- Everything of a workgroup written to its area. -/
def wgImage (s : State) (g : Workgroup) : List (Nat × List Byte) :=
  let base := imgBase s g.ctx + g.area
  let r := recOf s g
  let addr := match find s.launches g.launch with | some l => l.addr.toNat | none => 0
  [(base, le 8 addr)] ++ fldWrites base g (wgFields r.width g) ++
  (mapI (fun f fr => fldWrites (base + frameOff f) fr (frameFields r.width) ++ repWrites (base + frameOff f + 0xC00) fr.rep) g.frames).flatten ++
  (g.warps.flatMap fun (i, k) => match find s.warps k with
    | some w => warpImage (base + warpOffset r i) w
    | none => [])
/-- The values of a warp just created in its area, which a supervisor may read there until a later value replaces them (R48, R49). -/
def imageWarp (wg index wk : Nat) : Action := look fun s =>
  match find s.wgs wg, find s.warps wk with
  | some g, some w => if imgSize s g.ctx = 0 then skip else acts [
      vaWalks g.ctx (clusterNo g.core) .write (pagesOf (imgBase s g.ctx + g.area + warpOffset (recOf s g) index) (warpArea w.width w.nv)),
      forEach (warpImage (imgBase s g.ctx + g.area + warpOffset (recOf s g) index) w) fun (a, b) => imgWrite g.ctx a b]
  | _, _ => skip
/-- The workgroups of a context that have not ended, by key. -/
def wgsOf (s : State) (ctx : Nat) : List (Nat × Workgroup) := s.wgs.filter fun e => e.2.ctx == ctx && e.2.live
/-- The header and workgroup table (R412). -/
def imgHeader (s : State) (ctx : Nat) : List (Nat × List Byte) :=
  let b := imgBase s ctx
  [(b, le 4 1 ++ zeros 4 ++ le 8 (ctxOf s ctx).time ++ le 8 (ctxOf s ctx).wd ++ zeros 4072)] ++
  mapI (fun i e => (b + 0x1000 + 8 * i, le 8 (2 ^ 63 + e.2.core * 2 ^ 40 + e.2.area))) (wgsOf s ctx) ++
  [(b + 0x1000 + 8 * (wgsOf s ctx).length, zeros (8 * (1024 - (wgsOf s ctx).length)))]
/-- Reservation entries and cards of workgroup k that a switch withdraws, in posting order (R185, R410, R413). -/
def ResEntry.out (k : Nat) (e : ResEntry) : Bool := e.wg == k && !e.granted
def Card.out (k : Nat) (c : Card) : Bool := c.wg == k && !c.running
def withdrawn (s : State) (k : Nat) (g : Workgroup) : List ResEntry := (clusterOf s (clusterNo g.core)).table.filter (ResEntry.out k)
def withdrawnCards (s : State) (k : Nat) (g : Workgroup) : List Card := (clusterOf s (clusterNo g.core)).cards.filter (Card.out k)
/-- Descriptors of the withdrawn cards and A blocks of the withdrawn entries (R413). -/
def workImage (s : State) (k : Nat) (g : Workgroup) : List (Nat × List Byte) :=
  let base := imgBase s g.ctx + g.area
  mapI (fun i c => (base + 0x4000 + 128 * i, c.desc)) (withdrawnCards s k g) ++
  mapI (fun i e => (base + 0xA000 + 2048 * i, e.a.flatMap fun w => le 4 w.toNat)) (withdrawn s k g)
/-- The 64 bytes of each withdrawn entry, whose layout R413 does not give: free values (log 17). -/
def entryImage (s : State) (k : Nat) (g : Workgroup) : Action :=
  forEach (List.range (8 * (withdrawn s k g).length)) fun j =>
    withFree fun v => imgWrite g.ctx (imgBase s g.ctx + g.area + 0x3200 + 8 * j) (le 8 (Config.freeValue v).toNat)
/-- The walks of a save or a restore of some workgroups (R375). -/
def imageWalks (ctx : Nat) (a : AccKind) (gs : List Workgroup) : Action := look fun s => acts [devWalk ctx a (pagesOf (imgBase s ctx) 0x3000),
  forEach gs fun g => vaWalks ctx (clusterNo g.core) a (pagesOf (imgBase s ctx + g.area) (areaSize (recOf s g)))]
/-- The image of a context written, with the areas of some of its workgroups (R410, R412 to R414). -/
def imageOutOf (ctx : Nat) (save : Workgroup → Bool) : Action := look fun s =>
  let gs := (wgsOf s ctx).filter fun e => save e.2
  if imgSize s ctx = 0 then skip else acts [
    imageWalks ctx .write (gs.map (·.2)),
    forEach (imgHeader s ctx ++ gs.flatMap fun e => wgImage s e.2 ++ workImage s e.1 e.2) fun (a, b) => imgWrite ctx a b,
    forEach gs fun (k, g) => entryImage s k g]
def imageOut (ctx : Nat) : Action := imageOutOf ctx fun _ => true
/-- A fresh workgroup is put into its context's image. -/
def imageAdd (ctx k : Nat) : Action := look fun s =>
  match find s.wgs k with
  | some g => if imgSize s ctx = 0 then skip
      else acts [imageWalks ctx .write [g], forEach (imgHeader s ctx ++ wgImage s g) fun (a, b) => imgWrite ctx a b]
  | none => skip
/-- The values that a physical line of a context's image holds now. -/
def imageLine (ctx line : Nat) : Action := look fun s =>
  forEach (((wgsOf s ctx).flatMap fun e => wgImage s e.2).filter fun (a, b) =>
      (List.range (b.length / 64 + 2)).any fun i => (paOf s ctx true .write (min (a + 64 * i) (a + (b.length - 1)))).map (· / 64) == some line)
    fun (a, b) => fun s => (mapI (fun i b => (a + i, b)) b).filterMap fun (a, b) =>
      (paOf s ctx true .write a).bind fun pa => if pa / 64 = line then some (Upd.byte pa b) else none
/-- The image of a context read back. -/
def wgFromImage (s : State) (g : Workgroup) : Workgroup :=
  let base := imgBase s g.ctx + g.area
  let r := recOf s g
  let g := fldReads s g.ctx base (wgFields r.width g) g
  { g with frames := mapI (fun f fr =>
      let fr := fldReads s g.ctx (base + frameOff f) (frameFields r.width) fr
      { fr with rep := mapI (fun e x => repRead (fun a => (paOf s g.ctx true .read a).isSome) (imgRead s g.ctx) (base + frameOff f + 0xC00) e x) fr.rep }) g.frames }
def warpFromImage (s : State) (g : Workgroup) (i : Nat) (w : Warp) : Warp :=
  let b := imgBase s g.ctx + g.area + warpOffset (recOf s g) i
  let w := fldReads s g.ctx b (warpFields w) w
  { w with swq := mapI (fun e o => (repRead (fun a => (paOf s g.ctx true .read a).isSome) (imgRead s g.ctx) (b + 0x1000) e ⟨o, true, false⟩).o) w.swq }
/-- The i-th withdrawn card or entry of a workgroup changed. -/
def modNth {α : Type} (p : α → Bool) (f : Nat → α → α) (l : List α) : List α :=
  (l.foldl (fun (acc : Nat × List α) x => if p x then (acc.1 + 1, f acc.1 x :: acc.2) else (acc.1, x :: acc.2)) (0, [])).2.reverse
def workFromImage (s : State) (k : Nat) (g : Workgroup) (r : Cluster) : Cluster :=
  let base := imgBase s g.ctx + g.area
  let ok (a : Nat) : Bool := (paOf s g.ctx true .read a).isSome
  { r with
    cards := modNth (Card.out k) (fun i c => let a := base + 0x4000 + 128 * i
      if ok a then { c with desc := imgRead s g.ctx a 128 } else c) r.cards
    table := modNth (ResEntry.out k) (fun i e => let a := base + 0xA000 + 2048 * i
      if ok a then { e with a := takeWords (imgRead s g.ctx a (4 * e.a.length)) e.a.length } else e) r.table }
/-- Context time and the watchdog count of the header, unless a sink has retired while the context was out (R289, R412). -/
def headerIn (ctx : Nat) : Action := fun s => match paOf s ctx true .read (imgBase s ctx) with
  | some pa => if (wgsOf s ctx).isEmpty then [] else
      let c := ctxOf s ctx
      [.ctx ctx { c with time := memNat s.mem (pa + 8) 8, wd := if c.wd = 0 then 0 else memNat s.mem (pa + 16) 8 }]
  | none => []
def imageIn (ctx : Nat) : Action := look fun s =>
  if imgSize s ctx = 0 then skip else acts [imageWalks ctx .read (((wgsOf s ctx).map (·.2)).filter fun g => !g.restart), headerIn ctx,
    forEach ((wgsOf s ctx).filter fun e => !e.2.restart) fun (k, g) => acts [
      fun s' => Upd.wg k (some (wgFromImage s g)) ::
        (g.warps.filterMap fun (i, wk) => (find s'.warps wk).map fun w => Upd.warp wk (some (warpFromImage s g i w))),
      modCluster (clusterNo g.core) (workFromImage s k g)]]

end Sys2Proof.Machine
end

