-- ==== Sys2Proof/Machine/RegCache.lean ====
section
/-! DEFINITION. The register cache of a core (R13, R43, R320, R409, R416): the lines of registers and frames that it holds, each
workgroup's and role's share of it, what a miss evicts, and the lines of a warp just created. -/
namespace Sys2Proof.Machine

/-- Warps of each role of a launch, the spawn slots counted with role 1 of a launch with two (R43). -/
def roleOfIndex (r : LRec) (i : Nat) : Nat := if r.roles = 2 && decide (warpsOf r.width r.r0.t ≤ i) then 1 else 0
/-- Warp indexes of a workgroup, spawn slots included. -/
def slotCount (r : LRec) : Nat := warpsOf r.width r.r0.t + (if r.roles = 2 then warpsOf r.width r.r1.t else 0) + r.spawn
/-- Lines of a warp's area that hold registers: its first 2 KiB, and its varying registers (R43, R414). -/
def regFoot (width nv : Nat) : Nat := 32 + width * nv / 16
/-- The footprint of a role. -/
def roleFoot (r : LRec) (role : Nat) : Nat :=
  let slots := r.spawn * regFoot r.width (slotNv r)
  let first := warpsOf r.width r.r0.t * regFoot r.width r.r0.nv
  if r.roles != 2 then (if role = 0 then first + slots else 0)
  else if role = 0 then first else warpsOf r.width r.r1.t * regFoot r.width r.r1.nv + slots
def wgFoot (r : LRec) : Nat := roleFoot r 0 + roleFoot r 1
/-- The share of a workgroup: all of the cache, or its part among the resident workgroups of its core, the rest with the first (R320). -/
def rcWhole (s : State) (core k : Nat) : Nat :=
  let l := s.wgs.filter fun e => e.2.core == core && e.2.live && (ctxOf s e.2.ctx).resident
  if l.length ≤ 1 then 8192
  else
    let total := (l.map fun e => wgFoot (recOf s e.2)).foldl (· + ·) 0
    let parts := l.map fun e => (e.1, 8192 * wgFoot (recOf s e.2) / max 1 total)
    let rest := 8192 - (parts.map (·.2)).foldl (· + ·) 0
    (find parts k).getD 0 + if (l.head?.map (·.1)) == some k then rest else 0
/-- The share of a role in its workgroup's (R43): lines in proportion to the footprints. -/
def rcShare (whole : Nat) (r : LRec) (role : Nat) : Nat :=
  if r.roles != 2 then whole
  else
    let p := whole * roleFoot r 0 / (roleFoot r 0 + roleFoot r 1)
    if role = 0 then p else whole - p
/-- The address in a context's image of a physical line. -/
def imageVa (s : State) (ctx line : Nat) : Option Nat :=
  (List.range (imgSize s ctx / 65536)).findSome? fun j =>
    let va := imgBase s ctx + 65536 * j
    (paOf s ctx true .read va).bind fun pa => if pa / 65536 = line / 1024 then some (va + line % 1024 * 64) else none
/-- The warp index of a frame's warp. -/
def frameIndex (g : Workgroup) (f : Nat) : Nat := match g.frames[f]? with
  | some fr => ((g.warps.find? fun e => e.2 == fr.warp).map (·.1)).getD 0
  | none => 0
/-- The workgroup and role whose registers or frames an address of the image holds. -/
def rcOwner (s : State) (ctx va : Nat) : Option (Nat × Workgroup × Nat) :=
  (wgsOf s ctx).findSome? fun (k, g) =>
    let r := recOf s g
    let base := imgBase s ctx + g.area
    let inFrame := decide (base + 0x1A000 ≤ va) && decide (va < base + 0x62000)
    if inFrame then some (k, g, roleOfIndex r (frameIndex g ((va - base - 0x1A000) / 0x9000)))
    else ((List.range (slotCount r)).find? fun i => decide (base + warpOffset r i ≤ va) && decide (va < base + warpOffset r (i + 1)) &&
      (decide (va < base + warpOffset r i + 0x800) || decide (base + warpOffset r i + 0x9400 ≤ va))).map fun i => (k, g, roleOfIndex r i)
/-- One of several, freely. -/
def pickOne {α : Type} (t : Nat) (l : List α) : Option α := l[Config.freeChoice t % max 1 l.length]?
/-- A line leaves: its values go to its home (R409). Those of a context that is out have been in its image since the switch. -/
def rcEvict (core : Nat) (e : RcLine) : Action := acts [
  if e.free then skip else imageLine e.ctx e.line,
  llcTouches [e.line] 0 (some (some e.ctx)),
  modCore core fun c => { c with rc := c.rc.filter fun x => x.line != e.line }]
/-- A line of a role that holds more than its share, as a new division may leave it (R320). -/
def rcOver (s : State) (core : Nat) (e : RcLine) : Bool := match find s.wgs e.wg with
  | none => true
  | some g => decide (rcShare (rcWhole s core e.wg) (recOf s g) e.role <
      ((coreOf s core).rc.filter fun x => !x.free && x.wg == e.wg && x.role == e.role).length)
/-- The line that a miss evicts, freely among those it may: of its own share when that is full, else one that a switch out has left, or
of a role above its share. -/
def rcVictim (s : State) (t core k role : Nat) (r : LRec) : Option RcLine :=
  let l := (coreOf s core).rc
  let own := l.filter fun e => !e.free && e.wg == k && e.role == role
  if rcShare (rcWhole s core k) r role ≤ own.length then pickOne t own
  else if l.length < 8192 then none
  else (pickOne t (l.filter (·.free))).orElse fun _ => (pickOne t (l.filter (rcOver s core))).orElse fun _ => pickOne t own
/-- A miss is filled from the LLC, or from HBM4, and charged to the context whose issue missed. A line still held is used in place. -/
def rcFill (ctx line : Nat) (hbm : Bool) : Action := look fun s => match (imageVa s ctx line).bind (rcOwner s ctx) with
  | none => skip
  | some (k, g, role) => if (coreOf s g.core).rc.any fun e => e.line == line then skip else withFree fun t => acts [
      match rcVictim s t g.core k role (recOf s g) with | some e => rcEvict g.core e | none => skip,
      vaWalks ctx (clusterNo g.core) .read (imageVa s ctx line).toList,
      charge (some ctx) (⟨9, 1, homeCluster (64 * line)⟩ :: if hbm then [⟨11, 1, clusterNo g.core⟩] else []),
      llcTouches [line] 0 none,
      modCore g.core fun c => if c.rc.length < 8192 then { c with rc := c.rc ++ [⟨ctx, k, role, line, false⟩] } else c]
/-- R409: a miss of the register cache is filled from the LLC, or from HBM4. -/
def execRegisterCacheFill (ctx line : Nat) (hbm : Bool) (s : State) : Host.Outcome State Fault Refusal := .next (run (rcFill ctx line hbm) s)
/-- Physical lines of addresses of a context's image, each page translated once. -/
def linesAt (s : State) (ctx : Nat) (vas : List Nat) : List Nat :=
  let pages := (dedup (vas.map (· / 65536))).map fun p => (p, paOf s ctx true .write (65536 * p))
  vas.filterMap fun va => ((find pages (va / 65536)).bind id).map fun pa => (pa + va % 65536) / 64
/-- The lines of a warp just created are in its core's register cache, zeroed and not fetched, as far as its role's share goes; lines that
a switch out has left make room (R36, R43). -/
def rcEnter (k i : Nat) : Action := look fun s => match find s.wgs k with
  | none => skip
  | some g => if imgSize s g.ctx = 0 then skip else
    let r := recOf s g
    let role := roleOfIndex r i
    let held := (coreOf s g.core).rc
    let own := held.filter fun e => !e.free && e.wg == k && e.role == role
    let area := imgBase s g.ctx + g.area + warpOffset r i
    let nv := ((find g.warps i).bind (find s.warps)).elim 0 (·.nv)
    let vas := (List.range (regFoot r.width nv)).map fun j => area + if j < 32 then 64 * j else 0x9400 + 64 * (j - 32)
    let lines := ((linesAt s g.ctx vas).filter fun l => held.all fun e => e.line != l).take (rcShare (rcWhole s g.core k) r role - own.length)
    let left := held.filter (·.free)
    let excess := held.length + lines.length - 8192
    acts [if excess = 0 then skip else withFree fun t => forEach ((left.rotateLeft (Config.freeChoice t % max 1 left.length)).take excess) (rcEvict g.core),
      modCore g.core fun c => { c with rc := c.rc ++ (lines.take (8192 - c.rc.length)).map fun l => ⟨g.ctx, k, role, l, false⟩ }]
/-- The lines of a context, at a switch out: those of restartable workgroups are discarded, the others stay, evictable (R409, R416). -/
def rcPark (ctx : Nat) (restart : List Nat) : Action := fun s =>
  (s.cores.filter fun e => e.2.rc.any fun l => l.ctx == ctx).map fun (c, r) =>
    Upd.core c { r with rc := (r.rc.filter fun l => l.ctx != ctx || !restart.contains l.wg).map fun l => if l.ctx = ctx then { l with free := true } else l }
/-- At a switch in they are the context's own again. -/
def rcUnpark (ctx : Nat) : Action := fun s =>
  (s.cores.filter fun e => e.2.rc.any fun l => l.ctx == ctx).map fun (c, r) =>
    Upd.core c { r with rc := r.rc.map fun l => if l.ctx = ctx then { l with free := false } else l }
/-- The lines of a workgroup that has ended hold nothing. -/
def rcDrop (core wg : Nat) : Action := fun s =>
  if (coreOf s core).rc.any fun l => l.wg == wg then modCore core (fun c => { c with rc := c.rc.filter fun l => l.wg != wg }) s else []

end Sys2Proof.Machine
end

