-- ==== Sys2Proof/Machine/Ops.lean ====
section
/-! DEFINITION. The shared operations of execution: completing instructions (R69), stopping a context (R290, R404), taking a
trap and returning from it (R397 to R407), and issuing an instruction with the checks of R71 and its charge (R335, R493). -/
namespace Sys2Proof.Machine

/-! ### Completion (R69, R238) -/

/-- Results written to lanes that still live; a uniform result once, its flags in every guard-true thread (R113). -/
def deliver (w : Warp) (o : Outst) (m : Mask) : Warp :=
  match o.res.dst with
  | .v r => w.mapLanes m fun i l =>
      if l.active then (l.wrN r.val (nth o.res.vals i 0) o.res.n).orFlags (nth o.res.flags i 0) else l
  | .s r => (w.wrSN r.val (nth o.res.vals 0 0) o.res.n).mapLanes o.act fun _ l => l.orFlags (nth o.res.flags 0 0)
  | _ => w
/-- Slice messages to one home, up to 16 elements each, with the HBM4 fills of their lines (R239, R255, R256). -/
def sliceCharges (s : State) (cl : Nat) (lines : List Nat) : List Chg :=
  ((dedup (lines.map fun l => homeCluster (64 * l))).map fun h =>
    ⟨10, ((lines.filter fun l => homeCluster (64 * l) == h).length + 15) / 16, h⟩) ++
  ((dedup lines).filter fun l => s.llc.all fun e => e.line != l).map fun _ => ⟨11, 1, cl⟩
def sliceAccess (ctx : Option Nat) (cl mark : Nat) (write : Bool) (lines : List Nat) : Action := fun s =>
  acts [charge ctx (sliceCharges s cl lines),
    llcTouches lines mark (if write then some ctx else none)] s
/-- A workgroup loses the status that lets it start again (R415). -/
def noRestart (g : Nat) : Action := modWg g fun g => { g with restart := false }
/-- Lanes of an instruction completed: with the last one it leaves the warp and its home lines are charged (R239). -/
def finishLanes (k id : Nat) (m : Mask) : Action := look fun s =>
  match find s.warps k with
  | none => skip
  | some w => match w.outs.find? fun o => o.id == id with
    | none => skip
    | some o =>
      let left := o.left &&& ~~~m
      let write := match o.kind with | .reply _ => true | _ => false
      let who := if w.fw.isSome then none else some w.ctx
      let chg : Action := match o.ins with
        | .hgath _ _ _ => sliceAccess who (clusterNo w.core) (ctlOf o.ins).hint.toNat false o.lines
        | _ => if write then charge who (o.lines.map (fun l => ⟨9, 1, homeCluster (64 * l)⟩) ++ if o.fills = 0 then [] else [⟨11, o.fills, clusterNo w.core⟩])
          else homeHinted who (clusterNo w.core) (ctlOf o.ins).hint.toNat false o.lines
      if left = 0 then acts [dropOut k id, chg] else modOut k id fun o => { o with left := left }
/-- Results delivered and the lanes completed. -/
def deliverLanes (k id : Nat) (m : Mask) : Action := fun s =>
  acts [modWarp k fun w => match w.outs.find? fun o => o.id == id with
      | some o => deliver w o (m &&& o.left)
      | none => w,
    finishLanes k id m] s

/-! ### Reads of loads (R206, R207, R214, R238, R242) -/

/-- Lanes of an unfinished instruction answered with a value. -/
def answer (wk id : Nat) (m : Mask) (v : BitVec 128) : Action := acts [
  modOut wk id fun o =>
    let vals := match o.res.dst with
      | .s _ => [v]
      | _ => mapI (fun i x => if inMask m i then v else x) o.res.vals
    { o with res := { o.res with vals := vals } },
  deliverLanes wk id m]
/-- The value of loaded bytes (R240). -/
def loadVal (sext : Bool) (bs : List Byte) : BitVec 128 :=
  let n := leNat bs
  let b := 8 * bs.length
  if sext && nbits n (b - 1) 1 == 1 then BitVec.ofNat 128 ((n + 2 ^ 32 - 2 ^ b) % 2 ^ 32) else BitVec.ofNat 128 n
/-- The lanes a reply covers: all of them for a uniform destination. -/
def replyMask (o : Outst) (lane : Nat) : Mask :=
  match o.res.dst with
  | .s _ => o.left
  | _ => o.left &&& BitVec.ofNat 64 (2 ^ lane)
def todoOf (o : Outst) : List LdLane := match o.kind with | .load _ _ _ _ t => t | _ => []
def withoutLane (k : OutKind) (lane : Nat) : OutKind :=
  match k with
  | .load sc b e h t => .load sc b e h (t.filter fun x => x.lane != lane)
  | k => k
/-- The place in po of a lane of an unfinished instruction. -/
def Outst.point (w : Warp) (k : Nat) (o : Outst) (lanes : Mask) : Point := ⟨w.core, w.ctx, k, lanes, o.age⟩
def laneBit (i : Nat) : Mask := BitVec.ofNat 64 (2 ^ i)
/-- The threads that a lane of a load reads for. -/
def readers (o : Outst) (lane : Nat) : Mask := if isUni o.res.dst then o.mask else laneBit lane
/-- A read by a point: the stores of other threads that have entered its L1 are visible to it, and performed before its later releases
complete (R217). -/
def noteRead (p : Point) : Action := fun s =>
  let new (q : PStore) : Bool := q.entered.isSome && q.po.core == p.core && q.po.ctx == p.ctx && !q.po.same p &&
    !q.readers.any fun r => r.wk == p.wk && p.lanes &&& ~~~r.lanes == 0 && decide (r.age ≤ p.age)
  if s.stores.any new then [.stores (s.stores.map fun q => if new q then { q with readers := q.readers ++ [p] } else q)] else []
/-- A line of an L1 holds what the home would answer with now: it is confirmed current (R207). -/
def L1Line.current (s : State) (core : Nat) (l : L1Line) : Bool := l.bytes == overlay s (corePoint core l.ctx) (64 * l.pa) 64
/-- A lane of a load reads: from its core's L1 where its scope or the home allows that, else at the home, where an acquire then discards
(R207, R242). A read at the home leaves no older copy in the lines its context holds of that physical line (R203, R218). -/
def readLane (wk id : Nat) (a : LdLane) : Action := look fun s =>
  match find s.warps wk with
  | none => skip
  | some w => match w.outs.find? fun o => o.id == id with
    | none => skip
    | some o => match o.kind with
      | .load sc bytes sext home _ =>
        let p := o.point w wk (readers o a.lane)
        let hint := (ctlOf o.ins).hint.toNat
        let finish (bs : List Byte) (lines : List Nat) : Action := acts [
          noteRead p,
          modOut wk id fun o => { o with kind := withoutLane o.kind a.lane, lines := if home then o.lines ++ lines else dedup (o.lines ++ lines) },
          if o.acq && !near sc then l1Discard w.core else skip,
          answer wk id (replyMask o a.lane) (loadVal sext bs)]
        let atHome : Action := look fun s => acts [
          if !a.cached then skip
          else if home || hint == 3 then l1Refresh w.core w.ctx a.pa else l1Fill w.core w.ctx a.va a.pa hint,
          finish (overlay s p a.pa bytes) [a.pa / 64]]
        if a.cached && !home && hint != 3 then
          match l1Find (coreOf s w.core) w.ctx a.va with
          | some ln =>
              let hit := finish (layer (s.stores.filter fun q => q.seenBy p) (fun b => nth ln.bytes (b % 64) 0) a.pa bytes) []
              if ln.current s w.core then hit
              else if near sc then withFree fun t => if Config.freeChoice t % 2 = 0 then hit else atHome
              else atHome
          | none => atHome
        else atHome
      | _ => skip
/-- No pending RMW of a point's threads before it is on bytes that it reads. -/
def rmwClear (s : State) (p : Point) (pa n : Nat) : Bool :=
  s.stores.all fun q => q.rmw.isNone || !(q.po.same p && decide (q.po.age < p.age) && q.hits pa n)
/-- No earlier `rget.t` of a point's threads has still to read some bytes. -/
def unitsClear (s : State) (p : Point) (pa n : Nat) : Bool :=
  s.arrivals.all fun a => !a.unread p || (match a.src with | some (b, _) => !meet b 64 pa n | none => true)
/-- No earlier load of a point's threads has still to read some bytes. -/
def loadsClear (s : State) (p : Point) (pa n : Nat) : Bool :=
  (outsAt s p).all fun b => decide (p.age ≤ b.age) || b.mask &&& p.lanes == 0 || (match b.kind with
    | .load _ m _ _ t => t.all fun y => readers b y.lane &&& p.lanes == 0 || !meet y.pa m pa n
    | _ => true)
/-- A point's threads may read some bytes: no older acquire, fence, waiting tile read or overlapping read of theirs is unread, and no
older write of theirs to those bytes is one they cannot see yet (R206, R216, R218). -/
def runReady (s : State) (p : Point) (pa n : Nat) : Bool :=
  reaches s pa && acquiresDone s p && engineReads s p && rmwClear s p pa n && epiClear s p pa n && ownWindowClear s p pa n && unitsClear s p pa n && loadsClear s p pa n
/-- A lane of a load may read. -/
def readReady (s : State) (wk : Nat) (w : Warp) (o : Outst) (a : LdLane) (bytes : Nat) : Bool :=
  runReady s (o.point w wk (readers o a.lane)) a.pa bytes
/-- A load of a set of threads that is older than a pending store of theirs: it reads before the store is seen (R214), so a trap does
not make it read again. -/
def mustRead (s : State) (wk : Nat) (m : Mask) (o : Outst) : Bool :=
  o.mask &&& m != 0 && (s.stores.any fun q => q.po.wk == wk && q.po.lanes &&& m &&& o.mask != 0 && decide (o.age < q.po.age))
/-- Those loads read, oldest first. -/
def settle (wk : Nat) (m : Mask) : Action := look fun s =>
  match find s.warps wk with
  | none => skip
  | some w => forEach w.outs fun o => if mustRead s wk m o then forEach (todoOf o) fun a => readLane wk o.id a else skip

/-! ### Frames (R400, R401) -/

def noFrame : Frame := ⟨0, 0, 0, 0, 0, 0, 0, 0, 0, 0, 0, [], [], [], [], [], 0⟩
def modFrame (g f : Nat) (h : Frame → Frame) : Action :=
  modWg g fun g => { g with frames := mapI (fun j x => if j = f then h x else x) g.frames }
def freeFrame (g : Workgroup) : Option Nat := (List.range g.frames.length).find? fun f => (nth g.frames f noFrame).state == 0
def isCont (f : Frame) : Bool := nbits f.cause.toNat 9 1 == 1
def contCount (g : Workgroup) : Nat := (g.frames.filter fun f => f.state != 0 && isCont f).length
/-- Whether a frame of the image can be written. -/
def frameOk (s : State) (w : Warp) (g : Workgroup) (f : Nat) : Bool :=
  match xlateAll s w.ctx true .write (dw (imgBase s w.ctx + g.area + frameOff f)) 0x9000 with
  | .ok _ => true
  | .error _ => false
def tokenOf (w : Warp) (f gen : Nat) : Word := wd (w.ctx * 2 ^ 22 + w.core * 2 ^ 12 + w.index * 2 ^ 5 + f * 4 + gen)
/-- Causes that are precise (R397). -/
def causePrec (c : Nat) : Bool := c != 14 && c != 15 && c != 30 && c != 31

/-- Epilogues of a workgroup, named by age, that are accepted or never will be: a block whose release waited for them alone becomes
FREE (R177). -/
def endEpis (wg : Nat) (ages : List Nat) : Action := look fun s =>
  match find s.wgs wg with
  | none => skip
  | some g => forEach (g.epis.filter fun e => ages.contains e.id) fun e => acts [
      modWg wg fun g => { g with epis := g.epis.filter fun x => x.id != e.id },
      modAcc g.core (nth g.accs e.blk 0) fun a =>
        let ws := a.waits.filter fun i => i != e.id
        if a.st == .releasing && ws.isEmpty then ⟨.free, [], [], none⟩ else { a with waits := ws }]

/-! ### Ranking (R325, R329) -/

/-- A context is ready. -/
def readyCtx (s : State) (n : Nat) : Bool :=
  (s.wgs.any fun e => e.2.ctx == n && e.2.live) && decide (0 < (reg s .cbal n).toInt) && (ctxOf s n).stop == 0 && !dbit (reg s .ctxs n) 2
/-- U / SHARE of one context is at most that of another, ties by number. -/
def rankLe (s : State) (a b : Nat) : Bool :=
  let x := regN s .cuse a * ctxShare s b
  let y := regN s .cuse b * ctxShare s a
  decide (x < y) || (x == y && decide (a ≤ b))
def resOf (s : State) (p : Nat) : Nat := dbits (reg s .psch p) 16 2 + 1
/-- The ready contexts of a partition in order. -/
def ranking (s : State) (p : Nat) : List Nat :=
  let l := (dedup (s.wgs.map fun e => e.2.ctx)).filter fun n => ctxTenant s n == p && readyCtx s n
  if fallback s (islandOfPart s p) then
    let l := sortBy (fun a b => decide (a ≤ b)) l
    l.rotateLeft ((partOf s p).rot % max 1 l.length)
  else sortBy (rankLe s) l
def modPart (p : Nat) (f : Part → Part) : Action := fun s => [.part p (f (partOf s p))]
/-- A ranking point: the first RES + 1 contexts are to be resident. -/
def rank (p : Nat) : Action := fun s => modPart p (fun r => { r with ranked := s.now, want := (ranking s p).take (resOf s p) }) s
def rankOf (ctx : Nat) : Action := fun s => rank (ctxTenant s ctx) s

/-! ### Stopping a context (R290) -/

/-- A tile or block given back: tag EMPTY, bytes kept until another context takes it (R249); a block FREE. One that an ended workgroup's work
went on with is gone (log 24). -/
def releaseTiles (core ctx : Nat) (l : List Nat) : Action := forEach l fun t =>
  if t < 768 then modTile core t fun x => { x with tag := .empty, filter := none, grant := none, last := some ctx }
  else modCore core fun c => { c with tiles := del c.tiles t }
def releaseAccs (core : Nat) (l : List Nat) : Action := forEach l fun a =>
  if a < 768 then modAcc core a fun _ => ⟨.free, [], [], none⟩ else modCore core fun c => { c with acc := del c.acc a }
/-- A workgroup and its warps removed, its tiles and blocks given back. -/
def dropWg (k : Nat) : Action := look fun s =>
  match find s.wgs k with
  | none => skip
  | some g => acts [forEach g.warps fun (_, wk) => upd (.warp wk none), releaseTiles g.core g.ctx g.tiles,
      releaseAccs g.core g.accs, rcDrop g.core k, upd (.wg k none)]
/-- Work of a context not yet begun is discarded (R290 step 3). A card that has started completes without the arrivals that
its tiles, given back, can no longer accept (log 24). -/
def discardWork (ctx : Nat) : Action := acts [
  fun s => s.clusters.map fun (c, r) => Upd.cluster c { r with
    table := r.table.filter fun e => e.ctx != ctx || e.granted
    cards := (r.cards.filter fun e => e.ctx != ctx || e.running).map fun e => if e.ctx = ctx then { e with arrivals := [] } else e },
  fun s => [.arrivals (s.arrivals.filter fun a => a.ctx != ctx || a.srcPeer.isSome)]]
/-- Every thread of a context ends (R290 step 4). -/
def endThreads (ctx : Nat) : Action := fun s =>
  (s.warps.filter fun e => e.2.ctx == ctx && e.2.fw.isNone).map fun (k, w) =>
    Upd.warp k (some (w.mapLanes w.activeSet fun _ l => { l with st := .exited, wins := [], wait := .none }))
/-- What a context's unfinished instructions have read or performed at homes is charged although they never complete (R336, R493). -/
def chargeStopped (ctx : Nat) : Action := look fun s => forEach (s.warps.filter fun e => e.2.ctx == ctx && e.2.fw.isNone) fun (_, w) =>
  forEach (w.outs.filter fun o => !o.lines.isEmpty) fun o => match o.kind with
    | .reply _ => charge (some ctx) (o.lines.map (fun l => ⟨9, 1, homeCluster (64 * l)⟩) ++ if o.fills = 0 then [] else [⟨11, o.fills, clusterNo w.core⟩])
    | _ => match o.ins with
      | .hgath _ _ _ => sliceAccess (some ctx) (clusterNo w.core) 0 false o.lines
      | _ => homeAccess (some ctx) (clusterNo w.core) false o.lines
/-- The stop of R290: `report` is written before the completion records, whose status is `status`. -/
def stopCtx (ctx status : Nat) (l2 : Bool) (report : List Byte) : Action := fun s => acts [
  chargeStopped ctx, endThreads ctx, if (ctxOf s ctx).resident || (ctxOf s ctx).stopping then imageOut ctx else skip, discardWork ctx, forEach (s.wgs.filter fun e => e.2.ctx == ctx) fun (k, _) => dropWg k,
  evReport (ctxTenant s ctx) report,
  fun s => s.launches.filterMap fun (k, l) =>
    if l.ctx == ctx && l.status.isNone then some (Upd.launch k (some { l with status := some status })) else none,
  modCtx ctx fun c => { c with stop := if s.launches.any (fun e => e.2.ctx == ctx) then 1 else 0, resident := false, stopping := false, energyOut := false },
  setField .ctxs ctx 0 2 (if s.launches.any (fun e => e.2.ctx == ctx) || dbit (reg s .ctxs ctx) 2 then 3 else 0),
  if l2 then setField .ctxs ctx 3 1 1 else skip] s
/-- A stop, and a ranking point if the context was resident (R325). -/
def stopRank (ctx status : Nat) (l2 : Bool) (report : List Byte) : Action := fun s =>
  acts [stopCtx ctx status l2 report, whenA ((ctxOf s ctx).resident || (ctxOf s ctx).stopping) (rankOf ctx)] s
/-- Launch statuses (R314). -/
def stHang : Nat := 7
def stStopped : Nat := 10
/-- The entry of a stop with no further counts (R315), and of a double fault (R404). -/
def stopEntry (s : State) (ctx : Nat) : List Byte := le 4 ctx ++ le 4 2 ++ le 8 s.now ++ zeros 112
def doubleEntry (s : State) (ctx cause frame : Nat) (pc : DWord) : List Byte :=
  le 4 ctx ++ le 4 3 ++ le 8 s.now ++ le 4 cause ++ le 4 frame ++ le 8 pc.toNat ++ zeros 96
/-- Level 2 (R404). -/
def doubleFault (w : Warp) (cause : Nat) (pc : DWord) : Action := look fun s =>
  let fr := match w.frame, wgOf s w with
    | some f, some g => (nth g.frames f noFrame).cause.toNat
    | _, _ => 0
  stopRank w.ctx stStopped true (doubleEntry s w.ctx cause (if w.level = 0 then 0 else fr) pc)

/-! ### Taking a trap (R398, R399) -/

inductive Route where | cont | handler | level2
  deriving DecidableEq, Repr
/-- Routing (R398). -/
def route (s : State) (w : Warp) (g : Workgroup) (cause : Nat) : Route :=
  if w.level != 0 then .level2
  else if (cause == 9 || cause == 10) && w.cpc != 0 && decide (contCount g < 6) && ringRoom s (ctxTenant s w.ctx) then .cont
  else if cause == 31 && w.cpc != 0 && decide (contCount g < 6) && (freeFrame g).isSome then .cont
  else if reg s .hvec w.ctx = 0 then .level2 else .handler

/-- The guard-true threads that a queued part is performed again for: of a load, whose value is discarded (R205), every one that
has not gone past it; of another instruction those it has not completed for. -/
def redo (w : Warp) (m : Mask) (o : Outst) : Mask :=
  match o.kind with
  | .load _ _ _ _ _ => o.act &&& m &&& (o.left ||| w.lanesIn fun l => l.wins.any fun v => v.id == o.id)
  | _ => o.act &&& m &&& o.left
/-- The group's part of an unfinished instruction, and the rest of it. -/
def splitOut (w : Warp) (m : Mask) (o : Outst) : Option Outst × Option Outst :=
  let r := redo w m o
  let mine := { o with mask := o.mask &&& m, left := r }
  let rest := { o with mask := o.mask &&& ~~~m, left := o.left &&& ~~~m, kind := match o.kind with
    | .load sc b e h t => .load sc b e h (t.filter fun a => isUni o.res.dst || !inMask m a.lane)
    | k => k }
  (if o.mask &&& m = 0 then none else some mine, if o.mask &&& ~~~m = 0 then none else some rest)
/-- Whether an instruction has already been performed or sent, so that it completes instead of being queued. -/
def performed : OutKind → Bool
  | .reply todo => todo == 0
  | .remote _ _ => true
  | .tile _ _ done _ => done
  | _ => false
/-- Instructions that have completed (R238) but still hold something back: a fence, a `put.t` between attempts. -/
def finished (o : Outst) : Bool :=
  match o.kind with
  | .fence _ _ => true
  | .put => o.left == 0
  | _ => false
/-- One of them that a queue takes: a fence, and a `put.t.retry` reduced to the units not accepted (R205, R254, R265). -/
def movesBack (o : Outst) : Bool :=
  match o.kind, o.ins with
  | .fence _ _, .fence _ _ _ _ => true
  | .put, .putTRetry _ _ _ => o.left == 0
  | _, _ => false
/-- A queued instruction has performed nothing (R205). An `alu` result is computed again from the captured operands. -/
def queued (o : Outst) : Outst := { o with kind := .held, lines := [], fills := 0, left := if finished o then o.act else o.left }
/-- Consumed tiles become EMPTY (R248). -/
def retireTiles (core : Nat) (tiles : List Nat) : Action :=
  forEach tiles fun t => modTile core t fun x => { x with tag := .empty, filter := none, grant := none }
def isFull (s : State) (core p : Nat) : Bool := (tileOf (coreOf s core) p).tag == .full
/-- Bytes of a core's scratchpad, by physical byte address. -/
def padRead (s : State) (core a n : Nat) : List Byte :=
  (List.range n).map fun i => findD (tileOf (coreOf s core) ((a + i) / 2048)).bytes ((a + i) % 2048) 0
/-- A warp as a group of it stands: one that does not run the handler is at trap level 0 (R395). -/
def asGroup (w : Warp) (m : Mask) : Warp :=
  if w.level != 0 && (lanesOf m).all fun i => (laneOf w i).st != .trapped then { w with level := 0 } else w
/-- The issuer of an unfinished instruction, with the operands it captured. -/
def replayIss (s : State) (k : Nat) (w : Warp) (o : Outst) : Iss :=
  ⟨k, uncapture (asGroup w o.mask) o.ins o.capt, o.ins, o.pc, 5, false, false, o.mask, o.act, konstOf s w, false, some o.age⟩
/-- The operands of an epilogue: block, scale, bias tile, stride. -/
def Iss.epiArgs (x : Iss) (o : Opd) : Nat × Word × Nat × Nat :=
  match o with
  | .s n => ((x.w.rdS n.val).toNat, x.w.rdS (n.val + 1), (x.w.rdS (n.val + 2)).toNat, (x.w.rdS (n.val + 3)).toNat)
  | _ => (0, 0, 0, 0)
/-- The physical bias tile of an epilogue, if it has a bias. -/
def epiBias (s : State) (w : Warp) (o : Outst) : Option Nat :=
  let at' (bias : Bool) (q : Opd) : Option Nat :=
    if bias then (wgOf s w).map fun g => nth g.tiles ((replayIss s 0 w o).epiArgs q).2.2.1 0 else none
  match o.ins with
  | .epiSt _ _ _ bias _ q => at' bias q.data
  | .epiT _ _ _ bias q => at' bias q.data
  | _ => none
/-- A tagged read that may proceed reads its bytes: an acquire point (R220). -/
def readTiles (wk id : Nat) : Action := look fun s =>
  match find s.warps wk with
  | none => skip
  | some w => match w.outs.find? fun o => o.id == id with
    | none => skip
    | some o => match o.kind with
      | .tile ts take false offs =>
        let val (a : Nat) : BitVec 128 := loadVal false (padRead s w.core a o.units.toNat)
        acts [l1Discard w.core,
          modOut wk id fun o => { o with kind := .tile ts take true offs, res := { o.res with vals := offs.map val } }]
      | _ => skip
/-- The physical tiles of a run of a workgroup, as far as they are allotted. -/
def tileRun (g : Workgroup) (t n : Nat) : List Nat := (List.range n).filterMap fun j => g.tiles[t + j]?
def bytesNat (s : State) (core a n : Nat) : Nat := leNat (padRead s core a n)
/-- The terms (k, value) of column n of a B tile (R174, R175). -/
def bColumn (s : State) (core p : Nat) (sparse : Bool) (n : Nat) : List (Nat × Word) :=
  let b := 2048 * p
  if sparse then
    let idx := bytesNat s core (b + 1088 + 4 * n) 4
    (List.range 16).map fun j => (4 * (j / 2) + nbits idx (2 * j) 2, wd (bytesNat s core (b + 64 + 32 * n + 2 * j) 2))
  else (List.range 32).map fun k => (k, wd (bytesNat s core (b + 64 * n + 2 * k) 2))
def bLive (s : State) (core p : Nat) (sparse : Bool) : Word := if sparse then wd (bytesNat s core (2048 * p) 4) else 0xFFFFFFFF
/-- A table entry reads its B tiles. -/
def ResEntry.readB (s : State) (g : Workgroup) (e : ResEntry) : ResEntry :=
  let ps := tileRun g e.tile e.n
  { e with b := ps.flatMap fun p => (List.range 32).map (bColumn s e.core p e.sparse), live := ps.map fun p => bLive s e.core p e.sparse }
/-- The tiles of a STORE card of the engine, and whether it consumes them (R258). -/
def Card.inTiles (g : Workgroup) (c : Card) : List Nat :=
  let tgt := leNat ((c.desc.drop 0x10).take 4)
  if leNat (c.desc.take 4) % 16 = 3 then tileRun g (tgt % 1024) (nbits tgt 10 6) else []
def Card.takes (c : Card) : Bool := nbits (leNat (c.desc.take 4)) 19 1 == 1
/-- Engine operations of a core that read tiles without consuming them, and wait: those whose tiles are all FULL read them (R248). -/
def serveEngines (core : Nat) (tiles : List Nat) : Action := look fun s =>
  let due (wg : Nat) (ps : Workgroup → List Nat) : Option Workgroup := (find s.wgs wg).bind fun g =>
    if g.core == core && (ps g).any tiles.contains && (ps g).all (isFull s core) then some g else none
  acts [if (clusterOf s (clusterNo core)).table.any fun e => e.core == core && !e.granted && !e.take then l1Discard core else skip,
   modCluster (clusterNo core) fun c => { c with
    table := c.table.map fun e => if e.granted || e.take || !e.b.isEmpty then e else match due e.wg fun g => tileRun g e.tile e.n with
      | some g => e.readB s g
      | none => e
    cards := c.cards.map fun k => if k.running || k.takes || !k.data.isEmpty then k else match due k.wg k.inTiles with
      | some g => { k with data := (k.inTiles g).flatMap fun p => padRead s core (2048 * p) 2048 }
      | none => k }]
/-- Non-consuming reads of a workgroup that wait for tiles about to become EMPTY, and whose tiles are all FULL, read them first (R248); an
epilogue reads its bias. -/
def serveReads (core : Nat) (tiles : List Nat) : Action := look fun s =>
  forEach (s.warps.filter fun e => e.2.core == core && e.2.fw.isNone) fun (k, w) => forEach w.outs fun o => match o.kind with
    | .tile ts false false _ => if ts.any tiles.contains && ts.all (isFull s core) then readTiles k o.id else skip
    | .epi false => match epiBias s w o with
      | some p => if tiles.contains p && isFull s core p && o.res.vals.isEmpty then acts [l1Discard core, modOut k o.id fun o =>
          { o with res := { o.res with vals := (List.range 32).map fun n => loadVal false (padRead s core (2048 * p + 4 * n) 4) } }] else skip
      | none => skip
    | _ => skip
/-- Consumed tiles become EMPTY once every waiting read has read them. -/
def emptyTiles (core : Nat) (tiles : List Nat) : Action := acts [serveReads core tiles, serveEngines core tiles, retireTiles core tiles]
/-- The part of performed instructions in a group completes, granted consuming reads retiring their tiles (R265). -/
def completeDone (k : Nat) (m : Mask) : Action := look fun s =>
  match find s.warps k with
  | none => skip
  | some w => forEach (w.outs.filter fun o => performed o.kind && o.mask &&& m != 0) fun o =>
      acts [match o.kind with
        | .tile tiles true _ _ => emptyTiles w.core tiles
        | _ => skip, deliverLanes k o.id (o.left &&& m)]
/-- The unfinished instructions of a group, none of them performed: queue entries in po order, and the warp with those that
stay, among them a fence or `put.t.retry` that a larger group has issued (log 22), or any with `keep` (R408). -/
def takeOuts (w : Warp) (m : Mask) (extra : Option Outst) (keep : Bool) : List Outst × Warp :=
  let stays (o : Outst) : Bool := (finished o && (keep || !(movesBack o && o.mask &&& ~~~m == 0))) || performed o.kind || o.kind == .epi true
  let live := w.outs.filter fun o => !stays o
  let q := live.filterMap fun o => (splitOut w m o).1.map fun p => queued { o with mask := p.mask, left := p.left }
  let q := match extra with
    | some o => insertBy (fun a b => decide (a.age ≤ b.age)) (queued o) q
    | none => q
  (q, { w with outs := (live.filterMap fun o => (splitOut w m o).2) ++ w.outs.filter stays })
/-- Home lines that the loads it takes have already read (R239, R493). -/
def takenLines (w : Warp) (m : Mask) : List (Instr × List Nat) :=
  (w.outs.filter fun o => !(todoOf o).isEmpty && o.mask &&& m != 0 && o.mask &&& ~~~m == 0 && !o.lines.isEmpty).map fun o => (o.ins, o.lines)
/-- They are charged although the loads are to be performed again. -/
def chargeTaken (w : Warp) (m : Mask) : Action :=
  let who := if w.fw.isSome then none else some w.ctx
  forEach (takenLines w m) fun (i, l) => match i with
    | .hgath _ _ _ => sliceAccess who (clusterNo w.core) 0 false l
    | _ => homeAccess who (clusterNo w.core) false l
/-- An unread consuming read that is taken holds no tile any more: the tile goes to the oldest that waits (R248). -/
def dropGrants (core : Nat) (ids : List Nat) : Action := fun s =>
  let c := coreOf s core
  if c.tiles.any fun e => match e.2.grant with | some i => ids.contains i | none => false then
    [.core core { c with tiles := c.tiles.map fun e => match e.2.grant with
      | some i => if ids.contains i then (e.1, { e.2 with grant := none }) else e
      | none => e }]
  else []

/-- The frame that a trap fills (R401). -/
def fillFrame (w : Warp) (k : Nat) (t : Trap) (cont : Bool) (old : Frame) (f : Nat) (q : List Outst) : Frame :=
  let gen := (old.gen + 1) % 4
  { cause := wd (t.cause + (if causePrec t.cause then 256 else 0) + (if cont then 512 else 0))
    state := if cont then (if t.cause = 31 then 3 else 2) else 1
    fpc := if t.cause = 30 then t.rpc else t.fpc
    rpc := t.rpc, fva := t.fva, synd := t.synd, token := tokenOf w f gen, gmask := t.mask, gen := gen
    rcnt := if t.cause = 31 then w.rem.count else 0
    rifa := if t.cause = 31 then w.rem.ifa else 0
    pred := w.lanes.map (·.p), flg := w.lanes.map (·.flg)
    ss := if cont then [] else (List.range 8).map w.rdS
    sv := w.lanes.map fun l => (List.range 8).map l.rd
    rep := q.map fun o => ⟨o, true, false⟩
    warp := k }
/-- The fault record of R406. -/
def faultRecord (s : State) (w : Warp) (t : Trap) (token : Word) : List Byte :=
  le 4 w.ctx ++ le 4 4 ++ le 8 s.now ++ le 8 t.fva.toNat ++ le 4 t.synd.toNat ++ le 4 token.toNat ++ le 8 t.fpc.toNat ++ zeros 88
/-- The lanes of G at the handler, and the ejected threads back in their warp (R399, R277). -/
def toHandler (w : Warp) (m : Mask) (hvec : DWord) (f : Nat) : Warp :=
  { w with
    level := 1, frame := some f
    lanes := mapI (fun i l =>
      if inMask m i then { l with pc := hvec + 4, st := .trapped, wait := .none, wins := [], join := none, skip := 0 }
      else if l.st == .ejected then { l with st := .grouped } else l) w.lanes }
def toCont (w : Warp) (m : Mask) (token : Word) : Warp :=
  w.mapLanes m fun _ l => { (l.wr 0 token) with
    pc := w.cpc + 4, st := .grouped, wait := .none, wins := [], join := none, skip := 0 }
def clearRem (w : Warp) (cause : Nat) : Warp := if cause = 31 then { w with rem := ⟨0, 0, 0, 0⟩ } else w
/-- TakeTrap with its frame chosen (R399). -/
def enterTrap (k : Nat) (w : Warp) (g : Workgroup) (t : Trap) (cont : Bool) (f : Nat) : Action := look fun s =>
  let (q, w') := takeOuts w t.mask t.queue (t.cause == 31)
  let fr := fillFrame w' k t cont (nth g.frames f noFrame) f q
  let w' := clearRem w' t.cause
  let w2 := (if cont then toCont w' t.mask fr.token else toHandler w' t.mask (reg s .hvec w.ctx) f).mapLanes t.mask fun _ l => { l with since := s.now }
  acts [charge (some w.ctx) [⟨2, 1, clusterNo w.core⟩],
    chargeTaken w t.mask,
    dropGrants w.core (q.map (·.id)),
    fun s => [.arrivals (s.arrivals.filter fun a => !(a.wk == some k && q.any fun o => o.id == a.out))],
    upd (.warp k (some w2)), modFrame w.wg f fun _ => fr, modWg w.wg fun g => { g with restart := false },
    if cont && t.cause != 31 then evWrite (ctxTenant s w.ctx) (some w.ctx) (faultRecord s w t fr.token) else skip]
/-- The group waits at its boundary for a frame, or for an RMW already sent to a peer (R400). -/
def holdTrap (k : Nat) (t : Trap) : Action := modWarp k fun w =>
  { w.mapLanes t.mask (fun _ l => { l with pc := t.rpc, wait := .frame, wins := [], st := if l.st == .ejected then .grouped else l.st }) with pend := w.pend ++ [t] }
/-- An instruction of the group that has been sent in part, whose reply or report is still to come, or a load that has to read before a
store of the group is seen and cannot yet. -/
def sentBusy (s : State) (k : Nat) (w : Warp) (m : Mask) : Bool :=
  w.outs.any fun o => o.mask &&& m != 0 && (match o.kind with
    | .remote _ _ => true
    | .reply todo => todo != 0
    | .put => o.left != 0 || s.fabric.remotes.any fun r => r.kind == 4 && s.arrivals.any fun a => a.id == r.out && a.wk == some k && a.out == o.id
    | .load _ n _ _ t => mustRead s k m o && t.any fun a => !readReady s k w o a n
    | _ => false)
/-- A trap at completion of a group that does not run the warp's handler waits for its return (R403; log 21). -/
def behindHandler (w : Warp) (m : Mask) : Bool := w.level != 0 && (lanesOf m).all fun i => (laneOf w i).st != .trapped
/-- A trap of a group, routed and entered (R398 to R400, R404); on a firmware core it is a crash (R440). -/
def raise (k : Nat) (t : Trap) : Action := look fun s =>
  match find s.warps k with
  | none => skip
  | some w => match w.fw with
    | some c => fun s => [.fw c { fwOf s c with crash := true },
        .warp k (some (w.mapLanes w.activeSet fun _ l => { l with wait := .frame }))]
    | none => match wgOf s w with
      | none => skip
      | some g => if behindHandler w t.mask then holdTrap k t else match route s w g t.cause with
        | .level2 => doubleFault w t.cause t.fpc
        | r => if sentBusy s k w t.mask then holdTrap k t else match freeFrame g with
          | none => holdTrap k t
          | some f => if frameOk s w g f then acts [
              if imgSize s w.ctx = 0 then skip else vaWalks w.ctx (clusterNo w.core) .write (pagesOf (imgBase s w.ctx + g.area + frameOff f) 0x9000),
              settle k t.mask, completeDone k t.mask, look fun s => match find s.warps k with
              | some w => enterTrap k w g t (r == .cont) f
              | none => skip] else doubleFault w t.cause t.fpc
/-- A precise trap of an issued instruction with nothing queued: the group stays at the instruction. -/
def Iss.trap (x : Iss) (cause : Nat) (fva : DWord) (synd : Word) : Action :=
  raise x.k ⟨x.mask, cause, x.pc, x.pc, fva, synd, none⟩

/-! ### Returning (R407) -/

/-- Lanes of a frame that have not exited. -/
def liveLanes (w : Warp) (m : Mask) : Mask := m &&& w.activeSet
/-- Registers restored from a frame, PCs at RPC, the frame freed, and the queue re-injected as held instructions behind
which the lanes wait. -/
def leaveFrame (k : Nat) (w : Warp) (g : Workgroup) (f : Nat) : Action := look fun s =>
  let fr := nth g.frames f noFrame
  let m := liveLanes w fr.gmask
  let es := fr.rep.filterMap fun r =>
    if r.valid && !r.drop && (r.o.act &&& r.o.left &&& m) != 0 then
      some { r.o with mask := r.o.mask &&& m, act := r.o.act &&& r.o.left &&& m, left := r.o.act &&& r.o.left &&& m, kind := OutKind.held } else none
  let dead := (fr.rep.filter fun r => !(r.valid && !r.drop && (r.o.act &&& r.o.left &&& m) != 0)).map (·.o.age)
  let es := mapI (fun i o => { o with id := s.nextId + i }) es
  let w1 := w.mapLanes m fun i l =>
    { (List.range 8).foldl (fun l j => l.wr j (nth (nth fr.sv i []) j 0)) l with
      p := nth fr.pred i 0, flg := nth fr.flg i 0 &&& 0x1FF, pc := fr.rpc, wait := .none, join := none, skip := 0, since := s.now
      st := .grouped, wins := es.filterMap fun o => if inMask o.mask i then some ⟨o.id, 0, []⟩ else none }
  let w2 := if isCont fr then w1 else
    { (List.range 8).foldl (fun w j => w.wrS j (nth fr.ss j 0)) w1 with level := 0, frame := none }
  acts [upd (.nextId (s.nextId + es.length)), upd (.warp k (some { w2 with outs := w2.outs ++ es })),
    modFrame w.wg f fun x => { x with state := 0, rep := [] },
    endEpis w.wg dead]

/-! ### Privilege -/

/-- The privilege of the code a warp is running (R395). -/
def privNow (s : State) (w : Warp) : Nat := if w.fw.isSome then 2 else if w.level = 1 || ctxSup s w.ctx then 1 else 0
/-- Supervisor translation applies (R372). -/
def supNow (s : State) (w : Warp) : Bool := decide (1 ≤ privNow s w)
/-- A charge of the issuing context; firmware cores are not charged (R333). -/
def chargeW (w : Warp) (cs : List Chg) : Action := if w.fw.isSome then skip else charge (some w.ctx) cs

/-! ### Issue -/

/-- The issuer of a step and the instruction it executes. -/
def issOf (s : State) (i : Instr) : Option Iss :=
  match s.cur with
  | none => none
  | some c => match find s.warps c.wk with
    | none => none
    | some w => some ⟨c.wk, w, i, c.pc, c.slots, c.join, c.ejected, c.mask, guardMask w (ctlOf i) c.mask, konstOf s w, c.co, none⟩

/-- The windows of a lane close at a control instruction whose guard is true, and at slot 0 of a JOIN block (R69). -/
def Iss.closes (x : Iss) (i : Nat) : Bool := (isControl x.i && inMask x.g i) || (x.join && slotOf x.pc == 0)
/-- Windows as the instruction finds them. -/
def Iss.wins (x : Iss) (i : Nat) : List Win :=
  let l := laneOf x.w i
  if x.closes i then l.wins.map fun v => { v with left := 0 } else l.wins
/-- An instruction whose replies arrive lane by lane and that writes a register the issuer reads. -/
def Iss.byLane (x : Iss) (o : Outst) : Bool := perLane o.ins && (readKeys x.i).any fun r => (writeKeys o.ins).contains r
/-- SPLIT is in effect (R272): outside every open window, a register read is still to come from an instruction with per-lane replies, and some
lane of the group waits for no instruction without them. -/
def Iss.splits (x : Iss) : Bool :=
  (ctlOf x.i).split && !x.ejected &&
  (let group := x.w.lanesIn fun l => l.pc == x.pc && l.wait == .none && l.st == (laneOf x.w (lowest x.mask)).st
   (lanesOf group).all (fun i => (x.wins i).all fun v => v.left == 0) &&
   ((lanesOf group).any fun i => (x.wins i).any fun v => x.w.outs.any fun o => o.id == v.id && x.byLane o) &&
   (lanesOf group).any fun i => (x.wins i).all fun v => x.w.outs.all fun o => o.id != v.id || x.byLane o)
/-- A lane waits for an instruction whose window has ended: under SPLIT for its own replies, and not if its guard is false (R272). -/
def splitWait (x : Iss) (o : Outst) (i : Nat) : Bool :=
  if x.splits then inMask x.g i && (!x.byLane o || inMask o.left i) else true
/-- Some lane waits for an instruction whose window has ended (R69). -/
def Iss.blocked (x : Iss) : Bool :=
  (lanesOf x.mask).any fun i => (x.wins i).any fun v => v.left == 0 &&
    x.w.outs.any fun o => o.id == v.id && splitWait x o i
/-- Check 10: a register conflict with an open window (R70). -/
def Iss.conflict (x : Iss) : Bool :=
  let regs := readKeys x.i ++ writeKeys x.i
  (lanesOf x.mask).any fun i => (x.wins i).any fun v => v.left != 0 && regs.any v.regs.contains
/-- Check 9: every register and barrier named is allotted (R36, R61). -/
def Iss.allotted (s : State) (x : Iss) : Bool :=
  ((readKeys x.i ++ writeKeys x.i ++ namedKeys x.w.width x.i).all fun r =>
    decide (r < x.w.nv) || (decide (1024 ≤ r) && decide (r < 1024 + x.w.na)) ||
    (decide (2048 ≤ r) && decide (r < 2048 + x.w.ns)) || decide (3072 ≤ r)) &&
  (match barrierOf x.i with
   | some b => match launchOf s x.w with
     | some l => decide (b < l.lr.nb)
     | none => false
   | none => true)
/-- The group is the whole active set with every guard true (R35). -/
def Iss.whole (x : Iss) : Bool := x.mask == x.w.activeSet && x.g == x.mask
/-- A write to a register that a signature has locked (R180). -/
def Iss.locked (s : State) (x : Iss) : Bool :=
  match wgOf s x.w with
  | none => false
  | some g => (writeKeys x.i).any fun r => g.cvs.any fun c => c.declared && c.wk == x.k &&
      decide (c.vb ≤ r) && decide (r < c.vb + aRegs x.w.width) && (c.sigs &&& c.m &&& x.g) != 0
/-- Held back: an access by a fence, by a tagged read of the thread still waiting (R217, R220, R247) or by a fault still to be taken, and every instruction by one
of its threads that is still to be re-injected (R410). -/
def Iss.fenced (x : Iss) : Bool :=
  x.w.outs.any fun o => o.mask &&& x.mask != 0 &&
    (match o.kind with
      | .held => true
      | .fence _ _ | .faulty _ _ _ => isAccess x.i
      | .tile _ _ done _ => isAccess x.i && !done
      | _ => false)
/-- The place in po of the instruction: its own again when it is re-injected (R204, R205). -/
def Iss.point (x : Iss) (id : Nat) : Point := ⟨x.w.core, x.w.ctx, x.k, x.g, x.po.getD id⟩
/-- A write that other agents see at once waits for every earlier read of its threads (R214), a read made at once for every earlier
acquire of theirs (R216). -/
def writeBusy (x : Iss) (s : State) : Bool := !readsDone s (x.point s.nextId)
def readBusy (x : Iss) (s : State) : Bool := !acquiresDone s (x.point s.nextId)
/-- Whether the instruction would fail a check of 8 to 10 in R71, or is outside a firmware core's subset (R481); the cause. -/
def Iss.fails (s : State) (x : Iss) : Option Nat :=
  if x.w.fw.isSome && !fwSubset x.i then some 1
  else if privNow s x.w < privNum (privOf x.i) then some 5
  else if !x.allotted s then some 6
  else if x.conflict then some 7 else none

/-- What becomes of a group or thread selected at an instruction. -/
inductive Gate where
  /-- It does not issue yet (R269). -/
  | wait
  /-- An ejected thread returns to its warp before it (R276). -/
  | bounce
  /-- The balance is not above zero (R337). -/
  | energy
  /-- A check of R71 fails. -/
  | trap (cause : Nat)
  | go
  deriving DecidableEq, Repr
/-- Every live lane of a frame of a warp has reached its return (R407). -/
def allReturned (w : Warp) (f : Nat) (fr : Frame) : Bool :=
  fr.state != 0 && w.activeSet &&& fr.gmask != 0 && (!isCont fr || fr.state == 3) &&
  (lanesOf (w.activeSet &&& fr.gmask)).all fun i => (laneOf w i).wait == .retr f
/-- Instructions that a warp holds, with those that its returns are about to re-inject (R411). -/
def Warp.held (w : Warp) : Nat := (dedup (w.outs.map (·.age))).length
def Frame.live (f : Frame) : Nat := (f.rep.filter fun r => r.valid && !r.drop).length
def entries (s : State) (k : Nat) (w : Warp) : Nat := w.held + (match wgOf s w with
  | some g => ((List.range g.frames.length).map fun f =>
      let fr := nth g.frames f noFrame
      if fr.warp == k && allReturned w f fr then fr.live else 0).foldl (· + ·) 0
  | none => 0)
/-- The checks of R71 from check 8 on, and the waits of R269. `busy` is the wait of the instruction's own entry. -/
def gate (s : State) (x : Iss) (busy : Bool) : Gate :=
  if x.blocked then .wait
  else if x.ejected && (bounces x.i || (x.fails s).isSome || x.locked s) then .bounce
  else match x.fails s with
    | some c => .trap c
    | none =>
      if x.w.fw.isNone && decide ((reg s .cbal x.w.ctx).toInt ≤ 0) then .energy
      else if needsWhole x.i && !x.whole then
        if x.w.lanes.any fun l => l.st == .ejected then .wait else .trap 8
      else if x.locked s || x.fenced || (takesEntry x.i && decide (16 ≤ entries s x.k x.w)) || busy then .wait else .go

/-- A lane still waits for an instruction whose window has ended: a guard-false lane of a SPLIT instruction (R272). -/
def Iss.owed (x : Iss) (v : Win) (i : Nat) : Bool := x.w.outs.any fun o => o.id == v.id && inMask o.left i
/-- The lookahead windows after the instruction (R69): those that end, the one it opens. -/
def Iss.winsAfter (x : Iss) (id now : Nat) (w : Warp) : Warp :=
  w.mapLanes x.mask fun i l => { l with
    wins := ((x.wins i).filterMap fun v =>
        if v.left = 0 then (if x.owed v i then some v else none) else some { v with left := v.left - 1 }) ++
      (if isLong x.i then [⟨id, (ctlOf x.i).look.toNat, writeKeys x.i⟩] else [])
    join := none, skip := 0, since := now }
/-- The issue slot is recorded for the HEAVY rule (R346). -/
def noteSlot (core : Nat) (mma : Bool) : Action :=
  modCluster (clusterNo core) fun c => { c with hist := (c.hist <<< 1) ||| BitVec.ofNat 4096 (b2n mma) }
def isMma : Instr → Bool
  | .mmaBf16 _ _ _ _ _ | .mmaSpBf16 _ _ _ _ _ => true
  | _ => false
/-- An instruction that has passed every check: charged, its windows updated, its group advanced, its body performed if
any guard is true. -/
def Iss.go (x : Iss) (price : List Chg) (body : Nat → Action) : Action := fun s => acts [
  upd (.nextId (s.nextId + 1)),
  if x.ejected || x.w.fw.isSome || x.co then skip else noteSlot x.w.core (isMma x.i),
  chargeW x.w price,
  match x.w.fw with
    | some c => fun s => [.fw c { fwOf s c with last := s.now }]
    | none => skip,
  modWarp x.k fun w => (x.winsAfter s.nextId s.now w).advance x.mask x.next,
  whenA (x.g != 0) (body s.nextId)] s
/-- An instruction issued: the outcome of the gate. -/
def issueAct (x : Iss) (price : List Chg) (busy : State → Bool) (body : Nat → Action) : Action := look fun s =>
  match gate s x (x.g != 0 && busy s) with
  | .wait => skip
  | .bounce => modWarp x.k fun w => w.mapLanes x.mask fun _ l => { l with st := .grouped }
  | .energy => modCtx x.w.ctx fun c => { c with energyOut := true }
  | .trap c => acts [chargeW x.w [⟨2, 1, clusterNo x.w.core⟩], x.trap c 0 0]
  | .go => x.go price body
/-- The meaning of an instruction over its price, its own wait and its body. -/
def issue (i : Instr) (price : Iss → List Chg) (busy : Iss → State → Bool) (body : Iss → Nat → Action) (s : State) :
    Host.Outcome State Fault Refusal :=
  match issOf s i with
  | none => .fault .noIssuer
  | some x => .next (run (issueAct x (price x) (busy x) (body x)) s)
/-- An instruction that never waits on its own account. -/
def never : Iss → State → Bool := fun _ _ => false
/-- The meaning of a register instruction: the warp it leaves. -/
def issueReg (i : Instr) (p : Price) (f : Iss → Warp → Warp) (s : State) : Host.Outcome State Fault Refusal :=
  issue i (fun x => x.price p) never (fun x _ => modWarp x.k (f x)) s
/-- The results of an instruction as data: a value per lane, or one for a uniform destination. -/
def Iss.res (x : Iss) (d : Opd) (n : Nat) (f : Nat → BitVec 128 × Nat) : Res :=
  match d with
  | .s _ => let r := f (lowest x.g); ⟨d, n, [r.1], [r.2], r.2 / iDZ % 2 == 1⟩
  | _ =>
    let l := (List.range x.w.width).map fun i => if inMask x.g i then f i else (0, 0)
    ⟨d, n, l.map (·.1), l.map (·.2), l.any fun r => r.2 / iDZ % 2 == 1⟩
def noRes : Res := ⟨.none, 0, [], [], false⟩
/-- The record of an issued-but-unfinished instruction with its captured operands. -/
def Iss.out (x : Iss) (id : Nat) (kind : OutKind) (res : Res) : Outst :=
  ⟨id, x.pc, x.i, x.mask, x.g, capture x.w x.i, kind, res, x.g, false, x.po.getD id, 0, [], 0⟩
def addOut (k : Nat) (o : Outst) : Action := modWarp k fun w => { w with outs := w.outs ++ [o] }
/-- A long-latency register instruction: its results wait for LONG_LATENCY_COMPLETE (R69). -/
def performAlu (d : Opd) (n : Nat) (f : Iss → Nat → BitVec 128 × Nat) (x : Iss) (id : Nat) : Action :=
  addOut x.k (x.out id .alu (x.res d n (f x)))
/-- The meaning of a long-latency instruction whose body can be performed again from captured operands (R205). -/
def issueLong (i : Instr) (p : Price) (busy : Iss → State → Bool) (perform : Iss → Nat → Action) (s : State) :
    Host.Outcome State Fault Refusal :=
  issue i (fun x => x.price p) busy perform s
/-- The meaning of a device event: its changes. -/
def event (a : Action) (s : State) : Host.Outcome State Fault Refusal := .next (run a s)

end Sys2Proof.Machine
end

