-- ==== Sys2Proof/Machine/Writes.lean ====
section
/-! DEFINITION. Writes of the named hardware registers with their access codes, discards and side effects (R4, R24, R316,
R317, R321, R324, R339, R344, R345, R351, R353, R365, R368, R378, R381, R391 to R393, R412, R425), and the register-write events. -/
namespace Sys2Proof.Machine

/-! ### Access codes (R4) -/

/-- The bits a supervisor write sets (access RW). -/
def rwMask : RegKind → DWord
  | .opmb => 0xF
  | .ctxt => 0x800000FFFFFF0000
  | .cwin => 0x000000FFFFFFFFDF
  | .hvec => 0x000FFFFFFFFFFFC0
  | .cimg => 0xFFFFFFFFFFFF0000
  | .evrb => 0x800FFFFFFFFFFFC0
  | .qmap => 0xFFFFFFFFFFFFFFC0
  | _ => 0
/-- The bits only a firmware write sets (access RW-F). Words 5 to 7 of a segment descriptor are reserved. -/
def fwMask (k : RegKind) (n : Nat) : DWord :=
  match k with
  | .cbal => 0xFFFFFFFFFFFFFFFF
  | .cinf => 0x00007FFFFFFFFFFF
  | .tbud => 0x80007FFFFFFFFFFF
  | .pcfg => 0x03FF00FF
  | .ilim => 0x7FF
  | .rcfg | .rack => 0xFFFFFFFF
  | .pdem => 0xFFFF
  | .ctxd => 0x83FFFF02
  | .psch => 0x3FFFF
  | .part => 0x871F071F
  | .s2r => 0x800000FFFFFFE000
  | .tpeer => 0x0FFF0FFF
  | .peere => 0xFFFFFFFF
  | .fseg => if n % 8 = 0 then 0xBCFFF0FF else regMask .fseg n
  | .ohtr => 0xFFF
  | .otxm | .orxm => 0xFFFFFF
  | .ostr => 0x3
  | _ => 0
/-- The bits a written 1 clears (access W1C). -/
def w1cMask (k : RegKind) (n : Nat) : DWord :=
  match k with
  | .pcfg | .opmb | .ilim | .ctxs | .otxm | .orxm | .ostr => 0x80000000
  | .clst => 0x200000
  | .ctxd => 1
  | .part => 0x40000000
  | .fseg => if n % 8 = 0 then 0x40000000 else 0
  | _ => 0
/-- The value a write leaves in its fields. -/
def written (s : State) (k : RegKind) (n : Nat) (v : DWord) : DWord :=
  let old := reg s k n
  let w := rwMask k ||| fwMask k n
  (old &&& ~~~w &&& ~~~(w1cMask k n &&& v)) ||| (v &&& w)
/-- A plain write. -/
def plain (k : RegKind) (n : Nat) (v : DWord) : Action := fun s => [.reg k n (written s k n v)]
/-- A write discarded as a whole, with a bit of its register set. -/
def discardErr (k : RegKind) (n bit : Nat) : Action := setField k n bit 1 1

/-! ### Side effects -/

/-- Cached translations dropped (R374). -/
def dropTlb (p : Tlb → Bool) : Action := fun s => [.tlb (s.tlb.filter fun t => !p t)]
/-- Output voltage in mV (R343). -/
def opMilliVolt (op : Nat) : Nat :=
  nth [550, 580, 610, 635, 660, 690, 720, 745, 770, 795, 820, 845, 870, 885, 900, 920] op 920
def clustersOfIsland (n : Nat) : List Nat := (List.range 192).filter fun c => islandOfCluster c == n
/-- The highest OPNOW of an island. -/
def topOp (s : State) (n : Nat) : Nat := ((clustersOfIsland n).map (opNow s)).foldl max 0
/-- CAP_n of R353; P_other is the measurement of the round before the one in progress. -/
def capOf (s : State) (n : Nat) : Nat :=
  let cap := dbits (reg s .pcap 0) 0 16
  let other := Config.freeOther (s.now / 1000000)
  max 1 (min (dbits (reg s .ilim n) 0 11) ((cap - other) * 1000 / (6 * opMilliVolt (topOp s n))))
def updateCap (n : Nat) : Action := fun s => setField .ilim n 16 11 (capOf s n) s
/-- Queues of a context leave their tables (R316). -/
def unmapQueues (ctx : Nat) : Action := fun s =>
  (s.queues.filter fun e => e.2.ctx == ctx).map fun e => Upd.queue e.1 none
/-- A queue leaves its slot: its launches with no workgroup released are abandoned, and no launch belongs to the slot any more (R316). -/
def abandonOf (slot : Nat) : Action := fun s =>
  (s.launches.filter fun e => e.2.slot == slot).map fun e =>
    Upd.launch e.1 (some (if e.2.released.isEmpty && e.2.status.isNone then { e.2 with slot := 384, status := some 11 }
      else { e.2 with slot := 384 }))
def unmapAll (ctx : Nat) : Action := acts [
  look fun s => forEach (s.queues.filter fun e => e.2.ctx == ctx) fun e => abandonOf e.1,
  unmapQueues ctx]
/-- Number of wavelengths of a width code (R393). -/
def stripeOf (code : Nat) : Nat := if code = 0 then 8 else if code = 1 then 4 else 2
/-- ON and LOCK follow REQ and CUR; a channel newly on starts to lock (R393). -/
def lasers (k : Nat) : Action := fun s =>
  let r := reg s .ostr k
  let w := max (stripeOf (dbits r 0 2)) (stripeOf (dbits r 2 2))
  let on := 2 ^ w - 1
  let woken := (List.range 8).filter fun j => decide (j < w) && !dbit r (8 + j)
  let keep := s.fabric.waking.filter fun e => e.1 / 8 != k || decide (e.1 % 8 < w)
  [.reg .ostr k (dset (dset r 8 8 on) 16 8 (dbits r 16 8 &&& on)),
   .fabric { s.fabric with waking := woken.foldl (fun m j => put m (8 * k + j) (s.now + 1500)) keep }]
/-- The eight fields of a ring map are a permutation of 0 .. 7 (R392). -/
def isPerm (v : DWord) : Bool := (List.range 8).all fun c => (List.range 8).any fun i => dbits v (3 * i) 3 == c

/-! ### Writes register by register -/

/-- What the device keeps by context number and the context leaves behind: the bytes of its tiles, its lines in L1 and register caches,
and its walks under way (R249, R363, R374). -/
def forgetCtx (n : Nat) : Action := acts [
  fun s => (s.cores.filter fun e => (e.2.l1.any fun l => l.ctx == n) || (e.2.rc.any fun l => l.ctx == n) || e.2.tiles.any fun t => t.2.last == some n).map
    fun (c, r) => Upd.core c { r with
      l1 := r.l1.filter fun l => l.ctx != n, rc := r.rc.filter fun l => l.ctx != n
      tiles := r.tiles.map fun t => if t.2.last = some n then (t.1, { t.2 with last := none }) else t },
  fun s => [.walks (s.walks.filter fun w => w.ctx != n)]]
/-- R324, R361; SHARE and CLASS of a valid context keep their values while the fallback scheduler serves its island (R329). -/
def writeCtxd (n : Nat) (v : DWord) : Action := fun s =>
  let v := if ctxValid s n && fallback s (islandOfPart s (ctxTenant s n)) then dset (dset v 16 8 (ctxShare s n)) 24 2 (ctxClass s n) else v
  if dbits v 16 8 = 0 || 191 < dbits v 8 8 then discardErr .ctxd n 0 s
  else acts [plain .ctxd n v,
    if dbit v 31 && !ctxValid s n then modCtx n fun c => { c with time := 0 } else skip,
    if dbit v 31 then skip else acts [unmapAll n, dropTlb fun t => t.ctx == n],
    if dbit v 31 && dbits v 8 8 == ctxTenant s n then skip else forgetCtx n] s
/-- Time a cluster has spent at an operating point since its count began. -/
def residency (s : State) (cl op : Nat) : Nat :=
  let r := clusterOf s cl
  findD r.res op 0 + (if opNow s cl = op then s.now - r.since else 0)
def restartResidency (cl : Nat) : Action := fun s => modCluster cl (fun r => { r with res := [], since := s.now }) s
/-- The time that a partition's clusters have spent at each operating point is kept, and counted anew (R355, R365). -/
def bankResidency (n : Nat) : Action := look fun s => acts [
  modTenant n fun t => { t with res := (List.range 16).foldl (fun m op =>
    putD m op (findD m op 0 + ((clustersOfPart s n).map fun c => residency s c op).foldl (· + ·) 0) 0) t.res },
  forEach (clustersOfPart s n) restartResidency]
/-- R321, R354: the first reading after EN rises starts there. -/
def writeTbud (n : Nat) (v : DWord) : Action := fun s =>
  acts [plain .tbud n v,
    if dbit v 63 && !dbit (reg s .tbud n) 63 then acts [
      modTenant n fun t => { t with t0 := s.now, drops := [], corr := 0, clamps := 0, ctxs := [], res := [] },
      forEach (clustersOfPart s n) restartResidency] else skip] s
/-- Inflow is frozen while the fallback scheduler serves the context's island (R329). -/
def writeCinf (n : Nat) (v : DWord) : Action := look fun s =>
  if fallback s (islandOfPart s (ctxTenant s n)) then skip else plain .cinf n v
/-- The heater's code before the write drives the ring a little longer (R390). -/
def writeOhtr (n : Nat) (v : DWord) : Action := fun s =>
  acts [fun s => [.fabric { s.fabric with heat := put s.fabric.heat n (dbits (reg s .ohtr n) 0 12, s.now) }], plain .ohtr n v] s
/-- R324; SLICE and RES keep their values while the fallback scheduler serves the island (R329). -/
def writePsch (n : Nat) (v : DWord) : Action := look fun s =>
  if dbits v 0 16 = 0 || fallback s (islandOfPart s n) then skip else plain .psch n v
/-- R344, R345: the bounds move and the mailbox's target is held within them. -/
def writePcfg (n : Nat) (v : DWord) : Action := fun s =>
  let lo := dbits v 0 4
  let hi := dbits v 4 4
  if hi < lo || !ctxValid s (dbits v 16 10) then discardErr .pcfg n 31 s
  else acts [plain .pcfg n v, setField .opmb n 0 4 (max lo (min hi (dbits (reg s .opmb n) 0 4)))] s
/-- R345. -/
def writeOpmb (n : Nat) (v : DWord) : Action := fun s =>
  let c := reg s .pcfg n
  let t := dbits v 0 4
  let u := max (dbits c 0 4) (min (dbits c 4 4) t)
  acts [plain .opmb n (dset v 0 4 u), if u = t then skip else setField .opmb n 31 1 1] s
/-- R24. -/
def writeIlim (n : Nat) (v : DWord) : Action :=
  if dbits v 0 11 = 0 || 1100 < dbits v 0 11 then discardErr .ilim n 31 else acts [plain .ilim n v, updateCap n]
/-- MOVE and HELD of a partition (R345). -/
def mailboxBits (p : Nat) : Action := fun s =>
  let cs := clustersOfPart s p
  let moving := cs.any fun c => (clusterOf s c).move.isSome
  let held := cs.any fun c => decide (dbits (reg s .clst c) 16 4 < dbits (reg s .opmb p) 4 4)
  modReg .opmb p (fun r => dset (dset r 12 1 (b2n moving)) 13 1 (b2n held)) s
/-- R365. -/
def writePart (n : Nat) (v : DWord) : Action := fun s =>
  let new := written s .part n v
  let valid := dbit new 31
  let x := dbits new 0 5
  let y := dbits new 8 3
  let w := dbits new 16 5 + 1
  let h := dbits new 24 3 + 1
  let outside := decide (24 < x + w) || decide (8 < y + h)
  let overlap := (List.range 192).any fun p => p != n && partValid s p &&
    (let (a, b, c, d) := partRect s p
     decide (a < x + w) && decide (x < a + c) && decide (b < y + h) && decide (y < b + d))
  let changes := (new &&& fwMask .part n) != (reg s .part n &&& fwMask .part n)
  let busy := (List.range 1024).any fun c => ctxValid s c && ctxTenant s c == n
  if (valid && (outside || overlap)) || (changes && busy) then discardErr .part n 30 s else acts [
    if changes then bankResidency n else skip, upd (.reg .part n new),
    if changes then look fun s => forEach (clustersOfPart s n) restartResidency else skip, mailboxBits n] s
/-- R381: word `n mod 8` of descriptor `n / 8`. -/
def writeFseg (n : Nat) (v : DWord) : Action := fun s =>
  let w (i : Nat) : Nat := regN s .fseg (8 * (n / 8) + i)
  let bad := n % 8 == 0 && dbit v 31 &&
    (if dbit v 29 then !ctxValid s (w 1 % 1024)
     else w 4 == 0 || decide (0x9000000000 < w 2 + 2 ^ 32 * w 3 + 65536 * w 4))
  if bad then discardErr .fseg n 30 s else plain .fseg n v s
/-- R378: an unpopulated peer is not enabled, and the own peer's bit always reads 1. -/
def writePeere (n : Nat) (v : DWord) : Action := fun s =>
  let own := regN s .peerid 0
  let self : DWord := if own / 32 = n then dw (2 ^ (own % 32)) else 0
  [.reg .peere n ((v &&& reg s .peerp n) ||| self)]
/-- R392. -/
def writeRings (k : RegKind) (n : Nat) (v : DWord) : Action :=
  if isPerm v then plain k n v else discardErr k n 31
/-- R393. -/
def writeOstr (n : Nat) (v : DWord) : Action :=
  if dbits v 0 2 = 3 then discardErr .ostr n 31 else acts [plain .ostr n v, lasers n]
/-- R412: discarded while a workgroup of the context is placed. -/
def writeCimg (n : Nat) (v : DWord) : Action := fun s =>
  if s.wgs.any fun e => e.2.ctx == n then discardErr .ctxs n 31 s else plain .cimg n v s
/-- R368: cached translations of the context go with a write. -/
def writeCwin (n : Nat) (v : DWord) : Action :=
  if 16 < dbits v 0 5 then skip else acts [plain .cwin n v, dropTlb fun t => t.ctx == n]
/-- R316: a request starts, or the write is discarded while one is in progress. -/
def writeQmap (t : Nat) (v : DWord) : Action := fun s =>
  if dbit (reg s .qstat t) 31 then []
  else
    let op := dbits v 62 2
    let ctx := dbits v 52 10
    acts [plain .qmap t v,
      if op = 0 then skip else acts [setField .qstat t 31 1 1,
        modTenant t fun r => { r with map := some ⟨op == 2, ctx, dw (dbits v 6 46 * 64),
          op == 3 || ctxTenant s ctx != t, none⟩ }]] s
/-- A write of a register, with its effects. -/
def writeReg (k : RegKind) (n : Nat) (v : DWord) : Action :=
  match k with
  | .ctxd => writeCtxd n v
  | .cinf => writeCinf n v
  | .ohtr => writeOhtr n v
  | .tbud => writeTbud n v
  | .psch => writePsch n v
  | .pcfg => writePcfg n v
  | .opmb => writeOpmb n v
  | .ilim => writeIlim n v
  | .part => writePart n v
  | .fseg => writeFseg n v
  | .peere => writePeere n v
  | .otxm => writeRings .otxm n v
  | .orxm => writeRings .orxm n v
  | .ostr => writeOstr n v
  | .cimg => writeCimg n v
  | .cwin => writeCwin n v
  | .ctxt => acts [plain .ctxt n v, dropTlb fun t => t.ctx == n]
  | .evrb => acts [plain .evrb n v, upd (.reg .evrs n 0)]
  | .qmap => writeQmap n v
  | k => plain k n v
/-- A register a write may name, with an index in its range. -/
def regOk (k : RegKind) (n : Nat) : Bool := decide (n < kindCount k)
/-- A write at a privilege level: a register with a field of access RW-F is written at firmware level only (R4). None comes while the islands are not
up (R433). -/
def writeAt (k : RegKind) (n : Nat) (v : DWord) (lv : Priv) : Action :=
  look fun s => if !powered s || !regOk k n || lv == .program || (fwMask k n != 0 && lv != .firmware) then skip else writeReg k n v

/-! ### The events -/

/-- R324. -/
def execCtxdWrite (n : Nat) (v : Word) (s : State) : Host.Outcome State Fault Refusal := event (writeAt .ctxd n (zx64 v) .firmware) s
/-- R324. -/
def execPschWrite (n : Nat) (v : Word) (s : State) : Host.Outcome State Fault Refusal := event (writeAt .psch n (zx64 v) .firmware) s
/-- R344. -/
def execPcfgWrite (n : Nat) (v : Word) (s : State) : Host.Outcome State Fault Refusal := event (writeAt .pcfg n (zx64 v) .firmware) s
/-- R345. -/
def execOpmbWrite (n : Nat) (v : Word) (s : State) : Host.Outcome State Fault Refusal := event (writeAt .opmb n (zx64 v) .supervisor) s
/-- R24, R353. -/
def execIlimWrite (n : Nat) (v : Word) (s : State) : Host.Outcome State Fault Refusal := event (writeAt .ilim n (zx64 v) .firmware) s
/-- R365. -/
def execPartWrite (n : Nat) (v : Word) (s : State) : Host.Outcome State Fault Refusal := event (writeAt .part n (zx64 v) .firmware) s
/-- R381. -/
def execFsegWrite (seg word : Nat) (v : Word) (s : State) : Host.Outcome State Fault Refusal :=
  event (if word < 8 then writeAt .fseg (8 * seg + word) (zx64 v) .firmware else skip) s
/-- R378. -/
def execPeereWrite (n : Nat) (v : Word) (s : State) : Host.Outcome State Fault Refusal := event (writeAt .peere n (zx64 v) .firmware) s
/-- R392. -/
def execOtxmWrite (n : Nat) (v : Word) (s : State) : Host.Outcome State Fault Refusal := event (writeAt .otxm n (zx64 v) .firmware) s
/-- R393. -/
def execOstrWrite (n : Nat) (v : Word) (s : State) : Host.Outcome State Fault Refusal := event (writeAt .ostr n (zx64 v) .firmware) s
/-- R4. -/
def execRegisterWrite (r : RegKind) (n : Nat) (v : DWord) (lv : Priv) (s : State) : Host.Outcome State Fault Refusal :=
  event (writeAt r n v lv) s
/-- R316: OP 1. -/
def execQmapMap (t : Nat) (v : DWord) (s : State) : Host.Outcome State Fault Refusal :=
  event (writeAt .qmap t (dset v 62 2 1) .supervisor) s
/-- R316: OP 2. -/
def execQmapUnmap (t : Nat) (v : DWord) (s : State) : Host.Outcome State Fault Refusal :=
  event (writeAt .qmap t (dset v 62 2 2) .supervisor) s
/-- R316: OP 3. -/
def execQmapBadOp (t : Nat) (v : DWord) (s : State) : Host.Outcome State Fault Refusal :=
  event (writeAt .qmap t (dset v 62 2 3) .supervisor) s
/-- R393: a woken laser is stable. -/
def execLaserLock (k ch : Nat) (s : State) : Host.Outcome State Fault Refusal :=
  event (look fun s => match find s.fabric.waking (8 * k + ch) with
    | none => skip
    | some _ => acts [modReg .ostr k fun r => dset r (16 + ch) 1 1,
        fun s => [.fabric { s.fabric with waking := del s.fabric.waking (8 * k + ch) }]]) s

end Sys2Proof.Machine
end

