-- ==== Sys2Proof/Machine/Flits.lean ====
section
/-! DEFINITION. Flits and remote accesses at the source (R227, R262, R377 to R382, R388). What a request's payload holds beside
the header the spec leaves open: log 30. -/
namespace Sys2Proof.Machine

/-! ### The flit (R388) -/

/-- One byte through the CRC-24 of R388. -/
def crcByte (c : Nat) (b : Byte) : Nat :=
  (List.range 8).foldl (fun c _ => if nbits c 23 1 = 1 then (c * 2 % 2 ^ 24) ^^^ 0x864CFB else c * 2) (c ^^^ (b.toNat * 65536))
def crc24 (bs : List Byte) : Nat := bs.foldl crcByte 0xB704CE
/-- The header with CHK zero. -/
def headerBits (f : Flit) : BitVec 128 :=
  f.dst ++ f.src ++ f.seg ++ f.off ++ f.ty ++ f.sten ++ f.hop ++ f.tag ++ f.rsv ++ (0 : BitVec 24)
def flitChk (f : Flit) : BitVec 24 := BitVec.ofNat 24 (crc24 (le 16 (headerBits f).toNat ++ f.payload))
def sealed (f : Flit) : Flit := { f with chk := flitChk f }
/-- A receiver keeps the flit (R388). -/
def flitOk (f : Flit) : Bool := f.rsv == 0 && decide (f.ty.toNat < 10) && f.payload.length == 64 && flitChk f == f.chk
def mkFlit (s : State) (dst seg off ty sten tag : Nat) (payload : List Byte) : Flit :=
  sealed ⟨BitVec.ofNat 12 dst, BitVec.ofNat 12 (ownPeer s), BitVec.ofNat 8 seg, BitVec.ofNat 40 off, BitVec.ofNat 4 ty,
    BitVec.ofNat 8 sten, 0, BitVec.ofNat 16 tag, 0, 0, (payload ++ zeros 64).take 64, 0, 0⟩
/-- Flits queued for a peer; those for the own package go through its own fabric MMU (R377). -/
def sendTo (peer : Nat) (fs : List Flit) : Action := fun s => [.fabric { s.fabric with tx := put s.fabric.tx peer (findD s.fabric.tx peer [] ++ fs) }]

/-! ### Requests -/

def ifaOf (peer seg off : Nat) : DWord := dw (peer % 4096 * 2 ^ 48 + seg % 256 * 2 ^ 40 + off % 2 ^ 40)
/-- The least tag no outstanding access uses. -/
def freeTag (s : State) : Nat :=
  ((List.range (s.fabric.remotes.length + 1)).find? fun t => s.fabric.remotes.all fun r => r.tag != t).getD 0
/-- TYPE of a request by kind. -/
def reqType (kind : Nat) : Nat := match kind with | 0 | 5 | 6 => 0 | 2 => 2 | 4 => 6 | _ => 4
/-- A remote access begins: its record with its age, and its request flits, one more for 64 B of data (R239). `size` and `op` go in the
request's payload (the tile and unit of an arrival), with the source core. -/
def remoteAt (age core ctx wk out lane kind peer seg off size op : Nat) (data : List Byte) : Action := fun s =>
  let tag := freeTag s
  let ty := reqType kind
  let sten := ctxTenant s ctx
  let fl (p : List Byte) : Flit := mkFlit s peer seg off ty sten tag p
  acts [
    fun s => [.fabric { s.fabric with remotes := s.fabric.remotes ++
      [⟨tag, peer, ctx, wk, out, lane, size, kind, ifaOf peer seg off, 0, age, 0, clusterNo core⟩] }],
    upd (.nextId (s.nextId + 1)),
    match find s.warps wk with | some w => noRestart w.wg | none => skip,
    sendTo peer (fl (le 2 size ++ le 2 op ++ le 1 (b2n (kind == 3)) ++ le 2 core) :: (if data.isEmpty then [] else [fl data]))] s
/-- One that a warp makes as it issues. -/
def remoteReq (ctx wk out lane kind peer seg off size op : Nat) (data : List Byte) : Action := look fun s =>
  remoteAt s.nextId (match find s.warps wk with | some w => w.core | none => 0) ctx wk out lane kind peer seg off size op data
def dropRemote (tag : Nat) : Action := fun s =>
  [.fabric { s.fabric with remotes := s.fabric.remotes.filter fun r => r.tag != tag }]

/-! ### Errors of remote accesses (R229, R262, R382, R408) -/

/-- An imprecise remote error recorded in a warp: the first code and IFA, a count that saturates, the lanes. -/
def noteRemErr (wk : Nat) (code : Nat) (ifa : DWord) (lanes : Mask) : Action := modWarp wk fun w =>
  { w with rem := if w.rem.count = 0 then ⟨wd code, 1, ifa, lanes⟩
      else { w.rem with count := wd (min (2 ^ 32 - 1) (w.rem.count.toNat + 1)), lanes := w.rem.lanes ||| lanes } }
/-- The poison pattern (R262). -/
def poison : BitVec 128 := 0xFFC00BADFFC00BADFFC00BADFFC00BAD

end Sys2Proof.Machine
end

