-- ==== Sys2Proof/Machine/Integer.lean ====
section
/-! DEFINITION. Integer, logic, affine, predicate and lane instructions (spec/06, R76, R124 to R145). -/
namespace Sys2Proof.Machine

/-- A 32- or 64-bit result with flags. -/
def Iss.put (x : Iss) (d : Opd) (wide : Bool) (f : Nat → DWord × Nat) (w : Warp) : Warp :=
  x.write w d (wn wide) fun i => ((f i).1.setWidth 128, (f i).2)
/-- A predicate written in every guard-true thread. -/
def Iss.setPred (x : Iss) (d : Opd) (f : Nat → Bool) (w : Warp) : Warp := w.mapLanes x.g fun i l => l.setPOpd d (f i)
/-- An affine result with the check of R117; under AOVT the affine overflow trap at completion (cause 15). -/
def affBody (op : AffOp) (signed : Bool) (d : Opd) (a b : Word × Word) (x : Iss) : Action := look fun s =>
  let aov := aovOf op signed a b x.w.activeSet
  match d with
  | .a n => acts [
      modWarp x.k fun w => (w.wrA n.val (affResult op a b)).mapLanes x.g fun _ l => if aov then l.orFlags aOV else l,
      if aov && (match launchOf s x.w with | some l => l.lr.aovt | none => false) then
        raise x.k ⟨x.mask, 15, x.pc, x.next, 0, 0, none⟩ else skip]
  | _ => skip
def isAff : Opd → Bool
  | .a _ => true
  | _ => false
/-- An instruction with an affine-preserving pattern: affine by `op`, else per lane by `f`. -/
def issueAff (i : Instr) (d : Opd) (op : AffOp) (signed : Bool) (a b : Iss → Word × Word) (wide : Bool)
    (f : Iss → Nat → DWord) (s : State) : Host.Outcome State Fault Refusal :=
  issue i (fun x => x.price (dstPrice d 3)) never (fun x _ =>
    if isAff d then affBody op signed d (a x) (b x) x
    else modWarp x.k fun w => x.writeD w d wide (f x)) s
/-- A register instruction without flags. -/
def issueD (i : Instr) (d : Opd) (wide : Bool) (f : Iss → Nat → DWord) (s : State) : Host.Outcome State Fault Refusal :=
  issueReg i (dstPrice d 3) (fun x w => x.writeD w d wide (f x)) s
/-- A register instruction with flags. -/
def issueF (i : Instr) (d : Opd) (wide : Bool) (f : Iss → Nat → DWord × Nat) (s : State) : Host.Outcome State Fault Refusal :=
  issueReg i (dstPrice d 3) (fun x => x.put d wide (f x)) s
/-- A long-latency integer result. -/
def wide128 (r : DWord × Nat) : BitVec 128 × Nat := (r.1.setWidth 128, r.2)

/-- R76. -/
def execNop (c : Ctl) (o : O5) (s : State) : Host.Outcome State Fault Refusal :=
  issueReg (.nop c o) .uni (fun _ w => w) s

/-! ### Arithmetic (R125 to R129) -/

/-- The carry of a lane: NONE is 0 (R125). -/
def Iss.carry (x : Iss) (o : Opd) (i : Nat) : Bool := if o == .none then false else (laneOf x.w i).predOpd o
/-- R125: sum with carries; affine sums by R119. -/
def execAdd (c : Ctl) (ty : ITy) (o : O5) (s : State) : Host.Outcome State Fault Refusal :=
  issue (.add c ty o) (fun x => x.price (dstPrice o.d 3)) never (fun x _ =>
    if isAff o.d then affBody .add ty.signed o.d (x.affine o.a) (x.affine o.b) x
    else modWarp x.k fun w =>
      let r (i : Nat) := addCarry ty (x.valW ty.wide o.a i).toNat (x.valW ty.wide o.b i).toNat (x.carry o.c i)
      x.setPred o.e (fun i => (r i).2) (x.writeD w o.d ty.wide fun i => (r i).1)) s
/-- R125. -/
def execAddRi (c : Ctl) (ty : ITy) (o : ORI) (s : State) : Host.Outcome State Fault Refusal :=
  issueAff (.addRi c ty o) o.d .add ty.signed (fun x => x.affine o.a) (fun _ => (o.imm, 0)) ty.wide
    (fun x i => (addCarry ty (x.valW ty.wide o.a i).toNat (immVal ty o.imm).toNat false).1) s
/-- R125: difference with borrows. -/
def execSub (c : Ctl) (ty : ITy) (o : O5) (s : State) : Host.Outcome State Fault Refusal :=
  issue (.sub c ty o) (fun x => x.price (dstPrice o.d 3)) never (fun x _ =>
    if isAff o.d then affBody .sub ty.signed o.d (x.affine o.a) (x.affine o.b) x
    else modWarp x.k fun w =>
      let r (i : Nat) := subBorrow ty (x.valW ty.wide o.a i).toNat (x.valW ty.wide o.b i).toNat (x.carry o.c i)
      x.setPred o.e (fun i => (r i).2) (x.writeD w o.d ty.wide fun i => (r i).1)) s
/-- R125. -/
def execSubRi (c : Ctl) (ty : ITy) (o : ORI) (s : State) : Host.Outcome State Fault Refusal :=
  issueAff (.subRi c ty o) o.d .sub ty.signed (fun x => x.affine o.a) (fun _ => (o.imm, 0)) ty.wide
    (fun x i => (subBorrow ty (x.valW ty.wide o.a i).toNat (immVal ty o.imm).toNat false).1) s
/-- R126. -/
def execAddSat (c : Ctl) (ty : ITy) (o : O5) (s : State) : Host.Outcome State Fault Refusal :=
  issueF (.addSat c ty o) o.d false (fun x i => saturate ty (x.int ty o.a i + x.int ty o.b i)) s
/-- R126. -/
def execSubSat (c : Ctl) (ty : ITy) (o : O5) (s : State) : Host.Outcome State Fault Refusal :=
  issueF (.subSat c ty o) o.d false (fun x i => saturate ty (x.int ty o.a i - x.int ty o.b i)) s
/-- R127: low product; affine by uniform under R119. -/
def execMulLo (c : Ctl) (ty : ITy) (o : O5) (s : State) : Host.Outcome State Fault Refusal :=
  issueAff (.mulLo c ty o) o.d .mul ty.signed (fun x => x.affine o.a) (fun x => x.affine o.b) ty.wide
    (fun x i => modW ty (x.int ty o.a i * x.int ty o.b i)) s
/-- R127. -/
def execMulLoRi (c : Ctl) (ty : ITy) (o : ORI) (s : State) : Host.Outcome State Fault Refusal :=
  issueAff (.mulLoRi c ty o) o.d .mul ty.signed (fun x => x.affine o.a) (fun _ => (o.imm, 0)) ty.wide
    (fun x i => modW ty (x.int ty o.a i * toTy ty (immVal ty o.imm))) s
/-- R127: high half of the product. -/
def execMulHi (c : Ctl) (ty : ITy) (o : O5) (s : State) : Host.Outcome State Fault Refusal :=
  issueD (.mulHi c ty o) o.d false (fun x i => modW ty (x.int ty o.a i * x.int ty o.b i / 2 ^ 32)) s
/-- R127: the whole 64-bit product. -/
def execMulWide (c : Ctl) (ty : ITy) (o : O5) (s : State) : Host.Outcome State Fault Refusal :=
  issueD (.mulWide c ty o) o.d true (fun x i => BitVec.ofInt 64 (x.int ty o.a i * x.int ty o.b i)) s
/-- R127: c is read unsigned. -/
def execMadLo (c : Ctl) (ty : ITy) (o : O5) (s : State) : Host.Outcome State Fault Refusal :=
  issueD (.madLo c ty o) o.d false (fun x i => modW ty (x.int ty o.a i * x.int ty o.b i + (x.val o.c i).toNat)) s
/-- R127. -/
def execMadWide (c : Ctl) (ty : ITy) (o : O5) (s : State) : Host.Outcome State Fault Refusal :=
  issueD (.madWide c ty o) o.d true (fun x i => BitVec.ofInt 64 (x.int ty o.a i * x.int ty o.b i + (x.val64 o.c i).toNat)) s
/-- R128. -/
def execMin (c : Ctl) (ty : ITy) (o : O5) (s : State) : Host.Outcome State Fault Refusal :=
  issueD (.min c ty o) o.d ty.wide (fun x i => modW ty (min (x.int ty o.a i) (x.int ty o.b i))) s
/-- R128. -/
def execMax (c : Ctl) (ty : ITy) (o : O5) (s : State) : Host.Outcome State Fault Refusal :=
  issueD (.max c ty o) o.d ty.wide (fun x i => modW ty (max (x.int ty o.a i) (x.int ty o.b i))) s
/-- R128. -/
def execMinRi (c : Ctl) (ty : ITy) (o : ORI) (s : State) : Host.Outcome State Fault Refusal :=
  issueD (.minRi c ty o) o.d ty.wide (fun x i => modW ty (min (x.int ty o.a i) (toTy ty (immVal ty o.imm)))) s
/-- R128. -/
def execMaxRi (c : Ctl) (ty : ITy) (o : ORI) (s : State) : Host.Outcome State Fault Refusal :=
  issueD (.maxRi c ty o) o.d ty.wide (fun x i => modW ty (max (x.int ty o.a i) (toTy ty (immVal ty o.imm)))) s
/-- R128. -/
def execNeg (c : Ctl) (ty : ITy) (o : O5) (s : State) : Host.Outcome State Fault Refusal :=
  issueD (.neg c ty o) o.d ty.wide (fun x i => modW ty (-(x.int ty o.a i))) s
/-- R128. -/
def execAbs (c : Ctl) (ty : ITy) (o : O5) (s : State) : Host.Outcome State Fault Refusal :=
  issueD (.abs c ty o) o.d ty.wide (fun x i => modW ty (x.int ty o.a i).natAbs) s
/-- R128. -/
def execAbsSat (c : Ctl) (ty : ITy) (o : O5) (s : State) : Host.Outcome State Fault Refusal :=
  issueF (.absSat c ty o) o.d ty.wide (fun x i => saturate ty (x.int ty o.a i).natAbs) s
/-- R114, R129: results and flags at completion. -/
def performDiv (ty : ITy) (o : O5) : Iss → Nat → Action :=
  performAlu o.d (wn ty.wide) fun x i =>
    let r := divRem ty (x.int ty o.a i) (x.int ty o.b i)
    wide128 (modW ty r.1, r.2.2)
def performRem (ty : ITy) (o : O5) : Iss → Nat → Action :=
  performAlu o.d (wn ty.wide) fun x i =>
    let r := divRem ty (x.int ty o.a i) (x.int ty o.b i)
    wide128 (modW ty r.2.1, r.2.2)
/-- R129. -/
def execDiv (c : Ctl) (ty : ITy) (o : O5) (s : State) : Host.Outcome State Fault Refusal :=
  issueLong (.div c ty o) (dstPrice o.d 3) never (performDiv ty o) s
/-- R129. -/
def execRem (c : Ctl) (ty : ITy) (o : O5) (s : State) : Host.Outcome State Fault Refusal :=
  issueLong (.rem c ty o) (dstPrice o.d 3) never (performRem ty o) s
/-- R130. -/
def execFlgiRd (c : Ctl) (o : O5) (s : State) : Host.Outcome State Fault Refusal :=
  issueD (.flgiRd c o) o.d false (fun x i => zx64 ((laneOf x.w i).flg &&& 0x1E0)) s
/-- R130: MOD[7:4] names AOV, SAT, OV and DZ. -/
def execFlgiClr (c : Ctl) (m : BitVec 4) (o : O5) (s : State) : Host.Outcome State Fault Refusal :=
  issueReg (.flgiClr c m o) (.vary 3) (fun x w => w.mapLanes x.g fun _ l =>
    { l with flg := l.flg &&& ~~~(m.setWidth 32 <<< 5) }) s

/-! ### Logic, shifts, bit fields (R131 to R136) -/

/-- R132; the AND table is affine-preserving (R119). -/
def execLcomb (c : Ctl) (f1 f2 : BitVec 4) (o : O5) (s : State) : Host.Outcome State Fault Refusal :=
  issueAff (.lcomb c f1 f2 o) o.d .and false (fun x => x.affine o.a) (fun x => x.affine o.b) false
    (fun x i => zx64 (lcombW f1 f2 (x.val o.a i) (x.val o.b i) (if o.c == .none then none else some (x.val o.c i)))) s
/-- R131. -/
def execAndRi (c : Ctl) (o : ORI) (s : State) : Host.Outcome State Fault Refusal :=
  issueAff (.andRi c o) o.d .and false (fun x => x.affine o.a) (fun _ => (o.imm, 0)) false
    (fun x i => zx64 (x.val o.a i &&& o.imm)) s
/-- R131. -/
def execOrRi (c : Ctl) (o : ORI) (s : State) : Host.Outcome State Fault Refusal :=
  issueD (.orRi c o) o.d false (fun x i => zx64 (x.val o.a i ||| o.imm)) s
/-- R131. -/
def execXorRi (c : Ctl) (o : ORI) (s : State) : Host.Outcome State Fault Refusal :=
  issueD (.xorRi c o) o.d false (fun x i => zx64 (x.val o.a i ^^^ o.imm)) s
/-- R133. -/
def execShl (c : Ctl) (ty : ITy) (o : O5) (s : State) : Host.Outcome State Fault Refusal :=
  issueAff (.shl c ty o) o.d .shl ty.signed (fun x => x.affine o.a) (fun x => x.affine o.b) ty.wide
    (fun x i => shlW ty (x.valW ty.wide o.a i) (x.val o.b i).toNat) s
/-- R133. -/
def execShr (c : Ctl) (ty : ITy) (o : O5) (s : State) : Host.Outcome State Fault Refusal :=
  issueD (.shr c ty o) o.d ty.wide (fun x i => shrW ty (x.valW ty.wide o.a i) (x.val o.b i).toNat) s
/-- R133. -/
def execSar (c : Ctl) (ty : ITy) (o : O5) (s : State) : Host.Outcome State Fault Refusal :=
  issueD (.sar c ty o) o.d ty.wide (fun x i => sarW ty (x.int ty o.a i) (x.val o.b i).toNat) s
/-- R134. -/
def execBfe (c : Ctl) (ty : ITy) (o : O5) (s : State) : Host.Outcome State Fault Refusal :=
  issueD (.bfe c ty o) o.d false (fun x i => zx64 (bfeW ty.signed (x.val o.a i) (x.val o.b i).toNat (x.val o.c i).toNat)) s
/-- R134. -/
def execBfi (c : Ctl) (o : O5) (s : State) : Host.Outcome State Fault Refusal :=
  issueD (.bfi c o) o.d false (fun x i => zx64 (bfiW (x.val o.a i) (x.val o.b i) (x.val o.c i).toNat (x.val o.e i).toNat)) s
/-- Width of a bit count. -/
def bw (wide : Bool) : Nat := if wide then 64 else 32
/-- R135. -/
def execPopc (c : Ctl) (wide : Bool) (o : O5) (s : State) : Host.Outcome State Fault Refusal :=
  issueD (.popc c wide o) o.d false (fun x i => dw (popW (x.valW wide o.a i).toNat (bw wide))) s
/-- R135. -/
def execClz (c : Ctl) (wide : Bool) (o : O5) (s : State) : Host.Outcome State Fault Refusal :=
  issueD (.clz c wide o) o.d false (fun x i => dw (clzW (x.valW wide o.a i).toNat (bw wide))) s
/-- R135. -/
def execCtz (c : Ctl) (wide : Bool) (o : O5) (s : State) : Host.Outcome State Fault Refusal :=
  issueD (.ctz c wide o) o.d false (fun x i => dw (ctzFrom (x.valW wide o.a i).toNat 0 (bw wide))) s
/-- R135. -/
def execBrev (c : Ctl) (wide : Bool) (o : O5) (s : State) : Host.Outcome State Fault Refusal :=
  issueD (.brev c wide o) o.d wide (fun x i => dw (brevW (x.valW wide o.a i).toNat (bw wide))) s
/-- R136. -/
def execSel (c : Ctl) (wide : Bool) (o : O5) (s : State) : Host.Outcome State Fault Refusal :=
  issueD (.sel c wide o) o.d wide (fun x i => if (laneOf x.w i).predOpd o.c then x.valW wide o.a i else x.valW wide o.b i) s
/-- R136; an affine source is copied whole. -/
def execMov (c : Ctl) (wide : Bool) (o : O5) (s : State) : Host.Outcome State Fault Refusal :=
  issueAff (.mov c wide o) o.d .mov false (fun x => x.affine o.a) (fun _ => (0, 0)) wide (fun x i => x.valW wide o.a i) s
/-- R136. -/
def execMovRi (c : Ctl) (o : ORI) (s : State) : Host.Outcome State Fault Refusal :=
  issueD (.movRi c o) o.d false (fun _ _ => zx64 o.imm) s
/-- R137. -/
def execLea (c : Ctl) (k : BitVec 3) (uns : Bool) (o : O5) (s : State) : Host.Outcome State Fault Refusal :=
  issueAff (.lea c k uns o) o.d (.lea k.toNat) (!uns) (fun x => x.affine o.a) (fun x => x.affine o.b) false
    (fun x i => zx64 (x.val o.a i + x.val o.b i <<< k.toNat)) s

/-! ### Compares and predicates (R138, R139) -/

/-- The price of a compare: uniform issue when every source is uniform. -/
def cmpPrice (os : List Opd) : Price := if os.all isUni then .uni else .vary 3
/-- R138: the pair of predicates. -/
def execCmp (c : Ctl) (ty : ITy) (cond : Cond) (bop : BOp) (o : O5) (s : State) : Host.Outcome State Fault Refusal :=
  issueReg (.cmp c ty cond bop o) (cmpPrice [o.a, o.b, o.c]) (fun x w =>
    let t (i : Nat) := condOf cond (x.int ty o.a i) (x.int ty o.b i)
    let q (i : Nat) := (laneOf x.w i).predOpd o.c
    x.setPred o.e (fun i => bopOf bop (!t i) (q i)) (x.setPred o.d (fun i => bopOf bop (t i) (q i)) w)) s
/-- R138, immediate form. -/
def execCmpRi (c : Ctl) (ty : ITy) (cond : Cond) (o : ORI) (s : State) : Host.Outcome State Fault Refusal :=
  issueReg (.cmpRi c ty cond o) (cmpPrice [o.a]) (fun x w =>
    x.setPred o.d (fun i => condOf cond (x.int ty o.a i) (toTy ty (immVal ty o.imm))) w) s
/-- R139. -/
def execPcomb (c : Ctl) (f1 f2 : BitVec 4) (o : O5) (s : State) : Host.Outcome State Fault Refusal :=
  issueReg (.pcomb c f1 f2 o) (.vary 3) (fun x w =>
    let p (y : Opd) (i : Nat) := (laneOf x.w i).predOpd y
    let t (i : Nat) := table2 f1 (p o.a i) (p o.b i)
    let r (i : Nat) := if o.c == .none then t i else table2 f2 (t i) (p o.c i)
    x.setPred o.e (fun i => !r i) (x.setPred o.d r w)) s

/-! ### Promotion and demotion (R140, R141) -/

/-- The affine register of a destination written. -/
def wrAOpd (d : Opd) (v : Word × Word) (w : Warp) : Warp :=
  match d with
  | .a n => w.wrA n.val v
  | _ => w
/-- R140. -/
def execMovAS (c : Ctl) (o : O5) (s : State) : Host.Outcome State Fault Refusal :=
  issueReg (.movAS c o) .uni (fun x => wrAOpd o.d (x.val o.a 0, 0)) s
/-- R140. -/
def execAmk (c : Ctl) (o : O5) (s : State) : Host.Outcome State Fault Refusal :=
  issueReg (.amk c o) .uni (fun x => wrAOpd o.d (x.val o.a 0, x.val o.b 0)) s
/-- R140. -/
def execMatl (c : Ctl) (o : O5) (s : State) : Host.Outcome State Fault Refusal :=
  issueD (.matl c o) o.d false (fun x i => zx64 (x.val o.a i)) s
/-- R140. -/
def execBcst (c : Ctl) (o : O5) (s : State) : Host.Outcome State Fault Refusal :=
  issueD (.bcst c o) o.d false (fun x i => zx64 (x.val o.a i)) s
/-- R140. -/
def execBcstRi (c : Ctl) (o : ORI) (s : State) : Host.Outcome State Fault Refusal :=
  issueD (.bcstRi c o) o.d false (fun _ _ => zx64 o.imm) s
/-- R140. -/
def execAgetBase (c : Ctl) (o : O5) (s : State) : Host.Outcome State Fault Refusal :=
  issueD (.agetBase c o) o.d false (fun x _ => zx64 (x.affine o.a).1) s
/-- R140. -/
def execAgetStride (c : Ctl) (o : O5) (s : State) : Host.Outcome State Fault Refusal :=
  issueD (.agetStride c o) o.d false (fun x _ => zx64 (x.affine o.a).2) s
/-- R141. -/
def execRdlane (c : Ctl) (o : O5) (s : State) : Host.Outcome State Fault Refusal :=
  issueReg (.rdlane c o) .uni (fun x w =>
    let j := (x.val o.b 0).toNat
    let ok := decide (j < x.w.width) && inMask x.w.activeSet j
    x.setPred o.e (fun _ => !ok) (x.writeD w o.d false fun _ => zx64 (if ok then x.val o.a j else x.val o.c 0))) s

/-! ### Permutes and votes (R143 to R145) -/

/-- The source lane of a pattern (R143, R144); it may lie outside the warp. -/
def patLane (c : Word) (width i : Nat) : Int :=
  let k := (wd i &&& ~~~wd (wbits c 8 6)) ^^^ wd (wbits c 0 6)
  let o : Int := (c.extractLsb' 16 7).toInt
  if c.getLsbD 24 then ((k.toNat : Int) + o) % width else k.toNat + o
/-- `lanex` given each lane's source lane (R144). -/
def lanexW (wide : Bool) (o : O5) (src : Iss → Nat → Int) (x : Iss) (w : Warp) : Warp :=
  let present (i : Nat) : Bool := decide (0 ≤ src x i) && decide (src x i < x.w.width) && inMask x.mask (src x i).toNat
  let fill (i : Nat) : DWord := if wide then sx64 (x.val o.c i) else zx64 (x.val o.c i)
  x.setPred o.e (fun i => !present i)
    (x.writeD w o.d wide fun i => if present i then x.valW wide o.a (src x i).toNat else fill i)
/-- R144. -/
def execLanexSel (c : Ctl) (wide : Bool) (o : O5) (s : State) : Host.Outcome State Fault Refusal :=
  issueReg (.lanexSel c wide o) (.vary 3) (lanexW wide o fun x i => (x.val o.b i).toNat) s
/-- R144. -/
def execLanexPat (c : Ctl) (wide : Bool) (o : O5) (s : State) : Host.Outcome State Fault Refusal :=
  issueReg (.lanexPat c wide o) (.vary 3) (lanexW wide o fun x i => patLane (x.val o.b 0) x.w.width i) s
/-- The summary of R145 over the lanes of a set. -/
def voteOf (mode : VoteMode) (width : Nat) (set : Mask) (p : Nat → Bool) : DWord :=
  let t := maskOf width fun i => inMask set i && p i
  match mode with
  | .mask => t
  | .cnt => dw (popcount t)
  | .cntf => dw (popcount (set &&& ~~~t))
  | .first => dw (if t = 0 then width else lowest t)
  | .last => dw (if t = 0 then width else (lanesOf t).getLastD 0)
/-- R145. -/
def execVote (c : Ctl) (mode : VoteMode) (o : O5) (s : State) : Host.Outcome State Fault Refusal :=
  issueReg (.vote c mode o) .uni (fun x w =>
    x.writeD w o.d (mode == .mask) fun _ => voteOf mode x.w.width x.w.activeSet fun i => (laneOf x.w i).predOpd o.a) s

end Sys2Proof.Machine
end

