-- ==== Sys2Proof/Machine/FloatOps.lean ====
section
/-! DEFINITION. Floating-point, conversion, generator and special-function instructions (spec/07, R146 to R170). -/
namespace Sys2Proof.Machine

/-! ### Elements (R149, R150) -/

def ftFmt : FTy → FFmt
  | .f32 => fp32
  | .f16 | .f16x2 => fp16
  | .bf16 | .bf16x2 => bf16
def ftPair : FTy → Bool
  | .f16x2 | .bf16x2 => true
  | _ => false
/-- The bits of element e of a source. -/
def Iss.fbits (x : Iss) (ft : FTy) (o : Opd) (i e : Nat) : Nat :=
  match o with
  | .imm k => (convert (ftFmt ft) .rne false 0 (ofInt k.toInt)).1
  | o => nbits (x.val o i).toNat ((ftFmt ft).w * e) (ftFmt ft).w
/-- The bits of element e of an RI immediate. -/
def immBits (ft : FTy) (imm : BitVec 32) (e : Nat) : Nat := nbits imm.toNat ((ftFmt ft).w * e) (ftFmt ft).w
/-- A result of one element, or of a packed pair, with the OR of the conditions (R93, R113). -/
def fpack (ft : FTy) (f : Nat → Nat × Nat) : DWord × Nat :=
  if ftPair ft then (dw ((f 0).1 + 65536 * (f 1).1), (f 0).2 ||| (f 1).2) else (dw (f 0).1, (f 0).2)
/-- The price of R153: class 5 for FP32, class 4 for the 16-bit formats. -/
def armPrice (d : Opd) (ft : FTy) : Price := dstPrice d (if ft == .f32 then 5 else 4)
def issueFp (i : Instr) (d : Opd) (p : Price) (ft : FTy) (f : Iss → Nat → Nat → Nat × Nat) (s : State) :
    Host.Outcome State Fault Refusal :=
  issueReg i p (fun x => x.put d false fun l => fpack ft (f x l)) s
/-- FpResult of a sum, a difference or a product of two encodings (R152). -/
def fsumB (f : FFmt) (neg : Bool) (a b : Nat) : Nat × Nat :=
  addV f (f.decode a) (if neg then (f.decode b).neg else f.decode b)
def fmulB (f : FFmt) (a b : Nat) : Nat × Nat := mulV f (f.decode a) (f.decode b)

/-- R152. -/
def execFadd (c : Ctl) (ft : FTy) (o : O5) (s : State) : Host.Outcome State Fault Refusal :=
  issueFp (.fadd c ft o) o.d (armPrice o.d ft) ft
    (fun x i e => fsumB (ftFmt ft) false (x.fbits ft o.a i e) (x.fbits ft o.b i e)) s
/-- R152. -/
def execFaddRi (c : Ctl) (ft : FTy) (o : ORI) (s : State) : Host.Outcome State Fault Refusal :=
  issueFp (.faddRi c ft o) o.d (armPrice o.d ft) ft
    (fun x i e => fsumB (ftFmt ft) false (x.fbits ft o.a i e) (immBits ft o.imm e)) s
/-- R152. -/
def execFsub (c : Ctl) (ft : FTy) (o : O5) (s : State) : Host.Outcome State Fault Refusal :=
  issueFp (.fsub c ft o) o.d (armPrice o.d ft) ft
    (fun x i e => fsumB (ftFmt ft) true (x.fbits ft o.a i e) (x.fbits ft o.b i e)) s
/-- R152. -/
def execFsubRi (c : Ctl) (ft : FTy) (o : ORI) (s : State) : Host.Outcome State Fault Refusal :=
  issueFp (.fsubRi c ft o) o.d (armPrice o.d ft) ft
    (fun x i e => fsumB (ftFmt ft) true (x.fbits ft o.a i e) (immBits ft o.imm e)) s
/-- R152. -/
def execFmul (c : Ctl) (ft : FTy) (o : O5) (s : State) : Host.Outcome State Fault Refusal :=
  issueFp (.fmul c ft o) o.d (armPrice o.d ft) ft
    (fun x i e => fmulB (ftFmt ft) (x.fbits ft o.a i e) (x.fbits ft o.b i e)) s
/-- R152. -/
def execFmulRi (c : Ctl) (ft : FTy) (o : ORI) (s : State) : Host.Outcome State Fault Refusal :=
  issueFp (.fmulRi c ft o) o.d (armPrice o.d ft) ft
    (fun x i e => fmulB (ftFmt ft) (x.fbits ft o.a i e) (immBits ft o.imm e)) s
/-- A fused multiply-add of three encodings (R153). -/
def fmaB (f : FFmt) (np nc : Bool) (a b c : Nat) : Nat × Nat :=
  fmaV f np (f.decode a) (f.decode b) (if nc then (f.decode c).neg else f.decode c)
/-- R153. -/
def execFma (c : Ctl) (ft : FTy) (o : O5) (s : State) : Host.Outcome State Fault Refusal :=
  issueFp (.fma c ft o) o.d (armPrice o.d ft) ft
    (fun x i e => fmaB (ftFmt ft) false false (x.fbits ft o.a i e) (x.fbits ft o.b i e) (x.fbits ft o.c i e)) s
/-- R153. -/
def execFms (c : Ctl) (ft : FTy) (o : O5) (s : State) : Host.Outcome State Fault Refusal :=
  issueFp (.fms c ft o) o.d (armPrice o.d ft) ft
    (fun x i e => fmaB (ftFmt ft) false true (x.fbits ft o.a i e) (x.fbits ft o.b i e) (x.fbits ft o.c i e)) s
/-- R153. -/
def execFnma (c : Ctl) (ft : FTy) (o : O5) (s : State) : Host.Outcome State Fault Refusal :=
  issueFp (.fnma c ft o) o.d (armPrice o.d ft) ft
    (fun x i e => fmaB (ftFmt ft) true false (x.fbits ft o.a i e) (x.fbits ft o.b i e) (x.fbits ft o.c i e)) s
/-- R154. -/
def execFmin (c : Ctl) (ft : FTy) (o : O5) (s : State) : Host.Outcome State Fault Refusal :=
  issueFp (.fmin c ft o) o.d (dstPrice o.d 3) ft
    (fun x i e => minMax (ftFmt ft) false (x.fbits ft o.a i e) (x.fbits ft o.b i e)) s
/-- R154. -/
def execFmax (c : Ctl) (ft : FTy) (o : O5) (s : State) : Host.Outcome State Fault Refusal :=
  issueFp (.fmax c ft o) o.d (dstPrice o.d 3) ft
    (fun x i e => minMax (ftFmt ft) true (x.fbits ft o.a i e) (x.fbits ft o.b i e)) s
/-- The formulas of R155. -/
def fmedB (f : FFmt) (a b c : Nat) : Nat × Nat :=
  let p := minMax f false a b
  let q := minMax f true a b
  let r := minMax f false q.1 c
  let t := minMax f true p.1 r.1
  (t.1, p.2 ||| q.2 ||| r.2 ||| t.2)
def fclampB (f : FFmt) (x lo hi : Nat) : Nat × Nat :=
  let p := minMax f true x lo
  let q := minMax f false p.1 hi
  (q.1, p.2 ||| q.2)
/-- R155. -/
def execFmed3 (c : Ctl) (ft : FTy) (o : O5) (s : State) : Host.Outcome State Fault Refusal :=
  issueFp (.fmed3 c ft o) o.d (dstPrice o.d 3) ft
    (fun x i e => fmedB (ftFmt ft) (x.fbits ft o.a i e) (x.fbits ft o.b i e) (x.fbits ft o.c i e)) s
/-- R155. -/
def execFclamp (c : Ctl) (ft : FTy) (o : O5) (s : State) : Host.Outcome State Fault Refusal :=
  issueFp (.fclamp c ft o) o.d (dstPrice o.d 3) ft
    (fun x i e => fclampB (ftFmt ft) (x.fbits ft o.a i e) (x.fbits ft o.b i e) (x.fbits ft o.c i e)) s
/-- R156: the sign bit cleared. -/
def execFabs (c : Ctl) (ft : FTy) (o : O5) (s : State) : Host.Outcome State Fault Refusal :=
  issueFp (.fabs c ft o) o.d (dstPrice o.d 3) ft (fun x i e => (x.fbits ft o.a i e % 2 ^ ((ftFmt ft).w - 1), 0)) s
/-- R156: the sign bit flipped. -/
def execFneg (c : Ctl) (ft : FTy) (o : O5) (s : State) : Host.Outcome State Fault Refusal :=
  issueFp (.fneg c ft o) o.d (dstPrice o.d 3) ft
    (fun x i e => ((x.fbits ft o.a i e + 2 ^ ((ftFmt ft).w - 1)) % 2 ^ (ftFmt ft).w, 0)) s
/-- R157: the pair of predicates. -/
def execFcmp (c : Ctl) (ft : FTy) (cond : FCond) (bop : BOp) (o : O5) (s : State) : Host.Outcome State Fault Refusal :=
  issueReg (.fcmp c ft cond bop o) (cmpPrice [o.a, o.b, o.c]) (fun x w =>
    let f := ftFmt ft
    let t (i : Nat) := fcompare cond (f.decode (x.fbits ft o.a i 0)) (f.decode (x.fbits ft o.b i 0))
    let q (i : Nat) := (laneOf x.w i).predOpd o.c
    (x.setPred o.e (fun i => bopOf bop (!(t i).1) (q i)) (x.setPred o.d (fun i => bopOf bop (t i).1 (q i)) w)).mapLanes x.g
      fun i l => l.orFlags (t i).2) s
/-- R158. -/
def execFflgRd (c : Ctl) (o : O5) (s : State) : Host.Outcome State Fault Refusal :=
  issueD (.fflgRd c o) o.d false (fun x i => zx64 ((laneOf x.w i).flg &&& 0x1F)) s
/-- R158. -/
def execFflgClr (c : Ctl) (m : BitVec 5) (o : O5) (s : State) : Host.Outcome State Fault Refusal :=
  issueReg (.fflgClr c m o) (.vary 3) (fun x w => w.mapLanes x.g fun _ l => { l with flg := l.flg &&& ~~~(m.setWidth 32) }) s

/-! ### Conversions (R159 to R165) -/

/-- A source element of a format as a value (R92): unsigned integers read unsigned. -/
def srcVal (sf : SrcF) (bits : Nat) : FVal :=
  match sf with
  | .f32 => fp32.decode bits
  | .f16 => fp16.decode bits
  | .bf16 => bf16.decode bits
  | .e4m3 => e4m3.decode bits
  | .e5m2 => e5m2.decode bits
  | .i8 => ofInt (BitVec.ofNat 8 bits).toInt
  | .i16 => ofInt (BitVec.ofNat 16 bits).toInt
  | .i32 => ofInt (BitVec.ofNat 32 bits).toInt
  | .i64 => ofInt (BitVec.ofNat 64 bits).toInt
  | .n8 | .n16 | .n32 | .n64 => ofInt bits
/-- The integer a source element is. -/
def srcInt (sf : SrcF) (bits : Nat) : Int :=
  match srcVal sf bits with
  | .fin neg n _ => if neg then -(n : Int) else n
  | _ => 0
/-- The element selector (R161). -/
def selOf : Opd → Nat
  | .imm k => k.toNat
  | _ => 0
/-- Bits of the selected element of a source. An immediate stands for the integer it is where the source is an integer, and
for the value converted exactly where it is a float (R150). -/
def Iss.cvBits (x : Iss) (sf : SrcF) (o : Opd) (sel i : Nat) : Nat :=
  let n := WF.srcBits sf
  if WF.srcFloat sf then
    match o with
    | .imm k =>
      let f := match sf with | .f16 => fp16 | .bf16 => bf16 | .e4m3 => e4m3 | .e5m2 => e5m2 | _ => fp32
      (convert f .rne false 0 (ofInt k.toInt)).1
    | o => nbits (x.val o i).toNat (n * sel) n
  else if n = 64 then (x.val64 o i).toNat else nbits (x.val o i).toNat (n * sel) n
/-- The number drawn for an element under RS, and the state left (R104). -/
def draw (rm : Rnd) (gs : DWord) : DWord × Nat := if rm == .rs then ((genNext gs).1, (genNext gs).2.toNat) else (gs, 0)
/-- Conversion of elements in increasing order: the result and flags, and the generator state left (R162). -/
def cvtElems (rm : Rnd) (w : Nat) (f : Nat → Nat → Nat × Nat) : List (Nat × Nat) → DWord → (Nat × Nat) × DWord
  | [], gs => ((0, 0), gs)
  | (k, b) :: r, gs =>
    let d := draw rm gs
    let y := f b d.2
    let z := cvtElems rm w f r d.1
    ((y.1 * 2 ^ (w * k) + z.1.1, y.2 ||| z.1.2), z.2)
/-- A conversion: `els` names the source bits of each element written. -/
def cvtBody (d : Opd) (wide : Bool) (rm : Rnd) (w : Nat) (els : Iss → Nat → List (Nat × Nat)) (f : Nat → Nat → Nat × Nat)
    (x : Iss) (w0 : Warp) : Warp :=
  let r (i : Nat) := cvtElems rm w f (els x i) (laneOf x.w i).gs
  let w1 := x.put d wide (fun i => (dw (r i).1.1, (r i).1.2)) w0
  if rm == .rs then w1.mapLanes x.g fun i l => { l with gs := (r i).2 } else w1
def issueCvt (i : Instr) (d : Opd) (wide : Bool) (rm : Rnd) (w : Nat) (els : Iss → Nat → List (Nat × Nat))
    (f : Nat → Nat → Nat × Nat) (s : State) : Host.Outcome State Fault Refusal :=
  issueReg i (dstPrice d 3) (cvtBody d wide rm w els f) s
/-- One element from the selected source element. -/
def els1 (sf : SrcF) (o : O5) (x : Iss) (i : Nat) : List (Nat × Nat) :=
  [(0, x.cvBits sf o.a (if WF.srcBits sf < 32 then selOf o.b else 0) i)]
/-- One or two elements of a 16-bit destination (R161). -/
def els2 (sf : SrcF) (o : O5) (x : Iss) (i : Nat) : List (Nat × Nat) :=
  if WF.srcBits sf < 32 || o.b == .none then els1 sf o x i else [(0, x.cvBits sf o.a 0 i), (1, x.cvBits sf o.b 0 i)]
/-- Up to four elements of an 8-bit destination (R161). -/
def els4 (sf : SrcF) (o : O5) (x : Iss) (i : Nat) : List (Nat × Nat) :=
  (mapI (fun k y => (k, y)) [o.a, o.b, o.c, o.e]).filterMap fun (k, y) =>
    if y == .none then none else some (k, x.cvBits sf y 0 i)
/-- Into a floating format. -/
def toFloat (f : FFmt) (sf : SrcF) (rm : Rnd) (sat : Bool) (b r : Nat) : Nat × Nat := convert f rm sat r (srcVal sf b)
/-- Into an integer format (R111, R162): from a float saturating, from an integer wrapping or saturating. -/
def toIntTy (ty : ITy) (sf : SrcF) (rm : Rnd) (sat : Bool) (b r : Nat) : Nat × Nat :=
  if WF.srcFloat sf then
    let y := toInt rm r (tyMin ty) (tyMax ty) (srcVal sf b)
    ((modW ty y.1).toNat, y.2)
  else if sat then ((saturate ty (srcInt sf b)).1.toNat, (saturate ty (srcInt sf b)).2)
  else ((modW ty (srcInt sf b)).toNat, 0)

/-- R162. -/
def execCvtF32 (c : Ctl) (sf : SrcF) (rm : Rnd) (sat : Bool) (o : O5) (s : State) : Host.Outcome State Fault Refusal :=
  issueCvt (.cvtF32 c sf rm sat o) o.d false rm 32 (els1 sf o) (toFloat fp32 sf rm sat) s
/-- R162. -/
def execCvtF16 (c : Ctl) (sf : SrcF) (rm : Rnd) (sat : Bool) (o : O5) (s : State) : Host.Outcome State Fault Refusal :=
  issueCvt (.cvtF16 c sf rm sat o) o.d false rm 16 (els2 sf o) (toFloat fp16 sf rm sat) s
/-- R162. -/
def execCvtBf16 (c : Ctl) (sf : SrcF) (rm : Rnd) (sat : Bool) (o : O5) (s : State) : Host.Outcome State Fault Refusal :=
  issueCvt (.cvtBf16 c sf rm sat o) o.d false rm 16 (els2 sf o) (toFloat bf16 sf rm sat) s
/-- R162. -/
def execCvtE4m3 (c : Ctl) (sf : SrcF) (rm : Rnd) (sat : Bool) (o : O5) (s : State) : Host.Outcome State Fault Refusal :=
  issueCvt (.cvtE4m3 c sf rm sat o) o.d false rm 8 (els4 sf o) (toFloat e4m3 sf rm sat) s
/-- R162. -/
def execCvtE5m2 (c : Ctl) (sf : SrcF) (rm : Rnd) (sat : Bool) (o : O5) (s : State) : Host.Outcome State Fault Refusal :=
  issueCvt (.cvtE5m2 c sf rm sat o) o.d false rm 8 (els4 sf o) (toFloat e5m2 sf rm sat) s
/-- R162. -/
def execCvtI32 (c : Ctl) (sf : SrcF) (rm : Rnd) (sat : Bool) (o : O5) (s : State) : Host.Outcome State Fault Refusal :=
  issueCvt (.cvtI32 c sf rm sat o) o.d false rm 32 (els1 sf o) (toIntTy .i32 sf rm sat) s
/-- R162. -/
def execCvtN32 (c : Ctl) (sf : SrcF) (rm : Rnd) (sat : Bool) (o : O5) (s : State) : Host.Outcome State Fault Refusal :=
  issueCvt (.cvtN32 c sf rm sat o) o.d false rm 32 (els1 sf o) (toIntTy .n32 sf rm sat) s
/-- R162. -/
def execCvtI64 (c : Ctl) (sf : SrcF) (rm : Rnd) (sat : Bool) (o : O5) (s : State) : Host.Outcome State Fault Refusal :=
  issueCvt (.cvtI64 c sf rm sat o) o.d true rm 64 (els1 sf o) (toIntTy .i64 sf rm sat) s
/-- R162. -/
def execCvtN64 (c : Ctl) (sf : SrcF) (rm : Rnd) (sat : Bool) (o : O5) (s : State) : Host.Outcome State Fault Refusal :=
  issueCvt (.cvtN64 c sf rm sat o) o.d true rm 64 (els1 sf o) (toIntTy .n64 sf rm sat) s

/-! ### Format slots (R97, R98, R163 to R165) -/

/-- The descriptor of a bound format slot; none where it is unbound. -/
def slotDesc (s : State) (w : Warp) (k : Nat) : Option (BitVec 128) :=
  (launchOf s w).bind fun l => if nbits l.lr.fmtv k 1 = 1 then some (nth l.lr.fmts k 0) else none
def dEf (d : BitVec 128) : Nat := nbits d.toNat 0 4
def dRnd (d : BitVec 128) : Rnd := (Rnd.dec (nbits d.toNat 4 3)).getD .rne
def dSat (d : BitVec 128) : Bool := nbits d.toNat 7 1 == 1
def dBsz (d : BitVec 128) : Nat := nbits d.toNat 8 2
/-- Element formats 0 to 10 as source codes (R98, R159). -/
def efSrc : Nat → SrcF
  | 0 => .f32 | 1 => .f16 | 2 => .bf16 | 3 => .e4m3 | 4 => .e5m2 | 5 => .i8 | 6 => .n8 | 7 => .i16 | 8 => .n16
  | 9 => .i32 | _ => .n32
/-- Causes of R163 (R397). -/
def cauFmt : Nat := 20
def cauUnbound : Nat := 21
/-- A slot read before the effect (R163): the traps, or the instruction with its descriptor. -/
def withSlot (x : Iss) (bad : BitVec 128 → Bool) (f : BitVec 128 → Action) : Action := look fun s =>
  match slotDesc s x.w (ctlOf x.i).fmt.toNat with
  | none => x.trap cauUnbound 0 0
  | some d => if bad d then x.trap cauFmt 0 0 else f d
/-- Cause 1: an operand that only the slot shows to be out of range (R161, R164; log 20). -/
def cauIllegal : Nat := 1
def cvtfBad (d : BitVec 128) : Bool := dBsz d != 0 || dEf d == 11
/-- A conversion into the element format of EF (R164). -/
def toEf (ef : Nat) (rm : Rnd) (sat : Bool) (b r : Nat) : Nat × Nat :=
  let v := fp32.decode b
  let int (bits : Nat) (signed : Bool) : Nat × Nat :=
    let lo : Int := if signed then -(2 ^ (bits - 1)) else 0
    let hi : Int := if signed then 2 ^ (bits - 1) - 1 else 2 ^ bits - 1
    let y := toInt rm r lo hi v
    ((y.1 % 2 ^ bits).toNat, y.2)
  match ef with
  | 0 => convert fp32 rm sat r v
  | 1 => convert fp16 rm sat r v
  | 2 => convert bf16 rm sat r v
  | 3 => convert e4m3 rm sat r v
  | 4 => convert e5m2 rm sat r v
  | 5 => int 8 true | 6 => int 8 false | 7 => int 16 true | 8 => int 16 false | 9 => int 32 true | _ => int 32 false
/-- The results of a slot conversion held as unfinished; the generator advances at issue, in program order (R166). -/
def performCvtf (d : Opd) (rm : Rnd) (f : Nat → Nat → Nat × Nat) (src : Nat → Nat) (x : Iss) (id : Nat) : Action :=
  let r (i : Nat) := cvtElems rm 32 f [(0, src i)] (laneOf x.w i).gs
  acts [performAlu d 1 (fun _ i => (BitVec.ofNat 128 (r i).1.1, (r i).1.2)) x id,
    if rm == .rs then modWarp x.k fun w => w.mapLanes x.g fun i l => { l with gs := (r i).2 } else skip]
def performCvtfTo (rm : Rnd) (slot sat : Bool) (o : O5) (x : Iss) (id : Nat) : Action :=
  withSlot x cvtfBad fun d =>
    let m := if slot then dRnd d else rm
    performCvtf o.d m (toEf (dEf d) m (sat || dSat d)) (fun i => x.cvBits .f32 o.a 0 i) x id
def performCvtfFrom (rm : Rnd) (slot sat : Bool) (o : O5) (x : Iss) (id : Nat) : Action :=
  withSlot x cvtfBad fun d =>
    let m := if slot then dRnd d else rm
    let sf := efSrc (dEf d)
    let n := WF.srcBits sf
    if 32 / n ≤ selOf o.b then x.trap cauIllegal 0 0
    else performCvtf o.d m (toFloat fp32 sf m sat) (fun i => x.cvBits sf o.a (selOf o.b) i) x id
/-- R164. -/
def execCvtfTo (c : Ctl) (rm : Rnd) (slot sat : Bool) (o : O5) (s : State) : Host.Outcome State Fault Refusal :=
  issueLong (.cvtfTo c rm slot sat o) (dstPrice o.d 3) never (performCvtfTo rm slot sat o) s
/-- R164. -/
def execCvtfFrom (c : Ctl) (rm : Rnd) (slot sat : Bool) (o : O5) (s : State) : Host.Outcome State Fault Refusal :=
  issueLong (.cvtfFrom c rm slot sat o) (dstPrice o.d 3) never (performCvtfFrom rm slot sat o) s
/-- Element m of a word of codes as an exact value (R94, R165). -/
def codeEl (ef m : Nat) (codes : Word) : FVal :=
  if ef = 11 then codeVal (wbits codes (4 * m) 4) else srcVal (efSrc ef) (wbits codes (8 * m) 8)
def bsdecBad (k : Nat) (d : BitVec 128) : Bool := dBsz d == 0 || (dEf d != 11 && 2 ≤ k)
def performBsdec (k : BitVec 2) (o : O5) (x : Iss) (id : Nat) : Action :=
  withSlot x (bsdecBad k.toNat) fun d =>
    performAlu o.d 1 (fun x i =>
      let sc := fp32.decode (x.fbits .f32 o.c i 0)
      let el (m : Nat) : Nat := decodeBlock (codeEl (dEf d) m (x.val o.a i)) (wbits (x.val o.b i) 0 8) sc
      (BitVec.ofNat 128 (el (2 * k.toNat) + 65536 * el (2 * k.toNat + 1)), 0)) x id
/-- R165. -/
def execBsdec (c : Ctl) (k : BitVec 2) (o : O5) (s : State) : Host.Outcome State Fault Refusal :=
  issueLong (.bsdec c k o) (dstPrice o.d 4) never (performBsdec k o) s

/-! ### The generator (R104, R166) -/

/-- R166. -/
def execRngSeed (c : Ctl) (o : O5) (s : State) : Host.Outcome State Fault Refusal :=
  issueReg (.rngSeed c o) (.vary 3) (fun x w => w.mapLanes x.g fun i l => { l with gs := x.val64 o.a i }) s
/-- R166. -/
def execRngRd (c : Ctl) (o : O5) (s : State) : Host.Outcome State Fault Refusal :=
  issueD (.rngRd c o) o.d true (fun x i => (laneOf x.w i).gs) s
/-- R166. -/
def execRngNext (c : Ctl) (o : O5) (s : State) : Host.Outcome State Fault Refusal :=
  issueReg (.rngNext c o) (dstPrice o.d 3) (fun x w =>
    (x.writeD w o.d false fun i => zx64 (genNext (laneOf x.w i).gs).2).mapLanes x.g fun i l =>
      { l with gs := (genNext (laneOf x.w i).gs).1 }) s

/-! ### Special functions and division (R167 to R170) -/

def performSp (fn : SpFn) (ft : FTy) (o : O5) : Iss → Nat → Action :=
  performAlu o.d 1 fun x i => let r := special (ftFmt ft) fn (x.fbits ft o.a i 0); (BitVec.ofNat 128 r.1, r.2)
def performFdiv (ft : FTy) (o : O5) : Iss → Nat → Action :=
  performAlu o.d 1 fun x i =>
    let f := ftFmt ft
    let r := divV f (f.decode (x.fbits ft o.a i 0)) (f.decode (x.fbits ft o.b i 0))
    (BitVec.ofNat 128 r.1, r.2)
def issueSp (i : Instr) (fn : SpFn) (ft : FTy) (o : O5) (s : State) : Host.Outcome State Fault Refusal :=
  issueLong i (dstPrice o.d 6) never (performSp fn ft o) s
/-- R168. -/
def execFrcp (c : Ctl) (ft : FTy) (o : O5) (s : State) : Host.Outcome State Fault Refusal := issueSp (.frcp c ft o) .rcp ft o s
/-- R168. -/
def execFrsq (c : Ctl) (ft : FTy) (o : O5) (s : State) : Host.Outcome State Fault Refusal := issueSp (.frsq c ft o) .rsq ft o s
/-- R168. -/
def execFsqrt (c : Ctl) (ft : FTy) (o : O5) (s : State) : Host.Outcome State Fault Refusal := issueSp (.fsqrt c ft o) .sqrt ft o s
/-- R168. -/
def execFex2 (c : Ctl) (ft : FTy) (o : O5) (s : State) : Host.Outcome State Fault Refusal := issueSp (.fex2 c ft o) .ex2 ft o s
/-- R168. -/
def execFlg2 (c : Ctl) (ft : FTy) (o : O5) (s : State) : Host.Outcome State Fault Refusal := issueSp (.flg2 c ft o) .lg2 ft o s
/-- R168. -/
def execFsinpi (c : Ctl) (ft : FTy) (o : O5) (s : State) : Host.Outcome State Fault Refusal := issueSp (.fsinpi c ft o) .sinpi ft o s
/-- R168. -/
def execFcospi (c : Ctl) (ft : FTy) (o : O5) (s : State) : Host.Outcome State Fault Refusal := issueSp (.fcospi c ft o) .cospi ft o s
/-- R168. -/
def execFtanh (c : Ctl) (ft : FTy) (o : O5) (s : State) : Host.Outcome State Fault Refusal := issueSp (.ftanh c ft o) .tanh ft o s
/-- R169. -/
def execFdiv (c : Ctl) (ft : FTy) (o : O5) (s : State) : Host.Outcome State Fault Refusal :=
  issueLong (.fdiv c ft o) (dstPrice o.d 6) never (performFdiv ft o) s

/-- Lanes of a set that a trap at completion takes together: those at one PC (R115). -/
def pcGroups (w : Warp) (m : Mask) : List Mask :=
  (dedup ((lanesOf (m &&& w.activeSet)).map fun i => (laneOf w i).pc.toNat)).map fun p =>
    maskOf w.width fun i => inMask (m &&& w.activeSet) i && (laneOf w i).pc.toNat == p
/-- Cause 14 of a completed division (R115): RPC is the first instruction not yet issued. -/
def divTrap (wk : Nat) (o : Outst) : Action := acts [
  modWarp wk fun w => w.mapLanes o.mask fun _ l => if l.st == .ejected then { l with st := .grouped } else l,
  look fun s => match find s.warps wk with
    | none => skip
    | some w => forEach (pcGroups w o.mask) fun m => raise wk ⟨m, 14, o.pc, (laneOf w (lowest m)).pc, 0, 0, none⟩]
def isDiv : Instr → Bool
  | .div _ _ _ | .rem _ _ _ => true
  | _ => false
end Sys2Proof.Machine
end

