-- ==== Sys2Proof/Machine/Memory.lean ====
section
/-! DEFINITION. Loads, stores, atomics, slice operations, fences and line clean (R206, R207, R212 to R217, R226, R235 to R247,
R255, R256, R263, R364), and the events that perform them. -/
namespace Sys2Proof.Machine

/-! ### Checks (R237) -/

/-- Translation of an access of the issuing warp. -/
def Iss.xlate (x : Iss) (s : State) (a : AccKind) (ea : DWord) : Except XFault Xlate :=
  if x.w.fw.isSome then xlateFw ea else translate s x.w.ctx (supNow s x.w) a ea
/-- The acting threads: one for an instruction whose operands are all uniform (R235). -/
def Iss.acting (x : Iss) (os : List Opd) : List Nat := if os.all isUni then [lowest x.g] else lanesOf x.g
/-- The replies of an instruction cover the whole group when it acts once. -/
def Iss.replies (x : Iss) (os : List Opd) (lanes : List Nat) : Mask :=
  if os.all isUni then x.g else maskOf x.w.width lanes.contains
/-- A trap of an access: causes 10 and 11 leave the instruction in the replay queue with the group past it, and as far on in its window as it
gets before the walk has failed; others are taken with nothing queued and the group at it (R237, R399; log 22). -/
def Iss.fault (x : Iss) (id cause : Nat) (fva : DWord) (synd : Word) : Action := look fun s =>
  if (cause = 10 || cause = 11) && isLong x.i && x.w.fw.isNone && (ctlOf x.i).look.toNat != 0 then
    addOut x.k { x.out id (.faulty cause fva synd) noRes with mask := x.mask, left := x.g }
  else if cause = 10 || cause = 11 then
    let rpc := match find s.warps x.k with | some w => (laneOf w (lowest x.mask)).pc | none => x.next
    raise x.k ⟨x.mask, cause, x.pc, rpc, fva, synd, some (x.out id .held noRes)⟩
  else x.trap cause fva synd
/-- A trap of its own for that instruction is waiting for a frame: it has performed nothing, and stays as it is (R198, R400). -/
def faultWaits (w : Warp) (o : Outst) : Bool := w.pend.any fun t => t.fpc == o.pc && t.mask &&& o.mask != 0 && (t.cause == 10 || t.cause == 11)
/-- The trap of a failed translation is taken, by each group that the threads are in now. -/
def takeFault (wk id : Nat) : Action := look fun s => match find s.warps wk with
  | none => skip
  | some w => match w.outs.find? fun o => o.id == id with
    | none => skip
    | some o => match o.kind with
      | .faulty c v y => if faultWaits w o then skip else
          forEach (pcGroups w o.mask) fun m => raise wk ⟨m, c, o.pc, (laneOf w (lowest m)).pc, v, y, none⟩
      | _ => skip
/-- The outcome of the checks of R237. -/
inductive Chk where
  | trap (cause : Nat) (fva : DWord) (synd : Word)
  | ok (l : List (Nat × DWord × Xlate))
/-- Alignment of every acting thread, then translation; the lowest failing lane is reported. -/
def Iss.check (x : Iss) (s : State) (a : AccKind) (size mis : Nat) (lanes : List Nat) (ea : Nat → DWord) : Chk :=
  match lanes.find? fun i => (ea i).toNat % size != 0 with
  | some i => .trap mis (ea i) 0
  | none =>
    match lanes.findSome? fun i => match x.xlate s a (ea i) with | .error f => some (i, f) | .ok _ => none with
    | some (i, f) => .trap (faultCause a f) (ea i) (syndrome a f)
    | none => .ok (lanes.filterMap fun i => match x.xlate s a (ea i) with | .ok r => some (i, ea i, r) | .error _ => none)
/-- Walks noted for the pages of the acting threads. -/
def Iss.walks (x : Iss) (a : AccKind) (lanes : List Nat) (ea : Nat → DWord) : Action := look fun s =>
  if x.w.fw.isSome then skip else forEach lanes fun i => noteWalk x.w.ctx (clusterNo x.w.core) (ea i)
    (match x.xlate s a (ea i) with | .ok r => r.lines | .error f => f.lines)
/-- The effect of an access once its checks have passed. -/
def Iss.access (x : Iss) (id : Nat) (a : AccKind) (size mis : Nat) (lanes : List Nat) (ea : Nat → DWord)
    (f : List (Nat × DWord × Xlate) → Action) : Action := look fun s =>
  match x.check s a size mis lanes ea with
  | .trap c v y => acts [if c = mis then skip else x.walks a lanes ea, x.fault id c v y]
  | .ok l => acts [x.walks a lanes ea, f l]
def localOf (l : List (Nat × DWord × Xlate)) : List (Nat × DWord × Nat × Bool) :=
  l.filterMap fun (i, e, r) => match r.dest with | .mem pa c => some (i, e, pa, c) | _ => none
def remoteOf (l : List (Nat × DWord × Xlate)) : List (Nat × DWord × Nat × Nat × Nat) :=
  l.filterMap fun (i, e, r) => match r.dest with | .win p g o => some (i, e, p, g, o) | _ => none
def fwOffset (l : List (Nat × DWord × Xlate)) : Option Nat :=
  l.findSome? fun (_, _, r) => match r.dest with | .fwreg o => some o | _ => none
/-- The agent charged for a warp's accesses. -/
def payer (w : Warp) : Option Nat := if w.fw.isSome then none else some w.ctx
/-- L1 lookups, one per distinct 64 B line (R239). -/
def Iss.lookups (x : Iss) (l : List (Nat × DWord × Nat × Bool)) : Action :=
  chargeW x.w [⟨7, (dedup ((l.filter (·.2.2.2)).map fun a => a.2.1.toNat / 64)).length, clusterNo x.w.core⟩]
/-- The price of a memory instruction: varying issue when any operand is varying (R239). -/
def memPrice (os : List Opd) : Price := if os.any fun o => (match o with | .v _ => true | _ => false) then .vary 3 else .uni
/-- A list in the order that a number picks among all its orders. -/
def shuffle {α : Type} (c : Nat) : List α → List α
  | [] => []
  | a :: r => (shuffle (c / (r.length + 1)) r).insertIdx (c % (r.length + 1)) a
/-- Lanes of one instruction on one location are unordered (R204, R235, R246): any order may be the one. -/
def anyOrder {α : Type} (clash : Bool) (l : List α) (f : List α → Action) : Action :=
  if clash then withFree fun t => f (shuffle (Config.freeChoice t) l) else f l
def clashing (l : List Nat) : Bool := (dedup l).length != l.length

/-! ### The firmware register space (R364) -/

/-- The register at an offset, with its index and width in bytes. -/
def fwRegAt (o : Nat) : Option (RegKind × Nat × Nat) :=
  let at' (base step n size : Nat) (k : RegKind) : Option (RegKind × Nat × Nat) :=
    if base ≤ o ∧ o < base + step * n ∧ (o - base) % step = 0 then some (k, (o - base) / step, size) else none
  (at' 0 4 192 4 .part).orElse fun _ => (at' 0x1000 8 192 8 .s2r).orElse fun _ => (at' 0x2000 4 192 4 .tpeer).orElse fun _ =>
  (at' 0x3000 4 1 4 .peerid).orElse fun _ => (at' 0x3004 4 1 4 .rots).orElse fun _ => (at' 0x3100 4 32 4 .peerp).orElse fun _ =>
  (at' 0x3200 4 32 4 .peere).orElse fun _ => (at' 0x10000 4 2048 4 .fseg).orElse fun _ =>
  (at' 0x100000 4 4096 4 .ohtr).orElse fun _ => (at' 0x110000 4 4096 4 .ompd).orElse fun _ =>
  (at' 0x120000 16 256 4 .otxm).orElse fun _ => (at' 0x120004 16 256 4 .orxm).orElse fun _ =>
  (at' 0x120008 16 256 4 .ostr).orElse fun _ => at' 0x12000C 16 256 4 .oqd
/-- Cause 28. -/
def cauReg : Nat := 28

/-! ### Waits before issue (R214, R216, R217, R227, R228) -/

/-- Where the acting threads of an access lead. -/
def Iss.dests (x : Iss) (s : State) (a : AccKind) (lanes : List Nat) (ea : Nat → DWord) : List (Nat × Where) :=
  lanes.filterMap fun i => match x.xlate s a (ea i) with | .ok r => some (i, r.dest) | .error _ => none
/-- A remote access of one of the threads to some of the same bytes has not been answered, or an epilogue of theirs has still to store there: the
two keep their order (R206, R210, R218). -/
def Iss.clash (x : Iss) (s : State) (lanes : List (Nat × Where)) (n : Nat) : Bool := lanes.any fun (i, d) => match d with
  | .win p g o => epiWindowHit s { x.point s.nextId with lanes := laneBit i } p g o n ||
      s.fabric.remotes.any fun r => r.wk == x.k && (decide (4 ≤ r.kind) || r.lane == i || !inMask x.g r.lane) && r.peer == p &&
      r.ifa.toNat / 2 ^ 40 % 256 == g && meet (dbits r.ifa 0 40) r.bytes o n
  | _ => false
/-- An access leads into a window or to a firmware register. -/
def outside (l : List (Nat × Where)) : Bool := l.any fun e => match e.2 with | .mem _ _ => false | _ => true
/-- An access through a fabric window is made once issued: it waits for the earlier acquires of its threads (R216) and for what of
theirs is on the same bytes; a write for their earlier reads and release fences (R214, R217); a release for the writes it
orders (R228; log 23). A firmware register is written at once. -/
def Iss.winBusy (x : Iss) (write : Bool) (rel : Option Scope) (a : AccKind) (n : Nat) (lanes : List Nat) (ea : Nat → DWord) (s : State) : Bool :=
  let ds := x.dests s a lanes ea
  outside ds && (readBusy x s || x.clash s ds n ||
    (write && (writeBusy x s || !fencesGone s (x.point s.nextId))) ||
    (match rel with | some sc => !relDone s sc (x.point s.nextId) | none => false))

/-! ### Loads (R207, R238, R242, R256) -/

/-- A load's results to come: a local part that reads memory and a remote part answered by the fabric (R262). -/
def performLoad (bytes : Nat) (sext acq gath : Bool) (sc : Scope) (wide : Nat) (o : OM) (x : Iss) (id : Nat) : Action :=
  let os := if gath then [o.data] else [o.addr]
  let lanes := x.acting os
  x.access id .read bytes 12 lanes (x.ea o) fun l => look fun s =>
    let res := x.res o.data wide fun _ => (0, 0)
    match fwOffset l with
    | some off => match fwRegAt off with
      | some (k, n, w) =>
        if w = bytes then addOut x.k (x.out id (.reply 0) (x.res o.data wide fun _ => ((reg s k n).setWidth 128, 0)))
        else x.trap cauReg (x.ea o (lowest x.g)) 0
      | none => x.trap cauReg (x.ea o (lowest x.g)) 0
    | none =>
      let loc := localOf l
      let rem := remoteOf l
      let bypass := gath || (ctlOf x.i).hint == 3
      let todo := loc.map fun (i, e, pa, c) => (⟨i, e.toNat, pa, c⟩ : LdLane)
      let lm := x.replies os (loc.map (·.1))
      let rm := x.replies os (rem.map (·.1))
      let mk (id : Nat) (k : OutKind) (m : Mask) : Outst := { x.out id k res with act := m, left := m, acq := acq }
      let remote (id : Nat) : Action := acts [addOut x.k (mk id (.remote bytes sext) rm),
        forEach rem fun (i, _, p, g, off) => remoteReq x.w.ctx x.k id i 0 p g off bytes 0 []]
      acts [
        if bypass then skip else x.lookups loc,
        if loc.isEmpty then skip else addOut x.k (mk id (.load sc bytes sext gath todo) lm),
        if rem.isEmpty then skip
        else if loc.isEmpty then remote id
        else withId fun id2 => acts [remote id2,
          modWarp x.k fun w => w.mapLanes x.mask fun _ l => { l with
            wins := l.wins ++ (l.wins.filter fun v => v.id == id).map fun v => { v with id := id2 } }]]
def ldBusy (bytes : Nat) (os : List Opd) (o : OM) (x : Iss) (s : State) : Bool := x.winBusy false none .read bytes (x.acting os) (x.ea o) s
def ldSigned : LdSz → Bool
  | .i8 | .i16 => true
  | _ => false
def regsOf (bytes : Nat) : Nat := if bytes ≤ 4 then 1 else bytes / 4
def performLd (sz : LdSz) (acq : Bool) (sc : Scope) (o : OM) : Iss → Nat → Action :=
  performLoad (WF.ldBytes sz) (ldSigned sz) acq false sc (regsOf (WF.ldBytes sz)) o
/-- R242. -/
def execLd (c : Ctl) (sz : LdSz) (acq : Bool) (sc : Scope) (o : OM) (s : State) : Host.Outcome State Fault Refusal :=
  issueLong (.ld c sz acq sc o) (memPrice [o.data, o.addr]) (ldBusy (WF.ldBytes sz) [o.addr] o) (performLd sz acq sc o) s
def performHgath (wide : Bool) (o : OM) : Iss → Nat → Action :=
  performLoad (if wide then 8 else 4) false false true .dev (wn wide) o
/-- R256. -/
def execHgath (c : Ctl) (wide : Bool) (o : OM) (s : State) : Host.Outcome State Fault Refusal :=
  issueLong (.hgath c wide o) (memPrice [o.data, o.addr]) (ldBusy (if wide then 8 else 4) [o.data] o) (performHgath wide o) s

/-! ### Stores (R206, R242) -/

/-- The low bytes of a store's data. -/
def Iss.dataBytes (x : Iss) (o : Opd) (size i : Nat) : List Byte :=
  le size (wordsNat (if size ≤ 4 then [x.val o i] else x.words o (size / 4) i))
/-- The point of an acting thread: the whole group where it acts as one. -/
def Iss.thread (x : Iss) (id : Nat) (lanes : List Nat) (i : Nat) : Point :=
  { x.point id with lanes := if lanes.length = 1 then x.g else laneBit i }
/-- A store: its thread, address, physical address, policy and bytes. -/
structure StoreOp where
  po : Point
  va : Nat
  pa : Nat
  cached : Bool
  bytes : List Byte
/-- The class of a home access at a line that none before it of its instruction has charged. -/
def firstOfLine (before : List Nat) (pa : Nat) : Nat := if before.any fun b => b / 64 == pa / 64 then 0 else 9
/-- Stores of an instruction, issued: they wait to enter the core's L1 and for their homes; a line is charged once (R206, R239). -/
def addStores (rel : Option Scope) (hint : Nat) (l : List StoreOp) : Action :=
  forEach (mapI (fun j e => (j, e)) l) fun (j, e) s =>
    [.stores (s.stores ++ [⟨s.nextId, e.po, e.va, e.pa, e.bytes, rel, e.cached,
      firstOfLine ((l.take j).map (·.pa)) e.pa, hint, none, [], none⟩]), .nextId (s.nextId + 1)]
def stBusy (size : Nat) (rel : Bool) (sc : Scope) (o : OM) (x : Iss) (s : State) : Bool :=
  x.winBusy true (if rel then some sc else none) .write size (x.acting [o.data, o.addr]) (x.ea o) s
def performSt (size : Nat) (rel : Bool) (sc : Scope) (o : OM) (x : Iss) (id : Nat) : Action :=
  let lanes := x.acting [o.data, o.addr]
  x.access id .write size 12 lanes (x.ea o) fun l => acts [noRestart x.w.wg,
    match fwOffset l with
    | some off => match fwRegAt off with
      | some (k, n, w) => if w = size then writeReg k n (dw (leNat (x.dataBytes o.data size (lowest x.g)))) else x.trap cauReg (x.ea o (lowest x.g)) 0
      | none => x.trap cauReg (x.ea o (lowest x.g)) 0
    | none =>
      let loc := localOf l
      acts [x.lookups loc,
        anyOrder (clashing (loc.map (·.2.2.1))) loc fun loc =>
          addStores (if rel then some sc else none) (ctlOf x.i).hint.toNat
            (loc.map fun (i, e, pa, c) => ⟨x.thread id lanes i, e.toNat, pa, c, x.dataBytes o.data size i⟩),
        forEach (remoteOf l) fun (i, _, p, g, off) =>
          remoteReq x.w.ctx x.k 0 i 2 p g off size 0 (x.dataBytes o.data size i)]]
/-- R242. -/
def execSt (c : Ctl) (sz : StSz) (rel : Bool) (sc : Scope) (o : OM) (s : State) : Host.Outcome State Fault Refusal :=
  issueLong (.st c sz rel sc o) (memPrice [o.data, o.addr])
    (stBusy (WF.stBytes sz) rel sc o) (performSt (WF.stBytes sz) rel sc o) s
def performLcln (o : OM) (x : Iss) (id : Nat) : Action :=
  let lanes := x.acting [o.addr]
  x.access id .clean 1 12 lanes (x.ea o) fun l => match fwOffset l with
    | some _ => x.trap cauReg (x.ea o (lowest x.g)) 0
    | none => forEach (localOf l) fun (_, e, _, _) => l1Clean x.w.core x.w.ctx e.toNat
/-- R244. -/
def execLcln (c : Ctl) (o : OM) (s : State) : Host.Outcome State Fault Refusal :=
  issueLong (.lcln c o) (memPrice [o.addr]) writeBusy (performLcln o) s

/-! ### Atomics and slice reductions (R213, R245, R246, R255) -/

inductive Rmw where | add | smin | umin | smax | umax | and | or | xor | exch | cas | fadd
  deriving DecidableEq, Repr
def Rmw.num : Rmw → Nat
  | .add => 0 | .smin => 1 | .umin => 2 | .smax => 3 | .umax => 4 | .and => 5 | .or => 6 | .xor => 7 | .exch => 8
  | .cas => 9 | .fadd => 10
def Rmw.ofNum : Nat → Rmw
  | 0 => .add | 1 => .smin | 2 => .umin | 3 => .smax | 4 => .umax | 5 => .and | 6 => .or | 7 => .xor | 8 => .exch
  | 9 => .cas | _ => .fadd
/-- The new value at the location (R245). -/
def Rmw.new (op : Rmw) (wide : Bool) (old x cmp : DWord) : DWord :=
  let sg (v : DWord) : Int := if wide then v.toInt else (lo32 v).toInt
  let r : DWord := match op with
    | .add => old + x
    | .smin => if sg x < sg old then x else old
    | .umin => if x.toNat < old.toNat then x else old
    | .smax => if sg old < sg x then x else old
    | .umax => if old.toNat < x.toNat then x else old
    | .and => old &&& x
    | .or => old ||| x
    | .xor => old ^^^ x
    | .exch => x
    | .cas => if old = cmp then x else old
    | .fadd => dw (addV fp32 (fp32.decode (lo32 old).toNat) (fp32.decode (lo32 x).toNat)).1
  if wide then r else zx64 (lo32 r)
/-- RMWs of an instruction, issued: each is performed at its home, or in the core's L1 at scope warp or core through a cached mapping
(R213, R246). -/
def addRmws (rel : Option Scope) (hint : Nat) (l : List (StoreOp × RmwOp × Nat)) : Action :=
  forEach l fun (e, r, cls) s =>
    [.stores (s.stores ++ [⟨s.nextId, e.po, e.va, e.pa, e.bytes, rel, e.cached, cls, hint, none, [], some r⟩]), .nextId (s.nextId + 1)]
/-- The value an RMW leaves, as bytes. -/
def RmwOp.bytes (r : RmwOp) (old : DWord) : List Byte :=
  le (if r.wide then 8 else 4) ((Rmw.ofNum r.op).new r.wide old r.x r.cmp).toNat
/-- The old value goes to its lane, which awaits its reply. -/
def rmwReturn (wk : Nat) (r : RmwOp) (old : DWord) : Action :=
  match r.ret with
  | none => skip
  | some (out, lane) => modOut wk out fun o =>
      let whole := isUni o.res.dst
      { o with
        kind := match o.kind with
          | .reply todo => .reply (if whole then 0 else todo &&& ~~~laneBit lane)
          | k => k
        res := { o.res with vals := if whole then [old.setWidth 128] else setAt o.res.vals lane (old.setWidth 128) } }
/-- The agent charged for a store. -/
def PStore.payer (q : PStore) : Option Nat := if q.po.core < 768 then some q.po.ctx else none
def modStore (id : Nat) (f : PStore → PStore) : Action := fun s => [.stores (s.stores.map fun q => if q.id = id then f q else q)]
def dropStore (id : Nat) : Action := fun s => [.stores (s.stores.filter fun q => q.id != id)]
/-- A store enters the L1 of its core, where other threads see it (R206). An RMW at scope warp or core is performed there: it reads the
line, and its value goes on as a store (R246). A release fence at such a scope is done. -/
def enterStore (q : PStore) : Action :=
  let enter : Action := fun s => modStore q.id (fun q => { q with entered := some s.nextId }) s
  match q.rmw with
  | some r => acts [
      look fun s => if (l1Find (coreOf s q.po.core) q.po.ctx q.va).isSome then skip else acts [
        if q.hint = 3 then l1Refresh q.po.core q.po.ctx q.pa else l1Fill q.po.core q.po.ctx q.va q.pa q.hint,
        homeHinted q.payer (clusterNo q.po.core) q.hint false [q.pa / 64]],
      look fun s =>
        let old := dw (leNat (match l1Find (coreOf s q.po.core) q.po.ctx q.va with
          | some ln => (List.range q.bytes.length).map fun i => nth ln.bytes (q.va % 64 + i) 0
          | none => overlay s (corePoint q.po.core q.po.ctx) q.pa q.bytes.length))
        acts [
          noteRead q.po,
          modStore q.id fun q => { q with bytes := r.bytes old, rmw := none }, enter,
          l1Store q.po.core q.po.ctx q.pa (r.bytes old), rmwReturn q.po.wk r old]]
  | none =>
    if q.bytes.isEmpty then (if q.relFar then enter else dropStore q.id)
    else acts [enter, l1Store q.po.core q.po.ctx q.pa q.bytes]
/-- What enters an L1 by itself, before it is performed: all but an access through an uncached mapping or an RMW at the home. -/
def PStore.entersFirst (q : PStore) : Bool :=
  q.entered.isNone && (q.bytes.isEmpty || (q.cached && match q.rmw with | some r => r.near | none => true))
/-- The own event of a store's entry. -/
def enterPending (id : Nat) : Action := look fun s => match s.stores.find? fun q => q.id == id with
  | some q => if q.entersFirst && mayEnter s q then enterStore q else skip
  | none => skip
/-- Lines of a run that the LLC does not hold. -/
def absentLines (s : State) (pa n : Nat) : List Nat := (linesOf pa n).filter fun l => s.llc.all fun e => e.line != l
/-- A write charged as it is performed: its home access or slice message, and the fills it meets, which go with the reply where there is one
(R239, R336). -/
def PStore.pay (q : PStore) : Action := look fun s =>
  let fills := (absentLines s q.pa q.bytes.length).length
  acts [
    if q.cls = 0 then skip else charge q.payer [⟨q.cls, 1, homeCluster q.pa⟩],
    if fills = 0 then skip else match q.rmw.bind (·.ret) with
      | some (out, _) => if (outsAt s q.po).any fun o => o.id == out then modOut q.po.wk out fun o => { o with fills := o.fills + fills }
          else charge q.payer [⟨11, fills, clusterNo q.po.core⟩]
      | none => charge q.payer [⟨11, fills, clusterNo q.po.core⟩],
    llcTouches (linesOf q.pa q.bytes.length) q.hint (some q.payer)]
/-- Bytes written at the home by an agent that reaches them by a policy: lines that other policies fill do not show it (R231).
As a sink a store retires then (R288; log 65). -/
def PStore.write (q : PStore) (bs : List Byte) : Action := acts [
  pokeAs (!q.cached) q.pa bs,
  if q.cached && q.entered.isNone then l1Store q.po.core q.po.ctx q.pa bs else skip,
  q.pay,
  if q.po.core < 768 then sink q.po.ctx else skip]
/-- A store or RMW performed at its home: a sink when it retires (R206, R242, R246). -/
def performStore (q : PStore) : Action := acts [
  dropStore q.id,
  match q.rmw with
  | some r => look fun s =>
      let old := dw (memNat s.mem q.pa q.bytes.length)
      acts [q.write (r.bytes old), rmwReturn q.po.wk r old,
        if r.acq then l1Discard q.po.core else skip]
  | none => if q.bytes.isEmpty then skip else q.write q.bytes]
/-- R206, R215: a store accepted at its home, through the L1 if it goes there. -/
def execStorePerformed (id : Nat) (s : State) : Host.Outcome State Fault Refusal :=
  event (acts [
    look fun s => match s.stores.find? fun q => q.id == id with
      | some q => if storeReady s q && q.entersFirst then enterStore q else skip
      | none => skip,
    look fun s => match s.stores.find? fun q => q.id == id with
      | some q => if storeReady s q then performStore q else skip
      | none => skip]) s

/-- The operands of a lane: x and cmp. -/
def Iss.rmwArgs (x : Iss) (op : Rmw) (wide : Bool) (o : Opd) (i : Nat) : DWord × DWord :=
  if op == .cas then
    let ws := x.words o (2 * wn wide) i
    (dw (wordsNat (ws.drop (wn wide))), dw (wordsNat (ws.take (wn wide))))
  else (x.valW wide o i, 0)
def hasAcq : AOrd → Bool | .acq | .ar => true | _ => false
def hasRel : AOrd → Bool | .rel | .ar => true | _ => false
/-- Operands whose classes decide whether an atomic acts once; `cas` data is varying. -/
def atomOps (op : Rmw) (o : OM) : List Opd := if op == .cas then [.v 0] else [o.data, o.addr]
def performAtom (op : Rmw) (ord : AOrd) (sc : Scope) (nr wide : Bool) (o : OM) (x : Iss) (id : Nat) : Action :=
  let n := if wide then 8 else 4
  let os := atomOps op o
  let lanes := x.acting os
  let rel := if hasRel ord then some sc else none
  x.access id .rmw n 13 lanes (x.ea o) fun l => match fwOffset l with
    | some _ => x.trap cauReg (x.ea o (lowest x.g)) 0
    | none =>
      let loc := localOf l
      let rem := remoteOf l
      let home (c : Bool) : Bool := !near sc || !c
      let lines := dedup ((loc.filter fun a => home a.2.2.2).map fun a => a.2.2.1 / 64)
      let res := x.res o.data (wn wide) fun _ => (0, 0)
      let mk (id : Nat) (k : Mask → OutKind) (ls lines : List Nat) : Outst :=
        let m := x.replies os ls
        { x.out id (k m) res with act := m, left := m, acq := hasAcq ord, lines := lines }
      let remote (id : Nat) : Action := acts [
        if nr then skip else addOut x.k (mk id (fun _ => .remote n false) (rem.map (·.1)) []),
        forEach rem fun (i, _, p, g, off) =>
          let a := x.rmwArgs op wide o.data i
          remoteReq x.w.ctx x.k id i (if nr then 3 else 1) p g off n op.num (le n a.1.toNat ++ le n a.2.toNat)]
      acts [
        noRestart x.w.wg,
        if nr || loc.isEmpty then skip else addOut x.k (mk id .reply (loc.map (·.1)) lines),
        anyOrder (clashing (loc.map (·.2.2.1))) loc fun loc => addRmws rel (ctlOf x.i).hint.toNat
          (mapI (fun j (i, e, pa, c) =>
            let a := x.rmwArgs op wide o.data i
            (⟨x.thread id lanes i, e.toNat, pa, c, le n 0⟩,
              ⟨op.num, wide, a.1, a.2, !home c, hasAcq ord && !near sc, if nr then none else some (id, i)⟩,
              if home c && !nr then 0 else firstOfLine ((loc.take j).map (·.2.2.1)) pa)) loc),
        if nr && hasAcq ord then withId fun f => addOut x.k { x.out f (.fence .acq sc) noRes with mask := x.g, left := 0 } else skip,
        if rem.isEmpty then skip
        else if loc.isEmpty || nr then remote id
        else withId fun id2 => acts [remote id2,
          modWarp x.k fun w => w.mapLanes x.mask fun _ l => { l with
            wins := l.wins ++ (l.wins.filter fun v => v.id == id).map fun v => { v with id := id2 } }]]
def atomBusy (op : Rmw) (ord : AOrd) (sc : Scope) (wide : Bool) (o : OM) (x : Iss) (s : State) : Bool :=
  x.winBusy true (if hasRel ord then some sc else none) .rmw (if wide then 8 else 4) (x.acting (atomOps op o)) (x.ea o) s
def issueAtom (i : Instr) (op : Rmw) (ord : AOrd) (sc : Scope) (nr wide : Bool) (o : OM) (s : State) :
    Host.Outcome State Fault Refusal :=
  issueLong i (memPrice [o.data, o.addr]) (atomBusy op ord sc wide o) (performAtom op ord sc nr wide o) s
/-- R245. -/
def execAtomAdd (c : Ctl) (ord : AOrd) (sc : Scope) (nr wide : Bool) (o : OM) (s : State) : Host.Outcome State Fault Refusal :=
  issueAtom (.atomAdd c ord sc nr wide o) .add ord sc nr wide o s
/-- R245. -/
def execAtomSmin (c : Ctl) (ord : AOrd) (sc : Scope) (nr wide : Bool) (o : OM) (s : State) : Host.Outcome State Fault Refusal :=
  issueAtom (.atomSmin c ord sc nr wide o) .smin ord sc nr wide o s
/-- R245. -/
def execAtomUmin (c : Ctl) (ord : AOrd) (sc : Scope) (nr wide : Bool) (o : OM) (s : State) : Host.Outcome State Fault Refusal :=
  issueAtom (.atomUmin c ord sc nr wide o) .umin ord sc nr wide o s
/-- R245. -/
def execAtomSmax (c : Ctl) (ord : AOrd) (sc : Scope) (nr wide : Bool) (o : OM) (s : State) : Host.Outcome State Fault Refusal :=
  issueAtom (.atomSmax c ord sc nr wide o) .smax ord sc nr wide o s
/-- R245. -/
def execAtomUmax (c : Ctl) (ord : AOrd) (sc : Scope) (nr wide : Bool) (o : OM) (s : State) : Host.Outcome State Fault Refusal :=
  issueAtom (.atomUmax c ord sc nr wide o) .umax ord sc nr wide o s
/-- R245. -/
def execAtomAnd (c : Ctl) (ord : AOrd) (sc : Scope) (nr wide : Bool) (o : OM) (s : State) : Host.Outcome State Fault Refusal :=
  issueAtom (.atomAnd c ord sc nr wide o) .and ord sc nr wide o s
/-- R245. -/
def execAtomOr (c : Ctl) (ord : AOrd) (sc : Scope) (nr wide : Bool) (o : OM) (s : State) : Host.Outcome State Fault Refusal :=
  issueAtom (.atomOr c ord sc nr wide o) .or ord sc nr wide o s
/-- R245. -/
def execAtomXor (c : Ctl) (ord : AOrd) (sc : Scope) (nr wide : Bool) (o : OM) (s : State) : Host.Outcome State Fault Refusal :=
  issueAtom (.atomXor c ord sc nr wide o) .xor ord sc nr wide o s
/-- R245. -/
def execAtomExch (c : Ctl) (ord : AOrd) (sc : Scope) (nr wide : Bool) (o : OM) (s : State) : Host.Outcome State Fault Refusal :=
  issueAtom (.atomExch c ord sc nr wide o) .exch ord sc nr wide o s
/-- R245. -/
def execAtomCas (c : Ctl) (ord : AOrd) (sc : Scope) (nr wide : Bool) (o : OM) (s : State) : Host.Outcome State Fault Refusal :=
  issueAtom (.atomCas c ord sc nr wide o) .cas ord sc nr wide o s
/-- R245, R246. -/
def execAtomFaddF32 (c : Ctl) (ord : AOrd) (sc : Scope) (nr : Bool) (o : OM) (s : State) : Host.Outcome State Fault Refusal :=
  issueAtom (.atomFaddF32 c ord sc nr o) .fadd ord sc nr false o s

/-- The class of the element that begins a slice message: up to 16 elements to one home travel together (R239, R255). -/
def firstOfMessage (before : List Nat) (pa : Nat) : Nat :=
  if (before.filter fun b => homeCluster b == homeCluster pa).length % 16 = 0 then 10 else 0
def sredRmw : SredOp → Rmw
  | .add => .add | .fadd => .fadd | .smin => .smin | .umin => .umin | .smax => .smax | .umax => .umax | .and => .and
  | .or => .or | .xor => .xor
def performSred (op : SredOp) (o : OM) (x : Iss) (id : Nat) : Action :=
  let lanes := x.acting [o.data, o.addr]
  x.access id .rmw 4 13 lanes (x.ea o) fun l => match fwOffset l with
    | some _ => x.trap cauReg (x.ea o (lowest x.g)) 0
    | none =>
      let loc := localOf l
      acts [
        noRestart x.w.wg,
        anyOrder (clashing (loc.map (·.2.2.1))) loc fun loc => addRmws none (ctlOf x.i).hint.toNat (mapI (fun j (i, e, pa, c) =>
          (⟨x.thread id lanes i, e.toNat, pa, c, le 4 0⟩, ⟨(sredRmw op).num, false, zx64 (x.val o.data i), 0, false, false, none⟩,
            firstOfMessage ((loc.take j).map (·.2.2.1)) pa)) loc),
        forEach (remoteOf l) fun (i, _, p, g, off) =>
          remoteReq x.w.ctx x.k id i 3 p g off 4 (sredRmw op).num (le 4 (x.val o.data i).toNat ++ zeros 4)]
def sredBusy (o : OM) (x : Iss) (s : State) : Bool := x.winBusy true none .rmw 4 (x.acting [o.data, o.addr]) (x.ea o) s
/-- R255. -/
def execSred (c : Ctl) (op : SredOp) (o : OM) (s : State) : Host.Outcome State Fault Refusal :=
  issueLong (.sred c op o) (memPrice [o.data, o.addr]) (sredBusy o) (performSred op o) s

/-! ### Fences (R217, R247) -/

/-- A fence that later writes of its threads follow, at their core or on their way to it: `rel` and `ar` below scope dev. -/
def orders (ord : FOrd) (sc : Scope) : Bool := (ord == .rel || ord == .ar) && !(sc == .dev || sc == .fab)
/-- A fence that holds every later access of its threads until it completes: all but a release below scope dev. -/
def holds (ord : FOrd) (sc : Scope) : Bool := !(ord == .rel && orders ord sc)
def performFence (ord : FOrd) (sc : Scope) (x : Iss) (id : Nat) : Action := acts [
  if orders ord sc then addStores (some sc) 0 [⟨x.point id, 0, 0, true, []⟩] else skip,
  if holds ord sc then withId fun f => addOut x.k { x.out f (.fence ord sc) noRes with mask := x.g, left := 0 } else skip]
/-- R247. -/
def execFence (c : Ctl) (ord : FOrd) (sc : Scope) (o : OX) (s : State) : Host.Outcome State Fault Refusal :=
  issueLong (.fence c ord sc o) .uni never (performFence ord sc) s
/-- Whether what a fence orders is done: the earlier reads of its threads (R216), and the writes it releases (R217). -/
def fenceReady (s : State) (p : Point) (ord : FOrd) (sc : Scope) : Bool :=
  readsDone s p && (if ord == .acq || orders ord sc then true else if near sc then nearDone s p else relDone s sc p)
/-- R217, R247: the lines that an acquire discards go, and held accesses proceed. -/
def execFenceComplete (wk id : Nat) (s : State) : Host.Outcome State Fault Refusal :=
  event (look fun s => match find s.warps wk with
    | none => skip
    | some w => match w.outs.find? fun o => o.id == id with
      | none => skip
      | some o => match o.kind with
        | .fence ord sc => if fenceReady s (o.point w wk o.mask) ord sc then
            acts [dropOut wk id, if ord != .rel && !near sc then l1Discard w.core else skip] else skip
        | _ => skip) s

/-! ### wpeer (R263) -/

/-- The window that a context's address is in, by its cached translation or by its table, and the lines that a walk of the table reads; none where
the table holds an invalid descriptor or does not translate (log 70). -/
def windowAt (s : State) (ctx : Nat) (ea : DWord) : Option (Nat × Nat) × List Nat :=
  match s.tlb.find? fun t => t.ctx == ctx && t.page == ea.toNat / 65536 with
  | some t => (t.win.map fun w => (w.1, w.2.1), [])
  | none => match findWindow s ctx ea.toNat with
    | .ok (w, ls) => (w.map fun w => (w.peer, w.seg), ls)
    | .error f => (none, f.lines)
/-- The report on an effective address. -/
def wpeerVal (s : State) (x : Iss) (ea : DWord) : Word :=
  if x.w.fw.isSome then 0 else
  match (windowAt s x.w.ctx ea).1 with
  | some (peer, seg) => wd (2 ^ 20 + peer % 4096 + seg % 256 * 4096 + (if (peerCheck s (ctxTenant s x.w.ctx) peer).isNone then 2 ^ 21 else 0))
  | none => 0
def performWpeer (o : OM) (x : Iss) (id : Nat) : Action := look fun s => acts [
  if x.w.fw.isSome then skip else forEach (x.acting [o.addr]) fun i =>
    noteWalk x.w.ctx (clusterNo x.w.core) (x.ea o i) (windowAt s x.w.ctx (x.ea o i)).2,
  addOut x.k (x.out id (.reply 0) (x.res o.data 1 fun i => ((wpeerVal s x (x.ea o i)).setWidth 128, 0)))]
/-- R263. -/
def execWpeer (c : Ctl) (o : OM) (s : State) : Host.Outcome State Fault Refusal :=
  issueLong (.wpeer c o) .uni never (performWpeer o) s

/-! ### Walks and write-backs (R239, R374, R375) -/

/-- R375: the lines of a walk are charged, and its translation may be cached. -/
def execPageWalkComplete (id : Nat) (s : State) : Host.Outcome State Fault Refusal :=
  event (look fun s => match s.walks.find? fun w => w.id == id with
    | none => skip
    | some w => acts [
        fun s => [.walks (s.walks.filter fun v => v.id != id)],
        homeAccess (some w.ctx) w.cluster false w.lines,
        withFree fun t s =>
          match (if Config.freeChoice t % 2 = 0 then none else tlbFill s w.ctx w.va) with
          | some e => [.tlb ((s.tlb.filter fun v => !(v.ctx == e.ctx && v.page == e.page)) ++ [e])]
          | none => []]) s
/-- R239: a line leaves the LLC; a dirty one is written back. -/
def execLineWriteback (line : Nat) (s : State) : Host.Outcome State Fault Refusal :=
  event (look fun s => match s.llc.find? fun e => e.line == line with
    | none => skip
    | some e => acts [
        fun s => [.llc (s.llc.filter fun v => v.line != line)],
        if !e.dirty then skip else
          charge (e.ctx.map fun n => if ctxValid s n then n else ownerOf s (ctxTenant s n)) [⟨11, 1, homeCluster (64 * line)⟩]]) s

end Sys2Proof.Machine
end

