-- ==== Sys2Proof/Machine/Tile.lean ====
section
/-! DEFINITION. Tiles: tagged and untagged scratchpad accesses, arming, arrivals and their retries (R220 to R222, R243, R248 to
R254, R264), and the replies of memory and tile reads (R238). -/
namespace Sys2Proof.Machine

/-! ### Tags and grants (R248) -/

/-- Consuming instructions of a workgroup still waiting for a physical tile, by age. -/
def consumers (s : State) (gk : Nat) (g : Workgroup) (p : Nat) : List Nat :=
  (g.warps.flatMap fun e => match find s.warps e.2 with
    | some w => w.outs.filterMap fun o => match o.kind with
      | .tile ts true false _ => if ts.contains p then some o.id else none
      | _ => none
    | none => []) ++
  ((clusterOf s (clusterNo g.core)).table.filterMap fun e =>
    if e.wg == gk && e.take && !e.granted && (tileRun g e.tile e.n).contains p then some e.id else none) ++
  ((clusterOf s (clusterNo g.core)).cards.filterMap fun c =>
    if c.wg == gk && !c.running && c.takes && (c.inTiles g).contains p then some c.id else none)
/-- A FULL tile that no consuming instruction holds is granted to the oldest waiting one. -/
def regrant (gk : Nat) (p : Nat) : Action := look fun s =>
  match find s.wgs gk with
  | none => skip
  | some g =>
    let t := tileOf (coreOf s g.core) p
    if t.tag == .full && t.grant.isNone then
      match minNat? (consumers s gk g p) with
      | some i => modTile g.core p fun x => { x with grant := some i }
      | none => skip
    else skip
/-- A tagged read proceeds: every tile FULL, and granted to it if it consumes. -/
def tilesReady (s : State) (core id : Nat) (take : Bool) (ts : List Nat) : Bool :=
  ts.all fun p => isFull s core p && (!take || (tileOf (coreOf s core) p).grant == some id)
def padWrite (core a : Nat) (bs : List Byte) : Action := modTile core (a / 2048) fun t =>
  { t with bytes := (mapI (fun i b => (a % 2048 + i, b)) bs).foldl (fun m e => putD m e.1 e.2 0) t.bytes }

/-- The tiles of the issuing workgroup. -/
def Iss.tiles (x : Iss) (s : State) : List Nat := match wgOf s x.w with | some g => g.tiles | none => []
def cauTile : Nat := 17
def cauMisAtom : Nat := 13
def cauState : Nat := 22
def cauBounds : Nat := 23
def cauTarget : Nat := 24

/-! ### lds and sts (R243) -/

/-- The scratchpad checks: alignment of every acting thread, then the allotment; then the effect, with physical addresses. -/
def Iss.pad (x : Iss) (size : Nat) (os : List Opd) (o : OM) (f : List (Nat × Nat) → Action) : Action := look fun s =>
  let lanes := x.acting os
  let off (i : Nat) : Nat := (x.ea o i).toNat
  match lanes.find? fun i => off i % size != 0 with
  | some i => x.trap cauMisAtom (x.ea o i) 0
  | none => match lanes.find? fun i => 2048 * (x.tiles s).length ≤ off i with
    | some i => x.trap cauTile (x.ea o i) 0
    | none => acts [
        chargeW x.w [⟨8, (dedup (lanes.map fun i => off i / 64)).length, clusterNo x.w.core⟩],
        f (lanes.map fun i => (i, 2048 * nth (x.tiles s) (off i / 2048) 0 + off i % 2048))]
/-- A byte address per lane, or one for a uniform destination. -/
def spread (w : Nat) (d : Opd) (l : List (Nat × Nat)) : List Nat :=
  match d with
  | .s _ => l.map (·.2)
  | _ => (List.range w).map fun i => ((l.find? fun e => e.1 == i).map (·.2)).getD 0
def performLds (size : Nat) (tag : LdsTag) (o : OM) (x : Iss) (id : Nat) : Action :=
  x.pad size [o.addr] o fun l => look fun s =>
    let offs := spread x.w.width o.data l
    let n := regsOf size
    match tag with
    | .ut => addOut x.k (x.out id (.reply 0) (x.res o.data n fun i =>
        let a := match o.data with | .s _ => nth offs 0 0 | _ => nth offs i 0
        (loadVal false (padRead s x.w.core a size), 0)))
    | t =>
      let ts := dedup (l.map fun e => e.2 / 2048)
      acts [addOut x.k { x.out id (.tile ts (t == .take) false offs) (x.res o.data n fun _ => (0, 0)) with units := BitVec.ofNat 32 size },
        forEach ts fun p => regrant x.w.wg p]
/-- R243. -/
def execLds (c : Ctl) (sz : TSz) (tag : LdsTag) (o : OM) (s : State) : Host.Outcome State Fault Refusal :=
  issueLong (.lds c sz tag o) (memPrice [o.data, o.addr]) readBusy (performLds (WF.tBytes sz) tag o) s
def performSts (size : Nat) (o : OM) (x : Iss) (_id : Nat) : Action :=
  x.pad size [o.data, o.addr] o fun l => anyOrder (clashing (l.map (·.2))) l fun l =>
    forEach l fun (i, a) => padWrite x.w.core a (x.dataBytes o.data size i)
/-- A write that other threads of the core see at once follows the release fences of its threads there (R217, R222). -/
def stsBusy (x : Iss) (s : State) : Bool := writeBusy x s || !fencesNear s (x.point s.nextId)
/-- R243. -/
def execSts (c : Ctl) (sz : TSz) (o : OM) (s : State) : Host.Outcome State Fault Refusal :=
  issueLong (.sts c sz o) (memPrice [o.data, o.addr]) stsBusy (performSts (WF.tBytes sz) o) s

/-! ### tarm and take (R250 to R252) -/

/-- A `tarm` of a tile whose consuming instruction has been granted and has not retired waits (R248). -/
def tarmBusy (o : OT) (x : Iss) (s : State) : Bool :=
  let t := x.tileNo o
  writeBusy x s || !fencesGone s (x.point s.nextId) || decide (t < (x.tiles s).length) &&
    (let r := tileOf (coreOf s x.w.core) (nth (x.tiles s) t 0)
     r.tag == .full && r.grant.isSome)
/-- The tile is looked at before the filter word (R251; log 70). -/
def performTarm (o : OT) (x : Iss) (_id : Nat) : Action := look fun s =>
  let t := x.tileNo o
  let p := nth (x.tiles s) t 0
  let f : Option Word := match o.data with | .s n => some (x.w.rdS n.val) | _ => none
  if (x.tiles s).length ≤ t then x.trap cauTile 0 0
  else if (match f with | some w => wbits w 23 9 != 0 || decide (767 < wbits w 0 10) | none => false) then x.trap cauIllegal 0 0
  else match (tileOf (coreOf s x.w.core) p).tag with
    | .empty => modTile x.w.core p fun r => { r with tag := .armed o.count.toNat 0, filter := f, grant := none }
    | _ => x.trap cauState 0 0
/-- R250. -/
def execTarm (c : Ctl) (o : OT) (s : State) : Host.Outcome State Fault Refusal :=
  issueLong (.tarm c o) .uni (tarmBusy o) (performTarm o) s
/-- The allotment is looked at before the bounds (R252; log 70). -/
def performTake (size : Nat) (o : OT) (x : Iss) (id : Nat) : Action := look fun s =>
  let t := x.tileNo o
  let p := nth (x.tiles s) t 0
  let off := (x.eaT o (lowest x.g)).toNat
  let reads := o.data != .none
  if reads && off % size != 0 then x.trap cauMisAtom (dw off) 0
  else if (x.tiles s).length ≤ t then x.trap cauTile 0 0
  else if reads && decide (2048 < off + x.w.width * size) then x.trap cauBounds (dw off) 0
  else
    let offs := if reads then (List.range x.w.width).map fun i => 2048 * p + off + size * i else []
    let res := if reads then x.res o.data (regsOf size) fun _ => (0, 0) else noRes
    acts [
      if reads then chargeW x.w [⟨8, (dedup ((lanesOf x.g).map fun i => (off + size * i) / 64)).length, clusterNo x.w.core⟩] else skip,
      addOut x.k { x.out id (.tile [p] true false offs) res with units := BitVec.ofNat 32 size },
      regrant x.w.wg p]
/-- R252. -/
def execTake (c : Ctl) (sz : TSz) (o : OT) (s : State) : Host.Outcome State Fault Refusal :=
  issueLong (.take c sz o) (memPrice [o.data]) readBusy (performTake (WF.tBytes sz) o) s

/-- The tiles of a consuming read that has read them become EMPTY. -/
def retireRead (wk id : Nat) : Action := look fun s =>
  match find s.warps wk with
  | none => skip
  | some w => match w.outs.find? fun o => o.id == id with
    | none => skip
    | some o => match o.kind with
      | .tile ts true true offs => acts [emptyTiles w.core ts, modOut wk id fun o => { o with kind := .tile ts false true offs }]
      | _ => skip
/-- R238, R243: a lane's destination is written. -/
def execMemoryReply (wk id lane : Nat) (s : State) : Host.Outcome State Fault Refusal :=
  event (look fun s => match find s.warps wk with
    | none => skip
    | some w => match w.outs.find? fun o => o.id == id with
      | none => skip
      | some o =>
        let m := replyMask o lane
        match o.kind with
        | .load _ bytes _ _ todo => match todo.find? fun a => a.lane == lane with
          | some a => if readReady s wk w o a bytes then readLane wk id a else skip
          | none => skip
        | .reply todo => deliverLanes wk id (m &&& ~~~todo)
        | .tile ts take done offs =>
          if offs.isEmpty || !(done || tilesReady s w.core id take ts) then skip
          else acts [readTiles wk id, if o.left == m then retireRead wk id else skip, deliverLanes wk id m]
        | _ => skip) s
/-- R248, R252: a consuming read retires. Without a destination it then completes (R238). -/
def execTileReadRetire (wk id : Nat) (s : State) : Host.Outcome State Fault Refusal :=
  event (look fun s => match find s.warps wk with
    | none => skip
    | some w => match w.outs.find? fun o => o.id == id with
      | none => skip
      | some o => match o.kind with
        | .tile ts true done offs =>
          if done || tilesReady s w.core id true ts then
            acts [readTiles wk id, retireRead wk id, if offs.isEmpty then deliverLanes wk id o.left else skip]
          else skip
        | _ => skip) s

/-! ### Arrivals (R220, R248, R251, R253, R254) -/

def noArrival : Arrival := ⟨0, 0, 0, none, 0, 0, 0, 0, [], corePoint 0 0, false, false, none, 0, 0, none, none, none, none, none⟩
/-- New arrival units, named in order. -/
def addArrivals (l : List Arrival) : Action := forEach l fun a s =>
  [.arrivals (s.arrivals ++ [{ a with id := s.nextId }]), .nextId (s.nextId + 1)]
def dropArrival (id : Nat) : Action := fun s => [.arrivals (s.arrivals.filter fun a => a.id != id)]
/-- The filter of a tile accepts a source (R251). -/
def filterOk (s : State) (f : Option Word) (a : Arrival) : Bool :=
  match f with
  | none => true
  | some w => a.srcCore == wbits w 0 10 &&
      (if w.getLsbD 22 then a.srcPeer.getD (ownPeer s) == ownPeer s else wbits w 10 12 == a.srcPeer.getD (ownPeer s))
/-- The workgroup of a launch on a core. -/
def wgAt (s : State) (launch core : Nat) : Option (Nat × Workgroup) := s.wgs.find? fun e => e.2.launch == launch && e.2.core == core
/-! ### The phases of neighbours (R285, R286) -/

/-- A neighbour of a workgroup by direction 1 to 4. -/
inductive Nbr where
  | free | unstarted | at (k : Nat) (g : Workgroup)
  deriving DecidableEq, Repr
def nbrCore (l : Launch) (core dir : Nat) : Option Nat :=
  let x := coreX core
  let y := coreY core
  match dir with
  | 1 => if x ≤ l.x0 then none else some (core - 1)
  | 2 => if l.x0 + l.w ≤ x + 1 then none else some (core + 1)
  | 3 => if y ≤ l.y0 then none else some (core - 48)
  | _ => if l.y0 + l.h ≤ y + 1 then none else some (core + 48)
def nbrOf (s : State) (g : Workgroup) (dir : Nat) : Nbr :=
  match find s.launches g.launch with
  | none => .free
  | some l => match nbrCore l g.core dir with
    | none => .free
    | some c => if l.ended.contains c then .free else match wgAt s g.launch c with
      | some (k, g) => .at k g
      | none => .unstarted
def recvOf (g : Workgroup) (dir : Nat) : BitVec 16 := findD g.recv dir 0
/-- The latest advances of a workgroup from the first whose earlier writes are still to be performed on. -/
def advsLeft (s : State) (g : Workgroup) : List Point := g.advs.dropWhile (relDone s .dev)
/-- The counter a workgroup has sent (R285 step 1). -/
def sentPhase (s : State) (g : Workgroup) : BitVec 16 := g.phase - BitVec.ofNat 16 (advsLeft s g).length
/-- The advance of a workgroup that made its counter `v`, as far as its place in po is kept. -/
def advAt (g : Workgroup) (v : BitVec 16) : Option Point := g.advs.reverse[(g.phase - v).toNat]?
/-- Advances of the workgroups of a core before an age that have been sent to the workgroup on another and have not arrived there. -/
def advsOnWay (s : State) (src dst age : Nat) : Bool := s.wgs.any fun e => e.2.core == src && [1, 2, 3, 4].any fun d => match nbrOf s e.2 d with
  | .at _ n => n.core == dst && ((e.2.advs.take (e.2.advs.length - (advsLeft s e.2).length)).any fun p => decide (p.age < age) &&
      match advAt e.2 (recvOf n (opp d) + 1) with | some q => decide (q.age ≤ p.age) | none => false)
  | _ => false
where opp (d : Nat) : Nat := if d % 2 = 1 then d + 1 else d - 1

/-- The report of a unit of a `put.t` (R254): under `.rep` the predicate, under `.retry` the accepted units. -/
def putReport (a : Arrival) (refused : Bool) : Action :=
  match a.wk with
  | none => skip
  | some wk => look fun s => match (find s.warps wk).bind fun w => w.outs.find? fun o => o.id == a.out with
    | none => skip
    | some o => match o.ins with
      | .putTRep _ _ t => acts [
          modWarp wk fun w => w.mapLanes a.lanes fun _ l => match t.pd with | some p => l.setP p.val refused | none => l,
          finishLanes wk a.out a.lanes]
      | _ => acts [
          modOut wk a.out fun o => { o with units := o.units ||| BitVec.ofNat 32 (2 ^ (a.off / 64)) },
          look fun s => if s.arrivals.any fun b => b.wk == some wk && b.out == a.out then skip else dropOut wk a.out]
/-- What an accepted or finally refused unit leaves behind. -/
def unitEnd (a : Arrival) (refused : Bool) : Action := acts [
  dropArrival a.id,
  match a.epi with
    | some (g, e) => modWg g fun g => { g with epis := g.epis.map fun x =>
        if x.id = e then { x with arrivals := x.arrivals.filter fun i => i != a.id } else x }
    | none => skip,
  match a.card with
    | some (cl, c) => modCluster cl fun r => { r with cards := r.cards.map fun x =>
        if x.id = c then { x with arrivals := x.arrivals.filter fun i => i != a.id } else x }
    | none => skip,
  putReport a refused,
  match a.srcPeer, a.tag with
    | some p, some (_, tag) => fun s => sendTo p [{ mkFlit s p 0 0 7 0 tag (le 1 (b2n refused)) with cost := weight s (clusterNo a.core) 13 }] s
    | _, _ => skip]
/-- An arrival on its way, sent anew behind the others. -/
def resend (id : Nat) (backoff : Bool) : Action := fun s =>
  [.arrivals ((s.arrivals.filter fun b => b.id != id) ++ (s.arrivals.filter fun b => b.id == id).map fun b => { b with backoff := backoff })]
/-- A unit refused: retried after a back-off, or reported. -/
def refuse (a : Arrival) : Action := if a.retry then resend a.id true else unitEnd a true
/-- The charge of an attempt (R239): class 12 within the cluster, 13 from another. -/
def attemptChg (a : Arrival) : Action :=
  charge (if a.srcPeer.isSome then none else some a.ctx)
    [⟨if a.srcPeer.isNone && clusterNo a.srcCore == clusterNo a.core then 12 else 13, 1, clusterNo a.core⟩]
/-- A unit judged by its tile (R248); an accepted one is a sink. -/
def judge (a : Arrival) : Action := look fun s => acts [attemptChg a,
  match wgAt s a.launch a.core with
  | none => refuse a
  | some (gk, g) =>
    if g.tiles.length ≤ a.tile then refuse a
    else
      let p := nth g.tiles a.tile 0
      let t := tileOf (coreOf s g.core) p
      match t.tag with
      | .armed n c =>
        if filterOk s t.filter a then acts [
          padWrite g.core (2048 * p + a.off) a.data,
          modTile g.core p fun x => { x with tag := if c + 1 < n then .armed n (c + 1) else .full, grant := none },
          regrant gk p, sink g.ctx,
          if a.srcPeer.isSome || a.srcCore != g.core || a.ctx != g.ctx then noRestart gk else skip, unitEnd a false]
        else refuse a
      | _ => refuse a]
/-- An arrival is a release: the earlier writes of its agent are performed first (R220). -/
def arrSent (s : State) (a : Arrival) : Bool :=
  a.srcPeer.isSome || a.card.isSome || relDone s (if a.win.isSome then .fab else .dev) a.po
/-- A unit of a `put.t` for a tile of this package: a message from its core (R10). -/
def Arrival.message (a : Arrival) : Bool := a.wk.isSome && a.win.isNone
/-- A message that has been sent and is still to arrive. -/
def Arrival.onWay (s : State) (a : Arrival) : Bool := a.message && !a.backoff && arrSent s a
/-- Messages from one core to another stay in order (R10): a unit of a `put.t` waits for those sent before it and for the phase advances sent
before it, but not for those of its own instruction (R254). -/
def arrFirst (s : State) (a : Arrival) : Bool := !a.message ||
  ((s.arrivals.takeWhile fun b => b.id != a.id).all fun b => b.srcCore != a.srcCore || b.core != a.core || b.po.age == a.po.age || !b.onWay s) &&
  !advsOnWay s a.srcCore a.core a.po.age
def arrReady (s : State) (a : Arrival) : Bool := arrSent s a && arrFirst s a
/-- A unit of a `put.t` makes no attempt while its warp is switched out; once the warp has ended, the source's hardware goes on (R254, R410,
R472). -/
def unitHeld (s : State) (a : Arrival) : Bool := (a.wk.any fun k => (find s.warps k).isSome) && !(ctxOf s a.ctx).resident && !(ctxOf s a.ctx).stopping
/-- R248: an arrival reaches its tile; a unit for a window leaves as a request (R262). -/
def execTileArrival (id : Nat) (s : State) : Host.Outcome State Fault Refusal :=
  event (look fun s => match s.arrivals.find? fun a => a.id == id with
    | none => skip
    | some a =>
      if a.backoff || a.data.isEmpty || !arrReady s a || unitHeld s a || s.fabric.remotes.any (fun r => r.kind == 4 && r.out == id) then skip
      else match a.win with
        | some (p, g, o) => fun s => remoteAt s.nextId a.srcCore a.ctx (a.wk.getD 0) id (a.off / 64) 4 p g o a.tile (a.off / 64) a.data s
        | none => judge a) s
/-- R254: a back-off expires. -/
def execArrivalRetry (id : Nat) (s : State) : Host.Outcome State Fault Refusal :=
  event (resend id false) s

/-! ### put.t and rget.t (R253, R254, R264) -/

/-- The bytes of unit u: zeros from lanes whose guard is not true. -/
def Iss.unitBytes (x : Iss) (o : Opd) (u : Nat) : List Byte :=
  (List.range 16).flatMap fun j => le 4 (if inMask x.g (16 * u + j) then (x.val o (16 * u + j)).toNat else 0)
def unitLanes (u : Nat) : Mask := maskOf 64 fun i => i / 16 == u
/-- The units sent: those with a guard-true lane, and on replay those not already accepted. -/
def Iss.units (x : Iss) (unit : Nat) (accepted : BitVec 32) : List Nat :=
  (List.range (x.w.width / 16)).filter fun u => x.g &&& unitLanes u != 0 && !accepted.getLsbD (unit + u)
def inRect (l : Launch) (core : Nat) : Bool :=
  decide (core < 768) && decide (l.x0 ≤ coreX core) && decide (coreX core < l.x0 + l.w) && decide (l.y0 ≤ coreY core) && decide (coreY core < l.y0 + l.h)
/-- Units handed to the network. Under `.retry` the instruction has completed; under `.rep` it waits for its reports. -/
def Iss.sendUnits (x : Iss) (id : Nat) (rep : Bool) (unit tile core launch : Nat) (win : Option (Nat × Nat × Nat)) (o : OT)
    (accepted : BitVec 32) : Action :=
  let us := x.units unit accepted
  let lanes := us.foldl (fun m u => m ||| (x.g &&& unitLanes u)) 0
  let at_ := id
  let send (id : Nat) : Action := acts [
    addOut x.k { x.out id .put noRes with left := if rep then lanes else 0, units := accepted },
    addArrivals (us.map fun u => { noArrival with
      ctx := x.w.ctx, srcCore := x.w.core, launch := launch, core := core, tile := tile, off := 64 * (unit + u)
      data := x.unitBytes o.data u, po := x.point at_, retry := !rep, wk := some x.k, out := id, lanes := x.g &&& unitLanes u, win := win })]
  acts [if win.isSome || core != x.w.core then noRestart x.w.wg else skip, if rep then send id else withId send]
/-- `put.t` from the units already accepted on: bounds, target, allotment in this order (R253; log 70). -/
def performPutFrom (rep : Bool) (unit : Nat) (o : OT) (accepted : BitVec 32) (x : Iss) (id : Nat) : Action := look fun s =>
  let t := x.tileNo o
  if 32 < unit + x.w.width / 16 then x.trap cauBounds 0 0
  else match wgOf s x.w, launchOf s x.w with
    | some g, some l =>
      if o.ubase == 63 then
        let core := (x.val o.addr (lowest x.g)).toNat
        if !inRect l core then x.trap cauTarget 0 0
        else if g.tiles.length ≤ t then x.trap cauTile 0 0
        else x.sendUnits id rep unit t core g.launch none o accepted
      else
        let ea := x.eaT o (lowest x.g)
        if g.tiles.length ≤ t then x.trap cauTile 0 0 else
        let noWin := decide (2 ^ 52 ≤ ea.toNat) || (match findWindow s x.w.ctx ea.toNat with | .ok (none, _) => true | _ => false)
        if noWin then x.trap cauTarget ea 0
        else x.access id .write 1 13 [lowest x.g] (fun _ => ea) fun l => match remoteOf l with
          | (_, _, p, sg, off) :: _ => x.sendUnits id rep unit t (off % 1024) 0 (some (p, sg, off)) o accepted
          | [] => x.trap cauTarget ea 0
    | _, _ => x.trap cauTile 0 0
def performPut (rep : Bool) (unit : BitVec 5) (o : OT) : Iss → Nat → Action := performPutFrom rep unit.toNat o 0
/-- R253, R254. -/
def execPutTRetry (c : Ctl) (unit : BitVec 5) (o : OT) (s : State) : Host.Outcome State Fault Refusal :=
  issueLong (.putTRetry c unit o) (memPrice [o.data]) never (performPut false unit o) s
/-- R253, R254. -/
def execPutTRep (c : Ctl) (unit : BitVec 5) (o : OT) (s : State) : Host.Outcome State Fault Refusal :=
  issueLong (.putTRep c unit o) (memPrice [o.data]) never (performPut true unit o) s
def performRget (o : OT) (x : Iss) (id : Nat) : Action := look fun s =>
  let t := x.tileNo o
  let ea := x.eaT o (lowest x.g)
  let units := List.range o.count.toNat
  let at' (u : Nat) : DWord := ea + dw (64 * u)
  if ea.toNat % 64 != 0 then x.trap cauMisAtom ea 0
  else match wgOf s x.w with
    | none => x.trap cauTile 0 0
    | some g =>
      if g.tiles.length ≤ t then x.trap cauTile 0 0
      else x.access id .read 1 13 units at' fun l =>
        let base (u : Nat) : Arrival := { noArrival with
          ctx := x.w.ctx, srcCore := x.w.core, launch := g.launch, core := g.core, tile := t, off := 64 * u, po := x.point id, retry := true
          lanes := x.g }
        acts [
          addArrivals ((localOf l).map fun (u, _, pa, _) => { base u with src := some (pa, (ctlOf x.i).hint.toNat) }),
          forEach (remoteOf l) fun (u, _, p, sg, off) s =>
            acts [addArrivals [base u], remoteReq x.w.ctx x.k s.nextId u 5 p sg off 64 0 []] s]
def rgetBusy (o : OT) (x : Iss) (s : State) : Bool :=
  x.winBusy false none .read 64 (List.range o.count.toNat) (fun u => x.eaT o (lowest x.g) + dw (64 * u)) s
/-- A unit of an `rget.t` reads its 64 bytes at the home, as loads of its threads (R264): the lines their context holds of them are no older
afterwards (R218). -/
def readUnit (id : Nat) : Action := look fun s => match s.arrivals.find? fun a => a.id == id with
  | some a => match a.src with
    | some (pa, hint) => if !runReady s a.po pa 64 then skip else acts [
        fun s => [.arrivals (s.arrivals.map fun b => if b.id = id then { b with data := overlay s a.po pa 64, src := none } else b)],
        homeHinted (some a.ctx) (clusterNo a.srcCore) hint false [pa / 64], l1Refresh a.srcCore a.ctx pa, noteRead a.po]
    | none => skip
  | none => skip
/-- R264. -/
def execRgetT (c : Ctl) (o : OT) (s : State) : Host.Outcome State Fault Refusal :=
  issueLong (.rgetT c o) .uni (rgetBusy o) (performRget o) s

end Sys2Proof.Machine
end

