-- ==== Sys2Proof/Machine/Matrix.lean ====
section
/-! DEFINITION. The matrix engine: convergence registers, the reservation table and its passes, accumulator blocks and
epilogues (R171 to R201, R225). -/
namespace Sys2Proof.Machine

/-! ### The arithmetic of a pass (R171) -/

/-- A finite value as a signed magnitude. -/
def finOf : FVal → Bool × Nat × Int
  | .fin s n e => (s, n, e)
  | _ => (false, 0, 0)
/-- Infinities among values: (a positive one, a negative one). -/
def infSigns (l : List FVal) : Bool × Bool :=
  l.foldl (fun r v => match v with | .inf false => (true, r.2) | .inf true => (r.1, true) | _ => r) (false, false)
/-- The exact sum of finite values on a common exponent. -/
def exactSum (l : List FVal) : Int × Int :=
  l.foldl (fun a v =>
    let b := finOf v
    addExact (decide (a.1 < 0), a.1.natAbs, a.2) b) (0, 0)
/-- ChunkSum: one rounding of the old value and every product. -/
def chunkSum (c : Word) (terms : List (Word × Word)) : Word :=
  let old := fp32.decode c.toNat
  let ps := terms.map fun t => mulX (bf16.decode t.1.toNat) (bf16.decode t.2.toNat)
  let vs := old :: ps.filterMap id
  if ps.any (·.isNone) || vs.any FVal.isNan then 0x7FC00000
  else match infSigns vs with
    | (true, true) => 0x7FC00000
    | (true, false) => wd (fp32.inf false)
    | (false, true) => wd (fp32.inf true)
    | (false, false) =>
      let (x, e) := exactSum vs
      if x = 0 then (if vs.all negV then 0x80000000 else 0)
      else wd (roundMag fp32 .rne false 0 (decide (x < 0)) x.natAbs e false).1

/-! ### The A block (R173) -/

/-- Lane, register and half of element (m, k). -/
def aPlace (width vb m k : Nat) : Nat × Nat × Nat :=
  if width = 64 then (m + 32 * (k / 16), vb + k % 16 / 2, k % 2)
  else if width = 32 then (m, vb + k / 2, k % 2)
  else (m % 16, vb + 16 * (m / 16) + k / 2, k % 2)
def half (w : Word) (h : Nat) : Nat := wbits w (16 * h) 16
/-- An element in the registers of the declaring warp; a lane outside the set, absent or exited reads as +0. -/
def aElem (w : Warp) (vb : Nat) (set : Mask) (m k : Nat) : Nat :=
  let (l, r, h) := aPlace w.width vb m k
  if inMask set l && (laneOf w l).active then half ((laneOf w l).rd r) h else 0
/-- The block in column-major order, element (m, k) in half m mod 2 of word 16k + m div 2 (R413). -/
def aBlock (w : Warp) (vb : Nat) (set : Mask) : List Word :=
  (List.range 32).flatMap fun k => (List.range 16).map fun j => wd (aElem w vb set (2 * j) k + 65536 * aElem w vb set (2 * j + 1) k)
def aAt (a : List Word) (m k : Nat) : Word := wd (half (nth a (16 * k + m / 2) 0) (m % 2))

/-! ### Blocks and their order (R176, R177, R189) -/

def cauAcc : Nat := 16
def cauCv : Nat := 18
def accRun (g : Workgroup) (b n : Nat) : List Nat := (List.range n).map fun j => nth g.accs (b + j) 0
/-- A uniform operand's value. -/
def Iss.uval (x : Iss) (o : Opd) : Nat := (x.val o (lowest x.mask)).toNat
/-- Unfinished table entries of a workgroup on a block, issued before `age`. -/
def passesOn (s : State) (gk b age : Nat) : Bool := s.clusters.any fun e => e.2.table.any fun r =>
  r.wg == gk && decide (r.id < age) && decide (r.blk ≤ b) && decide (b < r.blk + r.n)
/-- The block a held or waiting `acc.rd` of a warp names. -/
def accRdBlock (s : State) (w : Warp) (o : Outst) : Option Nat :=
  match o.ins with
  | .accRd _ q => match q.a with
    | .s _ => (o.capt.head?.bind (·.head?)).map (·.toNat)
    | a => some ((replayIss s 0 w o).val a (lowest o.mask)).toNat
  | _ => none
/-- Instructions of a workgroup that a warp or a frame still holds. -/
def heldOuts (s : State) (g : Workgroup) : List (Warp × Outst) :=
  (g.warps.flatMap fun e => match find s.warps e.2 with | some w => (w.outs ++ w.swq).map fun o => (w, o) | none => []) ++
  g.frames.flatMap fun f => match find s.warps f.warp with | some w => f.rep.map fun r => (w, r.o) | none => []
/-- An `acc.rd` of a block issued before `age` has not read it yet. -/
def rdsOn (s : State) (g : Workgroup) (b age : Nat) : Bool :=
  (heldOuts s g).any fun e => decide (e.2.age < age) && accRdBlock s e.1 e.2 == some b
/-- Reads of a block not yet made, issued before `age`. -/
def readsOn (s : State) (g : Workgroup) (b age : Nat) : Bool :=
  rdsOn s g b age || g.epis.any fun e => decide (e.id < age) && e.blk == b
/-- What an `acc.free` has to follow is still to come: passes, and reads by `acc.rd` (R189). -/
def freeWaits (s : State) (gk : Nat) (g : Workgroup) (b age : Nat) : Bool := passesOn s gk b age || rdsOn s g b age
/-- A block that an `acc.free` before `age` releases, or will. -/
def releasing (s : State) (g : Workgroup) (b age : Nat) : Bool :=
  let a := accOf (coreOf s g.core) (nth g.accs b 0)
  a.st == .releasing || (match a.freeAt with | some f => decide (f < age) | none => false)
/-- An operation that writes a block waits for everything issued before it. -/
def accBusy (s : State) (gk : Nat) (g : Workgroup) (b : Nat) : Bool :=
  releasing s g b s.nextId || passesOn s gk b s.nextId || readsOn s g b s.nextId
/-- `acc.free` takes effect on a block: RELEASING until the epilogues before it are accepted. -/
def freeBlock (g : Workgroup) (b age : Nat) : Action := modAcc g.core (nth g.accs b 0) fun a =>
  match a.st with
  | .held =>
    let ws := (g.epis.filter fun e => decide (e.id < age) && e.blk == b).map (·.id)
    if ws.isEmpty then ⟨.free, [], [], none⟩ else { a with st := .releasing, waits := ws, freeAt := none }
  | _ => { a with freeAt := none }
/-- A release that waited takes effect once nothing is left that it has to follow. -/
def settleFree (s : State) (gk : Nat) (g : Workgroup) : Option Action :=
  (List.range g.accs.length).findSome? fun b => match (accOf (coreOf s g.core) (nth g.accs b 0)).freeAt with
    | some age => if freeWaits s gk g b age then none else some (freeBlock g b age)
    | none => none
/-- The blocks an instruction names lie in the allotment. -/
def Iss.accs (x : Iss) (s : State) : Nat := match wgOf s x.w with | some g => g.accs.length | none => 0

/-! ### Convergence (R178 to R182, R190, R191) -/

def cvNo : Opd → Nat
  | .cv n => n.val
  | _ => 0
def cvOf (g : Workgroup) (n : Nat) : Cv := nth g.cvs n noCv
/-- The declaring warp, if it has not ended; another warp may have taken its slot. -/
def cvWarp (s : State) (c : Cv) : Option Warp := find s.warps c.wk
/-- Every lane of the declaring warp counts as signed (R179). -/
def cvComplete (s : State) (c : Cv) : Bool :=
  match cvWarp s c with
  | none => true
  | some w => (List.range w.width).all fun i => inMask c.sigs i || !inMask c.m i || !(laneOf w i).active
/-- R190. -/
def execCvdecl (c : Ctl) (o : O5) (s : State) : Host.Outcome State Fault Refusal :=
  issue (.cvdecl c o) (fun x => x.price .uni) never (fun x _ =>
    let m : Mask := match o.b with
      | .s _ => x.val64 o.b 0
      | _ => 0xFFFFFFFFFFFFFFFF
    let vb := match o.a with | .v n => n.val | _ => 0
    modWg x.w.wg fun g => modCv g (cvNo o.d) fun _ =>
      ⟨true, x.w.index, x.k, vb, m &&& maskOf 64 fun i => decide (i < x.w.width), 0, none⟩) s
/-- R191. -/
def execSign (c : Ctl) (o : O5) (s : State) : Host.Outcome State Fault Refusal :=
  issue (.sign c o) (fun x => x.price (.vary 3)) never (fun x _ => look fun s =>
    match wgOf s x.w with
    | none => skip
    | some g =>
      let v := cvOf g (cvNo o.a)
      if !v.declared then x.trap cauCv 0 0
      else if v.wk != x.k then skip
      else modWg x.w.wg fun g => modCv g (cvNo o.a) fun v => { v with sigs := v.sigs ||| (x.g &&& v.m) }) s

/-! ### mma (R172, R181, R183, R192) -/

/-- Entries that occupy the table: a switched-out context's ungranted ones are withdrawn (R185). -/
def tableUsed (s : State) (cl : Nat) : Nat :=
  ((clusterOf s cl).table.filter fun e => e.granted || (ctxOf s e.ctx).resident || (ctxOf s e.ctx).stopping).length
/-- The checks of the entry, before GetA waits. -/
def mmaCheck (s : State) (x : Iss) (n : Nat) (o : O5) : Option Nat :=
  if x.accs s < x.uval o.b + n then some cauAcc
  else if (x.tiles s).length < x.uval o.c + n then some cauTile
  else match wgOf s x.w with
    | none => some cauCv
    | some g => if (cvOf g (cvNo o.a)).declared then none else some cauCv
def mmaBusy (n : Nat) (o : O5) (x : Iss) (s : State) : Bool :=
  (mmaCheck s x n o).isNone && (match wgOf s x.w with
    | none => false
    | some g =>
      let v := cvOf g (cvNo o.a)
      (v.latch.isNone && !cvComplete s v) || decide (32 ≤ tableUsed s (clusterNo x.w.core)))
/-- GetA and the posting of an entry. -/
def mmaPost (n : Nat) (take z sparse : Bool) (o : O5) (x : Iss) (id : Nat) : Action := look fun s =>
  match mmaCheck s x n o with
  | some c => x.trap c 0 0
  | none => match wgOf s x.w with
    | none => skip
    | some g =>
      let v := cvOf g (cvNo o.a)
      let a := match v.latch with
        | some a => a
        | none => match cvWarp s v with
          | some w => aBlock w v.vb v.m
          | none => List.replicate 512 0
      let e : ResEntry := ⟨id, x.point id, x.w.core, x.w.ctx, x.w.wg, x.uval o.b, x.uval o.c, n, take, z, sparse, ctxClass s x.w.ctx, 0, a, false, 0, [], [], []⟩
      acts [
        modWg x.w.wg fun g => modCv g (cvNo o.a) fun v =>
          { v with sigs := if v.latch.isNone then 0 else v.sigs, latch := if (ctlOf x.i).reuse then some a else none },
        modCluster (clusterNo x.w.core) fun c => { c with table := c.table ++ [e] },
        if take then forEach (tileRun g (x.uval o.c) n) fun p => regrant x.w.wg p else skip]
/-- R192. -/
def execMmaBf16 (c : Ctl) (n1 : BitVec 2) (take z : Bool) (o : O5) (s : State) : Host.Outcome State Fault Refusal :=
  issue (.mmaBf16 c n1 take z o) (fun x => x.price .uni) (mmaBusy (n1.toNat + 1) o) (mmaPost (n1.toNat + 1) take z false o) s
/-- R192. -/
def execMmaSpBf16 (c : Ctl) (n1 : BitVec 2) (take z : Bool) (o : O5) (s : State) : Host.Outcome State Fault Refusal :=
  issue (.mmaSpBf16 c n1 take z o) (fun x => x.price .uni) (mmaBusy (n1.toNat + 1) o) (mmaPost (n1.toNat + 1) take z true o) s

/-! ### Arbitration and passes (R184, R185, R201) -/

/-- An ungranted entry of a resident context is ready. -/
def entryReady (s : State) (table : List ResEntry) (e : ResEntry) : Bool :=
  !e.granted && (ctxOf s e.ctx).resident && (match find s.wgs e.wg with
    | none => false
    | some g =>
      (!e.b.isEmpty || tilesReady s e.core e.id e.take (tileRun g e.tile e.n)) &&
      (List.range e.n).all fun j =>
        let b := e.blk + j
        let a := accOf (coreOf s g.core) (nth g.accs b 0)
        a.st != .releasing && (match a.freeAt with | some f => decide (e.id < f) | none => true) &&
        !(table.any fun r => r.core == e.core && r.wg == e.wg && decide (r.id < e.id) && decide (r.blk ≤ b) && decide (b < r.blk + r.n)) &&
        !readsOn s g b e.id)
def effPrio (e : ResEntry) : Nat := if 256 ≤ e.promo then 3 else e.prio
/-- The arbiter's choice: the highest priority, the earliest posted among equals. -/
def arbiter (l : List ResEntry) : Option ResEntry :=
  l.foldl (fun best e => match best with
    | none => some e
    | some b => if effPrio b < effPrio e then some e else some b) none
/-- R184: an entry is granted all of its passes; its tiles are read, and with TAKE become EMPTY. -/
def execMatrixPassGrant (cl : Nat) (s : State) : Host.Outcome State Fault Refusal :=
  event (look fun s =>
    let t := (clusterOf s cl).table
    let ready := t.filter (entryReady s t)
    if (t.any fun e => e.granted) then skip
    else match arbiter ready with
      | none => skip
      | some e => match find s.wgs e.wg with
        | none => skip
        | some g =>
          let ps := tileRun g e.tile e.n
          let e' := { (if e.b.isEmpty then e.readB s g else e) with granted := true }
          acts [
            modCluster cl fun c => { c with table := c.table.map fun r =>
              if r.id = e.id then e'
              else if (ready.any fun x => x.id == r.id) then { r with promo := r.promo + e.n } else { r with promo := 0 } },
            l1Discard e.core,
            if e.take then emptyTiles e.core ps else skip]) s
/-- The elements of a block after a pass. -/
def passEls (e : ResEntry) (j : Nat) (old : SMap Word) : SMap Word :=
  let live := nth e.live j 0
  (List.range 32).foldl (fun m n =>
    if live.getLsbD n then
      let col := nth e.b (32 * j + n) []
      (List.range 32).foldl (fun m r => putD m (32 * r + n) (chunkSum (findD old (32 * r + n) 0) (col.map fun t => (aAt e.a r t.1, t.2))) 0) m
    else m) old
/-- R184, R201: the next pass of a granted entry finishes. -/
def execMatrixPassComplete (cl id : Nat) (s : State) : Host.Outcome State Fault Refusal :=
  event (look fun s => match (clusterOf s cl).table.find? fun e => e.id == id && e.granted with
    | none => skip
    | some e =>
      let last := decide (e.n ≤ e.done + 1)
      let live := popW (nth e.live e.done 0).toNat 32
      acts [
        match find s.wgs e.wg with
          | some g => modAcc g.core (nth g.accs (e.blk + e.done) 0) fun a =>
              { a with st := .held, els := passEls e e.done (if e.z then [] else a.els) }
          | none => skip,
        charge (some e.ctx) (if e.sparse then [⟨16, 1, cl⟩, ⟨17, live, cl⟩] else [⟨15, 1, cl⟩]),
        modCluster cl fun c =>
          let rest := c.table.filter fun r => r.id != id
          { c with table := if last then rest else c.table.map fun r => if r.id = id then { r with done := r.done + 1 } else r }]) s

/-! ### Accumulator instructions (R194, R195) -/

/-- A run named by `acc.zero` or `acc.free` is in the allotment. -/
def runOk (s : State) (x : Iss) (o : O5) : Bool :=
  decide (1 ≤ x.uval o.b) && decide (x.uval o.b ≤ 768) && decide (x.uval o.a + x.uval o.b ≤ x.accs s)
def Iss.anyBlock (x : Iss) (s : State) (o : O5) (f : Workgroup → Nat → Bool) : Bool :=
  runOk s x o && (match wgOf s x.w with
    | some g => (List.range (x.uval o.b)).any fun j => f g (x.uval o.a + j)
    | none => false)
def accZeroBusy (o : O5) (x : Iss) (s : State) : Bool := x.anyBlock s o (accBusy s x.w.wg)
/-- R194. -/
def execAccZero (c : Ctl) (o : O5) (s : State) : Host.Outcome State Fault Refusal :=
  issue (.accZero c o) (fun x => x.price .uni) (accZeroBusy o) (fun x _ => look fun s =>
    match runOk s x o, wgOf s x.w with
    | true, some g => acts [
        forEach (accRun g (x.uval o.a) (x.uval o.b)) fun a => modAcc g.core a fun _ => ⟨.held, [], [], none⟩,
        chargeW x.w [⟨19, x.uval o.b, clusterNo x.w.core⟩]]
    | _, _ => x.trap cauAcc 0 0) s
/-- A second release waits while an earlier one on the block has still to take effect. -/
def accFreeBusy (o : O5) (x : Iss) (s : State) : Bool :=
  x.anyBlock s o fun g b => (accOf (coreOf s g.core) (nth g.accs b 0)).freeAt.isSome
/-- R177, R194. -/
def execAccFree (c : Ctl) (o : O5) (s : State) : Host.Outcome State Fault Refusal :=
  issue (.accFree c o) (fun x => x.price .uni) (accFreeBusy o) (fun x id => look fun s =>
    match runOk s x o, wgOf s x.w with
    | true, some g => forEach (List.range (x.uval o.b)) fun j => look fun s =>
        let b := x.uval o.a + j
        if freeWaits s x.w.wg g b id then modAcc g.core (nth g.accs b 0) fun a => { a with freeAt := some id }
        else freeBlock g b id
    | _, _ => x.trap cauAcc 0 0) s
/-- Element f0 + i of a block: row m and column n as 32m + n. -/
def accKey (f0 i : Nat) : Nat :=
  let f := (f0 + i) % 1024
  32 * (f % 32) + f / 32
def accRdBusy (o : O5) (x : Iss) (s : State) : Bool :=
  decide (x.uval o.a < x.accs s) && (match wgOf s x.w with | some g => releasing s g (x.uval o.a) s.nextId | none => false)
def performAccRd (o : O5) (x : Iss) (id : Nat) : Action := look fun s =>
  if x.accs s ≤ x.uval o.a then x.trap cauAcc 0 0
  else addOut x.k (x.out id (.accRd (x.uval o.a) (x.uval o.b)) (x.res o.d 1 fun _ => (0, 0)))
/-- R195. -/
def execAccRd (c : Ctl) (o : O5) (s : State) : Host.Outcome State Fault Refusal :=
  issue (.accRd c o) (fun x => x.price (.vary 3)) (accRdBusy o) (performAccRd o) s
def accWrBusy (o : O5) (x : Iss) (s : State) : Bool :=
  decide (x.uval o.a < x.accs s) && (match wgOf s x.w with | some g => accBusy s x.w.wg g (x.uval o.a) | none => false)
/-- R195. -/
def execAccWr (c : Ctl) (o : O5) (s : State) : Host.Outcome State Fault Refusal :=
  issue (.accWr c o) (fun x => x.price (.vary 3)) (accWrBusy o) (fun x _ => look fun s =>
    match decide (x.uval o.a < x.accs s), wgOf s x.w with
    | true, some g => modAcc g.core (nth g.accs (x.uval o.a) 0) fun a =>
        ⟨.held, (lanesOf x.g).foldl (fun m i => putD m (accKey (x.uval o.b) i) (x.val o.c i) 0) a.els, [], none⟩
    | _, _ => x.trap cauAcc 0 0) s

/-! ### Completion of long-latency register instructions (R69, R115, R195) -/

/-- The value of an `acc.rd` for each lane, once the passes before it are done. -/
def accVals (s : State) (w : Warp) (blk f0 : Nat) : List (BitVec 128) :=
  match wgOf s w with
  | some g =>
    let a := accOf (coreOf s g.core) (nth g.accs blk 0)
    (List.range w.width).map fun i => (findD a.els (accKey f0 i) 0).setWidth 128
  | none => []
/-- R69, R115, R195: the results are written, waiting instructions released; under DZT a division by zero then traps. -/
def execLongLatencyComplete (wk id : Nat) (s : State) : Host.Outcome State Fault Refusal :=
  event (look fun s => match find s.warps wk with
    | none => skip
    | some w => match w.outs.find? fun o => o.id == id with
      | none => skip
      | some o => match o.kind with
        | .alu => acts [deliverLanes wk id o.left,
            if o.res.dz && isDiv o.ins && (match launchOf s w with | some l => l.lr.dzt | none => false)
            then divTrap wk o else skip]
        | .accRd blk f0 =>
          if passesOn s w.wg blk o.age then skip
          else acts [
            modOut wk id fun o => { o with res := { o.res with vals := accVals s w blk f0 } },
            deliverLanes wk id o.left]
        | _ => skip) s

/-! ### Epilogues (R196 to R199, R201) -/

/-- Element bits of EF (R98). -/
def efBits (ef : Nat) : Nat := WF.srcBits (efSrc ef)
def epiBad (d : BitVec 128) : Bool := dBsz d != 0 || dEf d == 11
/-- Act (R197) on FP32 bits. -/
def actOf (a : Act) (t : Nat) : Nat :=
  let v := fp32.decode t
  if v.isNan then fp32.nan
  else
    let zero : FVal := .fin false 0 0
    match a with
    | .none => t
    | .relu => if ltV zero v then t else 0
    | .clamp6 => if !ltV zero v then 0 else if ltV v (ofInt 6) then t else 0x40C00000
    | .tanh => (special fp32 .tanh t).1
    | .sigm => (special fp32 .sigm t).1
/-- The output z of an element: scale and bias, activation, conversion. -/
def epiElem (a : Act) (scl bias : Bool) (d : BitVec 128) (y scale b : Word) : Nat :=
  let s := if scl then fp32.decode scale.toNat else ofInt 1
  let bv := if bias then fp32.decode b.toNat else .fin false 0 0
  let t := if scl || bias then (fmaV fp32 false (fp32.decode y.toNat) s bv).1 else y.toNat
  (toEf (dEf d) (dRnd d) (dSat d) (actOf a t) 0).1
/-- All elements, row by row: z at 32m + n. The bias has been read before, or is read now. -/
def epiAll (s : State) (g : Workgroup) (o : Outst) (a : Act) (scl bias : Bool) (d : BitVec 128) (blk : Nat) (scale : Word) (bt : Nat) : List Nat :=
  let acc := accOf (coreOf s g.core) (nth g.accs blk 0)
  let bp := nth g.tiles bt 0
  let bs := (List.range 32).map fun n => if !bias then 0 else if o.res.vals.isEmpty then wd (bytesNat s g.core (2048 * bp + 4 * n) 4)
    else lo32 ((nth o.res.vals n 0).setWidth 64)
  (List.range 1024).map fun i => epiElem a scl bias d (findD acc.els i 0) scale (nth bs (i % 32) 0)
/-- The wait of an epilogue before it issues: a RELEASING block (R177). -/
def epiBusy (o : Opd) (x : Iss) (s : State) : Bool :=
  (slotDesc s x.w (ctlOf x.i).fmt.toNat).isSome && (match wgOf s x.w with
    | some g => decide ((x.epiArgs o).1 < g.accs.length) && releasing s g (x.epiArgs o).1 s.nextId
    | none => false)
/-- An epilogue that has passed its checks waits for its block and bias. -/
def epiPost (blk : Nat) (store : Bool) (bytes : List (Nat × Nat)) (wins : List (Nat × Nat × Nat × Nat)) (x : Iss) (id : Nat) : Action := acts [
  addOut x.k (x.out id (.epi false) noRes),
  modWg x.w.wg fun g => { g with epis := if g.epis.any (fun e => e.id == id) then g.epis
    else g.epis ++ [⟨id, { x.point id with lanes := x.mask }, blk, [], store, bytes, wins⟩] }]
/-- Where the rows of an `epi.st` lead, in pieces of a line. -/
def epiDests (s : State) (x : Iss) (ea stride n : Nat) : List (Where × Nat) :=
  (List.range 32).flatMap fun r => (chop 4 ((ea + r * stride) % 2 ^ 64) (zeros n)).filterMap fun (a, bs) =>
    match x.xlate s .write (dw a) with
    | .ok t => some (t.dest, bs.length)
    | .error _ => none
/-- The physical runs of bytes that it is to store, those behind a window of the own package among them, and the runs behind windows. -/
def epiRuns (s : State) (l : List (Where × Nat)) : List (Nat × Nat) := l.filterMap fun (d, n) => match d with
  | .mem pa _ => some (pa, n)
  | .win p g o => if p = ownPeer s then some (segRun s g o, n) else none
  | .fwreg _ => none
def epiWins (l : List (Where × Nat)) : List (Nat × Nat × Nat × Nat) := l.filterMap fun (d, n) => match d with
  | .win p g o => some (p, g, o, n)
  | _ => none
/-- The checks of R197 on the slot, the block and the tiles. -/
def epiChecks (x : Iss) (bias : Bool) (o : Opd) (tiles : BitVec 128 → Option (Nat × Nat)) (rest : BitVec 128 → Action) : Action :=
  withSlot x epiBad fun d => look fun s =>
    let (blk, _, bt, _) := x.epiArgs o
    let nt := (x.tiles s).length
    if x.accs s ≤ blk then x.trap cauAcc 0 0
    else if bias && decide (nt ≤ bt) then x.trap cauTile 0 0
    else if (match tiles d with | some (t, n) => decide (nt < t + n) | none => false) then x.trap cauTile 0 0
    else rest d
def performEpiSt (bias : Bool) (o : OM) (x : Iss) (id : Nat) : Action :=
  epiChecks x bias o.data (fun _ => none) fun d => 
    let (blk, _, _, stride) := x.epiArgs o.data
    let ea := x.ea o (lowest x.g)
    let eb := efBits (dEf d) / 8
    if ea.toNat % eb != 0 || stride % eb != 0 then x.trap 3 ea 0
    else acts [noRestart x.w.wg, look fun s =>
      let l := epiDests s x ea.toNat stride (32 * eb)
      epiPost blk true (epiRuns s l) (epiWins l) x id]
/-- R196. -/
def execEpiSt (c : Ctl) (a : Act) (scl bias tr : Bool) (o : OM) (s : State) : Host.Outcome State Fault Refusal :=
  issueLong (.epiSt c a scl bias tr o) .uni (epiBusy o.data) (performEpiSt bias o) s
def epiTiles (o : OT) (x : Iss) (d : BitVec 128) : Nat × Nat := (x.tileNo o, if efBits (dEf d) = 32 then 2 else 1)
def performEpiT (bias : Bool) (o : OT) (x : Iss) (id : Nat) : Action :=
  epiChecks x bias o.data (fun d => some (epiTiles o x d)) fun _ =>
    epiPost (x.epiArgs o.data).1 false [] [] x id
/-- R196. -/
def execEpiT (c : Ctl) (a : Act) (scl bias : Bool) (o : OT) (s : State) : Host.Outcome State Fault Refusal :=
  issueLong (.epiT c a scl bias o) .uni (epiBusy o.data) (performEpiT bias o) s

/-- An epilogue is accepted: it completes, and a block whose release waited for it alone becomes FREE (R177, R198). -/
def epiAccept (wk : Nat) (w : Warp) (o : Outst) : Action := acts [dropOut wk o.id, endEpis w.wg [o.age], sink w.ctx]
/-- The stores of an `epi.st`: 32 rows (or columns, with TR) at the stride, in pieces of up to 16 aligned bytes (R211). -/
def chop16 : Nat → Nat → List Byte → List (Nat × List Byte)
  | 0, _, _ => []
  | f + 1, a, bs =>
    if bs.isEmpty then [] else
      let n := 16 - a % 16
      (a % 2 ^ 64, bs.take n) :: chop16 f (a + n) (bs.drop n)
def epiRows (ea stride eb : Nat) (tr : Bool) (z : List Nat) : List (Nat × List Byte) :=
  (List.range 32).map fun r => ((ea + r * stride) % 2 ^ 64,
    (List.range 32).flatMap fun c => le eb (nth z (if tr then 32 * c + r else 32 * r + c) 0))
/-- Whether the group of an epilogue translates at supervisor level. -/
def epiSup (s : State) (w : Warp) (o : Outst) : Bool := ctxSup s w.ctx ||
  (w.level == 1 && (lanesOf o.mask).any fun i => (laneOf w i).st == .trapped)
/-- The pieces stored, translated (R198): the first failing address, or where each leads. -/
def epiXlate (s : State) (w : Warp) (o : Outst) (l : List (Nat × List Byte)) : Except (Nat × XFault) (List (Nat × Where × List Byte)) :=
  l.foldr (fun (a, bs) r => match translate s w.ctx (epiSup s w o) .write (dw a) with
    | .error f => .error (a, f)
    | .ok x => r.map fun r => (a, x.dest, bs) :: r) (.ok [])
/-- Stores of a point's threads after it to some bytes, with every store that has to follow one of them. -/
def laterStores (s : State) (p : Point) (runs : List (Nat × Nat)) : List Nat :=
  s.stores.foldl (fun acc q =>
    if q.entered.isNone && q.po.core == p.core && q.po.ctx == p.ctx && ((q.po.same p && decide (p.age < q.po.age) && runs.any fun r => q.hits r.1 r.2) ||
      s.stores.any fun r => acc.contains r.id && r.hits q.pa q.bytes.length) then acc ++ [q.id] else acc) []
/-- Those stores take their places anew behind every other. -/
def behind (ids : List Nat) : Action := fun s =>
  let l := s.stores.filter fun q => ids.contains q.id
  if l.isEmpty then [] else
    [.stores ((s.stores.filter fun q => !ids.contains q.id) ++ mapI (fun i q => { q with id := s.nextId + i }) l), .nextId (s.nextId + l.length)]
/-- The stores enter the memory system as stores of the group, in its po at the epilogue (R198, R225). -/
def epiStores (wk : Nat) (w : Warp) (x : Iss) (o : Outst) (l : List (Nat × Where × List Byte)) : Action := look fun s =>
  let p := o.point w wk o.mask
  let loc : List StoreOp := l.filterMap fun (a, d, bs) => match d with | .mem pa c => some ⟨p, a, pa, c, bs⟩ | _ => none
  acts [
    x.lookups (loc.map fun e => (0, dw e.va, e.pa, e.cached)),
    addStores none 0 loc,
    behind (laterStores s p (loc.map fun e => (e.pa, e.bytes.length))),
    forEach l fun (_, d, bs) => match d with
      | .win p g off => remoteAt o.age w.core w.ctx wk 0 (lowest o.mask) 2 p g off bs.length 0 bs
      | _ => skip]
/-- The output of an epilogue whose block and bias are ready. -/
def epiRun (wk : Nat) (w : Warp) (g : Workgroup) (o : Outst) : Action := look fun s =>
  let x := replayIss s wk w o
  let d := (slotDesc s w (ctlOf o.ins).fmt.toNat).getD 0
  let eb := efBits (dEf d) / 8
  let chg := charge (some w.ctx) [⟨18, 1, clusterNo w.core⟩]
  let acquire (bias : Bool) : Action := if bias then l1Discard w.core else skip
  match o.ins with
  | .epiSt _ a scl bias tr q =>
    let (blk, scale, bt, stride) := x.epiArgs q.data
    let z := epiAll s g o a scl bias d blk scale bt
    let rows := epiRows (x.ea q (lowest o.act)).toNat stride eb tr z
    let pieces (r : List (Nat × List Byte)) := r.flatMap fun (a, bs) => chop16 10 a bs
    match epiXlate s w o (pieces rows) with
    | .error (a, f) => acts [noteWalk w.ctx (clusterNo w.core) (dw a) f.lines,
        forEach (pcGroups w o.mask) fun m =>
          raise wk ⟨m, faultCause .write f, o.pc, (laneOf w (lowest m)).pc, dw a, syndrome .write f, none⟩]
    | .ok _ => acts [chg, acquire bias, forEach (dedup ((pieces rows).map fun e => e.1 / 65536)) fun pg => look fun s =>
        noteWalk w.ctx (clusterNo w.core) (dw (65536 * pg)) (match translate s w.ctx (epiSup s w o) .write (dw (65536 * pg)) with
          | .ok t => t.lines
          | .error f => f.lines),
      anyOrder (decide (stride < 32 * eb)) rows fun rows => look fun s =>
        match epiXlate s w o (pieces rows) with
        | .ok l => epiStores wk w x o l
        | .error _ => skip, epiAccept wk w o]
  | .epiT _ a scl bias q =>
    let (blk, scale, bt, _) := x.epiArgs q.data
    let z := epiAll s g o a scl bias d blk scale bt
    let bytes := (List.range 32).flatMap fun n => (List.range 32).flatMap fun m => le eb (nth z (32 * m + n) 0)
    let t := x.tileNo q
    let units := (List.range (16 * eb)).map fun u => { noArrival with
      id := s.nextId + u, ctx := w.ctx, srcCore := w.core, launch := g.launch, core := w.core, tile := t + u / 32, off := 64 * (u % 32), po := o.point w wk o.mask
      data := (bytes.drop (64 * u)).take 64, retry := true, epi := some (w.wg, o.age) }
    acts [chg, acquire bias, addArrivals units,
      modOut wk o.id fun o => { o with kind := .epi true },
      modWg w.wg fun g => { g with epis := g.epis.map fun e => if e.id = o.age then { e with arrivals := units.map (·.id) } else e }]
  | _ => skip
/-- Whether an epilogue's block is past its passes and its bias tile FULL. -/
def epiReady (s : State) (w : Warp) (g : Workgroup) (o : Outst) : Bool :=
  let x := replayIss s 0 w o
  let winsReady := g.epis.all fun e => e.id != o.age || e.wins.isEmpty || (readsDone s e.po && fencesGone s e.po)
  let at' (q : Opd) (bias : Bool) : Bool :=
    !passesOn s w.wg (x.epiArgs q).1 o.age && winsReady && (!bias || !o.res.vals.isEmpty || isFull s g.core (nth g.tiles (x.epiArgs q).2.2.1 0))
  match o.ins with
  | .epiSt _ _ _ bias _ q => at' q.data bias
  | .epiT _ _ _ bias q => at' q.data bias
  | _ => false
/-- R177, R197 to R199: an epilogue computes and stores, or is accepted once its arrivals have been taken. -/
def execEpilogueAccepted (wk id : Nat) (s : State) : Host.Outcome State Fault Refusal :=
  event (look fun s => match find s.warps wk with
    | none => skip
    | some w => match w.outs.find? (fun o => o.id == id), wgOf s w with
      | some o, some g => match o.kind with
        | .epi false => if epiReady s w g o && !faultWaits w o then epiRun wk w g o else skip
        | .epi true => if g.epis.all fun e => e.id != o.age || e.arrivals.isEmpty then epiAccept wk w o else skip
        | _ => skip
      | _, _ => skip) s

end Sys2Proof.Machine
end

