-- ==== Sys2Proof/Machine/Cards.lean ====
section
/-! DEFINITION. Engine job cards (R223, R224, R257 to R261, R495). -/
namespace Sys2Proof.Machine

/-! ### The descriptor (R258) -/

def fld (b : List Byte) (o n : Nat) : Nat := leNat ((b.drop o).take n)
def cOp (d : List Byte) : Nat := fld d 0 4 % 16
def cNin (d : List Byte) : Nat := nbits (fld d 0 4) 13 3
def cNout (d : List Byte) : Nat := nbits (fld d 0 4) 16 2
def cFmt (d : List Byte) : Nat := nbits (fld d 0 4) 10 3
def cPerm (d : List Byte) : Bool := nbits (fld d 0 4) 18 1 == 1
def cTake (d : List Byte) : Bool := nbits (fld d 0 4) 19 1 == 1
def cLen (d : List Byte) : Nat := fld d 4 4
def cK0 (d : List Byte) : Nat := fld d 8 2
def cN0 (d : List Byte) : Nat := fld d 10 2
def cStr (d : List Byte) : Nat := fld d 12 4
def cT0 (d : List Byte) : Nat := nbits (fld d 0x10 4) 0 10
def cNt (d : List Byte) : Nat := nbits (fld d 0x10 4) 10 6
/-- Region i of the four inputs and two outputs: base, length, reserved word. -/
def region (d : List Byte) (i : Nat) : Nat × Nat × Nat := (fld d (0x20 + 16 * i) 8, fld d (0x28 + 16 * i) 4, fld d (0x2C + 16 * i) 4)
def inRegs (d : List Byte) : List (Nat × Nat) := (List.range (min 4 (cNin d))).map fun i => ((region d i).1, (region d i).2.1)
def outRegs (d : List Byte) : List (Nat × Nat) := (List.range (min 2 (cNout d))).map fun i => ((region d (4 + i)).1, (region d (4 + i)).2.1)
/-- Ranges of virtual addresses share a byte. -/
def rangesMeet (a b : List (Nat × Nat)) : Bool :=
  a.any fun x => b.any fun y => decide (x.1 < y.1 + y.2) && decide (y.1 < x.1 + x.2)
/-- Every byte of a run lies in the union of the regions. -/
def covered (rs : List (Nat × Nat)) : Nat → Nat → Nat → Bool
  | 0, _, n => n == 0
  | f + 1, a, n =>
    if n = 0 then true
    else match rs.find? fun r => decide (r.1 ≤ a) && decide (a < r.1 + r.2) with
      | none => false
      | some r => covered rs f (min (a + n) (r.1 + r.2)) (n - (min (a + n) (r.1 + r.2) - a))
def inRegions (rs : List (Nat × Nat)) (l : List (Nat × Nat)) : Bool := l.all fun r => covered rs (rs.length + 1) r.1 r.2
/-- The first row of R261: reserved bits, codes, multiples, ranges and the fields R495 wants zero. -/
def cardInvalid (d : List Byte) : Bool :=
  let ctl := fld d 0 4
  let op := cOp d
  let used (i : Nat) : Bool := if i < 4 then decide (i < cNin d) else decide (i - 4 < cNout d)
  let regs := (List.range 6).any fun i =>
    let (b, n, r) := region d i
    if used i then n == 0 || r != 0 else b != 0 || n != 0 || r != 0
  let org := cK0 d % 32 != 0 || cN0 d % 32 != 0
  let tgt := fld d 0x12 2 != 0 || cNt d == 0 || decide (32 < cNt d)
  nbits ctl 20 12 != 0 || nbits ctl 4 6 != 0 || cNout d == 3 || decide (4 < cNin d) || regs ||
  (match op with
   | 0 => fld d 8 4 != 0 || cStr d != 0 || fld d 0x10 4 != 0 || cTake d || cPerm d || cFmt d != 0 ||
       cLen d == 0 || cNin d == 0 || cNout d == 0
   | 1 => cTake d || (!cPerm d && cFmt d != 0) || org || tgt || cStr d % 2 != 0 || cNin d == 0 || decide (cLen d < cK0 d + 32)
   | 2 => cStr d != 0 || cTake d || cPerm d || org || tgt || cNin d == 0 || decide (cLen d < cK0 d + 32)
   | 3 => cLen d != 0 || fld d 8 4 != 0 || cStr d != 0 || cPerm d || cFmt d != 0 || tgt || cNout d == 0
   | _ => true)

/-! ### Issue (R257) -/

def cardCount (s : State) (cl : Nat) : Nat := ((clusterOf s cl).cards.filter fun c => c.running || (ctxOf s c.ctx).resident || (ctxOf s c.ctx).stopping || wgGone s c.wg).length
/-- The counter's address. -/
def cardCtr (x : Iss) (o : OM) : Option DWord := match o.data with | .s _ => some (x.val64 o.data 0) | _ => none
/-- A translation that has to lead to memory. -/
def memOnly (a : Nat) : Except XFault Xlate → Except (Nat × XFault) Nat
  | .error f => .error (a, f)
  | .ok x => match x.dest with
    | .mem pa _ => .ok pa
    | _ => .error (a, ⟨6, 0, 3, x.lines⟩)
/-- The descriptor's two lines, each translated (its second may lie on the next page), and the counter: the first failing access, or the
physical addresses of the lines (R257). -/
def cardRead (s : State) (x : Iss) (o : OM) : Except (Nat × AccKind × XFault) (List Nat) :=
  let dva := x.ea o (lowest x.g)
  let line (a : DWord) : Except (Nat × AccKind × XFault) Nat := match memOnly a.toNat (x.xlate s .read a) with
    | .error (a, f) => .error (a, .read, f)
    | .ok pa => .ok pa
  (line dva).bind fun p => (line (dva + 64)).bind fun q => match cardCtr x o with
    | none => .ok [p, q]
    | some c => match memOnly c.toNat (x.xlate s .rmw c) with
      | .error (a, f) => .error (a, .rmw, f)
      | .ok _ => .ok [p, q]
def cardMis (x : Iss) (o : OM) : Option DWord :=
  let dva := x.ea o (lowest x.g)
  if dva.toNat % 64 != 0 then some dva
  else match cardCtr x o with
    | some c => if c.toNat % 8 != 0 then some c else none
    | none => none
/-- The scheduler is full, or an earlier access of its threads has to come before the descriptor is read. An address that fails a check traps
at once, with the scheduler full too (log 70). -/
def cardBusy (o : OM) (x : Iss) (s : State) : Bool :=
  let p := x.point s.nextId
  (cardMis x o).isNone && (match cardRead s x o with
    | .ok l => decide (64 ≤ cardCount s (clusterNo x.w.core)) || l.any fun pa => !runReady s p pa 64
    | .error _ => false)
def performCard (o : OM) (x : Iss) (id : Nat) : Action := look fun s =>
  let dva := x.ea o (lowest x.g)
  match cardMis x o with
  | some a => x.trap 13 a 0
  | none => match cardRead s x o with
    | .error (a, k, f) => acts [x.walks k [0] fun _ => dw a, x.fault id (faultCause k f) (dw a) (syndrome k f)]
    | .ok l => match wgOf s x.w with
      | none => skip
      | some g =>
        let p := x.point id
        let d := l.flatMap fun pa => overlay s p pa 64
        acts [
          x.walks .read [0, 1] fun i => dva + dw (64 * i),
          match cardCtr x o with | some c => x.walks .rmw [0] fun _ => c | none => skip,
          noteRead p,
          forEach l fun pa => l1Refresh x.w.core x.w.ctx pa,
          homeHinted (payer x.w) (clusterNo x.w.core) (ctlOf x.i).hint.toNat false (l.map (· / 64)),
          modCluster (clusterNo x.w.core) fun c => { c with cards := c.cards ++
            [⟨id, p, x.w.core, x.w.ctx, x.w.wg, g.launch, d, dva, cardCtr x o, supNow s x.w, false, 0, 0, [], [], [], 0, 0, [], [], [], []⟩] },
          if cOp d == 3 && cTake d then forEach (tileRun g (cT0 d) (cNt d)) fun p => regrant x.w.wg p else skip]
/-- R257. -/
def execCard (c : Ctl) (o : OM) (s : State) : Host.Outcome State Fault Refusal :=
  issueLong (.card c o) .uni (cardBusy o) (performCard o) s

/-! ### Accesses of the copy engine -/

/-- Pieces of a run that do not cross a 64 B line. -/
def lineRuns : Nat → Nat → Nat → List (Nat × Nat)
  | 0, _, _ => []
  | f + 1, a, n => if n = 0 then [] else
      let m := min n (64 - a % 64)
      (a % 2 ^ 64, m) :: lineRuns f (a + m) (n - m)
/-- Bytes of a run with the lines read, or the first failing address. -/
def cardLoad (s : State) (c : Card) (a n : Nat) : Except Nat (List Byte × List Nat) :=
  (lineRuns (n / 64 + 2) a n).foldl (fun r p => r.bind fun (bs, ls) =>
    match memOnly p.1 (translate s c.ctx c.sup .read (dw p.1)) with
    | .error (e, _) => .error e
    | .ok pa => .ok (bs ++ memBytes s.mem pa p.2, ls ++ [pa / 64])) (.ok ([], []))
/-- Several runs. -/
def cardLoads (s : State) (c : Card) (l : List (Nat × Nat)) : Except Nat (List (List Byte) × List Nat) :=
  l.foldl (fun r p => r.bind fun (bs, ls) => (cardLoad s c p.1 p.2).map fun (b, l) => (bs ++ [b], ls ++ l)) (.ok ([], []))
def modCard (cl id : Nat) (f : Card → Card) : Action := modCluster cl fun r =>
  { r with cards := r.cards.map fun c => if c.id = id then f c else c }
/-- A card ends with a status; tiles granted to it that it has not read go to others (R248). -/
def cardEnd (cl : Nat) (c : Card) (status : Nat) (fva : Nat) : Action := acts [
  modCard cl c.id fun c => { c with status := status, fva := dw fva, todo := [], got := [] }, dropGrants c.core [c.id]]
/-- The walks of a card's accesses, one for a page (R375). -/
def cardWalks (cl : Nat) (c : Card) (k : AccKind) (runs : List (Nat × Nat)) : Action :=
  forEach (dedup (runs.flatMap fun r => [r.1 / 65536, (r.1 + r.2 - 1) / 65536])) fun pg => look fun s =>
    noteWalk c.ctx cl (dw (65536 * pg)) (match translate s c.ctx c.sup k (dw (65536 * pg)) with | .ok x => x.lines | .error f => f.lines)
/-- Bytes written by the engine at once, up to the first failing address. -/
def cardStore (cl : Nat) (c : Card) (k : Action) : List (Nat × List Byte) → Action
  | [] => k
  | (a, bs) :: r => look fun s =>
    match memOnly a (translate s c.ctx c.sup .write (dw a)) with
    | .error (e, _) => acts [cardWalks cl c .write [(a, bs.length)], cardEnd cl c 7 e]
    | .ok pa => acts [cardWalks cl c .write [(a, bs.length)], noRestart c.wg, poke pa bs, modCard cl c.id fun c => { c with wlines := dedup (c.wlines ++ linesOf pa bs.length) }, cardStore cl c k r]
/-- A unit of a card that is done. -/
def unitDone (cl : Nat) (c : Card) (u : Nat) : Action := modCard cl c.id fun c => { c with todo := c.todo.filter (· != u) }
/-- The COPY of 16 bytes at an offset; the next unit follows (R259). -/
def cardCopy (cl : Nat) (c : Card) (src dst len i : Nat) : Action := look fun s =>
  let n := min 16 (len - i)
  match cardLoad s c (src + i) n with
  | .error e => acts [cardWalks cl c .read [(src + i, n)], cardEnd cl c 7 e]
  | .ok (bs, ls) => acts [
      cardWalks cl c .read [(src + i, n)],
      modCard cl c.id fun c => { c with rlines := dedup (c.rlines ++ ls) },
      cardStore cl c (modCard cl c.id fun c => { c with todo := if i + 16 < len then [i + 16] else [] })
        (((chop 3 (dst + i) bs)).map fun p => (p.1 % 2 ^ 64, p.2))]

/-! ### Operations (R99, R101, R259) -/

/-- Addresses of an element's data, scale code and super-block scale (R99). -/
def elemAddr (d : BitVec 128) (base e : Nat) : Nat × Nat × Nat :=
  let eb := if dEf d = 11 then 4 else efBits (dEf d)
  if dBsz d = 0 then (base + e * eb / 8, 0, 0)
  else
    let bs := if dBsz d = 1 then 32 else 64
    let b := e / bs
    let g := b / 256
    let dsb := 256 * bs * eb / 8
    let packed := nbits d.toNat 10 2 == 0
    let rec_ := base + g * (dsb + 320)
    let data := if packed then rec_ else base + g * dsb
    let scl := if packed then rec_ + dsb else base + 64 * nbits d.toNat 32 32 + 320 * g
    (data + (e % (256 * bs)) * eb / 8, scl + b % 256, scl + 256)
def elemBytes (d : BitVec 128) : Nat := if dEf d = 11 then 1 else efBits (dEf d) / 8
/-- The runs that DECODE reads for an element. -/
def elemRuns (d : BitVec 128) (base e : Nat) : List (Nat × Nat) :=
  let (a, c, s) := elemAddr d base e
  if dBsz d = 0 then [(a, elemBytes d)] else [(a, elemBytes d), (c, 1), (s, 4)]
/-- The BF16 value of a decoded element (R96). -/
def elemDecode (d : BitVec 128) (e : Nat) (bs : List (List Byte)) : Nat :=
  let raw := leNat (nth bs 0 [])
  let v := if dEf d = 11 then codeVal (nbits raw (4 * (e % 2)) 4) else srcVal (efSrc (dEf d)) raw
  if dBsz d = 0 then decodeBlock v 256 (ofInt 1)
  else decodeBlock v (leNat (nth bs 1 [])) (fp32.decode (leNat (nth bs 2 [])))
/-- A permutation table read through the card's translation (R101): its status code or its entries, with the lines. -/
def permTable (s : State) (c : Card) (d : BitVec 128) : Except (Nat × Nat) (List Nat × List Nat) :=
  let p := nbits d.toNat 64 64
  match cardLoad s c p 64 with
  | .error e => .error (7, e)
  | .ok (h, l1) =>
    let n := leNat (h.take 4)
    if (h.drop 4).any (· != 0) || n == 0 || decide (65536 < n) then .error (4, 0)
    else match cardLoad s c (p + 64) (2 * n) with
      | .error e => .error (7, e)
      | .ok (b, l2) =>
        let es := (List.range n).map fun i => fld b (2 * i) 2
        let seen := es.foldl (fun m e => put m e ()) ([] : SMap Unit)
        if (es.any fun e => decide (n ≤ e)) || seen.length != n then .error (4, 0)
        else if n != cLen c.desc then .error (5, 0) else .ok (es, l1 ++ l2)
/-- Column n of tile j, in order. -/
def cardCols (d : List Byte) : List Nat := (List.range (32 * cNt d)).map fun i => cN0 d + i
/-- Runs of LOAD for a column, row by row. -/
def loadRuns (d : List Byte) (perm : List Nat) (col : Nat) : List (Nat × Nat) :=
  let base := (region d 0).1 + col * cStr d
  (List.range 32).map fun k =>
    let r := if cPerm d then nth perm (cK0 d + k) 0 else cK0 d + k
    ((base + 2 * r) % 2 ^ 64, 2)
def slotOfLaunch (s : State) (l k : Nat) : Option (BitVec 128) :=
  (find s.launches l).bind fun l => if nbits l.lr.fmtv k 1 = 1 then some (nth l.lr.fmts k 0) else none
def tooWide (ef : Nat) : Bool := ef == 0 || (decide (7 ≤ ef) && decide (ef ≤ 10))
/-- The checks of R261 up to the tile allotment: a status with the failing address, or the slot and the table, which
of the operations only LOAD reads (R101, R259; log 70). -/
def cardChecks (s : State) (c : Card) (tiles : Nat) : Except (Nat × Nat) (BitVec 128 × List Nat × List Nat) :=
  let d := c.desc
  let op := cOp d
  let usesSlot := op == 2 || (op == 1 && cPerm d)
  if cardInvalid d then .error (1, 0)
  else match slotOfLaunch s c.launch (cFmt d) with
    | none => if usesSlot then .error (2, 0) else if op != 0 && decide (tiles < cT0 d + cNt d) then .error (6, 0) else .ok (0, [], [])
    | some f =>
      if (op == 2 && tooWide (dEf f)) || (op == 1 && cPerm d && nbits f.toNat 12 1 == 0) then .error (1, 0)
      else if op == 2 && dBsz f != 0 && (region d 0).1 % 64 != 0 then .error (3, 0)
      else match if op == 1 && cPerm d then permTable s c f else .ok ([], []) with
        | .error e => .error e
        | .ok (p, ls) => if op != 0 && decide (tiles < cT0 d + cNt d) then .error (6, 0) else .ok (f, p, ls)
/-- The runs of its permutation table that a card reads (R101): the header, and the entries of a valid one. -/
def permRuns (s : State) (c : Card) : List (Nat × Nat) :=
  if cardInvalid c.desc || !(cOp c.desc == 1 && cPerm c.desc) then [] else match slotOfLaunch s c.launch (cFmt c.desc) with
  | none => []
  | some f =>
    let p := nbits f.toNat 64 64
    if nbits f.toNat 12 1 = 0 then [] else match cardLoad s c p 64 with
    | .error _ => [(p, 64)]
    | .ok (h, _) => if (h.drop 4).any (· != 0) || leNat (h.take 4) == 0 || decide (65536 < leNat (h.take 4)) then [(p, 64)] else [(p, 64 + 2 * leNat (h.take 4))]
/-- The runs that LOAD or DECODE reads for each row of its column i. -/
def cardRows (s : State) (c : Card) (i : Nat) : List (List (Nat × Nat)) :=
  let d := c.desc
  let col := cN0 d + i
  if cOp d = 1 then (loadRuns d c.perm col).map fun r => [r]
  else (List.range 32).map fun k => elemRuns ((slotOfLaunch s c.launch (cFmt d)).getD 0) (region d 0).1 (col * cLen d + cK0 d + k)
/-- The aligned 16-byte units that hold the elements of a column (R211). -/
def unitOf (row : List (Nat × Nat)) : Nat := (nth row 0 (0, 0)).1 / 16
def cardUnits (rows : List (List (Nat × Nat))) : List Nat := dedup (rows.map unitOf)
/-- A card begins: its checks, the tiles of a STORE read, its units set out (R261). -/
def cardOp (cl : Nat) (c : Card) (g : Workgroup) : Action := look fun s =>
  let d := c.desc
  acts [cardWalks cl c .read (permRuns s c), match cardChecks s c g.tiles.length with
  | .error (st, a) => cardEnd cl c st a
  | .ok (_, perm, pls) =>
    let c' := { c with perm := perm }
    match cOp d with
    | 0 =>
      if !inRegions (inRegs d) [((region d 0).1, cLen d)] || !inRegions (outRegs d) [((region d 4).1, cLen d)] then cardEnd cl c 1 0
      else modCard cl c.id fun c => { c with todo := [0] }
    | 3 =>
      if !inRegions (outRegs d) [((region d 4).1, 2048 * cNt d)] then cardEnd cl c 1 0
      else
        let ps := c.inTiles g
        let bytes := if c.data.isEmpty then ps.flatMap fun p => padRead s g.core (2048 * p) 2048 else c.data
        acts [
          l1Discard c.core,
          if cTake d then emptyTiles g.core ps else skip,
          modCard cl c.id fun c => { c with
            units := 32 * cNt d, data := bytes, todo := List.range (chop16 (128 * cNt d + 2) (region d 4).1 bytes).length }]
    | op =>
      let rows := (List.range (32 * cNt d)).map (cardRows s c')
      if !(rows.all fun r => inRegions (inRegs d) r.flatten) then cardEnd cl c 1 0
      else modCard cl c.id fun c => { c with
        perm := perm, rlines := dedup pls, dtiles := if op = 2 then cNt d else 0
        todo := (mapI (fun i r => (List.range (cardUnits r).length).map (32 * i + ·)) rows).flatten }]
/-- A column read whole is sent as an arrival (R254, R259), unless its workgroup has been stopped. -/
def cardColumn (cl i : Nat) (id : Nat) : Action := look fun s =>
  match (clusterOf s cl).cards.find? fun c => c.id == id with
  | none => skip
  | some c =>
    if c.todo.any fun u => u / 32 == i then skip
    else if (find s.wgs c.wg).isNone then skip
    else fun s => acts [
      addArrivals [{ noArrival with
        ctx := c.ctx, srcCore := c.core, launch := c.launch, core := c.core, tile := cT0 c.desc + i / 32, off := 64 * (i % 32), po := c.po
        data := (List.range 32).flatMap fun k => le 2 (findD c.got (32 * i + k) 0), retry := true, card := some (cl, c.id) }],
      modCard cl id fun c => { c with arrivals := c.arrivals ++ [s.nextId], got := c.got.filter fun e => e.1 / 32 != i }] s
/-- LOAD and DECODE read the elements of a column that lie in one unit. -/
def cardElems (cl : Nat) (c : Card) (u : Nat) : Action := look fun s =>
  let rows := cardRows s c (u / 32)
  let at' := nth (cardUnits rows) (u % 32) 0
  let mine := (List.range 32).filter fun k => unitOf (nth rows k []) == at'
  let runs := mine.flatMap fun k => nth rows k []
  acts [cardWalks cl c .read runs,
    match mine.foldl (fun r k => r.bind fun (vs, ls) => (cardLoads s c (nth rows k [])).map fun (b, l) => (vs ++ [(k, b)], ls ++ l)) (Except.ok ([], [])) with
    | .error e => cardEnd cl c 7 e
    | .ok (vs, ls) =>
      let f := (slotOfLaunch s c.launch (cFmt c.desc)).getD 0
      let val (k : Nat) (b : List (List Byte)) : Nat := if cOp c.desc = 1 then leNat (nth b 0 [])
        else elemDecode f ((cN0 c.desc + u / 32) * cLen c.desc + cK0 c.desc + k) b
      acts [
        modCard cl c.id fun c => { c with
          got := vs.foldl (fun m e => put m (32 * (u / 32) + e.1) (val e.1 e.2)) c.got, rlines := dedup (c.rlines ++ ls) },
        unitDone cl c u, cardColumn cl (u / 32) c.id]]
/-- A unit of a card that runs: the next one of a COPY, of another operation any that is left (R211). -/
def cardStep (cl id : Nat) : Action := look fun s => match (clusterOf s cl).cards.find? fun c => c.id == id with
  | none => skip
  | some c => if !c.running || c.todo.isEmpty then skip
    else if cOp c.desc = 0 then cardCopy cl c (region c.desc 0).1 (region c.desc 4).1 (cLen c.desc) (nth c.todo 0 0)
    else withFree fun t =>
      let u := nth c.todo (Config.freeChoice t % c.todo.length) 0
      if cOp c.desc = 3 then cardStore cl c (unitDone cl c u) [nth (chop16 (128 * cNt c.desc + 2) (region c.desc 4).1 c.data) u (0, [])]
      else cardElems cl c u

/-! ### Scheduling and completion (R223, R224, R260, R261) -/

/-- A card that has read and written what it has to. -/
def Card.acted (c : Card) : Bool := c.running && c.todo.isEmpty
/-- An edge from an earlier card of the same core that has not yet acted. -/
def cardEdge (k1 k2 : Card) : Bool :=
  k1.core == k2.core && k1.ctx == k2.ctx && decide (k1.id < k2.id) && !k1.acted &&
  (rangesMeet (outRegs k1.desc) (inRegs k2.desc) || rangesMeet (inRegs k1.desc) (outRegs k2.desc) || rangesMeet (outRegs k1.desc) (outRegs k2.desc))
/-- What the issue of the card releases has been performed: the writes its thread has performed or seen (R223). -/
def cardReleased (s : State) (c : Card) : Bool := relDone s .dev c.po
/-- A STORE, whatever else its descriptor holds, waits for the tiles that it names in the allotment; a card of a workgroup that has ended does not wait
for its context (R44, R260; log 24). -/
def cardReady (s : State) (l : List Card) (c : Card) : Bool :=
  !c.running && ((ctxOf s c.ctx).resident || wgGone s c.wg) && !(l.any fun k => cardEdge k c) && cardReleased s c &&
  (match find s.wgs c.wg with
   | none => false
   | some g => (!c.takes && !c.data.isEmpty) || tilesReady s g.core c.id c.takes (c.inTiles g))
/-- R260: the oldest ready card of a cluster starts once the copy engine is free. -/
def execCardRun (cl id : Nat) (s : State) : Host.Outcome State Fault Refusal :=
  event (look fun s =>
    let l := (clusterOf s cl).cards
    if l.any fun c => !c.todo.isEmpty then skip
    else match l.find? (cardReady s l) with
    | none => skip
    | some c => match find s.wgs c.wg with
      | some g => if c.id = id then acts [modCard cl id fun c => { c with running := true }, cardOp cl c g] else skip
      | none => skip) s
/-- R261: STATUS and FVA, the counter, the charges, a sink. Those that reach memory are writes of the card (R415; log 24). -/
def execCardComplete (cl id : Nat) (s : State) : Host.Outcome State Fault Refusal :=
  event (look fun s => match (clusterOf s cl).cards.find? fun c => c.id == id with
    | none => skip
    | some c =>
      if !c.acted || !c.arrivals.isEmpty then skip
      else acts [
        cardWalks cl c .write [(c.dva.toNat + 0x14, 12)],
        match c.ctr with | none => skip | some a => cardWalks cl c .rmw [(a.toNat, 8)],
        if (paOf s c.ctx c.sup .write (c.dva.toNat + 0x14)).isSome then noRestart c.wg else skip,
        vaWrite c.ctx c.sup (some c.ctx) (c.dva.toNat + 0x14) (le 4 c.status ++ if c.status = 7 then le 8 c.fva.toNat else []),
        match c.ctr with
          | none => skip
          | some a => look fun s => match paOf s c.ctx c.sup .rmw a.toNat with
            | none => skip
            | some pa => acts [noRestart c.wg, poke pa (le 8 (memNat s.mem pa 8 + 1)), homeAccess (some c.ctx) cl true [pa / 64]],
        homeAccess (some c.ctx) cl false c.rlines,
        homeAccess (some c.ctx) cl true c.wlines,
        charge (some c.ctx) [⟨8, c.units, cl⟩, ⟨20, c.dtiles, cl⟩],
        sink c.ctx,
        modCluster cl fun r => { r with cards := r.cards.filter fun c => c.id != id }]) s

end Sys2Proof.Machine
end

