-- ==== Sys2Proof/Machine/Fetch.lean ====
section
/-! DEFINITION. Fetching: the 64-byte block, its header (R50, R51), the entry rules of R54 and checks 1 to 7 of R71. -/
namespace Sys2Proof.Machine

/-- A valid block header (R51). -/
structure BlockHdr where
  slots : Nat
  join : Bool
  pad : Bool
  handler : Bool
  deriving DecidableEq, Repr
/-- The header of a block, unless it is invalid. -/
def blockHdr (b : List Byte) : Option BlockHdr :=
  let h := leNat (b.take 4)
  if nbits h 6 26 != 0 || h % 8 == 0 || decide (5 < h % 8) then none
  else some ⟨h % 8, nbits h 3 1 == 1, nbits h 4 1 == 1, nbits h 5 1 == 1⟩
/-- Versions of a block that were overwritten while a warp's launch was running (R55). -/
def oldText (s : State) (w : Warp) (pa : Nat) : List (List Byte) := match w.fw, wgOf s w with
  | none, some g => (s.old.filter fun o => o.pa == pa && decide (g.launch < o.time)).map (·.bytes)
  | _, _ => []
/-- The text of a block: memory's version or an older one (R55; log 11), of the root-of-trust core that of its ROM (R22; log 72). -/
def textAt (s : State) (w : Warp) (pa : Nat) : List Byte :=
  if w.fw == some 0 then (List.range 64).map fun i => Config.rom (pa + i)
  else match oldText s w pa with
    | [] => memBytes s.mem pa 64
    | l => nth (memBytes s.mem pa 64 :: l) (Config.textChoice s.tick pa % (l.length + 1)) []
/-- Translation of a fetch of the block at an address (R54, R55, R364, R372). -/
def fetchXlate (s : State) (w : Warp) (blk : DWord) : Except XFault Xlate :=
  if w.fw == some 0 then .ok ⟨.mem blk.toNat false, []⟩ else if w.fw.isSome then xlateFw blk else translate s w.ctx (supNow s w) .fetch blk
/-- The block a warp keeps of an address, with its physical address (R55). -/
def keptBlock (w : Warp) (blk : DWord) : Option (Nat × List Byte) :=
  (w.code.find? fun e => e.1 % 2 ^ 64 == blk.toNat).map fun e => (e.1 / 2 ^ 64, e.2)
/-- A thread of the warp stands within a block past its first slot, or returns there from a frame: it has fetched it already. -/
def midBlock (s : State) (w : Warp) (blk : DWord) : Bool :=
  let within (pc : DWord) : Bool := blockAddr pc == blk && slotOf pc != 0
  w.lanes.any (fun l => l.active && within l.pc) || (w.fw.isNone && match wgOf s w with
    | some g => g.frames.any fun f => f.state != 0 && find g.warps w.index == some f.warp && within f.rpc
    | none => false)
/-- The block at a PC's address, read as a whole: the version that the warp has begun to run or still keeps, or memory's (R55); with the
table lines read. -/
def fetchBlock (s : State) (w : Warp) (pc : DWord) : Except XFault (List Byte × List Nat) :=
  let blk := blockAddr pc
  let fresh : Except XFault (List Byte × List Nat) := match fetchXlate s w blk with
    | .error f => .error f
    | .ok x => match x.dest with
      | .mem pa _ => .ok (match keptBlock w blk with
          | some (p, b) => if p = pa then b else textAt s w pa
          | none => textAt s w pa, x.lines)
      | _ => .error ⟨3, 0, 0, x.lines⟩
  match keptBlock w blk with
  | some (_, b) => if midBlock s w blk then .ok (b, []) else fresh
  | none => fresh
/-- Whether a block may run at a trap level (R54). -/
def handlerOk (level : Nat) (h : BlockHdr) : Bool := h.handler == (level == 1)
/-- The instruction text in a slot. -/
def slotBytes (b : List Byte) (slot : Nat) : List Byte := (b.drop (4 + 12 * slot)).take 12

/-- A call-class opcode (R53), whatever the rest of the word. -/
def callWord (b : List Byte) : Bool :=
  let opc := nbits (leNat b) 86 10
  opc == 0x241 || opc == 0x243

/-- The outcome of checks 1 to 7 of R71 at a PC: the trap and where it is taken (R51, R72), or the instruction. -/
inductive Probe where
  | trap (pc : DWord) (cause : Nat) (fva : DWord) (synd : Word)
  | instr (i : Instr) (h : BlockHdr)
  deriving DecidableEq, Repr
/-- Checks 1 to 7 of R71 for a group at a PC. A slot at or above SLOTS is never decoded: such a block is as one whose header is
not valid (log 58). -/
def probe (s : State) (w : Warp) (pc : DWord) : Probe :=
  let blk := blockAddr pc
  match fetchBlock s w pc with
  | .error f => .trap pc 9 blk (syndrome .fetch f)
  | .ok (b, _) => match blockHdr b with
    | none => .trap (blk + 4) 2 0 0
    | some h =>
      let slot := slotOf pc
      if h.slots ≤ slot then .trap (blk + 4) 2 0 0
      else if callWord (slotBytes b slot) && slot + 1 != h.slots then .trap pc 2 0 0
      else if slot = 0 && !handlerOk w.level h then .trap pc 4 blk 0
      else match decodeBytes (slotBytes b slot) with
        | .error _ => .trap pc 1 0 0
        | .ok i => .instr i h
/-- Table lines that a fetch reads, by success or failure (R375). -/
def fetchLines (s : State) (w : Warp) (pc : DWord) : List Nat :=
  match fetchBlock s w pc with
  | .error f => f.lines
  | .ok (_, l) => l
/-- A block fetched is kept, until its core drops it. -/
def keepBlock (k : Nat) (w : Warp) (pc : DWord) : Action := look fun s =>
  let blk := blockAddr pc
  if (keptBlock w blk).isSome && midBlock s w blk then skip else
  match fetchXlate s w blk with
  | .ok ⟨.mem pa _, _⟩ => modWarp k fun w =>
      if w.code.any (fun e => e.1 == pa * 2 ^ 64 + blk.toNat) then w
      else { w with code := (pa * 2 ^ 64 + blk.toNat, textAt s w pa) :: w.code.filter fun e => e.1 % 2 ^ 64 != blk.toNat }
  | _ => skip
/-- The walk of a fetch is noted, and its block kept. -/
def noteFetch (k : Nat) (w : Warp) (pc : DWord) : Action := look fun s => acts [
  if w.fw.isSome then skip else noteWalk w.ctx (clusterNo w.core) (blockAddr pc) (fetchLines s w pc), keepBlock k w pc]

end Sys2Proof.Machine
end

