-- ==== Sys2Proof/Machine/Groups.lean ====
section
/-! DEFINITION. Issue groups (R30, R31, R271, R403): lanes of one warp at one PC that wait for nothing. -/
namespace Sys2Proof.Machine

/-- The lanes of a warp that form groups: those of the handler at trap level 1. -/
def groupSt (w : Warp) : LaneSt := if w.level = 0 then .grouped else .trapped
/-- Lanes of a set at a PC that wait for nothing. -/
def lanesAt (w : Warp) (st : LaneSt) (pc : DWord) : Mask := w.lanesIn fun l => l.st == st && l.wait == .none && l.pc == pc
/-- The groups of a warp by rising PC. -/
def groupsOf (w : Warp) : List (DWord × Mask) :=
  let st := groupSt w
  let pcs := dedup ((w.lanes.filter fun l => l.st == st && l.wait == .none).map fun l => l.pc.toNat)
  (sortBy (fun a b => decide (a ≤ b)) pcs).map fun p => (dw p, lanesAt w st (dw p))

/-! ### New warps (R29, R36, R46, R87, R105) -/

/-- A thread at its first instruction. -/
def newLane (ctx core index width i : Nat) (pc : DWord) (live : Bool) : Lane :=
  ⟨pc + 4, if live then .grouped else .absent, [], 0, 0, dw (ctx * 2 ^ 48 + core * 2 ^ 32 + index * 2 ^ 8 + firstLane width index + i),
    .none, [], none, 0, 0, 0⟩
/-- A warp of a workgroup: `live` lanes, its first uniform registers given. -/
def newWarp (g : Workgroup) (wg : Nat) (width index role live : Nat) (spawned : Bool) (r : Role) (pc : DWord) (params : List Word) : Warp :=
  { ctx := g.ctx, wg := wg, core := g.core, index := index, width := width, role := role, spawned := spawned, fw := none
    nv := r.nv, na := r.na, ns := r.ns
    lanes := (List.range width).map fun i => newLane g.ctx g.core index width i pc (decide (i < live))
    s := (mapI (fun i w => (i, w)) params).foldl (fun m e => putD m e.1 e.2 0) []
    a := [], level := 0, frame := none, cpc := 0, dev := ⟨0, false, false⟩, ctxd := ⟨0, false, false⟩, rem := ⟨0, 0, 0, 0⟩
    outs := [], swq := [], pend := [], hold := none, code := [] }
/-- A warp enters its workgroup. -/
def addWarp (wg index : Nat) (w : Warp) : Action := fun s =>
  [.warp s.nextId (some { w with lanes := w.lanes.map fun l => { l with since := s.now } }), .nextId (s.nextId + 1)] ++
    modWg wg (fun g => { g with warps := put g.warps index s.nextId }) s

end Sys2Proof.Machine
end

