-- ==== Sys2Proof/Machine/Control.lean ====
section
/-! DEFINITION. Control transfers, ends of threads, barriers, phases, spawn, enq, yield and timed waits (R273, R277, R281 to
R286, R292 to R307, R494), and the events that end their waits. -/
namespace Sys2Proof.Machine

/-- The meaning of an instruction of R293. -/
def issueCtl (i : Instr) (busy : Iss → State → Bool) (body : Iss → Nat → Action) (s : State) : Host.Outcome State Fault Refusal :=
  issue i (fun x => x.price .ctl) busy body s
def cauSpawn : Nat := 26
def cauQueue : Nat := 27
def cauBarrier : Nat := 25

/-! ### Transfers (R53, R54, R494, R298) -/

/-- Where a guard-true lane goes, and whether by an indirect transfer. -/
structure Hop where
  lane : Nat
  blk : DWord
  ind : Bool
  deriving DecidableEq, Repr
/-- The raw PAD bit of a block. -/
def padBit (b : List Byte) : Bool := nbits (leNat (b.take 4)) 4 1 == 1
/-- The entry rules of R54 fail at a hop: PAD for an indirect one, HANDLER for a valid header. -/
def landFails (s : State) (w : Warp) (h : Hop) : Bool :=
  match fetchBlock s w h.blk with
  | .error _ => false
  | .ok (b, _) => (h.ind && !padBit b) || (match blockHdr b with | some d => !handlerOk w.level d | none => false)
/-- The first failing check of a transfer: cause, target of the lowest failing lane, syndrome. -/
def hopFault (s : State) (w : Warp) (hs : List Hop) : Option (Nat × DWord × Word) :=
  (hs.find? fun h => h.blk.toNat / 2 ^ 52 != 0).map (fun h => (9, h.blk, syndrome .fetch ⟨3, 0, 0, []⟩))
  |>.orElse fun _ => (hs.find? fun h => h.blk.toNat % 64 != 0).map (fun h => (3, h.blk, 0))
  |>.orElse fun _ => (hs.findSome? fun h => if h.ind then
      (match fetchBlock s w h.blk with | .error f => some (9, h.blk, syndrome .fetch f) | .ok _ => none) else none)
  |>.orElse fun _ => (hs.find? (landFails s w)).map fun h => (4, h.blk, 0)
/-- Lanes moved to their targets, a link written first where there is one. -/
def moveLanes (link : Opd) (v : DWord) (hs : List Hop) (w : Warp) : Warp :=
  hs.foldl (fun w h => setLane w h.lane fun l =>
    { (match link with | .v r => l.wrN r.val (v.setWidth 128) 2 | _ => l) with pc := h.blk + 4 }) w
/-- Every check passes and the lanes transfer, or the group traps where it stands. -/
def Iss.transfer (x : Iss) (link : Opd) (hs : List Hop) (after : Action) : Action := look fun s => acts [
  forEach (dedup (hs.map fun h => h.blk.toNat)) fun b => if b / 2 ^ 52 = 0 then noteFetch x.k x.w (dw b) else skip,
  match hopFault s x.w hs with
    | some (c, t, y) => x.trap c t y
    | none => acts [modWarp x.k (moveLanes link (blockAddr x.pc + 64) hs), after]]
/-- The block that OFFB names. -/
def Iss.offTarget (x : Iss) (o : OB) : DWord := blockAddr x.pc + o.offb.signExtend 64 * 64
def Iss.hops (x : Iss) (ind : Bool) (f : Nat → DWord) : List Hop := (lanesOf x.g).map fun i => ⟨i, f i, ind⟩

/-- The well slots of a cluster in use (R274); the well holds 32. -/
def wellSlots (s : State) (cl : Nat) : List Nat := (s.warps.filter fun e => e.2.fw.isNone && clusterNo e.2.core == cl).flatMap fun e =>
  (e.2.lanes.filter fun l => l.st == .ejected).map (·.well)
def wellUsed (s : State) (cl : Nat) : Nat := (wellSlots s cl).length
/-- The smaller side of a branch that has split: the side with the higher PC on a tie. -/
def smallerSide (x : Iss) (blk : DWord) : Mask :=
  let f := x.mask &&& ~~~x.g
  if popcount x.g < popcount f || (popcount x.g == popcount f && decide (x.next.toNat ≤ (blk + 4).toNat)) then x.g else f
/-- The side of a branch that R273 and R274 eject, if the launch and the well allow it. -/
def ejects (s : State) (x : Iss) (blk : DWord) : Option Mask :=
  let side := smallerSide x blk
  match launchOf s x.w with
  | none => none
  | some l =>
    if x.g != 0 && x.g != x.mask && l.lr.ejt != 0 && x.w.level == 0 && !x.ejected && decide (popcount side ≤ l.lr.ejt) &&
        decide (wellUsed s (clusterNo x.w.core) + popcount side ≤ 32) then some side else none
/-- It takes the lowest free slots of the well, and no window is open in it (R275). -/
def ejectSide (x : Iss) (blk : DWord) : Action := look fun s => match ejects s x blk with
  | none => skip
  | some side =>
    let free := (List.range 32).filter fun n => !(wellSlots s (clusterNo x.w.core)).contains n
    modWarp x.k fun w => w.mapLanes side fun i l =>
      { l with st := .ejected, wins := [], well := nth free (popcount (side &&& BitVec.ofNat 64 (2 ^ i - 1))) 0 }
/-- A branch that ejects waits for every long-latency instruction of the side (R275). -/
def braBusy (o : OB) (x : Iss) (s : State) : Bool := match ejects s x (x.offTarget o) with
  | some side => (lanesOf side).any fun i => (x.wins i).any fun v => x.w.outs.any fun o => o.id == v.id
  | none => false
def performBra (o : OB) (x : Iss) (_id : Nat) : Action :=
  x.transfer .none (x.hops false fun _ => x.offTarget o) (ejectSide x (x.offTarget o))
/-- R295. -/
def execBra (c : Ctl) (o : OB) (s : State) : Host.Outcome State Fault Refusal := issueCtl (.bra c o) (braBusy o) (performBra o) s
def performCall (o : OB) (x : Iss) (_id : Nat) : Action := x.transfer o.treg (x.hops false fun _ => x.offTarget o) skip
/-- R296. -/
def execCall (c : Ctl) (o : OB) (s : State) : Host.Outcome State Fault Refusal := issueCtl (.call c o) never (performCall o) s
def performCalli (o : OB) (x : Iss) (_id : Nat) : Action := x.transfer o.treg (x.hops true (x.val64 o.tlen)) skip
/-- R296, R298. -/
def execCalli (c : Ctl) (o : OB) (s : State) : Host.Outcome State Fault Refusal := issueCtl (.calli c o) never (performCalli o) s
def performRet (o : OB) (x : Iss) (_id : Nat) : Action := x.transfer .none (x.hops false (x.val64 o.treg)) skip
/-- R297. -/
def execRet (c : Ctl) (o : OB) (s : State) : Host.Outcome State Fault Refusal := issueCtl (.ret c o) never (performRet o) s
def performBrx (o : OB) (x : Iss) (_id : Nat) : Action := x.transfer .none (x.hops true (x.val64 o.treg)) skip
/-- R298. -/
def execBrx (c : Ctl) (o : OB) (s : State) : Host.Outcome State Fault Refusal := issueCtl (.brx c o) never (performBrx o) s

/-! ### jtb (R299) -/

/-- The lanes of a `jtb` that read the table, and where. -/
def Iss.inTable (x : Iss) (o : OB) : List Nat :=
  (lanesOf x.g).filter fun i => decide ((x.val o.treg i).toNat < (x.val o.tlen (lowest x.g)).toNat)
def Iss.entryAt (x : Iss) (b : BitVec 6) (o : OB) (i : Nat) : DWord := x.ubase b + 8 * zx64 (x.val o.treg i)
/-- Reads of memory that an instruction makes as it issues wait for the earlier acquires of its threads and for what of theirs is
on the same bytes; through a window, as a load does. -/
def Iss.lookBusy (x : Iss) (s : State) (n : Nat) (lanes : List Nat) (ea : Nat → DWord) : Bool :=
  x.winBusy false none .read n lanes ea s ||
  (x.dests s .read lanes ea).any fun e => match e.2 with | .mem pa _ => !runReady s (x.point s.nextId) pa n | _ => false
def jtbBusy (b : BitVec 6) (o : OB) (x : Iss) (s : State) : Bool :=
  (x.ubase b).toNat % 8 == 0 && x.lookBusy s 8 (x.inTable o) (x.entryAt b o)
/-- A table entry read at scope core: from the L1 or from the home, freely by lane where both hold it (R207). -/
def tableRead (s : State) (x : Iss) (id t : Nat) (e : Nat × DWord × Nat × Bool) : Nat × DWord × Option Nat :=
  let (i, va, pa, cached) := e
  let p : Point := { x.point id with lanes := laneBit i }
  match if cached && (Config.freeValue t).getLsbD i then l1Find (coreOf s x.w.core) x.w.ctx va.toNat else none with
  | some l => (i, dw (leNat (layer (s.stores.filter fun q => q.seenBy p) (fun b => nth l.bytes (b % 64) 0) pa 8)), none)
  | none => (i, dw (leNat (overlay s p pa 8)), some pa)
/-- The transfer once every entry is known. -/
def jtbGo (o : OB) (x : Iss) (entry : Nat → Option DWord) : Action :=
  x.transfer .none ((lanesOf x.g).map fun i => match entry i with
    | some t => ⟨i, t, true⟩
    | none => ⟨i, x.offTarget o, false⟩) skip
/-- Entries in memory are read as it issues; while entries are on their way through a fabric window the group waits (R227, R299). -/
def performJtb (b : BitVec 6) (o : OB) (x : Iss) (id : Nat) : Action :=
  let lanes := x.inTable o
  let ea := x.entryAt b o
  if (x.ubase b).toNat % 8 != 0 then x.trap cauMisAtom (x.ubase b) 0
  else look fun s => match x.check s .read 1 cauMisAtom lanes ea with
    | .trap c v y => acts [x.walks .read lanes ea, x.trap c v y]
    | .ok l => acts [x.walks .read lanes ea, withFree fun t =>
        let rs := (localOf l).map (tableRead s x id t)
        let homes := rs.filterMap (·.2.2)
        let known (i : Nat) : Option DWord := (rs.find? fun r => r.1 == i).map (·.2.1)
        acts [
          x.lookups (localOf l),
          homeAccess (payer x.w) (clusterNo x.w.core) false (dedup (homes.map (· / 64))),
          forEach (localOf l) fun (i, va, pa, c) => acts [
            noteRead { x.point id with lanes := laneBit i },
            if c && (rs.any fun r => r.1 == i && r.2.2.isSome) then l1Fill x.w.core x.w.ctx va.toNat pa 0 else skip],
          if (remoteOf l).isEmpty then jtbGo o x known
          else acts [
            addOut x.k { x.out id .await ⟨.none, 0, (List.range x.w.width).map fun i => ((known i).getD 0).setWidth 128, [], false⟩ with
              left := maskOf 64 fun i => (remoteOf l).any fun r => r.1 == i },
            modWarp x.k fun w => w.mapLanes x.mask fun _ l => { l with wait := .table },
            forEach (remoteOf l) fun (i, _, p, g, off) => remoteReq x.w.ctx x.k id i 0 p g off 8 0 []]]]
/-- An entry that comes through a window; the last one lets the group go on. -/
def jtbEntry (wk : Nat) (o : Outst) (lane : Nat) (v : BitVec 128) : Action := acts [
  modOut wk o.id fun o => { o with left := o.left &&& ~~~laneBit lane, res := { o.res with vals := mapI (fun i x => if i = lane then v else x) o.res.vals } },
  look fun s => match find s.warps wk with
    | none => skip
    | some w => match w.outs.find? fun q => q.id == o.id, o.ins with
      | some q, .jtb _ _ b => if q.left != 0 then skip else
          let x := replayIss s wk w q
          acts [dropOut wk q.id, modWarp wk fun w => w.mapLanes q.mask fun _ l => if l.wait == .table then l.wake s.now else l,
            jtbGo b x fun i => if (x.inTable b).contains i then some ((nth q.res.vals i 0).setWidth 64) else none]
      | _, _ => skip]
/-- R299. -/
def execJtb (c : Ctl) (b : BitVec 6) (o : OB) (s : State) : Host.Outcome State Fault Refusal := issueCtl (.jtb c b o) (jtbBusy b o) (performJtb b o) s

/-! ### Named barriers (R281 to R284) -/

/-- Threads of a set, by warp index. -/
def setGet (m : SMap Mask) (i : Nat) : Mask := findD m i 0
def setAdd (m : SMap Mask) (i : Nat) (x : Mask) : SMap Mask := putD m i (setGet m i ||| x) 0
def setSize (m : SMap Mask) : Nat := (m.map fun e => popcount e.2).foldl (· + ·) 0
/-- The threads of a warp index that have exited: all of them when its warp has ended. Those of an earlier warp of a slot taken again
are in `gone`. -/
def exitedAt (s : State) (g : Workgroup) (i : Nat) : Mask :=
  match (find g.warps i).bind (find s.warps) with
  | some w => w.lanesIn fun l => l.st == .exited
  | none => BitVec.allOnes 64
/-- Members that have exited without having arrived. -/
def excused (s : State) (g : Workgroup) (b : Bar) : Nat :=
  setSize (b.members.map fun e => (e.1, e.2 &&& ~~~setGet b.arrived e.1 &&& exitedAt s g e.1))
/-- CheckComplete of R282. -/
def checkComplete (gk k : Nat) : Action := look fun s =>
  match find s.wgs gk with
  | none => skip
  | some g =>
    let b := nth g.bars k noBar
    if b.e != 0 && decide (b.e ≤ setSize b.arrived + excused s g b + b.gone) then acts [
      forEach b.arrived fun (i, m) => match find g.warps i with
        | some wk => modWarp wk fun w => w.mapLanes m fun _ l => if l.wait == .barrier k then l.wake s.now else l
        | none => skip,
      modWg gk fun g => modBar g k fun b => { b with e := 0, arrived := [] }]
    else skip
def checkAll (gk : Nat) : Action := look fun s =>
  match find s.wgs gk with
  | none => skip
  | some g => forEach (List.range g.bars.length) (checkComplete gk)
/-- An arrival is a release at scope core (R283). -/
def barBusy (x : Iss) (s : State) : Bool := !nearDone s (x.point s.nextId)
/-- Arrive of R282, waiting or not; an arrival is a sink. -/
def performBar (waits : Bool) (o : O5) (x : Iss) (_id : Nat) : Action := look fun s =>
  match o.a, wgOf s x.w with
  | .nb k, some g =>
    let n := (x.val o.b (lowest x.g)).toNat
    let b := nth g.bars k.val noBar
    if n = 0 || decide (2048 < n) || (b.e != 0 && n != b.e) then x.trap cauBarrier 0 0
    else acts [
      modWg x.w.wg fun g => modBar g k.val fun b =>
        { b with e := n, arrived := setAdd b.arrived x.w.index x.g, members := setAdd b.members x.w.index x.g },
      if waits then modWarp x.k fun w => w.mapLanes x.g fun _ l => { l with wait := .barrier k.val } else skip,
      sink x.w.ctx,
      checkComplete x.w.wg k.val]
  | _, _ => skip
/-- R301. -/
def execBarw (c : Ctl) (o : O5) (s : State) : Host.Outcome State Fault Refusal := issueCtl (.barw c o) barBusy (performBar true o) s
/-- R301. -/
def execBara (c : Ctl) (o : O5) (s : State) : Host.Outcome State Fault Refusal := issueCtl (.bara c o) barBusy (performBar false o) s

/-! ### Returns that wait (R407) -/

/-- Every live lane of a frame has reached its return, a continuation frame is serviced, and the warp has room for what the return
re-injects (R407, R411). -/
def retrReady (w : Warp) (f : Nat) (fr : Frame) : Bool := allReturned w f fr && decide (w.held + fr.live ≤ 16)
/-- A frame of a workgroup whose return can be completed. -/
def retrDue (s : State) (g : Workgroup) : Option (Nat × Warp × Nat) :=
  (List.range g.frames.length).findSome? fun f =>
    let fr := nth g.frames f noFrame
    match find s.warps fr.warp with
    | some w => if retrReady w f fr then some (fr.warp, w, f) else none
    | none => none
/-- The returns of a workgroup that can be completed are. -/
def settleRetr (gk : Nat) : Action := look fun s =>
  match find s.wgs gk with
  | none => skip
  | some g => match retrDue s g with
    | some (k, w, f) => leaveFrame k w g f
    | none => skip

/-! ### Ends of threads, warps and workgroups (R27, R44, R47, R300, R400) -/

/-- Cards and table entries of a workgroup that are still to be performed. -/
def wgPending (s : State) (gk : Nat) : Bool :=
  s.clusters.any fun e => (e.2.table.any fun r => r.wg == gk) || e.2.cards.any fun c => c.wg == gk
/-- The tiles and blocks of a workgroup that has ended are given back; its cards and granted entries go on with what those held (R318, R300;
log 24). -/
def detachWg (gk : Nat) (g : Workgroup) : Action := look fun s =>
  let c := coreOf s g.core
  let at' (i : Nat) : Nat := 1024 * (gk + 1) + i
  acts [
    forEach g.tiles.zipIdx fun (p, i) => modTile g.core (at' i) fun _ => tileOf c p,
    forEach g.accs.zipIdx fun (p, i) => modAcc g.core (at' i) fun _ => accOf c p,
    releaseTiles g.core g.ctx g.tiles, releaseAccs g.core g.accs,
    modWg gk fun g => { g with tiles := (List.range g.tiles.length).map at', accs := (List.range g.accs.length).map at' }]
/-- A workgroup ends with its last warp: its core counts as ended, its tiles and blocks are given back, and its table entries not yet granted are
withdrawn, their results being out of reach (R300, log 24). -/
def endIdleWg (gk : Nat) : Action := look fun s =>
  match find s.wgs gk with
  | none => skip
  | some g => if !g.warps.isEmpty then skip else acts [
      modCluster (clusterNo g.core) fun c => { c with table := c.table.filter fun e => e.wg != gk || e.granted },
      modLaunch g.launch fun l => if l.ended.contains g.core then l else { l with ended := l.ended ++ [g.core] },
      look fun s => if !wgPending s gk then dropWg gk else if (g.tiles ++ g.accs).all (decide <| · < 768) then detachWg gk g else skip]
/-- A warp whose threads have all exited ends: its frames are freed, the epilogues queued in them with them, its slot is free, and its last values
are in its area of the image (R49, R409). -/
def endWarp (k : Nat) : Action := look fun s =>
  match find s.warps k with
  | none => skip
  | some w => if w.fw.isNone && w.activeSet = 0 then acts [
      match wgOf s w with
        | some g => endEpis w.wg (w.outs.map (·.age) ++ ((g.frames.filter fun f => f.state != 0 && f.warp == k).flatMap fun f => f.rep.map (·.o.age)))
        | none => skip,
      modWg w.wg fun g => { g with
        warps := del g.warps w.index
        frames := g.frames.map fun f => if f.state != 0 && f.warp == k then { f with state := 0, rep := [] } else f
        spawnQ := g.spawnQ.filter fun r => r.wk != k },
      match wgOf s w with | some g => if find g.warps w.index = some k then imageWarp w.wg w.index k else skip | none => skip,
      upd (.warp k none), endIdleWg w.wg] else skip
def performExit (x : Iss) (_id : Nat) : Action :=
  if x.w.level != 0 then x.trap cauIllegal 0 0
  else acts [
    modWarp x.k fun w => w.mapLanes x.g fun _ l => { l with st := .exited, wait := .none, wins := [], join := none },
    checkAll x.w.wg, settleRetr x.w.wg, endWarp x.k]
/-- R300. -/
def execExit (c : Ctl) (o : OB) (s : State) : Host.Outcome State Fault Refusal := issueCtl (.exit c o) never performExit s
/-- R279: the RJT wait of the group at a PC ends. -/
def execJoinTimeout (wk : Nat) (pc : DWord) (s : State) : Host.Outcome State Fault Refusal :=
  event (modWarp wk fun w => w.mapLanes (lanesAt w (groupSt w) pc) fun _ l => { l with join := l.join.map fun _ => 0 }) s

/-! ### Phases (R285, R286, R302) -/

/-- The lead condition. -/
def leadOk (s : State) (g : Workgroup) : Bool :=
  let lead := (recOf s g).lead
  [1, 2, 3, 4].all fun d => match nbrOf s g d with
    | .free => true
    | _ => decide ((g.phase - recvOf g d).toInt ≤ lead)
/-- Groups at their phase lead leave the wait with an acquire once the condition holds. -/
def settlePhase (gk : Nat) : Action := look fun s =>
  match find s.wgs gk with
  | none => skip
  | some g => if leadOk s g then acts [
      forEach g.warps fun (_, wk) => modWarp wk fun w =>
        w.mapLanes (w.lanesIn fun l => l.wait == .phase) fun _ l => l.wake s.now,
      l1Discard g.core] else skip
def performPhaseAdv (x : Iss) (id : Nat) : Action := acts [
  noRestart x.w.wg,
  modWg x.w.wg fun g => { g with phase := g.phase + 1, advs := g.advs ++ [x.point id] },
  modWarp x.k fun w => if x.w.fw.isSome then w else w.mapLanes x.mask fun _ l => { l with wait := .phase },
  settlePhase x.w.wg]
/-- R302. -/
def execPhaseAdv (c : Ctl) (o : O5) (s : State) : Host.Outcome State Fault Refusal := issueCtl (.phaseAdv c o) never performPhaseAdv s
/-- Units that the core of `n` has sent to the core of `g` before an advance arrive before it (R10). -/
def unitsFirst (s : State) (n g : Workgroup) (v : BitVec 16) : Bool := match advAt n v with
  | some p => s.arrivals.any fun b => b.srcCore == n.core && b.core == g.core && decide (b.po.age < p.age) && b.onWay s
  | none => false
/-- Advances that every neighbour has received are forgotten. -/
def pruneAdvs (k : Nat) : Action := look fun s => modWg k (fun n =>
  let left := ([1, 2, 3, 4].map fun d => match nbrOf s n d with
    | .free => 0
    | .unstarted => n.phase.toNat
    | .at _ g => (n.phase - recvOf g (advsOnWay.opp d)).toNat).foldl max (advsLeft s n).length
  { n with advs := n.advs.drop (n.advs.length - left) })
/-- R286: the next advance that a neighbour has sent arrives. -/
def execPhaseAdvanceReceive (gk dir : Nat) (s : State) : Host.Outcome State Fault Refusal :=
  event (look fun s => match find s.wgs gk with
    | none => skip
    | some g => match nbrOf s g dir with
      | .at k n => if recvOf g dir = sentPhase s n || unitsFirst s n g (recvOf g dir + 1) then skip else acts [
          modWg gk fun g => { g with recv := put g.recv dir (recvOf g dir + 1) },
          pruneAdvs k,
          settlePhase gk]
      | _ => skip) s
/-- The word `phase.rd` reads. -/
def phaseWord (s : State) (g : Workgroup) (dir : Nat) : Word :=
  if dir = 0 then zx32 g.phase else match nbrOf s g dir with
    | .free => 0x10000
    | _ => zx32 (recvOf g dir)
where zx32 (p : BitVec 16) : Word := p.setWidth 32
def performPhaseRd (o : O5) (x : Iss) (_id : Nat) : Action := look fun s =>
  match wgOf s x.w with
  | none => skip
  | some g => modWarp x.k fun w => x.writeD w o.d false fun _ => zx64 (phaseWord s g (x.val o.a 0).toNat)
/-- R302. -/
def execPhaseRd (c : Ctl) (o : O5) (s : State) : Host.Outcome State Fault Refusal := issueCtl (.phaseRd c o) never (performPhaseRd o) s

/-! ### spawn (R46, R47, R303, R304) -/

/-- The first index of the spawn slots (R41). -/
def firstSlot (r : LRec) : Nat := warpsOf r.width r.r0.t + if r.roles = 2 then warpsOf r.width r.r1.t else 0
def freeSlots (r : LRec) (g : Workgroup) : List Nat :=
  ((List.range r.spawn).map (firstSlot r + ·)).filter fun i => (find g.warps i).isNone
/-- A `spawn` in the queue that its warp still holds. -/
def stillWaits (s : State) (q : SpawnReq) : Bool := match find s.warps q.wk with
  | some w => w.outs.any fun o => o.id == q.id
  | none => false
/-- Barrier members of a warp index that have exited are kept as a count before another warp takes the index (R282, R300). -/
def leaveBars (g : Workgroup) (i : Nat) : Workgroup := { g with bars := g.bars.map fun b =>
  { b with gone := b.gone + popcount (setGet b.members i), arrived := del b.arrived i, members := del b.members i } }
/-- A warp created in a slot by a warp (R46); its area of the image holds its first values (R49). -/
def createWarp (gk slot : Nat) (parent : Warp) (pc : DWord) (params : List Word) : Action := look fun s =>
  match find s.wgs gk with
  | none => skip
  | some g => acts [modWg gk fun g => leaveBars g slot,
      addWarp gk slot (newWarp g gk parent.width slot parent.role parent.width true ⟨pc, 0, parent.nv, parent.na, parent.ns⟩ pc params),
      imageWarp gk slot s.nextId, rcEnter gk slot]
def spawnReport (x : Iss) (o : OB) (b : Bool) : Action := modWarp x.k fun w => w.mapLanes x.g fun _ l => l.setPOpd o.tlen b
def spawnParams (x : Iss) (o : OB) : List Word := match o.treg with
  | .s n => (List.range 8).map fun j => x.w.rdS (n.val + j)
  | _ => []
/-- The issue is a release at scope core of the acting threads (R303). -/
def spawnBusy (x : Iss) (s : State) : Bool := !nearDone s (x.point s.nextId)
/-- A waiting `spawn` keeps its place in the workgroup's queue across a switch (R47). As many free slots as older ones wait for are theirs, the
lowest first (R304). -/
def performSpawn (try_ : Bool) (o : OB) (x : Iss) (id : Nat) : Action := look fun s =>
  match wgOf s x.w with
  | none => x.trap cauSpawn 0 0
  | some g =>
    let r := recOf s g
    if r.spawn = 0 then x.trap cauSpawn 0 0
    else match (freeSlots r g)[(g.spawnQ.filter (stillWaits s)).length]? with
      | some i => acts [createWarp x.w.wg i x.w (x.offTarget o) (spawnParams x o), if try_ then spawnReport x o true else skip]
      | none =>
        if try_ then spawnReport x o false
        else acts [
          addOut x.k (x.out id .await noRes),
          modWarp x.k fun w => w.mapLanes x.mask fun _ l => { l with wait := .slot },
          modWg x.w.wg fun g => { g with spawnQ := g.spawnQ ++ [⟨id, x.k, x.mask, x.offTarget o, spawnParams x o⟩] }]
/-- R303. -/
def execSpawn (c : Ctl) (o : OB) (s : State) : Host.Outcome State Fault Refusal := issueCtl (.spawn c o) spawnBusy (performSpawn false o) s
/-- R303. -/
def execSpawnTry (c : Ctl) (o : OB) (s : State) : Host.Outcome State Fault Refusal := issueCtl (.spawnTry c o) spawnBusy (performSpawn true o) s
/-- R47, R304: the oldest waiting `spawn` takes a free slot. -/
def execSpawnSlotGrant (gk : Nat) (s : State) : Host.Outcome State Fault Refusal :=
  event (look fun s => match find s.wgs gk with
    | none => skip
    | some g => match g.spawnQ with
      | [] => skip
      | r :: rest => match find s.warps r.wk with
        | none => modWg gk fun g => { g with spawnQ := rest }
        | some w =>
          if !stillWaits s r then modWg gk fun g => { g with spawnQ := rest }
          else if !(ctxOf s g.ctx).resident || w.outs.any (fun o => o.id == r.id && o.kind == .held) then skip
          else match (freeSlots (recOf s g) g).head? with
            | none => skip
            | some i => acts [
                modWg gk fun g => { g with spawnQ := rest },
                createWarp gk i w r.pc r.params,
                dropOut r.wk r.id,
                modWarp r.wk fun w => w.mapLanes r.mask fun _ l => if l.wait == .slot then l.wake s.now else l]) s

/-! ### enq (R44, R305) -/

/-- The device-side queue of a context at a header address. -/
def devQueue (s : State) (ctx : Nat) (hdr : DWord) : Option (Nat × Queue) :=
  s.queues.find? fun e => e.2.hdr == hdr && e.2.ctx == ctx && e.2.dev
/-- Where a packet lies: in memory, or behind a fabric window (R227). -/
inductive Pkt where
  | mem (pa : Nat)
  | win (peer seg off : Nat)
  deriving DecidableEq, Repr
/-- Where a push writes. -/
structure Push where
  qk : Nat
  hdr : Nat
  slot : Nat
  pkt : Pkt
  wr : Nat
  full : Bool
  deriving DecidableEq, Repr
def pktAt (a : Nat) : Except XFault Xlate → Except (Nat × XFault) Pkt
  | .ok ⟨.win p g o, _⟩ => .ok (.win p g o)
  | r => match memOnly a r with
    | .ok pa => .ok (.mem pa)
    | .error e => .error e
/-- The checks of `enq` at a point of program order, and the state of the queue. Memory behind a window is no queue of the device (R305 check 3). -/
def enqLook (s : State) (x : Iss) (pt : Point) (o : O5) : Except (Nat × DWord × Word) Push :=
  let qa := x.val64 o.a 0
  let pa := x.val64 o.b 0
  let bad (k : AccKind) (e : Nat × XFault) : Nat × DWord × Word := (faultCause k e.2, dw e.1, syndrome k e.2)
  if qa.toNat % 64 != 0 then .error (cauMisAtom, qa, 0)
  else if pa.toNat % 64 != 0 then .error (cauMisAtom, pa, 0)
  else match pktAt qa.toNat (x.xlate s .rmw qa), pktAt pa.toNat (x.xlate s .read pa) with
    | .error e, _ => .error (bad .rmw e)
    | _, .error e => .error (bad .read e)
    | .ok (.win _ _ _), .ok _ => .error (cauQueue, 0, 0)
    | .ok (.mem h), .ok p => match if x.w.fw.isSome then none else devQueue s x.w.ctx qa with
      | none => .error (cauQueue, 0, 0)
      | some (qk, q) =>
        let wr := leNat (overlay s pt (h + 0x10) 8)
        let at' := dw (q.ring.toNat + 64 * (wr % 2 ^ q.logn))
        match memOnly at'.toNat (x.xlate s .write at') with
        | .error e => .error (bad .write e)
        | .ok sl => .ok ⟨qk, h, sl, p, wr, wr == (q.rd + 2 ^ q.logn) % 2 ^ 64⟩
/-- The push is a release: what comes before it has been performed. A packet behind a window is read first. -/
def enqBusy (o : O5) (x : Iss) (s : State) : Bool :=
  let pt := x.point s.nextId
  match enqLook s x pt o with
  | .ok p => (match p.pkt with
    | .mem _ => !p.full && !relDone s .dev pt
    | .win _ _ _ => x.lookBusy s 64 [0] fun _ => x.val64 o.b 0)
  | .error _ => false
/-- One atomic push: the packet's bytes into its slot, WR, the depth of the child grid (R44), a sink. -/
def enqPushAct (p : Push) (bs : List Byte) (o : O5) (x : Iss) : Action := look fun s =>
  let gen := match launchOf s x.w, wgOf s x.w with
    | some l, some g => (l.depth + 1, g.launch)
    | _, _ => (0, 0)
  acts [
    noRestart x.w.wg,
    poke p.slot bs,
    poke (p.hdr + 0x10) (le 8 (p.wr + 1)),
    l1Store x.w.core x.w.ctx p.slot bs,
    l1Store x.w.core x.w.ctx (p.hdr + 0x10) (le 8 (p.wr + 1)),
    match p.pkt with
      | .mem pa => homeAccess (payer x.w) (clusterNo x.w.core) false [pa / 64]
      | .win _ _ _ => skip,
    homeAccess (payer x.w) (clusterNo x.w.core) true [p.slot / 64],
    fun s => match find s.queues p.qk with
      | some q => [.queue p.qk (some { q with depth := put q.depth p.wr gen })]
      | none => [],
    sink x.w.ctx,
    modWarp x.k fun w => x.writeD w o.d false fun _ => 0]
/-- The read of a packet behind a window. -/
def enqFetch (p : Push) (x : Iss) (id : Nat) : Action := match p.pkt with
  | .mem _ => skip
  | .win peer g off => acts [modOut x.k id fun o => { o with left := o.act }, remoteReq x.w.ctx x.k id (lowest x.g) 6 peer g off 64 0 []]
/-- The group waits: for its packet, or for room. -/
def enqWait (p : Push) (x : Iss) (id : Nat) : Action := acts [
  addOut x.k { x.out id .await noRes with left := 0 }, enqFetch p x id,
  modWarp x.k fun w => w.mapLanes x.mask fun _ l => { l with wait := .room }]
def performEnq (try_ : Bool) (o : O5) (x : Iss) (id : Nat) : Action := look fun s =>
  let pt := x.point id
  match enqLook s x pt o with
  | .error (c, v, y) => x.trap c v y
  | .ok p => match p.pkt with
    | .win _ _ _ => enqWait p x id
    | .mem pa =>
      if !p.full then enqPushAct p (overlay s pt pa 64) o x
      else if try_ then modWarp x.k fun w => x.writeD w o.d false fun _ => 1
      else enqWait p x id
/-- R305. -/
def execEnq (c : Ctl) (o : O5) (s : State) : Host.Outcome State Fault Refusal := issueCtl (.enq c o) (enqBusy o) (performEnq false o) s
/-- R305. -/
def execEnqTry (c : Ctl) (o : O5) (s : State) : Host.Outcome State Fault Refusal := issueCtl (.enqTry c o) (enqBusy o) (performEnq true o) s
/-- The push that a warp waits for, once its packet has been read: whether it is an `enq.try`. -/
def waitingEnq (w : Warp) : Option (Outst × O5 × Bool) := w.outs.findSome? fun o => match o.kind, o.ins with
  | .await, .enq _ q => if o.left = 0 then some (o, q, false) else none
  | .await, .enqTry _ q => if o.left = 0 then some (o, q, true) else none
  | _, _ => none
/-- What becomes of it now: it traps, reports a full queue, or pushes the bytes of its packet; none while it waits. -/
def enqDue (s : State) (wk : Nat) (w : Warp) : Option Action := match waitingEnq w with
  | none => none
  | some (o, q, try_) =>
    let x := replayIss s wk w o
    let pt := o.point w wk o.act
    let go : Action := acts [dropOut wk o.id,
      modWarp wk fun w => w.mapLanes o.mask fun _ l => if l.wait == .room then l.wake s.now else l]
    match enqLook s x pt q with
    | .error (c, v, y) => some (acts [go, raise wk ⟨o.mask, c, o.pc, o.pc, v, y, none⟩])
    | .ok p =>
      if p.full then (if try_ then some (acts [go, modWarp wk fun w => x.writeD w q.d false fun _ => 1]) else none)
      else if !relDone s .dev pt then none
      else some (acts [go, enqPushAct p (match p.pkt with
        | .mem pa => overlay s pt pa 64
        | .win _ _ _ => (o.res.vals.flatMap fun v => le 16 v.toNat).take 64) q x])
/-- R305: a waiting `enq` finds room; a queue that no longer translates or belongs to its context traps it there. -/
def execEnqPush (wk : Nat) (s : State) : Host.Outcome State Fault Refusal :=
  event (look fun s => match find s.warps wk with
    | none => skip
    | some w => if w.fw.isNone && !(ctxOf s w.ctx).resident then skip else (enqDue s wk w).getD skip) s

/-! ### yield and wait.ns (R306, R307) -/

/-- R306. -/
def execYield (c : Ctl) (o : O5) (s : State) : Host.Outcome State Fault Refusal :=
  issueCtl (.yield c o) never (fun x _ => modWarp x.k fun w => { w with hold := some [] }) s
def performWaitNs (o : O5) (x : Iss) (_id : Nat) : Action := look fun s =>
  let n := (x.val o.a (lowest x.g)).toNat
  if n = 0 then skip else modWarp x.k fun w => w.mapLanes x.mask fun _ l => { l with wait := .timed (s.now + n) }
/-- R307. -/
def execWaitNs (c : Ctl) (o : O5) (s : State) : Host.Outcome State Fault Refusal := issueCtl (.waitNs c o) never (performWaitNs o) s
/-- A timed wait whose deadline has passed. -/
def timedOut (now : Nat) (l : Lane) : Bool := match l.wait with | .timed t => decide (t ≤ now) | _ => false
/-- R307. -/
def execWaitNsExpiry (wk : Nat) (s : State) : Host.Outcome State Fault Refusal :=
  event (fun s => modWarp wk (fun w => w.mapLanes (w.lanesIn (timedOut s.now)) fun _ l => l.wake s.now) s) s

end Sys2Proof.Machine
end

