-- ==== Sys2Proof/Machine/Sha.lean ====
section
/-! DEFINITION. SHA-256 (FIPS 180-4), which R355, R435 and R439 use by name. -/
namespace Sys2Proof.Machine

/-- The largest r below 2 ^ bits with r ^ k at most n. -/
def rootBits (k n : Nat) : Nat → Nat → Nat
  | 0, r => r
  | b + 1, r => rootBits k n b (if (r + 2 ^ b) ^ k ≤ n then r + 2 ^ b else r)
/-- The first 32 fraction bits of the k-th root of p. -/
def rootFrac (k p : Nat) : Word := BitVec.ofNat 32 (rootBits k (p * 2 ^ (32 * k)) 40 0)
/-- The first 64 primes. -/
def shaPrimes : List Nat := (List.range 312).filter fun n => decide (2 ≤ n) && (List.range 18).all fun d => d < 2 || n ≤ d || n % d != 0
/-- The round constants, of the cube roots, and the initial hash, of the square roots of the first eight. -/
def shaK : List Word := shaPrimes.map (rootFrac 3)
def shaInit : List Word := (shaPrimes.take 8).map (rootFrac 2)
def beWord (b : List Byte) (i : Nat) : Word :=
  (List.range 4).foldl (fun w j => w * 256 + (nth b (4 * i + j) 0).setWidth 32) 0
def shaSigma (a b c : Nat) (shift : Bool) (x : Word) : Word :=
  x.rotateRight a ^^^ x.rotateRight b ^^^ (if shift then x >>> c else x.rotateRight c)
/-- The schedule, latest word first. -/
def shaSchedule (b : List Byte) : List Word :=
  (List.range 48).foldl (fun w _ =>
    (shaSigma 17 19 10 true (nth w 1 0) + nth w 6 0 + shaSigma 7 18 3 true (nth w 14 0) + nth w 15 0) :: w)
    ((List.range 16).map (beWord b)).reverse
def shaRound (h : List Word) (kw : Word × Word) : List Word :=
  match h with
  | [a, b, c, d, e, f, g, z] =>
    let t1 := z + shaSigma 6 11 25 false e + ((e &&& f) ^^^ (~~~e &&& g)) + kw.1 + kw.2
    let t2 := shaSigma 2 13 22 false a + ((a &&& b) ^^^ (a &&& c) ^^^ (b &&& c))
    [t1 + t2, a, b, c, d + t1, e, f, g]
  | h => h
def shaChunk (h : List Word) (b : List Byte) : List Word :=
  List.zipWith (· + ·) h ((shaK.zip (shaSchedule b).reverse).foldl shaRound h)
def shaChunks : Nat → List Word → List Byte → List Word
  | 0, h, _ => h
  | n + 1, h, b => shaChunks n (shaChunk h (b.take 64)) (b.drop 64)
/-- The message padded to whole blocks: a one bit, zeros, its length in bits, big-endian. -/
def shaPad (b : List Byte) : List Byte :=
  b ++ [0x80] ++ List.replicate ((119 - b.length % 64) % 64) 0 ++ (toBytes 8 (8 * b.length)).reverse
def sha256 (b : List Byte) : List Byte :=
  let p := shaPad b
  (shaChunks (p.length / 64) shaInit p).flatMap fun w => (toBytes 4 w.toNat).reverse

end Sys2Proof.Machine
end

