-- ==== Sys2Proof/Machine/Replay.lean ====
section
/-! DEFINITION. Re-injection of instructions held in a replay or switch queue (R205, R407, R410, R493), and the wait each
instruction's own entry gives it before it issues. -/
namespace Sys2Proof.Machine

/-! ### Waits before issue -/

/-- A release at scope dev that acts at once waits for what comes before it. -/
def relBusyNow (x : Iss) (s : State) : Bool := !relDone s .dev (x.point s.nextId)
/-- The context that a `tlbi` names: its operand, or the issuer's own. -/
def tlbiCtx (x : Iss) (o : OX) : Option Nat :=
  match o.a with
  | .none => some x.w.ctx
  | a => some (x.val a (lowest x.g)).toNat
/-- Accesses of a context, or of every one, that are still to be performed, units through a window and of the host among them (R374). -/
def accessesLeft (s : State) (ctx : Option Nat) : Bool :=
  let of' (n : Nat) : Bool := match ctx with | some c => n == c | none => true
  (s.stores.any fun q => of' q.po.ctx) || (s.fabric.remotes.any fun r => of' r.ctx) || (s.arrivals.any fun a => of' a.ctx && (a.win.isSome || a.src.isSome)) ||
  (s.warps.any fun e => of' e.2.ctx && e.2.fw.isNone && e.2.outs.any fun o => !(todoOf o).isEmpty) ||
  s.link.pending.any fun p => p.done.isNone && match p.job with | some j => of' j.ctx && !j.units.isEmpty | none => false
/-- R374, R427: a release first, and the accesses that used a covered translation are performed. -/
def tlbiBusy (ctx : Option Nat) (x : Iss) (s : State) : Bool := relBusyNow x s || accessesLeft s ctx
/-- The physical addresses of the two lines of a weight image, or the first failing access. -/
def imageAt (s : State) (x : Iss) (ea : DWord) : Except (Nat × XFault) (List Nat) :=
  let line (a : DWord) := memOnly a.toNat (x.xlate s .read a)
  (line ea).bind fun p => (line (ea + 64)).bind fun q => .ok [p, q]
def imageEa (x : Iss) (o : OX) (i : Nat) : DWord := x.val64 o.d (lowest x.g) + dw (64 * i)
def ewtBusy (o : OX) (x : Iss) (s : State) : Bool :=
  (imageEa x o 0).toNat % 64 == 0 && (imageAt s x (imageEa x o 0)).isOk && x.lookBusy s 64 [0, 1] (imageEa x o)
/-- The wait that an instruction's own entry gives it before it issues. -/
def busyOf (i : Instr) (x : Iss) (s : State) : Bool :=
  match i with
  | .ld _ sz _ _ o => ldBusy (WF.ldBytes sz) [o.addr] o x s
  | .hgath _ w o => ldBusy (if w then 8 else 4) [o.data] o x s
  | .st _ sz rel sc o => stBusy (WF.stBytes sz) rel sc o x s
  | .lcln _ _ => writeBusy x s
  | .atomAdd _ ord sc _ w o => atomBusy .add ord sc w o x s
  | .atomSmin _ ord sc _ w o => atomBusy .smin ord sc w o x s
  | .atomUmin _ ord sc _ w o => atomBusy .umin ord sc w o x s
  | .atomSmax _ ord sc _ w o => atomBusy .smax ord sc w o x s
  | .atomUmax _ ord sc _ w o => atomBusy .umax ord sc w o x s
  | .atomAnd _ ord sc _ w o => atomBusy .and ord sc w o x s
  | .atomOr _ ord sc _ w o => atomBusy .or ord sc w o x s
  | .atomXor _ ord sc _ w o => atomBusy .xor ord sc w o x s
  | .atomExch _ ord sc _ w o => atomBusy .exch ord sc w o x s
  | .atomCas _ ord sc _ w o => atomBusy .cas ord sc w o x s
  | .atomFaddF32 _ ord sc _ o => atomBusy .fadd ord sc false o x s
  | .sred _ _ o => sredBusy o x s
  | .lds _ _ _ _ => readBusy x s
  | .sts _ _ _ => stsBusy x s
  | .take _ _ _ => readBusy x s
  | .rgetT _ o => rgetBusy o x s
  | .tarm _ o => tarmBusy o x s
  | .mmaBf16 _ n _ _ o => mmaBusy (n.toNat + 1) o x s
  | .mmaSpBf16 _ n _ _ o => mmaBusy (n.toNat + 1) o x s
  | .accZero _ o => accZeroBusy o x s
  | .accFree _ o => accFreeBusy o x s
  | .accRd _ o => accRdBusy o x s
  | .accWr _ o => accWrBusy o x s
  | .epiSt _ _ _ _ _ o => epiBusy o.data x s
  | .epiT _ _ _ _ o => epiBusy o.data x s
  | .card _ o => cardBusy o x s
  | .bra _ o => braBusy o x s
  | .jtb _ b o => jtbBusy b o x s
  | .barw _ _ => barBusy x s
  | .bara _ _ => barBusy x s
  | .spawn _ _ => spawnBusy x s
  | .spawnTry _ _ => spawnBusy x s
  | .enq _ o => enqBusy o x s
  | .enqTry _ o => enqBusy o x s
  | .contSig _ _ => relBusyNow x s
  | .ewt _ o => ewtBusy o x s
  | .tlbiVa _ o => tlbiBusy (tlbiCtx x o) x s
  | .tlbiCtx _ o => tlbiBusy (tlbiCtx x o) x s
  | .tlbiTen _ _ => tlbiBusy none x s
  | _ => false

/-! ### Re-injection -/

/-- The issue price of an instruction that can be held, and its effect from captured operands; none for one whose results are
kept with it. -/
def heldOf (accepted : BitVec 32) : Instr → Option (Price × (Iss → Nat → Action))
  | .ld _ sz acq sc o => some (memPrice [o.data, o.addr], performLd sz acq sc o)
  | .hgath _ w o => some (memPrice [o.data, o.addr], performHgath w o)
  | .st _ sz rel sc o => some (memPrice [o.data, o.addr], performSt (WF.stBytes sz) rel sc o)
  | .lcln _ o => some (memPrice [o.addr], performLcln o)
  | .atomAdd _ ord sc nr w o => some (memPrice [o.data, o.addr], performAtom .add ord sc nr w o)
  | .atomSmin _ ord sc nr w o => some (memPrice [o.data, o.addr], performAtom .smin ord sc nr w o)
  | .atomUmin _ ord sc nr w o => some (memPrice [o.data, o.addr], performAtom .umin ord sc nr w o)
  | .atomSmax _ ord sc nr w o => some (memPrice [o.data, o.addr], performAtom .smax ord sc nr w o)
  | .atomUmax _ ord sc nr w o => some (memPrice [o.data, o.addr], performAtom .umax ord sc nr w o)
  | .atomAnd _ ord sc nr w o => some (memPrice [o.data, o.addr], performAtom .and ord sc nr w o)
  | .atomOr _ ord sc nr w o => some (memPrice [o.data, o.addr], performAtom .or ord sc nr w o)
  | .atomXor _ ord sc nr w o => some (memPrice [o.data, o.addr], performAtom .xor ord sc nr w o)
  | .atomExch _ ord sc nr w o => some (memPrice [o.data, o.addr], performAtom .exch ord sc nr w o)
  | .atomCas _ ord sc nr w o => some (memPrice [o.data, o.addr], performAtom .cas ord sc nr w o)
  | .atomFaddF32 _ ord sc nr o => some (memPrice [o.data, o.addr], performAtom .fadd ord sc nr false o)
  | .sred _ op o => some (memPrice [o.data, o.addr], performSred op o)
  | .fence _ ord sc _ => some (.uni, performFence ord sc)
  | .lds _ sz tag o => some (memPrice [o.data, o.addr], performLds (WF.tBytes sz) tag o)
  | .sts _ sz o => some (memPrice [o.data, o.addr], performSts (WF.tBytes sz) o)
  | .take _ sz o => some (memPrice [o.data], performTake (WF.tBytes sz) o)
  | .putTRetry _ u o => some (memPrice [o.data], performPutFrom false u.toNat o accepted)
  | .putTRep _ u o => some (memPrice [o.data], performPutFrom true u.toNat o accepted)
  | .rgetT _ o => some (.uni, performRget o)
  | .card _ o => some (.uni, performCard o)
  | .wpeer _ o => some (.uni, performWpeer o)
  | .accRd _ o => some (.vary 3, performAccRd o)
  | _ => none
/-- The issue price of a held instruction whose results or place are kept with it. -/
def keptPrice : Instr → Price
  | .div _ _ o | .rem _ _ o | .cvtfTo _ _ _ _ o | .cvtfFrom _ _ _ _ o => dstPrice o.d 3
  | .bsdec _ _ o => dstPrice o.d 4
  | .frcp _ _ o | .frsq _ _ o | .fsqrt _ _ o | .fex2 _ _ o | .flg2 _ _ o | .fsinpi _ _ o | .fcospi _ _ o | .ftanh _ _ o
  | .fdiv _ _ o => dstPrice o.d 6
  | .spawn _ _ | .enq _ _ | .enqTry _ _ => .ctl
  | _ => .uni
def isEpi : Instr → Bool
  | .epiSt _ _ _ _ _ _ | .epiT _ _ _ _ _ => true
  | _ => false
/-- A `spawn` or `enq` that waits where it is, in its place in the queue; an `enq` reads a packet behind a window again. -/
def rewait (k : Nat) (x : Iss) (o : Outst) : Option Action := match o.ins with
  | .spawn _ _ => some (modOut k o.id fun n => { n with kind := .await })
  | .enq _ q | .enqTry _ q => some (look fun s => acts [modOut k o.id fun n => { n with kind := .await, left := 0, res := noRes },
      match enqLook s x (o.point x.w k o.act) q with
        | .ok p => enqFetch p x o.id
        | .error _ => skip])
  | _ => none
/-- A held instruction re-issues in an issue slot of its own (R346): charged again, it acts from its captured operands in its old place. -/
def reinject (k : Nat) (o : Outst) : Action := look fun s =>
  match find s.warps k with
  | none => skip
  | some w =>
    let x := replayIss s k w o
    acts [if w.fw.isNone then noteSlot w.core false else skip,
      match heldOf o.units o.ins with
      | some (p, f) => acts [dropOut k o.id, chargeW w (x.price p), f x o.id, modOut k o.id fun n => { n with acq := n.acq || o.acq }]
      | none => acts [chargeW w (x.price (keptPrice o.ins)),
          (rewait k x o).getD (modOut k o.id fun n => { n with kind := if isEpi o.ins then .epi false else .alu })]]
/-- The next instruction of a warp to re-inject, in po order: it waits for what comes before its own place (R205). While the warp's handler runs,
only its lanes issue (R403). -/
def nextHeld (s : State) (k : Nat) (w : Warp) : Option Outst :=
  match w.outs.find? fun o => o.kind == .held && (w.level == 0 || (lanesOf o.mask).any fun i => (laneOf w i).st == .trapped) with
  | some o => if o.act != 0 && !isEpi o.ins && busyOf o.ins (replayIss s k w o) { s with nextId := o.age } then none else some o
  | none => none

end Sys2Proof.Machine
end

