-- ==== Sys2Proof/Machine/Switch.lean ====
section
/-! DEFINITION. Joule-fair selection and context switches (R185, R277, R280, R325, R326, R329, R409 to R416). -/
namespace Sys2Proof.Machine

/-! ### Slices (R325, R326) -/

/-- R325, R326: a slice of a partition ends. -/
def execSliceBoundary (p : Nat) (s : State) : Host.Outcome State Fault Refusal :=
  event (look fun s =>
    let r := partOf s p
    if s.now < r.ranked + 1000 * dbits (reg s .psch p) 0 16 then skip
    else acts [if fallback s (islandOfPart s p) then modPart p fun r => { r with rot := r.rot + 1 } else skip, rank p]) s

/-! ### Switch out (R410) -/

/-- Instructions that wait at a pre-emption point (R265), and so move to the switch queue: among them a load that cannot read until an
epilogue is accepted. -/
def waits (s : State) (k : Nat) (w : Warp) (o : Outst) : Bool :=
  match o.kind with
  | .held | .await | .faulty _ _ _ => true
  | .fence ord sc => !fenceReady s (o.point w k o.mask) ord sc
  | .put => o.left == 0
  | .load _ n _ _ t => !t.isEmpty && t.all fun a => !readReady s k w o a n
  | .tile ts take done _ => !done && !tilesReady s w.core o.id take ts
  | .accRd blk _ => passesOn s w.wg blk o.age
  | .epi false => match wgOf s w with
    | some g => !epiReady s w g o || faultWaits w o
    | none => true
  | _ => false
/-- Instructions that stay with their warp while its context is out: an epilogue on its way to its acceptance, an RMW that waits for one, the
fence of such an RMW. -/
def staysOut (o : Outst) : Bool := match o.kind, o.ins with
  | .epi true, _ => true
  | .reply todo, _ => todo != 0
  | .fence _ _, .fence _ _ _ _ => false
  | .fence _ _, _ => true
  | _, _ => false
/-- Nothing of a context is on its way: its instructions wait, its granted passes are done, and its writes but for those that wait for
an epilogue. -/
def quiet (s : State) (n : Nat) : Bool :=
  (s.warps.all fun e => e.2.ctx != n || e.2.fw.isSome || e.2.outs.all fun o => waits s e.1 e.2 o || staysOut o) &&
  (s.stores.all fun q => q.po.ctx != n || !storeReady s q) && (s.fabric.remotes.all fun r => r.ctx != n) &&
  (s.arrivals.all fun a => a.ctx != n || match a.src with | some (pa, _) => !runReady s a.po pa 64 | none => true) &&
  s.clusters.all fun e => e.2.table.all fun r => r.ctx != n || !r.granted
/-- A context stops issuing; its ejected threads return (R277). -/
def beginSwitch (n : Nat) : Action := acts [
  fun s => (s.warps.filter fun e => e.2.ctx == n && e.2.fw.isNone).map fun (k, w) =>
    Upd.warp k (some (w.mapLanes (w.lanesIn fun l => l.st == .ejected) fun _ l => { l with st := .grouped })),
  modCtx n fun c => { c with resident := false, stopping := true, energyOut := false },
  setField .ctxs n 0 2 2]
/-- An instruction in the switch queue: a load reads again for every thread that has not gone past it, and reads that follow the save follow its
read (R205). -/
def parkOut (w : Warp) (o : Outst) : Outst :=
  let r := redo w (BitVec.allOnes 64) o
  match o.kind with
  | .load _ _ _ _ _ => { queued o with act := r, left := r, acq := true }
  | _ => queued o
/-- Waiting instructions move to the switch queue; JOIN waits start again (R280). The threads of a `spawn` or `enq` wait on (R303). -/
def parkWarp (w : Warp) : Warp :=
  { w with
    outs := w.outs.filter staysOut
    swq := (w.outs.filter fun o => !staysOut o).map (parkOut w)
    lanes := w.lanes.map fun l => { l with join := none, skip := 0 } }
/-- Units of a `put.t.retry` still to be accepted are withdrawn with it; what was accepted stays in its entry (R254). Units of a
warp that has ended stay, and are tried again once the context is resident (R215, R300), unless their workgroup restarts. -/
def dropPuts (n : Nat) : Action := fun s =>
  [.arrivals (s.arrivals.filter fun a => a.ctx != n || (match a.wk with
    | none => true
    | some k => (find s.warps k).isNone &&
        !(s.wgs.any fun e => e.2.launch == a.launch && e.2.core == a.srcCore && e.2.restart)))]
/-- A workgroup holds a tile that is not EMPTY or a block that is not FREE (R445). -/
def localState (s : State) (g : Workgroup) : Bool :=
  (g.tiles.any fun t => (tileOf (coreOf s g.core) t).tag != .empty) || g.accs.any fun a => (accOf (coreOf s g.core) a).st != .free
/-- A restartable workgroup gives back its tiles and blocks (R416). -/
def releaseRestart (n : Nat) : Action := look fun s =>
  forEach ((wgsOf s n).filter fun e => e.2.restart) fun (k, g) => acts [
    releaseTiles g.core g.ctx g.tiles, releaseAccs g.core g.accs, modWg k fun g => { g with tiles := [], accs := [] }]
/-- The save is a fence at scope dev: what its threads write later follows their stores that are still to be performed (R205). -/
def saveFences (n : Nat) : Action := look fun s =>
  forEach (s.warps.filter fun e => e.2.ctx == n && e.2.fw.isNone && s.stores.any fun q => q.po.wk == e.1) fun (k, w) => fun s =>
    addStores (some .dev) 0 [⟨⟨w.core, n, k, BitVec.allOnes 64, s.nextId⟩, 0, 0, true, []⟩] s
def endSwitch (n : Nat) : Action := look fun s => acts [
  forEach (s.warps.filter fun e => e.2.ctx == n && e.2.fw.isNone) fun (_, w) => acts [chargeTaken w (BitVec.allOnes 64),
    dropGrants w.core ((w.outs.filter fun o => !staysOut o).map (·.id))],
  saveFences n,
  fun s => (s.warps.filter fun e => e.2.ctx == n && e.2.fw.isNone).map fun (k, w) => Upd.warp k (some (parkWarp w)),
  fun s => modCtx n (fun c => { c with lost := (wgsOf s n).any fun e => localState s e.2 }) s,
  dropPuts n, releaseRestart n, rcPark n (((wgsOf s n).filter fun e => e.2.restart).map (·.1)),
  modCtx n fun c => { c with stopping := false },
  fun s => setField .ctxs n 0 2 (if dbit (reg s .ctxs n) 2 then 3 else 0) s,
  imageOutOf n fun g => !g.restart]
/-- R410: a context stops, and its state is in its image once nothing of it is on its way. -/
def execContextSwitchOut (n : Nat) (s : State) : Host.Outcome State Fault Refusal :=
  event (look fun s =>
    if (ctxOf s n).resident then beginSwitch n
    else if (ctxOf s n).stopping && quiet s n then endSwitch n else skip) s

/-! ### Capacity of a core (R318) -/

def usedTiles (s : State) (core : Nat) : List Nat := (s.wgs.filter fun e => e.2.core == core && e.2.live).flatMap fun e => e.2.tiles
def usedAccs (s : State) (core : Nat) : List Nat := (s.wgs.filter fun e => e.2.core == core && e.2.live).flatMap fun e => e.2.accs
/-- The lowest n physical tiles or blocks not in use. -/
def pick (used : List Nat) (n : Nat) : List Nat := ((List.range 768).filter fun i => !used.contains i).take n
/-- Threads a workgroup counts for, spawn slots at W each (R42). -/
def wgThreads (r : LRec) : Nat := r.r0.t + (if r.roles = 2 then r.r1.t else 0) + r.spawn * r.width
def usedThreads (s : State) (core : Nat) : Nat :=
  ((s.wgs.filter fun e => e.2.core == core && e.2.live).map fun e => wgThreads (recOf s e.2)).foldl (· + ·) 0
/-- A core has the tiles and blocks of a record. -/
def roomFor (s : State) (core : Nat) (r : LRec) : Bool :=
  decide ((usedTiles s core).length + r.tiles ≤ 768) && decide ((usedAccs s core).length + r.acc ≤ 768)
/-- Tiles and blocks taken by a workgroup: EMPTY, their bytes zero unless the context held them last (R249), and FREE. -/
def takeParts (g : Workgroup) (tiles accs : List Nat) : Action := acts [
  forEach tiles fun t => modTile g.core t fun x =>
    if x.last == some g.ctx then { x with tag := .empty, filter := none, grant := none }
    else ⟨.empty, none, [], none, some g.ctx⟩,
  forEach accs fun a => modAcc g.core a fun _ => ⟨.free, [], [], none⟩]

/-! ### Workgroups as at their release (R36, R41, R87, R281) -/

/-- The warps of a workgroup: index, role, live lanes. -/
def wgShape (r : LRec) : List (Nat × Nat × Nat) :=
  let np := warpsOf r.width r.r0.t
  let live (t i : Nat) : Nat := min r.width (t - r.width * i)
  ((List.range np).map fun i => (i, 0, live r.r0.t i)) ++
  (if r.roles = 2 then (List.range (warpsOf r.width r.r1.t)).map fun i => (np + i, 1, live r.r1.t i) else [])
def roleOf (r : LRec) (role : Nat) : Role := if role = 1 then r.r1 else r.r0
/-- A workgroup with no warp yet. -/
def freshWg (launch ctx core area : Nat) (r : LRec) (tiles accs : List Nat) : Workgroup :=
  { launch := launch, ctx := ctx, core := core, phase := 0, recv := [], advs := [], bars := List.replicate r.nb noBar
    cvs := List.replicate 8 noCv, accs := accs, tiles := tiles, frames := List.replicate 8 noFrame, restart := r.idem
    epis := [], warps := [], spawnQ := [], area := area }
def startWarps (k : Nat) (r : LRec) : Action := forEach (wgShape r) fun (i, role, live) => look fun s =>
  match find s.wgs k with
  | none => skip
  | some g => addWarp k i (newWarp g k r.width i role live false (roleOf r role) (roleOf r role).entry r.param)
/-- A restartable workgroup starts again (R416). -/
def restartWg (k : Nat) (g : Workgroup) : Action := look fun s =>
  let r := recOf s g
  let tiles := pick (usedTiles s g.core) r.tiles
  let accs := pick (usedAccs s g.core) r.acc
  acts [
    fun s => s.clusters.map fun (c, q) => Upd.cluster c { q with
      table := q.table.filter fun e => e.wg != k, cards := q.cards.filter fun e => e.wg != k || e.running },
    forEach g.warps fun (_, wk) => upd (.warp wk none),
    upd (.wg k (some { freshWg g.launch g.ctx g.core g.area r tiles accs with recv := g.recv })),
    rcDrop g.core k, takeParts g tiles accs,
    startWarps k r, imageAdd g.ctx k, look fun s => forEach ((find s.wgs k).elim [] (·.warps)) fun e => rcEnter k e.1]

/-! ### Switch in (R410, R185) -/

/-- Entries and cards of a context posted again, with the CLASS in force. -/
def repost (n : Nat) : Action := fun s =>
  s.clusters.map fun (c, r) =>
    let mine (e : ResEntry) : Bool := e.ctx == n && !e.granted
    let cmine (e : Card) : Bool := e.ctx == n && !e.running && !wgGone s e.wg
    Upd.cluster c { r with
      table := (r.table.filter fun e => !mine e) ++ (r.table.filter mine).map fun e => { e with prio := ctxClass s n, promo := 0 }
      cards := (r.cards.filter fun e => !cmine e) ++ r.cards.filter cmine }
/-- Every switch queue goes back, its instructions held until they are re-injected in order. -/
def unpark (n : Nat) : Action := fun s =>
  (s.warps.filter fun e => e.2.ctx == n && e.2.fw.isNone).map fun (k, w) =>
    Upd.warp k (some { w with outs := w.outs ++ w.swq, swq := [] })
/-- Contexts of a partition that are resident or still being switched out. -/
def inside (s : State) (p : Nat) : List Nat :=
  (s.ctxs.filter fun e => (e.2.resident || e.2.stopping) && ctxTenant s e.1 == p).map (·.1)
/-- The reservation tables and task schedulers have room for what a context posts again (R183, R257). -/
def repostRoom (s : State) (n : Nat) : Bool := s.clusters.all fun (c, r) =>
  let mine (wg : Nat) : Bool := match find s.wgs wg with | some g => !g.restart | none => true
  let es := (r.table.filter fun e => e.ctx == n && !e.granted && mine e.wg).length
  let cs := (r.cards.filter fun e => e.ctx == n && !e.running && mine e.wg && !wgGone s e.wg).length
  (es = 0 || decide (tableUsed s c + es ≤ 32)) && (cs = 0 || decide (cardCount s c + cs ≤ 64))
/-- Workgroups of a context that start again when it returns (R416). -/
def restarting (s : State) (n : Nat) : List (Nat × Workgroup) := (wgsOf s n).filter fun e => e.2.restart && e.2.tiles.isEmpty && e.2.accs.isEmpty
/-- They find their tiles and blocks, those on one core together. -/
def restartRoom (s : State) (n : Nat) : Bool :=
  let l := restarting s n
  l.all fun e =>
    let need (f : LRec → Nat) : Nat := ((l.filter fun v => v.2.core == e.2.core).map fun v => f (recOf s v.2)).foldl (· + ·) 0
    decide ((usedTiles s e.2.core).length + need (·.tiles) ≤ 768) && decide ((usedAccs s e.2.core).length + need (·.acc) ≤ 768)
/-- A context can be switched in: chosen, out, its restartable workgroups find their tiles and blocks, and what it posts finds room. -/
def canEnter (s : State) (n : Nat) : Bool :=
  let c := ctxOf s n
  let p := ctxTenant s n
  (partOf s p).want.contains n && !c.resident && !c.stopping && c.stop == 0 && decide ((inside s p).length < resOf s p) && repostRoom s n && restartRoom s n
/-- R410: a context chosen by the ranking becomes resident. -/
def execContextSwitchIn (n : Nat) (s : State) : Host.Outcome State Fault Refusal :=
  event (look fun s => if !canEnter s n then skip else acts [
    imageIn n, repost n, unpark n, rcUnpark n,
    look fun s => forEach (restarting s n) fun (k, g) => restartWg k g,
    look fun s => forEach (dedup ((wgsOf s n).map fun e => e.2.core)) l1Discard,
    modCtx n fun c => { c with resident := true, energyOut := false },
    setField .ctxs n 0 2 1]) s

end Sys2Proof.Machine
end

