-- ==== Sys2Proof/Machine/System.lean ====
section
/-! DEFINITION. System instructions (R362, R399 to R408, R418 to R427) and the deliveries of traps, remote errors and timers. -/
namespace Sys2Proof.Machine

/-- The meaning of an instruction of R418 charged 16 drops. -/
def issueSys (i : Instr) (busy : Iss → State → Bool) (body : Iss → Nat → Action) (s : State) : Host.Outcome State Fault Refusal :=
  issue i (fun x => x.price .uni) busy body s
def cauPriv : Nat := 5
def cauFrame : Nat := 33

/-! ### Traps and returns (R407, R419, R420) -/

/-- R419: cause 32, resuming at the next instruction. -/
def performTrap (o : OX) (x : Iss) (_id : Nat) : Action := raise x.k ⟨x.mask, 32, x.pc, x.next, 0, o.sel.setWidth 32, none⟩
def execTrap (c : Ctl) (o : OX) (s : State) : Host.Outcome State Fault Refusal := issueSys (.trap c o) never (performTrap o) s
/-- The acting lanes wait in a return of frame f, which is taken once every live lane of its group has come. -/
def waitRetr (x : Iss) (f : Nat) : Action := acts [
  modWarp x.k fun w => w.mapLanes x.g fun _ l => { l with wait := .retr f }, settleRetr x.w.wg]
/-- The level-1 frame of a warp, if it is in use. -/
def levelFrame (s : State) (w : Warp) : Option (Nat × Frame) :=
  match w.frame, wgOf s w with
  | some f, some g => if (nth g.frames f noFrame).state = 1 then some (f, nth g.frames f noFrame) else none
  | _, _ => none
def performRetr (x : Iss) (_id : Nat) : Action := look fun s =>
  if x.w.level != 1 then x.trap cauIllegal 0 0
  else match levelFrame s x.w with
    | some (f, _) => waitRetr x f
    | none => x.trap cauFrame 0 0
/-- R407, R420. -/
def execRetr (c : Ctl) (o : OX) (s : State) : Host.Outcome State Fault Refusal := issueSys (.retr c o) never performRetr s
/-- The continuation frame of a warp that a token names. -/
def tokenFrame (s : State) (x : Iss) (token : Word) : Option Nat :=
  match wgOf s x.w with
  | none => none
  | some g =>
    let f := wbits token 2 3
    let fr := nth g.frames f noFrame
    if decide (2 ≤ fr.state) && isCont fr && fr.warp == x.k && token == tokenOf x.w f fr.gen && x.g &&& ~~~fr.gmask = 0 then some f else none
def performRetrC (o : OX) (x : Iss) (_id : Nat) : Action := look fun s =>
  if x.w.level != 0 then x.trap cauIllegal 0 0
  else match tokenFrame s x (x.val o.a (lowest x.g)) with
    | some f => waitRetr x f
    | none => x.trap cauFrame 0 0
/-- R407, R420. -/
def execRetrC (c : Ctl) (o : OX) (s : State) : Host.Outcome State Fault Refusal := issueSys (.retrC c o) never (performRetrC o) s

/-! ### Frame fields (R421) -/

/-- Values of the operand x, below the bound of its field. -/
def frmBound (sel : Nat) : Nat := match sel with | 9 | 12 => 8 | 13 | 14 => 16 | _ => 2 ^ 32
/-- A field as lane i reads it. -/
def frmValue (fr : Frame) (sel x i : Nat) : DWord :=
  match sel with
  | 0 => zx64 fr.cause
  | 1 => dw fr.state
  | 2 => fr.fpc
  | 3 => fr.rpc
  | 4 => fr.fva
  | 5 => zx64 fr.synd
  | 6 => zx64 fr.token
  | 7 => fr.gmask
  | 8 => dw fr.rep.length
  | 9 => zx64 (nth (nth fr.sv i []) x 0)
  | 10 => dw (nth fr.pred i 0).toNat
  | 11 => zx64 (nth fr.flg i 0)
  | 12 => zx64 (nth fr.ss x 0)
  | 13 => ((fr.rep.drop x).head?.map (·.o.pc)).getD 0
  | 14 => ((fr.rep.drop x).head?.map fun r => dw (b2n r.valid + 2 * b2n r.drop)).getD 0
  | 15 => zx64 fr.rcnt
  | _ => fr.rifa
/-- The checks of R421 for an access: the frame and x, or the cause. -/
def frmLook (s : State) (x : Iss) (o : OX) : Except Nat (Nat × Frame × Nat) :=
  let sel := o.sel.toNat
  let k := match o.a with | .none => 0 | a => (x.val a (lowest x.g)).toNat
  if x.w.level != 1 then .error cauIllegal
  else match levelFrame s x.w with
    | none => .error cauFrame
    | some (f, fr) =>
      if frmBound sel ≤ k then .error cauIllegal
      else if (sel == 13 || sel == 14) && decide (fr.rep.length ≤ k) then .error cauFrame
      else .ok (f, fr, k)
def performFrmRd (o : OX) (x : Iss) (_id : Nat) : Action := look fun s =>
  match frmLook s x o with
  | .error c => x.trap c 0 0
  | .ok (_, fr, k) => modWarp x.k fun w => x.writeD w o.d (WF.frmWide o.sel.toNat) (frmValue fr o.sel.toNat k)
/-- R421. -/
def execFrmRd (c : Ctl) (o : OX) (s : State) : Host.Outcome State Fault Refusal :=
  issue (.frmRd c o) (fun x => x.price (.vary 3)) never (performFrmRd o) s
/-- A field written: a lane's own by each guard-true lane, the others by the lowest. -/
def frmSet (x : Iss) (o : OX) (k : Nat) (fr : Frame) : Frame :=
  let lanes := lanesOf x.g
  let lo := lowest x.g
  match o.sel.toNat with
  | 3 => { fr with rpc := x.val64 o.d lo }
  | 9 => { fr with sv := lanes.foldl (fun l i => setAt l i (setAt (nth l i []) k (x.val o.d i))) fr.sv }
  | 10 => { fr with pred := lanes.foldl (fun l i => setAt l i ((x.val o.d i).setWidth 12)) fr.pred }
  | 11 => { fr with flg := lanes.foldl (fun l i => setAt l i (x.val o.d i &&& 0x1FF)) fr.flg }
  | 12 => { fr with ss := setAt fr.ss k (x.val o.d lo) }
  | 14 => { fr with rep := mapI (fun j r => if j = k then { r with drop := (x.val o.d lo).getLsbD 1 } else r) fr.rep }
  | _ => fr
def performFrmWr (o : OX) (x : Iss) (_id : Nat) : Action := look fun s =>
  match frmLook s x o with
  | .error c => x.trap c 0 0
  | .ok (f, _, k) => modFrame x.w.wg f (frmSet x o k)
/-- R421. -/
def execFrmWr (c : Ctl) (o : OX) (s : State) : Host.Outcome State Fault Refusal :=
  issue (.frmWr c o) (fun x => x.price (.vary 3)) never (performFrmWr o) s

/-! ### Continuations (R422, R423) -/

def performContSet (o : OX) (x : Iss) (_id : Nat) : Action :=
  let v : DWord := match o.a with | .none => 0 | a => x.val64 a (lowest x.g)
  if v.toNat % 64 != 0 || v.toNat / 2 ^ 52 != 0 then x.trap 3 v 0 else modWarp x.k fun w => { w with cpc := v }
/-- R422. -/
def execContSet (c : Ctl) (o : OX) (s : State) : Host.Outcome State Fault Refusal := issueSys (.contSet c o) never (performContSet o) s
/-- A pending continuation frame with a token: workgroup and frame number. -/
def pendingFrame (s : State) (token : Word) : Option (Nat × Workgroup × Nat) :=
  let f := wbits token 2 3
  (s.wgs.find? fun e => e.2.ctx == wbits token 22 10 &&
    (let fr := nth e.2.frames f noFrame
     fr.state == 2 && isCont fr && fr.token == token)).map fun e => (e.1, e.2, f)
def performContSig (o : OX) (x : Iss) (_id : Nat) : Action := look fun s =>
  let token := x.val o.a (lowest x.g)
  if x.w.fw.isNone && ctxTenant s (wbits token 22 10) != ctxTenant s x.w.ctx then x.trap cauPriv 0 0
  else
    let hit := pendingFrame s token
    acts [
      modWarp x.k fun w => x.writeD w o.d false fun _ => if hit.isSome then 0 else 1,
      match hit with
        | none => skip
        | some (k, g, f) => acts [
            modFrame k f fun fr => { fr with state := 3 },
            if (ctxOf s g.ctx).resident || (ctxOf s g.ctx).stopping then settleRetr k
            else imgWrite g.ctx (imgBase s g.ctx + g.area + frameOff f + 4) (le 4 3)]]
/-- R423. -/
def execContSig (c : Ctl) (o : OX) (s : State) : Host.Outcome State Fault Refusal := issueSys (.contSig c o) relBusyNow (performContSig o) s

/-! ### System registers (R424, R425) -/

/-- The register a SEL names, whether its index is a tenant, and who may write it: supervisor, firmware. -/
def sysReg (sel : Nat) : Option (RegKind × Bool × Bool × Bool) :=
  match sel with
  | 0 => some (.ctxt, false, true, true)
  | 1 => some (.cwin, false, true, true)
  | 2 => some (.hvec, false, true, true)
  | 3 => some (.cimg, false, true, true)
  | 4 => some (.ctxs, false, true, true)
  | 8 => some (.ctxd, false, false, true)
  | 0x10 => some (.evrb, true, true, true)
  | 0x11 => some (.evrs, true, false, false)
  | 0x12 => some (.qmap, true, true, true)
  | 0x13 => some (.qstat, true, false, false)
  | _ => none
/-- The checks of an access: the register and its index, or the cause. -/
def sysLook (s : State) (x : Iss) (o : OX) (write : Bool) : Except Nat (RegKind × Nat) :=
  match sysReg o.sel.toNat with
  | none => .error cauIllegal
  | some (k, ten, sw, fw) =>
    let own := if ten then ctxTenant s x.w.ctx else x.w.ctx
    let n := match o.a with | .none => own | a => (x.val a (lowest x.g)).toNat
    if (o.a == .none && x.w.fw.isSome) || kindCount k ≤ n then .error cauReg
    else if x.w.fw.isNone && (if ten then n else ctxTenant s n) != ctxTenant s x.w.ctx then .error cauPriv
    else if write && !(if x.w.fw.isSome then fw else sw) then .error cauPriv
    else .ok (k, n)
def performSrRd (o : OX) (x : Iss) (_id : Nat) : Action := look fun s =>
  match sysLook s x o false with
  | .error c => x.trap c 0 0
  | .ok (k, n) => modWarp x.k fun w => x.writeD w o.d (kindWide k) fun _ => reg s k n
/-- R424. -/
def execSrRd (c : Ctl) (o : OX) (s : State) : Host.Outcome State Fault Refusal := issueSys (.srRd c o) never (performSrRd o) s
def performSrWr (o : OX) (x : Iss) (_id : Nat) : Action := look fun s =>
  match sysLook s x o true with
  | .error c => x.trap c 0 0
  | .ok (k, n) => writeReg k n (x.valW (kindWide k) o.d (lowest x.g))
/-- R424. -/
def execSrWr (c : Ctl) (o : OX) (s : State) : Host.Outcome State Fault Refusal := issueSys (.srWr c o) never (performSrWr o) s

/-! ### ctx.ctl (R426) -/

/-- The context named, or the cause. -/
def ctlLook (s : State) (x : Iss) (o : OX) : Except Nat Nat :=
  let n := match o.a with | .none => x.w.ctx | a => (x.val a (lowest x.g)).toNat
  if (o.a == .none && x.w.fw.isSome) || 1024 ≤ n then .error cauReg
  else if x.w.fw.isNone && ctxTenant s n != ctxTenant s x.w.ctx then .error cauPriv
  else .ok n
/-- The status written, and the operation on a valid context. -/
def performCtl (f : Nat → Action) (o : OX) (x : Iss) (_id : Nat) : Action := look fun s =>
  match ctlLook s x o with
  | .error c => x.trap c 0 0
  | .ok n => acts [modWarp x.k fun w => x.writeD w o.d false fun _ => if ctxValid s n then 0 else 1,
      if ctxValid s n then f n else skip]
/-- A context that is out is stopped at once; a resident one is no longer chosen, and is switched out. -/
def holdCtx (n : Nat) : Action := look fun s => acts [
  setField .ctxs n 2 1 1,
  if (ctxOf s n).resident || (ctxOf s n).stopping then rankOf n else setField .ctxs n 0 2 3]
def releaseCtx (n : Nat) : Action := look fun s => acts [
  setField .ctxs n 2 1 0,
  if (ctxOf s n).resident || (ctxOf s n).stopping || (ctxOf s n).stop != 0 then skip else setField .ctxs n 0 2 0]
def killCtx (n : Nat) : Action := look fun s => stopRank n stStopped false (stopEntry s n)
/-- R426: op 0. -/
def execCtxCtlHold (c : Ctl) (o : OX) (s : State) : Host.Outcome State Fault Refusal := issueSys (.ctxCtlHold c o) never (performCtl holdCtx o) s
/-- R426: op 1. -/
def execCtxCtlRelease (c : Ctl) (o : OX) (s : State) : Host.Outcome State Fault Refusal :=
  issueSys (.ctxCtlRelease c o) never (performCtl releaseCtx o) s
/-- R426: op 2. -/
def execCtxCtlKill (c : Ctl) (o : OX) (s : State) : Host.Outcome State Fault Refusal := issueSys (.ctxCtlKill c o) never (performCtl killCtx o) s

/-! ### tlbi (R374, R427) -/

def performTlbiVa (o : OX) (x : Iss) (_id : Nat) : Action := look fun s =>
  match ctlLook s x o with
  | .error c => x.trap c 0 0
  | .ok n =>
    let p := (x.val64 o.d (lowest x.g)).toNat / 65536
    dropTlb fun t => t.ctx == n && meet p (o.sel.toNat + 1) t.first t.pages
/-- R427: MOD 0. -/
def execTlbiVa (c : Ctl) (o : OX) (s : State) : Host.Outcome State Fault Refusal :=
  issueSys (.tlbiVa c o) (fun x => tlbiBusy (tlbiCtx x o) x) (performTlbiVa o) s
def performTlbiCtx (o : OX) (x : Iss) (_id : Nat) : Action := look fun s =>
  match ctlLook s x o with
  | .error c => x.trap c 0 0
  | .ok n => dropTlb fun t => t.ctx == n
/-- R427: MOD 1. -/
def execTlbiCtx (c : Ctl) (o : OX) (s : State) : Host.Outcome State Fault Refusal :=
  issueSys (.tlbiCtx c o) (fun x => tlbiBusy (tlbiCtx x o) x) (performTlbiCtx o) s
def performTlbiTen (o : OX) (x : Iss) (_id : Nat) : Action :=
  let t := (x.val o.a (lowest x.g)).toNat
  if o.a == .none || 192 ≤ t then x.trap cauReg 0 0 else dropTlb fun e => e.tenant == t
/-- R427: MOD 2. -/
def execTlbiTen (c : Ctl) (o : OX) (s : State) : Host.Outcome State Fault Refusal :=
  issueSys (.tlbiTen c o) (tlbiBusy none) (performTlbiTen o) s

/-! ### Deliveries (R362, R400, R403, R408) -/

/-- Whether a trap that waits at its boundary can be taken now (R400, R403). -/
def trapReady (s : State) (k : Nat) (w : Warp) (t : Trap) : Bool :=
  match wgOf s w with
  | none => false
  | some g => (ctxOf s w.ctx).resident && !behindHandler w t.mask && (route s w g t.cause == .level2 || (!sentBusy s k w t.mask && (freeFrame g).isSome))
/-- R400: a group that waited for a frame takes its trap. -/
def execTrapEntry (wk : Nat) (s : State) : Host.Outcome State Fault Refusal :=
  event (look fun s => match find s.warps wk with
    | none => skip
    | some w => match w.pend.find? (trapReady s wk w) with
      | none => skip
      | some t => acts [
          modWarp wk fun w => { w.mapLanes t.mask (fun _ l => if l.wait == .frame then l.wake s.now else l) with
            pend := w.pend.filter fun u => u != t },
          raise wk t]) s
/-- The group that takes a remote error: the one with the lowest PC that has an affected lane, unless that lane waits and so is at no
boundary. -/
def errGroup (w : Warp) : Option (DWord × Mask) :=
  (minNat? ((w.lanes.zipIdx.filter fun e => e.1.st == groupSt w && inMask w.rem.lanes e.2).map fun e => e.1.pc.toNat)).bind fun pc =>
    (groupsOf w).find? fun e => e.1 == dw pc && e.2 &&& w.rem.lanes != 0
/-- A recorded error that the warp is to take, with its group. -/
def errNext (s : State) (w : Warp) : Option (DWord × Mask) :=
  if w.rem.count = 0 || w.level != 0 || !(ctxOf s w.ctx).resident || w.pend.any (fun t => t.cause == 31) then none else errGroup w
/-- It takes it at its boundary once nothing of it is unfinished, since the replay queue of that trap is empty. -/
def errDue (s : State) (w : Warp) : Option (DWord × Mask) := (errNext s w).filter fun e => (takeOuts w e.2 none true).1.isEmpty
/-- Until then the group issues nothing, unless what is unfinished waits at a pre-emption point (R265; log 66). -/
def errHolds (s : State) (k : Nat) (w : Warp) (m : Mask) : Bool := match errNext s w with
  | some (_, e) => e &&& m != 0 && !(takeOuts w e none true).1.isEmpty && !(w.outs.all fun o => o.mask &&& e == 0 || finished o || waits s k w o)
  | none => false
/-- R408. -/
def execRemoteErrorDelivery (wk : Nat) (s : State) : Host.Outcome State Fault Refusal :=
  event (look fun s => match find s.warps wk with
    | none => skip
    | some w => match errDue s w with
      | none => skip
      | some (pc, m) => raise wk ⟨m, 31, pc, pc, 0, w.rem.code, none⟩) s
/-- Whether a deadline has been reached. -/
def deadlineDue (s : State) (w : Warp) (ctx : Bool) : Bool :=
  let d := if ctx then w.ctxd else w.dev
  let t := if ctx then (ctxOf s w.ctx).time else s.now
  d.armed && decide (d.t.toNat ≤ t)
def setDeadline (wk : Nat) (ctx : Bool) (f : Deadline → Deadline) : Action := modWarp wk fun w =>
  if ctx then { w with ctxd := f w.ctxd } else { w with dev := f w.dev }
/-- R362: a deadline fires: it disarms itself, and is held until a group of the warp at level 0 can take the trap. -/
def execTimerDeadlineFire (wk : Nat) (ctx : Bool) (s : State) : Host.Outcome State Fault Refusal :=
  event (look fun s => match find s.warps wk with
    | none => skip
    | some w =>
      let d := if ctx then w.ctxd else w.dev
      if !(deadlineDue s w ctx || d.held) || (w.fw.isNone && !(ctxOf s w.ctx).resident) then skip
      else match if w.level = 0 then (groupsOf w).head? else none with
        | none => setDeadline wk ctx fun d => { d with armed := false, held := true }
        | some (pc, m) => acts [setDeadline wk ctx fun d => { d with armed := false, held := false },
            raise wk ⟨m, 30, pc, pc, 0, 0, none⟩]) s

end Sys2Proof.Machine
end

