-- ==== Sys2Proof/Machine/Energy.lean ====
section
/-! DEFINITION. Energy accounts, meter readings, operating points, current and temperature, rack caps and timers (R25, R321, R329,
R338 to R362). -/
namespace Sys2Proof.Machine

/-! ### erd and ewr (R357, R358) -/

/-- The island of a firmware core (R22): 0 is the root of trust, 1 to 6 the command processors, 7 to 12 the service cores. -/
def fwIsland (c : Nat) : Nat := if c = 0 then 0 else (c - 1) % 6
/-- The issuer's own index of a register kind; a firmware core has only an island. -/
def ownIndex (s : State) (x : Iss) (k : RegKind) : Option Nat :=
  match x.w.fw with
  | some c => match k with
    | .ilim | .imeas => some (fwIsland c)
    | _ => none
  | none => match k with
    | .cbal | .cinf | .cuse | .ccor => some x.w.ctx
    | .ilim | .imeas => some (islandOfCore x.w.core)
    | .clst => some (clusterNo x.w.core)
    | _ => some (ctxTenant s x.w.ctx)
/-- What a supervisor may read: its tenant's contexts, its tenant, its partition and the clusters in it, every island. -/
def supReads (s : State) (t : Nat) (k : RegKind) (n : Nat) : Bool :=
  match k with
  | .cbal | .cinf | .cuse | .ccor => ctxTenant s n == t
  | .tbud | .tuse | .tdebt | .pcfg | .opmb => n == t
  | .clst => inPart s t n
  | _ => true
/-- Registers a firmware write may not name (R357). -/
def fwReadOnly : RegKind → Bool
  | .cuse | .ccor | .imeas => true
  | _ => false
/-- The table of R357 for an index in range. -/
def energyAllowed (s : State) (x : Iss) (k : RegKind) (n : Nat) (write : Bool) : Bool :=
  match privNow s x.w with
  | 0 => !write && n == x.w.ctx && (k == .cbal || k == .cuse || k == .ccor)
  | 1 => (!write || k == .opmb) && supReads s (ctxTenant s x.w.ctx) k n
  | _ => !write || !fwReadOnly k
/-- The register and index of an access, or the cause of its trap. -/
def energyLook (s : State) (x : Iss) (o : OX) (write : Bool) : Except Nat (RegKind × Nat) :=
  match eSel o.sel.toNat with
  | none => .error cauIllegal
  | some (k, _, false) => if energyAllowed s x k 0 write then .ok (k, 0) else .error cauPriv
  | some (k, _, true) =>
    match (match o.a with | .none => ownIndex s x k | a => some (x.val a (lowest x.g)).toNat) with
    | none => .error cauReg
    | some n =>
      if kindCount k ≤ n then .error cauReg
      else if energyAllowed s x k n write then .ok (k, n) else .error cauPriv
def performErd (o : OX) (x : Iss) (_id : Nat) : Action := look fun s =>
  match energyLook s x o false with
  | .error c => x.trap c 0 0
  | .ok (k, n) => modWarp x.k fun w => x.writeD w o.d (kindWide k) fun _ => reg s k n
/-- R358. -/
def execErd (c : Ctl) (o : OX) (s : State) : Host.Outcome State Fault Refusal := issueSys (.erd c o) never (performErd o) s
def performEwr (o : OX) (x : Iss) (_id : Nat) : Action := look fun s =>
  match energyLook s x o true with
  | .error c => x.trap c 0 0
  | .ok (k, n) => writeReg k n (x.valW (kindWide k) o.d (lowest x.g))
/-- R358. -/
def execEwr (c : Ctl) (o : OX) (s : State) : Host.Outcome State Fault Refusal := issueSys (.ewr c o) never (performEwr o) s

/-! ### Weight banks (R359) -/

def cauAtomAlign : Nat := 13
def cauWeights : Nat := 29
/-- Clusters that a bank selector names; none if it is out of range. -/
def bankTargets (a : Word) : Option (List Nat) :=
  let c := wbits a 0 8
  if wbits a 12 20 != 0 || (192 ≤ c && c < 255) then none else if c = 255 then some (List.range 192) else some [c]
/-- A bank replaced as a whole. -/
def loadBank (bank : Nat) (ws : List Word) (cl : Nat) : Action := modCluster cl fun r =>
  { r with banks := (mapI (fun i w => (i, w)) ws).foldl (fun m e => put m (32 * bank + e.1) e.2) r.banks }
/-- The banks of an island that the fallback scheduler serves are frozen (R329). -/
def performEwt (o : OX) (x : Iss) (id : Nat) : Action := look fun s =>
  let ea := imageEa x o 0
  let a := x.val o.a (lowest x.g)
  if ea.toNat % 64 != 0 then x.trap cauAtomAlign ea 0
  else match imageAt s x ea with
    | .error (e, f) => x.trap (faultCause .read f) (dw e) (syndrome .read f)
    | .ok l => match bankTargets a with
      | none => x.trap cauReg 0 0
      | some cls =>
        let ws := takeWords (l.flatMap fun pa => overlay s (x.point id) pa 64) 32
        acts [noteRead (x.point id),
          homeAccess (payer x.w) (clusterNo x.w.core) false (l.map (· / 64)),
          if (ws.drop 23).any (· != 0) then x.trap cauWeights ea 0
          else forEach (cls.filter fun c => !fallback s (islandOfCluster c)) (loadBank (wbits a 8 4) ws)]
/-- R359. -/
def execEwt (c : Ctl) (o : OX) (s : State) : Host.Outcome State Fault Refusal := issueSys (.ewt c o) (ewtBusy o) (performEwt o) s

/-! ### Meter readings (R354, R355, R360) -/

/-- The first correction-interval boundary at least 10 µs away. -/
def meterEnd (now : Nat) : Nat := (now + 19999) / 10000 * 10000
def performMeter (o : OX) (x : Iss) (_id : Nat) : Action := look fun s =>
  let ea := x.val64 o.a (lowest x.g)
  let t := ctxTenant s x.w.ctx
  let r := tenantOf s t
  let put (n : Word) : Action := modWarp x.k fun w => x.writeD w o.d false fun _ => zx64 n
  if x.w.fw.isSome then x.trap cauReg 0 0
  else if ea.toNat % 1024 != 0 then x.trap cauAtomAlign ea 0
  else acts [vaWalks x.w.ctx (clusterNo x.w.core) .write [ea.toNat], match xlateAll s x.w.ctx true .write ea 1024 with
    | .error (p, f) => x.trap (faultCause .write f) p (syndrome .write f)
    | .ok _ =>
      if !dbit (reg s .tbud t) 63 then put 2
      else if r.reading.isSome then put 1
      else acts [put 0, fun s => modTenant t (fun r => { r with reading := some ⟨x.w.ctx, ea, meterEnd s.now, []⟩ }) s]]
/-- R360. -/
def execMeter (c : Ctl) (o : OX) (s : State) : Host.Outcome State Fault Refusal := issueSys (.meter c o) never (performMeter o) s
def signed64 (x : Int) : Nat := (BitVec.ofInt 64 x).toNat
/-- Bytes 0x000 to 0x1FF of a reading. -/
def readingBytes (s : State) (t : Nat) (r : Tenant) (t1 : Nat) : List Byte :=
  le 4 1 ++ le 4 t ++ le 8 (r.seq + 1) ++ le 8 r.t0 ++ le 8 t1 ++
  ((List.range 32).flatMap fun c => le 8 (if c < 23 then findD r.drops c 0 else 0)) ++
  le 8 (signed64 r.corr) ++ le 4 r.clamps ++ le 4 r.ctxs.length ++
  ((List.range 16).flatMap fun op => le 8 (((clustersOfPart s t).map fun c => residency s c op).foldl (· + ·) (findD r.res op 0))) ++
  sha256 s.flash.cert ++ le 8 s.boot.bootid.toNat ++ zeros 40
/-- The span of a reading ends: its counts are taken, and those of the next span start. -/
def endSpan (t : Nat) (r : Reading) : Action := look fun s => acts [
  modTenant t fun n => { n with
    reading := some { r with snap := readingBytes s t n r.t1 }
    seq := n.seq + 1, t0 := r.t1, drops := [], corr := 0, clamps := 0, ctxs := [], res := [] },
  forEach (clustersOfPart s t) restartResidency]
/-- The record, its signature, and DONE last; its lines are charged to the context that asked. The root of trust walks in island 0. -/
def writeRecord (t : Nat) (r : Reading) : Action := look fun s => acts [
  vaWalks r.ctx 0 .write [r.buf.toNat],
  vaWriteBy r.ctx true (recordWrite r.ctx) r.buf.toNat (r.snap ++ (List.range 384).map (Config.sign r.snap)),
  vaWriteBy r.ctx true (recordWrite r.ctx) (r.buf.toNat + 0x380) (le 8 (tenantOf s t).seq),
  modTenant t fun n => { n with reading := none }]
/-- R354, R355: the reading's span ends at T1, and the record follows. -/
def execMeterRecordWrite (t : Nat) (s : State) : Host.Outcome State Fault Refusal :=
  event (look fun s => match (tenantOf s t).reading with
    | none => skip
    | some r => if s.now < r.t1 then skip else if r.snap.isEmpty then endSpan t r else writeRecord t r) s

/-! ### Timers (R361, R362) -/

/-- The time counter a warp reads; a firmware core has no context time. -/
def performTmrRd (ctx : Bool) (o : OX) (x : Iss) (_id : Nat) : Action :=
  let put (v : DWord) : Action := modWarp x.k fun w => x.writeD w o.d true fun _ => v
  if !ctx then look fun s => put (dw s.now)
  else if x.w.fw.isSome then withFree fun t => put (Config.freeValue t)
  else look fun s => put (dw (ctxOf s x.w.ctx).time)
/-- R361. -/
def execTmrRd (c : Ctl) (ctx : Bool) (o : OX) (s : State) : Host.Outcome State Fault Refusal :=
  issueSys (.tmrRd c ctx o) never (performTmrRd ctx o) s
def performTmrArm (ctx : Bool) (o : OX) (x : Iss) (_id : Nat) : Action :=
  setDeadline x.k ctx fun _ => ⟨x.val64 o.a (lowest x.g), true, false⟩
/-- R362. -/
def execTmrArm (c : Ctl) (ctx : Bool) (o : OX) (s : State) : Host.Outcome State Fault Refusal :=
  issueSys (.tmrArm c ctx o) never (performTmrArm ctx o) s
def performTmrOff (ctx : Bool) (x : Iss) (_id : Nat) : Action := setDeadline x.k ctx fun d => { d with armed := false, held := false }
/-- R362. -/
def execTmrOff (c : Ctl) (ctx : Bool) (o : OX) (s : State) : Host.Outcome State Fault Refusal :=
  issueSys (.tmrOff c ctx o) never (performTmrOff ctx) s

/-! ### Periods (R321, R329, R338) -/

def validCtxs (s : State) : List Nat := (List.range 1024).filter (ctxValid s)
def sat47 (x : Nat) : Nat := min (2 ^ 47 - 1) x
/-- The end of a period: what was used above AVAIL is owed. -/
def tenantEnd (t : Nat) : Action := fun s =>
  [.reg .tdebt t (dset (reg s .tdebt t) 0 47 (sat47 (dbits (reg s .tdebt t) 0 47 + (regN s .tuse t - (tenantOf s t).avail))))]
/-- The start of a period. -/
def tenantStart (t : Nat) : Action := fun s =>
  let budget := dbits (reg s .tbud t) 0 47
  let debt := dbits (reg s .tdebt t) 0 47
  let repay := min debt (budget / 4)
  [.reg .tdebt t (dw (debt - repay)), .reg .tuse t 0, .ten t { tenantOf s t with avail := budget - repay, ceil := budget - repay }]
/-- Tenants whose budgets run: those not served by the fallback scheduler. -/
def budgeted (s : State) : List Nat := (List.range 192).filter fun t => !fallback s (islandOfPart s t)
/-- Inflow and the restart of a context's sums. -/
def ctxPeriod (n : Nat) : Action := fun s =>
  acts [addCbal n (dbits (reg s .cinf n) 0 47 : Nat), upd (.reg .cuse n 0), upd (.reg .ccor n 0)] s
/-- R321, R338: the boundary at k ms. -/
def execPeriodBoundary (s : State) : Host.Outcome State Fault Refusal :=
  event (look fun s => acts [
    forEach (validCtxs s) ctxPeriod,
    fun s => s.launches.map fun (k, l) => Upd.launch k (some { l with fbk := l.fbk && fallback s (islandOfPart s (ctxTenant s l.ctx)) }),
    forEach (budgeted s) fun t => acts [tenantEnd t, tenantStart t]]) s

/-! ### Correction (R340, R341) -/

/-- A correction of a context: balance, USED, COR and the tenant's meter. -/
def correct (n : Nat) (share : Int) : Action := fun s =>
  if !ctxValid s n then [] else acts [debit n share,
    modReg .ccor n fun c => BitVec.ofInt 64 (sat64 (c.toInt + share)),
    modTenant (ctxTenant s n) fun t => { t with
      corr := t.corr + share, ctxs := if t.ctxs.contains n then t.ctxs else t.ctxs ++ [n] }] s
/-- The account that takes the rest: the largest, ties to the lowest context, the foreign account (key 0) last. -/
def largestAcct (l : SMap Nat) : Nat :=
  let best := (l.map (·.2)).foldl max 0
  (((l.filter fun e => e.1 != 0) ++ l.filter fun e => e.1 == 0).find? fun e => e.2 == best).elim 0 (·.1)
/-- The correction of one cluster: D after its bound, and whether it was clamped. -/
def correction (ec em w22 : Nat) : Int × Bool :=
  let d : Int := em - ec
  let bound := max ec w22 / 4
  if bound < d.natAbs then ((if d < 0 then -(bound : Int) else bound), true) else (d, false)
/-- The shares of R341 by account. -/
def shares (l : SMap Nat) (ec : Nat) (d : Int) : List (Nat × Int) :=
  let base := l.map fun e => (e.1, (d * e.2).tdiv ec)
  let rest := d - (base.map (·.2)).foldl (· + ·) 0
  base.map fun e => (e.1, if e.1 = largestAcct l then e.2 + rest else e.2)
/-- R341 for a cluster, with the measured energy. -/
def correctCluster (c em : Nat) : Action := fun s =>
  let l := (clusterOf s c).chg.filter fun e => e.2 != 0
  let ec := (l.map (·.2)).foldl (· + ·) 0
  let (d, clamped) := correction ec em (weight s c 22)
  let p := partOfCluster s c
  acts [
    if clamped then setField .clst c 21 1 1 else skip,
    modCluster c fun r => { r with chg := [] },
    match p with
      | none => skip
      | some p => acts [
          if clamped then modTenant p fun t => { t with clamps := t.clamps + 1 } else skip,
          if ec = 0 then correct (ownerOf s p) d
          else forEach (shares l ec d) fun e => if e.1 = 0 then skip else correct (e.1 - 1) e.2]] s
/-- The static charge of a cluster at the start of an interval (R340). -/
def staticCharge (c : Nat) : Action := fun s =>
  match partOfCluster s c with
  | none => []
  | some p => charge (some (ownerOf s p)) [⟨22, 1, c⟩] s

/-! ### Operating points (R345 to R350) -/

/-- TARGET becomes the request in force; frozen in fallback (R329). -/
def takeTarget (p : Nat) : Action := fun s =>
  if fallback s (islandOfPart s p) then [] else setField .opmb p 4 4 (dbits (reg s .opmb p) 0 4) s
/-- HEAVY (R346): at least 512 of the last 4,096 slots. -/
def heavyNow (r : Cluster) : Bool := decide (512 ≤ ((List.range 4096).filter fun i => r.hist.getLsbD i).length)
/-- ICAP of an island after an interval (R347). -/
def nextIcap (s : State) (isl : Nat) : Nat :=
  let i := islandOf s isl
  let old := dbits (reg s .clst ((clustersOfIsland isl).headD 0)) 4 4
  if i.hot then topOp s isl - 1 else if i.high then old else min 15 (old + 1)
/-- TCAP after a sample (R348); a soft trip holds it at 0 (R444). -/
def nextTcap (s : State) (c tj : Nat) : Nat :=
  let old := dbits (reg s .clst c) 8 4
  if devState s = 3 then 0 else if 380 ≤ tj then opNow s c - 1 else if tj < 368 then min 15 (old + 1) else old
/-- The bound that OPEFF equals: thermal, current, boost, request (R350). -/
def bindOf (eff tcap icap bceil : Nat) : Nat := if eff = tcap then 3 else if eff = icap then 2 else if eff = bceil then 1 else 0
/-- A move at 25 mV per µs (R349). -/
def startMove (c goal : Nat) : Action := fun s =>
  let a := opMilliVolt (opNow s c)
  let b := opMilliVolt goal
  modCluster c (fun r => { r with move := some ⟨goal, s.now + 40 * (max a b - min a b)⟩ }) s
/-- A move starts if the effective target is not the settled point. -/
def retarget (c : Nat) : Action := fun s =>
  let eff := dbits (reg s .clst c) 16 4
  if (clusterOf s c).move.isNone && eff != opNow s c then startMove c eff s else []
/-- R346, R348 and R349 for a cluster, its island's cap and its sample given. In fallback the boost ceiling and the request are frozen, and
the current and thermal limits still apply (R329). -/
def governCluster (c icap tj : Nat) : Action := fun s =>
  let heavy := if fallback s (islandOfCluster c) then dbit (reg s .clst c) 20 else heavyNow (clusterOf s c)
  let tcap := nextTcap s c tj
  let bceil := if heavy then 9 else 12
  let req := match partOfCluster s c with
    | some p => dbits (reg s .opmb p) 4 4
    | none => 0
  let eff := min (min tcap icap) (min bceil req)
  acts [modReg .clst c fun r =>
      dset (dset (dset (dset (dset (dset r 22 10 tj) 20 1 (b2n heavy)) 16 4 eff) 8 4 tcap) 4 4 icap) 0 3 (bindOf eff tcap icap bceil),
    retarget c] s
/-- A junction sample. One of 105 °C or above has tripped the package before it is taken (R444). In a trip one of 115 °C calls for the hard
trip (R446; log 47). -/
def sampleTemp (s : State) (t c : Nat) : Nat :=
  let x := Config.freeTemp t c % 1024
  if devState s = 3 || devState s = 4 then x else min x 419
/-- The first sample of 115 °C or above (R446). -/
def noteHot : Action := look fun s => match (List.range 192).find? fun c => decide (460 ≤ dbits (reg s .clst c) 22 10) with
  | some c => if s.boot.hot.isSome then skip else upd (.boot { s.boot with hot := some (c, dbits (reg s .clst c) 22 10, s.now) })
  | none => skip
/-- Every cluster's governor at a control boundary. -/
def governAll : Action := withFree fun t => acts [
  forEach (List.range 192) takeTarget,
  forEach (List.range 6) fun isl s => forEach (clustersOfIsland isl) (fun c => governCluster c (nextIcap s isl) (sampleTemp s t c)) s,
  forEach (List.range 6) fun isl s => [.island isl { islandOf s isl with hot := false, high := false }],
  look fun s => forEach ((List.range 192).filter (partValid s)) mailboxBits, noteHot]
/-- R340, R341, R346 to R350: the boundary at 10j µs. -/
def execCorrectionInterval (s : State) : Host.Outcome State Fault Refusal :=
  event (withFree fun t => acts [
    forEach (List.range 192) fun c => correctCluster c (Config.freeEnergy t c),
    forEach (List.range 192) staticCharge,
    governAll]) s
/-- R349: a move completes. -/
def execOpMoveComplete (cl : Nat) (s : State) : Host.Outcome State Fault Refusal :=
  event (look fun s => match (clusterOf s cl).move with
    | none => skip
    | some m => if s.now < m.due then skip else acts [
        fun s => modCluster cl (fun r =>
          let op := opNow s cl
          { r with move := none, res := put r.res op (findD r.res op 0 + (s.now - r.since)), since := s.now }) s,
        setField .clst cl 12 4 m.goal,
        retarget cl,
        look fun s => match partOfCluster s cl with | some p => mailboxBits p | none => skip]) s
/-- The last current sample of an island exceeds its cap. -/
def overCap (s : State) (isl : Nat) : Bool := decide (16 * dbits (reg s .ilim isl) 16 11 < dbits (reg s .imeas isl) 0 16)
def setThrottle (isl : Nat) (on : Bool) : Action := forEach (clustersOfIsland isl) fun c => setField .clst c 3 1 (b2n on)
/-- An island whose throttle is still to begin, within 1 µs of the sample that calls for it (R347). -/
def throttleLate (s : State) : Option Nat :=
  (List.range 6).find? fun isl => overCap s isl && (clustersOfIsland isl).any fun c => !dbit (reg s .clst c) 3
/-- A current sample of an island: it ends the throttle, or begins it at once or within 1 µs, which is by the next sample (R25, R347). -/
def currentSample (isl cur : Nat) (late : Bool) : Action := fun s =>
  let cap := dbits (reg s .ilim isl) 16 11
  let hot := decide (16 * cap < cur)
  let i := islandOf s isl
  acts [modReg .imeas isl fun r => dset (dset r 16 16 (dbits r 16 16 + 1)) 0 16 cur,
    setThrottle isl (hot && (!late || overCap s isl)),
    upd (.island isl { i with hot := i.hot || hot, high := i.high || decide (14 * cap < cur) })] s
/-- R25, R347. -/
def execImeasSample (s : State) : Host.Outcome State Fault Refusal :=
  event (withFree fun t => forEach (List.range 6) fun isl =>
    currentSample isl (Config.freeCurrent t isl % 65536) (Config.freeChoice t / 2 ^ isl % 2 = 0)) s

/-! ### Rack caps (R351 to R353) -/

def roundNo (s : State) : Nat := s.now / 1000000
def capGroup (s : State) : Nat := dbits (reg s .rcfg 0) 0 16
/-- The message of R352 (its layout: log 30). -/
def capMessage (s : State) : List Byte :=
  le 4 (ownPeer s) ++ le 4 (capGroup s) ++ le 8 (roundNo s) ++ le 4 (regN s .pdem 0) ++ le 4 (dbits (reg s .rcfg 0) 16 16) ++
  le 4 (regN s .rack 0)
/-- The service core of island 0 sends the demand (R441). -/
def canBroadcast (s : State) : Bool := decide (dbits (reg s .istat 0) 8 3 < 2)
/-- The demand of a peer for the round in force. -/
def demandOf (s : State) (p : Nat) : Option Nat := (find s.demands p).bind fun e => if e.1 = roundNo s then some e.2 else none
/-- This package's demand for the round in force is still to be sent, in the first 250 µs of the round (R352). -/
def broadcastLeft (s : State) : Bool :=
  capGroup s != 0 && canBroadcast s && (demandOf s (ownPeer s)).isNone && decide (s.now % 1000000 ≤ 250000)
/-- R352 step 1: this package's demand goes to the members of its group. -/
def execRackCapBroadcast (s : State) : Host.Outcome State Fault Refusal :=
  event (look fun s => if capGroup s = 0 || !canBroadcast s then skip else acts [
    upd (.demands (put s.demands (ownPeer s) (roundNo s, regN s .pdem 0))),
    forEach (s.flash.members.filter fun p => p != ownPeer s) fun p => sendTo p [mkFlit s p 0 0 9 0xFF 0 (capMessage s)]]) s
/-- The largest level at or below `n` whose capped sum fits. -/
def levelFrom (ds : List Nat) (total : Nat) : Nat → Nat
  | 0 => 0
  | n + 1 => if ((ds.map (min (n + 1))).foldl (· + ·) 0) ≤ total then n + 1 else levelFrom ds total n
/-- The division of R352: members' demands in rising peer order; the cap of one of them and SHORT. -/
def divideCap (ds : SMap Nat) (floor total self : Nat) : Nat × Bool :=
  let ds := ds.map fun e => (e.1, max e.2 floor)
  let n := ds.length
  let sum := (ds.map (·.2)).foldl (· + ·) 0
  if total < n * floor then (floor, true)
  else
    let (caps, rest, extra) : SMap Nat × Nat × List Nat :=
      if sum ≤ total then (ds.map fun e => (e.1, e.2 + (total - sum) / n), (total - sum) % n, ds.map (·.1))
      else
        let lam := levelFrom (ds.map (·.2)) total ((ds.map (·.2)).foldl max 0)
        let caps := ds.map fun e => (e.1, min e.2 lam)
        (caps, total - (caps.map (·.2)).foldl (· + ·) 0, (ds.filter fun e => decide (lam < e.2)).map (·.1))
    (findD caps self 0 + b2n ((extra.take rest).contains self), false)
/-- The result of a round: CAP, MISS and SHORT. -/
def roundResult (s : State) : Nat × Bool × Bool :=
  let floor := dbits (reg s .rcfg 0) 16 16
  let members := sortBy (fun a b => decide (a ≤ b)) (dedup (ownPeer s :: s.flash.members))
  if capGroup s = 0 then (5000, false, false)
  else if members.any fun p => (demandOf s p).isNone then (floor, true, false)
  else
    let (cap, short) := divideCap (members.map fun p => (p, (demandOf s p).getD 0)) floor (regN s .rack 0) (ownPeer s)
    (cap, false, short)
/-- R352, R353. -/
def execRackCapCompute (s : State) : Host.Outcome State Fault Refusal :=
  event (look fun s =>
    let (cap, miss, short) := roundResult s
    acts [upd (.reg .pcap 0 (dw (2 ^ 31 * b2n miss + 2 ^ 30 * b2n short + roundNo s % 2 ^ 14 * 65536 + cap % 65536))),
      forEach (List.range 6) updateCap]) s

end Sys2Proof.Machine
end

