-- ==== Sys2Proof/Machine/Keys.lean ====
section
/-! DEFINITION. The vendor's signatures and the derivation of the attestation key (R431, R435, R437), by the standards that the rules name: RSASSA-PSS
with MGF1, HMAC_DRBG and Miller-Rabin (log 71). -/
namespace Sys2Proof.Machine

/-- A number as big-endian bytes, and back. -/
def beBytes (n x : Nat) : List Byte := (toBytes n x).reverse
def beNat (bs : List Byte) : Nat := bs.foldl (fun x b => 256 * x + b.toNat) 0
/-- x ^ e modulo m, for an exponent of so many bits. -/
def powMod (x m : Nat) : Nat → Nat → Nat
  | 0, _ => 1 % m
  | k + 1, e => let y := powMod (x * x % m) m k (e / 2); if e % 2 = 1 then y * x % m else y
def xorBytes (a b : List Byte) : List Byte := List.zipWith (· ^^^ ·) a b
/-- MGF1 with SHA-256. -/
def mgf1 (seed : List Byte) (n : Nat) : List Byte := ((List.range ((n + 31) / 32)).flatMap fun i => sha256 (seed ++ beBytes 4 i)).take n

/-! ### Signatures (R435) -/

/-- RSASSA-PSS over a hash, for a 3072-bit key and a salt of 32 bytes. -/
def pssOk (key : Nat × Nat) (h sig : List Byte) : Bool :=
  let em := beBytes 384 (powMod (beNat sig) key.1 64 key.2)
  let m := (em.drop 351).take 32
  let db := xorBytes (em.take 351) (mgf1 m 351)
  let db := (nth db 0 0 &&& 0x7F) :: db.drop 1
  sig.length == 384 && decide (beNat sig < key.1) && nth em 383 0 == 0xBC && (nth em 0 0).toNat / 128 == 0 &&
    db.take 319 == List.replicate 318 0 ++ [1] && sha256 (List.replicate 8 0 ++ h ++ db.drop 319) == m
/-- A signature made with an encoded vendor key. -/
def vendorOk (key h sig : List Byte) : Bool := pssOk (Config.vendorKey key) h sig

/-! ### The attestation key (R437) -/

def hmac (key msg : List Byte) : List Byte :=
  let k := (if 64 < key.length then sha256 key else key) ++ List.replicate 64 0
  let pad (b : Byte) : List Byte := (k.take 64).map (· ^^^ b)
  sha256 (pad 0x5C ++ sha256 (pad 0x36 ++ msg))
/-- The state of HMAC_DRBG: K and V. -/
abbrev Drbg := List Byte × List Byte
def drbgUpdate (d : Drbg) (bs : List Byte) : Drbg :=
  let k := hmac d.1 (d.2 ++ 0 :: bs)
  let v := hmac k d.2
  if bs.isEmpty then (k, v) else
    let k := hmac k (v ++ 1 :: bs)
    (k, hmac k v)
def drbgSeed (seed : List Byte) : Drbg := drbgUpdate (List.replicate 32 0, List.replicate 32 1) seed
/-- 192 bytes of output. -/
def drbgNext (d : Drbg) : List Byte × Drbg :=
  let (bs, v) := (List.range 6).foldl (fun (e : List Byte × List Byte) _ => let v := hmac d.1 e.2; (e.1 ++ v, v)) ([], d.2)
  (bs, drbgUpdate (d.1, v) [])
/-- The odd part of n and the power of two beside it. -/
def oddPart : Nat → Nat → Nat × Nat
  | 0, n => (n, 0)
  | k + 1, n => if n % 2 = 0 then let (d, r) := oddPart k (n / 2); (d, r + 1) else (n, 0)
/-- Squaring up to r times meets n - 1. -/
def squaresMeet (n : Nat) : Nat → Nat → Bool
  | 0, _ => false
  | r + 1, x => x == n - 1 || squaresMeet n r (x * x % n)
/-- n passes 64 rounds of Miller-Rabin; the bases are an open choice. -/
def probablePrime (n : Nat) : Bool :=
  let (d, r) := oddPart 1536 (n - 1)
  n % 2 == 1 && (List.range 64).all fun i =>
    let x := powMod (2 + Config.witness n i % (n - 3)) n 1536 d
    x == 1 || squaresMeet n r x
/-- The first so many distinct probable primes among the candidates. -/
def primes : Nat → Drbg → List Nat → List Nat
  | 0, _, ps => ps
  | k + 1, d, ps => if 2 ≤ ps.length then ps else
    let (bs, d) := drbgNext d
    let c := beNat bs % 2 ^ 1534 + 3 * 2 ^ 1534
    primes k d (if ps.contains c || !probablePrime c then ps else ps ++ [c])
/-- The modulus of the key that a fingerprint gives. -/
def attestationKey (f : List Byte) : Option Nat :=
  match primes Config.candidates (drbgSeed (sha256 (f ++ "NRL-768 attestation".toUTF8.data.toList.map fun c => BitVec.ofNat 8 c.toNat))) [] with
  | [p, q] => some (p * q)
  | _ => none
/-- The identity is derived and is that of the device certificate. -/
def identityOk (helper cert : List Byte) (t : Nat) : Bool := match (Config.fingerprint helper t).bind attestationKey with
  | some n => (n, 65537) == Config.certKey cert
  | none => false

end Sys2Proof.Machine
end

