-- ==== Sys2Proof/Machine/Record.lean ====
section
/-! DEFINITION. The launch record (R85 to R87, R97, R98, R100), workgroup placement on a core and in the context image (R41, R42, R318,
R319, R412), and the release of a workgroup. -/
namespace Sys2Proof.Machine

/-! ### Launch statuses (R314) -/

def stAlign : Nat := 1
def stBounds : Nat := 2
def stResources : Nat := 3
def stEntry : Nat := 4
def stRecord : Nat := 5
def stNest : Nat := 6
def stInvalid : Nat := 8
def stFault : Nat := 9
def stQueue : Nat := 11

/-! ### The record (R85) -/

def fieldAt (b : List Byte) (o n : Nat) : Nat := leNat ((b.drop o).take n)
def parseRole (b : List Byte) (o : Nat) : Role :=
  let c := fieldAt b (o + 8) 4
  ⟨dw (fieldAt b o 8), nbits c 0 12, 8 * nbits c 16 6, nbits c 24 6, 8 * nbits (fieldAt b (o + 12) 4) 0 4⟩
def parseRecord (b : List Byte) : LRec :=
  let c := fieldAt b 0 4
  let d := fieldAt b 4 4
  let a := fieldAt b 8 4
  { width := 16 * 2 ^ nbits c 20 2
    roles := nbits c 19 1 + 1
    cor := nbits c 18 1 == 1
    idem := nbits c 17 1 == 1
    aovt := nbits c 16 1 == 1
    dzt := nbits c 15 1 == 1
    lead := nbits c 11 4
    ejt := nbits c 6 5
    nb := nbits c 0 5
    nparam := nbits d 24 5
    spawn := nbits d 16 7
    rjt := nbits d 0 16
    acc := nbits a 16 10
    tiles := nbits a 0 10
    wdi := fieldAt b 0xC 4
    fmtv := nbits (fieldAt b 0x10 4) 0 8
    r0 := parseRole b 0x20
    r1 := parseRole b 0x30
    param := (List.range (nbits d 24 5)).map fun k => wd (fieldAt b (0x40 + 4 * k) 4)
    fmts := (List.range 8).map fun k => BitVec.ofNat 128 (fieldAt b (0x80 + 16 * k) 16) }
/-- Reserved bits and field ranges of a role. -/
def roleBad (b : List Byte) (o : Nat) (r : Role) : Bool :=
  let c := fieldAt b (o + 8) 4
  let d := fieldAt b (o + 12) 4
  nbits c 30 2 != 0 || nbits c 22 2 != 0 || nbits c 12 4 != 0 || d / 16 != 0 ||
  decide (32 < r.na) || decide (r.nv < 8) || decide (256 < r.nv) || decide (r.t < 1) || decide (2048 < r.t) ||
  decide (r.ns < 8) || decide (64 < r.ns)
/-- An invalid format-slot descriptor (R98, R100). -/
def descBad (d : BitVec 128) : Bool :=
  let f (lo n : Nat) : Nat := nbits d.toNat lo n
  let ef := f 0 4
  let bsz := f 8 2
  let planar := f 10 2 == 1
  f 13 19 != 0 || decide (11 < ef) || decide (3 < f 4 3) || bsz == 3 || decide (1 < f 10 2) ||
  (if ef = 11 then bsz != 2 else if 3 ≤ ef ∧ ef ≤ 6 then false else bsz != 0) ||
  (f 10 2 != 0 && bsz == 0) || (planar == (f 32 32 == 0)) || (f 64 64 != 0 && f 12 1 == 0) ||
  (f 12 1 == 1 && (bsz == 0 || f 64 6 != 0 || f 116 12 != 0))
/-- LAUNCH_RECORD (R86). -/
def recordBad (b : List Byte) (r : LRec) : Bool :=
  let c := fieldAt b 0 4
  let d := fieldAt b 4 4
  let a := fieldAt b 8 4
  let roles := if r.roles = 2 then [r.r0, r.r1] else [r.r0]
  nbits c 24 8 != 1 || nbits c 22 2 != 0 || nbits c 20 2 == 3 || nbits c 5 1 != 0 || decide (16 < r.nb) ||
  decide (r.width / 4 < r.ejt) || nbits d 29 3 != 0 || nbits d 23 1 != 0 || decide (16 < r.nparam) || decide (64 < r.spawn) ||
  nbits a 26 6 != 0 || nbits a 10 6 != 0 || decide (768 < r.acc) || decide (768 < r.tiles) || decide (r.wdi < 1000) ||
  fieldAt b 0x10 4 / 256 != 0 || fieldAt b 0x14 12 != 0 || roleBad b 0x20 r.r0 ||
  (if r.roles = 2 then roleBad b 0x30 r.r1 else fieldAt b 0x30 16 != 0) ||
  (roles.any fun x => decide (x.ns < r.nparam)) ||
  ((List.range 8).any fun k => nbits r.fmtv k 1 == 1 && descBad (nth r.fmts k 0))
/-- LAUNCH_ENTRY (R42, R86). -/
def entryBad (r : LRec) : Bool := r.r0.entry.toNat % 64 != 0 || (r.roles == 2 && r.r1.entry.toNat % 64 != 0)
/-- LAUNCH_RESOURCES (R42, R412) for a rectangle of n cores. -/
def resourcesBad (s : State) (ctx n : Nat) (r : LRec) : Bool :=
  decide (2048 < wgThreads r) || decide (imgSize s ctx - 0x3000 < (if r.cor then n else 1) * areaSize r)

/-! ### Placement (R318, R319, R412) -/

/-- Areas of the image in use: offset and end. -/
def areasOf (s : State) (ctx : Nat) : List (Nat × Nat) := (wgsOf s ctx).map fun e => (e.2.area, e.2.area + areaSize (recOf s e.2))
/-- The lowest free offset at or above 0x3000 at which an area fits. -/
def findArea (s : State) (ctx size : Nat) : Option Nat :=
  let used := areasOf s ctx
  let cands := sortBy (fun a b => decide (a ≤ b)) (0x3000 :: used.map (·.2))
  cands.find? fun o => decide (o + size ≤ imgSize s ctx) && used.all fun u => decide (o + size ≤ u.1) || decide (u.2 ≤ o)
/-- A core can take a workgroup (R318). -/
def canTake (s : State) (core : Nat) (r : LRec) : Bool :=
  decide (usedThreads s core + wgThreads r ≤ 2048) && roomFor s core r
def rectCores (l : Launch) : List Nat :=
  (List.range l.h).flatMap fun y => (List.range l.w).map fun x => l.x0 + x + 48 * (l.y0 + y)
def coresAt (x0 y0 w h : Nat) : List Nat :=
  (List.range h).flatMap fun y => (List.range w).map fun x => x0 + x + 48 * (y0 + y)
/-- Origins inside the partition in order of rising row, then column (R318): absolute core coordinates. -/
def originsIn (s : State) (p w h : Nat) : List (Nat × Nat) :=
  let (x, y, pw, ph) := partRect s p
  ((List.range ph).flatMap fun j => (List.range pw).map fun i => (2 * (x + i), 2 * (y + j))).filter fun o =>
    decide (o.1 + w ≤ 2 * (x + pw)) && decide (o.2 + h ≤ 2 * (y + ph))
/-- The origin that PLACE = 1 takes. -/
def chooseOrigin (s : State) (p w h : Nat) (r : LRec) : Nat × Nat :=
  let l := originsIn s p w h
  ((l.find? fun o => (coresAt o.1 o.2 w h).all fun c => canTake s c r).orElse fun _ => l.head?).getD (0, 0)

/-! ### Release (R41, R287, R319, R325, R425) -/

/-- A workgroup of a launch released on a core that has room for it. -/
def releaseOn (lk core : Nat) : Action := look fun s =>
  match find s.launches lk with
  | none => skip
  | some l => match if canTake s core l.lr then findArea s l.ctx (areaSize l.lr) else none with
    | none => skip
    | some area =>
      let k := s.nextId
      let tiles := pick (usedTiles s core) l.lr.tiles
      let accs := pick (usedAccs s core) l.lr.acc
      let g := freshWg lk l.ctx core area l.lr tiles accs
      acts [upd (.nextId (k + 1)), upd (.wg k (some g)), takeParts g tiles accs, startWarps k l.lr,
        modLaunch lk fun l => { l with released := l.released ++ [core] },
        setField .ctxs l.ctx 3 1 0, imageAdd l.ctx k, look fun s => forEach ((find s.wgs k).elim [] (·.warps)) fun e => rcEnter k e.1,
        look fun s => if readyCtx s l.ctx && !(ctxOf s l.ctx).resident then rankOf l.ctx else skip]
/-- A launch that may still release workgroups. -/
def releasable (s : State) (l : Launch) : Bool := l.status.isNone && (ctxOf s l.ctx).stop == 0
/-- With COR, every core of the rectangle at once, or none. -/
def releaseAll (lk : Nat) (l : Launch) : Action := fun s =>
  let us := forEach (rectCores l) (releaseOn lk) s
  match find (commit s us).launches lk with
  | some l' => if l'.released.length = l.w * l.h then us else []
  | none => []
/-- R287, R319: a core that has capacity takes its workgroup. -/
def execWorkgroupRelease (l core : Nat) (s : State) : Host.Outcome State Fault Refusal :=
  event (look fun s => match find s.launches l with
    | none => skip
    | some r => if !releasable s r || r.released.contains core || !(rectCores r).contains core then skip
      else if r.lr.cor then releaseAll l r else releaseOn l core) s

end Sys2Proof.Machine
end

