-- ==== Sys2Proof/Machine/Queues.lean ====
section
/-! DEFINITION. Queues, packets and completion records (R44, R309 to R316, R321 to R323, R329), and the host link's answers (R20). -/
namespace Sys2Proof.Machine

/-! ### The host link (R20) -/

/-- Responses leave in the order of their requests. -/
def flushLink (l : Link) : Link :=
  let ready := (l.pending.takeWhile fun p => p.done.isSome).filterMap (·.done)
  { l with resp := l.resp ++ ready, pending := l.pending.dropWhile fun p => p.done.isSome }
/-- A request answered. -/
def answerLink (id rstat : Nat) (arg0 : Word) (arg1 : DWord) (payload : List Byte) : Action := fun s =>
  [.link (flushLink { s.link with pending := s.link.pending.map fun p =>
    if p.id = id then { p with done := some ⟨p.op, p.tag, rstat, arg0, arg1, payload⟩ } else p })]

/-! ### Accesses of the command processor (R309, R313, R316) -/

/-- The physical address of an access of the device on behalf of a context, at supervisor level. -/
def devPa (s : State) (ctx : Nat) (a : AccKind) (ea : Nat) : Except (Nat × XFault) Nat :=
  match xlateCtx s ctx true a (dw ea) with
  | .ok ⟨.mem pa _, _⟩ => .ok pa
  | .ok ⟨_, l⟩ => .error (ea, ⟨6, 0, 3, l⟩)
  | .error f => .error (ea, f)
/-- Packet and record lines read (R310). -/
def cpCharge (ctx n : Nat) : Action := fun s => charge (some ctx) [⟨21, n, originCluster s ctx⟩] s
/-- A completion record, where it can be written (R314). -/
def complRecord (ctx : Nat) (compl : DWord) (status : Nat) (childErr : Bool) : Action := look fun s =>
  if compl = 0 || compl.toNat % 16 != 0 then skip else acts [devWalk ctx .write [compl.toNat],
    vaWrite ctx true none compl.toNat (le 4 status ++ le 4 (b2n childErr) ++ le 8 s.now)]
def markChild (parent : Option Nat) : Action :=
  match parent with
  | some k => modLaunch k fun l => { l with childErr := true }
  | none => skip

/-! ### Packets (R310, R311) -/

structure Packet where
  hdr : Nat
  bytes : List Byte
  deriving DecidableEq, Repr
def Packet.kind (p : Packet) : Nat := p.hdr % 16
def Packet.barrier (p : Packet) : Bool := nbits p.hdr 8 1 == 1
def Packet.fld (p : Packet) (o n : Nat) : Nat := fieldAt p.bytes o n
def ringAddr (q : Queue) (p : Nat) : Nat := q.ring.toNat + 64 * (p % 2 ^ q.logn)
/-- A packet in the ring. -/
def packetIn (s : State) (q : Queue) (p : Nat) : Except (Nat × XFault) Packet :=
  (devPa s q.ctx .read (ringAddr q p)).map fun pa =>
    let b := memBytes s.mem pa 64
    ⟨leNat (b.take 4), b⟩
/-- What a queue offers: nothing it may start, a packet, or a header or packet that does not translate. -/
inductive Head where
  | none | header (ea : Nat) (f : XFault) | fault (ea : Nat) (f : XFault) | pkt (p : Packet)
  deriving DecidableEq, Repr
/-- Whether every earlier packet of a queue has completed, of an earlier mapping too. -/
def drained (s : State) (q : Queue) : Bool := s.launches.all fun e => e.2.ctx != q.ctx || e.2.hdr != q.hdr
/-- The next packet of a queue that R310 allows to start. -/
def headOf (s : State) (q : Queue) : Head :=
  if q.stopped || q.wait.isSome || decide (q.wr ≤ q.rd) then .none
  else match devPa s q.ctx .rmw q.hdr.toNat, packetIn s q q.rd with
    | .error (ea, f), _ => .header ea f
    | _, .error (ea, f) => .fault ea f
    | .ok _, .ok p => if p.barrier && !drained s q then .none else .pkt p
def queueTenant (s : State) (q : Queue) : Nat := ctxTenant s q.ctx
/-- An unstarted packet. -/
def unstarted (q : Queue) : Bool := !q.stopped && decide (q.rd < q.wr)

/-! ### Budgets (R321 to R323) -/

def usedOf (s : State) (t : Nat) : Nat := dbits (reg s .tuse t) 0 47
def budgetOf (s : State) (t : Nat) : Nat := dbits (reg s .tbud t) 0 47
def debtOf (s : State) (t : Nat) : Nat := dbits (reg s .tdebt t) 0 47
/-- The budget lets a tenant start a packet. -/
def funded (s : State) (t : Nat) : Bool :=
  dbit (reg s .tbud t) 63 && decide (0 < budgetOf s t) && decide (usedOf s t < (tenantOf s t).ceil)
/-- Queues of an island that can start a packet, by key. -/
def startable (s : State) (isl : Nat) : List (Nat × Queue) :=
  s.queues.filter fun e => e.1 / 64 == isl && headOf s e.2 != .none
/-- The first key above the last one served, else the first. -/
def roundRobin (last : Option Nat) (l : List Nat) : Option Nat :=
  match last with
  | none => l.head?
  | some k => (l.find? fun x => decide (k < x)).orElse fun _ => l.head?
/-- The least USED / BUDGET, ties to the lowest tenant. -/
def leastUsed (s : State) : List Nat → Option Nat
  | [] => none
  | t :: r => match leastUsed s r with
    | none => some t
    | some u => if usedOf s u * budgetOf s t < usedOf s t * budgetOf s u then some u else some t
/-- The queue whose packet an island starts next (R323), or round-robin in fallback (R329). -/
def nextQueue (s : State) (isl : Nat) : Option Nat :=
  if dbits (reg s .bstat 0) 0 3 != 1 then none
  else
    let qs := startable s isl
    let i := islandOf s isl
    if fallback s isl then roundRobin (if i.fbk = 0 then none else some (i.fbk - 1)) (qs.map (·.1))
    else
      let ts := sortBy (fun a b => decide (a ≤ b)) (dedup ((qs.map fun e => queueTenant s e.2).filter (funded s)))
      (leastUsed s ts).bind fun t => roundRobin (find i.rr t) ((qs.filter fun e => queueTenant s e.2 == t).map (·.1))
/-- A tenant is idle (R322). -/
def idleTenant (s : State) (t : Nat) : Bool :=
  (s.queues.all fun e => queueTenant s e.2 != t || !unstarted e.2) &&
  (s.ctxs.all fun e => ctxTenant s e.1 != t || !(e.2.resident || readyCtx s e.1))
/-- What a tenant can borrow now: the lender and the amount. -/
def loan (s : State) (t : Nat) : Option (Nat × Nat) :=
  let r := tenantOf s t
  let room := r.avail + budgetOf s t - debtOf s t - r.ceil
  let spare (u : Nat) : Nat := (tenantOf s u).ceil - usedOf s u
  let idle := (List.range 192).filter fun u => u != t && idleTenant s u
  let best := (idle.map spare).foldl max 0
  let amount := min best room
  if amount = 0 then none else (idle.find? fun u => spare u == best).map fun u => (u, amount)
/-- A tenant with an unstarted packet that has reached its ceiling, with a loan for it. -/
def borrower (s : State) : Option (Nat × Nat × Nat) :=
  let ts := dedup ((s.queues.filter fun e => unstarted e.2).map fun e => queueTenant s e.2)
  (ts.filter fun t => decide ((tenantOf s t).ceil ≤ usedOf s t) && !fallback s (islandOfPart s t)).findSome? fun t =>
    (loan s t).map fun (u, n) => (t, u, n)
/-- R322. -/
def borrow (t u n : Nat) : Action := acts [
  modTenant t fun r => { r with ceil := r.ceil + n }, modTenant u fun r => { r with ceil := r.ceil - n },
  setField .tdebt t 47 1 1]

/-! ### Starting and stopping (R310, R312, R313) -/

def modQueue (key : Nat) (f : Queue → Queue) : Action := fun s =>
  match find s.queues key with
  | some q => [.queue key (some (f q))]
  | none => []
def noteServed (isl key : Nat) (q : Queue) : Action := fun s =>
  let i := islandOf s isl
  .island isl (if fallback s isl then { i with fbk := key + 1 } else { i with rr := put i.rr (queueTenant s q) key }) ::
  (s.queues.filter fun e => e.1 / 64 == isl && e.2.held.isSome).map fun e => Upd.queue e.1 (some { e.2 with held := none })
/-- A packet starts: its line is charged and RD moves past it. -/
def startPacket (isl key : Nat) (q : Queue) : Action := acts [
  noteServed isl key q, cpCharge q.ctx 1, devWalk q.ctx .rmw [q.hdr.toNat], devWalk q.ctx .read [ringAddr q q.rd],
  modQueue key fun q => { q with rd := q.rd + 1, depth := del q.depth q.rd, recs := del q.recs q.rd },
  vaWrite q.ctx true none (q.hdr.toNat + 0x18) (le 8 (q.rd + 1))]
/-- The line of an unstarted packet is read; a LAUNCH completes with a status, and its parent learns of the error. -/
def cancelPacket (q : Queue) (status p : Nat) : Action := look fun s =>
  match packetIn s q p with
  | .error _ => devWalk q.ctx .read [ringAddr q p]
  | .ok k =>
    let compl := k.fld 0x10 8
    acts [devWalk q.ctx .read [ringAddr q p], cpCharge q.ctx 1,
      if k.kind != 1 || compl = 0 then skip else acts [complRecord q.ctx (dw compl) status false, markChild ((find q.depth p).map (·.2))]]
/-- A queue stops (R309, R313): the packets listed complete with a status, and an entry reports it. -/
def stopQueue (key : Nat) (q : Queue) (p status : Nat) (synd : Word) (fva : Nat) (rest : List Nat) (restStatus : Nat) : Action :=
  look fun s => acts [
    modQueue key fun q => { q with stopped := true, wait := none, depth := [], recs := [] },
    forEach rest (cancelPacket q restStatus),
    evReport (queueTenant s q) (le 4 q.ctx ++ le 4 5 ++ le 8 s.now ++ le 8 q.hdr.toNat ++ le 8 p ++ le 4 status ++
      le 4 synd.toNat ++ le 8 fva ++ zeros 80)]
/-- A queue's header can no longer be translated: its next packet is the first that does not start (R313, R316; log 70). -/
def headerFails (key : Nat) (q : Queue) (ea : Nat) (f : XFault) : Action :=
  stopQueue key q q.rd stFault (syndrome .rmw f) ea ((List.range (min (2 ^ q.logn) (q.wr - q.rd))).map (q.rd + ·)) stQueue
/-- Packets after p up to WR. -/
def laterPackets (q : Queue) (p : Nat) : List Nat := (List.range (min (2 ^ q.logn) (q.wr - (p + 1)))).map (p + 1 + ·)
/-- A packet without a completion record fails: PKT_INVALID, or PKT_FAULT with what failed. -/
def packetFails (key : Nat) (q : Queue) (p : Nat) (why : Option (AccKind × Nat × XFault)) : Action :=
  match why with
  | none => stopQueue key q p stInvalid 0 0 (laterPackets q p) stQueue
  | some (a, ea, f) => stopQueue key q p stFault (syndrome a f) ea (laterPackets q p) stQueue
/-- The queue an island serves, if it is the one named, and what it offers. -/
def served (s : State) (isl slot : Nat) : Option (Nat × Queue × Head) :=
  let key := 64 * isl + slot
  if nextQueue s isl == some key then (find s.queues key).map fun q => (key, q, headOf s q) else none

/-! ### LAUNCH (R38, R44, R313, R318) -/

/-- Why a launch is not placed: its status, and whether its record was read. -/
structure Reject where
  status : Nat
  read : Bool
  deriving DecidableEq, Repr
/-- A checked launch: its record, PLACE, and its origin and size. -/
structure Placement where
  lr : LRec
  place : Bool
  x0 : Nat
  y0 : Nat
  w : Nat
  h : Nat
/-- The record of a packet as memory holds it. -/
def recordNow (s : State) (q : Queue) (p : Nat) : Option (Nat × List Byte) := match packetIn s q p with
  | .error _ => none
  | .ok k => if k.kind != 1 || k.fld 8 8 % 256 != 0 then none else match devPa s q.ctx .read (k.fld 8 8) with
    | .error _ => none
    | .ok pa => some (pa, memBytes s.mem pa 256)
/-- Units of a record that may each be taken as they were or as they are (R88). -/
def mixUnits (f : DWord) (old new : List Byte) : List Byte := if old = new then new else
  (List.range 16).flatMap fun j => ((if f.getLsbD j then old else new).drop (16 * j)).take 16
/-- Packets observed between two values of WR: their records from now on (R88). -/
def recordsFrom (s : State) (q : Queue) (wr : Nat) : SMap (Nat × List Byte) :=
  (q.recs.filter fun e => decide (e.1 < wr)) ++
    (List.range (wr - q.wr)).filterMap fun j => (recordNow s q (q.wr + j)).map fun r => (q.wr + j, r)
/-- Time passes over the records of a queue: any units of them are kept as they are now (log 59). -/
def recordAgain (key : Nat) : Action := withFree fun t => look fun s => modQueue key fun q =>
  { q with recs := q.recs.map fun e => (e.1, match recordNow s q e.1 with
      | some (pa, bs) => if pa = e.2.1 then (pa, mixUnits (Config.freeValue t) e.2.2 bs) else (pa, bs)
      | none => e.2) }
/-- The bytes of the record of the next packet: each 16-byte unit freely as it was kept since submission, as memory holds it, or with the stores
to it that are still to be performed (R88; log 59). -/
def recordBytes (s : State) (t : Nat) (q : Queue) (pa : Nat) : List Byte :=
  let now := memBytes s.mem pa 256
  let late := mixUnits (Config.freeValue t) (layer (s.stores.filter fun p => p.rmw.isNone) (memGet s.mem) pa 256) now
  match find q.recs q.rd with
  | some (b, old) => if b = pa then mixUnits (Config.freeValue t >>> 16) old late else late
  | none => late
/-- The checks of R313 in order. -/
def launchCheck (s : State) (t : Nat) (q : Queue) (k : Packet) (depth : Nat) : Except Reject Placement :=
  let geom := k.fld 4 4
  let place := nbits geom 21 1 == 1
  let (x0, y0, w, h) := (nbits geom 0 6, nbits geom 6 4, nbits geom 10 6, nbits geom 16 5)
  let ra := k.fld 8 8
  let ca := k.fld 0x10 8
  if k.hdr / 16 % 16 != 0 || k.hdr / 512 != 0 || geom / 2 ^ 22 != 0 || (k.bytes.drop 0x18).any (· != 0) ||
      (place && (x0 != 0 || y0 != 0)) || ra % 256 != 0 || ca % 16 != 0 then .error ⟨stInvalid, false⟩
  else match devPa s q.ctx .read ra, (if ca = 0 then .ok 0 else devPa s q.ctx .write ca) with
    | .error _, _ | _, .error _ => .error ⟨stFault, false⟩
    | .ok pa, .ok _ =>
      let b := recordBytes s t q pa
      let r := parseRecord b
      let (_, _, pw, ph) := partRect s (queueTenant s q)
      if x0 % 2 + y0 % 2 + w % 2 + h % 2 != 0 || w < 2 || h < 2 then .error ⟨stAlign, true⟩
      else if 2 * pw < x0 + w || 2 * ph < y0 + h || !partValid s (queueTenant s q) || 48 < w || 16 < h then .error ⟨stBounds, true⟩
      else if recordBad b r then .error ⟨stRecord, true⟩
      else if entryBad r then .error ⟨stEntry, true⟩
      else if resourcesBad s q.ctx (w * h) r then .error ⟨stResources, true⟩
      else if 15 < depth then .error ⟨stNest, true⟩
      else .ok ⟨r, place, x0, y0, w, h⟩
/-- A launch placed. -/
def placeLaunchAt (isl key : Nat) (q : Queue) (k : Packet) (pl : Placement) (depth : Nat) (parent : Option Nat) : Action := fun s =>
  let p := queueTenant s q
  let (px, py, _, _) := partRect s p
  let (x, y) := if pl.place then chooseOrigin s p pl.w pl.h pl.lr else (2 * px + pl.x0, 2 * py + pl.y0)
  let l : Launch := {
    ctx := q.ctx
    lr := pl.lr
    addr := dw (k.fld 8 8)
    x0 := x
    y0 := y
    w := pl.w
    h := pl.h
    island := isl
    slot := key
    hdr := q.hdr
    compl := dw (k.fld 0x10 8)
    released := []
    ended := []
    depth := depth
    parent := parent
    childErr := false
    fbk := fallback s isl
    status := none }
  [.launch s.nextId (some l), .nextId (s.nextId + 1)]
def startLaunch (isl key : Nat) (q : Queue) (k : Packet) : Action := withFree fun t => look fun s =>
  let (depth, parent) := match find q.depth q.rd with
    | some (d, l) => (d, some l)
    | none => (0, none)
  acts [if k.fld 8 8 % 256 = 0 then devWalk q.ctx .read [k.fld 8 8] else skip, match launchCheck s t q k depth with
  | .error e => acts [if e.read then cpCharge q.ctx 4 else skip, complRecord q.ctx (dw (k.fld 0x10 8)) e.status false, markChild parent]
  | .ok pl => acts [cpCharge q.ctx 4, placeLaunchAt isl key q k pl depth parent]]
/-- R310, R313, R318: a LAUNCH packet starts. -/
def execLaunch (isl slot : Nat) (s : State) : Host.Outcome State Fault Refusal :=
  event (look fun s => match served s isl slot with
    | some (key, q, .pkt k) => if k.kind != 1 then skip else acts [startPacket isl key q, startLaunch isl key q k]
    | _ => skip) s

/-! ### WRSIG and WAIT (R312) -/

/-- KIND and reserved bits of a packet without a completion record, its reserved bytes from an offset on. -/
def plainBad (k : Packet) (o : Nat) : Bool :=
  k.hdr / 16 % 16 != 0 || k.hdr / 512 != 0 || k.fld 4 4 != 0 || (k.bytes.drop o).any (· != 0)
/-- An 8-byte access of a packet at its home. -/
def packetAccess (ctx pa : Nat) (write : Option Nat) : Action := fun s => acts [
  charge (some ctx) [⟨9, 1, homeCluster (pa / 64 * 64)⟩],
  match write with | some v => poke pa (le 8 v) | none => skip,
  llcTouches [pa / 64] 0 (write.map fun _ => some ctx)] s
def performWrsig (key : Nat) (q : Queue) (k : Packet) : Action := look fun s =>
  let a := k.fld 8 8
  let g := k.fld 0x18 8
  if plainBad k 0x28 || a % 8 != 0 || g % 8 != 0 then packetFails key q q.rd none
  else match devPa s q.ctx .write a, devPa s q.ctx .rmw g with
    | .error (ea, f), _ => packetFails key q q.rd (some (.write, ea, f))
    | _, .error (ea, f) => packetFails key q q.rd (some (.rmw, ea, f))
    | .ok pa, .ok pg => acts [devWalk q.ctx .write [a], devWalk q.ctx .rmw [g], packetAccess q.ctx pa (some (k.fld 0x10 8)),
        look fun s => packetAccess q.ctx pg (some ((memNat s.mem pg 8 + k.fld 0x20 8) % 2 ^ 64))]
/-- R312: a WRSIG packet. -/
def execWrsig (isl slot : Nat) (s : State) : Host.Outcome State Fault Refusal :=
  event (look fun s => match served s isl slot with
    | some (key, q, .pkt k) => if k.kind != 2 then skip else acts [startPacket isl key q, performWrsig key q k]
    | _ => skip) s
/-- One load of a WAIT packet: it completes, or waits for the next load. -/
def loadWait (key : Nat) (q : Queue) (p : Nat) (a v : DWord) : Action := look fun s =>
  match devPa s q.ctx .read a.toNat with
  | .error (ea, f) => packetFails key q p (some (.read, ea, f))
  | .ok pa => acts [devWalk q.ctx .read [a.toNat], packetAccess q.ctx pa none,
      modQueue key fun q => { q with wait := if v.toNat ≤ memNat s.mem pa 8 then none else some (a, v, s.now) }]
/-- R312: a WAIT packet starts. -/
def execWait (isl slot : Nat) (s : State) : Host.Outcome State Fault Refusal :=
  event (look fun s => match served s isl slot with
    | some (key, q, .pkt k) => if k.kind != 3 then skip else acts [startPacket isl key q,
        if plainBad k 0x18 || k.fld 8 8 % 8 != 0 then packetFails key q q.rd none
        else loadWait key q q.rd (dw (k.fld 8 8)) (dw (k.fld 0x10 8))]
    | _ => skip) s
/-- R312: a WAIT packet loads again, 2 µs after its last load. -/
def execWaitReload (isl slot : Nat) (s : State) : Host.Outcome State Fault Refusal :=
  event (look fun s =>
    let key := 64 * isl + slot
    match find s.queues key with
    | some q => match q.wait with
      | some (a, v, t) => if s.now < t + 2000 then skip else loadWait key q (q.rd - 1) a v
      | none => skip
    | none => skip) s
/-- R313, R316: a packet of an invalid KIND starts, or one that does not translate. -/
def execInvalidKindPacket (isl slot : Nat) (s : State) : Host.Outcome State Fault Refusal :=
  event (look fun s => match served s isl slot with
    | some (key, q, .pkt k) => if k.kind = 1 || k.kind = 2 || k.kind = 3 then skip
        else acts [startPacket isl key q, packetFails key q q.rd none]
    | some (key, q, .header ea f) => acts [noteServed isl key q, headerFails key q ea f]
    | some (key, q, .fault ea f) => acts [noteServed isl key q, packetFails key q q.rd (some (.read, ea, f))]
    | _ => skip) s
/-- R309: the command processor observes WR. -/
def execQueueWrChange (isl slot : Nat) (s : State) : Host.Outcome State Fault Refusal :=
  event (look fun s =>
    let key := 64 * isl + slot
    match find s.queues key with
    | none => skip
    | some q => if q.stopped then skip else match devPa s q.ctx .rmw q.hdr.toNat with
      | .error (ea, f) => headerFails key q ea f
      | .ok pa =>
        let wr := memNat s.mem (pa + 0x10) 8
        if wr = q.wr then skip
        else acts [homeAccess none (originCluster s q.ctx) false [pa / 64],
          if wr < q.rd then stopQueue key q q.rd stInvalid 0 0 [] stInvalid
          else if q.rd + 2 ^ q.logn < wr then
            stopQueue key q q.rd stInvalid 0 0 ((List.range (2 ^ q.logn)).map (q.rd + ·)) stInvalid
          else modQueue key fun q => { q with wr := wr, recs := recordsFrom s q wr }]) s

/-! ### Completion (R44, R314) -/

/-- A store, card, arrival or remote access of a launch is still to be performed after its warps have ended. -/
def launchBusy (s : State) (lk : Nat) (l : Launch) : Bool :=
  (s.stores.any fun q => q.po.ctx == l.ctx && (find s.warps q.po.wk).isNone && (rectCores l).contains q.po.core) ||
  (s.clusters.any fun e => e.2.cards.any fun c => c.launch == lk) ||
  (s.fabric.remotes.any fun r => (r.kind == 1 || r.kind == 2 || r.kind == 3) && r.ctx == l.ctx && (find s.warps r.wk).isNone &&
    (rectCores l).any fun c => clusterNo c == r.cl)
/-- A child grid of a launch is still to complete. -/
def childrenLeft (s : State) (lk : Nat) : Bool :=
  (s.launches.any fun e => e.2.parent == some lk) || s.queues.any fun e => e.2.depth.any fun d => d.2.2 == lk
/-- A launch is complete (R44), or has been abandoned and its stores are done. -/
def launchDone (s : State) (lk : Nat) (l : Launch) : Bool :=
  !launchBusy s lk l && (match l.status with
    | some _ => (s.wgs.all fun e => e.2.launch != lk) && (s.launches.all fun e => e.2.parent != some lk)
    | none => decide (l.ended.length = l.w * l.h) && !childrenLeft s lk)
/-- A stopped context whose records are all written is stopped no longer (R290, R425). -/
def endStop (ctx : Nat) : Action := look fun s =>
  if (ctxOf s ctx).stop = 0 || (s.launches.any fun e => e.2.ctx == ctx && e.2.status.isSome) then skip
  else acts [modCtx ctx fun c => { c with stop := 0 }, setField .ctxs ctx 0 2 (if dbit (reg s .ctxs ctx) 2 then 3 else 0)]
/-- R44, R314. -/
def execLaunchComplete (l : Nat) (s : State) : Host.Outcome State Fault Refusal :=
  event (look fun s => match find s.launches l with
    | none => skip
    | some r => if !launchDone s l r then skip else acts [
        complRecord r.ctx r.compl (r.status.getD 0) r.childErr,
        if r.status.getD 0 != 0 || r.childErr then markChild r.parent else skip,
        upd (.launch l none), endStop r.ctx]) s

/-! ### Queue mapping (R316) -/

/-- A queue leaves its table. -/
def unmapOne (key : Nat) : Action := look fun s =>
  match find s.queues key with
  | some _ => acts [abandonOf key, upd (.queue key none)]
  | none => skip
/-- RESULT of a request, and the queue it maps. -/
def mapResult (s : State) (r : MapReq) : Nat × Option (Nat × Queue) × Option Nat :=
  let t := ctxTenant s r.ctx
  let isl := islandOfPart s t
  let here := s.queues.filter fun e => e.1 / 64 == isl
  let old := here.find? fun e => e.2.ctx == r.ctx && e.2.hdr == r.hdr
  if r.bad || !ctxValid s r.ctx || !partValid s t then (2, none, none)
  else if r.unmap then match old with
    | some e => (0, none, some e.1)
    | none => (5, none, none)
  else if old.isSome then (6, none, none)
  else match devPa s r.ctx .rmw r.hdr.toNat with
    | .error _ => (4, none, none)
    | .ok pa =>
      let h := parseHeader (memBytes s.mem pa 64)
      if h.bad || h.ctx != r.ctx then (3, none, none)
      else match xlateAll s r.ctx true .read (dw h.ring) (64 * 2 ^ h.logn) with
        | .error _ => (4, none, none)
        | .ok _ => match (List.range 64).find? fun k => (find s.queues (64 * isl + k)).isNone with
          | none => (1, none, none)
          | some k => (0, some (64 * isl + k, ⟨r.hdr, dw h.ring, h.logn, h.dev, r.ctx, h.rd, h.rd, [], false, none, [], none⟩), none)
/-- A request starts: BUSY. -/
def startMap (t : Nat) (r : MapReq) : Action := acts [setField .qstat t 31 1 1, modTenant t fun n => { n with map := some r }]
/-- A host request starts, or waits for the one in progress. -/
def requestMap (t : Nat) (r : MapReq) : Action := look fun s =>
  if (tenantOf s t).map.isSome then modTenant t fun n => { n with waiting := n.waiting ++ [r] } else startMap t r
/-- R316: a request completes: the table, RESULT and SLOT, the host's answer, and the next request. -/
def execQmapComplete (t : Nat) (s : State) : Host.Outcome State Fault Refusal :=
  event (look fun s => match (tenantOf s t).map with
    | none => skip
    | some r =>
      let (result, mapped, gone) := mapResult s r
      acts [
        if result = 2 || result = 6 || r.unmap then skip else devWalk r.ctx .rmw [r.hdr.toNat],
        homeAccess none 0 false (match devPa s r.ctx .rmw r.hdr.toNat with
          | .ok pa => if r.unmap || result = 2 || result = 6 then [] else [pa / 64]
          | .error _ => []),
        match mapped with
          | some (key, q) => acts [devWalk r.ctx .read (pagesOf q.ring.toNat (64 * 2 ^ q.logn)), upd (.queue key (some q)), setField .qstat t 0 6 (key % 64)]
          | none => skip,
        match gone with | some key => unmapOne key | none => skip,
        setField .qstat t 31 1 0, setField .qstat t 16 8 result,
        look fun s => match r.tag with
          | some id => answerLink id 0 (lo32 (reg s .qstat t)) 0 []
          | none => skip,
        modTenant t fun n => { n with map := none },
        look fun s => match (tenantOf s t).waiting with
          | [] => skip
          | n :: rest => acts [modTenant t fun x => { x with waiting := rest }, startMap t n]]) s

end Sys2Proof.Machine
end

