-- ==== Sys2Proof/Machine/Recovery.lean ====
section
/-! DEFINITION. Bring-up, firmware cores, the fallback scheduler and thermal emergencies (R329, R378, R409, R429 to R446, R481). -/
namespace Sys2Proof.Machine

/-! ### Status and the trip log (R430, R443) -/

def setState (v : Nat) : Action := setField .bstat 0 0 3 v
def setStep (isl v : Nat) : Action := setField .istat isl 0 3 v
def bootIsland (s : State) : Nat := dbits (reg s .bstat 0) 12 4
def modBoot (f : Boot → Boot) : Action := fun s => [.boot (f s.boot)]
def tBoot : Nat := 1
def tSoft : Nat := 2
def tSaved : Nat := 3
def tDone : Nat := 4
def tHard : Nat := 5
def tRoot : Nat := 6
/-- The ring holds the latest 2048 entries. -/
def logPut (l : List Trip) (t : Trip) : List Trip := (l ++ [t]).drop (l.length + 1 - 2048)
/-- An entry of the device: it goes out once those before it are acknowledged. -/
def logEntry (kind ctx info : Nat) : Action := fun s =>
  [.trips (logPut s.trips ⟨s.boot.bootid, s.now, kind, ctx, info, s.boot.seq, false⟩), .boot { s.boot with seq := s.boot.seq + 1 }]
/-- An entry the adapter card writes itself, at its own time. -/
def cardEntry (kind info : Nat) : Action := withFree fun t s =>
  [.trips (logPut s.trips ⟨s.boot.bootid, (Config.freeValue t).toNat, kind, 0, info, 0, true⟩)]
/-- Every entry sent has been acknowledged. -/
def logIdle (s : State) : Bool := s.trips.all (·.acked)
/-- The first entry still to be acknowledged is. -/
def ackFirst : List Trip → List Trip
  | [] => []
  | t :: r => if t.acked then t :: ackFirst r else { t with acked := true } :: r
/-- R443. -/
def execTripLogAck (s : State) : Host.Outcome State Fault Refusal := event (fun s => [.trips (ackFirst s.trips)]) s
def tripInfo (cl tj : Nat) : Nat := cl % 256 + tj % 1024 * 256

/-! ### Power (R434, R442, R444, R446) -/

/-- A dirty line that never reached HBM4 holds what HBM4 held before. -/
def loseLine (line : Nat) : Action := forEach (List.range 8) fun i => withFree fun t =>
  poke (64 * line + 8 * i) (le 8 (Config.freeValue t).toNat)
/-- Requests of the host still waiting for the islands are answered NOT_READY. -/
def dropRequests : Action := fun s =>
  acts ((s.link.pending.filter fun p => p.done.isNone && p.req.isNone).map fun p => answerLink p.id 1 0 0 []) s
/-- The islands lose power; `failed` shows step 5. -/
def powerOff (failed : Option Nat) : Action := look fun s => acts [
  forEach (s.llc.filter (·.dirty)) fun l => loseLine l.line,
  upd .powerCut,
  forEach (List.range 6) fun n => upd (.reg .istat n (if failed = some n then 5 else 0)),
  modBoot fun b => { b with running := false, trip := none, hot := none },
  dropRequests]
/-- Entries that the adapter card had not acknowledged at a cut are lost (R446). -/
def loseEntries : Action := fun s => [.trips (s.trips.filter (·.acked))]

/-! ### Firmware cores (R435, R440, R441, R481) -/

/-- The one thread of a firmware core at the first block of its image. -/
def fwWarp (c : Nat) (pc : DWord) : Warp :=
  { ctx := 1024, wg := 2 ^ 64, core := 768 + c, index := 0, width := 16, role := 0, spawned := false, fw := some c
    nv := 256, na := 32, ns := 64
    lanes := (List.range 16).map fun i =>
      ⟨pc + 4, if i = 0 then .grouped else .absent, [], 0, 0, 0, .none, [], none, 0, 0, 0⟩
    s := [], a := [], level := 0, frame := none, cpc := 0, dev := ⟨0, false, false⟩, ctxd := ⟨0, false, false⟩, rem := ⟨0, 0, 0, 0⟩
    outs := [], swq := [], pend := [], hold := none, code := [] }
/-- CPST or SCST of a core. -/
def setCoreStat (c v : Nat) : Action := setField .istat (fwIsland c) (if c < 7 then 5 else 8) 3 v
def modFw (c : Nat) (f : FwCore → FwCore) : Action := fun s => [.fw c (f (fwOf s c))]
def dropFwWarp (c : Nat) : Action := fun s => (s.warps.filter fun e => e.2.fw == some c).map fun e => Upd.warp e.1 none
def extend (m h : List Byte) : List Byte := sha256 (m ++ h)
/-- The thread of a firmware core starts at a block (R481). -/
def startFw (c : Nat) (pc : DWord) : Action := acts [
  dropFwWarp c,
  fun s => [.warp s.nextId (some (fwWarp c pc)), .nextId (s.nextId + 1)],
  fun s => modFw c (fun f => { f with status := 1, crash := false, last := s.now }) s]
/-- The root of trust runs from its ROM (R22; log 72). -/
def startRoot : Action := startFw 0 (dw (64 * Config.romEntry))
def imageOf (s : State) (c : Nat) : FwImage := findD s.flash.images c ⟨0, 0, [], []⟩
/-- The image proper, and its measurement H. -/
def FwImage.text (i : FwImage) : List Byte := (i.bytes ++ zeros i.len).take i.len
def FwImage.hash (i : FwImage) : List Byte := sha256 i.text
/-- An image is copied while its core is held in reset. -/
def copyImage (c : Nat) : Action := look fun s => acts [dropFwWarp c, poke (imageOf s c).addr (imageOf s c).text]
/-- Its signature verifies over H with the vendor key that the configuration record names. -/
def imageOk (s : State) (c : Nat) : Bool := vendorOk s.flash.vkey (imageOf s c).hash (imageOf s c).sig
/-- A verified image is measured, and its core released. -/
def releaseCore (c : Nat) : Action := look fun s => acts [
  modBoot fun b => { b with m := extend b.m (imageOf s c).hash }, startFw c (dw (imageOf s c).addr)]
/-- Failures in the last second, this one included. -/
def recentFails (s : State) (c : Nat) : List Nat := ((fwOf s c).fails.filter fun t => decide (s.now < t + 1000000000)) ++ [s.now]
/-- R441: a failed core is held in reset, to be reloaded unless it has failed three times within a second. -/
def coreFails (c : Nat) : Action := look fun s =>
  let fs := recentFails s c
  let st := if 3 ≤ fs.length then 3 else 2
  acts [dropFwWarp c, modFw c fun f => { f with status := st, crash := false, fails := fs }, setCoreStat c st,
    if c < 7 then setField .istat (fwIsland c) 11 1 1 else skip]
def isService (c : Nat) : Bool := decide (1 ≤ c) && decide (c ≤ 12)
/-- R440: a trap is a crash. -/
def execFirmwareCoreTrap (core : Nat) (s : State) : Host.Outcome State Fault Refusal :=
  event (look fun s => if isService core && (fwOf s core).crash then coreFails core else skip) s
/-- A running core that has retired nothing for 1 ms, or a command processor one of whose queues has held a packet for 10 ms; device time starts
with STATE 1 (R431). -/
def fwStalled (s : State) (c : Nat) : Bool :=
  let f := fwOf s c
  isService c && f.status == 1 && powered s && (decide (f.last + 1000000 ≤ s.now) ||
    (c < 7 && s.queues.any fun e => 1 + e.1 / 64 == c && (match e.2.held with | some t => decide (t + 10000000 ≤ s.now) | none => false)))
/-- Since when each queue has had a packet that its command processor could start, started none of, and had the budget for (R440). -/
def noteHeld : Action := fun s => s.queues.filterMap fun (k, q) =>
  let on := headOf s q != .none && (fallback s (k / 64) || funded s (queueTenant s q))
  let h := if on then some (q.held.getD s.now) else none
  if h = q.held then none else some (Upd.queue k (some { q with held := h }))
/-- R440. -/
def execFirmwareWatchdogExpiry (core : Nat) (s : State) : Host.Outcome State Fault Refusal :=
  event (look fun s => if fwStalled s core then coreFails core else skip) s
/-- R441. -/
def execFirmwareReloadComplete (core : Nat) (s : State) : Host.Outcome State Fault Refusal :=
  event (look fun s => if !isService core || (fwOf s core).status != 2 then skip else acts [copyImage core,
    if imageOk s core then acts [releaseCore core, if core < 7 then skip else setCoreStat core 1]
    else acts [modFw core fun f => { f with status := 3 }, setCoreStat core 3]]) s
/-- The reports held while the fallback scheduler served an island are written. -/
def releaseReports (isl : Nat) : Action := look fun s => acts [
  forEach (islandOf s isl).held fun (t, e) => evWrite t none e,
  fun s => [.island isl { islandOf s isl with held := [] }]]
def canTakeOver (s : State) (isl : Nat) : Bool := decide (isl < 6) && (fwOf s (1 + isl)).status == 1 && dbits (reg s .istat isl) 5 3 == 2
/-- R329, R441. -/
def execFallbackHandOver (isl : Nat) (s : State) : Host.Outcome State Fault Refusal :=
  event (look fun s => if !canTakeOver s isl then skip else acts [
    setField .istat isl 11 1 0, setCoreStat (1 + isl) 1, releaseReports isl]) s

/-! ### Bring-up (R378, R431 to R437) -/

/-- The time limit of a step (R432). -/
def stepLimit (step : Nat) : Nat := if step = 1 then 2000000 else if step = 2 then 100000 else 5000000
def beginStep (isl step : Nat) : Action := fun s =>
  acts [setField .bstat 0 12 4 isl, setStep isl step, modBoot fun b => { b with due := s.now + stepLimit step }] s
/-- R434. -/
def failBringup (code : Nat) (isl : Option Nat) : Action := acts [powerOff isl, setState 2, setField .bstat 0 16 8 code,
  match isl with | some n => setField .bstat 0 12 4 n | none => skip]
/-- What the configuration record gives the registers. -/
def configRegs : Action := look fun s => acts [
  upd (.reg .peerid 0 (dw s.flash.peer)),
  forEach (List.range 32) fun i s =>
    let own : Nat := if s.flash.peer / 32 = i then 2 ^ (s.flash.peer % 32) else 0
    let pop := (dedup s.flash.populated).filter fun p => p / 32 == i
    let v := dw ((pop.map fun p => 2 ^ (p % 32)).foldl (· + ·) 0) ||| dw own
    [.reg .peerp i v, .reg .peere i v]]
/-- HBM4 keeps its contents: the last entry written is DONE or HARD and the board kept it powered (R443). -/
def keepsHbm (s : State) (kept : Bool) : Bool :=
  kept && (match (s.trips.filter (·.acked)).getLast? with
    | some t => t.kind == tDone || t.kind == tHard
    | none => false)
/-- The configuration record verifies, with the vendor's key whose hash ROM holds (R431 step 2). -/
def configVerified (s : State) : Bool :=
  sha256 s.flash.vkey == Config.vendorHash && vendorOk s.flash.vkey (sha256 s.flash.config) s.flash.sig && Config.configOk s.flash.config
/-- Bring-up begins: reset, BOOTID, identity, configuration, island 0 (R431, R436, R437). -/
def startBringup (kept : Bool) : Action := look fun s => acts [
  powerOff none, upd .hwClear, upd (.now 0), setField .bstat 0 8 1 (b2n (keepsHbm s kept)),
  withFree fun t => upd (.boot ⟨true, 0, zeros 32, Config.freeValue t, [], 0, none, none⟩),
  startRoot, logEntry tBoot 0 0,
  withFree fun t => if !identityOk s.flash.helper s.flash.cert t then failBringup 1 none
    else if !configVerified s then failBringup 2 none else acts [
      fun s => modBoot (fun b => { b with m := extend b.m (sha256 s.flash.config) }) s, configRegs, beginStep 0 1]]
/-- R431: the package powers up. -/
def execPowerOn (kept : Bool) (s : State) : Host.Outcome State Fault Refusal := event (acts [loseEntries, startBringup kept]) s
/-- R431 step 5: device time starts, with the first period and interval (R321, R338, R340); the rotors are wherever they are (R384). -/
def finishBringup : Action := acts [
  setState 1, setField .bstat 0 12 4 0, modBoot fun b => { b with running := false }, upd (.now 0),
  forEach (List.range 12) fun i s => modFw (1 + i) (fun f => { f with last := s.now }) s,
  withFree fun t => upd (.reg .rots 0 (Config.freeValue t &&& 0xFFFFFFFF)),
  forEach (List.range 192) tenantStart, forEach (List.range 192) staticCharge]
/-- An island is released: its straits to released islands open. -/
def releaseIsland (isl : Nat) : Action := acts [
  look fun s => if dbit (reg s .bstat 0) 8 then skip else upd (.memClear isl),
  setStep isl 4]
/-- The two images of a released island are copied, measured and verified, and their cores started (R431 step 4). -/
def startImages (isl : Nat) : Action := acts [
  copyImage (1 + isl), copyImage (7 + isl),
  look fun s => if !imageOk s (1 + isl) || !imageOk s (7 + isl) then failBringup 4 none else acts [
    releaseCore (1 + isl), setCoreStat (1 + isl) 1, releaseCore (7 + isl), setCoreStat (7 + isl) 1,
    if isl < 5 then beginStep (isl + 1) 1 else finishBringup]]
/-- The root of trust reaches the homes of a released island's images; otherwise they wait at a strait (R433). -/
def imagesReach (s : State) (isl : Nat) : Bool :=
  [1 + isl, 7 + isl].all fun c => (linesOf (imageOf s c).addr (imageOf s c).len).all fun l => reaches s (64 * l)
/-- The step under way, and whether it has passed its limit (R432); loading images has none. -/
def bootStep (s : State) : Nat := dbits (reg s .istat (bootIsland s)) 0 3
def stepLate (s : State) : Bool := s.boot.running && decide (bootStep s < 4) && decide (s.boot.due < s.now)
/-- R432: the step under way succeeds within its limit, or a sensor fails it. -/
def execBringupStepComplete (s : State) : Host.Outcome State Fault Refusal :=
  event (look fun s =>
    let isl := bootIsland s
    if !s.boot.running || stepLate s then skip
    else if bootStep s = 4 then (if imagesReach s isl then startImages isl else skip)
    else withFree fun t =>
      if !Config.sensorOk t then failBringup 3 (some isl)
      else if bootStep s < 3 then beginStep isl (bootStep s + 1) else releaseIsland isl) s
/-- R432: a step passes its limit. -/
def execBringupStepTimeout (s : State) : Host.Outcome State Fault Refusal :=
  event (look fun s => if stepLate s then failBringup 3 (some (bootIsland s)) else skip) s

/-! ### Trips (R442 to R446) -/

/-- R442: a trap of the root of trust cuts power and resets the package. -/
def execRootTrap (s : State) : Host.Outcome State Fault Refusal :=
  event (acts [loseEntries, powerOff none, upd .hwClear, setState 4, logEntry tRoot 0 0,
    upd (.boot ⟨false, 0, zeros 32, 0, [], 0, none, none⟩), startRoot]) s
/-- R444 steps 1 and 2. -/
def beginSoftTrip : Action := look fun s => acts [
  setState 3, forEach (List.range 192) fun c => setField .clst c 8 4 0,
  forEach (validCtxs s) fun n => setField .ctxs n 2 1 1,
  forEach (dedup ((validCtxs s).map (ctxTenant s))) rank,
  look fun s => forEach (validCtxs s) fun n => if (ctxOf s n).resident || (ctxOf s n).stopping then skip else setField .ctxs n 0 2 3]
/-- R444: a junction reaches 105 °C; during bring-up the trip ends it once its entries are written. -/
def execSoftTrip (cl tj : Nat) (s : State) : Host.Outcome State Fault Refusal :=
  event (look fun s =>
    if tj < 420 || 192 ≤ cl then skip
    else if s.boot.running then acts [setState 3, forEach (List.range 192) fun c => setField .clst c 8 4 0,
      modBoot fun b => { b with running := false, trip := some (islandOfCluster cl) }, logEntry tSoft 0 (tripInfo cl tj)]
    else if devState s != 1 then skip
    else acts [setField .clst cl 22 10 tj, logEntry tSoft 0 (tripInfo cl tj), beginSoftTrip, noteHot]) s
/-- R446: power is cut at 115 °C. -/
def hardTrip (cl tj : Nat) : Action := look fun s => acts [loseEntries, cardEntry tHard (tripInfo cl tj),
  if s.boot.running || s.boot.trip.isSome then failBringup 5 (some (islandOfCluster cl)) else acts [powerOff none, setState 4]]
/-- R446: a junction reaches 115 °C. -/
def execHardTrip (cl tj : Nat) (s : State) : Host.Outcome State Fault Refusal :=
  event (look fun s => if tj < 460 || 192 ≤ cl || devState s == 4 || devState s == 2 then skip else hardTrip cl tj) s
/-- Contexts to be saved, in order (R444 step 3). -/
def toSave (s : State) : List Nat :=
  let l := (validCtxs s).filter fun n => !s.boot.saved.contains n && s.wgs.any fun e => e.2.ctx == n && e.2.live
  sortBy (fun a b => decide (ctxClass s b < ctxClass s a) || (ctxClass s a == ctxClass s b && decide (a ≤ b))) l
/-- The physical pages of a context's image. -/
def imagePages (s : State) (n : Nat) : List Nat :=
  (List.range (imgSize s n / 65536)).filterMap fun i => (paOf s n true .write (imgBase s n + 65536 * i)).map (· / 65536)
/-- The lines of an image that a register cache holds, or that are dirty in the LLC, go to HBM4, as foreign traffic. -/
def flushImage (n : Nat) : Action := look fun s =>
  let mine (l : Nat) : Bool := (imagePages s n).contains (l / 1024)
  let kept := s.cores.flatMap fun e => (e.2.rc.filter fun l => l.ctx == n).map (·.line)
  let dirty := (s.llc.filter fun l => l.dirty && mine l.line && !kept.contains l.line).map (·.line)
  acts [charge none ((kept ++ dirty).map fun l => ⟨11, 1, homeCluster (64 * l)⟩),
    fun s => (s.cores.filter fun e => e.2.rc.any fun l => l.ctx == n).map fun (c, r) => Upd.core c { r with rc := r.rc.filter fun l => l.ctx != n },
    fun s => [.llc (s.llc.map fun l => if mine l.line then { l with dirty := false } else l)]]
def saveContext (n : Nat) : Action := look fun s =>
  let gs := (wgsOf s n).map (·.2)
  acts [flushImage n, logEntry tSaved n (b2n ((ctxOf s n).lost || gs.any (localState s)) + 2 * b2n (gs.all (·.restart))),
    modBoot fun b => { b with saved := b.saved ++ [n] }]
/-- The next step of an emergency save (R444 steps 3 to 5): nothing while an entry is unacknowledged or a switch is under way. -/
def saveNext (s : State) : Option Action :=
  if devState s != 3 || !logIdle s then none
  else if (s.trips.getLast?.map (·.kind)) == some tDone then some (match s.boot.trip with
    | some isl => failBringup 5 (some isl)
    | none => acts [powerOff none, setState 4])
  else match toSave s with
    | [] => some (logEntry tDone 0 s.boot.saved.length)
    | n :: _ => if (ctxOf s n).resident || (ctxOf s n).stopping then none else some (saveContext n)

end Sys2Proof.Machine
end

