-- ==== Sys2Proof/Machine/Fabric.lean ====
section
/-! DEFINITION. Rotors, paths, the fabric MMU, replies and losses, and the optical samples (R227, R229, R239, R262, R352, R379 to R394).
How a request's fields lie in its payload is log 30. -/
namespace Sys2Proof.Machine

/-! ### Rings (R390, R392, R482) -/

/-- The resonance of a ring in 0.001 nm, at a die temperature in quarter degrees and a heater code (R390; log 69). -/
def resonance (n quarter code : Nat) : Nat := Config.ringBase n + 20 * quarter + 3 * code
/-- The resonance lies within 50 heater steps of a channel's wavelength, modulo 12.8 nm (R482). -/
def tuned (n quarter code j : Nat) : Bool := decide ((resonance n quarter code + 12800 + 150 - 1600 * j) % 12800 ≤ 300)
/-- The code that drives a ring: for 1 µs after a heater write it may still be the one before (R390). -/
def ringCode (s : State) (t n : Nat) : Nat :=
  let new := dbits (reg s .ohtr n) 0 12
  match find s.fabric.heat n with
  | some (old, at') => if s.now < at' + 1000 ∧ Config.freeChoice t % 2 = 0 then old else new
  | none => new
/-- The channel that the map in force gives the i-th transmit ring (R392). -/
def ringChannel (s : State) (k i : Nat) : Nat := nbits (findD s.fabric.otxm k 0xFAC688).toNat (3 * i) 3
/-- A transmit ring of a channel in use is off its wavelength (R389, R482). -/
def mistuned (s : State) (t k : Nat) : Bool := (List.range 8).any fun i =>
  decide (ringChannel s k i < stripeOf (dbits (reg s .ostr k) 2 2)) &&
    !tuned (16 * k + i) (Config.freeTemp t 192 % 1024) (ringCode s t (16 * k + i)) (ringChannel s k i)
/-- Receive ring i of a pair, of the channel that the map in force gives it, is off its wavelength (R392, R482). -/
def rxChannel (s : State) (k i : Nat) : Nat := nbits (findD s.fabric.orxm k 0xFAC688).toNat (3 * i) 3
def rxOff (s : State) (t k j : Nat) : Bool := (List.range 8).any fun i => rxChannel s k i == j &&
  !tuned (16 * k + 8 + i) (Config.freeTemp t 192 % 1024) (ringCode s t (16 * k + 8 + i)) j
/-- The bytes of a flit as they go over the fibre, and the channels that carry them (R388, R389). -/
def flitBytes (f : Flit) : List Byte := le 16 ((headerBits f).toNat + f.chk.toNat) ++ f.payload
def stripes (w : Nat) (bs : List Byte) : List (List Byte) := (List.range w).map fun c =>
  ((mapI (fun i b => (i, b)) bs).filter fun e => e.1 % w == c).map (·.2)
/-- The bytes as the receiver puts them together by the width that the preamble named (R389). -/
def Light.bytes (l : Light) : List Byte := (List.range 80).map fun b => nth (nth l.lanes (b % l.width) []) (b / l.width) 0
def flitOf (bs : List Byte) (cost fill : Nat) : Flit :=
  let h : BitVec 128 := BitVec.ofNat 128 (leNat (bs.take 16))
  ⟨h.extractLsb' 116 12, h.extractLsb' 104 12, h.extractLsb' 96 8, h.extractLsb' 56 40, h.extractLsb' 52 4, h.extractLsb' 44 8, h.extractLsb' 42 2,
    h.extractLsb' 26 16, h.extractLsb' 24 2, h.extractLsb' 0 24, bs.drop 16, cost, fill⟩
/-- A flit as it leaves: its check may fail beyond the limit of R482, else it is intact. -/
def onFibre (s : State) (t k : Nat) (f : Flit) : Flit :=
  if mistuned s t k ∧ Config.freeChoice t / 2 % 2 = 0 then { f with chk := ~~~f.chk } else f

/-! ### Rotors and paths (R383 to R385) -/

/-- Rotors and slots that connect two peers, by their XOR: lowest index first. -/
def connects (x : Nat) : List (Nat × Nat) :=
  (List.range 9).filterMap fun j => let i := x - 1 + 1023 * j
    if 1 ≤ x ∧ i < 8192 then some (i / 32, i % 32) else none
/-- The partner of a package on a rotor in a slot. -/
def partner (p k m : Nat) : Nat := p ^^^ (1 + (32 * k + m) % 1023)
/-- Slots until two peers connect directly, counting 1 to 32 from a slot. -/
def slotsUntil (m a b : Nat) : Nat :=
  ((connects (a ^^^ b)).map fun e => (e.2 + 31 - m) % 32 + 1).foldl min 33
def usable (s : State) (p : Nat) : Bool :=
  decide (p < 1024) && dbit (reg s .peerp (p / 32)) (p % 32) && dbit (reg s .peere (p / 32)) (p % 32)
def slotNow (s : State) : Nat := dbits (reg s .rots 0) 0 5
/-- How a flit for a peer can leave now: its rotor, and the relay it goes to, if any (R385). -/
inductive Path where
  | direct (k : Nat) | relay (k peer : Nat) | hold
  deriving DecidableEq, Repr
def pathTo (s : State) (d : Nat) : Path :=
  let p := ownPeer s
  let m := slotNow s
  match minNat? ((connects (p ^^^ d)).filterMap fun e => if e.2 = m then some e.1 else none) with
  | some k => .direct k
  | none =>
    let via := (List.range 256).filterMap fun k =>
      let q := partner p k m
      if q != d && usable s q then some (k, q, slotsUntil m q d) else none
    let best := (via.map (·.2.2)).foldl min 33
    if best < slotsUntil m p d then match via.find? fun e => e.2.2 == best with
      | some (k, q, _) => .relay k q
      | none => .hold
    else .hold
def isRequest (f : Flit) : Bool := f.ty == 0 || f.ty == 2 || f.ty == 4 || f.ty == 6
/-- A flit of an access leaves after a wait: the access has been sent, and its hops count (R239, R380). -/
def noteSent (f : Flit) (hops wait : Nat) : Action := fun s =>
  if f.src.toNat != ownPeer s || !isRequest f then [] else
    [.fabric { s.fabric with remotes := s.fabric.remotes.map fun r =>
      if r.tag = f.tag.toNat ∧ r.peer = f.dst.toNat then { r with sent := s.now + wait + 1, hops := r.hops + hops } else r }]
/-- Time of a flit on a transmitter, in 0.1 ns (R389). -/
def flitTime (s : State) (k : Nat) : Nat := 64 / stripeOf (dbits (reg s .ostr k) 2 2)
/-- Time of the slot in force that a transmitter has used: the guard and the preamble first (R384). -/
def usedTime (s : State) (k : Nat) : Nat := findD s.fabric.used k 300
/-- Time since the slot began. -/
def slotTime (s : State) : Nat := (s.now + 2500 - Config.rotorPhase % 2500) % 2500 * 10
/-- A flit that begins now, or at the time given, ends before its slot ends. -/
def fits (s : State) (k start : Nat) : Bool := decide (max (usedTime s k) start + flitTime s k < 25000)
/-- A flit on the light: its transmitter is taken for its time, and it has left, striped over the width in force (R389). -/
def transmit (k start : Nat) (f : Flit) : Action := withFree fun t s =>
  [.fabric { s.fabric with
    used := put s.fabric.used k (max (usedTime s k) start + flitTime s k)
    out := s.fabric.out ++ [
      let w := stripeOf (dbits (reg s .ostr k) 2 2)
      ⟨k, w, stripes w (flitBytes (onFibre s t k f))⟩] }]
/-- The flit at the head of a peer's queue takes its path, its header naming the hop; a relay may refuse it, and then it stays (R385,
R386). -/
def sendHead (start : State → Nat) (d : Nat) : Action := look fun s =>
  match findD s.fabric.tx d [] with
  | [] => skip
  | f :: rest =>
    let go (k hop hops : Nat) : Action := acts [
      fun s => [.fabric { s.fabric with
        tx := if rest.isEmpty then del s.fabric.tx d else put s.fabric.tx d rest, refused := s.fabric.refused.filter (· != d) }],
      transmit k (start s) (sealed { f with hop := BitVec.ofNat 2 hop }), noteSent f hops ((usedTime s k - start s) / 10)]
    match pathTo s d with
    | .direct k => if fits s k (start s) then go k 0 1 else skip
    | .relay k _ => if fits s k (start s) then withFree fun t => if Config.freeChoice t % 2 = 0 then go k 1 2
        else fun s => [.fabric { s.fabric with refused := dedup (s.fabric.refused ++ [d]) }] else skip
    | .hold => skip
/-- The relay region of 80-byte flits, at homes that are not stated, is accessed as foreign traffic (R333, R386; log 61). -/
def relayCharge : Action := withFree fun t => charge none [⟨9, 2, Config.freeChoice t % 192⟩]
/-- A relayed flit whose slot has come is forwarded (R385). -/
def forwardRelay (start : State → Nat) (id : Nat) : Action := look fun s => match s.fabric.relay.find? fun e => e.1 == id with
  | none => skip
  | some (_, _, f) => match pathTo s f.dst.toNat with
    | .direct k => if fits s k (start s) then acts [relayCharge,
        fun s => [.fabric { s.fabric with relay := s.fabric.relay.filter fun e => e.1 != id }], transmit k (start s) f] else skip
    | _ => skip
def canLeave (s : State) (d : Nat) : Bool := match pathTo s d with
  | .direct k | .relay k _ => fits s k (slotTime s)
  | .hold => false
/-- Destinations whose next flit can leave now, through a relay or at once on its direct fibre, and relayed flits that can. -/
def sendable (s : State) : List Nat := (s.fabric.tx.filter fun e => e.1 != ownPeer s && !e.2.isEmpty && canLeave s e.1).map (·.1)
def isDirect : Path → Bool
  | .direct _ => true
  | _ => false
def forwardable (s : State) : List Nat := (s.fabric.relay.filter fun e => match pathTo s e.2.2.dst.toNat with
  | .direct k => fits s k (slotTime s)
  | _ => false).map (·.1)
/-- A flit whose direct fibre connects, or a relayed one whose slot has come, is sent at once, behind those that its transmitter is sending (R385,
R389). -/
def directSend (s : State) : Option Action :=
  match forwardable s with
  | i :: _ => some (forwardRelay slotTime i)
  | [] => ((sendable s).find? fun d => isDirect (pathTo s d)).map (sendHead slotTime)
/-- The width of a transmitter at a slot boundary (R393). -/
def widthStep (k : Nat) : Action := fun s =>
  let r := reg s .ostr k
  let w := stripeOf (dbits r 0 2)
  if dbits r 0 2 != dbits r 2 2 && (List.range w).all (fun j => dbit r (16 + j)) then
    acts [setField .ostr k 2 2 (dbits r 0 2), lasers k] s
  else []
/-- Ring maps take effect at a slot boundary (R392). -/
def mapsStep : Action := fun s =>
  let at' (k : RegKind) : SMap Word := (List.range 256).foldl (fun m i => putD m i (wd (dbits (reg s k i) 0 24)) 0xFAC688) []
  [.fabric { s.fabric with otxm := at' .otxm, orxm := at' .orxm }]
/-- A new slot: no time of it is used, and no relay has refused a flit in it (R384, R386). -/
def usedClear : Action := fun s => [.fabric { s.fabric with used := [], refused := [] }]
/-- R384: the rotors move to the next slot. -/
def execRotorSlotBoundary (s : State) : Host.Outcome State Fault Refusal :=
  event (acts [
    modReg .rots 0 fun r => dw ((r.toNat + 1) % 2 ^ 32),
    usedClear,
    mapsStep, forEach (List.range 256) widthStep]) s

/-! ### Losses and errors (R229, R262, R380, R382, R386) -/

/-- The lanes an answer to one lane's access covers. -/
def answerMask (s : State) (r : Remote) : Mask :=
  match (find s.warps r.wk).bind fun w => w.outs.find? fun o => o.id == r.out with
  | some o => replyMask o r.lane
  | none => laneBit r.lane
def modArrival (id : Nat) (f : Arrival → Arrival) : Action := fun s =>
  [.arrivals (s.arrivals.map fun a => if a.id = id then f a else a)]
/-- What an instruction waits for through the fabric arrives: a load's value, the entry of a `jtb`, the packet of an `enq`. -/
def remoteValue (r : Remote) (bs : List Byte) (v : BitVec 128) : Action := look fun s =>
  match (find s.warps r.wk).bind fun w => w.outs.find? fun o => o.id == r.out with
  | none => skip
  | some o => match o.kind with
    | .await =>
      let vs := (List.range 4).map fun i => BitVec.ofNat 128 (leNat ((bs.drop (16 * i)).take 16))
      if r.kind = 6 then modOut r.wk r.out fun o => { o with left := 0, res := { o.res with vals := vs } }
      else jtbEntry r.wk o r.lane v
    | _ => answer r.wk r.out (answerMask s r) v
def poisonBytes : List Byte := (List.replicate 16 (le 4 0xFFC00BAD)).flatten
/-- The lanes that an error of an access affects. -/
def errLanes (s : State) (r : Remote) : Mask :=
  if r.kind = 4 || r.kind = 5 then match s.arrivals.find? fun a => a.id == r.out with | some a => a.lanes | none => laneBit r.lane
  else laneBit r.lane
/-- An access ends with an error completion. -/
def endInError (r : Remote) (code : Nat) : Action := look fun s => acts [
  dropRemote r.tag,
  match r.kind with
    | 0 | 1 | 6 => remoteValue r poisonBytes poison
    | 4 => match s.arrivals.find? fun a => a.id == r.out with
      | some a => unitEnd a true
      | none => skip
    | 5 => modArrival r.out fun a => { a with data := poisonBytes }
    | _ => skip,
  noteRemErr r.wk code r.ifa (errLanes s r)]
/-- The flits that an access has sent are charged though it ends in error (R239, R493). -/
def chargeHops (r : Remote) (more : Nat) : Action := charge (some r.ctx) (if r.hops + more = 0 then [] else [⟨14, r.hops + more, r.cl⟩])
/-- A unit of a `put.t` that waits between attempts, or has not been sent, counts as refused and is not retried (R262). -/
def loseUnit (a : Arrival) : Action := match a.win with
  | some (p, g, o) => acts [unitEnd a true, match a.wk with | some k => noteRemErr k 0 (ifaOf p g o) a.lanes | none => skip]
  | none => skip
/-- A peer is lost: disabled and reported to firmware, its accesses ended with their requests; replies and broadcasts for it stay (R380). -/
def losePeer (peer : Nat) : Action := look fun s =>
  let own (f : Flit) : Bool := isRequest f && f.src.toNat == ownPeer s
  let left := (findD s.fabric.tx peer []).filter fun f => !own f
  acts [
    if peer = ownPeer s then skip else setField .peere (peer / 32) (peer % 32) 1 0,
    fun s => [.fabric { s.fabric with tx := if left.isEmpty then del s.fabric.tx peer else put s.fabric.tx peer left, lost := s.fabric.lost ++ [peer] }],
    forEach (s.fabric.remotes.filter fun r => r.peer == peer) fun r => acts [chargeHops r 0, endInError r 0],
    look fun s => forEach (s.arrivals.filter fun a => match a.win with | some (p, _, _) => p == peer | none => false) loseUnit]
/-- An access of a peer has had no reply for 1 ms. -/
def overdue (s : State) (peer : Nat) : Bool :=
  peer != ownPeer s && s.fabric.remotes.any fun r => r.peer == peer && r.sent != 0 && decide (r.sent - 1 + 1000000 ≤ s.now)
/-- R380. -/
def execPeerLost (peer : Nat) (s : State) : Host.Outcome State Fault Refusal :=
  event (look fun s => if overdue s peer then losePeer peer else skip) s
/-- The report of a relay that could not forward: the lost destination, marked in OFF. -/
def lossReport (s : State) (f : Flit) : Flit := mkFlit s f.src.toNat 0 (2 ^ 20 + 256 * f.dst.toNat) 8 0 f.tag.toNat []
/-- R386: a relayed flit has waited 160 µs. -/
def execRelayTimeout (id : Nat) (s : State) : Host.Outcome State Fault Refusal :=
  event (look fun s => match s.fabric.relay.find? fun e => e.1 == id with
    | none => skip
    | some (_, t, f) => if s.now < t + 160000 then skip else acts [relayCharge,
        fun s => [.fabric { s.fabric with relay := s.fabric.relay.filter fun e => e.1 != id }],
        sendTo f.src.toNat [lossReport s f]]) s

/-! ### Replies (R239, R262, R332) -/

/-- Drops that the target incurred, carried by the reply, by class (R332, R355). -/
def carriedCharge (ctx cls amount : Nat) : Action := fun s =>
  if !ctxValid s ctx || amount = 0 then [] else acts [debit ctx amount,
    modTenant (ctxTenant s ctx) fun t => { t with
      drops := put t.drops cls (findD t.drops cls 0 + amount), ctxs := if t.ctxs.contains ctx then t.ctxs else t.ctxs ++ [ctx] }] s
def flitHops (f : Flit) (s : State) : Nat := if f.src.toNat = ownPeer s then 0 else if f.hop == 2 then 2 else 1
/-- What a reply settles: its charges, and a sink. -/
def settleRemote (r : Remote) (f : Flit) : Action := look fun s =>
  acts [chargeHops r (flitHops f s), carriedCharge r.ctx (if r.kind = 4 then 13 else 9) f.cost, carriedCharge r.ctx 11 f.fill, sink r.ctx]
/-- A load is narrow or sign-extended as its instruction says. -/
def remoteSext (s : State) (r : Remote) : Bool :=
  match (find s.warps r.wk).bind fun w => w.outs.find? fun o => o.id == r.out with
  | some o => match o.kind with
    | .remote _ e => e
    | _ => false
  | none => false
/-- The scope that an instruction names. -/
def scopeOf : Instr → Scope
  | .ld _ _ _ sc _ | .atomAdd _ _ sc _ _ _ | .atomSmin _ _ sc _ _ _ | .atomUmin _ _ sc _ _ _ | .atomSmax _ _ sc _ _ _ | .atomUmax _ _ sc _ _ _
  | .atomAnd _ _ sc _ _ _ | .atomOr _ _ sc _ _ _ | .atomXor _ _ sc _ _ _ | .atomExch _ _ sc _ _ _ | .atomCas _ _ sc _ _ _
  | .atomFaddF32 _ _ sc _ _ => sc
  | _ => .dev
/-- An acquire that is answered discards, as one at a home does (R207, R228). -/
def remoteAcquire (r : Remote) : Action := look fun s => match find s.warps r.wk with
  | none => skip
  | some w => match w.outs.find? fun o => o.id == r.out with
    | some o => if o.acq && !near (scopeOf o.ins) then l1Discard w.core else skip
    | none => skip
/-- A reply of a kind that fits the access is delivered. -/
def deliverReply (r : Remote) (f : Flit) : Action := look fun s =>
  let go (a : Action) : Action := acts [settleRemote r f, dropRemote r.tag, a]
  let value : Action := acts [remoteAcquire r, remoteValue r f.payload (loadVal (remoteSext s r) (f.payload.take r.bytes))]
  match f.ty.toNat, r.kind with
  | 1, 0 | 1, 6 => go value
  | 5, 1 => go value
  | 3, 2 | 3, 3 => go skip
  | 7, 4 => go (match s.arrivals.find? fun a => a.id == r.out with
      | some a => if nth f.payload 0 0 = 0 then unitEnd a false else refuse a
      | none => skip)
  | 1, 5 => go (modArrival r.out fun a => { a with data := f.payload })
  | 8, _ => acts [settleRemote r f, endInError r (f.off.toNat % 256)]
  | _, _ => skip
def remoteOfFlit (s : State) (f : Flit) : Option Remote :=
  s.fabric.remotes.find? fun r => r.tag == f.tag.toNat && r.peer == f.src.toNat

/-! ### Requests at the target (R381, R382) -/

/-- The fields of a request's first flit. -/
structure Req where
  src : Nat
  tag : Nat
  ty : Nat
  seg : Nat
  off : Nat
  sten : Nat
  size : Nat
  op : Nat
  nr : Bool
  core : Nat
  data : List Byte
  deriving DecidableEq, Repr
def reqOf (f : Flit) (data : List Byte) : Req :=
  ⟨f.src.toNat, f.tag.toNat, f.ty.toNat, f.seg.toNat, f.off.toNat, f.sten.toNat, fieldAt f.payload 0 2, fieldAt f.payload 2 2,
    nth f.payload 4 0 != 0, fieldAt f.payload 5 2, data⟩
def segWord (s : State) (r : Req) (i : Nat) : DWord := reg s .fseg (8 * r.seg + i)
def segBase (s : State) (r : Req) : Nat := (segWord s r 2).toNat + 2 ^ 32 * (segWord s r 3).toNat
/-- The workgroup that a tile segment names: of the earliest started launch of TCTX with the record address. -/
def targetWg (s : State) (r : Req) : Option (Nat × Workgroup) :=
  let ctx := (segWord s r 1).toNat % 1024
  (s.launches.filter fun e => e.2.ctx == ctx && e.2.addr.toNat == segBase s r && e.2.status.isNone).findSome? fun e =>
    s.wgs.find? fun g => g.2.launch == e.1 && g.2.core == r.off % 1024
/-- The checks of R382: the code of the first failure, or 0. -/
def reqCheck (s : State) (r : Req) : Nat :=
  let w := segWord s r 0
  let tile := dbit w 29
  let needR := r.ty == 0 || r.ty == 4
  let needW := r.ty != 0
  if !dbit w 31 then 1
  else if !(dbit w 28 || dbits w 12 12 == r.src) || dbits w 0 8 != r.sten then 2
  else if tile != (r.ty == 6) then 3
  else if (needR && !dbit w 27) || (needW && !dbit w 26) then 4
  else if !tile && decide (65536 * (segWord s r 4).toNat < r.off + r.size) then 5
  else if tile && (r.off / 1024 != 0 || (match targetWg s r with | some g => decide (g.2.tiles.length ≤ r.size) | none => true)) then 6
  else 0
/-- A reply, with the drops it carries. -/
def replyTo (r : Req) (ty off cost fill : Nat) (payload : List Byte) : Action := fun s =>
  sendTo r.src [{ mkFlit s r.src 0 off ty r.sten r.tag payload with cost := cost, fill := fill }] s
/-- A write that this package's own thread made through a window is seen in its core's L1 (R206, R377). -/
def ownWrite (r : Req) (pa : Nat) (bs : List Byte) : Action := look fun s =>
  if r.src != ownPeer s then skip else match s.fabric.remotes.find? fun m => m.tag == r.tag && m.peer == r.src with
    | some m => l1Store r.core m.ctx pa bs
    | none => skip
/-- A read that this package's own thread makes through a window leaves no older copy in its core's L1 (R218). -/
def ownRead (r : Req) (pa : Nat) : Action := look fun s =>
  if r.src != ownPeer s then skip else match s.fabric.remotes.find? fun m => m.tag == r.tag && m.peer == r.src with
    | some m => l1Refresh r.core m.ctx pa
    | none => skip
/-- A memory request performed at its home; its charges are foreign here and travel back. -/
def serveMemory (r : Req) : Action := look fun s =>
  let pa := segBase s r + r.off
  let cl := homeCluster (pa / 64 * 64)
  let lines := linesOf pa r.size
  let cost := homeCharges s cl lines
  let sum (c : Nat) : Nat := ((cost.filter fun g => g.cls == c).map (drops s)).foldl (· + ·) 0
  let touch (w : Bool) : Action := homeAccess none cl w lines
  let back (ty : Nat) (data : List Byte) : Action := replyTo r ty 0 (sum 9) (sum 11) data
  match r.ty with
  | 0 => acts [touch false, ownRead r pa, back 1 (memBytes s.mem pa r.size)]
  | 2 => acts [poke pa (r.data.take r.size), ownWrite r pa (r.data.take r.size), touch true, back 3 []]
  | _ =>
    let old := dw (memNat s.mem pa r.size)
    let new := (Rmw.ofNum r.op).new (r.size == 8) old (dw (fieldAt r.data 0 r.size)) (dw (fieldAt r.data r.size r.size))
    acts [poke pa (le r.size new.toNat), ownWrite r pa (le r.size new.toNat), touch true, back (if r.nr then 3 else 5) (le r.size old.toNat)]
/-- An arrival from another package joins the units on their way to a tile. -/
def serveArrival (r : Req) : Action := look fun s =>
  match targetWg s r with
  | none => skip
  | some (_, g) => addArrivals [{ noArrival with
      ctx := g.ctx, srcCore := r.core, srcPeer := some r.src, launch := g.launch, core := g.core, tile := r.size
      off := 64 * r.op, data := r.data, tag := some (r.src, r.tag) }]
/-- A request is checked, then served or refused with its code. -/
def serveReq (r : Req) : Action := look fun s =>
  match reqCheck s r with
  | 0 => if r.ty = 6 then serveArrival r else serveMemory r
  | c => replyTo r 8 c 0 0 []
/-- A request flit: a load is served at once; one with data waits for the flit that carries them. -/
def takeRequest (f : Flit) : Action := look fun s =>
  if f.ty == 0 then serveReq (reqOf f [])
  else
    let mine (g : Flit) : Bool := g.src == f.src && g.tag == f.tag && g.ty == f.ty
    match s.fabric.inbox.find? mine with
    | none => upd (.fabric { s.fabric with inbox := s.fabric.inbox ++ [f] })
    | some h => acts [upd (.fabric { s.fabric with inbox := s.fabric.inbox.filter fun g => !mine g }), serveReq (reqOf h f.payload)]

/-! ### Arriving flits (R352, R380, R386, R388) -/

/-- A demand for the round in force from a member of the group. -/
def takeDemand (f : Flit) : Action := look fun s =>
  if capGroup s = 0 || fieldAt f.payload 4 4 != capGroup s || fieldAt f.payload 8 8 != roundNo s then skip
  else upd (.demands (put s.demands (fieldAt f.payload 0 4) (roundNo s, fieldAt f.payload 16 4)))
/-- The access of a flit that fails its check ends in error, at its source: a relay reports it there in the target's name. -/
def badFlit (f : Flit) : Action := look fun s =>
  if f.ty == 9 then skip
  else if f.dst.toNat != ownPeer s then
    (let (src, dst) := if isRequest f then (f.dst, f.src) else (f.src, f.dst)
     sendTo dst.toNat [sealed { mkFlit s dst.toNat 0 0 8 0 f.tag.toNat [] with src := src }])
  else if isRequest f then sendTo f.src.toNat [mkFlit s f.src.toNat 0 0 8 0 f.tag.toNat []]
  else match remoteOfFlit s f with
    | some r => acts [chargeHops r (flitHops f s), endInError r 0]
    | none => skip
/-- The fibre pairs that a flit may have come by in the slot in force: those that connect its sender, any for one from a relay (R384, R388). -/
def pairsOf (s : State) (f : Flit) : List Nat :=
  if f.src.toNat == ownPeer s && f.dst.toNat == ownPeer s then []
  else if f.hop == 2 then List.range 256
  else (List.range 256).filter fun k => partner (ownPeer s) k (slotNow s) == f.src.toNat
/-- A flit as this package's receiver makes it out of the channels of the width that the preamble names: one whose receive ring is off may be
misread (R389, R482). The sender's width is an input. -/
def received (s : State) (t : Nat) (f : Flit) : Flit :=
  let ps := pairsOf s f
  let n := Config.freeChoice t / 2
  let k := nth ps (n % max 1 ps.length) 0
  let w := 2 ^ (1 + n / 256 % 3)
  let bad (c : Nat) : Bool := rxOff s t k c && n / 768 % 2 == 0
  if ps.isEmpty || !(List.range w).any bad then f
  else flitOf (Light.bytes ⟨k, w, mapI (fun c bs => if bad c then bs.map (~~~ ·) else bs) (stripes w (flitBytes f))⟩) f.cost f.fill
/-- Flits that the relay region holds: none while the fabric is disabled (R16, R386). -/
def relayRoom (s : State) : Nat := if s.flash.fabric then 33554432 / 80 else 0
/-- R388: a flit arrives. Without light there is none (R431, R434). -/
def execFlitReceive (f : Flit) (s : State) : Host.Outcome State Fault Refusal :=
  event (withFree fun t => look fun s =>
    if !powered s then skip
    else if !flitOk (received s t f) then badFlit f
    else if f.dst.toNat != ownPeer s then
      (if f.hop == 1 && decide (s.fabric.relay.length < relayRoom s) then
        acts [relayCharge, upd (.nextId (s.nextId + 1)),
          upd (.fabric { s.fabric with relay := s.fabric.relay ++ [(s.nextId, s.now, sealed { f with hop := 2 })] })]
      else skip)
    else if isRequest f then takeRequest f
    else if f.ty == 9 then takeDemand f
    else if f.ty == 8 && nbits f.off.toNat 20 1 == 1 then losePeer (nbits f.off.toNat 8 12)
    else match remoteOfFlit s f with
      | some r => deliverReply r f
      | none => skip) s

/-! ### Windows of the own package (R377) -/

/-- A flit for the own package goes in once those of its access before it have, a request once the earlier writes of its thread to the same
bytes are performed and its earlier reads of them made (R206, R218). -/
def ownReady (s : State) (f : Flit) : Bool :=
  let l := findD s.fabric.tx (ownPeer s) []
  (l.find? fun g => g.ty == f.ty && g.tag == f.tag) == some f && (!isRequest f || match remoteOfFlit s f with
    | none => true
    | some r => match ownRun s r with
      | none => true
      | some (pa, n) =>
        let p : Point := ⟨0, r.ctx, r.wk, if 4 ≤ r.kind then BitVec.allOnes 64 else laneBit r.lane, r.seq⟩
        epiClear s p pa n && unitsClear s p pa n && loadsClear s p pa n &&
        s.stores.all fun q => !(q.po.same p && decide (q.po.age < r.seq) && q.hits pa n))
def ownFlits (s : State) : List Flit := (findD s.fabric.tx (ownPeer s) []).filter (ownReady s)
/-- It leaves and arrives, with no hop. -/
def ownDeliver (f : Flit) : Action := acts [
  fun s => [.fabric { s.fabric with tx := put s.fabric.tx (ownPeer s) ((findD s.fabric.tx (ownPeer s) []).erase f) }],
  noteSent f 0 0, fun s => [.agenda (s.agenda ++ [.flitReceive f])]]

/-! ### Samples (R391, R394) -/

/-- The rotor of a package's next direct slot to a peer, the lowest if there are several (R385). -/
def directRotor (m a b : Nat) : Option Nat :=
  minNat? ((connects (a ^^^ b)).filterMap fun e => if (e.2 + 31 - m) % 32 + 1 = slotsUntil m a b then some e.1 else none)
/-- Flits waiting for a transmitter (R394, R483): those whose path leads through it now, and those held for its direct slot, among them one that
a relay has refused. -/
def queueDepth (s : State) (k : Nat) : Nat :=
  let held (d : Nat) : Bool := directRotor (slotNow s) (ownPeer s) d == some k
  let mine (d : Nat) : Bool := match pathTo s d with
    | .direct j => j == k
    | .relay j _ => if s.fabric.refused.contains d then held d else j == k
    | .hold => held d
  min 65535 (((s.fabric.tx.filter fun e => e.1 != ownPeer s && mine e.1).map fun e => e.2.length).foldl (· + ·) 0)
def bumpSeq (r : DWord) (v : Nat) : DWord := dset (dset r 16 16 (dbits r 16 16 + 1)) 0 16 v
/-- R391, R394: each 1 µs. -/
def execOpticsSample (s : State) : Host.Outcome State Fault Refusal :=
  event (withFree fun t => acts [
    forEach (List.range 4096) fun n => modReg .ompd n fun r => bumpSeq r (Config.freePower t n % 65536),
    look fun s => forEach (List.range 256) fun k => modReg .oqd k fun r => bumpSeq r (queueDepth s k)]) s

end Sys2Proof.Machine
end

