-- ==== Sys2Proof/Machine/Kebinlink.lean ====
section
/-! DEFINITION. The host link and its requests (R19 to R21, R439). -/
namespace Sys2Proof.Machine

/-! ### Receiving a request (R19, R20) -/

def rsOk : Nat := 0
def rsNotReady : Nat := 1
def rsBad : Nat := 2
def rsDenied : Nat := 3
def rsFault : Nat := 4
def rsBusy : Nat := 5
/-- The kinds of R21. -/
inductive ReqKind where | status | cert | attest | bringup | mapq | memrd | memwr
  deriving DecidableEq, Repr
def ReqKind.op : ReqKind → BitVec 16
  | .status => 0x0001 | .cert => 0x0002 | .attest => 0x0003 | .bringup => 0x0010 | .mapq => 0x0020 | .memrd => 0x0030 | .memwr => 0x0031
/-- The kind that an OP names; none if it is unassigned. -/
def reqKind (op : BitVec 16) : Option ReqKind :=
  [ReqKind.status, .cert, .attest, .bringup, .mapq, .memrd, .memwr].find? fun k => k.op == op
/-- A request as it comes over the link: the 32-byte header, then the payload (R20). -/
def parseReq (b : List Byte) : KReq :=
  let f (o n : Nat) : Nat := fieldAt b o n
  ⟨BitVec.ofNat 16 (f 0 2), f 2 2, BitVec.ofNat 32 (f 4 4), BitVec.ofNat 32 (f 8 4), BitVec.ofNat 32 (f 0xC 4), BitVec.ofNat 64 (f 0x10 8),
    BitVec.ofNat 64 (f 0x18 8), b.drop 32⟩
/-- A response as it goes over the link. -/
def respBytes (r : KResp) : List Byte :=
  le 2 r.op.toNat ++ le 2 r.payload.length ++ le 4 r.tag.toNat ++ le 4 r.rstat ++ le 4 r.arg0.toNat ++ le 8 r.arg1.toNat ++ zeros 8 ++ r.payload
/-- The payload that the header's LEN delimits. -/
def reqBody (q : KReq) : List Byte := (q.payload ++ zeros q.len).take q.len
/-- Fields that every kind leaves zero, and those that this kind does. -/
def extraFields (q : KReq) (arg0 arg1 : Bool) : Bool :=
  q.rstat != 0 || q.arg2 != 0 || (!arg0 && q.arg0 != 0) || (!arg1 && q.arg1 != 0)
/-- Requests outstanding; one that is only waiting to be told BUSY has no effect on their number. -/
def outstanding (l : Link) : Nat := (l.pending.filter fun p => (p.done.map (·.rstat)) != some rsBusy).length
def reply (id rstat : Nat) : Action := answerLink id rstat 0 0 []

/-- R19: lanes trained: all eight, lanes 0 to 3, lanes 0 and 1, or none. -/
def trainedLanes (m : BitVec 8) : Nat := if m = 0xFF then 8 else if m &&& 0xF = 0xF then 4 else if m &&& 3 = 3 then 2 else 0
def execKebinlinkTraining (lanes : BitVec 8) (s : State) : Host.Outcome State Fault Refusal :=
  event (fun s => [.link { s.link with lanes := trainedLanes lanes }]) s

/-! ### Status and identity (R21, R430, R439) -/

def reg4 (s : State) (k : RegKind) (n : Nat) : List Byte := le 4 (regN s k n)
/-- R21: STATUS. -/
def statusReq (_ : KReq) (id : Nat) : Action := look fun s =>
  answerLink id rsOk 0 0 (reg4 s .bstat 0 ++ (List.range 6).flatMap (reg4 s .istat))
/-- R21: CERT. -/
def certReq (q : KReq) (id : Nat) : Action := look fun s =>
  answerLink id rsOk (wd s.flash.cert.length) 0 ((s.flash.cert.drop q.arg0.toNat).take 4096)
/-- Bytes 0x000 to 0x0FF of the report of R439. -/
def attestBytes (s : State) (nonce : List Byte) : List Byte :=
  le 4 1 ++ reg4 s .bstat 0 ++ le 8 s.boot.bootid.toNat ++ nonce ++ s.boot.m ++ sha256 s.flash.config ++ zeros 144
/-- The identity could not be derived (R434). -/
def identFailed (s : State) : Bool := devState s == 2 && dbits (reg s .bstat 0) 16 8 == 1
/-- R439: ATTEST. -/
def attestReq (q : KReq) (id : Nat) : Action := look fun s =>
  if identFailed s then reply id rsDenied
  else
    let b := attestBytes s (reqBody q)
    answerLink id rsOk 0 0 (b ++ (List.range 384).map (Config.sign b))
/-- R21, R431: BRINGUP. -/
def bringupReq (_ : KReq) (id : Nat) : Action := look fun s =>
  if devState s != 2 && devState s != 4 then reply id rsDenied
  else acts [reply id rsOk, withFree fun t => startBringup (Config.hbmKept t)]

/-! ### Queue mapping and memory (R21, R316) -/

/-- R316: MAPQ. -/
def mapqReq (q : KReq) (id : Nat) : Action := look fun s =>
  let ctx := wbits q.arg0 0 10
  requestMap (ctxTenant s ctx) ⟨wbits q.arg0 16 1 == 1, ctx, q.arg1, q.arg1.toNat % 64 != 0, some id⟩
/-- Length, alignment and unused bits of a memory request. -/
def memReqBad (q : KReq) : Bool :=
  let n := wbits q.arg0 16 16
  extraFields q true true || wbits q.arg0 13 3 != 0 || wbits q.arg0 10 2 != 0 || q.arg1.toNat % 16 != 0 || n % 16 != 0 ||
  n < 16 || 4096 < n
/-- Table lines that the translation of a range reads. -/
def rangeLines (s : State) (ctx : Nat) (a : AccKind) (ea n : Nat) : List Nat :=
  (List.range ((ea + n - 1) / 65536 - ea / 65536 + 1)).flatMap fun i =>
    match xlateCtx s ctx true a (dw (if i = 0 then ea else (ea / 65536 + i) * 65536)) with
    | .ok x => x.lines
    | .error f => f.lines
/-- Validity and translation of a request's range: its 16-byte accesses are then to be made (R211). -/
def hostAccess (write : Bool) (q : KReq) (id : Nat) : Action := look fun s =>
  let ctx := wbits q.arg0 0 10
  let n := wbits q.arg0 16 16
  let a : AccKind := if write then .write else .read
  if !ctxValid s ctx then reply id rsDenied
  else acts [homeAccess none 0 false (rangeLines s ctx a q.arg1.toNat n),
    match xlateAll s ctx true a q.arg1 n with
    | .error (ea, x) => answerLink id rsFault (syndrome a x) ea []
    | .ok _ =>
      let units := (List.range (n / 16)).filterMap fun i => (paOf s ctx true a (q.arg1.toNat + 16 * i)).map fun pa => (16 * i, pa)
      acts [homeAccess none 0 write (dedup (units.map fun u => u.2 / 64)),
        fun s => [.link { s.link with pending := s.link.pending.map fun p =>
          if p.id = id then { p with job := some ⟨ctx, write, wbits q.arg0 12 1 == 1, units, if write then reqBody q else zeros n⟩ } else p }]]]

/-! ### Serving a request (R20, R21) -/

/-- Fields that a kind does not use, a LEN that is not its own, and what else it refuses. -/
def reqBad (q : KReq) : ReqKind → Bool
  | .status | .bringup => extraFields q false false || q.len != 0
  | .cert => extraFields q true false || q.len != 0 || q.arg0.toNat % 64 != 0
  | .attest => extraFields q false false || q.len != 32
  | .mapq => extraFields q true true || q.len != 0 || q.arg0.toNat / 2 ^ 17 != 0 || wbits q.arg0 10 6 != 0
  | .memrd => memReqBad q || q.len != 0
  | .memwr => memReqBad q || q.len != wbits q.arg0 16 16
/-- Served only when the device is ready. -/
def ReqKind.ready : ReqKind → Bool
  | .mapq | .memrd | .memwr => true
  | _ => false
def perform : ReqKind → KReq → Nat → Action
  | .status => statusReq
  | .cert => certReq
  | .attest => attestReq
  | .bringup => bringupReq
  | .mapq => mapqReq
  | .memrd => hostAccess false
  | .memwr => hostAccess true
/-- A request under its name: one of no kind is BAD_REQUEST in any STATE (log 40). -/
def serve (q : KReq) (id : Nat) : Action := look fun s => match reqKind q.op with
  | none => reply id rsBad
  | some k => if k.ready && devState s != 1 then reply id rsNotReady else if reqBad q k then reply id rsBad else perform k q id
/-- A MEMRD with ACQ that has accesses to make, or a request that such a one holds back: what follows waits (R21). -/
def KPend.holds (p : KPend) : Bool := p.done.isNone && (p.req.isSome || match p.job with
  | some j => !j.write && j.order && !j.units.isEmpty
  | none => false)
/-- A request of the link: dropped while the link is down, BUSY in its turn beyond 64 outstanding, else served under a fresh name, in its turn
after an acquire. -/
def receive (q : KReq) : Action := look fun s =>
  if s.link.lanes = 0 then skip
  else withId fun id => acts [
    fun s => [.link { s.link with pending := s.link.pending ++ [⟨id, q.op, q.tag, none, none, none⟩] }],
    if 64 ≤ outstanding s.link then answerLink id rsBusy 0 0 []
    else if s.link.pending.any KPend.holds then
      fun s => [.link { s.link with pending := s.link.pending.map fun p => if p.id = id then { p with req := some q } else p }]
    else serve q id]
/-- The first request that an acquire held back is served once none before it holds it. -/
def serveHeld (s : State) : Option Action :=
  (s.link.pending.find? KPend.holds).bind fun p => p.req.map fun q => acts [
    fun s => [.link { s.link with pending := s.link.pending.map fun r => if r.id = p.id then { r with req := none } else r }],
    serve q p.id]
/-- The event is that of a request whose OP names the kind. -/
def ofKind (k : ReqKind) (q : KReq) : Action := if reqKind q.op = some k then receive q else skip
def execStatus (q : KReq) (s : State) : Host.Outcome State Fault Refusal := event (ofKind .status q) s
def execCert (q : KReq) (s : State) : Host.Outcome State Fault Refusal := event (ofKind .cert q) s
def execAttest (q : KReq) (s : State) : Host.Outcome State Fault Refusal := event (ofKind .attest q) s
def execBringup (q : KReq) (s : State) : Host.Outcome State Fault Refusal := event (ofKind .bringup q) s
def execMapq (q : KReq) (s : State) : Host.Outcome State Fault Refusal := event (ofKind .mapq q) s
def execMemrd (q : KReq) (s : State) : Host.Outcome State Fault Refusal := event (ofKind .memrd q) s
def execMemwr (q : KReq) (s : State) : Host.Outcome State Fault Refusal := event (ofKind .memwr q) s
/-- R20: an unassigned OP. -/
def execUnassignedOpRequest (q : KReq) (s : State) : Host.Outcome State Fault Refusal :=
  event (if (reqKind q.op).isSome then skip else receive q) s

/-! ### The accesses of the host (R21, R211) -/

/-- The accesses that an unanswered request still has to make. -/
def KPend.left (p : KPend) : List (Nat × Nat) := match p.done, p.job with | none, some j => j.units | _, _ => []
/-- An access can be made: an earlier one of the host is not on the same bytes, and a REL follows every earlier access (R217). -/
def unitReady (s : State) (p : KPend) (u : Nat × Nat) : Bool :=
  match p.job with
  | none => false
  | some j =>
    (p.left.takeWhile fun v => v.1 != u.1).all (fun v => v.2 != u.2) &&
    (s.link.pending.takeWhile fun r => r.id != p.id).all fun r => !((r.left.any fun v => v.2 == u.2) || (j.write && j.order && !r.left.isEmpty))
/-- It is made: 16 bytes at their home; the last one lets the request be answered. -/
def hostUnit (id : Nat) (u : Nat × Nat) : Action := look fun s => match s.link.pending.find? fun p => p.id == id with
  | none => skip
  | some p => match p.job with
    | none => skip
    | some j =>
      let data := if j.write then j.data else j.data.take u.1 ++ memBytes s.mem u.2 16 ++ j.data.drop (u.1 + 16)
      let units := j.units.filter fun v => v.1 != u.1
      acts [if j.write then quietWrite none u.2 ((j.data.drop u.1).take 16) else skip,
        fun s => [.link { s.link with pending := s.link.pending.map fun r =>
          if r.id = id then { r with job := some { j with units := units, data := data } } else r }],
        if units.isEmpty then answerLink id rsOk 0 0 (if j.write then [] else data) else skip]
/-- The accesses of the host that can be made now. -/
def hostUnits (s : State) : List (Nat × Nat × Nat) := s.link.pending.flatMap fun p => (p.left.filter (unitReady s p)).map fun u => (p.id, u)

end Sys2Proof.Machine
end

