-- ==== Sys2Proof/Machine/Ready.lean ====
section
/-! DEFINITION. Groups and their readiness (R30, R31, R269 to R272, R276, R277, R279) and the issue selector (R306, R328). -/
namespace Sys2Proof.Machine

/-! ### Candidates -/

/-- The threads that may issue: groups, and each ejected thread alone. -/
structure Cand where
  wk : Nat
  pc : DWord
  mask : Mask
  ejected : Bool
  deriving DecidableEq, Repr
/-- The skip count of a group (R270). -/
def skipOf (w : Warp) (m : Mask) : Nat := (minNat? ((lanesOf m).map fun i => (laneOf w i).skip)).getD 0

/-! ### Readiness (R269, R272) -/

/-- The issuer that a candidate would be at an instruction. -/
def Cand.cur (c : Cand) (h : BlockHdr) : Cur := ⟨c.wk, c.mask, c.pc, h.slots, h.join, c.ejected, false⟩
def Cand.iss (s : State) (c : Cand) (h : BlockHdr) (i : Instr) : Option Iss := issOf { s with cur := some (c.cur h) } i
/-- The lanes a lane-wise wait leaves free, or all of them (R272). -/
def arrivedLanes (x : Iss) : Mask :=
  let waits (i : Nat) : Bool := (x.wins i).any fun v => v.left == 0 && x.w.outs.any fun o => o.id == v.id && splitWait x o i
  if x.splits then maskOf x.w.width fun i => inMask x.mask i && !waits i else x.mask
/-- Whether slot 0 of a valid JOIN block lies at a PC. -/
def atJoin (s : State) (w : Warp) (pc : DWord) : Bool :=
  slotOf pc == 0 && (match fetchBlock s w pc with
    | .ok (b, _) => match blockHdr b with | some h => h.join | none => false
    | .error _ => false)
/-- A group still waits at a JOIN block (R279): a thread of its wait set is ejected or below. The one thread of a firmware core has no
others to wait for. -/
def joinWaits (w : Warp) (c : Cand) : Bool := w.fw.isNone && (lanesOf c.mask).any fun i =>
  match (laneOf w i).join with
  | some set => (lanesOf set).any fun j =>
      let l := laneOf w j
      l.active && (l.st == .ejected || (l.st == groupSt w && decide (l.pc.toNat < c.pc.toNat)))
  | none => true
/-- The outcome of offering a candidate the issue slot: none while it is blocked. -/
inductive Offer where
  | trap (c : Cand) (cause : Nat) (fva : DWord) (synd : Word)
  | issue (cur : Cur) (i : Instr)
  deriving DecidableEq, Repr
/-- Whether a candidate is ready, and as what (R269). -/
def offer (s : State) (w : Warp) (c : Cand) : Option Offer :=
  match probe s w c.pc with
  | .trap pc cause fva synd =>
    if !c.ejected && atJoin s w c.pc && joinWaits w c then none
    else match c.iss s ⟨5, atJoin s w c.pc, false, false⟩ (.nop ⟨false, .pt, 0, 0, false, false, 0⟩ ⟨.none, .none, .none, .none, .none⟩) with
    | some x => if x.blocked then none else some (.trap { c with pc := pc } cause fva synd)
    | none => none
  | .instr i h =>
    if h.join && slotOf c.pc == 0 && !c.ejected && joinWaits w c then none
    else match c.iss s h i with
      | none => none
      | some x =>
        let m := arrivedLanes x
        let c := { c with mask := m }
        match if m = 0 then none else c.iss s h i with
        | none => none
        | some x => if gate s x (x.g != 0 && busyOf i x s) == .wait then none else some (.issue (c.cur h) i)
/-- Whether a warp's context may issue (R27, R337, R410), or its firmware core is running (R440): not before the device is up, when
only the root of trust sends messages (R433; log 72). -/
def mayIssue (s : State) (w : Warp) : Bool :=
  match w.fw with
  | some c => (fwOf s c).status == 1 && !(fwOf s c).crash && (c == 0 || powered s)
  | none =>
    let c := ctxOf s w.ctx
    c.resident && !c.energyOut && c.stop == 0
/-- The ready groups of a warp, by rising PC; one that a remote error is to trap issues nothing more (R408). -/
def readyGroups (s : State) (k : Nat) (w : Warp) : List (Cand × Offer) :=
  if mayIssue s w then (groupsOf w).filterMap fun (pc, m) =>
    let c : Cand := ⟨k, pc, m, false⟩
    if errHolds s k w m then none else (offer s w c).map fun o => (c, o)
  else []
/-- The group a selected warp issues (R270): the lowest with a skip count of 1024, else the lowest. -/
def pickGroup (w : Warp) (l : List (Cand × Offer)) : Option (Cand × Offer) :=
  (l.find? fun e => decide (1024 ≤ skipOf w e.1.mask)).orElse fun _ => l.head?
/-- Ejected threads ready to issue, each with its well slot. -/
def readyEjected (s : State) (k : Nat) (w : Warp) : List (Nat × Cand × Offer) :=
  if mayIssue s w && w.level == 0 then ((lanesOf (w.lanesIn fun l => l.st == .ejected && l.wait == .none)).filterMap fun i =>
    let c : Cand := ⟨k, (laneOf w i).pc, BitVec.ofNat 64 (2 ^ i), true⟩
    (offer s w c).map fun o => ((laneOf w i).well, c, o))
  else []
/-- The next of the ready threads after the one that issued last, in turn. -/
def nextTurn (last : Option Nat) (l : List (Nat × Cand × Offer)) : Option (Cand × Offer) :=
  let l := sortBy (fun (a b : Nat × Cand × Offer) => decide (a.1 ≤ b.1)) l
  let later := l.filter fun e => match last with | some n => decide (n < e.1) | none => true
  ((later ++ l).head?).map (·.2)
/-- The ejected thread that a scalar latency core of a cluster issues next, of its four hardware threads in turn (R12, R266). -/
def wellOffer (s : State) (cl n : Nat) : Option (Cand × Offer) :=
  let l := (s.warps.filter fun e => e.2.fw.isNone && clusterNo e.2.core == cl).flatMap fun e => readyEjected s e.1 e.2
  nextTurn (find (clusterOf s cl).turn n) (l.filter fun e => e.1 / 4 == n)

/-! ### The issue selector (R306, R328) -/

/-- The order of the selector (R328): context, warp index, and the workgroup of warps that agree in both. -/
def selLe (a b : Nat × Nat × Nat) : Bool :=
  decide (a.1 < b.1) || (a.1 == b.1 && (decide (a.2.1 < b.2.1) || (a.2.1 == b.2.1 && decide (a.2.2 ≤ b.2.2))))
def Warp.selKey (w : Warp) : Nat × Nat × Nat := (w.ctx, w.index, w.wg)
/-- Warps of a core in the order of the selector, starting after the one selected last. -/
def coreWarps (s : State) (core : Nat) : List (Nat × Warp) :=
  let ws := s.warps.filter fun e => e.2.fw.isNone && e.2.core == core
  let l := sortBy (fun a b => selLe a.2.selKey b.2.selKey) ws
  match (coreOf s core).sel with
  | none => l
  | some c => (l.filter fun e => !selLe e.2.selKey c) ++ l.filter fun e => selLe e.2.selKey c
/-- The warps of a core with a ready group, in that order, with the group each would issue. -/
def readyWarps (s : State) (core : Nat) : List (Cand × Offer) :=
  (coreWarps s core).filterMap fun (k, w) => pickGroup w (readyGroups s k w)
/-- A warp held by `yield` waits while another that is ready has not been offered a selection since (R306). -/
def heldBack (s : State) (ready : List (Cand × Offer)) (k : Nat) : Bool :=
  match (find s.warps k).bind (·.hold) with
  | none => false
  | some l => ready.any fun e => e.1.wk != k && !l.contains e.1.wk
/-- The group a core issues. -/
def coreOffer (s : State) (core : Nat) : Option (Cand × Offer) :=
  let ready := readyWarps s core
  (ready.find? fun e => !heldBack s ready e.1.wk).orElse fun _ => ready.head?
/-- The lane quarters of a warp (R28). -/
def quartersOf (w : Warp) : List Nat :=
  if w.width = 16 then [w.index % 4] else if w.width = 32 then [2 * (w.index % 2), 2 * (w.index % 2) + 1] else [0, 1, 2, 3]
/-- The next group that a core adds to its open slot (R32, R328). -/
def coOffer (s : State) (core : Nat) : Option (Cand × Cur × Instr) :=
  match (coreOf s core).slot with
  | none => none
  | some q =>
    if q.t != s.now then none
    else
      let ready := readyWarps s core
      ready.findSome? fun
        | (_, .trap _ _ _ _) => none
        | (c, .issue cur i) => match find s.warps c.wk with
          | none => none
          | some w =>
            if w.ctx == q.ctx && cur.pc == q.pc && (quartersOf w).all (fun x => !q.quarters.contains x) && coIssuable i &&
              !heldBack s ready c.wk then some (c, { cur with co := true }, i) else none
/-- Other ready groups of a warp that issues are passed over (R270). -/
def passOver (s : State) (c : Cand) : Action := modWarp c.wk fun w =>
  ((readyGroups s c.wk w).filter fun e => e.1.pc != c.pc).foldl (fun w e =>
    let n := skipOf w e.1.mask + 1
    w.mapLanes e.1.mask fun _ l => { l with skip := n }) w
/-- A warp of the core is offered a selection: holds that waited for no other warp end (R306). -/
def noteOffer (s : State) (core k : Nat) : Action :=
  let ready := readyWarps s core
  forEach (s.warps.filter fun e => e.2.fw.isNone && e.2.core == core && e.2.hold.isSome) fun (j, _) => modWarp j fun w =>
    let l := k :: w.hold.getD []
    { w with hold := if j = k || ready.all (fun e => e.1.wk == j || l.contains e.1.wk) then none else some l }
/-- The candidate takes the slot: the selector moves on, and the walk of its fetch is noted. -/
def takeSlot (c : Cand) : Action := look fun s =>
  match find s.warps c.wk with
  | none => skip
  | some w =>
    if c.ejected then acts [noteFetch c.wk w c.pc, modCluster (clusterNo w.core) fun r =>
      let n := (laneOf w (lowest c.mask)).well
      { r with turn := put r.turn (n / 4) n }]
    else if w.fw.isSome then acts [noteFetch c.wk w c.pc, passOver s c]
    else acts [
      noteFetch c.wk w c.pc,
      modCore w.core fun r => { r with sel := some w.selKey, slot := none },
      noteOffer s w.core c.wk,
      passOver s c]
/-- The slot stays open for co-issue once an instruction that allows it issues (R32). -/
def openSlot (cur : Cur) (i : Instr) : Action := look fun s =>
  match issOf { s with cur := some cur } i with
  | none => skip
  | some x =>
    if x.ejected || x.w.fw.isSome || !coIssuable i || gate s x (x.g != 0 && busyOf i x s) != .go then skip
    else modCore x.w.core fun r => { r with slot := some ⟨s.now, x.w.ctx, x.pc, quartersOf x.w⟩ }
/-- A group joins the open slot of its core. -/
def joinSlot (c : Cand) : Action := look fun s =>
  match find s.warps c.wk with
  | none => skip
  | some w => acts [
      noteFetch c.wk w c.pc,
      modCore w.core fun r => { r with slot := r.slot.map fun q => { q with quarters := quartersOf w ++ q.quarters } },
      passOver s c]

/-! ### Arrivals at JOIN blocks (R277, R279) -/

/-- The wait set of a group that arrives, or the one of the group it merges into; of a handler's group, among its own lanes (R280; log 21). -/
def joinSet (s : State) (w : Warp) (pc : DWord) (m : Mask) : Mask :=
  match (lanesOf m).findSome? fun i => (laneOf w i).join with
  | some set => set
  | none =>
    if (match launchOf s w with | some l => l.lr.rjt == 0 | none => true) then 0
    else w.lanesIn fun l => l.active && (l.st == .ejected || (l.st == groupSt w && decide (l.pc.toNat < pc.toNat)))
/-- A warp's arrivals: ejected threads return, and groups without a wait set take one. -/
def arriveWarp (s : State) (k : Nat) (w : Warp) : Option Action :=
  if !mayIssue s w || w.fw.isSome then none else
  match w.lanes.find? fun l => l.st == .ejected && atJoin s w l.pc with
  | some l => some (modWarp k fun w => w.mapLanes (w.lanesIn fun x => x.st == .ejected && x.pc == l.pc) fun _ x => { x with st := .grouped, join := none })
  | none => match (groupsOf w).find? fun e => ((lanesOf e.2).any fun i => (laneOf w i).join == none) && atJoin s w e.1 with
    | some (pc, m) => some (modWarp k fun w => w.mapLanes m fun _ l => { l with join := some (joinSet s w pc m) })
    | none => none
def arrivals (s : State) : Option Action := s.warps.findSome? fun (k, w) => arriveWarp s k w

end Sys2Proof.Machine
end

