-- ==== Sys2Proof/Machine/Watchdog.lean ====
section
/-! DEFINITION. The sink watchdog and its hang report (R289 to R291). -/
namespace Sys2Proof.Machine

/-! ### What a thread waits for (R291) -/

/-- The kinds of offset 0x20, by number: 0 ready, 1 operand, 2 tile, 3 barrier, 4 phase, 5 JOIN, 6 convergence register, 7 table, card or
spawn slot, 8 ejected, 9 fence or the limit of R411, 10 timed wait, 11 queue room, 12 trap frame or `retr`. -/
def waitKind : Wait → Nat
  | .none => 0 | .barrier _ => 3 | .phase => 4 | .timed _ => 10 | .frame => 12 | .slot => 7 | .room => 11 | .retr _ => 12 | .table => 1
/-- What an unfinished instruction makes others wait for. -/
def outWaitKind (o : Outst) : Nat :=
  match o.kind with
  | .tile _ _ _ _ | .put => 2
  | .fence _ _ => 9
  | _ => 1
/-- The wait of an instruction's own entry: of a matrix instruction, for the signatures of its declaration first. -/
def busyKind (s : State) (w : Warp) : Instr → Nat
  | .cvdecl _ _ | .sign _ _ => 6
  | .mmaBf16 _ _ _ _ o | .mmaSpBf16 _ _ _ _ o => match wgOf s w with
    | some g => if (cvOf g (cvNo o.a)).latch.isNone && !cvComplete s (cvOf g (cvNo o.a)) then 6 else 7
    | none => 7
  | .card _ _ => 7
  | .take _ _ _ | .tarm _ _ => 2
  | .accZero _ _ | .accFree _ _ | .accRd _ _ | .accWr _ _ | .bra _ _ | .jtb _ _ _ => 1
  | .enq _ _ => 11
  | _ => 9
/-- Why a candidate that gets no offer is blocked. -/
def blockKind (s : State) (w : Warp) (c : Cand) : Nat :=
  match probe s w c.pc with
  | .trap _ _ _ _ => if !c.ejected && atJoin s w c.pc && joinWaits w c then 5 else 1
  | .instr i h =>
    if h.join && slotOf c.pc == 0 && !c.ejected && joinWaits w c then 5
    else match c.iss s h i with
      | none => 0
      | some x =>
        if x.blocked then
          match x.w.outs.find? fun o => (lanesOf x.mask).any fun l => (x.wins l).any fun v => v.left == 0 && v.id == o.id with
          | some o => outWaitKind o
          | none => 1
        else if needsWhole i && !x.whole then 5
        else if x.locked s then 6
        else if x.fenced then
          (if x.w.outs.any fun o => (match o.kind with | .tile _ _ done _ => !done && o.mask &&& x.mask != 0 | _ => false) then 2 else 9)
        else if takesEntry i && decide (16 ≤ x.w.outs.length) then 9
        else busyKind s w i
/-- The kind of one thread: of its own wait if it has one; a ready thread that its warp's handler holds up waits for that frame (log 36). -/
def threadKind (s : State) (k : Nat) (w : Warp) (i : Nat) : Nat :=
  let l := laneOf w i
  if l.st == .ejected then 8
  else if l.wait != .none then waitKind l.wait
  else
    let behind := l.st != groupSt w
    let v := if behind then { w with level := 0 } else w
    let t := if behind then { s with warps := put s.warps k v } else s
    let c : Cand := ⟨k, l.pc, lanesAt v l.st l.pc, false⟩
    match offer t v c with
    | some _ => if behind then 12 else 0
    | none => blockKind t v c
/-- Every thread of a context that has not ended: warp and lane, core, PC, kind. -/
structure Thread where
  core : Nat
  index : Nat
  pc : DWord
  kind : Nat
  since : Nat
  deriving DecidableEq, Repr
def threadsOf (s : State) (ctx : Nat) : List Thread :=
  (s.warps.filter fun e => e.2.ctx == ctx && e.2.fw.isNone).flatMap fun (k, w) =>
    (lanesOf w.activeSet).map fun i => ⟨w.core, w.index, (laneOf w i).pc, threadKind s k w i, (laneOf w i).since⟩

/-! ### The report and the stop -/

/-- The sample: of the blocked groups one whose wait began earliest, the choice among equals open, or the lowest PC of the first warp of the
first core. An ejected thread forms no group (R271). -/
def sampleOf (t : Nat) (l : List Thread) : Thread :=
  let blocked := l.filter fun x => x.kind != 0 && x.kind != 8
  let blocked := blocked.filter fun x => blocked.all fun y => decide (x.since ≤ y.since)
  if blocked.isEmpty then
    let groups := l.filter fun x => x.kind != 8
    let l := if groups.isEmpty then l else groups
    let core := (minNat? (l.map (·.core))).getD 0
    let index := (minNat? ((l.filter fun x => x.core == core).map (·.index))).getD 0
    let pcs := (l.filter fun x => x.core == core && x.index == index).map fun x => x.pc.toNat
    ⟨core, index, dw ((minNat? pcs).getD 0), 0, 0⟩
  else nth blocked (Config.freeChoice t % blocked.length) ⟨0, 0, 0, 0, 0⟩
/-- The least WDI among a context's launches in progress (R88, R289). -/
def intervalOf (s : State) (ctx : Nat) : Option Nat :=
  minNat? ((s.launches.filter fun e => e.2.ctx == ctx && e.2.status.isNone).map fun e => e.2.lr.wdi)
def hangReport (s : State) (ctx t : Nat) : List Byte :=
  let l := threadsOf s ctx
  let m := sampleOf t l
  let warps := (s.warps.filter fun e => e.2.ctx == ctx && e.2.fw.isNone && e.2.activeSet != 0).length
  le 4 ctx ++ le 4 1 ++ le 8 s.now ++ le 8 (ctxOf s ctx).lastSink ++ le 4 ((intervalOf s ctx).getD 0) ++ le 4 warps ++
  ((List.range 13).flatMap fun k => le 4 (l.filter fun x => x.kind == k).length) ++ zeros 4 ++
  le 8 m.pc.toNat ++ le 2 m.core ++ le 2 m.kind ++ zeros 28
/-- The count has reached the interval. -/
def hangDue (s : State) (ctx : Nat) : Bool :=
  (ctxOf s ctx).resident && (match intervalOf s ctx with
    | some n => decide (n ≤ (ctxOf s ctx).wd)
    | none => false)
/-- R290: the context is stopped and reported. -/
def execSinkWatchdogExpiry (ctx : Nat) (s : State) : Host.Outcome State Fault Refusal :=
  event (look fun s => if !hangDue s ctx then skip else withFree fun t => look fun s => acts [
    stopRank ctx stHang false (hangReport s ctx t), modCtx ctx fun c => { c with wd := 0 }]) s

end Sys2Proof.Machine
end

