-- ==== Sys2Proof/Machine/Dispatch.lean ====
section
/-! DEFINITION. One arm per constructor of `Instr`: each calls its meaning. -/
namespace Sys2Proof.Machine

/-- The meaning of an instruction or event in a state. -/
def exec (i : Instr) (s : State) : Host.Outcome State Fault Refusal :=
  match i with
  | .nop c o => Sys2Proof.Machine.execNop c o s
  | .add c ty o => Sys2Proof.Machine.execAdd c ty o s
  | .addRi c ty o => Sys2Proof.Machine.execAddRi c ty o s
  | .sub c ty o => Sys2Proof.Machine.execSub c ty o s
  | .subRi c ty o => Sys2Proof.Machine.execSubRi c ty o s
  | .addSat c ty o => Sys2Proof.Machine.execAddSat c ty o s
  | .subSat c ty o => Sys2Proof.Machine.execSubSat c ty o s
  | .mulLo c ty o => Sys2Proof.Machine.execMulLo c ty o s
  | .mulLoRi c ty o => Sys2Proof.Machine.execMulLoRi c ty o s
  | .mulHi c ty o => Sys2Proof.Machine.execMulHi c ty o s
  | .mulWide c ty o => Sys2Proof.Machine.execMulWide c ty o s
  | .madLo c ty o => Sys2Proof.Machine.execMadLo c ty o s
  | .madWide c ty o => Sys2Proof.Machine.execMadWide c ty o s
  | .min c ty o => Sys2Proof.Machine.execMin c ty o s
  | .max c ty o => Sys2Proof.Machine.execMax c ty o s
  | .minRi c ty o => Sys2Proof.Machine.execMinRi c ty o s
  | .maxRi c ty o => Sys2Proof.Machine.execMaxRi c ty o s
  | .neg c ty o => Sys2Proof.Machine.execNeg c ty o s
  | .abs c ty o => Sys2Proof.Machine.execAbs c ty o s
  | .absSat c ty o => Sys2Proof.Machine.execAbsSat c ty o s
  | .div c ty o => Sys2Proof.Machine.execDiv c ty o s
  | .rem c ty o => Sys2Proof.Machine.execRem c ty o s
  | .flgiRd c o => Sys2Proof.Machine.execFlgiRd c o s
  | .flgiClr c m o => Sys2Proof.Machine.execFlgiClr c m o s
  | .lcomb c f1 f2 o => Sys2Proof.Machine.execLcomb c f1 f2 o s
  | .andRi c o => Sys2Proof.Machine.execAndRi c o s
  | .orRi c o => Sys2Proof.Machine.execOrRi c o s
  | .xorRi c o => Sys2Proof.Machine.execXorRi c o s
  | .shl c ty o => Sys2Proof.Machine.execShl c ty o s
  | .shr c ty o => Sys2Proof.Machine.execShr c ty o s
  | .sar c ty o => Sys2Proof.Machine.execSar c ty o s
  | .bfe c ty o => Sys2Proof.Machine.execBfe c ty o s
  | .bfi c o => Sys2Proof.Machine.execBfi c o s
  | .popc c wide o => Sys2Proof.Machine.execPopc c wide o s
  | .clz c wide o => Sys2Proof.Machine.execClz c wide o s
  | .ctz c wide o => Sys2Proof.Machine.execCtz c wide o s
  | .brev c wide o => Sys2Proof.Machine.execBrev c wide o s
  | .sel c wide o => Sys2Proof.Machine.execSel c wide o s
  | .mov c wide o => Sys2Proof.Machine.execMov c wide o s
  | .movRi c o => Sys2Proof.Machine.execMovRi c o s
  | .lea c k uns o => Sys2Proof.Machine.execLea c k uns o s
  | .cmp c ty cond bop o => Sys2Proof.Machine.execCmp c ty cond bop o s
  | .cmpRi c ty cond o => Sys2Proof.Machine.execCmpRi c ty cond o s
  | .pcomb c f1 f2 o => Sys2Proof.Machine.execPcomb c f1 f2 o s
  | .movAS c o => Sys2Proof.Machine.execMovAS c o s
  | .amk c o => Sys2Proof.Machine.execAmk c o s
  | .matl c o => Sys2Proof.Machine.execMatl c o s
  | .bcst c o => Sys2Proof.Machine.execBcst c o s
  | .bcstRi c o => Sys2Proof.Machine.execBcstRi c o s
  | .agetBase c o => Sys2Proof.Machine.execAgetBase c o s
  | .agetStride c o => Sys2Proof.Machine.execAgetStride c o s
  | .rdlane c o => Sys2Proof.Machine.execRdlane c o s
  | .lanexSel c wide o => Sys2Proof.Machine.execLanexSel c wide o s
  | .lanexPat c wide o => Sys2Proof.Machine.execLanexPat c wide o s
  | .vote c mode o => Sys2Proof.Machine.execVote c mode o s
  | .fadd c ft o => Sys2Proof.Machine.execFadd c ft o s
  | .faddRi c ft o => Sys2Proof.Machine.execFaddRi c ft o s
  | .fsub c ft o => Sys2Proof.Machine.execFsub c ft o s
  | .fsubRi c ft o => Sys2Proof.Machine.execFsubRi c ft o s
  | .fmul c ft o => Sys2Proof.Machine.execFmul c ft o s
  | .fmulRi c ft o => Sys2Proof.Machine.execFmulRi c ft o s
  | .fma c ft o => Sys2Proof.Machine.execFma c ft o s
  | .fms c ft o => Sys2Proof.Machine.execFms c ft o s
  | .fnma c ft o => Sys2Proof.Machine.execFnma c ft o s
  | .fmin c ft o => Sys2Proof.Machine.execFmin c ft o s
  | .fmax c ft o => Sys2Proof.Machine.execFmax c ft o s
  | .fmed3 c ft o => Sys2Proof.Machine.execFmed3 c ft o s
  | .fclamp c ft o => Sys2Proof.Machine.execFclamp c ft o s
  | .fabs c ft o => Sys2Proof.Machine.execFabs c ft o s
  | .fneg c ft o => Sys2Proof.Machine.execFneg c ft o s
  | .fcmp c ft cond bop o => Sys2Proof.Machine.execFcmp c ft cond bop o s
  | .fflgRd c o => Sys2Proof.Machine.execFflgRd c o s
  | .fflgClr c m o => Sys2Proof.Machine.execFflgClr c m o s
  | .cvtF32 c sf rm sat o => Sys2Proof.Machine.execCvtF32 c sf rm sat o s
  | .cvtF16 c sf rm sat o => Sys2Proof.Machine.execCvtF16 c sf rm sat o s
  | .cvtBf16 c sf rm sat o => Sys2Proof.Machine.execCvtBf16 c sf rm sat o s
  | .cvtE4m3 c sf rm sat o => Sys2Proof.Machine.execCvtE4m3 c sf rm sat o s
  | .cvtE5m2 c sf rm sat o => Sys2Proof.Machine.execCvtE5m2 c sf rm sat o s
  | .cvtI32 c sf rm sat o => Sys2Proof.Machine.execCvtI32 c sf rm sat o s
  | .cvtN32 c sf rm sat o => Sys2Proof.Machine.execCvtN32 c sf rm sat o s
  | .cvtI64 c sf rm sat o => Sys2Proof.Machine.execCvtI64 c sf rm sat o s
  | .cvtN64 c sf rm sat o => Sys2Proof.Machine.execCvtN64 c sf rm sat o s
  | .cvtfTo c rm slot sat o => Sys2Proof.Machine.execCvtfTo c rm slot sat o s
  | .cvtfFrom c rm slot sat o => Sys2Proof.Machine.execCvtfFrom c rm slot sat o s
  | .bsdec c k o => Sys2Proof.Machine.execBsdec c k o s
  | .rngSeed c o => Sys2Proof.Machine.execRngSeed c o s
  | .rngRd c o => Sys2Proof.Machine.execRngRd c o s
  | .rngNext c o => Sys2Proof.Machine.execRngNext c o s
  | .frcp c ft o => Sys2Proof.Machine.execFrcp c ft o s
  | .frsq c ft o => Sys2Proof.Machine.execFrsq c ft o s
  | .fsqrt c ft o => Sys2Proof.Machine.execFsqrt c ft o s
  | .fex2 c ft o => Sys2Proof.Machine.execFex2 c ft o s
  | .flg2 c ft o => Sys2Proof.Machine.execFlg2 c ft o s
  | .fsinpi c ft o => Sys2Proof.Machine.execFsinpi c ft o s
  | .fcospi c ft o => Sys2Proof.Machine.execFcospi c ft o s
  | .ftanh c ft o => Sys2Proof.Machine.execFtanh c ft o s
  | .fdiv c ft o => Sys2Proof.Machine.execFdiv c ft o s
  | .cvdecl c o => Sys2Proof.Machine.execCvdecl c o s
  | .sign c o => Sys2Proof.Machine.execSign c o s
  | .mmaBf16 c n1 take z o => Sys2Proof.Machine.execMmaBf16 c n1 take z o s
  | .mmaSpBf16 c n1 take z o => Sys2Proof.Machine.execMmaSpBf16 c n1 take z o s
  | .matrixPassGrant cl => Sys2Proof.Machine.execMatrixPassGrant cl s
  | .matrixPassComplete cl id => Sys2Proof.Machine.execMatrixPassComplete cl id s
  | .accZero c o => Sys2Proof.Machine.execAccZero c o s
  | .accFree c o => Sys2Proof.Machine.execAccFree c o s
  | .accRd c o => Sys2Proof.Machine.execAccRd c o s
  | .accWr c o => Sys2Proof.Machine.execAccWr c o s
  | .epiSt c act scl bias tr o => Sys2Proof.Machine.execEpiSt c act scl bias tr o s
  | .epiT c act scl bias o => Sys2Proof.Machine.execEpiT c act scl bias o s
  | .epilogueAccepted wg id => Sys2Proof.Machine.execEpilogueAccepted wg id s
  | .ld c sz acq sc o => Sys2Proof.Machine.execLd c sz acq sc o s
  | .st c sz rel sc o => Sys2Proof.Machine.execSt c sz rel sc o s
  | .lds c sz tag o => Sys2Proof.Machine.execLds c sz tag o s
  | .sts c sz o => Sys2Proof.Machine.execSts c sz o s
  | .lcln c o => Sys2Proof.Machine.execLcln c o s
  | .atomAdd c ord sc nr wide o => Sys2Proof.Machine.execAtomAdd c ord sc nr wide o s
  | .atomSmin c ord sc nr wide o => Sys2Proof.Machine.execAtomSmin c ord sc nr wide o s
  | .atomUmin c ord sc nr wide o => Sys2Proof.Machine.execAtomUmin c ord sc nr wide o s
  | .atomSmax c ord sc nr wide o => Sys2Proof.Machine.execAtomSmax c ord sc nr wide o s
  | .atomUmax c ord sc nr wide o => Sys2Proof.Machine.execAtomUmax c ord sc nr wide o s
  | .atomAnd c ord sc nr wide o => Sys2Proof.Machine.execAtomAnd c ord sc nr wide o s
  | .atomOr c ord sc nr wide o => Sys2Proof.Machine.execAtomOr c ord sc nr wide o s
  | .atomXor c ord sc nr wide o => Sys2Proof.Machine.execAtomXor c ord sc nr wide o s
  | .atomExch c ord sc nr wide o => Sys2Proof.Machine.execAtomExch c ord sc nr wide o s
  | .atomCas c ord sc nr wide o => Sys2Proof.Machine.execAtomCas c ord sc nr wide o s
  | .atomFaddF32 c ord sc nr o => Sys2Proof.Machine.execAtomFaddF32 c ord sc nr o s
  | .fence c ord sc o => Sys2Proof.Machine.execFence c ord sc o s
  | .fenceComplete wk id => Sys2Proof.Machine.execFenceComplete wk id s
  | .memoryReply wk id lane => Sys2Proof.Machine.execMemoryReply wk id lane s
  | .storePerformed id => Sys2Proof.Machine.execStorePerformed id s
  | .pageWalkComplete id => Sys2Proof.Machine.execPageWalkComplete id s
  | .lineWriteback line => Sys2Proof.Machine.execLineWriteback line s
  | .tarm c o => Sys2Proof.Machine.execTarm c o s
  | .take c sz o => Sys2Proof.Machine.execTake c sz o s
  | .tileReadRetire wk id => Sys2Proof.Machine.execTileReadRetire wk id s
  | .putTRetry c unit o => Sys2Proof.Machine.execPutTRetry c unit o s
  | .putTRep c unit o => Sys2Proof.Machine.execPutTRep c unit o s
  | .tileArrival id => Sys2Proof.Machine.execTileArrival id s
  | .arrivalRetry id => Sys2Proof.Machine.execArrivalRetry id s
  | .sred c op o => Sys2Proof.Machine.execSred c op o s
  | .hgath c wide o => Sys2Proof.Machine.execHgath c wide o s
  | .card c o => Sys2Proof.Machine.execCard c o s
  | .cardRun cl id => Sys2Proof.Machine.execCardRun cl id s
  | .cardComplete cl id => Sys2Proof.Machine.execCardComplete cl id s
  | .wpeer c o => Sys2Proof.Machine.execWpeer c o s
  | .rgetT c o => Sys2Proof.Machine.execRgetT c o s
  | .bra c o => Sys2Proof.Machine.execBra c o s
  | .call c o => Sys2Proof.Machine.execCall c o s
  | .calli c o => Sys2Proof.Machine.execCalli c o s
  | .ret c o => Sys2Proof.Machine.execRet c o s
  | .brx c o => Sys2Proof.Machine.execBrx c o s
  | .jtb c base o => Sys2Proof.Machine.execJtb c base o s
  | .exit c o => Sys2Proof.Machine.execExit c o s
  | .joinTimeout wk pc => Sys2Proof.Machine.execJoinTimeout wk pc s
  | .barw c o => Sys2Proof.Machine.execBarw c o s
  | .bara c o => Sys2Proof.Machine.execBara c o s
  | .phaseAdv c o => Sys2Proof.Machine.execPhaseAdv c o s
  | .phaseAdvanceReceive wg dir => Sys2Proof.Machine.execPhaseAdvanceReceive wg dir s
  | .phaseRd c o => Sys2Proof.Machine.execPhaseRd c o s
  | .spawn c o => Sys2Proof.Machine.execSpawn c o s
  | .spawnTry c o => Sys2Proof.Machine.execSpawnTry c o s
  | .spawnSlotGrant wg => Sys2Proof.Machine.execSpawnSlotGrant wg s
  | .enq c o => Sys2Proof.Machine.execEnq c o s
  | .enqTry c o => Sys2Proof.Machine.execEnqTry c o s
  | .enqPush wk => Sys2Proof.Machine.execEnqPush wk s
  | .yield c o => Sys2Proof.Machine.execYield c o s
  | .waitNs c o => Sys2Proof.Machine.execWaitNs c o s
  | .waitNsExpiry wk => Sys2Proof.Machine.execWaitNsExpiry wk s
  | .sinkWatchdogExpiry ctx => Sys2Proof.Machine.execSinkWatchdogExpiry ctx s
  | .trap c o => Sys2Proof.Machine.execTrap c o s
  | .trapEntry wk => Sys2Proof.Machine.execTrapEntry wk s
  | .remoteErrorDelivery wk => Sys2Proof.Machine.execRemoteErrorDelivery wk s
  | .timerDeadlineFire wk ctx => Sys2Proof.Machine.execTimerDeadlineFire wk ctx s
  | .retr c o => Sys2Proof.Machine.execRetr c o s
  | .retrC c o => Sys2Proof.Machine.execRetrC c o s
  | .frmRd c o => Sys2Proof.Machine.execFrmRd c o s
  | .frmWr c o => Sys2Proof.Machine.execFrmWr c o s
  | .contSet c o => Sys2Proof.Machine.execContSet c o s
  | .contSig c o => Sys2Proof.Machine.execContSig c o s
  | .srRd c o => Sys2Proof.Machine.execSrRd c o s
  | .srWr c o => Sys2Proof.Machine.execSrWr c o s
  | .ctxCtlHold c o => Sys2Proof.Machine.execCtxCtlHold c o s
  | .ctxCtlRelease c o => Sys2Proof.Machine.execCtxCtlRelease c o s
  | .ctxCtlKill c o => Sys2Proof.Machine.execCtxCtlKill c o s
  | .tlbiVa c o => Sys2Proof.Machine.execTlbiVa c o s
  | .tlbiCtx c o => Sys2Proof.Machine.execTlbiCtx c o s
  | .tlbiTen c o => Sys2Proof.Machine.execTlbiTen c o s
  | .erd c o => Sys2Proof.Machine.execErd c o s
  | .ewr c o => Sys2Proof.Machine.execEwr c o s
  | .ewt c o => Sys2Proof.Machine.execEwt c o s
  | .meter c o => Sys2Proof.Machine.execMeter c o s
  | .meterRecordWrite t => Sys2Proof.Machine.execMeterRecordWrite t s
  | .tmrRd c ctx o => Sys2Proof.Machine.execTmrRd c ctx o s
  | .tmrArm c ctx o => Sys2Proof.Machine.execTmrArm c ctx o s
  | .tmrOff c ctx o => Sys2Proof.Machine.execTmrOff c ctx o s
  | .contextSwitchOut ctx => Sys2Proof.Machine.execContextSwitchOut ctx s
  | .contextSwitchIn ctx => Sys2Proof.Machine.execContextSwitchIn ctx s
  | .sliceBoundary p => Sys2Proof.Machine.execSliceBoundary p s
  | .periodBoundary => Sys2Proof.Machine.execPeriodBoundary s
  | .correctionInterval => Sys2Proof.Machine.execCorrectionInterval s
  | .opMoveComplete cl => Sys2Proof.Machine.execOpMoveComplete cl s
  | .imeasSample => Sys2Proof.Machine.execImeasSample s
  | .rackCapBroadcast => Sys2Proof.Machine.execRackCapBroadcast s
  | .rackCapCompute => Sys2Proof.Machine.execRackCapCompute s
  | .mapq q => Sys2Proof.Machine.execMapq q s
  | .qmapMap t v => Sys2Proof.Machine.execQmapMap t v s
  | .qmapUnmap t v => Sys2Proof.Machine.execQmapUnmap t v s
  | .qmapBadOp t v => Sys2Proof.Machine.execQmapBadOp t v s
  | .qmapComplete t => Sys2Proof.Machine.execQmapComplete t s
  | .launch isl slot => Sys2Proof.Machine.execLaunch isl slot s
  | .workgroupRelease l core => Sys2Proof.Machine.execWorkgroupRelease l core s
  | .launchComplete l => Sys2Proof.Machine.execLaunchComplete l s
  | .wrsig isl slot => Sys2Proof.Machine.execWrsig isl slot s
  | .wait isl slot => Sys2Proof.Machine.execWait isl slot s
  | .waitReload isl slot => Sys2Proof.Machine.execWaitReload isl slot s
  | .ctxdWrite n v => Sys2Proof.Machine.execCtxdWrite n v s
  | .pschWrite n v => Sys2Proof.Machine.execPschWrite n v s
  | .pcfgWrite n v => Sys2Proof.Machine.execPcfgWrite n v s
  | .opmbWrite n v => Sys2Proof.Machine.execOpmbWrite n v s
  | .ilimWrite n v => Sys2Proof.Machine.execIlimWrite n v s
  | .partWrite n v => Sys2Proof.Machine.execPartWrite n v s
  | .fsegWrite seg word v => Sys2Proof.Machine.execFsegWrite seg word v s
  | .peereWrite n v => Sys2Proof.Machine.execPeereWrite n v s
  | .otxmWrite n v => Sys2Proof.Machine.execOtxmWrite n v s
  | .ostrWrite n v => Sys2Proof.Machine.execOstrWrite n v s
  | .laserLock k ch => Sys2Proof.Machine.execLaserLock k ch s
  | .registerWrite r n v lv => Sys2Proof.Machine.execRegisterWrite r n v lv s
  | .opticsSample => Sys2Proof.Machine.execOpticsSample s
  | .rotorSlotBoundary => Sys2Proof.Machine.execRotorSlotBoundary s
  | .flitReceive f => Sys2Proof.Machine.execFlitReceive f s
  | .relayTimeout id => Sys2Proof.Machine.execRelayTimeout id s
  | .peerLost peer => Sys2Proof.Machine.execPeerLost peer s
  | .bringupStepComplete => Sys2Proof.Machine.execBringupStepComplete s
  | .bringupStepTimeout => Sys2Proof.Machine.execBringupStepTimeout s
  | .firmwareCoreTrap core => Sys2Proof.Machine.execFirmwareCoreTrap core s
  | .firmwareWatchdogExpiry core => Sys2Proof.Machine.execFirmwareWatchdogExpiry core s
  | .firmwareReloadComplete core => Sys2Proof.Machine.execFirmwareReloadComplete core s
  | .fallbackHandOver isl => Sys2Proof.Machine.execFallbackHandOver isl s
  | .rootTrap => Sys2Proof.Machine.execRootTrap s
  | .longLatencyComplete wk id => Sys2Proof.Machine.execLongLatencyComplete wk id s
  | .invalidKindPacket isl slot => Sys2Proof.Machine.execInvalidKindPacket isl slot s
  | .queueWrChange isl slot => Sys2Proof.Machine.execQueueWrChange isl slot s
  | .registerCacheFill ctx line hbm => Sys2Proof.Machine.execRegisterCacheFill ctx line hbm s
  | .status q => Sys2Proof.Machine.execStatus q s
  | .cert q => Sys2Proof.Machine.execCert q s
  | .attest q => Sys2Proof.Machine.execAttest q s
  | .bringup q => Sys2Proof.Machine.execBringup q s
  | .memrd q => Sys2Proof.Machine.execMemrd q s
  | .memwr q => Sys2Proof.Machine.execMemwr q s
  | .kebinlinkTraining lanes => Sys2Proof.Machine.execKebinlinkTraining lanes s
  | .unassignedOpRequest q => Sys2Proof.Machine.execUnassignedOpRequest q s
  | .powerOn kept => Sys2Proof.Machine.execPowerOn kept s
  | .tripLogAck => Sys2Proof.Machine.execTripLogAck s
  | .softTrip cl tj => Sys2Proof.Machine.execSoftTrip cl tj s
  | .hardTrip cl tj => Sys2Proof.Machine.execHardTrip cl tj s

end Sys2Proof.Machine
end

