-- ==== Sys2Proof/Machine/Sched.lean ====
section
/-! DEFINITION. What a step does next: what the machine settles by itself, what is due, what may happen and in the end must (R215, R219, R491;
log 3), and the passage of device time with what falls on its boundaries. -/
namespace Sys2Proof.Machine

/-! ### What the machine settles at once -/

/-- The members a thread still waits for at a JOIN block (R279): a thread leaves the set when it exits, or stands at or above
the PC. -/
def stillIn (w : Warp) (l : Lane) (set : Mask) : Mask := maskOf w.width fun j =>
  let m := laneOf w j
  inMask set j && m.active && !(m.st == l.st && decide (l.pc.toNat ≤ m.pc.toNat))
/-- A warp with wait sets to shorten. -/
def pruneWarp (k : Nat) (w : Warp) : Option Action :=
  let cut (l : Lane) : Lane := { l with join := l.join.map (stillIn w l) }
  if w.lanes.any fun l => (cut l).join != l.join then some (modWarp k fun w => { w with lanes := w.lanes.map cut }) else none
/-- A workgroup whose core counts as ended. -/
def wgEnded (s : State) (g : Workgroup) : Bool := match find s.launches g.launch with
  | some l => l.ended.contains g.core
  | none => true
/-- A FULL tile that a waiting consuming instruction can be granted (R248). -/
def grantable (s : State) (k : Nat) (g : Workgroup) : Option Nat := g.tiles.find? fun p =>
  isFull s g.core p && (tileOf (coreOf s g.core) p).grant.isNone && !(consumers s k g p).isEmpty
/-- A workgroup whose return, phase, grant, release of a block or end is settled (R286, R407, R248, R189, R44). -/
def settleWg (s : State) (k : Nat) (g : Workgroup) : Option Action :=
  let here := (ctxOf s g.ctx).resident
  if here && (retrDue s g).isSome then some (settleRetr k)
  else if here && leadOk s g && (s.warps.any fun e => e.2.wg == k && e.2.fw.isNone && e.2.lanes.any fun l => l.wait == .phase) then
    some (settlePhase k)
  else if !g.live && (!wgEnded s g || !wgPending s k) then some (endIdleWg k)
  else ((grantable s k g).map (regrant k)).orElse fun _ => settleFree s k g
/-- A resident context that has run out of energy or of workgroups: a ranking point (R325). -/
def settleCtx (s : State) (n : Nat) (c : Ctx) : Option Action :=
  if c.resident && c.energyOut then some (acts [modCtx n fun c => { c with energyOut := false }, rankOf n])
  else if c.resident && (wgsOf s n).isEmpty && (partOf s (ctxTenant s n)).want.contains n then some (rankOf n)
  else none
def upkeep (s : State) : Option Action :=
  (arrivals s).orElse fun _ => (s.warps.findSome? fun e => pruneWarp e.1 e.2).orElse fun _ =>
  (s.wgs.findSome? fun e => settleWg s e.1 e.2).orElse fun _ => (s.ctxs.findSome? fun e => settleCtx s e.1 e.2).orElse fun _ =>
  (serveHeld s).orElse fun _ => directSend s

/-! ### What is due -/

def sliceLen (s : State) (p : Nat) : Nat := 1000 * dbits (reg s .psch p) 0 16
/-- The partitions that hold workgroups: their slices run on (R325, R326). -/
def slicing (s : State) : List Nat := dedup ((s.wgs.filter fun e => e.2.live).map fun e => ctxTenant s e.2.ctx)
/-- What a warp's next instruction boundary brings (R307, R362, R400, R408). -/
def dueWarp (s : State) (k : Nat) (w : Warp) : List Instr :=
  let here := if w.fw.isSome then mayIssue s w else (ctxOf s w.ctx).resident
  let timer (ctx : Bool) : List Instr :=
    let d := if ctx then w.ctxd else w.dev
    if here && (deadlineDue s w ctx || (d.held && w.level == 0 && !(groupsOf w).isEmpty)) then [.timerDeadlineFire k ctx] else []
  (if w.pend.any (trapReady s k w) then [Instr.trapEntry k] else []) ++
  (if (errDue s w).isSome then [.remoteErrorDelivery k] else []) ++
  timer false ++ timer true ++
  (if here && w.lanes.any (timedOut s.now) then [.waitNsExpiry k] else [])
/-- What a firmware core's state calls for (R440, R442). -/
def dueFw (s : State) (c : Nat) (f : FwCore) : List Instr :=
  (if f.crash then (if c = 0 then [Instr.rootTrap] else if isService c then [.firmwareCoreTrap c] else []) else []) ++
  (if fwStalled s c then [.firmwareWatchdogExpiry c] else [])
/-- How long a HINT keeps a line: `stream` goes first, `keep` last (R59). -/
def keepRank (mark : Nat) : Nat := if mark = 1 then 0 else if mark = 2 then 2 else 1
def sliceOf (l : LlcLine) : Nat := homeCluster (64 * l.line)
/-- Lines that their slice may replace next: none of the slice goes before them. -/
def firstOut (ls : List LlcLine) : List LlcLine :=
  ls.filter fun l => ls.all fun m => sliceOf m != sliceOf l || decide (keepRank l.mark ≤ keepRank m.mark)
/-- A line of a slice that holds more than it has room for, less in a package that relays (R12, R16, R386). -/
def overFull (s : State) : List Instr :=
  if s.llc.length ≤ 32768 * 22 / 24 then [] else
    let size (n : Nat) : Nat := (s.llc.filter fun l => sliceOf l == n).length
    let room := if s.flash.fabric then 32768 * 22 / 24 else 32768
    match pickOne s.tick ((firstOut s.llc).filter fun l => decide (room < size (sliceOf l))) with
    | some l => [.lineWriteback l.line]
    | none => []
/-- Everything that is due now. -/
def forced (s : State) : List Instr :=
  s.fws.flatMap (fun e => dueFw s e.1 e.2) ++
  s.warps.flatMap (fun e => dueWarp s e.1 e.2) ++
  s.ctxs.flatMap (fun e =>
    (if hangDue s e.1 then [Instr.sinkWatchdogExpiry e.1] else []) ++
    (if e.2.resident && !(partOf s (ctxTenant s e.1)).want.contains e.1 then [.contextSwitchOut e.1] else [])) ++
  (slicing s).flatMap (fun p => if (partOf s p).ranked + sliceLen s p ≤ s.now then [Instr.sliceBoundary p] else []) ++
  s.queues.flatMap (fun e => match e.2.wait with
    | some (_, _, t) => if t + 2000 ≤ s.now then [Instr.waitReload (e.1 / 64) (e.1 % 64)] else []
    | none => []) ++
  s.fabric.relay.flatMap (fun e => if e.2.1 + 160000 ≤ s.now then [Instr.relayTimeout e.1] else []) ++
  (dedup (s.fabric.remotes.map (·.peer))).flatMap (fun p => if overdue s p then [Instr.peerLost p] else []) ++
  overFull s ++
  if stepLate s then [.bringupStepTimeout] else []

/-! ### What comes in finite time (R215, R266, R491) -/

/-- Completions of a warp's unfinished instructions (R69, R238). -/
def outTasks (s : State) (k : Nat) (w : Warp) (o : Outst) : List Task :=
  let lanes (m : Mask) : List Task := (lanesOf m).map fun i => .ins (.memoryReply k o.id i)
  match o.kind with
  | .alu => [.ins (.longLatencyComplete k o.id)]
  | .accRd blk _ => if passesOn s w.wg blk o.age then [] else [.ins (.longLatencyComplete k o.id)]
  | .load _ n _ _ todo => (todo.filter fun a => readReady s k w o a n).map fun a => .ins (.memoryReply k o.id a.lane)
  | .reply todo => lanes (o.left &&& ~~~todo)
  | .tile ts take done offs => if !(done || tilesReady s w.core o.id take ts) then [] else
      (if offs.isEmpty then [] else lanes o.left) ++ if take then [.ins (.tileReadRetire k o.id)] else []
  | .fence ord sc => if fenceReady s (o.point w k o.mask) ord sc then [.ins (.fenceComplete k o.id)] else []
  | .epi sent => match wgOf s w with
    | some g => if (if sent then g.epis.all (fun e => e.id != o.age || e.arrivals.isEmpty) else epiReady s w g o && !faultWaits w o) then
        [.ins (.epilogueAccepted k o.id)] else []
    | none => []
  | .faulty _ _ _ => if faultWaits w o then [] else [.fault k o.id]
  | .remote _ _ | .put | .await | .held => []
/-- What comes to a warp: completions, JOIN timeouts (R279), the push of a waiting `enq` (R305). -/
def warpTasks (s : State) (k : Nat) (w : Warp) : List Task :=
  w.outs.flatMap (outTasks s k w) ++
  ((groupsOf w).filter fun e => (lanesOf e.2).any fun i => (match (laneOf w i).join with | some set => set != 0 | none => false)).map
    (fun e => .ins (.joinTimeout k e.1)) ++
  if (w.fw.isSome || (ctxOf s w.ctx).resident) && (enqDue s k w).isSome then [.ins (.enqPush k)] else []
/-- What comes to a cluster's engines (R184, R201, R260, R261): a card has one engine to itself until it has acted. -/
def clusterTasks (s : State) (n : Nat) (c : Cluster) : List Task :=
  (c.table.filter (·.granted)).map (fun e => .ins (.matrixPassComplete n e.id)) ++
  (if c.table.any (fun e => e.granted) then [] else if c.table.any (entryReady s c.table) then [.ins (.matrixPassGrant n)] else []) ++
  c.cards.flatMap (fun k => if k.running && !k.todo.isEmpty then [Task.unit n k.id]
    else if k.acted && k.arrivals.isEmpty then [.ins (.cardComplete n k.id)] else []) ++
  if c.cards.any (fun k => !k.todo.isEmpty) then [] else match c.cards.find? (cardReady s c.cards) with
    | some k => [.ins (.cardRun n k.id)]
    | none => []
/-- What comes to a workgroup: a neighbour's advance (R286), a spawn slot (R304). -/
def wgTasks (s : State) (k : Nat) (g : Workgroup) : List Task :=
  ([1, 2, 3, 4].filter fun d => match nbrOf s g d with
    | .at _ n => recvOf g d != sentPhase s n && !unitsFirst s n g (recvOf g d + 1)
    | _ => false).map (fun d => Task.ins (.phaseAdvanceReceive k d)) ++
  match g.spawnQ with
  | [] => []
  | r :: _ => if !stillWaits s r || ((ctxOf s g.ctx).resident && !(freeSlots (recOf s g) g).isEmpty) then [.ins (.spawnSlotGrant k)] else []
/-- What comes to a launch (R287, R314, R319). -/
def launchTasks (s : State) (k : Nat) (l : Launch) : List Task :=
  (if launchDone s k l then [Task.ins (.launchComplete k)] else []) ++
  if releasable s l then ((rectCores l).filter fun c => !l.released.contains c && canTake s c l.lr).map fun c => .ins (.workgroupRelease k c)
  else []
/-- The next packet of an island (R310 to R313, R323). -/
def packetTasks (s : State) (isl : Nat) : List Task :=
  match (nextQueue s isl).bind fun key => (find s.queues key).map fun q => (key, headOf s q) with
  | none | some (_, .none) => []
  | some (key, .fault _ _) | some (key, .header _ _) => [.ins (.invalidKindPacket isl (key % 64))]
  | some (key, .pkt p) => [.ins (
    if p.kind = 1 then .launch isl (key % 64) else if p.kind = 2 then .wrsig isl (key % 64)
    else if p.kind = 3 then .wait isl (key % 64) else .invalidKindPacket isl (key % 64))]
/-- WR of a queue has moved, or its header can no longer be read (R309, R316). -/
def wrMoved (s : State) (q : Queue) : Bool := !q.stopped && devState s == 1 && (match devPa s q.ctx .rmw q.hdr.toNat with
  | .error _ => true
  | .ok pa => memNat s.mem (pa + 0x10) 8 != q.wr)
/-- What comes to a firmware core (R329, R441). -/
def fwTasks (s : State) (c : Nat) (f : FwCore) : List Task :=
  (if f.status = 2 then [Task.ins (.firmwareReloadComplete c)] else []) ++
  if decide (1 ≤ c) && canTakeOver s (c - 1) then [.ins (.fallbackHandOver (c - 1))] else []
/-- What comes to an arrival: its bytes, its attempt, or the end of its back-off (R248, R254, R264). -/
def arrivalTasks (s : State) (a : Arrival) : List Task :=
  if a.src.any (fun e => runReady s a.po e.1 64) then [.read a.id]
  else if unitHeld s a then []
  else if a.backoff then [.ins (.arrivalRetry a.id)]
  else if a.data.isEmpty || !arrReady s a || s.fabric.remotes.any (fun r => r.kind == 4 && r.out == a.id) then [] else [.ins (.tileArrival a.id)]
/-- The groups and threads that issue next. -/
def issueTasks (s : State) : List Task :=
  let cores := dedup ((s.warps.filter fun e => e.2.fw.isNone).map fun e => e.2.core)
  ((cores.filter fun c => (coreOffer s c).isSome).map Task.core) ++
  ((dedup (cores.map clusterNo)).flatMap fun cl => ((List.range 8).filter fun n => (wellOffer s cl n).isSome).map (Task.well cl)) ++
  (s.warps.filter fun e => e.2.fw.isSome && !(readyGroups s e.1 e.2).isEmpty).map fun e => .fwThread e.1
/-- Changes that come in their own time: stores that enter an L1 (R206), accesses of the host (R211), flits of the own package and flits that
leave through a relay (R377, R385), a loan (R322), the next save (R444), the throttle (R347), a hard trip (R446). -/
def ownTasks (s : State) : List Task :=
  ((s.stores.filter fun q => q.entersFirst && mayEnter s q).map fun q => .enter q.id) ++
  ((hostUnits s).map fun u => .host u.1 u.2.1) ++ ((ownFlits s).map .own) ++
  (((sendable s).filter fun d => !isDirect (pathTo s d)).map .send) ++
  (if (borrower s).isSome then [.loan] else []) ++ (if (saveNext s).isSome then [.save] else []) ++
  (if (throttleLate s).isSome then [.throttle] else []) ++ if s.boot.hot.isSome && powered s then [.hardTrip] else []
/-- Everything that comes by itself. -/
def tasks (s : State) : List Task :=
  issueTasks s ++
  s.warps.flatMap (fun e => warpTasks s e.1 e.2) ++
  (s.stores.filter (storeReady s)).map (fun p => .ins (.storePerformed p.id)) ++
  s.walks.map (fun w => .ins (.pageWalkComplete w.id)) ++
  s.arrivals.flatMap (arrivalTasks s) ++
  s.clusters.flatMap (fun e => clusterTasks s e.1 e.2) ++
  s.wgs.flatMap (fun e => wgTasks s e.1 e.2) ++
  s.ctxs.flatMap (fun e => if e.2.stopping && quiet s e.1 then [.ins (.contextSwitchOut e.1)] else []) ++
  (s.parts.flatMap (·.2.want)).flatMap (fun n => if canEnter s n then [.ins (.contextSwitchIn n)] else []) ++
  s.launches.flatMap (fun e => launchTasks s e.1 e.2) ++
  (dedup (s.queues.map fun e => e.1 / 64)).flatMap (packetTasks s) ++
  s.queues.flatMap (fun e => if wrMoved s e.2 then [.ins (.queueWrChange (e.1 / 64) (e.1 % 64))] else []) ++
  s.tens.flatMap (fun e =>
    (if e.2.map.isSome then [.ins (.qmapComplete e.1)] else []) ++
    (match e.2.reading with | some r => if r.snap.isEmpty then [] else [.ins (.meterRecordWrite e.1)] | none => [])) ++
  s.fws.flatMap (fun e => fwTasks s e.1 e.2) ++
  (if s.boot.running && bootStep s == 4 && imagesReach s (bootIsland s) then [.ins .bringupStepComplete] else []) ++
  ownTasks s
/-- The device time that a task may take, where a rule bounds it: R309, R316, R347, R446. -/
def limitOf : Task → Option Nat
  | .ins (.queueWrChange _ _) => some 2000
  | .ins (.qmapComplete _) => some 100000
  | .throttle => some 1000
  | .hardTrip => some 9000
  | _ => none
/-- A task waits no longer: it has been passed over long enough, or its time is up. -/
def late (s : State) (w : Waiting) : Bool :=
  decide (w.tick + Config.patience < s.tick) || (match limitOf w.task with | some n => decide (w.now + n ≤ s.now) | none => false)
def dueTask (s : State) : Option Task :=
  (s.waits.find? fun w => late s w && (tasks s).contains w.task).map (·.task)
/-- Tasks that wait, each since when. -/
def noteWaits : Action := fun s =>
  let ts := tasks s
  [.waits ((s.waits.filter fun w => ts.contains w.task) ++
    (ts.filter fun t => s.waits.all fun w => w.task != t).map fun t => ⟨t, s.tick, s.now⟩)]

/-! ### The next thing -/

/-- What a step does: changes, then an instruction or event if there is one; `time` when device time passes after it. -/
structure Plan where
  pre : Action
  ins : Option Instr
  time : Bool
def planAct (a : Action) : Plan := ⟨a, none, true⟩
def planRun (i : Instr) : Plan := ⟨skip, some i, true⟩
/-- A candidate takes the issue slot (R328): its instruction, or the trap of its fetch. -/
def planOffer : Cand × Offer → Plan
  | (c, .trap d cause fva synd) => planAct (acts [takeSlot c, look fun s =>
      match find s.warps d.wk with
      | none => skip
      | some w =>
        if d.ejected then modWarp d.wk fun w => w.mapLanes d.mask fun _ l => { l with st := .grouped }
        else acts [chargeW w [⟨2, 1, clusterNo w.core⟩], raise d.wk ⟨d.mask, cause, d.pc, d.pc, fva, synd, none⟩]])
  | (c, .issue cur i) => ⟨acts [takeSlot c, openSlot cur i, upd (.cur (some cur))], some i, true⟩
/-- A group co-issued in the open slot of a core (R32). -/
def planJoin : Cand × Cur × Instr → Plan
  | (c, cur, i) => ⟨acts [joinSlot c, upd (.cur (some cur))], some i, true⟩
def planIssue (o : Option (Cand × Offer)) : Plan := match o with
  | some e => planOffer e
  | none => planAct skip
/-- A task carried out. -/
def taskPlan (s : State) : Task → Plan
  | .ins i => planRun i
  | .core c => planIssue (coreOffer s c)
  | .well cl n => planIssue (wellOffer s cl n)
  | .fwThread k => planIssue ((find s.warps k).bind fun w => (readyGroups s k w).head?)
  | .enter id => planAct (enterPending id)
  | .host id off => planAct (match (hostUnits s).find? fun u => u.1 == id && u.2.1 == off with | some u => hostUnit u.1 u.2 | none => skip)
  | .read id => planAct (readUnit id)
  | .unit cl id => planAct (cardStep cl id)
  | .fault k id => planAct (takeFault k id)
  | .own f => planAct (ownDeliver f)
  | .send d => planAct (sendHead slotTime d)
  | .loan => planAct (match borrower s with | some (t, u, n) => borrow t u n | none => skip)
  | .save => planAct ((saveNext s).getD skip)
  | .throttle => planAct (match throttleLate s with | some isl => setThrottle isl true | none => skip)
  | .hardTrip => planAct (match s.boot.hot with | some (cl, tj, _) => hardTrip cl tj | none => skip)
/-- A task that acts waits no longer. -/
def runTask (s : State) (t : Task) : Plan :=
  let p := taskPlan s t
  { p with pre := acts [upd (.waits (s.waits.filter fun w => w.task != t)), p.pre] }
/-- The j-th line of a warp's area that holds registers, then the lines of the frames in use for it, by offset in the workgroup's area. -/
def rcLineOff (r : LRec) (i nv : Nat) (frames : List Nat) (j : Nat) : Nat :=
  let n := regFoot r.width nv
  if j < 32 then warpOffset r i + 64 * j
  else if j < n then warpOffset r i + 0x9400 + 64 * (j - 32)
  else frameOff (nth frames ((j - n) / 576) 0) + 64 * ((j - n) % 576)
/-- A miss of the register cache of a core, on a line of the warp that it has selected or of a frame (R399, R409). -/
def fillOf (s : State) (core : Core) : List Instr :=
  match core.sel with
  | none => []
  | some (n, i, k) => match find s.wgs k with
    | none => []
    | some g =>
      let nv := ((find g.warps i).bind (find s.warps)).elim 0 (·.nv)
      let fs := (List.range g.frames.length).filter fun f => (nth g.frames f noFrame).state != 0 && find g.warps i == some (nth g.frames f noFrame).warp
      let off := rcLineOff (recOf s g) i nv fs ((Config.freeValue s.tick).toNat % (regFoot (recOf s g).width nv + 576 * fs.length))
      match if (ctxOf s n).resident then paOf s n true .read (imgBase s n + g.area + off) else none with
      | some pa => if core.rc.any fun e => e.line == pa / 64 then [] else
          [.registerCacheFill n (pa / 64) (s.llc.all fun l => l.line != pa / 64)]
      | none => []
/-- Events that may happen and need not, or need not yet. -/
def early (s : State) : List Instr :=
  ((firstOut s.llc).filter (·.dirty)).map (fun l => Instr.lineWriteback l.line) ++
  s.fabric.waking.map (fun e => Instr.laserLock (e.1 / 8) (e.1 % 8)) ++
  s.cores.flatMap (fun e => fillOf s e.2) ++
  (if powered s && broadcastLeft s then [.rackCapBroadcast] else []) ++
  if s.boot.running && decide (bootStep s < 4) then [.bringupStepComplete] else []
/-- A held instruction of a warp that may re-issue, before any group does (R205, R410); without energy its context is pre-empted (R335,
R337). -/
def heldPlan (s : State) (k : Nat) (w : Warp) : Option Plan :=
  if mayIssue s w then (nextHeld s k w).map fun o =>
    planAct (if w.fw.isNone && decide ((reg s .cbal w.ctx).toInt ≤ 0) then modCtx w.ctx fun c => { c with energyOut := true } else reinject k o)
  else none
/-- Everything that may happen next. -/
def choices (s : State) : List Plan :=
  (tasks s).map (runTask s) ++ (s.cores.filterMap fun e => (coOffer s e.1).map planJoin) ++ (early s).map planRun ++
  (s.queues.filter fun e => !e.2.recs.isEmpty).map fun e => planAct (recordAgain e.1)
/-- The indexes of L1 lines that may be replaced next (R59). -/
def firstL1 (ls : List L1Line) : List Nat := (List.range ls.length).filter fun i => match ls[i]? with
  | some l => ls.all fun m => decide (keepRank l.mark ≤ keepRank m.mark)
  | none => false
/-- Replacement in the caches (R55, R59, R206, R239, R374): a cached translation, an L1 line, a block fetched that no thread stands in, or
a clean LLC line may leave at any time. -/
def evictions (s : State) : List Plan :=
  ((List.range s.tlb.length).map fun i => planAct fun s => [.tlb (s.tlb.eraseIdx i)]) ++
  (s.cores.flatMap fun e => (firstL1 e.2.l1).map fun i => planAct (modCore e.1 fun c => { c with l1 := c.l1.eraseIdx i })) ++
  (s.warps.flatMap fun e => (e.2.code.filter fun b => !midBlock s e.2 (dw b.1)).map fun b =>
    planAct (modWarp e.1 fun w => { w with code := w.code.filter fun c => c.1 != b.1 })) ++
  (((firstOut s.llc).filter fun l => !l.dirty).map fun l => planRun (.lineWriteback l.line))
/-- One of several, freely. -/
def choose {α : Type} (s : State) : List α → Option α
  | [] => none
  | [x] => some x
  | l => l[Config.freeChoice s.tick % l.length]?

/-! ### Device time (R491) -/

/-- The first rotor boundary after an instant (R384). -/
def nextRotor (t : Nat) : Nat :=
  let p := Config.rotorPhase % 2500
  if t < p then p else p + ((t - p) / 2500 + 1) * 2500
def rotorAt (t : Nat) : Bool := t % 2500 == Config.rotorPhase % 2500
/-- Instants at which a warp is due for something. -/
def warpDues (s : State) (w : Warp) : List Nat :=
  (if w.dev.armed then [w.dev.t.toNat] else []) ++
  (if w.ctxd.armed && (ctxOf s w.ctx).resident then [s.now + (w.ctxd.t.toNat - (ctxOf s w.ctx).time)] else []) ++
  w.lanes.filterMap fun l => match l.wait with | .timed t => some t | _ => none
/-- Instants at which exact times run out. -/
def dues (s : State) : List Nat :=
  s.warps.flatMap (fun e => warpDues s e.2) ++
  s.clusters.filterMap (fun e => e.2.move.map (·.due)) ++
  s.fabric.waking.map (·.2) ++
  (slicing s).map (fun p => (partOf s p).ranked + sliceLen s p) ++
  s.queues.filterMap (fun e => e.2.wait.map fun w => w.2.2 + 2000) ++
  s.queues.filterMap (fun e => e.2.held.map (· + 10000000)) ++
  s.fabric.relay.map (fun e => e.2.1 + 160000) ++
  (s.fabric.remotes.filter fun r => r.sent != 0).map (fun r => r.sent - 1 + 1000000) ++
  s.fws.filterMap (fun e => if e.2.status = 1 then some (e.2.last + 1000000) else none) ++
  s.waits.filterMap (fun w => (limitOf w.task).map (w.now + ·)) ++
  s.ctxs.filterMap fun e => if e.2.resident then (intervalOf s e.1).map fun n => s.now + (n - e.2.wd) else none
/-- The next instant at which device time stops for something, if there is one. Periods, intervals, samples and rounds run while the islands are up
(R430). -/
def nextBoundary (s : State) : Option Nat :=
  minNat? ((if powered s then [(s.now / 1000 + 1) * 1000, nextRotor s.now] else []) ++ (dues s).filter fun t => decide (s.now < t))
/-- What falls on an instant, in order. -/
def boundaryEvents (s : State) (t : Nat) : List Instr :=
  if !powered s then [] else
    (s.clusters.filter fun e => match e.2.move with | some m => decide (m.due ≤ t) | none => false).map (fun e => Instr.opMoveComplete e.1) ++
    (s.fabric.waking.filter fun e => decide (e.2 ≤ t)).map (fun e => Instr.laserLock (e.1 / 8) (e.1 % 8)) ++
    (if t % 1000 = 0 then [.imeasSample, .opticsSample] else []) ++
    (if t % 10000 = 0 then (s.tens.filter fun e => match e.2.reading with | some r => decide (r.t1 ≤ t) && r.snap.isEmpty | none => false).map
      (fun e => Instr.meterRecordWrite e.1) else []) ++
    (if t % 1000000 = 0 then [.periodBoundary] else []) ++
    (if t % 10000 = 0 then [.correctionInterval] else []) ++
    (if t % 1000000 = 250000 && broadcastLeft s then [.rackCapBroadcast] else []) ++
    (if t % 1000000 = 500000 then [.rackCapCompute] else []) ++
    (if rotorAt t then [.rotorSlotBoundary] else [])
/-- Context time and the watchdog counts advance with device time (R289, R361). -/
def ageContexts (dt : Nat) : Action := fun s =>
  (s.ctxs.filter fun e => e.2.resident).map fun (n, c) =>
    Upd.ctx n { c with time := c.time + dt, wd := c.wd + if (intervalOf s n).isSome then dt else 0 }
/-- Device time passes by a free amount, stopping at the next boundary. -/
def advanceTime : Action := withFree fun t => look fun s =>
  let free := Config.freeDelay t
  let d := match nextBoundary s with | some b => min free (b - s.now) | none => free
  let now := s.now + d
  acts [ageContexts d, upd (.now now), upd (.agenda (if nextBoundary s = some now then boundaryEvents s now else []))]
/-- What waits is noted, then time passes. -/
def passTime : Action := acts [noteWaits, noteHeld, advanceTime]

/-! ### The plan of a step -/

/-- The next thing the machine does: an input or consequence that waits, what is settled at once, what is due, or a free choice
after which time passes. -/
def plan (s : State) : Plan :=
  match s.agenda with
  | i :: r => ⟨upd (.agenda r), some i, false⟩
  | [] => match upkeep s with
    | some a => ⟨a, none, false⟩
    | none => match forced s with
      | i :: _ => ⟨skip, some i, false⟩
      | [] => match s.warps.findSome? fun e => heldPlan s e.1 e.2 with
        | some p => p
        | none => match dueTask s with
          | some t => { runTask s t with time := false }
          | none => (choose s (choices s ++ evictions s)).getD (planAct skip)

end Sys2Proof.Machine
end

