-- ==== Sys2Proof/Machine/Place.lean ====
section
/-! DEFINITION. Placing one instruction where the next step fetches: a launched warp of a supervisor context whose block holds
it (R50, R54, R85, R367 to R371). It stands for the boot, queue mapping and launch that bring a program to run (log 31). -/
namespace Sys2Proof.Machine

/-- Bytes put into memory. -/
def placeBytes (m : List Host.Cell) (a : Nat) (bs : List Byte) : List Host.Cell :=
  (mapI (fun i b => (a + i, b)) bs).foldl (fun m e => memSet m e.1 e.2) m
/-- Stage-2 root, stage-1 level-0 and level-1 tables, and the fetch block; one 1 GiB page maps address 0 on to itself. -/
def placeRoot2 : Nat := 0x10000
def placeRoot1 : Nat := 0x20000
def placeTable1 : Nat := 0x30000
def placeBlock : Nat := 0x40000
def placeMem (m : List Host.Cell) (nbits w : Nat) : List Host.Cell :=
  let m := placeBytes m placeRoot2 (le 8 0x1F)
  let m := placeBytes m placeRoot1 (le 8 (placeTable1 + 1))
  let m := placeBytes m placeTable1 (le 8 0x3F)
  placeBytes m placeBlock (le 4 0x11 ++ le 12 (w % 2 ^ nbits) ++ zeros 48)
def placeRec : LRec :=
  ⟨16, 1, false, true, false, false, 0, 0, 16, 0, 0, 0, 16, 8, 1000000, 0, ⟨dw placeBlock, 16, 256, 32, 64⟩, ⟨0, 0, 0, 0, 0⟩, [], []⟩
def placeLane : Lane := ⟨dw (placeBlock + 4), .grouped, [], 0, 0, 0, .none, [], none, 0, 0, 0⟩
def placeWarp : Warp :=
  ⟨0, 0, 0, 0, 16, 0, false, none, 256, 32, 64, List.replicate 16 placeLane, [], [], 0, none, 0, ⟨0, false, false⟩, ⟨0, false, false⟩,
   ⟨0, 0, 0, 0⟩, [], [], [], none, []⟩
def placeWg : Workgroup :=
  ⟨0, 0, 0, 0, [], [], List.replicate 16 noBar, List.replicate 8 noCv, List.range 16, List.range 8, List.replicate 8 noFrame, false, [],
   [(0, 0)], [], 0x10000⟩
def placeLaunch : Launch := ⟨0, placeRec, 0, 0, 0, 1, 1, 0, 0, 0, 0, [0], [], 0, none, false, false, none⟩
/-- Registers of a device that has come up, with partition 0 and supervisor context 0. -/
def placeHw (hw : SMap DWord) : SMap DWord :=
  [(RegKind.bstat, 0, 1), (.istat, 0, 0x124), (.part, 0, 0x80000000), (.ctxd, 0, 0x83010002), (.ctxt, 0, 2 ^ 63 + placeRoot1),
    (.s2r, 0, 2 ^ 63 + placeRoot2), (.cbal, 0, 2 ^ 40), (.ctxs, 0, 1)].foldl (fun m e => hwSet m e.1 e.2.1 (dw e.2.2)) hw
/-- Everything pending is dropped, so that the placed warp alone can act. -/
def placeWord (s : State) (nbits w : Nat) : State :=
  { s with
    mem := placeMem s.mem nbits w
    hw := placeHw s.hw
    warps := [(0, placeWarp)]
    wgs := [(0, placeWg)]
    launches := [(0, placeLaunch)]
    ctxs := [(0, ⟨true, 0, false, false, 0, 0, 0, false⟩)]
    parts := [(0, ⟨s.now, 0, [0]⟩)]
    tens := []
    islands := []
    fws := []
    queues := []
    clusters := []
    boot := { s.boot with running := false, trip := none, hot := none }
    cores := []
    stores := []
    llc := []
    tlb := []
    walks := []
    arrivals := []
    fabric := { s.fabric with tx := [], relay := [], remotes := [], inbox := [], waking := [], used := [] }
    link := { s.link with pending := [] }
    cur := none
    old := []
    waits := []
    agenda := [] }

end Sys2Proof.Machine
end

