-- ==== Sys2Proof/Machine/Step.lean ====
section
/-! DEFINITION. One step of the machine: what `plan` chooses, and the device time that passes after it. -/
namespace Sys2Proof.Machine

/-- Device time passes after a free choice that has a next state. -/
def afterStep (time : Bool) : Host.Outcome State Fault Refusal → Host.Outcome State Fault Refusal
  | .next s => .next (if time then run passTime s else s)
  | .fault f => .fault f
  | .refused r => .refused r
/-- One step: the changes of the plan, then its instruction or event. -/
def step (s : State) : Host.Outcome State Fault Refusal :=
  let p := plan s
  let t := run p.pre s
  match p.ins with
  | none => afterStep p.time (.next t)
  | some i => afterStep p.time (exec i t)
/-- The state with an instruction word stored where the next step fetches it (log 31). -/
def State.withFetchWord (s : State) (nbits w : Nat) : State := placeWord s nbits w

end Sys2Proof.Machine
end

