-- ==== Sys2Proof/Safety.lean ====
section
/-! DEFINITION. The words that the model's claims are stated in: when an instruction issues, what a warp and its lanes hold after
it, what it leaves alone, and the invariants of the stored data. -/
namespace Sys2Proof.Safety
open Sys2Proof.Machine

/-- The invariants of the stored data: memory in its canonical form (each byte listed once, in order, and only bytes that differ from what
an unlisted address reads as), the keys of every map strictly rising, and every reserved bit of a hardware register zero (R4). -/
structure Inv (s : State) : Prop where
  mem : memWf s.mem = true
  hw : rising s.hw = true
  warps : rising s.warps = true
  wgs : rising s.wgs = true
  launches : rising s.launches = true
  ctxs : rising s.ctxs = true
  tens : rising s.tens = true
  parts : rising s.parts = true
  queues : rising s.queues = true
  clusters : rising s.clusters = true
  cores : rising s.cores = true
  islands : rising s.islands = true
  fws : rising s.fws = true
  reserved : ∀ k n, reg s k n &&& ~~~regMask k n = 0
/-- A group or thread that a selector offers the issue slot (R328, R266; of a firmware core, R481). -/
def Offered (s : State) (e : Cand × Offer) : Prop :=
  (∃ core, coreOffer s core = some e) ∨ (∃ cl n, wellOffer s cl n = some e) ∨
    ∃ k w, find s.warps k = some w ∧ (readyGroups s k w).head? = some e
/-- A step that ends in a next state. -/
def Runs (s : State) : Prop := ∃ t, step s = .next t

/-! ### Issuing -/

/-- Instruction `i` issues at `s` as `x`: the selected group or thread passes every check of R71, nothing of R269 holds it back, and
the wait of its own entry, `busy`, does not hold. -/
def Issues (i : Instr) (busy : Iss → State → Bool) (s : State) (x : Iss) : Prop :=
  issOf s i = some x ∧ gate s x (x.g != 0 && busy x s) = .go
/-- Where instruction `i` issues, its meaning answers a next state `t`, of which `P` holds. -/
def Does (i : Instr) (busy : Iss → State → Bool) (P : State → Iss → State → Prop) : Prop :=
  ∀ s x, Issues i busy s x → ∃ t, exec i s = .next t ∧ P s x t
/-- Lane `j` exists in the warp that issues and its guard is true. -/
def Iss.On (x : Iss) (j : Nat) : Prop := j < x.w.lanes.length ∧ inMask x.g j = true
/-- The warp of the issuer in a state. -/
def warpOf (t : State) (x : Iss) : Warp := (find t.warps x.k).getD x.w
/-- A lane of the issuer's warp in a state. -/
def laneIn (t : State) (x : Iss) (j : Nat) : Lane := laneOf (warpOf t x) j

/-! ### Results -/

/-- The number in a register, or in a pair of them, low word first (R62). -/
def number (rd : Nat → Word) (r : Nat) (wide : Bool) : Nat := (rd r).toNat + if wide then 2 ^ 32 * (rd (r + 1)).toNat else 0
/-- A destination gets a result, modulo two to the power of its width: a varying register in every guard-true lane, a uniform one
once (R33, R57). -/
def Gets (t : State) (x : Iss) (d : Opd) (wide : Bool) (f : Nat → Int) : Prop :=
  match d with
  | .v r => ∀ j, Iss.On x j → (number (laneIn t x j).rd r.val wide : Int) = f j % 2 ^ bw wide
  | .s r => x.g ≠ 0 → (number (warpOf t x).rdS r.val wide : Int) = f (lowest x.g) % 2 ^ bw wide
  | _ => True
/-- An affine destination gets a base and a stride (R116). -/
def GetsAff (t : State) (x : Iss) (d : Opd) (v : Word × Word) : Prop :=
  match d with
  | .a r => x.g ≠ 0 → (warpOf t x).rdA r.val = v
  | _ => True
/-- A predicate destination gets a truth value in every guard-true lane (R57). -/
def GetsPred (t : State) (x : Iss) (d : Opd) (f : Nat → Bool) : Prop :=
  match d with
  | .p n => ∀ j, Iss.On x j → (laneIn t x j).p.getLsbD n.val = f j
  | _ => True
/-- The sticky flags that a result sets (R113): each guard-true lane's own for a varying destination, the result's in every
guard-true lane for a uniform one. No flag is cleared. -/
def Flags (t : State) (x : Iss) (d : Opd) (f : Nat → Nat) : Prop :=
  ∀ j, Iss.On x j → (laneIn t x j).flg = (laneOf x.w j).flg ||| wd (match d with | .v _ => f j | .s _ => f (lowest x.g) | _ => 0)

/-- A long-latency instruction holds its result, unfinished: what LONG_LATENCY_COMPLETE will write, with its flags (R69). -/
def Held (t : State) (x : Iss) (id : Nat) (d : Opd) (n : Nat) (f : Nat → BitVec 128) (flags : Nat → Nat) : Prop :=
  x.g ≠ 0 → ∃ o, (warpOf t x).outs = x.w.outs ++ [o] ∧ o.id = id ∧ o.ins = x.i ∧ o.kind = .alu ∧ o.left = x.g ∧ o.act = x.g ∧
    o.res.dst = d ∧ o.res.n = n ∧ match d with
      | .s _ => nth o.res.vals 0 0 = f (lowest x.g) ∧ nth o.res.flags 0 0 = flags (lowest x.g)
      | _ => ∀ j, Iss.On x j → nth o.res.vals j 0 = f j ∧ nth o.res.flags j 0 = flags j

/-! ### Frames -/

/-- What an instruction leaves alone among registers: every register but those in `keys` (numbered as in R70's comparison: v n is n,
a n is 1024 + n, s n is 2048 + n, p n is 3072 + n, and 4096 is the generator state), and those too in lanes whose guard is not true; every
sticky flag outside `flags`; every other warp. -/
structure Still (s t : State) (x : Iss) (keys : List Nat) (flags : Word) : Prop where
  vary : ∀ j r, r < 256 → (r ∉ keys ∨ inMask x.g j = false) → (laneIn t x j).rd r = (laneOf x.w j).rd r
  uni : ∀ r, r < 64 → 2048 + r ∉ keys → (warpOf t x).rdS r = x.w.rdS r
  aff : ∀ r, r < 32 → 1024 + r ∉ keys → (warpOf t x).rdA r = x.w.rdA r
  pred : ∀ j n, n < 12 → (3072 + n ∉ keys ∨ inMask x.g j = false) → (laneIn t x j).p.getLsbD n = (laneOf x.w j).p.getLsbD n
  flag : ∀ j, (laneIn t x j).flg &&& ~~~flags = (laneOf x.w j).flg &&& ~~~flags
  flagOff : ∀ j, inMask x.g j = false → (laneIn t x j).flg = (laneOf x.w j).flg
  gen : ∀ j, (4096 ∉ keys ∨ inMask x.g j = false) → (laneIn t x j).gs = (laneOf x.w j).gs
  warps : ∀ k, k ≠ x.k → find t.warps k = find s.warps k
/-- The parts of the machine beside its warps. -/
inductive Part where | mem | cores | wgs | launches | queues | ctxs | stores | arrivals | fabric
  deriving DecidableEq, Repr
/-- Every part is as it was but those named: every byte of memory, every hardware register but the accounts of energy (R334, R335),
tiles and accumulators, workgroups with their frames and barriers, launches, queues, contexts, and accesses under way. -/
structure Rest (s t : State) (but : List Part) : Prop where
  mem : .mem ∉ but → ∀ a, memGet t.mem a = memGet s.mem a
  hw : ∀ k n, k ≠ .cbal → k ≠ .cuse → k ≠ .tuse → reg t k n = reg s k n
  cores : .cores ∉ but → t.cores = s.cores
  wgs : .wgs ∉ but → t.wgs = s.wgs
  launches : .launches ∉ but → t.launches = s.launches
  queues : .queues ∉ but → t.queues = s.queues
  ctxs : .ctxs ∉ but → t.ctxs = s.ctxs
  stores : .stores ∉ but → t.stores = s.stores
  arrivals : .arrivals ∉ but → t.arrivals = s.arrivals
  fabric : .fabric ∉ but → t.fabric = s.fabric
/-- What an instruction leaves alone that writes nothing but registers. -/
def Leaves (s t : State) (x : Iss) (keys : List Nat) (flags : Word) : Prop := Still s t x keys flags ∧ Rest s t []

/-! ### Numbers and rounding -/

/-- The number that a value is; none for an infinity or a NaN. -/
def numOf : FVal → Option ℚ
  | .fin neg n e => some ((if neg then -1 else 1) * n * (2 : ℚ) ^ e)
  | _ => none
/-- R103: an encoding and its flags are Round of a number that is not zero, in a mode with or without SAT, into a format of precision `p`, least
exponent `emin` and greatest number `top`. The number lies at or above `m` spacings and below the next; `up` says that the latter is taken. `draw` is
the value drawn from the generator (R104). -/
def Rounds (f : FFmt) (p : ℕ) (emin : ℤ) (top : ℚ) (mode : Rnd) (sat : Bool) (draw : ℕ) (x : ℚ) (r : ℕ × ℕ) : Prop :=
  ∃ (e m : ℤ) (up : Bool), emin ≤ e ∧ |x| < 2 ^ (e + 1) ∧ (e = emin ∨ 2 ^ e ≤ |x|) ∧
    let q : ℚ := 2 ^ (e - p + 1)
    let y : ℚ := (m + if up then 1 else 0) * q
    m * q ≤ x ∧ x < (m + 1) * q ∧
    (up = true ↔ x ≠ m * q ∧ match mode with
      | .rne => q < 2 * (x - m * q) ∨ q = 2 * (x - m * q) ∧ m % 2 = 1
      | .rz => x < 0
      | .ru => True
      | .rd => False
      | .rs => draw * q < (x - m * q) * 2 ^ 32) ∧
    (|y| ≤ top → numOf (f.decode r.1) = some y ∧ r.1 < 2 ^ f.w ∧ (y = 0 → r.1 = if x < 0 then 2 ^ (f.w - 1) else 0) ∧
      r.2 = if y = x then 0 else fNX + if |x| < 2 ^ emin then fUF else 0) ∧
    (top < |y| → r.2 = fOF + fNX ∧ r.1 =
      if sat = true ∨ mode = .rz ∨ mode = .ru ∧ x < 0 ∨ mode = .rd ∧ 0 < x then f.signed (x < 0) f.maxEnc else if f.e4m3 then f.nan else f.inf (x < 0))

/-! ### Unfinished instructions -/

/-- The issuer's warp holds one more unfinished instruction, `u`: this one, of this group, with the lanes `m` still to complete (R69). -/
def Joins (t : State) (x : Iss) (id : Nat) (m : Mask) (u : Outst) : Prop :=
  (warpOf t x).outs = x.w.outs ++ [u] ∧ u.id = id ∧ u.pc = x.pc ∧ u.ins = x.i ∧ u.mask = x.mask ∧ u.act = m ∧ u.left = m
/-- No load of the warp has still to read: an instruction that writes or orders leaves the registers alone. -/
def Settled (w : Warp) : Prop := ∀ o ∈ w.outs, todoOf o = []
/-- A run of `n` registers gets a value, low word first: of a lane that still lives, or of the warp (R62, R238). -/
def Fills (w u : Warp) (lane : Nat) (d : Opd) (n v : Nat) : Prop :=
  match d with
  | .v r => (laneOf w lane).active = true → ∀ k, k < n → (laneOf u lane).rd (r.val + k) = wd (v / 2 ^ (32 * k))
  | .s r => ∀ k, k < n → u.rdS (r.val + k) = wd (v / 2 ^ (32 * k))
  | _ => True
/-- Every access leads to memory, none to a fabric window or to the firmware register space. -/
def Local (l : List (Nat × DWord × Xlate)) : Prop := ∀ e ∈ l, ∃ pa c, e.2.2.dest = .mem pa c

/-- What a pending store or RMW says. -/
def PStore.says (p : PStore) : Point × Nat × List Byte × Option Scope × Bool × Option RmwOp := (p.po, p.pa, p.bytes, p.rel, p.cached, p.rmw)

/-! ### Atomics -/

/-- The operand of an atomic in a lane, and for `cas` the value compared with: the low half of the register group (R245). -/
def rmwOperand (x : Iss) (op : Rmw) (wide : Bool) (d : Opd) (j : Nat) : Nat × Nat :=
  match op, d with
  | .cas, .v r => (number (laneOf x.w j).rd (r.val + wn wide) wide, number (laneOf x.w j).rd r.val wide)
  | _, _ => ((x.valW wide d j).toNat, 0)
/-- The new value of a place of 4 or 8 bytes: old value `v`, operand `b`, compared value `cmp` (R245). -/
def rmwNew (op : Rmw) (wide : Bool) (v b cmp : Nat) : Nat :=
  let m : Nat := 2 ^ bw wide
  let sg (v : Nat) : Int := if v < 2 ^ (bw wide - 1) then v else v - m
  match op with
  | .add => (v + b) % m
  | .smin => (min (sg v) (sg b) % m).toNat
  | .umin => min v b
  | .smax => (max (sg v) (sg b) % m).toNat
  | .umax => max v b
  | .and => v &&& b
  | .or => v ||| b
  | .xor => v ^^^ b
  | .exch => b
  | .cas => if v = cmp then b else v
  | .fadd => (addV fp32 (fp32.decode v) (fp32.decode b)).1 % m

/-! ### Traps -/

/-- The lanes `m` of a warp can take a trap in frame `f` of their workgroup: at level 0 under a handler, with the frame's memory writable
and no continuation handler (R398, R399). -/
structure Handled (s : State) (k : Nat) (w : Warp) (g : Workgroup) (f : Nat) : Prop where
  here : find s.warps k = some w
  core : w.fw = none
  level : w.level = 0
  cpc : w.cpc = 0
  group : find s.wgs w.wg = some g
  free : freeFrame g = some f
  mapped : frameOk s w g f = true
  handler : reg s .hvec w.ctx ≠ 0
/-- They can take it, and nothing of theirs is unfinished. -/
structure Catches (s : State) (k : Nat) (w : Warp) (m : Mask) (g : Workgroup) (f : Nat) : Prop extends Handled s k w g f where
  alone : ∀ o ∈ w.outs, o.mask &&& m = 0
/-- The trap has been taken: level 1, the lanes at the handler, and their registers, flags and place in the frame (R399, R401); `rep` are
the instructions queued in it. -/
structure Caught (s t : State) (k : Nat) (w : Warp) (m : Mask) (g : Workgroup) (f : Nat) (c : Trap) (rep : List Instr) : Prop where
  warp : ∃ u, find t.warps k = some u ∧ u.level = 1 ∧ u.frame = some f ∧ u.s = w.s ∧ u.a = w.a ∧ ∀ j, j < w.lanes.length →
    (laneOf u j).v = (laneOf w j).v ∧ (laneOf u j).p = (laneOf w j).p ∧ (laneOf u j).flg = (laneOf w j).flg ∧
    (inMask m j = true → (laneOf u j).pc = reg s .hvec w.ctx + 4 ∧ (laneOf u j).st = .trapped ∧ (laneOf u j).wait = .none) ∧
    (inMask m j = false → (laneOf u j).pc = (laneOf w j).pc)
  frame : ∃ g', find t.wgs w.wg = some g' ∧ g'.restart = false ∧
    (∀ n, n ≠ f → nth g'.frames n noFrame = nth g.frames n noFrame) ∧
    let fr := nth g'.frames f noFrame
    fr.state = 1 ∧ fr.cause = wd (c.cause + if c.cause = 14 ∨ c.cause = 15 ∨ c.cause = 30 ∨ c.cause = 31 then 0 else 256) ∧
    fr.fpc = (if c.cause = 30 then c.rpc else c.fpc) ∧ fr.rpc = c.rpc ∧ fr.fva = c.fva ∧ fr.synd = c.synd ∧ fr.gmask = m ∧
    fr.gen = ((nth g.frames f noFrame).gen + 1) % 4 ∧ fr.token = tokenOf w f fr.gen ∧ fr.warp = k ∧
    fr.pred = w.lanes.map (·.p) ∧ fr.flg = w.lanes.map (·.flg) ∧ fr.ss = (List.range 8).map w.rdS ∧
    fr.sv = w.lanes.map (fun l => (List.range 8).map l.rd) ∧ fr.rep.map (·.o.ins) = rep
  others : ∀ n, n ≠ k → find t.warps n = find s.warps n
  rest : Rest s t (if rep = [] then [.wgs] else [.wgs, .cores, .arrivals])

/-! ### Hardware registers -/

/-- Every hardware register but those of `ks` and the accounts of energy is as it was. -/
def RegsBut (s t : State) (ks : List (RegKind × Nat)) : Prop := ∀ k n, n < kindCount k → (k, n) ∉ ks → k ≠ .cbal → k ≠ .cuse → k ≠ .tuse →
  reg t k n = reg s k n
/-- Everything of `Rest` but the hardware registers. -/
def Beside (s t : State) : Prop := (∀ a, memGet t.mem a = memGet s.mem a) ∧ t.cores = s.cores ∧ t.wgs = s.wgs ∧ t.launches = s.launches ∧
  t.queues = s.queues ∧ t.ctxs = s.ctxs ∧ t.stores = s.stores ∧ t.arrivals = s.arrivals ∧ t.fabric = s.fabric

end Sys2Proof.Safety
end

