-- ==== Sys2Proof/Certificates/Slice0/Obligations.lean ====
section
/-! DEFINITION. The obligations: what the numbered rules of the spec say the machine does, instruction by instruction and event by event, and
the invariants that every step keeps. The words they use are defined in Safety.lean. -/
open Sys2Proof Sys2Proof.Machine Sys2Proof.Safety

/-- R4, R321, R324, R344, R345, R353, R365, R378, R392, R393. After device reset no thread, workgroup, launch or queue exists, device time is 0, and every register
has the value its own table gives (the few that the spec leaves open are not named here: log 4). That memory already reads as zero, which R432 makes it at
bring-up only, and that nothing runs before POWER_ON are the model's choice (log 6, log 31). -/
def Obligations.ResetValues : Prop :=
  (∀ a, memGet State.reset.mem a = 0) ∧ State.reset.warps = [] ∧ State.reset.wgs = [] ∧ State.reset.launches = [] ∧ State.reset.queues = [] ∧
  State.reset.now = 0 ∧ State.reset.tlb = [] ∧ (∀ n, ctxValid State.reset n = false ∧ ctxShare State.reset n = 1) ∧
  (∀ n, reg State.reset .pcfg n = 0x60 ∧ reg State.reset .opmb n = 0x66 ∧ reg State.reset .psch n = 100 ∧ reg State.reset .tpeer n = 0xFFF ∧
    reg State.reset .tbud n = 0 ∧ reg State.reset .part n = 0 ∧ reg State.reset .s2r n = 0 ∧ reg State.reset .evrb n = 0) ∧
  (∀ n, reg State.reset .ilim n = 0x03E803E8 ∧ dbits (reg State.reset .clst n) 0 22 = 0x66FF0 ∧ reg State.reset .otxm n = 0xFAC688 ∧
    reg State.reset .orxm n = 0xFAC688 ∧ reg State.reset .ostr n = 0xFFFF00 ∧ reg State.reset .fseg n = 0) ∧
  (∀ n, reg State.reset .cbal n = 0 ∧ reg State.reset .cinf n = 0 ∧ reg State.reset .ctxt n = 0 ∧ reg State.reset .cwin n = 0 ∧ reg State.reset .hvec n = 0 ∧
    reg State.reset .cimg n = 0 ∧ reg State.reset .ctxs n = 0) ∧
  reg State.reset .rcfg 0 = 0x05DC0000 ∧ reg State.reset .pdem 0 = 5000 ∧ reg State.reset .pcap 0 = 5000 ∧ reg State.reset .rack 0 = 0 ∧
  reg State.reset .bstat 0 = 0 ∧ ∀ cl c, weightIn State.reset cl 6 c = nth op6 c 0

/-- The invariants hold after reset. -/
def Obligations.ResetInv : Prop := Inv State.reset

/-- Every step keeps memory in its canonical form, every map's keys rising, and every reserved bit zero (R4). -/
def Obligations.StepKeepsInv : Prop := ∀ s t : State, Inv s → step s = .next t → Inv t

/-- R50, R71, R269: a group that issues runs `exec` of the instruction that the twelve bytes of its slot decode to, after the selector has moved on.
The order in which a step takes what waits (an input or consequence, what is settled at once, what is due, a task passed over long enough, or a free
choice, after which device time passes) is the model's (log 3), and so are the blocks that a warp keeps (log 11). -/
def Obligations.StepRunsDecoded : Prop := ∀ s : State,
  let taken (t : Task) : Prop := dueTask s = some t ∨ dueTask s = none ∧ choose s (choices s ++ evictions s) = some (runTask s t)
  let on (t : Task) : State := { s with waits := s.waits.filter fun w => w.task != t }
  (∀ i r, s.agenda = i :: r → step s = afterStep false (exec i { s with agenda := r })) ∧
  (s.agenda = [] → (∀ a, upkeep s = some a → step s = .next (run a s)) ∧
    (upkeep s = none → (∀ i r, forced s = i :: r → step s = afterStep false (exec i s)) ∧
      (forced s = [] → ∀ p, s.warps.findSome? (fun e => heldPlan s e.1 e.2) = some p → step s = afterStep p.time (.next (run p.pre s))) ∧
      (forced s = [] → s.warps.findSome? (fun e => heldPlan s e.1 e.2) = none →
        (∀ t c cur i, taken t → taskPlan s t = planOffer (c, .issue cur i) →
          step s = afterStep (dueTask s).isNone (exec i (run (acts [takeSlot c, openSlot cur i, upd (.cur (some cur))]) (on t)))) ∧
        (∀ t i, taken t → taskPlan s t = planRun i → step s = afterStep (dueTask s).isNone (exec i (on t))) ∧
        ∀ c cur i, dueTask s = none → choose s (choices s ++ evictions s) = some (planJoin (c, cur, i)) →
          step s = afterStep true (exec i (run (acts [joinSlot c, upd (.cur (some cur))]) s))))) ∧
  (∀ core c cur i, coOffer s core = some (c, cur, i) → ∃ w b l h q, (c.wk, w) ∈ s.warps ∧ fetchBlock s w c.pc = .ok (b, l) ∧ blockHdr b = some h ∧
    decodeBytes (slotBytes b (slotOf c.pc)) = .ok i ∧ WellFormed i = true ∧ cur.wk = c.wk ∧ cur.pc = c.pc ∧ cur.co = true ∧
    (coreOf s core).slot = some q ∧ q.pc = c.pc ∧ q.ctx = w.ctx ∧ coIssuable i = true ∧ ∀ n ∈ quartersOf w, n ∉ q.quarters) ∧
  (∀ c cur i, Offered s (c, .issue cur i) → ∃ w b l h, (c.wk, w) ∈ s.warps ∧ fetchBlock s w c.pc = .ok (b, l) ∧ blockHdr b = some h ∧
    decodeBytes (slotBytes b (slotOf c.pc)) = .ok i ∧ WellFormed i = true ∧ cur.wk = c.wk ∧ cur.pc = c.pc) ∧
  ∀ w c b l h i x, fetchBlock s w c.pc = .ok (b, l) → blockHdr b = some h → decodeBytes (slotBytes b (slotOf c.pc)) = .ok i →
    slotOf c.pc < h.slots → callWord (slotBytes b (slotOf c.pc)) = false → (slotOf c.pc ≠ 0 ∨ h.join = false ∧ handlerOk w.level h = true) → (ctlOf i).split = false → c.mask ≠ 0 →
    c.iss s h i = some x → gate s x (x.g != 0 && busyOf i x s) ≠ .wait → offer s w c = some (.issue (c.cur h) i)

/-- R50, R56 to R76. Decoding and encoding agree: a word decodes to an instruction exactly if the instruction is well-formed and the word is its
encoding; no bit of a word is dropped. -/
def Obligations.RoundTrip : Prop := ∀ (w : BitVec 96) (i : Instr), decodeWord w = .ok i ↔ WellFormed i = true ∧ encode i = some w

/-- Words that the spec works out, of each family, decode to the instructions it gives them for. -/
def Obligations.SpecWords : Prop :=
  let ctl (neg : Bool) (p : PSel) (look : BitVec 4) (reuse : Bool) : Ctl := ⟨neg, p, look, 0, reuse, false, 0⟩
  decodeWord 0x0066003FFFFFFFFFFFF00000 = .ok (.nop (ctl true (.p 3) 0 false) ⟨.none, .none, .none, .none, .none⟩) ∧
  decodeWord 0x20040038401F0AFFF8508000 = .ok (.cmp (ctl false (.p 2) 0 false) .i32 .lt .none ⟨.p 4, .v 7, .imm 10, .none, .p 5⟩) ∧
  decodeWord 0x311E0000401406013FF03000 = .ok (.fma (ctl false .pt 0 false) .f16x2 ⟨.v 4, .v 5, .v 6, .v 4, .none⟩) ∧
  decodeWord 0x401E0000500B01FFFFF01000 = .ok (.cvtF32 (ctl false .pt 0 false) .f16 .rne false ⟨.v 5, .v 2, .imm 1, .none, .none⟩) ∧
  decodeWord 0x509E043FFE4B0CCA3FF07000 = .ok (.mmaBf16 (ctl false .pt 0 true) 3 true false ⟨.none, .cv 2, .imm 12, .imm 40, .none⟩) ∧
  decodeWord 0x611E4000840C400010190000 = .ok (.ld (ctl false .pt 2 false) .b32 true .dev ⟨.v 8, .a 3, 4, 0x10⟩) ∧
  decodeWord 0x629E0020EFFC0000401A0000 = .ok (.st (ctl false .pt 0 false) .b32 true .dev ⟨.s 14, .none, 0, 0x40⟩) ∧
  decodeWord 0x701E0020FFFC0000001B0000 = .ok (.atomAdd (ctl false .pt 0 false) .ar .dev false false ⟨.s 15, .none, 0, 0⟩) ∧
  decodeWord 0x7C9E00006FFC0081020147C0 = .ok (.putTRetry (ctl false .pt 0 false) 20 ⟨.v 6, .none, 0, .s 4, 2, 0, none⟩) ∧
  decodeWord 0x880400208FFC001880000000 = .ok (.card (ctl false (.p 2) 0 false) ⟨.s 8, .none, 0, 0x1880⟩) ∧
  decodeWord 0x90040000000000FFFFF00000 = .ok (.bra (ctl false (.p 2) 0 false) ⟨0, .none, .none⟩) ∧
  decodeWord 0x915E000000000800B0306000 = .ok (.jtb (ctl false .pt 0 false) 6 ⟨8, .v 2, .imm 3⟩) ∧
  decodeWord 0x9CDE003FF863FFFFFFF00000 = .ok (.waitNs (ctl false .pt 0 false) ⟨.none, .s 24, .none, .none, .none⟩) ∧
  decodeWord 0xA15E00202820000000000000 = .ok (.contSig (ctl false .pt 0 false) ⟨.s 2, .s 8, 0⟩) ∧
  decodeWord 0xA81E00206CE8010000000000 = .ok (.erd (ctl false .pt 0 false) ⟨.s 6, .imm 58, 0x40⟩)

/-- R125. `add` and `sub`: sum and difference with carry or borrow, and the carry or borrow out. R126, R128. The saturating forms: the exact result, or the nearer bound with SAT set. -/
def Obligations.SumsAndDifferences : Prop := 
  (∀ (c : Ctl) (ty : ITy) (o : O5) (r : ORI),
  (isAff o.d = false → Does (.add c ty o) never fun s x t =>
    let sum (j : Nat) : Nat := (x.valW ty.wide o.a j).toNat + (x.valW ty.wide o.b j).toNat + b2n (x.carry o.c j)
    Gets t x o.d ty.wide (fun j => sum j) ∧ GetsPred t x o.e (fun j => decide (2 ^ bw ty.wide ≤ sum j)) ∧
    Leaves s t x (spanKeys (o.d, wn ty.wide) ++ spanKeys (o.e, 1)) 0) ∧
  (isAff o.d = false → Does (.sub c ty o) never fun s x t =>
    let dif (j : Nat) : Int := (x.valW ty.wide o.a j).toNat - (x.valW ty.wide o.b j).toNat - b2n (x.carry o.c j)
    Gets t x o.d ty.wide dif ∧ GetsPred t x o.e (fun j => decide (dif j < 0)) ∧
    Leaves s t x (spanKeys (o.d, wn ty.wide) ++ spanKeys (o.e, 1)) 0) ∧
  (isAff r.d = false → Does (.addRi c ty r) never fun s x t =>
    Gets t x r.d ty.wide (fun j => (x.valW ty.wide r.a j).toNat + r.imm.toInt) ∧ Leaves s t x (spanKeys (r.d, wn ty.wide)) 0) ∧
  (isAff r.d = false → Does (.subRi c ty r) never fun s x t =>
    Gets t x r.d ty.wide (fun j => (x.valW ty.wide r.a j).toNat - r.imm.toInt) ∧ Leaves s t x (spanKeys (r.d, wn ty.wide)) 0)) ∧
  (∀ (c : Ctl) (ty : ITy) (o : O5),
  let lo : Int := if ty.signed then -2 ^ (bw ty.wide - 1) else 0
  let hi : Int := if ty.signed then 2 ^ (bw ty.wide - 1) - 1 else 2 ^ bw ty.wide - 1
  let clamped (t : State) (s : State) (x : Iss) (e : Nat → Int) : Prop :=
    Gets t x o.d ty.wide (fun j => max lo (min hi (e j))) ∧
    Flags t x o.d (fun j => if lo ≤ e j ∧ e j ≤ hi then 0 else iSAT) ∧ Leaves s t x (spanKeys (o.d, wn ty.wide)) (wd iSAT)
  (ty.wide = false → Does (.addSat c ty o) never fun s x t => clamped t s x fun j => x.int ty o.a j + x.int ty o.b j) ∧
  (ty.wide = false → Does (.subSat c ty o) never fun s x t => clamped t s x fun j => x.int ty o.a j - x.int ty o.b j) ∧
  Does (.absSat c ty o) never fun s x t => clamped t s x fun j => ((x.int ty o.a j).natAbs : Int))

/-- R127. The multiply forms. R128. The lesser, the greater, the negation and the absolute value, under the type's reading. -/
def Obligations.ProductsAndOrder : Prop := 
  (∀ (c : Ctl) (ty : ITy) (o : O5) (r : ORI),
  (isAff o.d = false → Does (.mulLo c ty o) never fun s x t =>
    Gets t x o.d ty.wide (fun j => x.int ty o.a j * x.int ty o.b j) ∧ Leaves s t x (spanKeys (o.d, wn ty.wide)) 0) ∧
  (isAff r.d = false → Does (.mulLoRi c ty r) never fun s x t =>
    Gets t x r.d ty.wide (fun j => x.int ty r.a j * r.imm.toInt) ∧ Leaves s t x (spanKeys (r.d, wn ty.wide)) 0) ∧
  (Does (.mulHi c ty o) never fun s x t =>
    Gets t x o.d false (fun j => x.int ty o.a j * x.int ty o.b j / 2 ^ 32) ∧ Leaves s t x (spanKeys (o.d, 1)) 0) ∧
  (Does (.mulWide c ty o) never fun s x t =>
    Gets t x o.d true (fun j => x.int ty o.a j * x.int ty o.b j) ∧ Leaves s t x (spanKeys (o.d, 2)) 0) ∧
  (Does (.madLo c ty o) never fun s x t =>
    Gets t x o.d false (fun j => x.int ty o.a j * x.int ty o.b j + (x.val o.c j).toNat) ∧ Leaves s t x (spanKeys (o.d, 1)) 0) ∧
  Does (.madWide c ty o) never fun s x t =>
    Gets t x o.d true (fun j => x.int ty o.a j * x.int ty o.b j + (x.val64 o.c j).toNat) ∧ Leaves s t x (spanKeys (o.d, 2)) 0) ∧
  (∀ (c : Ctl) (ty : ITy) (o : O5) (r : ORI),
  let b : Int := if ty.signed then r.imm.toInt else (if ty.wide then (r.imm.signExtend 64).toNat else r.imm.toNat)
  let one (i : Instr) (d : Opd) (f : Iss → Nat → Int) : Prop :=
    Does i never fun s x t => Gets t x d ty.wide (f x) ∧ Leaves s t x (spanKeys (d, wn ty.wide)) 0
  one (.min c ty o) o.d (fun x j => min (x.int ty o.a j) (x.int ty o.b j)) ∧
  one (.max c ty o) o.d (fun x j => max (x.int ty o.a j) (x.int ty o.b j)) ∧
  one (.minRi c ty r) r.d (fun x j => min (x.int ty r.a j) b) ∧
  one (.maxRi c ty r) r.d (fun x j => max (x.int ty r.a j) b) ∧
  one (.neg c ty o) o.d (fun x j => -x.int ty o.a j) ∧
  one (.abs c ty o) o.d (fun x j => ((x.int ty o.a j).natAbs : Int) ))

/-- R131, R132. The bitwise forms, bit by bit. -/
def Obligations.Logic : Prop := ∀ (c : Ctl) (f1 f2 : BitVec 4) (o : O5) (r : ORI),
  let bits (i : Instr) (d : Opd) (f : Iss → Nat → Nat → Bool) : Prop :=
    Does i never fun s x t => ∃ w : Nat → Word, Gets t x d false (fun j => (w j).toNat) ∧
      (∀ j k, k < 32 → (w j).getLsbD k = f x j k) ∧ Leaves s t x (spanKeys (d, 1)) 0
  let bit (x : Iss) (a : Opd) (j k : Nat) : Bool := (x.val a j).getLsbD k
  (isAff o.d = false → bits (.lcomb c f1 f2 o) o.d fun x j k =>
    let t := f1.getLsbD (2 * b2n (bit x o.a j k) + b2n (bit x o.b j k))
    if o.c = .none then t else f2.getLsbD (2 * b2n t + b2n (bit x o.c j k))) ∧
  (isAff r.d = false → bits (.andRi c r) r.d fun x j k => bit x r.a j k && r.imm.getLsbD k) ∧
  bits (.orRi c r) r.d (fun x j k => bit x r.a j k || r.imm.getLsbD k) ∧
  bits (.xorRi c r) r.d (fun x j k => bit x r.a j k != r.imm.getLsbD k)

/-- R133, R134. Shifts, bit-field extract and bit-field insert. R135. Counts of one bits, of leading and of trailing zeros, and the bits in reverse. -/
def Obligations.ShiftsFieldsCounts : Prop := 
  (∀ (c : Ctl) (ty : ITy) (o : O5),
  let amount (x : Iss) (j : Nat) : Nat := (x.val o.b j).toNat
  (isAff o.d = false → Does (.shl c ty o) never fun s x t =>
    Gets t x o.d ty.wide (fun j => (x.valW ty.wide o.a j).toNat * 2 ^ amount x j) ∧ Leaves s t x (spanKeys (o.d, wn ty.wide)) 0) ∧
  (Does (.shr c ty o) never fun s x t =>
    Gets t x o.d ty.wide (fun j => ((x.valW ty.wide o.a j).toNat / 2 ^ amount x j : Nat)) ∧ Leaves s t x (spanKeys (o.d, wn ty.wide)) 0) ∧
  (Does (.sar c ty o) never fun s x t =>
    Gets t x o.d ty.wide (fun j => x.int ty o.a j / 2 ^ amount x j) ∧ Leaves s t x (spanKeys (o.d, wn ty.wide)) 0) ∧
  (Does (.bfe c ty o) never fun s x t =>
    Gets t x o.d false (fun j =>
      let len := min (x.val o.c j).toNat 32
      let a : Int := if ty.signed then (x.val o.a j).toInt else (x.val o.a j).toNat
      let f := a / 2 ^ amount x j % 2 ^ len
      if ty.signed ∧ 0 < len ∧ f / 2 ^ (len - 1) % 2 = 1 then f - 2 ^ len else f) ∧ Leaves s t x (spanKeys (o.d, 1)) 0) ∧
  Does (.bfi c o) never fun s x t => ∃ w : Nat → Word, Gets t x o.d false (fun j => (w j).toNat) ∧
    (∀ j k, k < 32 → (w j).getLsbD k =
      let pos := (x.val o.c j).toNat
      if pos ≤ k ∧ k < pos + min (x.val o.e j).toNat 32 then (x.val o.b j).getLsbD (k - pos) else (x.val o.a j).getLsbD k) ∧
    Leaves s t x (spanKeys (o.d, 1)) 0) ∧
  (∀ (c : Ctl) (wide : Bool) (o : O5),
  let w := bw wide
  let bit (x : Iss) (j k : Nat) : Bool := (x.valW wide o.a j).getLsbD k
  (Does (.popc c wide o) never fun s x t =>
    Gets t x o.d false (fun j => ((List.range w).countP (bit x j) : Nat)) ∧ Leaves s t x (spanKeys (o.d, 1)) 0) ∧
  (Does (.clz c wide o) never fun s x t => ∃ n : Nat → Nat, Gets t x o.d false (fun j => n j) ∧
    (∀ j, n j ≤ w ∧ (∀ k, w - n j ≤ k → k < w → bit x j k = false) ∧ (n j < w → bit x j (w - n j - 1) = true)) ∧
    Leaves s t x (spanKeys (o.d, 1)) 0) ∧
  (Does (.ctz c wide o) never fun s x t => ∃ n : Nat → Nat, Gets t x o.d false (fun j => n j) ∧
    (∀ j, n j ≤ w ∧ (∀ k, k < n j → bit x j k = false) ∧ (n j < w → bit x j (n j) = true)) ∧
    Leaves s t x (spanKeys (o.d, 1)) 0) ∧
  Does (.brev c wide o) never fun s x t => ∃ v : Nat → Nat, Gets t x o.d wide (fun j => v j) ∧
    (∀ j k, v j < 2 ^ w ∧ (k < w → (v j).testBit k = bit x j (w - 1 - k))) ∧ Leaves s t x (spanKeys (o.d, wn wide)) 0)

/-- R136, R140. Selecting, copying, and moving values between the register classes. R141, R144, R145. Reads of other lanes and votes. -/
def Obligations.SelectMoveLanes : Prop := 
  (∀ (c : Ctl) (wide : Bool) (o : O5) (r : ORI),
  let copies (i : Instr) (d : Opd) (wide : Bool) (f : Iss → Nat → Nat) : Prop :=
    Does i never fun s x t => Gets t x d wide (fun j => f x j) ∧ Leaves s t x (spanKeys (d, wn wide)) 0
  copies (.sel c wide o) o.d wide (fun x j =>
    if (laneOf x.w j).predOpd o.c then (x.valW wide o.a j).toNat else (x.valW wide o.b j).toNat) ∧
  (isAff o.d = false → copies (.mov c wide o) o.d wide fun x j => (x.valW wide o.a j).toNat) ∧
  copies (.movRi c r) r.d false (fun _ _ => r.imm.toNat) ∧
  copies (.matl c o) o.d false (fun x j => (x.val o.a j).toNat) ∧
  copies (.bcst c o) o.d false (fun x j => (x.val o.a j).toNat) ∧
  copies (.bcstRi c r) r.d false (fun _ _ => r.imm.toNat) ∧
  copies (.agetBase c o) o.d false (fun x _ => (x.affine o.a).1.toNat) ∧
  copies (.agetStride c o) o.d false (fun x _ => (x.affine o.a).2.toNat)) ∧
  (∀ (c : Ctl) (wide : Bool) (mode : VoteMode) (o : O5),
  (Does (.rdlane c o) never fun s x t =>
    let j := (x.val o.b 0).toNat
    let ok : Bool := decide (j < x.w.width) && inMask x.w.activeSet j
    Gets t x o.d false (fun _ => ((if ok then x.val o.a j else x.val o.c 0).toNat : Nat)) ∧ (GetsPred t x o.e fun _ => !ok) ∧
    Leaves s t x (spanKeys (o.d, 1) ++ spanKeys (o.e, 1)) 0) ∧
  (let lanex (i : Instr) (src : Iss → Nat → Int) : Prop := Does i never fun s x t =>
     let ok (j : Nat) : Bool := decide (0 ≤ src x j ∧ src x j < x.w.width) && inMask x.mask (src x j).toNat
     Gets t x o.d wide (fun j => if ok j then ((x.valW wide o.a (src x j).toNat).toNat : Int) else
       (if wide then (x.val o.c j).toInt else (x.val o.c j).toNat)) ∧
     (GetsPred t x o.e fun j => !ok j) ∧ Leaves s t x (spanKeys (o.d, wn wide) ++ spanKeys (o.e, 1)) 0
   lanex (.lanexSel c wide o) (fun x j => (x.val o.b j).toNat) ∧
   lanex (.lanexPat c wide o) fun x j =>
     let ctl := x.val o.b 0
     let k : Int := (BitVec.ofNat 6 j &&& ~~~ctl.extractLsb' 8 6 ^^^ ctl.extractLsb' 0 6).toNat
     let ofs : Int := (ctl.extractLsb' 16 7).toInt
     if ctl.getLsbD 24 then (k + ofs) % x.w.width else k + ofs) ∧
  Does (.vote c mode o) never fun s x t =>
    let yes (j : Nat) : Bool := inMask x.w.activeSet j && (laneOf x.w j).predOpd o.a
    let lanes := (List.range x.w.width).filter yes
    Gets t x o.d (mode == .mask) (fun _ => match mode with
      | .mask => ((lanes.map fun j => 2 ^ j).sum : Nat)
      | .cnt => (lanes.length : Nat)
      | .cntf => (((List.range x.w.width).filter fun j => inMask x.w.activeSet j && !(laneOf x.w j).predOpd o.a).length : Nat)
      | .first => (lanes.head?.getD x.w.width : Nat)
      | .last => (lanes.getLast?.getD x.w.width : Nat)) ∧
    Leaves s t x (spanKeys (o.d, wn (mode == .mask))) 0)

/-- R138, R139. Compares write the truth of the condition and its complement, each combined with a predicate; `pcomb` combines
predicates through its tables. Where both destinations are one predicate, the second write stands. -/
def Obligations.Compares : Prop := ∀ (c : Ctl) (ty : ITy) (cond : Cond) (bop : BOp) (f1 f2 : BitVec 4) (o : O5) (r : ORI),
  let holds (a b : Int) : Bool := match cond with
    | .eq => a == b | .ne => a != b | .lt => decide (a < b) | .le => decide (a ≤ b) | .gt => decide (a > b) | .ge => decide (a ≥ b)
  let comb (t q : Bool) : Bool := match bop with | .none => t | .and => t && q | .or => t || q | .xor => t != q
  (Does (.cmp c ty cond bop o) never fun s x t =>
    let v (j : Nat) : Bool := holds (x.int ty o.a j) (x.int ty o.b j)
    let q (j : Nat) : Bool := (laneOf x.w j).predOpd o.c
    (o.d ≠ o.e → GetsPred t x o.d fun j => comb (v j) (q j)) ∧ (GetsPred t x o.e fun j => comb (!v j) (q j)) ∧
    Leaves s t x (spanKeys (o.d, 1) ++ spanKeys (o.e, 1)) 0) ∧
  (Does (.cmpRi c ty cond r) never fun s x t =>
    let b : Int := if ty.signed then r.imm.toInt else (if ty.wide then (r.imm.signExtend 64).toNat else r.imm.toNat)
    (GetsPred t x r.d fun j => holds (x.int ty r.a j) b) ∧ Leaves s t x (spanKeys (r.d, 1)) 0) ∧
  Does (.pcomb c f1 f2 o) never fun s x t =>
    let p (a : Opd) (j : Nat) : Bool := (laneOf x.w j).predOpd a
    let u (j : Nat) : Bool := f1.getLsbD (2 * b2n (p o.a j) + b2n (p o.b j))
    let v (j : Nat) : Bool := if o.c = .none then u j else f2.getLsbD (2 * b2n (u j) + b2n (p o.c j))
    (o.d ≠ o.e → GetsPred t x o.d v) ∧ (GetsPred t x o.e fun j => !v j) ∧
    Leaves s t x (spanKeys (o.d, 1) ++ spanKeys (o.e, 1)) 0

/-- R130, R158, R76. The sticky flags are read and cleared as the forms name them; `nop` changes nothing. R104, R166. The generator is seeded and read, and NextRand advances it. -/
def Obligations.StickyFlagsAndGenerator : Prop := 
  (∀ (c : Ctl) (m4 : BitVec 4) (m5 : BitVec 5) (o : O5),
  let clears (i : Instr) (mask : Word) : Prop := Does i never fun s x t =>
    (∀ j, Iss.On x j → (laneIn t x j).flg = (laneOf x.w j).flg &&& ~~~mask) ∧ Leaves s t x [] mask
  (Does (.nop c o) never fun s x t => Leaves s t x [] 0) ∧
  (Does (.flgiRd c o) never fun s x t =>
    Gets t x o.d false (fun j => ((laneOf x.w j).flg &&& 0x1E0).toNat) ∧ Leaves s t x (spanKeys (o.d, 1)) 0) ∧
  (Does (.fflgRd c o) never fun s x t =>
    Gets t x o.d false (fun j => ((laneOf x.w j).flg &&& 0x1F).toNat) ∧ Leaves s t x (spanKeys (o.d, 1)) 0) ∧
  clears (.flgiClr c m4 o) (m4.setWidth 32 <<< 5) ∧ clears (.fflgClr c m5 o) (m5.setWidth 32)) ∧
  (∀ (c : Ctl) (o : O5),
  (Does (.rngSeed c o) never fun s x t =>
    (∀ j, Iss.On x j → (laneIn t x j).gs = x.val64 o.a j) ∧ Leaves s t x [4096] 0) ∧
  (Does (.rngRd c o) never fun s x t =>
    Gets t x o.d true (fun j => (laneOf x.w j).gs.toNat) ∧ Leaves s t x (spanKeys (o.d, 2)) 0) ∧
  Does (.rngNext c o) never fun s x t =>
    let state (j : Nat) : DWord := (laneOf x.w j).gs + 0x9E3779B97F4A7C15
    let mixed (j : Nat) : DWord :=
      let z := (state j ^^^ (state j >>> 30)) * 0xBF58476D1CE4E5B9
      let z := (z ^^^ (z >>> 27)) * 0x94D049BB133111EB
      z ^^^ (z >>> 31)
    Gets t x o.d false (fun j => ((mixed j).toNat / 2 ^ 32 : Nat)) ∧ (∀ j, Iss.On x j → (laneIn t x j).gs = state j) ∧
    Leaves s t x (spanKeys (o.d, 1) ++ [4096]) 0)

/-- R152, R153, R93. Sums, differences, products and fused forms of each element, rounded once (R103), the flags of both elements
together. -/
def Obligations.FloatArithmetic : Prop := ∀ (c : Ctl) (ft : FTy) (o : O5) (r : ORI),
  let f := ftFmt ft
  let elems (i : Instr) (d : Opd) (g : Iss → Nat → Nat → Nat × Nat) : Prop := Does i never fun s x t =>
    Gets t x d false (fun j => if ftPair ft then (g x j 0).1 + 65536 * (g x j 1).1 else (g x j 0).1) ∧
    Flags t x d (fun j => if ftPair ft then (g x j 0).2 ||| (g x j 1).2 else (g x j 0).2) ∧ Leaves s t x (spanKeys (d, 1)) 0x1F
  let v (x : Iss) (a : Opd) (j e : Nat) : FVal := f.decode (x.fbits ft a j e)
  let imm (e : Nat) : FVal := f.decode (immBits ft r.imm e)
  elems (.fadd c ft o) o.d (fun x j e => addV f (v x o.a j e) (v x o.b j e)) ∧
  elems (.faddRi c ft r) r.d (fun x j e => addV f (v x r.a j e) (imm e)) ∧
  elems (.fsub c ft o) o.d (fun x j e => addV f (v x o.a j e) (v x o.b j e).neg) ∧
  elems (.fsubRi c ft r) r.d (fun x j e => addV f (v x r.a j e) (imm e).neg) ∧
  elems (.fmul c ft o) o.d (fun x j e => mulV f (v x o.a j e) (v x o.b j e)) ∧
  elems (.fmulRi c ft r) r.d (fun x j e => mulV f (v x r.a j e) (imm e)) ∧
  elems (.fma c ft o) o.d (fun x j e => fmaV f false (v x o.a j e) (v x o.b j e) (v x o.c j e)) ∧
  elems (.fms c ft o) o.d (fun x j e => fmaV f false (v x o.a j e) (v x o.b j e) (v x o.c j e).neg) ∧
  elems (.fnma c ft o) o.d (fun x j e => fmaV f true (v x o.a j e) (v x o.b j e) (v x o.c j e))

/-- R91, R103, R106, R107. The conversion into each format, and the sum, the product, the fused form and the quotient of two encodings, are the exact number
rounded as R103 says, from the number itself; a zero, an infinity and a NaN convert to those of the format. -/
def Obligations.Rounding : Prop :=
  ∀ k ∈ [(fp32, 24, (-126 : ℤ), ((2 : ℚ) ^ 24 - 1) * 2 ^ 104), (fp16, 11, -14, 65504), (bf16, 8, -126, ((2 : ℚ) ^ 8 - 1) * 2 ^ 120), (e4m3, 4, -6, 448),
    (e5m2, 3, -14, 57344)],
  let f := k.1
  let rounds := Rounds f k.2.1 k.2.2.1 k.2.2.2
  (∀ mode sat draw neg n e, let v := FVal.fin neg n e
    (∀ x, numOf v = some x → x ≠ 0 → draw < 2 ^ 32 → rounds mode sat draw x (convert f mode sat draw v)) ∧
    (numOf v = some 0 → convert f mode sat draw v = (if neg then 2 ^ (f.w - 1) else 0, 0)) ∧
    (sat = true → convert f mode sat draw (.inf neg) = (f.signed neg f.maxEnc, 0)) ∧
    (sat = false → f ≠ e4m3 → convert f mode sat draw (.inf neg) = (f.signed neg (f.maxEnc + 1), 0)) ∧
    (sat = false → f = e4m3 → convert f mode sat draw (.inf neg) = (0x7F, fIV)) ∧
    ∀ sig, convert f mode sat draw (.nan sig) = (f.nan, if sig then fIV else 0)) ∧
  ∀ i j l : ℕ, let a := f.decode i
    let b := f.decode j
    let c := f.decode l
    ∀ x y z, numOf a = some x → numOf b = some y → numOf c = some z →
    (x + y ≠ 0 → rounds .rne false 0 (x + y) (addV f a b)) ∧ (x - y ≠ 0 → rounds .rne false 0 (x - y) (addV f a b.neg)) ∧
    (x * y ≠ 0 → rounds .rne false 0 (x * y) (mulV f a b)) ∧ (y ≠ 0 → x ≠ 0 → rounds .rne false 0 (x / y) (divV f a b)) ∧
    ∀ nb : Bool, (if nb then -(x * y) else x * y) + z ≠ 0 → rounds .rne false 0 ((if nb then -(x * y) else x * y) + z) (fmaV f nb a b c)

/-- R154 to R157. Minimum, maximum, median, clamp, absolute value and negation of each element, and the compare. -/
def Obligations.FloatSelect : Prop := ∀ (c : Ctl) (ft : FTy) (cond : FCond) (bop : BOp) (o : O5),
  let f := ftFmt ft
  let elems (i : Instr) (g : Iss → Nat → Nat → Nat × Nat) : Prop := Does i never fun s x t =>
    Gets t x o.d false (fun j => if ftPair ft then (g x j 0).1 + 65536 * (g x j 1).1 else (g x j 0).1) ∧
    Flags t x o.d (fun j => if ftPair ft then (g x j 0).2 ||| (g x j 1).2 else (g x j 0).2) ∧ Leaves s t x (spanKeys (o.d, 1)) (wd fIV)
  let lo (a b : Nat × Nat) : Nat × Nat := ((minMax f false a.1 b.1).1, a.2 ||| b.2 ||| (minMax f false a.1 b.1).2)
  let hi (a b : Nat × Nat) : Nat × Nat := ((minMax f true a.1 b.1).1, a.2 ||| b.2 ||| (minMax f true a.1 b.1).2)
  let v (x : Iss) (a : Opd) (j e : Nat) : Nat × Nat := (x.fbits ft a j e, 0)
  let comb (t q : Bool) : Bool := match bop with | .none => t | .and => t && q | .or => t || q | .xor => t != q
  elems (.fmin c ft o) (fun x j e => lo (v x o.a j e) (v x o.b j e)) ∧
  elems (.fmax c ft o) (fun x j e => hi (v x o.a j e) (v x o.b j e)) ∧
  elems (.fmed3 c ft o) (fun x j e =>
    hi (lo (v x o.a j e) (v x o.b j e)) (lo (hi (v x o.a j e) (v x o.b j e)) (v x o.c j e))) ∧
  elems (.fclamp c ft o) (fun x j e => lo (hi (v x o.a j e) (v x o.b j e)) (v x o.c j e)) ∧
  elems (.fabs c ft o) (fun x j e => (x.fbits ft o.a j e % 2 ^ (f.w - 1), 0)) ∧
  elems (.fneg c ft o) (fun x j e =>
    (if x.fbits ft o.a j e < 2 ^ (f.w - 1) then x.fbits ft o.a j e + 2 ^ (f.w - 1) else x.fbits ft o.a j e - 2 ^ (f.w - 1), 0)) ∧
  Does (.fcmp c ft cond bop o) never fun s x t =>
    let r (j : Nat) : Bool × Nat := fcompare cond (f.decode (x.fbits ft o.a j 0)) (f.decode (x.fbits ft o.b j 0))
    let q (j : Nat) : Bool := (laneOf x.w j).predOpd o.c
    (o.d ≠ o.e → GetsPred t x o.d fun j => comb (r j).1 (q j)) ∧ (GetsPred t x o.e fun j => comb (!(r j).1) (q j)) ∧
    (∀ j, Iss.On x j → (laneIn t x j).flg = (laneOf x.w j).flg ||| wd (r j).2) ∧
    Leaves s t x (spanKeys (o.d, 1) ++ spanKeys (o.e, 1)) (wd fIV)

/-- R162, R161, R104. Conversions, element by element in increasing order; under RS each element draws from the generator, which
keeps the state left. R163 to R165. A conversion through a format slot, and the decode of a block pair, where the slot is bound and suits them. That `cvtf.from`
saturates by its own bit and not by the slot's, and that the flags of these wait for the completion, are the model's (log 63). -/
def Obligations.Conversions : Prop := 
  (∀ (c : Ctl) (sf : SrcF) (rm : Rnd) (sat : Bool) (o : O5),
  let conv (i : Instr) (wide : Bool) (w : Nat) (els : Iss → Nat → List (Nat × Nat)) (f : Nat → Nat → Nat × Nat) : Prop :=
    Does i never fun s x t =>
      let r (j : Nat) := cvtElems rm w f (els x j) (laneOf x.w j).gs
      Gets t x o.d wide (fun j => (r j).1.1) ∧ Flags t x o.d (fun j => (r j).1.2) ∧
      (rm = .rs → ∀ j, Iss.On x j → (laneIn t x j).gs = (r j).2) ∧
      Leaves s t x (spanKeys (o.d, wn wide) ++ if rm = .rs then [4096] else []) (0x1F ||| wd iSAT)
  conv (.cvtF32 c sf rm sat o) false 32 (els1 sf o) (toFloat fp32 sf rm sat) ∧
  conv (.cvtF16 c sf rm sat o) false 16 (els2 sf o) (toFloat fp16 sf rm sat) ∧
  conv (.cvtBf16 c sf rm sat o) false 16 (els2 sf o) (toFloat bf16 sf rm sat) ∧
  conv (.cvtE4m3 c sf rm sat o) false 8 (els4 sf o) (toFloat e4m3 sf rm sat) ∧
  conv (.cvtE5m2 c sf rm sat o) false 8 (els4 sf o) (toFloat e5m2 sf rm sat) ∧
  conv (.cvtI32 c sf rm sat o) false 32 (els1 sf o) (toIntTy .i32 sf rm sat) ∧
  conv (.cvtN32 c sf rm sat o) false 32 (els1 sf o) (toIntTy .n32 sf rm sat) ∧
  conv (.cvtI64 c sf rm sat o) true 64 (els1 sf o) (toIntTy .i64 sf rm sat) ∧
  conv (.cvtN64 c sf rm sat o) true 64 (els1 sf o) (toIntTy .n64 sf rm sat)) ∧
  (∀ (c : Ctl) (rm : Rnd) (slot sat : Bool) (k : BitVec 2) (o : O5) (desc : BitVec 128),
  let mode : Rnd := if slot then dRnd desc else rm
  let held (i : Instr) (ok : Bool) (g : Iss → Nat → (Nat × Nat) × DWord) (gen : Bool) : Prop := ∀ s x, Issues i never s x →
    slotDesc s x.w c.fmt.toNat = some desc → ok = true → ∃ t, exec i s = .next t ∧
      Held t x s.nextId o.d 1 (fun j => BitVec.ofNat 128 (g x j).1.1) (fun j => (g x j).1.2) ∧
      (gen = true → ∀ j, Iss.On x j → (laneIn t x j).gs = (g x j).2) ∧ Leaves s t x (if gen then [4096] else []) 0
  held (.cvtfTo c rm slot sat o) (!cvtfBad desc)
    (fun x j => cvtElems mode 32 (toEf (dEf desc) mode (sat || dSat desc)) [(0, x.cvBits .f32 o.a 0 j)] (laneOf x.w j).gs) (mode == .rs) ∧
  held (.cvtfFrom c rm slot sat o) (!cvtfBad desc && decide (selOf o.b < 32 / WF.srcBits (efSrc (dEf desc))))
    (fun x j => cvtElems mode 32 (toFloat fp32 (efSrc (dEf desc)) mode sat)
      [(0, x.cvBits (efSrc (dEf desc)) o.a (selOf o.b) j)] (laneOf x.w j).gs) (mode == .rs) ∧
  held (.bsdec c k o) (!bsdecBad k.toNat desc) (fun x j =>
    let el (m : Nat) : Nat := decodeBlock (codeEl (dEf desc) m (x.val o.a j)) ((x.val o.b j).toNat % 256) (fp32.decode (x.fbits .f32 o.c j 0))
    ((el (2 * k.toNat) + 65536 * el (2 * k.toNat + 1), 0), 0)) false)

/-- R114, R129, R168, R169. Division and the special functions issue, hold their results, and write no register yet. R69, R113, R238. A long-latency result is written where its lanes still live, with its flags, and its instruction is finished;
`acc.rd` reads the block when it completes, once the passes before it are done. A trap for a zero divisor under DZT is left to the
statements of traps. That the flags come with the completion is the model's (log 63), and where its enclosure of a special function does not decide the rounding
the result is free (log 12). -/
def Obligations.LongResults : Prop := 
  (∀ (c : Ctl) (ty : ITy) (ft : FTy) (o : O5),
  let f := ftFmt ft
  let quot (a b : Int) : Int × Nat :=
    if b = 0 then (0, iDZ) else if ty.signed ∧ a = -2 ^ (bw ty.wide - 1) ∧ b = -1 then (a, iOV) else (a.tdiv b, 0)
  let rmd (a b : Int) : Int × Nat :=
    if b = 0 then (a, iDZ) else if ty.signed ∧ a = -2 ^ (bw ty.wide - 1) ∧ b = -1 then (0, iOV) else (a - b * a.tdiv b, 0)
  let ints (i : Instr) (g : Int → Int → Int × Nat) : Prop := Does i never fun s x t =>
    let r (j : Nat) : Int × Nat := g (x.int ty o.a j) (x.int ty o.b j)
    Held t x s.nextId o.d (wn ty.wide) (fun j => BitVec.ofNat 128 ((r j).1 % 2 ^ bw ty.wide).toNat) (fun j => (r j).2) ∧ Leaves s t x [] 0
  let floats (i : Instr) (g : Iss → Nat → Nat × Nat) : Prop := Does i never fun s x t =>
    Held t x s.nextId o.d 1 (fun j => BitVec.ofNat 128 (g x j).1) (fun j => (g x j).2) ∧ Leaves s t x [] 0
  let fn (n : SpFn) (x : Iss) (j : Nat) : Nat × Nat := special f n (x.fbits ft o.a j 0)
  ints (.div c ty o) quot ∧ ints (.rem c ty o) rmd ∧
  floats (.frcp c ft o) (fn .rcp) ∧ floats (.frsq c ft o) (fn .rsq) ∧ floats (.fsqrt c ft o) (fn .sqrt) ∧
  floats (.fex2 c ft o) (fn .ex2) ∧ floats (.flg2 c ft o) (fn .lg2) ∧ floats (.fsinpi c ft o) (fn .sinpi) ∧
  floats (.fcospi c ft o) (fn .cospi) ∧ floats (.ftanh c ft o) (fn .tanh) ∧
  floats (.fdiv c ft o) fun x j => divV f (f.decode (x.fbits ft o.a j 0)) (f.decode (x.fbits ft o.b j 0))) ∧
  (∀ (s : State) (wk id : Nat) (w : Warp) (o : Outst), find s.warps wk = some w →
  w.outs.find? (fun u => u.id == id) = some o → o.res.n ≤ 4 →
  let done (vals : Nat → Nat) : Prop := ∃ t u, exec (.longLatencyComplete wk id) s = .next t ∧ find t.warps wk = some u ∧
    u.outs = w.outs.filter (fun v => v.id != id) ∧
    (∀ j, j < w.lanes.length → inMask o.left j = true → Fills w u j o.res.dst o.res.n (vals j)) ∧
    (∀ r j, o.res.dst = .v r → j < w.lanes.length → inMask o.left j = true → (laneOf w j).active = true →
      (laneOf u j).flg = (laneOf w j).flg ||| wd (nth o.res.flags j 0)) ∧
    (∀ r j, o.res.dst = .s r → j < w.lanes.length → inMask o.act j = true → (laneOf u j).flg = (laneOf w j).flg ||| wd (nth o.res.flags 0 0)) ∧
    (∀ r j, o.res.dst = .v r → inMask o.left j = false → laneOf u j = laneOf w j) ∧ (∀ j, (laneOf u j).pc = (laneOf w j).pc) ∧ Rest s t []
  (o.kind = .alu → o.res.dz = false → done fun j => (nth o.res.vals (match o.res.dst with | .s _ => 0 | _ => j) 0).toNat) ∧
  (∀ blk f0 r g, o.kind = .accRd blk f0 → o.res.dst = .v r → wgOf s w = some g → passesOn s w.wg blk o.age = false → w.lanes.length ≤ w.width →
    done fun j => (findD (accOf (coreOf s g.core) (nth g.accs blk 0)).els (32 * ((f0 + j) % 32) + (f0 + j) % 1024 / 32) 0).toNat))

/-- R116, R117, R119, R137, R140. The affine forms: base and stride modulo 2^32, and AOV where the exact value of some lane of the
active set is not the value it reads. An overflow under AOVT is left to the statements of traps. -/
def Obligations.AffineForms : Prop := ∀ (c : Ctl) (ty : ITy) (wide uns : Bool) (k : BitVec 3) (f1 f2 : BitVec 4) (n : Fin 32) (o : O5) (r : ORI),
  let lane (p : Word × Word) (j : Nat) : Word := p.1 + p.2 * wd j
  let exact (sg : Bool) (p : Word × Word) (j : Nat) : Int := (if sg then p.1.toInt else p.1.toNat) + p.2.toInt * j
  let form (i : Instr) (d : Opd) (res : Iss → Word × Word) (off : Iss → Nat → Prop) : Prop := d = .a n → Does i never fun s x t =>
    let aov : Prop := ∃ j, inMask x.w.activeSet j = true ∧ off x j
    (¬aov ∨ ∀ l, launchOf s x.w = some l → l.lr.aovt = false) → GetsAff t x d (res x) ∧
      (∀ j, Iss.On x j → (aov → (laneIn t x j).flg = (laneOf x.w j).flg ||| wd aOV) ∧ (¬aov → (laneIn t x j).flg = (laneOf x.w j).flg)) ∧
      Leaves s t x [1024 + n.val] (wd aOV)
  let arith (i : Instr) (d : Opd) (sg : Bool) (a b : Iss → Word × Word) (res : Word × Word → Word × Word → Word × Word)
      (e : Int → Int → Int) : Prop :=
    form i d (fun x => res (a x) (b x)) fun x j => e (exact sg (a x) j) (exact sg (b x) j) ≠
      (if sg then (lane (res (a x) (b x)) j).toInt else ((lane (res (a x) (b x)) j).toNat : Int))
  let pairOf (a : Opd) (x : Iss) : Word × Word := x.affine a
  let imm (_ : Iss) : Word × Word := (r.imm, 0)
  let plus (x y : Word × Word) : Word × Word := (x.1 + y.1, x.2 + y.2)
  let minus (x y : Word × Word) : Word × Word := (x.1 - y.1, x.2 - y.2)
  let times (x y : Word × Word) : Word × Word := if x.2 = 0 then (x.1 * y.1, x.1 * y.2) else (x.1 * y.1, x.2 * y.1)
  let meet (x y : Word × Word) : Word × Word := if x.2 = 0 then (x.1 &&& y.1, x.1 &&& y.2) else (x.1 &&& y.1, x.2 &&& y.1)
  let bits (a b : Iss → Word × Word) (x : Iss) (j : Nat) : Prop := lane (a x) j &&& lane (b x) j ≠ lane (meet (a x) (b x)) j
  arith (.add c ty o) o.d ty.signed (pairOf o.a) (pairOf o.b) plus (· + ·) ∧
  arith (.addRi c ty r) r.d ty.signed (pairOf r.a) imm plus (· + ·) ∧
  arith (.sub c ty o) o.d ty.signed (pairOf o.a) (pairOf o.b) minus (· - ·) ∧
  arith (.subRi c ty r) r.d ty.signed (pairOf r.a) imm minus (· - ·) ∧
  arith (.mulLo c ty o) o.d ty.signed (pairOf o.a) (pairOf o.b) times (· * ·) ∧
  arith (.mulLoRi c ty r) r.d ty.signed (pairOf r.a) imm times (· * ·) ∧
  arith (.lea c k uns o) o.d (!uns) (pairOf o.a) (pairOf o.b) (fun x y => (x.1 + y.1 * wd (2 ^ k.toNat), x.2 + y.2 * wd (2 ^ k.toNat)))
    (fun x y => x + y * 2 ^ k.toNat) ∧
  form (.shl c ty o) o.d (fun x => ((x.affine o.a).1 <<< (x.affine o.b).1.toNat, (x.affine o.a).2 <<< (x.affine o.b).1.toNat))
    (fun x j => exact ty.signed (x.affine o.a) j * 2 ^ (x.affine o.b).1.toNat ≠
      let w := lane ((x.affine o.a).1 <<< (x.affine o.b).1.toNat, (x.affine o.a).2 <<< (x.affine o.b).1.toNat) j
      if ty.signed then w.toInt else (w.toNat : Int)) ∧
  form (.lcomb c f1 f2 o) o.d (fun x => meet (x.affine o.a) (x.affine o.b)) (bits (pairOf o.a) (pairOf o.b)) ∧
  form (.andRi c r) r.d (fun x => meet (x.affine r.a) (r.imm, 0)) (bits (pairOf r.a) imm) ∧
  form (.mov c wide o) o.d (pairOf o.a) (fun _ _ => False) ∧
  form (.movAS c o) o.d (fun x => (x.val o.a 0, 0)) (fun _ _ => False) ∧
  form (.amk c o) o.d (fun x => (x.val o.a 0, x.val o.b 0)) (fun _ _ => False) ∧
  (isAff o.d = false → Does (.lea c k uns o) never fun s x t =>
    Gets t x o.d false (fun j => (x.val o.a j).toNat + (x.val o.b j).toNat * 2 ^ k.toNat) ∧ Leaves s t x (spanKeys (o.d, 1)) 0)

/-- R238, R242, R256. Once its checks pass, a load (or `hgath`) whose threads all lead to memory is held with the address of each
lane still to read, and writes nothing yet. -/
def Obligations.LoadsIssue : Prop := ∀ (c : Ctl) (sz : LdSz) (acq wide : Bool) (sc : Scope) (o : OM),
  let load (i : Instr) (bytes n : Nat) (sext acq gath : Bool) (sc : Scope) (os : List Opd) : Prop := ∀ s x l, Issues i (ldBusy bytes os o) s x →
    x.g ≠ 0 → x.check s .read bytes 12 (x.acting os) (x.ea o) = .ok l → Local l →
    ∃ t u, exec i s = .next t ∧ Joins t x s.nextId x.g u ∧ u.acq = acq ∧ u.res.dst = o.data ∧ u.res.n = n ∧
      u.kind = .load sc bytes sext gath ((localOf l).map fun e => ⟨e.1, e.2.1.toNat, e.2.2.1, e.2.2.2⟩) ∧
      Leaves s t x [] 0
  load (.ld c sz acq sc o) (WF.ldBytes sz) (match sz with | .b64 => 2 | .b128 => 4 | _ => 1) (sz == .i8 || sz == .i16) acq false sc [o.addr] ∧
  load (.hgath c wide o) (if wide then 8 else 4) (wn wide) false false true .dev [o.data]

/-- R207, R238, R240. A lane's reply: its destination gets the bytes at its address, zero- or sign-extended, as its thread sees them at the home,
or in a line of the core's L1 where its scope is warp or core or the line is what the home would answer with; or the value that an operation already
performed left for it. When a load may read is the model's (log 65). -/
def Obligations.RepliesDeliver : Prop := ∀ (s : State) (wk id lane : Nat) (w : Warp) (o : Outst), find s.warps wk = some w →
  w.outs.find? (fun u => u.id == id) = some o → inMask o.left lane = true → lane < w.lanes.length → o.res.n ≤ 4 →
  (∀ r, o.res.dst = .v r → lane < o.res.vals.length) →
  let done (v : Nat) : Prop := ∃ t u, exec (.memoryReply wk id lane) s = .next t ∧ find t.warps wk = some u ∧ Fills w u lane o.res.dst o.res.n v ∧
    (∀ r, o.res.dst = .v r → ∀ j, j ≠ lane → laneOf u j = laneOf w j) ∧ (∀ j, (laneOf u j).pc = (laneOf w j).pc) ∧ Rest s t [.cores, .stores] ∧
    t.stores.map PStore.says = s.stores.map PStore.says
  (∀ sc bytes sext home todo a, o.kind = .load sc bytes sext home todo → todo.find? (fun b => b.lane == lane) = some a →
    readReady s wk w o a bytes = true →
    let p := o.point w wk (readers o a.lane)
    let reads (b : Nat) : Prop := done (if sext = true ∧ b / 2 ^ (8 * bytes - 1) % 2 = 1 then (b + 2 ^ 32 - 2 ^ (8 * bytes)) % 2 ^ 32 else b)
    reads (leNat (overlay s p a.pa bytes)) ∨ (a.cached = true ∧ home = false ∧ ∃ ln, l1Find (coreOf s w.core) w.ctx a.va = some ln ∧
      (near sc = true ∨ ln.bytes = overlay s (corePoint w.core ln.ctx) (64 * ln.pa) 64) ∧ reads (leNat (layer (s.stores.filter fun q => q.seenBy p) (fun b => nth ln.bytes (b % 64) 0) a.pa bytes)))) ∧
  (∀ todo, o.kind = .reply todo → replyMask o lane &&& todo = 0 → done (nth o.res.vals (match o.res.dst with | .s _ => 0 | _ => lane) 0).toNat)

/-- R206, R242. A store leaves memory as it is and enters the memory system: one store for each acting thread, with its bytes and, for a
release, its scope. -/
def Obligations.StoresIssue : Prop := ∀ (c : Ctl) (sz : StSz) (rel : Bool) (sc : Scope) (o : OM),
  let n := WF.stBytes sz
  ∀ s x l, Issues (.st c sz rel sc o) (stBusy n rel sc o) s x → x.g ≠ 0 →
    x.check s .write n 12 (x.acting [o.data, o.addr]) (x.ea o) = .ok l → Local l →
    ∃ t new, exec (.st c sz rel sc o) s = .next t ∧ t.stores = s.stores ++ new ∧
      (∃ l' : List (Nat × DWord × Nat × Bool), l'.Perm (localOf l) ∧ new.map PStore.says =
        l'.map fun e => (x.thread s.nextId (x.acting [o.data, o.addr]) e.1, e.2.2.1, x.dataBytes o.data n e.1, if rel then some sc else none, e.2.2.2, none)) ∧
      Rest s t [.stores, .wgs] ∧ Still s t x [] 0 ∧ (warpOf t x).outs = x.w.outs

/-- R206, R215, R288. A store is performed at its home: its bytes are written, no other byte, and the context's sink is noted. -/
def Obligations.StoresPerform : Prop := ∀ (s : State) (id : Nat) (q : PStore), s.stores.filter (fun p => p.id == id) = [q] →
  q.po.same q.po = true → q.rmw = none → storeReady s q = true → ∃ t, exec (.storePerformed id) s = .next t ∧
    (∀ a, memGet t.mem a = if q.pa ≤ a ∧ a < q.pa + q.bytes.length then nth q.bytes (a - q.pa) 0 else memGet s.mem a) ∧
    t.stores = s.stores.filter (fun p => p.id != id) ∧ (q.po.core < 768 → q.bytes ≠ [] → (ctxOf t q.po.ctx).wd = 0 ∧ (ctxOf t q.po.ctx).lastSink = s.now) ∧
    t.warps = s.warps ∧ Rest s t [.mem, .stores, .ctxs, .cores]

/-- R213, R245, R246, R255. An atomic whose threads lead to memory enters the memory system: one operation for each acting thread, with its operands, no byte
changed yet; unless it is `.nr` (or a slice reduction) it awaits the old values. Performed at the home, the bytes of its place become the
operation of their old value, no other byte changes, and the old value is on its way to its thread. R212, R230, R246. One at scope warp or core
through a cached mapping acts in its core's L1: its new value goes on as a store of the core, made from the bytes of the L1 line. -/
def Obligations.Atomics : Prop :=
  (∀ (c : Ctl) (ord : AOrd) (sc : Scope) (nr wide : Bool) (sop : SredOp) (o : OM),
  let one (i : Instr) (op : Rmw) (busy : Iss → State → Bool) (os : List Opd) (ord : AOrd) (sc : Scope) (nr wide : Bool) : Prop :=
    let n := if wide then 8 else 4
    ∀ s x l, Issues i busy s x → x.g ≠ 0 → x.check s .rmw n 13 (x.acting os) (x.ea o) = .ok l → Local l →
      (op = .cas → ∃ r : Fin 256, o.data = .v r) →
      ∃ t new, exec i s = .next t ∧ t.stores = s.stores ++ new ∧ Rest s t [.stores, .wgs] ∧ Still s t x [] 0 ∧
        (∃ l' : List (Nat × DWord × Nat × Bool), l'.Perm (localOf l) ∧ new.map PStore.says = l'.map fun e =>
          let q := rmwOperand x op wide o.data e.1
          (x.thread s.nextId (x.acting os) e.1, e.2.2.1, toBytes n 0, if ord = .rel ∨ ord = .ar then some sc else none, e.2.2.2,
            some ⟨op.num, wide, dw q.1, dw q.2, near sc && e.2.2.2, (ord == .acq || ord == .ar) && !near sc, if nr then none else some (s.nextId, e.1)⟩)) ∧
        (nr = false → ∃ u, Joins t x s.nextId x.g u ∧ u.kind = .reply x.g ∧ u.res.dst = o.data ∧ u.res.n = wn wide) ∧
        (nr = true → ord = .rlx ∨ ord = .rel → (warpOf t x).outs = x.w.outs)
  let atom (i : Instr) (op : Rmw) (wide : Bool) : Prop := one i op (atomBusy op ord sc wide o) (atomOps op o) ord sc nr wide
  atom (.atomAdd c ord sc nr wide o) .add wide ∧ atom (.atomSmin c ord sc nr wide o) .smin wide ∧
  atom (.atomUmin c ord sc nr wide o) .umin wide ∧ atom (.atomSmax c ord sc nr wide o) .smax wide ∧
  atom (.atomUmax c ord sc nr wide o) .umax wide ∧ atom (.atomAnd c ord sc nr wide o) .and wide ∧
  atom (.atomOr c ord sc nr wide o) .or wide ∧ atom (.atomXor c ord sc nr wide o) .xor wide ∧
  atom (.atomExch c ord sc nr wide o) .exch wide ∧ atom (.atomCas c ord sc nr wide o) .cas wide ∧
  atom (.atomFaddF32 c ord sc nr o) .fadd false ∧
  one (.sred c sop o) (sredRmw sop) (sredBusy o) [o.data, o.addr] .rlx .dev true false) ∧
  ∀ (s : State) (id : Nat) (q : PStore) (r : RmwOp), s.stores.filter (fun p => p.id == id) = [q] → q.po.same q.po = true → q.rmw = some r →
    let n := if r.wide then 8 else 4
    let op := Rmw.ofNum r.op
    q.bytes.length = n → r.x.toNat < 2 ^ bw r.wide → r.cmp.toNat < 2 ^ bw r.wide → (op = .fadd → r.wide = false) →
    (storeReady s q = true → q.entersFirst = false → let old := memNat s.mem q.pa n
      ∃ t, exec (.storePerformed id) s = .next t ∧ memNat t.mem q.pa n = rmwNew op r.wide old r.x.toNat r.cmp.toNat ∧
        (∀ a, (a < q.pa ∨ q.pa + n ≤ a) → memGet t.mem a = memGet s.mem a) ∧ t.stores = s.stores.filter (fun p => p.id != id) ∧
        Rest s t [.mem, .stores, .ctxs, .cores] ∧
        ∀ out lane w o, r.ret = some (out, lane) → find s.warps q.po.wk = some w → o ∈ w.outs → o.id = out →
          (isUni o.res.dst = true ∨ lane < o.res.vals.length) → ∃ u p, find t.warps q.po.wk = some u ∧ p ∈ u.outs ∧ p.id = out ∧
            nth p.res.vals (if isUni o.res.dst then 0 else lane) 0 = BitVec.ofNat 128 old ∧
            ∀ todo, o.kind = .reply todo → ∃ rest, p.kind = .reply rest ∧ rest &&& ~~~todo = 0 ∧ inMask rest lane = false) ∧
    (q.entersFirst = true → mayEnter s q = true → ∀ ln, l1Find (coreOf s q.po.core) q.po.ctx q.va = some ln →
      let old := leNat ((List.range n).map fun m => nth ln.bytes (q.va % 64 + m) 0)
      let t := run (enterPending id) s
      (∀ a, memGet t.mem a = memGet s.mem a) ∧ ∃ p, t.stores.filter (fun p => p.id == id) = [p] ∧ p.rmw = none ∧ p.entered.isSome = true ∧ p.po = q.po ∧ p.pa = q.pa ∧
        p.bytes = toBytes n (rmwNew op r.wide old r.x.toNat r.cmp.toNat))

/-- R217, R220, R244, R247. A release fence below scope dev stands among the stores of its threads; every other fence holds the later accesses of
its threads until what it orders is done, and then an acquire at scope clus or wider leaves in the L1 only lines that hold a store still pending, or
bytes written through a mapping of another policy (R231); `lcln` drops the lines it names. That a release fence below scope dev is an entry among the stores,
which fences hold accesses, and what an acquire leaves, are the model's (log 23, log 65). -/
def Obligations.FencesOrder : Prop :=
  (∀ (c : Ctl) (ord : FOrd) (sc : Scope) (o : OX), ∀ s x, Issues (.fence c ord sc o) never s x → x.g ≠ 0 →
    ∃ t, exec (.fence c ord sc o) s = .next t ∧ Still s t x [] 0 ∧ Rest s t [.stores] ∧
      (orders ord sc = true → ∃ p, t.stores = s.stores ++ [p] ∧ p.po = x.point s.nextId ∧ p.bytes = [] ∧ p.rel = some sc) ∧
      (orders ord sc = false → t.stores = s.stores) ∧
      (holds ord sc = true → ∃ u, (warpOf t x).outs = x.w.outs ++ [u] ∧ u.kind = .fence ord sc ∧ u.mask = x.g ∧ s.nextId < u.id) ∧
      (holds ord sc = false → (warpOf t x).outs = x.w.outs)) ∧
  (∀ (s : State) (x : Iss) (b : Bool), isAccess x.i = true → (∃ u ∈ x.w.outs, u.mask &&& x.mask ≠ 0 ∧ ∃ ord sc, u.kind = .fence ord sc) →
    gate s x b ≠ .go) ∧
  (∀ (s : State) (wk id : Nat) (ord : FOrd) (sc : Scope) (w : Warp) (u : Outst), find s.warps wk = some w → w.outs.find? (fun o => o.id == id) = some u →
    u.kind = .fence ord sc → fenceReady s (u.point w wk u.mask) ord sc = true →
    ∃ t, exec (.fenceComplete wk id) s = .next t ∧ find t.warps wk = some { w with outs := w.outs.filter fun o => o.id != id } ∧
      (∀ k, k ≠ wk → find t.warps k = find s.warps k) ∧ Rest s t [.cores] ∧ (ord = .rel ∨ near sc = true → t.cores = s.cores) ∧
      (ord ≠ .rel → near sc = false → ∀ ln ∈ (coreOf t w.core).l1, ln.unc ≠ [] ∨ ∃ p ∈ s.stores, p.po.core = w.core ∧ p.po.ctx = ln.ctx ∧
        p.entered.isSome = true ∧ p.pa < 64 * ln.pa + 64 ∧ 64 * ln.pa < p.pa + p.bytes.length)) ∧
  ∀ (c : Ctl) (o : OM), ∀ s x l, Issues (.lcln c o) writeBusy s x → x.g ≠ 0 → x.check s .clean 1 12 (x.acting [o.addr]) (x.ea o) = .ok l → Local l →
    ∃ t, exec (.lcln c o) s = .next t ∧ Still s t x [] 0 ∧ Rest s t [.cores] ∧
      (coreOf t x.w.core).l1 = (coreOf s x.w.core).l1.filter fun ln => !((localOf l).any fun e => ln.ctx == x.w.ctx && ln.va == e.2.1.toNat / 64)

/-- R263, R239, R375. `wpeer` reports the window of an address, by the cached translation of its page or else by the window table; a walk is done and a
line leaves the LLC, which change no byte of memory. That `wpeer` answers 0 where the table holds an invalid descriptor or does not translate is the
model's choice (log 70). -/
def Obligations.WindowsWalksLines : Prop :=
  (∀ (c : Ctl) (o : OM), Does (.wpeer c o) never fun s x t => x.g ≠ 0 → ∃ u, Joins t x s.nextId x.g u ∧ u.kind = .reply 0 ∧ u.res.dst = o.data ∧
    (∀ j, Iss.On x j → x.w.fw = none → nth u.res.vals (match o.data with | .s _ => 0 | _ => j) 0 =
      let ea := (x.ea o (match o.data with | .s _ => lowest x.g | _ => j)).toNat
      let win : Option (Nat × Nat) := match s.tlb.find? fun e => e.ctx == x.w.ctx && e.page == ea / 65536 with
        | some e => e.win.map fun w => (w.1, w.2.1)
        | none => match findWindow s x.w.ctx ea with
          | .ok (some w, _) => some (w.peer, w.seg)
          | _ => none
      BitVec.ofNat 128 (match win with
        | some (peer, seg) => peer % 4096 + 4096 * (seg % 256) + 2 ^ 20 + (if peerCheck s (ctxTenant s x.w.ctx) peer = none then 2 ^ 21 else 0)
        | none => 0)) ∧ Leaves s t x [] 0) ∧
  (∀ (s : State) (id : Nat) (w : Walk), s.walks.find? (fun v => v.id == id) = some w → ∃ t, exec (.pageWalkComplete id) s = .next t ∧
    t.walks = s.walks.filter (fun v => v.id != id) ∧ (∀ l ∈ w.lines, ∃ e ∈ t.llc, e.line = l) ∧ t.warps = s.warps ∧ Rest s t [] ∧
    ∀ e ∈ t.tlb, e ∈ s.tlb ∨ tlbFill s w.ctx w.va = some e) ∧
  ∀ (s : State) (line : Nat) (e : LlcLine), s.llc.find? (fun e => e.line == line) = some e → ∃ t, exec (.lineWriteback line) s = .next t ∧
    t.llc = s.llc.filter (fun v => v.line != line) ∧ t.warps = s.warps ∧ Rest s t []

/-- R178, R179, R190, R191. `cvdecl` declares a convergence register, with no signature and no latch; `sign` of the declaring warp
adds the guard-true lanes of the declared mask to its signatures; of another warp it adds none. -/
def Obligations.Convergence : Prop := ∀ (c : Ctl) (n : Fin 8) (o : O5) (g : Workgroup),
  (o.d = .cv n → ∀ s x, Issues (.cvdecl c o) never s x → x.g ≠ 0 → wgOf s x.w = some g → n.val < g.cvs.length →
    ∃ t g', exec (.cvdecl c o) s = .next t ∧ find t.wgs x.w.wg = some g' ∧
      nth g'.cvs n.val noCv = ⟨true, x.w.index, x.k, match o.a with | .v r => r.val | _ => 0, (match o.b with | .s _ => x.val64 o.b 0 | _ => BitVec.allOnes 64) &&&
        maskOf 64 (fun j => decide (j < x.w.width)), 0, none⟩ ∧
      (∀ k, k ≠ n.val → nth g'.cvs k noCv = nth g.cvs k noCv) ∧ Still s t x [] 0 ∧ Rest s t [.wgs]) ∧
  (o.a = .cv n → ∀ s x, Issues (.sign c o) never s x → x.g ≠ 0 → wgOf s x.w = some g → n.val < g.cvs.length →
    (nth g.cvs n.val noCv).declared = true → ∃ t, exec (.sign c o) s = .next t ∧ Still s t x [] 0 ∧
      ((nth g.cvs n.val noCv).wk = x.k → Rest s t [.wgs] ∧ ∃ g', find t.wgs x.w.wg = some g' ∧
        nth g'.cvs n.val noCv = { nth g.cvs n.val noCv with sigs := (nth g.cvs n.val noCv).sigs ||| (x.g &&& (nth g.cvs n.val noCv).m) } ∧
        ∀ k, k ≠ n.val → nth g'.cvs k noCv = nth g.cvs k noCv) ∧
      ((nth g.cvs n.val noCv).wk ≠ x.k → Rest s t []))

/-- R173, R181, R183, R192. A matrix instruction posts one entry in its cluster's table: the A block read from the declaring warp's
registers (or the latch), its blocks and tiles; without REUSE the latch is empty after it, and a read of registers clears the signatures. -/
def Obligations.MatrixPosts : Prop := ∀ (c : Ctl) (n1 : BitVec 2) (take z : Bool) (o : O5) (q : Fin 8),
  let n := n1.toNat + 1
  let post (i : Instr) (sparse : Bool) : Prop := ∀ s x g dw', Issues i (mmaBusy n o) s x → x.g ≠ 0 → wgOf s x.w = some g → o.a = .cv q →
    q.val < g.cvs.length → (nth g.cvs q.val noCv).declared = true → x.uval o.b + n ≤ g.accs.length → x.uval o.c + n ≤ g.tiles.length →
    cvWarp s (nth g.cvs q.val noCv) = some dw' →
    let v := nth g.cvs q.val noCv
    let el (w : Warp) (m k : Nat) : Nat :=
      let (lane, r) := if w.width = 64 then (m + 32 * (k / 16), v.vb + k % 16 / 2)
        else if w.width = 32 then (m, v.vb + k / 2) else (m % 16, v.vb + 16 * (m / 16) + k / 2)
      if inMask v.m lane = true ∧ (laneOf w lane).active = true then ((laneOf w lane).rd r).toNat / 2 ^ (16 * (k % 2)) % 2 ^ 16 else 0
    ∃ t e g', exec i s = .next t ∧ (clusterOf t (clusterNo x.w.core)).table = (clusterOf s (clusterNo x.w.core)).table ++ [e] ∧
      e.id = s.nextId ∧ e.core = x.w.core ∧ e.ctx = x.w.ctx ∧ e.wg = x.w.wg ∧ e.blk = x.uval o.b ∧ e.tile = x.uval o.c ∧ e.n = n ∧
      e.take = take ∧ e.z = z ∧ e.sparse = sparse ∧ e.prio = ctxClass s x.w.ctx ∧ e.granted = false ∧ e.done = 0 ∧
      (∀ a, v.latch = some a → e.a = a) ∧
      (v.latch = none → ∀ m k, m < 32 → k < 32 → (aAt e.a m k).toNat = el dw' m k) ∧
      find t.wgs x.w.wg = some g' ∧ (nth g'.cvs q.val noCv).latch = (if c.reuse then some e.a else none) ∧
      (nth g'.cvs q.val noCv).sigs = (if v.latch.isNone then 0 else v.sigs) ∧ Still s t x [] 0 ∧ Rest s t [.wgs, .cores]
  post (.mmaBf16 c n1 take z o) false ∧ post (.mmaSpBf16 c n1 take z o) true

/-- R184, R201. A pass grant takes the ready entry of highest priority, the earliest posted among equals, and promotes the other ready
ones; with TAKE its tiles become EMPTY. A pass that completes accumulates the live columns of its block, and the last one removes the entry. -/
def Obligations.MatrixPasses : Prop := ∀ (s : State) (cl : Nat),
  (∀ (l1 l2 : List ResEntry) (e : ResEntry) (g : Workgroup),
    let tb := l1 ++ e :: l2
    (clusterOf s cl).table = tb → (∀ r ∈ tb, r.granted = false) → entryReady s tb e = true → find s.wgs e.wg = some g →
    (∀ r ∈ l1, entryReady s tb r = true → effPrio r < effPrio e) → (∀ r ∈ l2, entryReady s tb r = true → effPrio r ≤ effPrio e) →
    (tb.map (·.id)).Nodup →
    ∃ t l1' e' l2', exec (.matrixPassGrant cl) s = .next t ∧ (clusterOf t cl).table = l1' ++ e' :: l2' ∧ e'.granted = true ∧ e'.id = e.id ∧
      let blind (l : List ResEntry) : List ResEntry := l.map fun r => { r with b := [], live := [] }
      blind l1' = blind (l1.map fun r => if entryReady s tb r then { r with promo := r.promo + e.n } else { r with promo := 0 }) ∧
      blind l2' = blind (l2.map fun r => if entryReady s tb r then { r with promo := r.promo + e.n } else { r with promo := 0 }) ∧
      (e.take = false → ∀ r ∈ l1' ++ l2', ∃ q ∈ l1 ++ l2, r.id = q.id ∧ r.b = q.b ∧ r.live = q.live) ∧
      (e.take = true → ∀ p ∈ tileRun g e.tile e.n, (tileOf (coreOf t e.core) p).tag = .empty) ∧ (e.take = false → t.warps = s.warps) ∧
      (∀ k, (find t.warps k).map (fun w => { w with outs := [] }) = (find s.warps k).map fun w => { w with outs := [] }) ∧ Rest s t [.cores]) ∧
  ∀ (id : Nat) (e : ResEntry) (g : Workgroup), (clusterOf s cl).table.find? (fun r => r.id == id && r.granted) = some e → find s.wgs e.wg = some g →
    (∀ f ∈ g.accs, (accOf (coreOf s g.core) f).freeAt = none) →
    let old := accOf (coreOf s g.core) (nth g.accs (e.blk + e.done) 0)
    let was (m n : Nat) : Word := if e.z then 0 else findD old.els (32 * m + n) 0
    ∃ t, exec (.matrixPassComplete cl id) s = .next t ∧
      (let new := accOf (coreOf t g.core) (nth g.accs (e.blk + e.done) 0)
       new.st = .held ∧ ∀ m n, m < 32 → n < 32 → findD new.els (32 * m + n) 0 =
        if (nth e.live e.done 0).getLsbD n then chunkSum (was m n) ((nth e.b (32 * e.done + n) []).map fun k => (aAt e.a m k.1, k.2)) else was m n) ∧
      (e.n ≤ e.done + 1 → (clusterOf t cl).table = (clusterOf s cl).table.filter fun r => r.id != id) ∧
      (e.done + 1 < e.n → (clusterOf t cl).table = (clusterOf s cl).table.map fun r => if r.id = id then { r with done := r.done + 1 } else r) ∧
      t.warps = s.warps ∧ Rest s t [.cores]

/-- R177, R189, R194, R195. `acc.zero` holds its blocks at +0; `acc.free` makes a held block FREE, or RELEASING until the epilogues before
it; `acc.wr` writes one element for each guard-true lane, column by column; `acc.rd` is held until it reads. -/
def Obligations.Accumulators : Prop := ∀ (c : Ctl) (o : O5) (g : Workgroup),
  let block (s : State) (b : Nat) : Acc := accOf (coreOf s g.core) (nth g.accs b 0)
  let run (s : State) (x : Iss) : Prop := x.g ≠ 0 ∧ wgOf s x.w = some g ∧ 1 ≤ x.uval o.b ∧ x.uval o.b ≤ 768 ∧ x.uval o.a + x.uval o.b ≤ g.accs.length ∧ g.accs.Nodup
  let others (s t : State) (x : Iss) (n : Nat) : Prop := ∀ p, (∀ j, j < n → p ≠ nth g.accs (x.uval o.a + j) 0) → accOf (coreOf t g.core) p = accOf (coreOf s g.core) p
  (∀ s x, Issues (.accZero c o) (accZeroBusy o) s x → run s x → ∃ t, exec (.accZero c o) s = .next t ∧
    (∀ j, j < x.uval o.b → block t (x.uval o.a + j) = ⟨.held, [], [], none⟩) ∧ others s t x (x.uval o.b) ∧ Still s t x [] 0 ∧ Rest s t [.cores]) ∧
  (∀ s x, Issues (.accFree c o) (accFreeBusy o) s x → run s x → ∃ t, exec (.accFree c o) s = .next t ∧
    (∀ j, j < x.uval o.b →
      let b := x.uval o.a + j
      let ws := (g.epis.filter fun e => decide (e.id < s.nextId) && e.blk == b).map (·.id)
      (freeWaits s x.w.wg g b s.nextId = false → (block s b).st = .held → block t b =
        if ws = [] then ⟨.free, [], [], none⟩ else { block s b with st := .releasing, waits := ws, freeAt := none }) ∧
      (freeWaits s x.w.wg g b s.nextId = true → block t b = { block s b with freeAt := some s.nextId })) ∧
    others s t x (x.uval o.b) ∧ Still s t x [] 0 ∧ Rest s t [.cores]) ∧
  (∀ s x, Issues (.accWr c o) (accWrBusy o) s x → x.g ≠ 0 → wgOf s x.w = some g → x.uval o.a < g.accs.length → ∃ t, exec (.accWr c o) s = .next t ∧
    (block t (x.uval o.a)).st = .held ∧
    (∀ j, inMask x.g j = true → findD (block t (x.uval o.a)).els (32 * ((x.uval o.b + j) % 32) + (x.uval o.b + j) % 1024 / 32) 0 = x.val o.c j) ∧
    (∀ k, (∀ j, inMask x.g j = true → k ≠ 32 * ((x.uval o.b + j) % 32) + (x.uval o.b + j) % 1024 / 32) →
      findD (block t (x.uval o.a)).els k 0 = findD (block s (x.uval o.a)).els k 0) ∧
    others s t x 1 ∧ Still s t x [] 0 ∧ Rest s t [.cores]) ∧
  ∀ s x, Issues (.accRd c o) (accRdBusy o) s x → x.g ≠ 0 → wgOf s x.w = some g → x.uval o.a < g.accs.length → ∃ t u, exec (.accRd c o) s = .next t ∧
    Joins t x s.nextId x.g u ∧ u.kind = .accRd (x.uval o.a) (x.uval o.b) ∧ u.res.dst = o.d ∧ u.res.n = 1 ∧ Leaves s t x [] 0

/-- R177, R196 to R199. An epilogue that passes its checks is held with its block. Accepted, one to memory has given the memory system the rows (with TR
the columns) of its elements at the stride, in pieces that no 16-byte boundary cuts, as stores of its group at its place in po; or, if a piece does not
translate, it has stored nothing and its group has trapped. A tile epilogue sends its elements, column by column, as arrivals of 64 bytes; once they are
taken it is accepted, and a block whose release waited for it alone becomes FREE. That a piece holds up to 16 bytes is log 32. -/
def Obligations.Epilogues : Prop := ∀ (c : Ctl) (a : Act) (scl bias tr : Bool) (om : OM) (ot : OT) (n : Fin 64) (g : Workgroup) (d : BitVec 128),
  let post (i : Instr) (data : Opd) (store : Bool) (fits : Iss → State → Prop) : Prop := data = .s n → ∀ s x, Issues i (epiBusy data) s x → x.g ≠ 0 →
    wgOf s x.w = some g → slotDesc s x.w c.fmt.toNat = some d → epiBad d = false → (x.w.rdS n.val).toNat < g.accs.length →
    (bias = true → (x.w.rdS (n.val + 2)).toNat < g.tiles.length) → fits x s → (∀ e ∈ g.epis, e.id ≠ s.nextId) →
    ∃ t u g' e, exec i s = .next t ∧ Joins t x s.nextId x.g u ∧ u.kind = .epi false ∧ find t.wgs x.w.wg = some g' ∧
      g'.epis = g.epis ++ [e] ∧ e.id = s.nextId ∧ e.po = { x.point s.nextId with lanes := x.mask } ∧ e.blk = (x.w.rdS n.val).toNat ∧ e.arrivals = [] ∧
      e.store = store ∧ Still s t x [] 0 ∧ Rest s t [.wgs]
  post (.epiSt c a scl bias tr om) om.data true (fun x _ => (x.ea om (lowest x.g)).toNat % (efBits (dEf d) / 8) = 0 ∧
    (x.w.rdS (n.val + 3)).toNat % (efBits (dEf d) / 8) = 0) ∧
  post (.epiT c a scl bias ot) ot.data false (fun x _ => x.tileNo ot + (if efBits (dEf d) = 32 then 2 else 1) ≤ g.tiles.length) ∧
  (∀ (s : State) (wk id : Nat) (w : Warp) (u : Outst), find s.warps wk = some w → w.outs.find? (fun v => v.id == id) = some u → wgOf s w = some g →
    u.ins = .epiT c a scl bias ot → u.kind = .epi false → epiReady s w g u = true → faultWaits w u = false → slotDesc s w c.fmt.toNat = some d →
    let x := replayIss s wk w u
    let eb := efBits (dEf d) / 8
    let z := epiAll s g u a scl bias d (x.epiArgs ot.data).1 (x.epiArgs ot.data).2.1 (x.epiArgs ot.data).2.2.1
    ∃ t l, exec (.epilogueAccepted wk id) s = .next t ∧ t.arrivals = s.arrivals ++ l ∧ l.length = 16 * eb ∧
      (∀ k, k < 16 * eb → ∀ v, l[k]? = some v → v.core = w.core ∧ v.tile = x.tileNo ot + k / 32 ∧ v.off = 64 * (k % 32) ∧ v.retry = true ∧
        v.epi = some (w.wg, u.age)) ∧
      l.flatMap (·.data) = (List.range 1024).flatMap (fun j => toBytes eb (nth z (32 * (j % 32) + j / 32) 0)) ∧ Rest s t [.wgs, .arrivals, .cores]) ∧
  (∀ (s : State) (wk id : Nat) (w : Warp) (u : Outst), find s.warps wk = some w → w.outs.find? (fun v => v.id == id) = some u → wgOf s w = some g →
    u.ins = .epiSt c a scl bias tr om → u.kind = .epi false → epiReady s w g u = true → faultWaits w u = false → slotDesc s w c.fmt.toNat = some d →
    let x := replayIss s wk w u
    let eb := efBits (dEf d) / 8
    let (blk, scale, bt, stride) := x.epiArgs om.data
    let z := epiAll s g u a scl bias d blk scale bt
    let row (r : Nat) : List Byte := (List.range 32).flatMap fun k => toBytes eb (nth z (if tr then 32 * k + r else 32 * r + k) 0)
    let pieces := (List.range 32).flatMap fun r => chop16 10 (((x.ea om (lowest u.act)).toNat + r * stride) % 2 ^ 64) (row r)
    (∀ l, epiXlate s w u pieces = .ok l → (∀ e ∈ l, ∃ pa q, e.2.1 = .mem pa q) → ∃ t, exec (.epilogueAccepted wk id) s = .next t ∧
      (t.stores.map PStore.says).Perm (s.stores.map PStore.says ++ l.filterMap fun e => match e.2.1 with
        | .mem pa q => some (u.point w wk u.mask, pa, e.2.2, none, q, none)
        | _ => none) ∧
      find t.warps wk = some { w with outs := w.outs.filter fun v => v.id != id } ∧ (ctxOf t w.ctx).wd = 0 ∧ Rest s t [.stores, .wgs, .cores, .ctxs]) ∧
    ∀ fa e f, epiXlate s w u pieces = .error (fa, e) → Handled s wk w g f → w.outs = [u] → pcGroups w u.mask = [u.mask] →
      ∃ t, exec (.epilogueAccepted wk id) s = .next t ∧ t.stores = s.stores ∧
        Caught s t wk w u.mask g f ⟨u.mask, faultCause .write e, u.pc, (laneOf w (lowest u.mask)).pc, dw fa, syndrome .write e, none⟩ [u.ins]) ∧
  ∀ (s : State) (wk id : Nat) (w : Warp) (u : Outst) (e : Epi), find s.warps wk = some w → w.outs.find? (fun v => v.id == id) = some u →
    wgOf s w = some g → u.kind = .epi true → g.epis.find? (fun v => v.id == u.age) = some e → (∀ v ∈ g.epis, v.id = u.age → v.arrivals = []) →
    let blk (s : State) : Acc := accOf (coreOf s g.core) (nth g.accs e.blk 0)
    ∃ t g', exec (.epilogueAccepted wk id) s = .next t ∧ find t.warps wk = some { w with outs := w.outs.filter fun v => v.id != id } ∧
      find t.wgs w.wg = some g' ∧ g'.epis = g.epis.filter (fun v => v.id != u.age) ∧
      ((blk s).st = .releasing → (blk s).waits = [u.age] → blk t = ⟨.free, [], [], none⟩) ∧ (ctxOf t w.ctx).wd = 0 ∧
      Rest s t [.wgs, .cores, .ctxs]

/-- R243. `lds` and `sts` inside the allotment: an untagged read is answered with the bytes at its address, a tagged one waits for its
tiles; `sts` writes each thread's bytes and no other. R220, R248, R250, R252. `tarm` arms an EMPTY tile; `take` waits for its tile; a tagged read that may proceed delivers the bytes of its
tiles, and a consuming one that retires leaves them EMPTY. -/
def Obligations.ScratchpadAndTags : Prop := 
  (∀ (c : Ctl) (sz : TSz) (tag : LdsTag) (o : OM),
  let n := WF.tBytes sz
  let phys (s : State) (x : Iss) (j : Nat) : Nat := 2048 * nth (x.tiles s) ((x.ea o j).toNat / 2048) 0 + (x.ea o j).toNat % 2048
  let ok (s : State) (x : Iss) (os : List Opd) : Prop := x.g ≠ 0 ∧
    ∀ j ∈ x.acting os, (x.ea o j).toNat % n = 0 ∧ (x.ea o j).toNat < 2048 * (x.tiles s).length
  (∀ s x, Issues (.lds c sz tag o) readBusy s x → ok s x [o.addr] → (∀ r, o.data = .s r → isUni o.addr = true) → ∃ t u, exec (.lds c sz tag o) s = .next t ∧
    Joins t x s.nextId x.g u ∧ u.res.dst = o.data ∧ u.res.n = (if n ≤ 4 then 1 else n / 4) ∧ Still s t x [] 0 ∧
    let at' (j : Nat) : Nat := match o.data with | .s _ => 0 | _ => j
    (tag = .ut → u.kind = .reply 0 ∧ Rest s t [] ∧
      ∀ j ∈ x.acting [o.addr], (nth u.res.vals (at' j) 0).toNat = leNat (padRead s x.w.core (phys s x j) n)) ∧
    (tag ≠ .ut → Rest s t [.cores] ∧ ∃ ts offs, u.kind = .tile ts (tag == .take) false offs ∧ u.units.toNat = n ∧
      ∀ j ∈ x.acting [o.addr], nth offs (at' j) 0 = phys s x j ∧ phys s x j / 2048 ∈ ts)) ∧
  ∀ s x, Issues (.sts c sz o) stsBusy s x → ok s x [o.data, o.addr] → (x.acting [o.data, o.addr]).Pairwise (fun i j => phys s x i ≠ phys s x j) →
    ∃ t, exec (.sts c sz o) s = .next t ∧ Still s t x [] 0 ∧ Rest s t [.cores] ∧
      (∀ j ∈ x.acting [o.data, o.addr], padRead t x.w.core (phys s x j) n = x.dataBytes o.data n j) ∧
      (∀ b, (∀ j ∈ x.acting [o.data, o.addr], b < phys s x j ∨ phys s x j + n ≤ b) → padRead t x.w.core b 1 = padRead s x.w.core b 1) ∧
      (∀ k, k ≠ x.w.core → coreOf t k = coreOf s k) ∧ ∀ p, (tileOf (coreOf t x.w.core) p).tag = (tileOf (coreOf s x.w.core) p).tag) ∧
  ((∀ (c : Ctl) (o : OT), ∀ s x, Issues (.tarm c o) (tarmBusy o) s x → x.g ≠ 0 → x.tileNo o < (x.tiles s).length →
    let f : Option Word := match o.data with | .s n => some (x.w.rdS n.val) | _ => none
    let p := nth (x.tiles s) (x.tileNo o) 0
    (∀ w, f = some w → w.toNat / 2 ^ 23 = 0 ∧ w.toNat % 2 ^ 10 ≤ 767) → (tileOf (coreOf s x.w.core) p).tag = .empty →
    ∃ t, exec (.tarm c o) s = .next t ∧ Still s t x [] 0 ∧ Rest s t [.cores] ∧
      tileOf (coreOf t x.w.core) p = { tileOf (coreOf s x.w.core) p with tag := .armed o.count.toNat 0, filter := f, grant := none } ∧
      ∀ q, q ≠ p → tileOf (coreOf t x.w.core) q = tileOf (coreOf s x.w.core) q) ∧
  (∀ (c : Ctl) (sz : TSz) (o : OT), ∀ s x, Issues (.take c sz o) readBusy s x → x.g ≠ 0 → x.tileNo o < (x.tiles s).length →
    let off := (x.eaT o (lowest x.g)).toNat
    let n := WF.tBytes sz
    let p := nth (x.tiles s) (x.tileNo o) 0
    (o.data ≠ .none → off % n = 0 ∧ off + x.w.width * n ≤ 2048) →
    ∃ t u offs, exec (.take c sz o) s = .next t ∧ Joins t x s.nextId x.g u ∧ u.kind = .tile [p] true false offs ∧
      (o.data = .none → offs = []) ∧
      (o.data ≠ .none → u.res.dst = o.data ∧ u.units.toNat = n ∧ ∀ j, j < x.w.width → nth offs j 0 = 2048 * p + off + n * j) ∧
      Still s t x [] 0 ∧ Rest s t [.cores]) ∧
  (∀ (s : State) (wk id : Nat) (w : Warp) (o : Outst) (ts offs : List Nat) (take : Bool), find s.warps wk = some w →
    w.outs.find? (fun u => u.id == id) = some o → o.kind = .tile ts take false offs → offs ≠ [] → o.res.n ≤ 4 → tilesReady s w.core id take ts = true →
    (∀ lane, inMask o.left lane = true → lane < w.lanes.length → ∃ t u, exec (.memoryReply wk id lane) s = .next t ∧ find t.warps wk = some u ∧
      (match o.res.dst with
        | .s _ => Fills w u lane o.res.dst o.res.n (leNat (padRead s w.core (nth offs 0 0) o.units.toNat) % 2 ^ 128)
        | _ => lane < offs.length → Fills w u lane o.res.dst o.res.n (leNat (padRead s w.core (nth offs lane 0) o.units.toNat) % 2 ^ 128)) ∧
      (∀ r, o.res.dst = .v r → ∀ j, j ≠ lane → laneOf u j = laneOf w j) ∧ Rest s t [.cores])) ∧
  ∀ (s : State) (wk id : Nat) (w : Warp) (o : Outst) (ts offs : List Nat) (done : Bool), find s.warps wk = some w →
    w.outs.find? (fun u => u.id == id) = some o → o.kind = .tile ts true done offs → (done = true ∨ tilesReady s w.core id true ts = true) →
    ∃ t u, exec (.tileReadRetire wk id) s = .next t ∧ find t.warps wk = some u ∧
      (∀ p ∈ ts, (tileOf (coreOf t w.core) p).tag = .empty ∧ (tileOf (coreOf t w.core) p).bytes = (tileOf (coreOf s w.core) p).bytes) ∧
      (offs = [] → u.outs.map (·.id) = (w.outs.filter fun v => v.id != id).map (·.id)) ∧ u.lanes = w.lanes ∧
      (∀ k, k ≠ w.core → coreOf t k = coreOf s k) ∧ Rest s t [.cores])

/-- R248, R251, R253, R254, R262, R264. `put.t` hands one unit to the network for each sixteen lanes of which some guard is true, for a tile of a core of its
launch or through a fabric window; `rget.t` one for each 64 B of local memory, which each reads for itself as a load of its threads would. A unit that reaches
an armed tile whose filter accepts it writes its bytes, counts, and makes the tile FULL when it is the last; a unit refused under `.retry` backs off until its
retry, any other refused unit is gone. A unit that backs off makes no attempt until its back-off expires, which comes by itself; then it is among the units on
their way again, behind the others. How long a back-off lasts is open (log 60). -/
def Obligations.ArrivalUnits : Prop :=
  (∀ (s : State) (a : Arrival) (gk : Nat) (g : Workgroup),
  s.arrivals.find? (fun b => b.id == a.id) = some a → a.backoff = false → a.data ≠ [] → arrReady s a = true → unitHeld s a = false → a.win = none →
  s.fabric.remotes.any (fun r => r.kind == 4 && r.out == a.id) = false → wgAt s a.launch a.core = some (gk, g) → a.tile < g.tiles.length →
  a.off + a.data.length ≤ 2048 →
  let p := nth g.tiles a.tile 0
  let was := tileOf (coreOf s g.core) p
  (∀ n m, was.tag = .armed n m → filterOk s was.filter a = true → ∃ t, exec (.tileArrival a.id) s = .next t ∧
    (tileOf (coreOf t g.core) p).tag = (if m + 1 < n then .armed n (m + 1) else .full) ∧
    (∀ k, k < 2048 → findD (tileOf (coreOf t g.core) p).bytes k 0 =
      if a.off ≤ k ∧ k < a.off + a.data.length then nth a.data (k - a.off) 0 else findD was.bytes k 0) ∧
    t.arrivals = s.arrivals.filter (fun b => b.id != a.id) ∧ (ctxOf t g.ctx).wd = 0 ∧
    (∀ k, k ≠ g.core → coreOf t k = coreOf s k) ∧ Rest s t [.cores, .wgs, .ctxs, .arrivals, .fabric]) ∧
  ((∀ n m, was.tag = .armed n m → filterOk s was.filter a = false) → ∃ t, exec (.tileArrival a.id) s = .next t ∧ t.cores = s.cores ∧
    t.arrivals = s.arrivals.filter (fun b => b.id != a.id) ++
      (if a.retry then (s.arrivals.filter fun b => b.id == a.id).map fun b => { b with backoff := true } else []) ∧ Rest s t [.wgs, .arrivals, .fabric])) ∧
  (∀ (s : State) (a : Arrival), s.arrivals.find? (fun b => b.id == a.id) = some a → a.backoff = true →
    exec (.tileArrival a.id) s = .next s ∧
    (a.src = none → unitHeld s a = false → Task.ins (.arrivalRetry a.id) ∈ tasks s) ∧
    ∃ t b, exec (.arrivalRetry a.id) s = .next t ∧ b = { a with backoff := false } ∧ t.arrivals.find? (fun b => b.id == a.id) = some b ∧
      t.arrivals.filter (fun b => b.id != a.id) = s.arrivals.filter (fun b => b.id != a.id) ∧
      (∀ v l, s.arrivals.filter (fun b => b.id != a.id) = l ++ [v] → ∃ r, t.arrivals = l ++ v :: b :: r) ∧ t.warps = s.warps ∧ Rest s t [.arrivals]) ∧
  ∀ (c : Ctl) (unit : BitVec 5) (o : OT) (g : Workgroup) (l : Launch),
  let bytes (x : Iss) (u : Nat) : List Byte := (List.range 16).flatMap fun j =>
    toBytes 4 (if inMask x.g (16 * u + j) then (x.val o.data (16 * u + j)).toNat else 0)
  let some' (x : Iss) (u : Nat) : Bool := (List.range 16).any fun j => inMask x.g (16 * u + j)
  let put (i : Instr) (rep : Bool) : Prop := ∀ s x, Issues i never s x → x.g ≠ 0 → wgOf s x.w = some g → launchOf s x.w = some l →
    unit.toNat + x.w.width / 16 ≤ 32 → x.w.width ≤ 64 → x.tileNo o < g.tiles.length →
    let us := (List.range (x.w.width / 16)).filter (some' x)
    let sent (launch core : Nat) (win : Option (Nat × Nat × Nat)) : Prop :=
      ∃ t as u, exec i s = .next t ∧ t.arrivals = s.arrivals ++ as ∧ as.map (fun a => (a.launch, a.core, a.tile, a.off, a.data, a.retry, a.win)) =
          us.map (fun k => (launch, core, x.tileNo o, 64 * (unit.toNat + k), bytes x k, !rep, win)) ∧
        (warpOf t x).outs = x.w.outs ++ [u] ∧ u.kind = .put ∧ (rep = false → u.left = 0) ∧
        (∀ a ∈ as, a.wk = some x.k ∧ a.out = u.id ∧ a.srcCore = x.w.core ∧ a.backoff = false) ∧ Still s t x [] 0 ∧ Rest s t [.arrivals, .wgs]
    let ea := x.eaT o (lowest x.g)
    (o.ubase = 63 → inRect l (x.val o.addr (lowest x.g)).toNat = true → sent g.launch (x.val o.addr (lowest x.g)).toNat none) ∧
    ∀ r p sg off, o.ubase ≠ 63 → ea.toNat < 2 ^ 52 → (∀ ls, findWindow s x.w.ctx ea.toNat ≠ .ok (none, ls)) →
      x.check s .write 1 13 [lowest x.g] (fun _ => ea) = .ok [(lowest x.g, ea, r)] → r.dest = .win p sg off → sent 0 (off % 1024) (some (p, sg, off))
  put (.putTRetry c unit o) false ∧ put (.putTRep c unit o) true ∧
  (∀ s x q, Issues (.rgetT c o) (rgetBusy o) s x → x.g ≠ 0 → wgOf s x.w = some g → x.tileNo o < g.tiles.length → (x.eaT o (lowest x.g)).toNat % 64 = 0 →
    x.check s .read 1 13 (List.range o.count.toNat) (fun u => x.eaT o (lowest x.g) + dw (64 * u)) = .ok q → Local q →
    ∃ t as, exec (.rgetT c o) s = .next t ∧ t.arrivals = s.arrivals ++ as ∧ as.map (fun a => (a.launch, a.core, a.tile, a.off, a.src, a.retry)) =
        (localOf q).map (fun e => (g.launch, g.core, x.tileNo o, 64 * e.1, some (e.2.2.1, c.hint.toNat), true)) ∧
      (∀ a ∈ as, a.data = [] ∧ a.po = x.point s.nextId) ∧ Still s t x [] 0 ∧ Rest s t [.arrivals]) ∧
  ∀ (s : State) (a : Arrival) (pa hint : Nat), s.arrivals.find? (fun b => b.id == a.id) = some a → a.src = some (pa, hint) → runReady s a.po pa 64 = true →
    let t := run (readUnit a.id) s
    t.arrivals = s.arrivals.map (fun b => if b.id = a.id then { b with data := overlay s a.po pa 64, src := none } else b) ∧
      t.stores.map PStore.says = s.stores.map PStore.says ∧ t.warps = s.warps ∧ Rest s t [.arrivals, .cores, .stores]

/-- R227, R262, R377, R381. An access whose threads lead to fabric windows leaves as requests: one outstanding access for each thread, to the
peer, segment and offset of its window, with a request flit and, for a store or an atomic, one more of its data; a load and an atomic with a return wait for
the answers, and no byte of memory changes. Where some threads of an access lead to memory and others to windows, each part goes its way. A unit of a
`put.t` for a window leaves when it would otherwise arrive. (`enq` of a packet behind a window is among the pushes of SpawnsAndPushes.) The place of a request's
fields in its payload is the model's (log 30). -/
def Obligations.RemoteAccessesLeave : Prop :=
  let sent (s t : State) (x : Iss) (l : List (Nat × DWord × Xlate)) (kind bytes out : Nat) : Prop :=
    ∃ rs, t.fabric.remotes = s.fabric.remotes ++ rs ∧ rs.map (fun r => (r.peer, r.ifa, r.ctx, r.wk, r.out, r.lane, r.bytes, r.kind)) =
      (remoteOf l).map fun e => (e.2.2.1, ifaOf e.2.2.1 e.2.2.2.1 e.2.2.2.2, x.w.ctx, x.k, out, e.1, bytes, kind)
  let asked (t : State) (peer sg off : Nat) (ty : BitVec 4) (size op : Nat) (nr : Bool) (data : List Byte) : Prop :=
    ∃ f ∈ findD t.fabric.tx peer [], f.ty = ty ∧ f.dst.toNat = peer % 4096 ∧ f.src.toNat = ownPeer t % 4096 ∧ f.seg.toNat = sg % 256 ∧ f.off.toNat = off % 2 ^ 40 ∧
      flitOk f = true ∧ (reqOf f []).size = size ∧ (reqOf f []).op = op ∧ (reqOf f []).nr = nr ∧
      (data ≠ [] → ∃ g ∈ findD t.fabric.tx peer [], g.ty = ty ∧ g.tag = f.tag ∧ g.dst = f.dst ∧ flitOk g = true ∧ g.payload.take data.length = data)
  let asks (t : State) (l : List (Nat × DWord × Xlate)) (ty : BitVec 4) (size op : Nat) (nr : Bool) (data : Nat → List Byte) : Prop :=
    ∀ e ∈ remoteOf l, asked t e.2.2.1 e.2.2.2.1 e.2.2.2.2 ty size op nr (data e.1)
  let away (l : List (Nat × DWord × Xlate)) : Prop := ∀ e ∈ l, ∃ p g f, e.2.2.dest = .win p g f
  let mixed (l : List (Nat × DWord × Xlate)) : Prop := (∀ e ∈ l, ∀ n, e.2.2.dest ≠ .fwreg n) ∧ localOf l ≠ [] ∧ remoteOf l ≠ []
  (∀ (c : Ctl) (sz : LdSz) (wz : StSz) (acq rel : Bool) (sc : Scope) (o : OM),
    let lb := WF.ldBytes sz
    let sb := WF.stBytes wz
    let loads (s : State) (x : Iss) (l : List (Nat × DWord × Xlate)) : Prop := Issues (.ld c sz acq sc o) (ldBusy lb [o.addr] o) s x ∧ x.g ≠ 0 ∧
      x.check s .read lb 12 (x.acting [o.addr]) (x.ea o) = .ok l
    let stores (s : State) (x : Iss) (l : List (Nat × DWord × Xlate)) : Prop := Issues (.st c wz rel sc o) (stBusy sb rel sc o) s x ∧ x.g ≠ 0 ∧
      x.check s .write sb 12 (x.acting [o.data, o.addr]) (x.ea o) = .ok l
    let sext := sz == .i8 || sz == .i16
    (∀ s x l, loads s x l → away l → ∃ t u, exec (.ld c sz acq sc o) s = .next t ∧ Joins t x s.nextId x.g u ∧ u.kind = .remote lb sext ∧ u.acq = acq ∧
      u.res.dst = o.data ∧ sent s t x l 0 lb s.nextId ∧ asks t l 0 lb 0 false (fun _ => []) ∧ Still s t x [] 0 ∧ Rest s t [.fabric, .wgs]) ∧
    (∀ s x l, loads s x l → mixed l → ∃ t u v, exec (.ld c sz acq sc o) s = .next t ∧ (warpOf t x).outs = x.w.outs ++ [u, v] ∧ u.id = s.nextId ∧ v.id ≠ u.id ∧
      u.kind = .load sc lb sext false ((localOf l).map fun e => ⟨e.1, e.2.1.toNat, e.2.2.1, e.2.2.2⟩) ∧ v.kind = .remote lb sext ∧
      u.res.dst = o.data ∧ v.res.dst = o.data ∧ (∀ j, inMask u.left j = true → ∃ e ∈ localOf l, e.1 = j) ∧
      (∀ j, inMask v.left j = true → ∃ e ∈ remoteOf l, e.1 = j) ∧ (∀ e ∈ localOf l, e.1 < x.w.width → e.1 < 64 → inMask u.left e.1 = true) ∧
      (∀ e ∈ remoteOf l, e.1 < x.w.width → e.1 < 64 → inMask v.left e.1 = true) ∧ sent s t x l 0 lb v.id ∧ asks t l 0 lb 0 false (fun _ => []) ∧
      Still s t x [] 0 ∧ Rest s t [.fabric, .wgs]) ∧
    ∀ s x l, stores s x l → (∀ e ∈ l, ∀ n, e.2.2.dest ≠ .fwreg n) → ∃ t new, exec (.st c wz rel sc o) s = .next t ∧ sent s t x l 2 sb 0 ∧
      asks t l 2 sb 0 false (fun i => x.dataBytes o.data sb i) ∧ Still s t x [] 0 ∧ t.stores = s.stores ++ new ∧ (warpOf t x).outs = x.w.outs ∧
      (∃ l' : List (Nat × DWord × Nat × Bool), l'.Perm (localOf l) ∧ new.map PStore.says =
        l'.map fun e => (x.thread s.nextId (x.acting [o.data, o.addr]) e.1, e.2.2.1, x.dataBytes o.data sb e.1, if rel then some sc else none, e.2.2.2, none)) ∧
      Rest s t [.fabric, .wgs, .stores]) ∧
  (∀ (c : Ctl) (ord : AOrd) (sc : Scope) (nr wide : Bool) (sop : SredOp) (o : OM),
    let one (i : Instr) (op : Rmw) (busy : Iss → State → Bool) (os : List Opd) (acq nr wide : Bool) (vals : Iss → Nat → Nat × Nat) : Prop :=
      let n := if wide then 8 else 4
      ∀ s x l, Issues i busy s x → x.g ≠ 0 → x.check s .rmw n 13 (x.acting os) (x.ea o) = .ok l → away l → (op = .cas → ∃ r : Fin 256, o.data = .v r) →
        ∃ t, exec i s = .next t ∧ sent s t x l (if nr then 3 else 1) n s.nextId ∧
          asks t l 4 n op.num nr (fun j => toBytes n (vals x j).1 ++ toBytes n (vals x j).2) ∧ t.stores = s.stores ∧ Still s t x [] 0 ∧ Rest s t [.fabric, .wgs] ∧
          (nr = false → ∃ u, Joins t x s.nextId x.g u ∧ u.kind = .remote n false ∧ u.acq = acq ∧ u.res.dst = o.data ∧ u.res.n = wn wide) ∧
          (nr = true → acq = false → (warpOf t x).outs = x.w.outs) ∧
          (nr = true → acq = true → ∃ u, (warpOf t x).outs = x.w.outs ++ [u] ∧ u.kind = .fence .acq sc ∧ u.mask = x.g)
    let atom (i : Instr) (op : Rmw) (wide : Bool) : Prop := one i op (atomBusy op ord sc wide o) (atomOps op o) (ord == .acq || ord == .ar) nr wide
      fun x j => rmwOperand x op wide o.data j
    atom (.atomAdd c ord sc nr wide o) .add wide ∧ atom (.atomSmin c ord sc nr wide o) .smin wide ∧ atom (.atomUmin c ord sc nr wide o) .umin wide ∧
    atom (.atomSmax c ord sc nr wide o) .smax wide ∧ atom (.atomUmax c ord sc nr wide o) .umax wide ∧ atom (.atomAnd c ord sc nr wide o) .and wide ∧
    atom (.atomOr c ord sc nr wide o) .or wide ∧ atom (.atomXor c ord sc nr wide o) .xor wide ∧ atom (.atomExch c ord sc nr wide o) .exch wide ∧
    atom (.atomCas c ord sc nr wide o) .cas wide ∧ atom (.atomFaddF32 c ord sc nr o) .fadd false ∧
    one (.sred c sop o) (sredRmw sop) (sredBusy o) [o.data, o.addr] false true false fun x j => ((x.val o.data j).toNat, 0)) ∧
  (∀ (c : Ctl) (o : OT) (g : Workgroup) (s : State) (x : Iss) (q : List (Nat × DWord × Xlate)), Issues (.rgetT c o) (rgetBusy o) s x → x.g ≠ 0 →
    wgOf s x.w = some g → x.tileNo o < g.tiles.length → (x.eaT o (lowest x.g)).toNat % 64 = 0 →
    x.check s .read 1 13 (List.range o.count.toNat) (fun u => x.eaT o (lowest x.g) + dw (64 * u)) = .ok q → away q →
    ∃ t as rs, exec (.rgetT c o) s = .next t ∧ t.arrivals = s.arrivals ++ as ∧ t.fabric.remotes = s.fabric.remotes ++ rs ∧
      as.map (fun a => (a.launch, a.core, a.tile, a.off, a.src, a.data, a.retry)) =
        (remoteOf q).map (fun e => (g.launch, g.core, x.tileNo o, 64 * e.1, none, [], true)) ∧
      rs.map (fun r => (r.peer, r.ifa, r.ctx, r.wk, r.out, r.bytes, r.kind)) =
        ((remoteOf q).zip as).map (fun e => (e.1.2.2.1, ifaOf e.1.2.2.1 e.1.2.2.2.1 e.1.2.2.2.2, x.w.ctx, x.k, e.2.id, 64, 5)) ∧
      asks t q 0 64 0 false (fun _ => []) ∧ Still s t x [] 0 ∧ Rest s t [.arrivals, .fabric, .wgs]) ∧
  ∀ (s : State) (a : Arrival) (p sg off : Nat), s.arrivals.find? (fun b => b.id == a.id) = some a → a.win = some (p, sg, off) → a.backoff = false → a.data.length = 64 →
    arrReady s a = true → unitHeld s a = false → s.fabric.remotes.any (fun r => r.kind == 4 && r.out == a.id) = false → a.tile < 2 ^ 16 →
    ∃ t r, exec (.tileArrival a.id) s = .next t ∧ t.fabric.remotes = s.fabric.remotes ++ [r] ∧ r.kind = 4 ∧ r.peer = p ∧ r.out = a.id ∧ r.ctx = a.ctx ∧
      r.ifa = ifaOf p sg off ∧ asked t p sg off 6 a.tile (a.off / 64 % 65536) false a.data ∧ t.arrivals = s.arrivals ∧ t.warps = s.warps ∧ Rest s t [.fabric, .wgs]

/-- R257 to R261. A card that issues joins its cluster's cards with the descriptor it read. The oldest ready card starts: one whose checks fail ends with a
status, another sets out its units. A COPY moves 16 bytes after 16 bytes; a STORE writes the bytes of its tiles, which it has read; a LOAD or a DECODE reads
elements, and a column that is read whole is sent as an arrival of 64 bytes. Once its arrivals are taken a card reports its status, adds one to its counter,
and is gone. That units are pieces of 16 bytes, and in which order they are read or written, is the model's (log 32); which bytes a STORE has read, and that it
then waits for no tile, is log 24. -/
def Obligations.CardsRun : Prop :=
  (∀ (c : Ctl) (o : OM) (g : Workgroup) (l : List Nat), ∀ s x, Issues (.card c o) (cardBusy o) s x → x.g ≠ 0 → wgOf s x.w = some g →
    cardMis x o = none → cardRead s x o = .ok l → ∃ t k, exec (.card c o) s = .next t ∧
      (clusterOf t (clusterNo x.w.core)).cards = (clusterOf s (clusterNo x.w.core)).cards ++ [k] ∧ k.id = s.nextId ∧ k.po = x.point s.nextId ∧ k.core = x.w.core ∧
      k.ctx = x.w.ctx ∧ k.wg = x.w.wg ∧ k.desc = l.flatMap (fun pa => overlay s (x.point s.nextId) pa 64) ∧ k.dva = x.ea o (lowest x.g) ∧ k.ctr = cardCtr x o ∧ k.running = false ∧ k.arrivals = [] ∧
      t.stores.map PStore.says = s.stores.map PStore.says ∧ Still s t x [] 0 ∧ Rest s t [.cores, .stores]) ∧
  (∀ (s : State) (cl : Nat) (c : Card) (g : Workgroup), let l := (clusterOf s cl).cards
    l.find? (cardReady s l) = some c → (∀ k ∈ l, k.todo = []) → find s.wgs c.wg = some g → (∀ k ∈ l, k.id = c.id → k = c) →
    let starts (eff : State → Card → Prop) (but : List Safety.Part) : Prop := ∃ t k, exec (.cardRun cl c.id) s = .next t ∧
      (clusterOf t cl).cards.find? (fun k => k.id == c.id) = some k ∧ k.running = true ∧ eff t k ∧ Rest s t but
    let ends (st : Nat) : Prop := starts (fun t k => k.status = st ∧ k.fva = 0 ∧ k.todo = [] ∧ t.warps = s.warps) [.cores]
    let goes (t : State) (k : Card) : Prop := k.status = c.status ∧ k.arrivals = c.arrivals ∧ t.warps = s.warps
    let fits : Prop := cT0 c.desc + cNt c.desc ≤ g.tiles.length
    (cardInvalid c.desc = true → ends 1) ∧
    (cardInvalid c.desc = false → slotOfLaunch s c.launch (cFmt c.desc) = none → (cOp c.desc = 2 ∨ cOp c.desc = 1 ∧ cPerm c.desc = true) → ends 2) ∧
    (cardInvalid c.desc = false → (cOp c.desc = 3 ∨ cOp c.desc = 1 ∧ cPerm c.desc = false) → ¬fits → ends 6) ∧
    (cardInvalid c.desc = false → cOp c.desc = 0 → inRegions (inRegs c.desc) [((region c.desc 0).1, cLen c.desc)] = true →
      inRegions (outRegs c.desc) [((region c.desc 4).1, cLen c.desc)] = true → starts (fun t k => goes t k ∧ k.todo = [0]) []) ∧
    (cardInvalid c.desc = false → cOp c.desc = 3 → fits → inRegions (outRegs c.desc) [((region c.desc 4).1, 2048 * cNt c.desc)] = true →
      let tiles := (List.range (cNt c.desc)).map fun j => nth g.tiles (cT0 c.desc + j) 0
      let bytes := if c.data = [] then tiles.flatMap fun p => padRead s g.core (2048 * p) 2048 else c.data
      starts (fun t k => k.status = c.status ∧ k.arrivals = c.arrivals ∧ k.units = 32 * cNt c.desc ∧ k.data = bytes ∧
        k.todo = List.range (chop16 (128 * cNt c.desc + 2) (region c.desc 4).1 bytes).length ∧
        (if cTake c.desc then ∀ p ∈ tiles, (tileOf (coreOf t g.core) p).tag = .empty else t.warps = s.warps)) [.cores]) ∧
    ∀ f perm ls, (cOp c.desc = 1 ∨ cOp c.desc = 2) → cardChecks s c g.tiles.length = .ok (f, perm, ls) →
      let rows := (List.range (32 * cNt c.desc)).map (cardRows s { c with perm := perm })
      (∀ r ∈ rows, inRegions (inRegs c.desc) r.flatten = true) →
      starts (fun t k => goes t k ∧ k.perm = perm ∧ t.arrivals = s.arrivals ∧
        ∀ u, u ∈ k.todo ↔ u / 32 < rows.length ∧ u % 32 < (cardUnits (nth rows (u / 32) [])).length) []) ∧
  (∀ (s : State) (cl : Nat) (c : Card), (∀ k ∈ (clusterOf s cl).cards, k.id = c.id → k = c) → c ∈ (clusterOf s cl).cards → c.running = true → rising c.got = true →
    let t := run (cardStep cl c.id) s
    let card (k : Card) : Prop := (clusterOf t cl).cards.find? (fun k => k.id == c.id) = some k
    let wrote (pa : Nat) (bs : List Byte) : Prop :=
      (∀ a, memGet t.mem a = if pa ≤ a ∧ a < pa + bs.length then nth bs (a - pa) 0 else memGet s.mem a) ∧ t.warps = s.warps ∧ Rest s t [.mem, .cores, .wgs]
    (∀ i r bs ls pa, cOp c.desc = 0 → c.todo = i :: r → let n := min 16 (cLen c.desc - i)
      let dst := (region c.desc 4).1 + i
      cardLoad s c ((region c.desc 0).1 + i) n = .ok (bs, ls) → dst % 64 + n ≤ 64 →
      memOnly (dst % 2 ^ 64) (translate s c.ctx c.sup .write (dw dst)) = .ok pa →
      wrote pa bs ∧ ∃ k, card k ∧ k.todo = if i + 16 < cLen c.desc then [i + 16] else []) ∧
    (cOp c.desc = 3 → c.todo ≠ [] → ∃ u ∈ c.todo, let p := nth (chop16 (128 * cNt c.desc + 2) (region c.desc 4).1 c.data) u (0, [])
      ∀ pa, memOnly p.1 (translate s c.ctx c.sup .write (dw p.1)) = .ok pa → wrote pa p.2 ∧ ∃ k, card k ∧ k.todo = c.todo.filter (· != u)) ∧
    ((cOp c.desc = 1 ∨ cOp c.desc = 2) → c.todo ≠ [] → ∃ u ∈ c.todo, let i := u / 32
      let rows := cardRows s c i
      let here (k : Nat) : Bool := unitOf (nth rows k []) == nth (cardUnits rows) (u % 32) 0
      ∀ bs : Nat → List (List Byte), (∀ k, k < 32 → here k = true → ∃ ls, cardLoads s c (nth rows k []) = .ok (bs k, ls)) →
      let val (k : Nat) : Nat := if here k = false then findD c.got (32 * i + k) 0 else if cOp c.desc = 1 then leNat (nth (bs k) 0 [])
        else elemDecode ((slotOfLaunch s c.launch (cFmt c.desc)).getD 0) ((cN0 c.desc + i) * cLen c.desc + cK0 c.desc + k) (bs k)
      ∃ k1, card k1 ∧ k1.todo = c.todo.filter (· != u) ∧ t.warps = s.warps ∧ Rest s t [.arrivals] ∧
        ((∃ v ∈ c.todo, v ≠ u ∧ v / 32 = i) → t.arrivals = s.arrivals ∧ ∀ k, k < 32 → findD k1.got (32 * i + k) 0 = val k) ∧
        ((∀ v ∈ c.todo, v / 32 = i → v = u) → find s.wgs c.wg ≠ none → ∃ a, t.arrivals = s.arrivals ++ [a] ∧ k1.arrivals = c.arrivals ++ [a.id] ∧
          a.launch = c.launch ∧ a.core = c.core ∧ a.tile = cT0 c.desc + i / 32 ∧ a.off = 64 * (i % 32) ∧ a.card = some (cl, c.id) ∧
          a.data = (List.range 32).flatMap fun k => toBytes 2 (val k)))) ∧
  ∀ (s : State) (cl id : Nat) (c : Card) (pa : Nat), (clusterOf s cl).cards.find? (fun k => k.id == id) = some c → c.running = true → c.todo = [] → c.arrivals = [] →
    c.dva.toNat % 64 = 0 → paOf s c.ctx c.sup .write (c.dva.toNat + 0x14) = some pa →
    let status := toBytes 4 c.status ++ if c.status = 7 then toBytes 8 c.fva.toNat else []
    let stored (a : Nat) : Byte := if pa ≤ a ∧ a < pa + status.length then nth status (a - pa) 0 else memGet s.mem a
    ∃ t, exec (.cardComplete cl id) s = .next t ∧ (clusterOf t cl).cards = (clusterOf s cl).cards.filter (fun k => k.id != id) ∧ (ctxOf t c.ctx).wd = 0 ∧
      (c.ctr = none → ∀ a, memGet t.mem a = stored a) ∧
      (∀ v pc, c.ctr = some v → (∀ m, paOf { s with mem := m } c.ctx c.sup .rmw v.toNat = some pc) → ∀ a, memGet t.mem a =
        if pc ≤ a ∧ a < pc + 8 then nth (toBytes 8 (leNat ((List.range 8).map fun j => stored (pc + j)) + 1)) (a - pc) 0 else stored a) ∧
      t.warps = s.warps ∧ Rest s t [.mem, .cores, .ctxs, .wgs]

/-- R53, R54, R294 to R299, R494. Where every target passes its checks the guard-true threads go on at slot 0 of their target block, and the
other threads at the next instruction; `call` and `calli` leave the address of the next block in their link; `jtb` goes where its
table's entry, read as a load, says, or past the table's end to its block's default. -/
def Obligations.Transfers : Prop := ∀ (c : Ctl) (b : BitVec 6) (o : OB),
  let go (i : Instr) (busy : Iss → State → Bool) (ind : Bool) (link : List Nat) (target : Iss → Nat → DWord) : Prop := ∀ s x, Issues i busy s x →
    hopFault s x.w (x.hops ind (target x)) = none → ∃ t, exec i s = .next t ∧
      (∀ j, Iss.On x j → (laneIn t x j).pc = target x j + 4) ∧
      (∀ j, j < x.w.lanes.length → inMask x.mask j = true → inMask x.g j = false → (laneIn t x j).pc = x.next) ∧
      (∀ j, inMask x.mask j = false → (laneIn t x j).pc = (laneOf x.w j).pc) ∧
      (∀ j r, link = [r, r + 1] → Iss.On x j → number (laneIn t x j).rd r true = (blockAddr x.pc + 64).toNat) ∧ Leaves s t x link 0
  let reg (d : Opd) : List Nat := match d with | .v r => [r.val, r.val + 1] | _ => []
  go (.bra c o) (braBusy o) false [] (fun x _ => x.offTarget o) ∧
  go (.call c o) never false (reg o.treg) (fun x _ => x.offTarget o) ∧
  go (.calli c o) never true (reg o.treg) (fun x => x.val64 o.tlen) ∧
  go (.ret c o) never false [] (fun x => x.val64 o.treg) ∧
  go (.brx c o) never true [] (fun x => x.val64 o.treg) ∧
  ∀ s x l, Issues (.jtb c b o) (jtbBusy b o) s x → x.g ≠ 0 → (x.ubase b).toNat % 8 = 0 →
    x.check s .read 1 13 ((lanesOf x.g).filter fun j => decide ((x.val o.treg j).toNat < (x.val o.tlen (lowest x.g)).toNat))
      (fun j => x.ubase b + 8 * zx64 (x.val o.treg j)) = .ok l → Local l →
    (∀ e ∈ localOf l, e.2.2.2 = false ∨ l1Find (coreOf s x.w.core) x.w.ctx e.2.1.toNat = none) →
    let entry (j : Nat) : Option (Nat × DWord × Nat × Bool) := (localOf l).find? fun e => e.1 == j
    let target (j : Nat) : DWord := match entry j with
      | some e => dw (leNat (overlay s ⟨x.w.core, x.w.ctx, x.k, laneBit j, s.nextId⟩ e.2.2.1 8))
      | none => x.offTarget o
    hopFault s x.w ((lanesOf x.g).map fun j => ⟨j, target j, (entry j).isSome⟩) = none →
    ∃ t, exec (.jtb c b o) s = .next t ∧ (∀ j, Iss.On x j → (laneIn t x j).pc = target j + 4) ∧
      (∀ j, j < x.w.lanes.length → inMask x.mask j = true → inMask x.g j = false → (laneIn t x j).pc = x.next) ∧
      t.stores.map PStore.says = s.stores.map PStore.says ∧ Still s t x [] 0 ∧ Rest s t [.cores, .stores]

/-- R27, R279, R300, R49. `exit` ends the guard-true threads, and the warp with its last thread. A warp that ends leaves its last registers in its area of its
context's image, and no other byte of memory changes (that they are there from the end on, and not from the next switch on, is log 45). A join wait that has
run out ends for the group at its block. -/
def Obligations.EndsAndJoins : Prop :=
  (∀ (c : Ctl) (o : OB), ∀ s x, Issues (.exit c o) never s x → x.g ≠ 0 → x.w.level = 0 → ∃ t, exec (.exit c o) s = .next t ∧
    (∀ u, find t.warps x.k = some u → ∀ j, Iss.On x j → (laneOf u j).st = .exited) ∧
    (x.w.fw = none → x.w.activeSet &&& ~~~x.g = 0 → find t.warps x.k = none) ∧
    (x.w.activeSet &&& ~~~x.g ≠ 0 → ∃ u, find t.warps x.k = some u) ∧ Rest s t [.mem, .cores, .wgs, .launches] ∧
    (∀ a, memGet t.mem a ≠ memGet s.mem a → x.w.fw = none ∧ x.w.activeSet &&& ~~~x.g = 0 ∧ ∃ g u e m b, wgOf s x.w = some g ∧ imgSize s g.ctx ≠ 0 ∧
      u.width = x.w.width ∧ u.nv = x.w.nv ∧ e ∈ warpImage (imgBase s g.ctx + g.area + warpOffset (recOf s g) x.w.index) u ∧
      Upd.byte a b ∈ imgWrite g.ctx e.1 e.2 { s with mem := m }) ∧
    ∀ g p, wgOf s x.w = some g → find g.warps x.w.index = some x.k → x.w.fw = none → x.w.activeSet &&& ~~~x.g = 0 → imgSize s g.ctx ≠ 0 → x.w.swq = [] →
      x.w.width ≤ 64 → let b := imgBase s g.ctx + g.area + warpOffset (recOf s g) x.w.index
      (∀ m n, b ≤ n → n < b + warpArea x.w.width x.w.nv → paOf { s with mem := m } g.ctx true .write n = some (p + (n - b))) →
      (∀ r, r < 64 → memNat t.mem (p + 4 * r) 4 = (x.w.rdS r).toNat) ∧
      ∀ r j, r < x.w.nv → j < x.w.width → memNat t.mem (p + 0x9400 + 4 * (x.w.width * r + j)) 4 = ((laneOf x.w j).rd r).toNat) ∧
  ∀ (s : State) (wk : Nat) (pc : DWord) (w : Warp), find s.warps wk = some w → ∃ t u, exec (.joinTimeout wk pc) s = .next t ∧ find t.warps wk = some u ∧
    (∀ j, j < w.lanes.length → j < w.width → j < 64 → (laneOf u j).join =
      if (laneOf w j).st = (if w.level = 0 then .grouped else .trapped) ∧ (laneOf w j).wait = .none ∧ (laneOf w j).pc = pc
      then (laneOf w j).join.map (fun _ => 0) else (laneOf w j).join) ∧
    (∀ j, (laneOf u j).pc = (laneOf w j).pc ∧ (laneOf u j).v = (laneOf w j).v) ∧ (∀ k, k ≠ wk → find t.warps k = find s.warps k) ∧ Rest s t []

/-- R281 to R283, R288, R301. An arrival at a named barrier adds the guard-true threads to its sets under its count, and is a sink; with `barw`
they wait. When the arrivals and the members that have exited make up the count, the barrier is clear again and its threads go on. R285, R286, R302. An advance adds one to the phase, and its group waits until the lead condition holds; an advance received adds one to
the counter of its direction; `phase.rd` reads the phase or a neighbour's counter. -/
def Obligations.BarriersAndPhases : Prop := 
  (∀ (c : Ctl) (o : O5) (k : Fin 16) (g : Workgroup),
  let bar (i : Instr) (waits : Bool) : Prop := o.a = .nb k → ∀ s x, Issues i barBusy s x → x.g ≠ 0 → wgOf s x.w = some g → k.val < g.bars.length →
    find g.warps x.w.index = some x.k → (∀ j, inMask x.g j = true → (laneOf x.w j).wait = .none) →
    let n := (x.val o.b (lowest x.g)).toNat
    let b := nth g.bars k.val noBar
    1 ≤ n → n ≤ 2048 → (b.e = 0 ∨ b.e = n) →
    let b' : Bar := { b with e := n, arrived := setAdd b.arrived x.w.index x.g, members := setAdd b.members x.w.index x.g }
    ∃ t g', exec i s = .next t ∧ find t.wgs x.w.wg = some g' ∧ (ctxOf t x.w.ctx).wd = 0 ∧ Rest s t [.wgs, .ctxs] ∧
      (setSize b'.arrived + excused s g b' + b.gone < n → nth g'.bars k.val noBar = b' ∧ Still s t x [] 0 ∧
        ∀ j, Iss.On x j → (laneIn t x j).wait = if waits then .barrier k.val else .none) ∧
      (n ≤ setSize b'.arrived + excused s g b' + b.gone → nth g'.bars k.val noBar = { b' with e := 0, arrived := [] } ∧
        (∀ j, Iss.On x j → (laneIn t x j).wait = .none) ∧
        ∀ idx wk w u, find g.warps idx = some wk → wk ≠ x.k → find s.warps wk = some w → find t.warps wk = some u →
          ∀ j, inMask (setGet b.arrived idx) j = true → (laneOf w j).wait = .barrier k.val → j < w.lanes.length → (laneOf u j).wait = .none)
  bar (.barw c o) true ∧ bar (.bara c o) false) ∧
  ((∀ (c : Ctl) (o : O5) (g : Workgroup), ∀ s x, Issues (.phaseAdv c o) never s x → x.g ≠ 0 → wgOf s x.w = some g →
    find g.warps x.w.index = some x.k → x.w.fw = none → (∀ j, inMask x.mask j = true → (laneOf x.w j).wait = .none) →
    let g1 := { g with phase := g.phase + 1 }
    ∃ t g', exec (.phaseAdv c o) s = .next t ∧ find t.wgs x.w.wg = some g' ∧ g'.phase = g.phase + 1 ∧ g'.recv = g.recv ∧ Rest s t [.wgs, .cores] ∧
      (leadOk { s with wgs := put s.wgs x.w.wg g1 } g1 = false → Still s t x [] 0 ∧ ∀ j, j < x.w.lanes.length → inMask x.mask j = true →
        (laneIn t x j).wait = .phase)) ∧
  (∀ (s : State) (gk dir k : Nat) (g n : Workgroup), find s.wgs gk = some g → nbrOf s g dir = .at k n → k ≠ gk → recvOf g dir ≠ sentPhase s n →
    unitsFirst s n g (recvOf g dir + 1) = false →
    ∃ t g', exec (.phaseAdvanceReceive gk dir) s = .next t ∧ find t.wgs gk = some g' ∧ recvOf g' dir = recvOf g dir + 1 ∧ g'.phase = g.phase ∧
      Rest s t [.wgs, .cores]) ∧
  ∀ (c : Ctl) (o : O5) (g : Workgroup), ∀ s x, Issues (.phaseRd c o) never s x → wgOf s x.w = some g → ∃ t, exec (.phaseRd c o) s = .next t ∧
    Gets t x o.d false (fun _ =>
      let dir := (x.val o.a 0).toNat
      if dir = 0 then g.phase.toNat else match nbrOf s g dir with | .free => 0x10000 | _ => (recvOf g dir).toNat) ∧
    Leaves s t x (spanKeys (o.d, 1)) 0)

/-- R46, R47, R303, R304. A spawn for which a slot is free, beside those that older waiting ones will take, creates a warp at its target with its parameters; without one `spawn` waits in its queue
until a slot is granted, and `spawn.try` reports which. R44, R305. A push into a queue with room copies its packet into the slot at WR and adds one to WR; `enq` waits where there is no room, and
`enq.try` reports it; a packet behind a fabric window is fetched first. A warp created while its context has an image has its values there, and no
other byte of memory changes; of its core only the register cache does. -/
def Obligations.SpawnsAndPushes : Prop := 
  (∀ (c : Ctl) (o : OB) (g : Workgroup) (l : Launch),
  let born (t : State) (key idx : Nat) (parent : Warp) (pc : DWord) (params : List Word) : Prop := ∃ u, find t.warps key = some u ∧ u.index = idx ∧
    u.width = parent.width ∧ u.role = parent.role ∧ u.spawned = true ∧ u.ctx = g.ctx ∧ u.core = g.core ∧ u.level = 0 ∧ u.outs = [] ∧ u.lanes.length = parent.width ∧
    (∀ j, j < parent.width → (laneOf u j).pc = pc + 4 ∧ (laneOf u j).st = .grouped ∧ ∀ r, (laneOf u j).rd r = 0) ∧
    ∀ r, u.rdS r = nth params r 0
  let imaged (s t : State) (key idx : Nat) : Prop := ∀ u, find t.warps key = some u → ∀ a, (imgSize s g.ctx = 0 ∨
    ∀ m, ∀ e ∈ warpImage (imgBase s g.ctx + g.area + warpOffset l.lr idx) u, ∀ b, Upd.byte a b ∉ imgWrite g.ctx e.1 e.2 { s with mem := m }) →
      memGet t.mem a = memGet s.mem a
  let regLines (s t : State) : Prop := ∀ n, { coreOf t n with rc := [] } = { coreOf s n with rc := [] }
  let here (s : State) (x : Iss) : Prop := x.g ≠ 0 ∧ wgOf s x.w = some g ∧ find s.launches g.launch = some l ∧ 0 < l.lr.spawn ∧ x.k ≤ s.nextId
  let now (i : Instr) (report : Bool) : Prop := ∀ s x idx, Issues i spawnBusy s x → here s x → (freeSlots l.lr g)[(g.spawnQ.filter (stillWaits s)).length]? = some idx →
    ∃ t g', exec i s = .next t ∧ born t (s.nextId + 1) idx x.w (x.offTarget o) (spawnParams x o) ∧ find t.wgs x.w.wg = some g' ∧
      find g'.warps idx = some (s.nextId + 1) ∧ (report = true → GetsPred t x o.tlen fun _ => true) ∧
      imaged s t (s.nextId + 1) idx ∧ regLines s t ∧ Rest s t [.mem, .cores, .wgs]
  let none' (s : State) (x : Iss) : Prop := here s x ∧ (freeSlots l.lr g)[(g.spawnQ.filter (stillWaits s)).length]? = none
  now (.spawn c o) false ∧ now (.spawnTry c o) true ∧
  (∀ s x, Issues (.spawnTry c o) spawnBusy s x → none' s x → ∃ t, exec (.spawnTry c o) s = .next t ∧ (GetsPred t x o.tlen fun _ => false) ∧
    Leaves s t x (spanKeys (o.tlen, 1)) 0) ∧
  (∀ s x, Issues (.spawn c o) spawnBusy s x → none' s x → ∃ t u g', exec (.spawn c o) s = .next t ∧ Joins t x s.nextId x.g u ∧ u.kind = .await ∧
    find t.wgs x.w.wg = some g' ∧ g'.spawnQ = g.spawnQ ++ [⟨s.nextId, x.k, x.mask, x.offTarget o, spawnParams x o⟩] ∧
    (∀ j, j < x.w.lanes.length → inMask x.mask j = true → (laneIn t x j).wait = .slot) ∧ Still s t x [] 0 ∧ Rest s t [.wgs]) ∧
  ∀ (s : State) (gk idx : Nat) (r : SpawnReq) (rest : List SpawnReq) (w : Warp), find s.wgs gk = some g → g.spawnQ = r :: rest →
    find s.warps r.wk = some w → (∃ u ∈ w.outs, u.id = r.id) → (∀ u ∈ w.outs, u.id = r.id → u.kind ≠ .held) → (ctxOf s g.ctx).resident = true → find s.launches g.launch = some l →
    (freeSlots l.lr g).head? = some idx → r.wk < s.nextId →
    ∃ t g' u, exec (.spawnSlotGrant gk) s = .next t ∧ born t s.nextId idx w r.pc r.params ∧ find t.wgs gk = some g' ∧ g'.spawnQ = rest ∧
      find g'.warps idx = some s.nextId ∧ find t.warps r.wk = some u ∧ u.outs = w.outs.filter (fun o => o.id != r.id) ∧
      (∀ j, j < w.lanes.length → inMask r.mask j = true → (laneOf w j).wait = .slot → (laneOf u j).wait = .none) ∧
      imaged s t s.nextId idx ∧ regLines s t ∧ Rest s t [.mem, .cores, .wgs]) ∧
  (∀ (c : Ctl) (o : O5) (p : Push),
  let pushed (s t : State) (ctx : Nat) (bs : List Byte) : Prop :=
    (∀ a, memGet t.mem a = if p.hdr + 0x10 ≤ a ∧ a < p.hdr + 0x18 then nth (toBytes 8 (p.wr + 1)) (a - (p.hdr + 0x10)) 0
      else if p.slot ≤ a ∧ a < p.slot + bs.length then nth bs (a - p.slot) 0 else memGet s.mem a) ∧
    (ctxOf t ctx).wd = 0 ∧ Rest s t [.mem, .cores, .wgs, .queues, .ctxs]
  let looks (i : Instr) (s : State) (x : Iss) : Prop := Issues i (enqBusy o) s x ∧ x.g ≠ 0 ∧ enqLook s x (x.point s.nextId) o = .ok p
  let waits (s t : State) (x : Iss) (m : Mask) : Prop := (∃ u, (warpOf t x).outs = x.w.outs ++ [u] ∧ u.id = s.nextId ∧ u.ins = x.i ∧ u.mask = x.mask ∧
      u.act = x.g ∧ u.left = m ∧ u.kind = .await) ∧
    (∀ j, j < x.w.lanes.length → inMask x.mask j = true → (laneIn t x j).wait = .room) ∧ Still s t x [] 0
  let now (i : Instr) : Prop := ∀ s x pa, looks i s x → p.pkt = .mem pa → p.full = false →
    ∃ t, exec i s = .next t ∧ pushed s t x.w.ctx (overlay s (x.point s.nextId) pa 64) ∧ Gets t x o.d false (fun _ => 0) ∧
      Still s t x (spanKeys (o.d, 1)) 0
  let fetched (i : Instr) : Prop := ∀ s x peer g off, looks i s x → p.pkt = .win peer g off → ∃ t r, exec i s = .next t ∧ waits s t x x.g ∧
    t.fabric.remotes = s.fabric.remotes ++ [r] ∧ r.peer = peer ∧ r.ifa = ifaOf peer g off ∧ r.wk = x.k ∧ r.out = s.nextId ∧ r.bytes = 64 ∧ r.kind = 6 ∧
    Rest s t [.fabric, .wgs]
  now (.enq c o) ∧ now (.enqTry c o) ∧ fetched (.enq c o) ∧ fetched (.enqTry c o) ∧
  (∀ s x pa, looks (.enqTry c o) s x → p.pkt = .mem pa → p.full = true →
    ∃ t, exec (.enqTry c o) s = .next t ∧ Gets t x o.d false (fun _ => 1) ∧ Leaves s t x (spanKeys (o.d, 1)) 0) ∧
  (∀ s x pa, looks (.enq c o) s x → p.pkt = .mem pa → p.full = true → ∃ t, exec (.enq c o) s = .next t ∧ waits s t x 0 ∧ Rest s t []) ∧
  ∀ (s : State) (wk : Nat) (w : Warp) (u : Outst) (again : Bool), find s.warps wk = some w → waitingEnq w = some (u, o, again) → w.fw = none →
    (ctxOf s w.ctx).resident = true → enqLook s (replayIss s wk w u) (u.point w wk u.act) o = .ok p → p.full = false → relDone s .dev (u.point w wk u.act) = true →
    ∃ t v, exec (.enqPush wk) s = .next t ∧ pushed s t w.ctx (match p.pkt with
        | .mem pa => overlay s (u.point w wk u.act) pa 64
        | .win _ _ _ => (u.res.vals.flatMap fun v => toBytes 16 v.toNat).take 64) ∧
      find t.warps wk = some v ∧ v.outs = w.outs.filter (fun q => q.id != u.id) ∧ (∀ r, o.d = .s r → v.rdS r.val = 0) ∧
      ∀ j, j < w.lanes.length → inMask u.mask j = true → (laneOf w j).wait = .room → (laneOf v j).wait = .none)

/-- R306, R307. `yield` holds its warp back: its core selects it only while every ready warp is held back, and co-issues it never, until each of the other
ready warps has been offered a selection since, or it is selected itself. `wait.ns` makes its group wait for the time it names, and the wait ends once that
time has come. -/
def Obligations.YieldsAndWaits : Prop :=
  (∀ (c : Ctl) (o : O5), Does (.yield c o) never fun s x t => (x.g ≠ 0 → (warpOf t x).hold = some []) ∧ Leaves s t x [] 0) ∧
  (∀ (s : State) (core : Nat), let ready := readyWarps s core
    let held (k : Nat) : Prop := ∃ w l, find s.warps k = some w ∧ w.hold = some l ∧ ∃ e ∈ ready, e.1.wk ≠ k ∧ e.1.wk ∉ l
    (∀ e, coreOffer s core = some e → e ∈ ready ∧ (held e.1.wk → ∀ f ∈ ready, held f.1.wk)) ∧
    (∀ c cur i, coOffer s core = some (c, cur, i) → ¬held c.wk) ∧
    ∀ k j w, rising s.warps = true → find s.warps j = some w → ∃ u, find (run (noteOffer s core k) s).warps j = some u ∧ { u with hold := w.hold } = w ∧
      (w.hold = none → u.hold = none) ∧ (w.fw ≠ none ∨ w.core ≠ core → u.hold = w.hold) ∧
      ∀ l, w.hold = some l → w.fw = none → w.core = core →
        ((j = k ∨ ∀ e ∈ ready, e.1.wk = j ∨ e.1.wk = k ∨ e.1.wk ∈ l) → u.hold = none) ∧
        (j ≠ k → (∃ e ∈ ready, e.1.wk ≠ j ∧ e.1.wk ≠ k ∧ e.1.wk ∉ l) → u.hold = some (k :: l))) ∧
  (∀ (c : Ctl) (o : O5), Does (.waitNs c o) never fun s x t =>
    let n := (x.val o.a (lowest x.g)).toNat
    (x.g ≠ 0 → n ≠ 0 → ∀ j, j < x.w.lanes.length → inMask x.mask j = true → (laneIn t x j).wait = .timed (s.now + n)) ∧
    (n = 0 → ∀ j, (laneIn t x j).wait = (laneOf x.w j).wait) ∧ Leaves s t x [] 0) ∧
  ∀ (s : State) (wk : Nat) (w : Warp), find s.warps wk = some w → ∃ t u, exec (.waitNsExpiry wk) s = .next t ∧ find t.warps wk = some u ∧
    (∀ j, j < w.lanes.length → j < w.width → j < 64 → (∀ n, (laneOf w j).wait = .timed n → n ≤ s.now → (laneOf u j).wait = .none) ∧
      ((∀ n, (laneOf w j).wait = .timed n → s.now < n) → laneOf u j = laneOf w j)) ∧ Rest s t []

/-- R35, R71, R269, R276, R337. The checks of an instruction of a group that nothing holds, in their order: privilege, allotment, an open
window's registers, the balance, the whole active set. A group that does not issue is left as it is; an ejected thread returns to its warp. -/
def Obligations.IssueChecks : Prop :=
  (∀ (s : State) (x : Iss) (b : Bool), x.blocked = false → x.ejected = false → x.w.fw = none →
    let low := decide (privNow s x.w < privNum (privOf x.i))
    let poor := decide ((reg s .cbal x.w.ctx).toInt ≤ 0)
    (low = true → gate s x b = .trap 5) ∧ (low = false → x.allotted s = false → gate s x b = .trap 6) ∧
    (low = false → x.allotted s = true → x.conflict = true → gate s x b = .trap 7) ∧
    (low = false → x.allotted s = true → x.conflict = false → poor = true → gate s x b = .energy) ∧
    (low = false → x.allotted s = true → x.conflict = false → poor = false → needsWhole x.i = true → ¬(x.mask = x.w.activeSet ∧ x.g = x.mask) →
      (∀ l ∈ x.w.lanes, l.st ≠ .ejected) → gate s x b = .trap 8)) ∧
  ∀ (i : Instr) (price : Iss → List Chg) (busy : Iss → State → Bool) (body : Iss → Nat → Action), exec i = issue i price busy body →
    ∀ s x, issOf s i = some x → let q := gate s x (x.g != 0 && busy x s)
      (q = .wait → exec i s = .next s) ∧
      (q = .energy → ∃ t, exec i s = .next t ∧ (ctxOf t x.w.ctx).energyOut = true ∧ t.warps = s.warps ∧ Rest s t [.ctxs]) ∧
      (q = .bounce → ∃ t u, exec i s = .next t ∧ find t.warps x.k = some u ∧ (∀ j, j < x.w.lanes.length → inMask x.mask j = true →
        laneOf u j = { laneOf x.w j with st := .grouped }) ∧ (∀ j, inMask x.mask j = false → laneOf u j = laneOf x.w j) ∧ Rest s t [])

/-- R398, R399, R401, R402, R419. A trap that is caught puts its group at the handler with its place in a frame, and its unfinished instructions in the
frame's replay queue: a failed check and a misaligned access at their instruction, `trap` at the next one. An access that fails in translation (cause 10 or
11) is queued itself, behind the others, and its group resumes past it: at the next instruction if the access opens no window, else where its threads stand when
the trap is taken (how far they get in the window is log 22). -/
def Obligations.TrapsEnter : Prop :=
  let quiet (s : State) (k : Nat) (w : Warp) (m : Mask) (g : Workgroup) (f : Nat) : Prop := Handled s k w g f ∧
    ∀ q ∈ w.outs, q.mask &&& m = 0 ∨ (q.kind = .alu ∨ ∃ n v y, q.kind = .faulty n v y) ∧ q.age < s.nextId
  let undone (w : Warp) (m : Mask) : List Instr := (w.outs.filter fun q => q.mask &&& m != 0).map (·.ins)
  (∀ (i : Instr) (price : Iss → List Chg) (busy : Iss → State → Bool) (body : Iss → Nat → Action), exec i = issue i price busy body →
    ∀ s x n g f, issOf s i = some x → gate s x (x.g != 0 && busy x s) = .trap n → quiet s x.k x.w x.mask g f →
      ∃ t, exec i s = .next t ∧ Caught s t x.k x.w x.mask g f ⟨x.mask, n, x.pc, x.pc, 0, 0, none⟩ (undone x.w x.mask)) ∧
  (∀ (c : Ctl) (o : OX), ∀ s x g f, Issues (.trap c o) never s x → x.g ≠ 0 → quiet s x.k x.w x.mask g f →
    ∃ t, exec (.trap c o) s = .next t ∧ Caught s t x.k x.w x.mask g f ⟨x.mask, 32, x.pc, x.next, 0, o.sel.setWidth 32, none⟩ (undone x.w x.mask)) ∧
  (∀ (c : Ctl) (lz : LdSz) (wz : StSz) (acq rel nr wide : Bool) (ord : AOrd) (sc : Scope) (sop : SredOp) (o : OM),
    let faults (i : Instr) (busy : Iss → State → Bool) (a : AccKind) (size mis : Nat) (os : List Opd) : Prop := ∀ s x g f n v y, Issues i busy s x → x.g ≠ 0 →
      quiet s x.k x.w x.mask g f → x.check s a size mis (x.acting os) (x.ea o) = .trap n v y → lowest x.mask < x.w.lanes.length →
      (n ≠ 10 → n ≠ 11 → ∃ t, exec i s = .next t ∧ Caught s t x.k x.w x.mask g f ⟨x.mask, n, x.pc, x.pc, v, y, none⟩ (undone x.w x.mask)) ∧
      (n = 10 ∨ n = 11 → c.look = 0 → ∃ t, exec i s = .next t ∧
        Caught s t x.k x.w x.mask g f ⟨x.mask, n, x.pc, x.next, v, y, none⟩ (undone x.w x.mask ++ [i])) ∧
      (n = 10 ∨ n = 11 → c.look ≠ 0 → ∃ t u, exec i s = .next t ∧ (warpOf t x).outs = x.w.outs ++ [u] ∧ u.id = s.nextId ∧ u.pc = x.pc ∧ u.ins = i ∧
        u.mask = x.mask ∧ u.kind = .faulty n v y ∧ Leaves s t x [] 0)
    let atom (i : Instr) (op : Rmw) (wide : Bool) : Prop := faults i (atomBusy op ord sc wide o) .rmw (if wide then 8 else 4) 13 (atomOps op o)
    faults (.ld c lz acq sc o) (ldBusy (WF.ldBytes lz) [o.addr] o) .read (WF.ldBytes lz) 12 [o.addr] ∧
    faults (.st c wz rel sc o) (stBusy (WF.stBytes wz) rel sc o) .write (WF.stBytes wz) 12 [o.data, o.addr] ∧
    faults (.hgath c wide o) (ldBusy (if wide then 8 else 4) [o.data] o) .read (if wide then 8 else 4) 12 [o.data] ∧
    faults (.lcln c o) writeBusy .clean 1 12 [o.addr] ∧ faults (.sred c sop o) (sredBusy o) .rmw 4 13 [o.data, o.addr] ∧
    atom (.atomAdd c ord sc nr wide o) .add wide ∧ atom (.atomSmin c ord sc nr wide o) .smin wide ∧ atom (.atomUmin c ord sc nr wide o) .umin wide ∧
    atom (.atomSmax c ord sc nr wide o) .smax wide ∧ atom (.atomUmax c ord sc nr wide o) .umax wide ∧ atom (.atomAnd c ord sc nr wide o) .and wide ∧
    atom (.atomOr c ord sc nr wide o) .or wide ∧ atom (.atomXor c ord sc nr wide o) .xor wide ∧ atom (.atomExch c ord sc nr wide o) .exch wide ∧
    atom (.atomCas c ord sc nr wide o) .cas wide ∧ atom (.atomFaddF32 c ord sc nr o) .fadd false) ∧
  ∀ (s : State) (wk id : Nat) (w : Warp) (u : Outst) (m : Mask) (g : Workgroup) (f n : Nat) (v : DWord) (y : Word), find s.warps wk = some w →
    w.outs.find? (fun o => o.id == id) = some u → u.kind = .faulty n v y → n = 10 ∨ n = 11 → faultWaits w u = false → pcGroups w u.mask = [m] → quiet s wk w m g f →
    Caught s (run (takeFault wk id) s) wk w m g f ⟨m, n, u.pc, (laneOf w (lowest m)).pc, v, y, none⟩ (undone w m)

/-- R362, R400, R408. The traps that wait for their boundary are taken there: one that waited for a frame, a deadline, a recorded remote error. -/
def Obligations.TrapsDelivered : Prop := ∀ (s : State) (wk : Nat) (w : Warp) (g : Workgroup) (f : Nat), (ctxOf s w.ctx).resident = true →
  (∀ c, w.pend.find? (trapReady s wk w) = some c → Catches s wk w c.mask g f → ∃ t, exec (.trapEntry wk) s = .next t ∧
    Caught s t wk w c.mask g f c (c.queue.toList.map (·.ins)) ∧ ∀ u, find t.warps wk = some u → u.pend = w.pend.filter (fun d => d != c)) ∧
  (∀ ctx pc m l, deadlineDue s w ctx = true → groupsOf w = (pc, m) :: l → Catches s wk w m g f → ∃ t, exec (.timerDeadlineFire wk ctx) s = .next t ∧
    Caught s t wk w m g f ⟨m, 30, pc, pc, 0, 0, none⟩ [] ∧ ∀ u, find t.warps wk = some u → (if ctx then u.ctxd else u.dev).armed = false) ∧
  (∀ pc m, errDue s w = some (pc, m) → Catches s wk w m g f →
    ∃ t, exec (.remoteErrorDelivery wk) s = .next t ∧ Caught s t wk w m g f ⟨m, 31, pc, pc, 0, w.rem.code, none⟩ [] ∧
      (∀ u, find t.warps wk = some u → u.rem.count = 0) ∧
      ∀ g', find t.wgs w.wg = some g' → (nth g'.frames f noFrame).rcnt = w.rem.count ∧ (nth g'.frames f noFrame).rifa = w.rem.ifa)

/-- R294, R398, R404. A trap above level 0, or without a handler, stops its context: level 2 is marked, and it is no longer resident. So it is with
`trap`, with every check that fails at issue, with an access that fails as it issues, and with an `exit` of a handler. -/
def Obligations.TrapsEscalate : Prop :=
  let stops (s : State) (x : Iss) (i : Instr) : Prop := ∃ t, exec i s = .next t ∧ dbit (reg t .ctxs x.w.ctx) 3 = true ∧ (ctxOf t x.w.ctx).resident = false ∧
    (∀ k u, find t.warps k = some u → u.ctx = x.w.ctx → u.fw = none → u.activeSet = 0) ∧
    ∀ k l, find t.launches k = some l → l.ctx = x.w.ctx → l.status ≠ none
  let handler (x : Iss) : Prop := x.w.level ≠ 0 ∧ ∃ j, j < 64 ∧ inMask x.mask j = true ∧ (laneOf x.w j).st = .trapped
  let level2 (s : State) (x : Iss) : Prop := x.w.fw = none ∧ (wgOf s x.w).isSome = true ∧ (handler x ∨ x.w.level = 0 ∧ reg s .hvec x.w.ctx = 0)
  (∀ (i : Instr) (price : Iss → List Chg) (busy : Iss → State → Bool) (body : Iss → Nat → Action), exec i = issue i price busy body →
    ∀ s x n, issOf s i = some x → gate s x (x.g != 0 && busy x s) = .trap n → level2 s x → stops s x i) ∧
  (∀ (c : Ctl) (o : OX), ∀ s x, Issues (.trap c o) never s x → x.g ≠ 0 → level2 s x → stops s x (.trap c o)) ∧
  (∀ (c : Ctl) (o : OB), ∀ s x, Issues (.exit c o) never s x → x.g ≠ 0 → x.w.fw = none → (wgOf s x.w).isSome = true → handler x → stops s x (.exit c o)) ∧
  ∀ (c : Ctl) (lz : LdSz) (wz : StSz) (acq rel : Bool) (sc : Scope) (o : OM), c.look = 0 →
    let faults (i : Instr) (busy : Iss → State → Bool) (a : AccKind) (size : Nat) (os : List Opd) : Prop := ∀ s x n v y, Issues i busy s x → x.g ≠ 0 →
      x.check s a size 12 (x.acting os) (x.ea o) = .trap n v y → level2 s x → x.w.level ≠ 0 ∨ x.w.cpc = 0 → stops s x i
    faults (.ld c lz acq sc o) (ldBusy (WF.ldBytes lz) [o.addr] o) .read (WF.ldBytes lz) [o.addr] ∧
    faults (.st c wz rel sc o) (stBusy (WF.stBytes wz) rel sc o) .write (WF.stBytes wz) [o.data, o.addr] ∧
    faults (.lcln c o) writeBusy .clean 1 [o.addr]

/-- R407, R420. A return that every live lane of its frame has reached restores the registers, predicates and flags of the lanes, and for a
handler's frame the uniform registers and level 0; the lanes go on at the frame's PC, and the frame is free. -/
def Obligations.TrapsReturn : Prop := ∀ (c : Ctl) (o : OX) (g : Workgroup) (f : Nat),
  let back (i : Instr) (cont : Bool) (ok : State → Iss → Frame → Prop) : Prop := ∀ s x, Issues i never s x → x.g ≠ 0 → wgOf s x.w = some g →
    f < g.frames.length → retrDue s g = none → let fr := nth g.frames f noFrame
    fr.warp = x.k → fr.rep = [] → x.w.held ≤ 16 → liveLanes x.w fr.gmask ≠ 0 → liveLanes x.w fr.gmask &&& ~~~x.g = 0 → isCont fr = cont → ok s x fr →
    ∃ t g' u, exec i s = .next t ∧ find t.wgs x.w.wg = some g' ∧ (nth g'.frames f noFrame).state = 0 ∧ find t.warps x.k = some u ∧
      (∀ j, j < x.w.lanes.length → inMask (liveLanes x.w fr.gmask) j = true → (laneOf u j).pc = fr.rpc ∧ (laneOf u j).st = .grouped ∧
        (laneOf u j).wait = .none ∧ (laneOf u j).p = nth fr.pred j 0 ∧ (laneOf u j).flg = nth fr.flg j 0 &&& 0x1FF ∧
        (∀ r, r < 8 → (laneOf u j).rd r = nth (nth fr.sv j []) r 0) ∧ ∀ r, 8 ≤ r → (laneOf u j).rd r = (laneOf x.w j).rd r) ∧
      (∀ r, 8 ≤ r → u.rdS r = x.w.rdS r) ∧ u.a = x.w.a ∧
      (cont = false → u.level = 0 ∧ ∀ r, r < 8 → u.rdS r = nth fr.ss r 0) ∧
      (cont = true → u.level = x.w.level ∧ ∀ r, r < 8 → u.rdS r = x.w.rdS r) ∧ Rest s t [.wgs]
  back (.retr c o) false (fun _ x fr => x.w.level = 1 ∧ x.w.frame = some f ∧ fr.state = 1) ∧
  back (.retrC c o) true (fun _ x fr => x.w.level = 0 ∧ fr.state = 3 ∧ wbits (x.val o.a (lowest x.g)) 2 3 = f ∧
    x.val o.a (lowest x.g) = tokenOf x.w f fr.gen ∧ x.g &&& ~~~fr.gmask = 0)

/-- R421 to R423. A handler reads and writes the fields of its frame, and only those; `cont.set` sets the continuation handler; `cont.sig` makes a
pending frame serviced, and reports whether its token named one. -/
def Obligations.FramesAndContinuations : Prop := ∀ (c : Ctl) (o : OX),
  (∀ s x f fr k, Issues (.frmRd c o) never s x → x.g ≠ 0 → frmLook s x o = .ok (f, fr, k) → ∃ t, exec (.frmRd c o) s = .next t ∧
    Gets t x o.d (WF.frmWide o.sel.toNat) (fun j => (frmValue fr o.sel.toNat k j).toNat) ∧ Leaves s t x (spanKeys (o.d, wn (WF.frmWide o.sel.toNat))) 0) ∧
  (∀ s x f fr k g, Issues (.frmWr c o) never s x → x.g ≠ 0 → frmLook s x o = .ok (f, fr, k) → wgOf s x.w = some g → f < g.frames.length →
    ∃ t g', exec (.frmWr c o) s = .next t ∧ find t.wgs x.w.wg = some g' ∧ (∀ n, n ≠ f → nth g'.frames n noFrame = nth g.frames n noFrame) ∧
      (let new := nth g'.frames f noFrame
       (o.sel = 3 → new = { fr with rpc := x.val64 o.d (lowest x.g) }) ∧
       (o.sel = 9 → { new with sv := fr.sv } = fr ∧ ∀ j, j < fr.sv.length → k < (nth fr.sv j []).length →
         nth (nth new.sv j []) k 0 = if inMask x.g j then x.val o.d j else nth (nth fr.sv j []) k 0) ∧
       (o.sel = 10 → { new with pred := fr.pred } = fr ∧ ∀ j, j < fr.pred.length → nth new.pred j 0 = if inMask x.g j then (x.val o.d j).setWidth 12 else nth fr.pred j 0) ∧
       (o.sel = 11 → { new with flg := fr.flg } = fr ∧ ∀ j, j < fr.flg.length → nth new.flg j 0 = if inMask x.g j then x.val o.d j &&& 0x1FF else nth fr.flg j 0) ∧
       (o.sel = 12 → k < fr.ss.length → { new with ss := fr.ss } = fr ∧ nth new.ss k 0 = x.val o.d (lowest x.g) ∧ ∀ n, n ≠ k → nth new.ss n 0 = nth fr.ss n 0) ∧
       (o.sel = 14 → { new with rep := fr.rep } = fr ∧ ∀ r, fr.rep[k]? = some r → new.rep[k]? = some { r with drop := (x.val o.d (lowest x.g)).getLsbD 1 })) ∧
      Still s t x [] 0 ∧ Rest s t [.wgs]) ∧
  (Does (.contSet c o) never fun s x t => x.g ≠ 0 →
    let v : DWord := match o.a with | .none => 0 | a => x.val64 a (lowest x.g)
    v.toNat % 64 = 0 → v.toNat < 2 ^ 52 → (warpOf t x).cpc = v ∧ Leaves s t x [] 0) ∧
  ∀ s x, Issues (.contSig c o) relBusyNow s x → x.g ≠ 0 → let token := x.val o.a (lowest x.g)
    (x.w.fw = none → ctxTenant s (wbits token 22 10) = ctxTenant s x.w.ctx) →
    (pendingFrame s token = none → ∃ t, exec (.contSig c o) s = .next t ∧ Gets t x o.d false (fun _ => 1) ∧ Leaves s t x (spanKeys (o.d, 1)) 0) ∧
    (∀ k g f, pendingFrame s token = some (k, g, f) → f < g.frames.length → (ctxOf s g.ctx).resident = true → find s.wgs k = some g →
      (∃ j w, find s.warps (nth g.frames f noFrame).warp = some w ∧ inMask (liveLanes w (nth g.frames f noFrame).gmask) j = true ∧ j < 64 ∧ (laneOf w j).wait ≠ .retr f) →
      retrDue s g = none →
      ∃ t g', exec (.contSig c o) s = .next t ∧ Gets t x o.d false (fun _ => 0) ∧ find t.wgs k = some g' ∧ (nth g'.frames f noFrame).state = 3 ∧
        Still s t x (spanKeys (o.d, 1)) 0 ∧ Rest s t [.wgs])

/-- R24, R316, R321, R344, R357, R358, R368, R412, R424, R425. `sr.rd` and `erd` read the register they name; `sr.wr` and `ewr` write the fields that their
caller may write, and no other register but what the register's own rule names; an access that its caller may not make traps. -/
def Obligations.HardwareRegisters : Prop := ∀ (c : Ctl) (o : OX) (k : RegKind) (n : Nat),
  (∀ s x g f e, x.g ≠ 0 → Catches s x.k x.w x.mask g f →
    let traps (i : Instr) (r : Except Nat (RegKind × Nat)) : Prop := Issues i never s x → r = .error e →
      ∃ t, exec i s = .next t ∧ Caught s t x.k x.w x.mask g f ⟨x.mask, e, x.pc, x.pc, 0, 0, none⟩ []
    traps (.srRd c o) (sysLook s x o false) ∧ traps (.srWr c o) (sysLook s x o true) ∧ traps (.erd c o) (energyLook s x o false) ∧
      traps (.ewr c o) (energyLook s x o true) ∧ (sysLook s x o false = .ok (.ctxd, n) → sysLook s x o true = .error 5)) ∧
  (∀ s x, Issues (.srRd c o) never s x → x.g ≠ 0 → sysLook s x o false = .ok (k, n) → ∃ t, exec (.srRd c o) s = .next t ∧
    Gets t x o.d (kindWide k) (fun _ => (reg s k n).toNat) ∧ Leaves s t x (spanKeys (o.d, wn (kindWide k))) 0) ∧
  (∀ s x, Issues (.erd c o) never s x → x.g ≠ 0 → energyLook s x o false = .ok (k, n) →
    ∃ t, exec (.erd c o) s = .next t ∧ Gets t x o.d (kindWide k) (fun _ => (reg t k n).toNat) ∧ Leaves s t x (spanKeys (o.d, wn (kindWide k))) 0) ∧
  (∀ s x, Issues (.srWr c o) never s x → x.g ≠ 0 → sysLook s x o true = .ok (k, n) → let v := x.valW (kindWide k) o.d (lowest x.g)
    (k = .hvec → ∃ t, exec (.srWr c o) s = .next t ∧ (reg t k n).toNat = v.toNat / 64 % 2 ^ 46 * 64 ∧ RegsBut s t [(k, n)] ∧ Beside s t ∧ Still s t x [] 0) ∧
    (k = .ctxt → ∃ t, exec (.srWr c o) s = .next t ∧ reg t k n = v &&& 0x800000FFFFFF0000 ∧ RegsBut s t [(k, n)] ∧
      t.tlb = s.tlb.filter (fun e => e.ctx != n) ∧ Beside s t ∧ Still s t x [] 0) ∧
    (k = .evrb → ∃ t, exec (.srWr c o) s = .next t ∧ reg t k n = v &&& 0x800FFFFFFFFFFFC0 ∧ reg t .evrs n = 0 ∧ RegsBut s t [(k, n), (.evrs, n)] ∧
      Beside s t ∧ Still s t x [] 0) ∧
    (k = .ctxs → ∃ t, exec (.srWr c o) s = .next t ∧ reg t k n = (reg s k n &&& ~~~(v &&& 0x80000000)) &&& 0x8000000F ∧ RegsBut s t [(k, n)] ∧
      Beside s t ∧ Still s t x [] 0) ∧
    (k = .cwin → ∃ t, exec (.srWr c o) s = .next t ∧ Beside s t ∧ Still s t x [] 0 ∧
      (16 < v.toNat % 32 → RegsBut s t [] ∧ t.tlb = s.tlb) ∧
      (v.toNat % 32 ≤ 16 → reg t k n = v &&& 0xFFFFFFFFDF ∧ RegsBut s t [(k, n)] ∧ t.tlb = s.tlb.filter fun e => e.ctx != n)) ∧
    (k = .cimg → ∃ t, exec (.srWr c o) s = .next t ∧ Beside s t ∧ Still s t x [] 0 ∧
      ((∃ e ∈ s.wgs, e.2.ctx = n) → reg t .ctxs n = dset (reg s .ctxs n) 31 1 1 &&& 0x8000000F ∧ RegsBut s t [(.ctxs, n)]) ∧
      ((∀ e ∈ s.wgs, e.2.ctx ≠ n) → reg t k n = v &&& 0xFFFFFFFFFFFF0000 ∧ RegsBut s t [(k, n)])) ∧
    (k = .qmap → ∃ t, exec (.srWr c o) s = .next t ∧ Beside s t ∧ Still s t x [] 0 ∧
      (dbit (reg s .qstat n) 31 = true → RegsBut s t [] ∧ (tenantOf t n).map = (tenantOf s n).map) ∧
      (dbit (reg s .qstat n) 31 = false → reg t k n = v &&& 0xFFFFFFFFFFFFFFC0 ∧ RegsBut s t [(k, n), (.qstat, n)] ∧
        (v.toNat / 2 ^ 62 = 0 → reg t .qstat n = reg s .qstat n ∧ (tenantOf t n).map = (tenantOf s n).map) ∧
        (v.toNat / 2 ^ 62 ≠ 0 → dbit (reg t .qstat n) 31 = true ∧ let ctx := v.toNat / 2 ^ 52 % 1024
          (tenantOf t n).map = some ⟨v.toNat / 2 ^ 62 == 2, ctx, dw (v.toNat / 64 % 2 ^ 46 * 64), v.toNat / 2 ^ 62 == 3 || ctxTenant s ctx != n, none⟩)))) ∧
  ∀ s x, Issues (.ewr c o) never s x → x.g ≠ 0 → energyLook s x o true = .ok (k, n) → let v := x.valW (kindWide k) o.d (lowest x.g)
    (k = .cinf → fallback s (islandOfPart s (ctxTenant s n)) = false → ∃ t, exec (.ewr c o) s = .next t ∧ (reg t k n).toNat = v.toNat % 2 ^ 47 ∧ RegsBut s t [(k, n)] ∧ Beside s t ∧ Still s t x [] 0) ∧
    (k = .cinf → fallback s (islandOfPart s (ctxTenant s n)) = true → ∃ t, exec (.ewr c o) s = .next t ∧ RegsBut s t [] ∧ Beside s t ∧ Still s t x [] 0) ∧
    (k = .rack ∨ k = .rcfg → ∃ t, exec (.ewr c o) s = .next t ∧ (reg t k n).toNat = v.toNat % 2 ^ 32 ∧ RegsBut s t [(k, n)] ∧ Beside s t ∧ Still s t x [] 0) ∧
    (k = .pdem → ∃ t, exec (.ewr c o) s = .next t ∧ (reg t k n).toNat = v.toNat % 2 ^ 16 ∧ RegsBut s t [(k, n)] ∧ Beside s t ∧ Still s t x [] 0) ∧
    (k = .cbal → ∃ t, exec (.ewr c o) s = .next t ∧ reg t k n = v ∧ RegsBut s t [] ∧ Beside s t ∧ Still s t x [] 0) ∧
    (k = .tbud → ∃ t, exec (.ewr c o) s = .next t ∧ reg t k n = v &&& 0x80007FFFFFFFFFFF ∧ RegsBut s t [(k, n)] ∧ Beside s t ∧ Still s t x [] 0 ∧
      let r := tenantOf t n
      if dbit v 63 = true ∧ dbit (reg s k n) 63 = false then r.t0 = s.now ∧ r.drops = [] ∧ r.corr = 0 ∧ r.clamps = 0 ∧ r.ctxs = [] ∧ r.res = []
        else t.tens = s.tens) ∧
    (k = .pcfg → let ok : Prop := dbits v 0 4 ≤ dbits v 4 4 ∧ ctxValid s (dbits v 16 10) = true
      ∃ t, exec (.ewr c o) s = .next t ∧ RegsBut s t [(k, n), (.opmb, n)] ∧ Beside s t ∧ Still s t x [] 0 ∧
        (¬ok → reg t k n = dset (reg s k n) 31 1 1 &&& 0x83FF00FF ∧ reg t .opmb n = reg s .opmb n) ∧
        (ok → dbits (reg t k n) 0 8 = dbits v 0 8 ∧ ownerOf t n = dbits v 16 10 ∧
          dbits (reg t .opmb n) 0 4 = max (dbits v 0 4) (min (dbits v 4 4) (dbits (reg s .opmb n) 0 4)))) ∧
    (k = .ilim → let ok : Prop := dbits v 0 11 ≠ 0 ∧ dbits v 0 11 ≤ 1100
      ∃ t, exec (.ewr c o) s = .next t ∧ RegsBut s t [(k, n)] ∧ Beside s t ∧ Still s t x [] 0 ∧
        (¬ok → reg t k n = dset (reg s k n) 31 1 1 &&& 0x87FF07FF) ∧
        (ok → dbits (reg t k n) 0 11 = dbits v 0 11 ∧ dbits (reg t k n) 16 11 = max 1 (min (dbits v 0 11)
          ((dbits (reg s .pcap 0) 0 16 - Config.freeOther (s.now / 1000000)) * 1000 / (6 * opMilliVolt (topOp s n)))))) ∧
    (k = .opmb → ∃ t, exec (.ewr c o) s = .next t ∧
      dbits (reg t k n) 0 4 = max (dbits (reg s .pcfg n) 0 4) (min (dbits (reg s .pcfg n) 4 4) (dbits v 0 4)) ∧ RegsBut s t [(k, n)] ∧ Beside s t ∧ Still s t x [] 0)

/-- R426. `ctx.ctl` on a valid context reports 0 and holds, releases or stops it; on any other it reports 1 and does nothing. R374, R427. `tlbi` drops the cached translations it names, and no other. -/
def Obligations.ContextsAndTranslations : Prop := 
  (∀ (c : Ctl) (o : OX) (n : Nat),
  let ctl (i : Instr) (eff : State → State → Prop) : Prop := ∀ s x, Issues i never s x → x.g ≠ 0 → ctlLook s x o = .ok n →
    (ctxValid s n = true → ∃ t, exec i s = .next t ∧ eff s t ∧ (∀ r, o.d = .s r → ∀ u, find t.warps x.k = some u → u.rdS r.val = 0)) ∧
    (ctxValid s n = false → ∃ t, exec i s = .next t ∧ Gets t x o.d false (fun _ => 1) ∧ Leaves s t x (spanKeys (o.d, 1)) 0)
  ctl (.ctxCtlHold c o) (fun s t => dbit (reg t .ctxs n) 2 = true ∧
    ((ctxOf s n).resident = false → (ctxOf s n).stopping = false → dbits (reg t .ctxs n) 0 2 = 3)) ∧
  ctl (.ctxCtlRelease c o) (fun s t => dbit (reg t .ctxs n) 2 = false ∧
    ((ctxOf s n).resident = false → (ctxOf s n).stopping = false → (ctxOf s n).stop = 0 → dbits (reg t .ctxs n) 0 2 = 0)) ∧
  ctl (.ctxCtlKill c o) (fun _ t => (ctxOf t n).resident = false ∧ ∀ k l, find t.launches k = some l → l.ctx = n → l.status ≠ none)) ∧
  (∀ (c : Ctl) (o : OX),
  let drop (s t : State) (x : Iss) (p : Tlb → Bool) : Prop := t.tlb = s.tlb.filter (fun e => !p e) ∧ Leaves s t x [] 0
  (∀ s x n, Issues (.tlbiVa c o) (fun x => tlbiBusy (tlbiCtx x o) x) s x → x.g ≠ 0 → ctlLook s x o = .ok n → ∃ t, exec (.tlbiVa c o) s = .next t ∧
    let p := (x.val64 o.d (lowest x.g)).toNat / 65536
    drop s t x fun e => e.ctx == n && decide (p < e.first + e.pages ∧ e.first ≤ p + o.sel.toNat)) ∧
  (∀ s x n, Issues (.tlbiCtx c o) (fun x => tlbiBusy (tlbiCtx x o) x) s x → x.g ≠ 0 → ctlLook s x o = .ok n → ∃ t, exec (.tlbiCtx c o) s = .next t ∧
    drop s t x fun e => e.ctx == n) ∧
  ∀ s x, Issues (.tlbiTen c o) (tlbiBusy none) s x → x.g ≠ 0 → o.a ≠ .none → (x.val o.a (lowest x.g)).toNat < 192 → ∃ t, exec (.tlbiTen c o) s = .next t ∧
    drop s t x fun e => e.tenant == (x.val o.a (lowest x.g)).toNat)

/-- R359 to R362. `ewt` loads a bank of weights in each cluster it names whose island is not in fallback; `meter` starts a reading of the tenant unless it is disabled or busy; the timers are read, armed and
disarmed. What a firmware core gets there, and which status of `meter` is answered first, are the model's (log 34, log 48). -/
def Obligations.WeightsMetersTimers : Prop := ∀ (c : Ctl) (o : OX) (ctx : Bool),
  (∀ s x l cls, Issues (.ewt c o) (ewtBusy o) s x → x.g ≠ 0 → let ea := x.val64 o.d (lowest x.g)
    ea.toNat % 64 = 0 → imageAt s x ea = .ok l → bankTargets (x.val o.a (lowest x.g)) = some cls →
    let bytes := l.flatMap fun pa => overlay s (x.point s.nextId) pa 64
    let word (j : Nat) : Nat := leNat ((bytes.drop (4 * j)).take 4)
    let frozen (cl : Nat) : Bool := fallback s (islandOfCluster cl)
    (∀ j, 23 ≤ j → j < 32 → word j = 0) →
    ∃ t, exec (.ewt c o) s = .next t ∧
      (∀ cl ∈ cls, frozen cl = false → ∀ j, j < 32 → weightIn t cl (wbits (x.val o.a (lowest x.g)) 8 4) j = word j) ∧
      (∀ cl bank j, (cl ∉ cls ∨ frozen cl = true ∨ bank ≠ wbits (x.val o.a (lowest x.g)) 8 4) → j < 32 → weightIn t cl bank j = weightIn s cl bank j) ∧
      t.stores.map PStore.says = s.stores.map PStore.says ∧ Still s t x [] 0 ∧ Rest s t [.stores]) ∧
  (∀ s x, Issues (.meter c o) never s x → x.g ≠ 0 → x.w.fw = none → (x.val64 o.a (lowest x.g)).toNat % 1024 = 0 →
    xlateAll s x.w.ctx true .write (x.val64 o.a (lowest x.g)) 1024 = .ok () → let ten := ctxTenant s x.w.ctx
    ∃ t, exec (.meter c o) s = .next t ∧ Leaves s t x (spanKeys (o.d, 1)) 0 ∧
      (dbit (reg s .tbud ten) 63 = false → Gets t x o.d false (fun _ => 2)) ∧
      (dbit (reg s .tbud ten) 63 = true → (tenantOf s ten).reading ≠ none → Gets t x o.d false (fun _ => 1)) ∧
      (dbit (reg s .tbud ten) 63 = true → (tenantOf s ten).reading = none → Gets t x o.d false (fun _ => 0) ∧
        ∃ r, (tenantOf t ten).reading = some r ∧ r.ctx = x.w.ctx ∧ r.buf = x.val64 o.a (lowest x.g) ∧ r.t1 % 10000 = 0 ∧
          s.now + 10000 ≤ r.t1 ∧ r.t1 < s.now + 20000)) ∧
  (Does (.tmrRd c ctx o) never fun s x t => (ctx = false ∨ x.w.fw = none →
    Gets t x o.d true fun _ => (if ctx then (ctxOf s x.w.ctx).time else s.now : Nat)) ∧ Leaves s t x (spanKeys (o.d, 2)) 0) ∧
  (Does (.tmrArm c ctx o) never fun s x t => (x.g ≠ 0 → (if ctx then (warpOf t x).ctxd else (warpOf t x).dev) = ⟨x.val64 o.a (lowest x.g), true, false⟩) ∧
    Leaves s t x [] 0) ∧
  Does (.tmrOff c ctx o) never fun s x t => (x.g ≠ 0 → let d := if ctx then (warpOf t x).ctxd else (warpOf t x).dev
    d.armed = false ∧ d.held = false) ∧ Leaves s t x [] 0

/-- R325, R326, R410 to R416, R290. A context leaves its cores in two steps: it stops issuing; once nothing of it is on its way its waiting instructions are
in switch queues. It returns when the ranking chooses it, and finds in its image, if it has one, its registers and their places, its frames, its phase and its
time; a restartable workgroup that gave its tiles back starts again. A slice ends in a ranking by U / SHARE. A context whose watchdog expires is stopped. That
a context leaves only once its instructions wait, and which stores may then still be pending, is log 66; which ends of readiness rank at once is log 15; that a
switch in discards L1 lines is log 16. -/
def Obligations.ScheduleEvents : Prop := ∀ (s : State) (n p : Nat), Inv s → n < 1024 →
  ((ctxOf s n).resident = true → ∃ t, exec (.contextSwitchOut n) s = .next t ∧ (ctxOf t n).resident = false ∧ (ctxOf t n).stopping = true ∧
    dbits (reg t .ctxs n) 0 2 = 2 ∧ RegsBut s t [(.ctxs, n)] ∧ t.mem = s.mem ∧ t.wgs = s.wgs ∧
    ∀ k u, find t.warps k = some u → u.ctx = n → u.fw = none → ∀ j, j < 64 → (laneOf u j).st ≠ .ejected) ∧
  ((ctxOf s n).resident = false → (ctxOf s n).stopping = true → quiet s n = true → ∃ t, exec (.contextSwitchOut n) s = .next t ∧
    (ctxOf t n).resident = false ∧ (ctxOf t n).stopping = false ∧ dbits (reg t .ctxs n) 0 2 = (if dbit (reg s .ctxs n) 2 then 3 else 0) ∧
    ∀ k w, find s.warps k = some w → w.ctx = n → w.fw = none → ∃ u, find t.warps k = some u ∧ u.s = w.s ∧ u.a = w.a ∧
      u.outs = w.outs.filter staysOut ∧ u.swq = (w.outs.filter fun o => !staysOut o).map (parkOut w) ∧
      ∀ j, j < w.lanes.length → (laneOf u j).v = (laneOf w j).v ∧ (laneOf u j).p = (laneOf w j).p ∧ (laneOf u j).flg = (laneOf w j).flg ∧
        (laneOf u j).pc = (laneOf w j).pc ∧ (laneOf u j).st = (laneOf w j).st ∧ (laneOf u j).join = none) ∧
  (canEnter s n = true → ∃ t, exec (.contextSwitchIn n) s = .next t ∧ (ctxOf t n).resident = true ∧ dbits (reg t .ctxs n) 0 2 = 1 ∧
    (imgSize s n = 0 → (∀ e ∈ wgsOf s n, e.2.restart = false) → ∀ k w, find s.warps k = some w → w.ctx = n → w.fw = none →
      find t.warps k = some { w with outs := w.outs ++ w.swq, swq := [] }) ∧
    (imgSize s n ≠ 0 → wgsOf s n ≠ [] → ∀ pa, paOf s n true .read (imgBase s n) = some pa →
      (ctxOf t n).time = memNat s.mem (pa + 8) 8 ∧ (ctxOf t n).wd = if (ctxOf s n).wd = 0 then 0 else memNat s.mem (pa + 16) 8) ∧
    (imgSize s n ≠ 0 → ∀ k g, (k, g) ∈ wgsOf s n → g.restart = false → let b := imgBase s n + g.area
      let field (at' len : Nat) (has : Nat → Prop) : Prop := ∀ pa, paOf s n true .read at' = some pa → has (memNat s.mem pa len)
      (∃ g', find t.wgs k = some g' ∧ field (b + 8) 2 (fun v => g'.phase.toNat = v) ∧ ∀ f, f < g.frames.length →
        field (b + 0x1A010 + 0x9000 * f) 8 fun v => (nth g'.frames f noFrame).rpc.toNat = v) ∧
      ∀ i wk w, (i, wk) ∈ g.warps → find s.warps wk = some w → w.ctx = n → w.fw = none → w.width ≤ 64 → wk < s.nextId →
        (∀ e ∈ wgsOf s n, ∀ v ∈ e.2.warps, v.2 = wk → e.1 = k ∧ v.1 = i) →
        let b := b + warpOffset (recOf s g) i
        ∃ u, find t.warps wk = some u ∧ u.swq = [] ∧ u.outs.map (·.ins) = (w.outs ++ w.swq).map (·.ins) ∧
          (∀ r, r < 64 → field (b + 4 * r) 4 fun v => (u.rdS r).toNat = v) ∧
          (∀ r, r < 32 → field (b + 0x100 + 8 * r) 4 (fun v => (u.rdA r).1.toNat = v) ∧ field (b + 0x104 + 8 * r) 4 fun v => (u.rdA r).2.toNat = v) ∧
          ∀ j, j < w.lanes.length → j < w.width → field (b + 0x200 + 8 * j) 8 (fun v => (laneOf u j).pc.toNat = v) ∧
            field (b + 0x440 + 2 * j) 2 (fun v => (laneOf u j).p.toNat = v % 4096) ∧ field (b + 0x4C0 + 4 * j) 4 (fun v => (laneOf u j).flg.toNat = v % 512) ∧
            field (b + 0x5C0 + 8 * j) 8 (fun v => (laneOf u j).gs.toNat = v) ∧
            ∀ r, r < w.nv → field (b + 0x9400 + 4 * (w.width * r + j)) 4 fun v => ((laneOf u j).rd r).toNat = v) ∧
    ∀ k g, (k, g) ∈ wgsOf s n → g.restart = true → g.tiles = [] → g.accs = [] → (∀ e ∈ s.wgs, ∀ v ∈ e.2.warps, v.2 < s.nextId) → let r := recOf s g
      ∃ g', find t.wgs k = some g' ∧ g'.phase = 0 ∧ g'.recv = g.recv ∧ g'.restart = r.idem ∧ g'.frames = List.replicate 8 noFrame ∧ g'.spawnQ = [] ∧
        g'.tiles.length = r.tiles ∧ g'.accs.length = r.acc ∧ ∀ i role live, (i, role, live) ∈ wgShape r → ∃ wk w, find g'.warps i = some wk ∧
          find t.warps wk = some w ∧ w.role = role ∧ w.lanes.length = r.width ∧
          ∀ j, j < r.width → (laneOf w j).pc = (roleOf r role).entry + 4 ∧ (laneOf w j).st = if j < live then .grouped else .absent) ∧
  ((partOf s p).ranked + 1000 * dbits (reg s .psch p) 0 16 ≤ s.now → fallback s (islandOfPart s p) = false → ∃ t, exec (.sliceBoundary p) s = .next t ∧
    partOf t p = { partOf s p with ranked := s.now, want := (ranking s p).take (dbits (reg s .psch p) 16 2 + 1) } ∧ t.warps = s.warps ∧ Rest s t [] ∧
    (∀ c, c ∈ ranking s p ↔ (∃ e ∈ s.wgs, e.2.ctx = c) ∧ ctxTenant s c = p ∧ readyCtx s c = true) ∧
    ((∀ c ∈ ranking s p, ctxShare s c ≠ 0) → List.Pairwise (fun a b => regN s .cuse a * ctxShare s b < regN s .cuse b * ctxShare s a ∨
      regN s .cuse a * ctxShare s b = regN s .cuse b * ctxShare s a ∧ a < b) (ranking s p))) ∧
  (hangDue s n = true → ∃ t, exec (.sinkWatchdogExpiry n) s = .next t ∧ (ctxOf t n).resident = false ∧ (ctxOf t n).wd = 0 ∧
    (∀ k u, find t.warps k = some u → u.ctx = n → u.fw = none → u.activeSet = 0) ∧
    ∀ k l, find s.launches k = some l → l.ctx = n → ∃ l', find t.launches k = some l' ∧ l'.status = some (l.status.getD 7))

/-- R321, R338 to R341, R345 to R350 (for what falls on one instant: log 25). A period adds each context its inflow, restarts its sums, and settles the debt and budget of each tenant whose island is not in
fallback. A correction interval takes the mailboxes' targets and sets every cluster's caps and effective point; its shares add up to a bounded correction. A move ends at its goal. -/
def Obligations.EnergyIntervals : Prop := ∀ (s : State), Inv s →
  let same (t : State) (ks : List RegKind) : Prop := ∀ k n, k ∉ ks → reg t k n = reg s k n
  (∃ t, exec .periodBoundary s = .next t ∧
    (∀ n, n < 1024 → ctxValid s n = true → reg t .cbal n = BitVec.ofInt 64 (sat64 ((reg s .cbal n).toInt + (dbits (reg s .cinf n) 0 47 : Nat))) ∧
      reg t .cuse n = 0 ∧ reg t .ccor n = 0) ∧
    (∀ n, n < 192 → fallback s (islandOfPart s n) = false → let owed := min (2 ^ 47 - 1) (dbits (reg s .tdebt n) 0 47 + (regN s .tuse n - (tenantOf s n).avail))
      let budget := dbits (reg s .tbud n) 0 47
      let repay := min owed (budget / 4)
      reg t .tuse n = 0 ∧ regN t .tdebt n = owed - repay ∧ (tenantOf t n).avail = budget - repay ∧ (tenantOf t n).ceil = budget - repay) ∧
    same t [.cbal, .cuse, .ccor, .tuse, .tdebt] ∧ t.mem = s.mem ∧ t.warps = s.warps ∧ t.wgs = s.wgs ∧ t.cores = s.cores ∧ t.queues = s.queues) ∧
  (∃ t, exec .correctionInterval s = .next t ∧
    (∀ n, n < 192 → fallback s (islandOfPart s n) = false → dbits (reg t .opmb n) 4 4 = dbits (reg s .opmb n) 0 4) ∧
    (∀ c, c < 192 → let r := reg t .clst c
      let goal := match partOfCluster s c with
        | some p => dbits (reg t .opmb p) 4 4
        | none => 0
      dbits r 16 4 = min (min (dbits r 8 4) (dbits r 4 4)) (min (if dbit r 20 then 9 else 12) goal) ∧ dbit r 20 = (if fallback s (islandOfCluster c) then dbit (reg s .clst c) 20 else heavyNow (clusterOf s c)) ∧
      dbits r 12 4 = opNow s c ∧
      dbits r 4 4 = (let i := islandOf s (islandOfCluster c)
        if i.hot then topOp s (islandOfCluster c) - 1
        else if i.high then dbits (reg s .clst ((clustersOfIsland (islandOfCluster c)).headD 0)) 4 4
        else min 15 (dbits (reg s .clst ((clustersOfIsland (islandOfCluster c)).headD 0)) 4 4 + 1)) ∧
      (devState s ≠ 3 → dbits r 22 10 < 368 → dbits r 8 4 = min 15 (dbits (reg s .clst c) 8 4 + 1)) ∧
      (devState s ≠ 3 → 368 ≤ dbits r 22 10 → dbits r 22 10 < 380 → dbits r 8 4 = dbits (reg s .clst c) 8 4) ∧
      (devState s ≠ 3 → 380 ≤ dbits r 22 10 → dbits r 8 4 = opNow s c - 1) ∧ (devState s = 3 → dbits r 8 4 = 0) ∧
      ((clusterOf s c).move = none → dbits r 16 4 ≠ opNow s c → (clusterOf t c).move = some ⟨dbits r 16 4, s.now + 40 *
        (max (opMilliVolt (opNow s c)) (opMilliVolt (dbits r 16 4)) - min (opMilliVolt (opNow s c)) (opMilliVolt (dbits r 16 4)))⟩) ∧
      ((clusterOf s c).move = none → dbits r 16 4 = opNow s c → (clusterOf t c).move = none) ∧
      (∀ m, (clusterOf s c).move = some m → (clusterOf t c).move = some m)) ∧
    same t [.clst, .opmb, .cbal, .cuse, .tuse, .ccor] ∧ t.mem = s.mem ∧ t.warps = s.warps ∧ t.wgs = s.wgs ∧ t.cores = s.cores ∧ t.queues = s.queues) ∧
  (∀ ec em w22, let d := (correction ec em w22).1
    d.natAbs ≤ max ec w22 / 4 ∧
    (((em : Int) - ec).natAbs ≤ max ec w22 / 4 → d = em - ec)) ∧
  (∀ (l : SMap Nat) (d : Int), rising l = true → l ≠ [] → (∀ e ∈ l, e.2 ≠ 0) → ((shares l ((l.map (·.2)).foldl (· + ·) 0) d).map (·.2)).foldl (· + ·) 0 = d) ∧
  (∀ c m, c < 192 → (clusterOf s c).move = some m → m.due ≤ s.now → m.goal < 16 → ∃ t, exec (.opMoveComplete c) s = .next t ∧ opNow t c = m.goal ∧
    (dbits (reg s .clst c) 16 4 = m.goal → (clusterOf t c).move = none) ∧
    (dbits (reg s .clst c) 16 4 ≠ m.goal → ∃ m', (clusterOf t c).move = some m' ∧ m'.goal = dbits (reg s .clst c) 16 4) ∧
    same t [.clst, .opmb] ∧ t.warps = s.warps ∧ Beside s t ∧ ∀ c', c' ≠ c → clusterOf t c' = clusterOf s c')

/-- R25, R352 to R355. Current samples and the throttle they decide; the rounds of rack capping, in which a demand counts for its own round only; the
record of a meter reading. The moment of a round's message and the order of what falls on one instant are the model's (log 9, log 25), and what a sample measures
is free (log 2). -/
def Obligations.SamplesCapsAndRecords : Prop := ∀ (s : State), Inv s →
  let same (t : State) (ks : List RegKind) : Prop := ∀ k n, k ∉ ks → reg t k n = reg s k n
  (∃ t, exec .imeasSample s = .next t ∧ ∀ i, i < 6 → let cur := dbits (reg t .imeas i) 0 16
    let cap := dbits (reg s .ilim i) 16 11
    dbits (reg t .imeas i) 16 16 = (dbits (reg s .imeas i) 16 16 + 1) % 65536 ∧ (∀ c, c ∈ clustersOfIsland i →
      (cur ≤ 16 * cap → dbit (reg t .clst c) 3 = false) ∧ (16 * cap < cur → 16 * cap < dbits (reg s .imeas i) 0 16 → dbit (reg t .clst c) 3 = true)) ∧
    (islandOf t i).hot = ((islandOf s i).hot || decide (16 * cap < cur)) ∧ (islandOf t i).high = ((islandOf s i).high || decide (14 * cap < cur)) ∧
    (∀ c, reg t .clst c &&& ~~~8 = reg s .clst c &&& ~~~8) ∧ same t [.imeas, .clst] ∧ t.warps = s.warps ∧ Beside s t) ∧
  (capGroup s ≠ 0 → canBroadcast s = true → ∃ t, exec .rackCapBroadcast s = .next t ∧ t.demands = put s.demands (ownPeer s) (roundNo s, regN s .pdem 0) ∧
    t.hw = s.hw ∧ t.mem = s.mem ∧ t.warps = s.warps ∧
    ∀ p ∈ s.flash.members, p ≠ ownPeer s → ∃ f ∈ findD t.fabric.tx p [], f.ty = 9 ∧ f.payload.take 28 = capMessage s) ∧
  (∃ t, exec .rackCapCompute s = .next t ∧ same t [.pcap, .ilim] ∧ t.warps = s.warps ∧ Beside s t ∧ dbits (reg t .pcap 0) 16 14 = s.now / 1000000 % 2 ^ 14 ∧
    (∀ i, i < 6 → dbits (reg t .ilim i) 16 11 = max 1 (min (dbits (reg s .ilim i) 0 11)
      ((dbits (reg t .pcap 0) 0 16 - Config.freeOther (s.now / 1000000)) * 1000 / (6 * opMilliVolt (topOp s i)))) % 2048) ∧
    (capGroup s = 0 → dbits (reg t .pcap 0) 0 16 = 5000 ∧ dbit (reg t .pcap 0) 31 = false ∧ dbit (reg t .pcap 0) 30 = false) ∧
    (capGroup s ≠ 0 → (demandOf s (ownPeer s) = none ∨ ∃ p ∈ s.flash.members, demandOf s p = none) →
      dbits (reg t .pcap 0) 0 16 = dbits (reg s .rcfg 0) 16 16 ∧ dbit (reg t .pcap 0) 31 = true ∧ dbit (reg t .pcap 0) 30 = false) ∧
    (capGroup s ≠ 0 → demandOf s (ownPeer s) ≠ none → (∀ p ∈ s.flash.members, demandOf s p ≠ none) →
      let ms := sortBy (fun a b => decide (a ≤ b)) (dedup (ownPeer s :: s.flash.members))
      let r := divideCap (ms.map fun p => (p, (demandOf s p).getD 0)) (dbits (reg s .rcfg 0) 16 16) (regN s .rack 0) (ownPeer s)
      dbits (reg t .pcap 0) 0 16 = r.1 % 65536 ∧ dbit (reg t .pcap 0) 31 = false ∧ dbit (reg t .pcap 0) 30 = r.2)) ∧
  (∀ n r, n < 192 → (tenantOf s n).reading = some r → r.t1 ≤ s.now →
    (r.snap = [] → ∃ t, exec (.meterRecordWrite n) s = .next t ∧
      (tenantOf t n).reading = some { r with snap := readingBytes s n (tenantOf s n) r.t1 } ∧ (tenantOf t n).seq = (tenantOf s n).seq + 1 ∧
      (tenantOf t n).t0 = r.t1 ∧ (tenantOf t n).drops = [] ∧ (tenantOf t n).corr = 0 ∧ (tenantOf t n).clamps = 0 ∧ (tenantOf t n).ctxs = [] ∧ Rest s t []) ∧
    (∀ pa, r.snap.length = 512 → (∀ u : State, Rest s u [.mem, .cores] → u.tlb = s.tlb → (∀ a, ¬(pa ≤ a ∧ a < pa + 1024) → memGet u.mem a = memGet s.mem a) →
        ∀ i, i < 1024 → paOf u r.ctx true .write (r.buf.toNat + i) = some (pa + i)) →
      ∃ t, exec (.meterRecordWrite n) s = .next t ∧ (tenantOf t n).reading = none ∧
        memBytes t.mem pa 896 = r.snap ++ (List.range 384).map (Config.sign r.snap) ∧ memNat t.mem (pa + 896) 8 = (tenantOf s n).seq % 2 ^ 64 ∧
        ∀ a, ¬(pa ≤ a ∧ a < pa + 904) → memGet t.mem a = memGet s.mem a))

/-- R88, R309 to R314. The command processor observes WR, and starts the packet that its island serves next: RD moves past it, and WRSIG, WAIT, LAUNCH and
an invalid KIND have their effects; a header that no longer translates stops the queue at its next packet (log 70). A WAIT loads again after 2 µs. Which
bytes of a record a LAUNCH has read is log 59. -/
def Obligations.Packets : Prop := ∀ (s : State) (isl slot : Nat) (q : Queue), let key := 64 * isl + slot
  let same (u t : State) : Prop := t.warps = u.warps ∧ t.wgs = u.wgs ∧ t.ctxs = u.ctxs ∧ ∀ k n, k ≠ .cbal → k ≠ .cuse → k ≠ .tuse → reg t k n = reg u k n
  let calm (u t : State) : Prop := same u t ∧ t.warps = u.warps ∧ t.cores = u.cores ∧ t.mem = u.mem
  let u := run (startPacket isl key q) s
  (∀ pa, find s.queues key = some q → q.stopped = false → devPa s q.ctx .rmw q.hdr.toNat = .ok pa → let wr := memNat s.mem (pa + 16) 8
    (wr ≠ q.wr → q.rd ≤ wr → wr ≤ q.rd + 2 ^ q.logn → ∃ t, exec (.queueWrChange isl slot) s = .next t ∧
      find t.queues key = some { q with wr := wr, recs := recordsFrom s q wr } ∧
      (∀ k, k ≠ key → find t.queues k = find s.queues k) ∧ calm s t) ∧
    (wr ≠ q.wr → (wr < q.rd ∨ q.rd + 2 ^ q.logn < wr) → ∃ t, exec (.queueWrChange isl slot) s = .next t ∧
      find t.queues key = some { q with stopped := true, wait := none, depth := [], recs := [] })) ∧
  (∀ ea x, find s.queues key = some q → q.stopped = false → devPa s q.ctx .rmw q.hdr.toNat = .error (ea, x) → ∃ t, exec (.queueWrChange isl slot) s = .next t ∧
    find t.queues key = some { q with stopped := true, wait := none, depth := [], recs := [] } ∧ (∀ k, k ≠ key → find t.queues k = find s.queues k)) ∧
  (∀ h ea x, served s isl slot = some (key, q, h) → h = .header ea x ∨ h = .fault ea x → ∃ t, exec (.invalidKindPacket isl slot) s = .next t ∧
    find t.queues key = some { q with stopped := true, wait := none, depth := [], recs := [], held := none } ∧ t.warps = s.warps ∧ t.wgs = s.wgs) ∧
  (∀ k, served s isl slot = some (key, q, .pkt k) →
    (find u.queues key = some { q with rd := q.rd + 1, depth := del q.depth q.rd, recs := del q.recs q.rd, held := none } ∧ same s u ∧ u.launches = s.launches ∧
      ∀ h, q.hdr.toNat % 64 = 0 → paOf s q.ctx true .write (q.hdr.toNat + 24) = some h →
        memNat u.mem h 8 = (q.rd + 1) % 2 ^ 64 ∧ ∀ a, ¬(h ≤ a ∧ a < h + 8) → memGet u.mem a = memGet s.mem a) ∧
    (∀ pa pg, k.kind = 2 → plainBad k 0x28 = false → k.fld 8 8 % 8 = 0 → k.fld 0x18 8 % 8 = 0 → devPa u q.ctx .write (k.fld 8 8) = .ok pa →
      devPa u q.ctx .rmw (k.fld 0x18 8) = .ok pg → ∃ t, exec (.wrsig isl slot) s = .next t ∧ same u t ∧ t.queues = u.queues ∧
        let m := (run (poke pa (le 8 (k.fld 0x10 8))) u).mem
        ∀ a, memGet t.mem a = if pg ≤ a ∧ a < pg + 8 then nth (le 8 ((memNat m pg 8 + k.fld 0x20 8) % 2 ^ 64)) (a - pg) 0
          else if pa ≤ a ∧ a < pa + 8 then nth (le 8 (k.fld 0x10 8)) (a - pa) 0 else memGet u.mem a) ∧
    (∀ pa, k.kind = 3 → plainBad k 0x18 = false → k.fld 8 8 % 8 = 0 → devPa u q.ctx .read (k.fld 8 8) = .ok pa → ∃ t, exec (.wait isl slot) s = .next t ∧
      calm u t ∧ (k.fld 0x10 8 ≤ memNat u.mem pa 8 → ∀ n, find t.queues n = find u.queues n) ∧
      (memNat u.mem pa 8 < k.fld 0x10 8 → find t.queues key =
        some { q with rd := q.rd + 1, depth := del q.depth q.rd, recs := del q.recs q.rd, held := none, wait := some (dw (k.fld 8 8), dw (k.fld 0x10 8), s.now) })) ∧
    (k.kind = 1 → let depth : Nat := ((find q.depth q.rd).map (·.1)).getD 0
      let place := launchCheck u u.tick q k depth
      let n := (run (devWalk q.ctx .read [k.fld 8 8]) u).nextId
      let v := run (match place with
        | .error e => if e.read then cpCharge q.ctx 4 else skip
        | .ok _ => cpCharge q.ctx 4) u
      (∀ e, place = .error e → find q.depth q.rd = none → ∃ t, exec (.launch isl slot) s = .next t ∧ t.launches = s.launches ∧
        ∀ h, paOf v q.ctx true .write (k.fld 0x10 8) = some h → k.fld 0x10 8 ≠ 0 → k.fld 0x10 8 % 16 = 0 →
          memBytes t.mem h 16 = le 4 e.status ++ le 4 0 ++ le 8 s.now ∧ ∀ a, ¬(h ≤ a ∧ a < h + 16) → memGet t.mem a = memGet u.mem a) ∧
      (∀ pl, place = .ok pl → ∃ t l, exec (.launch isl slot) s = .next t ∧ find t.launches n = some l ∧
        (∀ m, m ≠ n → find t.launches m = find s.launches m) ∧ l.ctx = q.ctx ∧ l.lr = pl.lr ∧ l.addr = dw (k.fld 8 8) ∧ l.w = pl.w ∧ l.h = pl.h ∧
        l.compl = dw (k.fld 0x10 8) ∧ l.released = [] ∧ l.ended = [] ∧ l.status = none ∧ l.depth = depth ∧ l.slot = key ∧ l.hdr = q.hdr ∧ calm u t ∧
        (pl.place = false → let r := partRect s (queueTenant s q)
          l.x0 = 2 * r.1 + pl.x0 ∧ l.y0 = 2 * r.2.1 + pl.y0) ∧
        (pl.place = true → (l.x0, l.y0) = chooseOrigin u (queueTenant s q) pl.w pl.h pl.lr))) ∧
    (k.kind ≠ 1 → k.kind ≠ 2 → k.kind ≠ 3 → ∃ t, exec (.invalidKindPacket isl slot) s = .next t ∧
      find t.queues key = some { q with rd := q.rd + 1, stopped := true, wait := none, depth := [], recs := [], held := none } ∧ t.warps = s.warps ∧ t.wgs = s.wgs)) ∧
  ∀ pa a v at', find s.queues key = some q → q.wait = some (a, v, at') → at' + 2000 ≤ s.now → devPa s q.ctx .read a.toNat = .ok pa →
    ∃ t, exec (.waitReload isl slot) s = .next t ∧ calm s t ∧
      find t.queues key = some { q with wait := if v.toNat ≤ memNat s.mem pa 8 then none else some (a, v, s.now) }

/-- R41, R44, R287, R314, R316, R318, R319. A core with room takes its workgroup; a launch that is done leaves its completion record; `QMAP` and the
host's MAPQ start a queue-map request, which maps or unmaps a queue and reports its result; the order in which the results are asked for is the model's
(log 40). -/
def Obligations.LaunchesAndMapping : Prop := ∀ (s : State),
  (∀ lk core l area, find s.launches lk = some l → l.status = none → (ctxOf s l.ctx).stop = 0 → core ∉ l.released → core ∈ rectCores l → l.lr.cor = false →
    canTake s core l.lr = true → findArea s l.ctx (areaSize l.lr) = some area →
    ∃ t g, exec (.workgroupRelease lk core) s = .next t ∧ find t.wgs s.nextId = some g ∧ g.launch = lk ∧ g.ctx = l.ctx ∧ g.core = core ∧ g.area = area ∧
      g.phase = 0 ∧ g.restart = l.lr.idem ∧ g.tiles.length = l.lr.tiles ∧ g.accs.length = l.lr.acc ∧ g.frames = List.replicate 8 noFrame ∧
      (∀ i role live, (i, role, live) ∈ wgShape l.lr → ∃ k w, find g.warps i = some k ∧ find t.warps k = some w ∧ w.wg = s.nextId ∧ w.index = i ∧
        w.role = role ∧ w.core = core ∧ w.ctx = l.ctx ∧ w.level = 0 ∧ w.lanes.length = l.lr.width ∧
        ∀ j, j < l.lr.width → (laneOf w j).pc = (roleOf l.lr role).entry + 4 ∧ (laneOf w j).st = if j < live then .grouped else .absent) ∧
      (∃ l', find t.launches lk = some l' ∧ l'.released = l.released ++ [core]) ∧ ∀ k, k < s.nextId → find t.warps k = find s.warps k) ∧
  (∀ lk core l, find s.launches lk = some l → l.lr.cor = true → ∃ t, exec (.workgroupRelease lk core) s = .next t ∧
    (t = s ∨ ∃ l', find t.launches lk = some l' ∧ l'.released.length = l'.w * l'.h)) ∧
  (∀ lk l, find s.launches lk = some l → launchDone s lk l = true → ∃ t, exec (.launchComplete lk) s = .next t ∧ find t.launches lk = none ∧
    t.warps = s.warps ∧ t.wgs = s.wgs ∧
    ∀ h, l.compl ≠ 0 → l.compl.toNat % 16 = 0 → paOf s l.ctx true .write l.compl.toNat = some h →
      memBytes t.mem h 16 = le 4 (l.status.getD 0) ++ le 4 (b2n l.childErr) ++ le 8 s.now ∧ ∀ a, ¬(h ≤ a ∧ a < h + 16) → memGet t.mem a = memGet s.mem a) ∧
  (∀ n v, n < 192 → let map (i : Instr) (op : Nat) : Prop :=
      (dbit (reg s .qstat n) 31 = true → exec i s = .next s) ∧
      (dbit (reg s .qstat n) 31 = false → ∃ t, exec i s = .next t ∧ dbit (reg t .qstat n) 31 = true ∧ RegsBut s t [(.qmap, n), (.qstat, n)] ∧ Beside s t ∧
        (tenantOf t n).map = some ⟨op == 2, dbits v 52 10, dw (dbits v 6 46 * 64), op == 3 || ctxTenant s (dbits v 52 10) != n, none⟩)
    map (.qmapMap n v) 1 ∧ map (.qmapUnmap n v) 2 ∧ map (.qmapBadOp n v) 3) ∧
  (∀ n r, n < 192 → (tenantOf s n).map = some r → let ten := ctxTenant s r.ctx
    let isl := islandOfPart s ten
    let bad : Prop := r.bad = true ∨ ctxValid s r.ctx = false ∨ partValid s ten = false
    let old (e : Nat × Queue) : Prop := e ∈ s.queues ∧ e.1 / 64 = isl ∧ e.2.ctx = r.ctx ∧ e.2.hdr = r.hdr
    let here : Prop := ∃ e, old e
    let ends (result : Nat) (eff : State → Prop) : Prop := ∃ t, exec (.qmapComplete n) s = .next t ∧ dbits (reg t .qstat n) 16 8 = result ∧ eff t ∧
      ((tenantOf s n).waiting = [] → dbit (reg t .qstat n) 31 = false ∧ (tenantOf t n).map = none) ∧
      (∀ m l, (tenantOf s n).waiting = m :: l → dbit (reg t .qstat n) 31 = true ∧ (tenantOf t n).map = some m ∧ (tenantOf t n).waiting = l) ∧
      t.mem = s.mem ∧ t.warps = s.warps
    let same (t : State) : Prop := t.queues = s.queues ∧ t.launches = s.launches
    (bad → ends 2 same) ∧ (¬bad → r.unmap = true → ¬here → ends 5 same) ∧ (¬bad → r.unmap = false → here → ends 6 same) ∧
    (¬bad → r.unmap = true → rising s.launches = true → ∀ key q, old (key, q) → (∀ e, old e → e.1 = key) → ends 0 fun t => find t.queues key = none ∧
      (∀ k, k ≠ key → find t.queues k = find s.queues k) ∧ ∀ lk l, find s.launches lk = some l → ∃ l', find t.launches lk = some l' ∧
        l'.status = if l.slot = key ∧ l.released = [] ∧ l.status = none then some 11 else l.status) ∧
    (¬bad → r.unmap = false → ¬here → (∀ e, devPa s r.ctx .rmw r.hdr.toNat = .error e → ends 4 same) ∧
      ∀ pa, devPa s r.ctx .rmw r.hdr.toNat = .ok pa → let ctl := memNat s.mem (pa + 8) 4
        let ring := memNat s.mem pa 8
        let good : Prop := ctl / 2 ^ 26 = 0 ∧ ctl / 32 % 2 ^ 11 = 0 ∧ 1 ≤ ctl % 16 ∧ ctl % 16 ≤ 12 ∧ ring % 64 = 0 ∧ memNat s.mem (pa + 12) 4 = 0 ∧
          (∀ i, 32 ≤ i → i < 64 → memGet s.mem (pa + i) = 0) ∧ ctl / 2 ^ 16 % 2 ^ 10 = r.ctx
        let readable : Prop := xlateAll s r.ctx true .read (dw ring) (64 * 2 ^ (ctl % 16)) = .ok ()
        (¬good → ends 3 same) ∧ (good → ¬readable → ends 4 same) ∧
        (good → readable → (∀ k, k < 64 → find s.queues (64 * isl + k) ≠ none) → ends 1 same) ∧
        ∀ k, good → readable → k < 64 → find s.queues (64 * isl + k) = none → (∀ j, j < k → find s.queues (64 * isl + j) ≠ none) → ends 0 fun t =>
          dbits (reg t .qstat n) 0 6 = k ∧ (∀ j, j ≠ 64 * isl + k → find t.queues j = find s.queues j) ∧ t.launches = s.launches ∧
          ∃ q, find t.queues (64 * isl + k) = some q ∧ q.hdr = r.hdr ∧ q.ring = dw ring ∧ q.logn = ctl % 16 ∧ q.dev = (ctl / 16 % 2 == 1) ∧ q.ctx = r.ctx ∧
            q.wr = memNat s.mem (pa + 24) 8 ∧ q.rd = memNat s.mem (pa + 24) 8 ∧ q.stopped = false ∧ q.wait = none)) ∧
  ∀ (q : KReq), s.link.lanes ≠ 0 → outstanding s.link < 64 → s.link.pending.any KPend.holds = false → reqKind q.op = some .mapq → devState s = 1 → extraFields q true true = false → q.len = 0 → q.arg0.toNat / 2 ^ 17 = 0 →
    wbits q.arg0 10 6 = 0 → let ctx := wbits q.arg0 0 10
    let r : MapReq := ⟨wbits q.arg0 16 1 == 1, ctx, q.arg1, q.arg1.toNat % 64 != 0, some s.nextId⟩
    ∃ t, exec (.mapq q) s = .next t ∧ t.link.pending = s.link.pending ++ [⟨s.nextId, q.op, q.tag, none, none, none⟩] ∧ t.warps = s.warps ∧ Beside s t ∧
      ((tenantOf s (ctxTenant s ctx)).map = none → (tenantOf t (ctxTenant s ctx)).map = some r ∧ dbit (reg t .qstat (ctxTenant s ctx)) 31 = true) ∧
      ((tenantOf s (ctxTenant s ctx)).map ≠ none → (tenantOf t (ctxTenant s ctx)).waiting = (tenantOf s (ctxTenant s ctx)).waiting ++ [r] ∧ t.hw = s.hw)

/-- R4. A write sets the fields its level may write, clears the write-one-to-clear bits that it writes 1, and leaves every other bit; below the level of
one of its fields it does nothing, and none comes while the islands are not up (log 72). R24, R324, R344, R345, R353, R365, R378, R381, R392, R393. The registers that check what is written to them: a value that fails its rule is
discarded and sets the error bit, another takes effect. -/
def Obligations.RegisterWrites : Prop := 
  (∀ (s : State) (k : RegKind) (n : Nat) (v : DWord), Inv s → n < kindCount k →
  (∀ lv, powered s = false ∨ lv = Priv.program ∨ fwMask k n ≠ 0 ∧ lv ≠ Priv.firmware → exec (.registerWrite k n v lv) s = .next s) ∧
  (∀ lv, powered s = true → (lv = Priv.firmware ∨ lv = Priv.supervisor ∧ fwMask k n = 0) →
    k ∉ [.cinf, .ohtr, .tbud, .pcfg, .opmb, .ilim, .ctxt, .cwin, .cimg, .ctxd, .evrb, .qmap, .psch, .part, .peere, .fseg, .otxm, .orxm, .ostr] →
    ∃ t, exec (.registerWrite k n v lv) s = .next t ∧ (∀ b, b < 64 → dbit (reg t k n) b =
      if dbit (rwMask k ||| fwMask k n) b then dbit v b else dbit (reg s k n) b && !(dbit (w1cMask k n) b && dbit v b)) ∧
      (∀ k' n', n' < kindCount k' → (k', n') ≠ (k, n) → reg t k' n' = reg s k' n') ∧ t.warps = s.warps ∧ Beside s t)) ∧
  (∀ (s : State) (n : Nat) (v : DWord), Inv s → powered s = true →
    (n < 1024 → (fallback s (islandOfPart s (ctxTenant s n)) = true → exec (.registerWrite .cinf n v .firmware) s = .next s) ∧
      (fallback s (islandOfPart s (ctxTenant s n)) = false → ∃ t, exec (.registerWrite .cinf n v .firmware) s = .next t ∧ reg t .cinf n = v &&& 0x7FFFFFFFFFFF ∧
        RegsBut s t [(.cinf, n)] ∧ t.warps = s.warps ∧ Beside s t)) ∧
    (n < 4096 → ∃ t, exec (.registerWrite .ohtr n v .firmware) s = .next t ∧ dbits (reg t .ohtr n) 0 12 = dbits v 0 12 ∧ RegsBut s t [(.ohtr, n)] ∧
      t.fabric = { s.fabric with heat := put s.fabric.heat n (dbits (reg s .ohtr n) 0 12, s.now) } ∧ t.warps = s.warps ∧ Rest { s with hw := t.hw } t [.fabric])) ∧
  (∀ (s : State) (n : Nat) (v : Word), Inv s →
  let bits (lo k : Nat) : Nat := wbits v lo k
  let only (t : State) (ks : List (RegKind × Nat)) : Prop :=
    (∀ k i, i < kindCount k → (k, i) ∉ ks → reg t k i = reg s k i) ∧ t.warps = s.warps ∧ t.mem = s.mem ∧ t.cores = s.cores ∧ t.wgs = s.wgs
  let least (t : State) (ks : List (RegKind × Nat)) : Prop :=
    (∀ k i, i < kindCount k → (k, i) ∉ ks → reg t k i = reg s k i) ∧ t.warps = s.warps ∧ t.mem = s.mem ∧ t.wgs = s.wgs
  let err (i : Instr) (k : RegKind) (n b : Nat) : Prop := ∃ t, exec i s = .next t ∧ reg t k n = dset (reg s k n) b 1 1 ∧ only t [(k, n)] ∧
    t.queues = s.queues ∧ t.tlb = s.tlb
  (∀ j d, n < 256 → j < 8 → find s.fabric.waking (8 * n + j) = some d → ∃ t, exec (.laserLock n j) s = .next t ∧ only t [(.ostr, n)] ∧
    reg t .ostr n = dset (reg s .ostr n) (16 + j) 1 1 ∧ find t.fabric.waking (8 * n + j) = none ∧
    ∀ m, m ≠ 8 * n + j → find t.fabric.waking m = find s.fabric.waking m) ∧
  (powered s = false → ∀ w, ∀ i ∈ [Instr.ctxdWrite n v, .pschWrite n v, .pcfgWrite n v, .opmbWrite n v, .ilimWrite n v, .partWrite n v, .fsegWrite n w v, .peereWrite n v,
    .otxmWrite n v, .ostrWrite n v], exec i s = .next s) ∧
  (powered s = true →
  (n < 1024 → let frozen := ctxValid s n && fallback s (islandOfPart s (ctxTenant s n))
    let share := if frozen then ctxShare s n else bits 16 8
    ((share = 0 ∨ 191 < bits 8 8) → err (.ctxdWrite n v) .ctxd n 0) ∧
    (share ≠ 0 → bits 8 8 ≤ 191 → ∃ t, exec (.ctxdWrite n v) s = .next t ∧ least t [(.ctxd, n)] ∧ ctxValid t n = v.getLsbD 31 ∧
      ctxClass t n = (if frozen then ctxClass s n else bits 24 2) ∧ ctxShare t n = share ∧ ctxTenant t n = bits 8 8 ∧ ctxSup t n = v.getLsbD 1 ∧
      (v.getLsbD 31 = true → bits 8 8 = ctxTenant s n → t.cores = s.cores ∧ t.walks = s.walks) ∧
      ((v.getLsbD 31 = false ∨ bits 8 8 ≠ ctxTenant s n) → (∀ c, ∀ l ∈ (coreOf t c).l1, l.ctx ≠ n) ∧ (∀ c p, (tileOf (coreOf t c) p).last ≠ some n) ∧
        t.walks = s.walks.filter fun w => w.ctx != n) ∧
      (v.getLsbD 31 = true → t.queues = s.queues ∧ t.tlb = s.tlb ∧ (ctxValid s n = false → (ctxOf t n).time = 0)) ∧
      (v.getLsbD 31 = false → (∀ k q, find t.queues k = some q → q.ctx ≠ n) ∧ t.tlb = s.tlb.filter fun e => e.ctx != n))) ∧
  (n < 192 → (bits 0 16 = 0 ∨ fallback s (islandOfPart s n) = true → exec (.pschWrite n v) s = .next s) ∧
    (bits 0 16 ≠ 0 → fallback s (islandOfPart s n) = false → ∃ t, exec (.pschWrite n v) s = .next t ∧ reg t .psch n = zx64 v &&& 0x3FFFF ∧ only t [(.psch, n)])) ∧
  (n < 192 → ((bits 4 4 < bits 0 4 ∨ ctxValid s (bits 16 10) = false) → err (.pcfgWrite n v) .pcfg n 31) ∧
    (bits 0 4 ≤ bits 4 4 → ctxValid s (bits 16 10) = true → ∃ t, exec (.pcfgWrite n v) s = .next t ∧ only t [(.pcfg, n), (.opmb, n)] ∧
      dbits (reg t .pcfg n) 0 8 = bits 0 8 ∧ ownerOf t n = bits 16 10 ∧
      dbits (reg t .opmb n) 0 4 = max (bits 0 4) (min (bits 4 4) (dbits (reg s .opmb n) 0 4)))) ∧
  (n < 192 → ∃ t, exec (.opmbWrite n v) s = .next t ∧ only t [(.opmb, n)] ∧ (let u := max (dbits (reg s .pcfg n) 0 4) (min (dbits (reg s .pcfg n) 4 4) (bits 0 4))
    dbits (reg t .opmb n) 0 4 = u ∧ dbit (reg t .opmb n) 31 = (decide (u ≠ bits 0 4) || dbit (reg s .opmb n) 31 && !v.getLsbD 31))) ∧
  (n < 6 → ((bits 0 11 = 0 ∨ 1100 < bits 0 11) → err (.ilimWrite n v) .ilim n 31) ∧
    (bits 0 11 ≠ 0 → bits 0 11 ≤ 1100 → ∃ t, exec (.ilimWrite n v) s = .next t ∧ only t [(.ilim, n)] ∧ dbits (reg t .ilim n) 0 11 = bits 0 11 ∧
      dbits (reg t .ilim n) 16 11 = max 1 (min (bits 0 11)
        ((dbits (reg s .pcap 0) 0 16 - Config.freeOther (s.now / 1000000)) * 1000 / (6 * opMilliVolt (topOp s n)))))) ∧
  (n < 192 → let box (w : Nat) : Nat × Nat × Nat × Nat := (nbits w 0 5, nbits w 8 3, nbits w 16 5 + 1, nbits w 24 3 + 1)
    let apart (a b : Nat × Nat × Nat × Nat) : Prop :=
      a.1 + a.2.2.1 ≤ b.1 ∨ b.1 + b.2.2.1 ≤ a.1 ∨ a.2.1 + a.2.2.2 ≤ b.2.1 ∨ b.2.1 + b.2.2.2 ≤ a.2.1
    let fits : Prop := v.getLsbD 31 = false ∨ (box v.toNat).1 + (box v.toNat).2.2.1 ≤ 24 ∧ (box v.toNat).2.1 + (box v.toNat).2.2.2 ≤ 8 ∧
      ∀ p, p < 192 → p ≠ n → partValid s p = true → apart (box v.toNat) (partRect s p)
    let kept : Prop := v &&& 0x871F071F = (reg s .part n).setWidth 32 &&& 0x871F071F ∨ ∀ c, c < 1024 → ctxValid s c = true → ctxTenant s c ≠ n
    (fits → kept → ∃ t, exec (.partWrite n v) s = .next t ∧ only t [(.part, n), (.opmb, n)] ∧ (∀ b, b ≠ 12 → b ≠ 13 → dbit (reg t .opmb n) b = dbit (reg s .opmb n) b) ∧ partValid t n = v.getLsbD 31 ∧ partRect t n = box v.toNat) ∧
    (¬(fits ∧ kept) → err (.partWrite n v) .part n 30)) ∧
  (∀ w, n < 256 → w < 8 → let word (i : Nat) : Nat := regN s .fseg (8 * n + i)
    let bad : Prop := w = 0 ∧ v.getLsbD 31 = true ∧ (v.getLsbD 29 = true ∧ ctxValid s (word 1 % 1024) = false ∨
      v.getLsbD 29 = false ∧ (word 4 = 0 ∨ 0x9000000000 < word 2 + 2 ^ 32 * word 3 + 65536 * word 4))
    (bad → err (.fsegWrite n w v) .fseg (8 * n + w) 30) ∧
    (¬bad → ∃ t, exec (.fsegWrite n w v) s = .next t ∧ only t [(.fseg, 8 * n + w)] ∧ (w ≠ 0 → reg t .fseg (8 * n + w) = zx64 v &&& regMask .fseg w) ∧
      (w = 0 → reg t .fseg (8 * n) &&& 0xBCFFF0FF = zx64 v &&& 0xBCFFF0FF ∧
        dbit (reg t .fseg (8 * n)) 30 = (dbit (reg s .fseg (8 * n)) 30 && !v.getLsbD 30)))) ∧
  (n < 32 → ∃ t, exec (.peereWrite n v) s = .next t ∧ only t [(.peere, n)] ∧ ∀ b, b < 32 →
    dbit (reg t .peere n) b = (v.getLsbD b && dbit (reg s .peerp n) b || decide (regN s .peerid 0 = 32 * n + b))) ∧
  (n < 256 → let perm : Prop := ∀ c, c < 8 → ∃ i, i < 8 ∧ bits (3 * i) 3 = c
    (¬perm → err (.otxmWrite n v) .otxm n 31) ∧
    (perm → ∃ t, exec (.otxmWrite n v) s = .next t ∧ only t [(.otxm, n)] ∧ dbits (reg t .otxm n) 0 24 = bits 0 24 ∧ t.fabric = s.fabric)) ∧
  (n < 256 → (bits 0 2 = 3 → err (.ostrWrite n v) .ostr n 31) ∧
    (bits 0 2 ≠ 3 → ∃ t, exec (.ostrWrite n v) s = .next t ∧ only t [(.ostr, n)] ∧
      let r := reg t .ostr n
      let w := max (stripeOf (bits 0 2)) (stripeOf (dbits (reg s .ostr n) 2 2))
      dbits r 0 2 = bits 0 2 ∧ dbits r 2 2 = dbits (reg s .ostr n) 2 2 ∧ dbits r 8 8 = 2 ^ w - 1 ∧
      ∀ j, j < 8 → dbit r (16 + j) = (dbit (reg s .ostr n) (16 + j) && decide (j < w)) ∧
        (j < w → dbit (reg s .ostr n) (8 + j) = false → find t.fabric.waking (8 * n + j) = some (s.now + 1500))))))

/-- R380, R384 to R386, R389, R391 to R394. A slot boundary moves the rotors and brings ring maps and widths into force; a flit with a direct path leaves if it
ends before its slot does, striped over the channels of the width in force; a sample
reads every photodetector and queue; a peer is lost when a reply is 1 ms late, and a relayed flit when it has waited 160 µs. That a direct flit leaves as soon as
it fits is the model's (log 26), so is where a refused flit counts (log 51), and so is what becomes of the replies and broadcasts for a lost peer: they stay (log 70). -/
def Obligations.OpticalEvents : Prop := ∀ (s : State), Inv s → let own := ownPeer s
  let same (t : State) (ks : List RegKind) : Prop := (∀ k n, k ∉ ks → reg t k n = reg s k n) ∧ t.warps = s.warps ∧ t.mem = s.mem ∧ t.wgs = s.wgs ∧ t.cores = s.cores
  (∃ t, exec .rotorSlotBoundary s = .next t ∧ same t [.rots, .ostr] ∧ (reg t .rots 0).toNat = (regN s .rots 0 + 1) % 2 ^ 32 ∧
    t.fabric.used = [] ∧ t.fabric.refused = [] ∧ t.fabric.tx = s.fabric.tx ∧ t.fabric.relay = s.fabric.relay ∧ t.fabric.out = s.fabric.out ∧
    (∀ k, k < 256 → findD t.fabric.otxm k 0xFAC688 = (wd (dbits (reg s .otxm k) 0 24)) ∧ findD t.fabric.orxm k 0xFAC688 = (wd (dbits (reg s .orxm k) 0 24)) ∧
      let r := reg s .ostr k
      dbits (reg t .ostr k) 2 2 = if ∀ j, j < stripeOf (dbits r 0 2) → dbit r (16 + j) = true then dbits r 0 2 else dbits r 2 2)) ∧
  (∀ d f l, findD s.fabric.tx d [] = f :: l → rising s.fabric.tx = true → let at' := slotTime s
    let t := run (sendHead slotTime d) s
    (∀ k, pathTo s d = .hold ∨ pathTo s d = .direct k ∧ 25000 ≤ max (usedTime s k) at' + flitTime s k → t = s) ∧
    ∀ k, pathTo s d = .direct k → k < 256 → f.payload.length = 64 → max (usedTime s k) at' + flitTime s k < 25000 → let w := stripeOf (dbits (reg s .ostr k) 2 2)
      findD t.fabric.tx d [] = l ∧ usedTime t k = max (usedTime s k) at' + flitTime s k ∧ same t [] ∧
      ∃ x, t.fabric.out = s.fabric.out ++ [x] ∧ x.pair = k ∧ x.width = w ∧ x.lanes.length = w ∧
        (∀ c, c < w → (nth x.lanes c []).length = 80 / w) ∧
        ∀ g, g = sealed { f with hop := 0 } → mistuned s s.tick k = false → ∀ b, b < 80 → nth (nth x.lanes (b % w) []) (b / w) 0 =
          if b < 16 then nth (le 16 ((headerBits g).toNat + (flitChk g).toNat)) b 0 else nth f.payload (b - 16) 0) ∧
  (∃ t, exec .opticsSample s = .next t ∧ same t [.ompd, .oqd] ∧ t.fabric = s.fabric ∧
    (∀ n, n < 4096 → dbits (reg t .ompd n) 16 16 = (dbits (reg s .ompd n) 16 16 + 1) % 65536) ∧
    ∀ k, k < 256 → dbits (reg t .oqd k) 16 16 = (dbits (reg s .oqd k) 16 16 + 1) % 65536 ∧ dbits (reg t .oqd k) 0 16 = queueDepth s k) ∧
  (∀ p, p ≠ own → p < 1024 → (∃ r ∈ s.fabric.remotes, r.peer = p ∧ r.sent ≠ 0 ∧ r.sent - 1 + 1000000 ≤ s.now) →
    (∀ a ∈ s.arrivals, a.tag = none) → rising s.fabric.tx = true →
    (∀ r ∈ s.fabric.remotes, r.peer = p → ∀ w, find s.warps r.wk = some w → ∀ o ∈ w.outs, o.id = r.out → o.kind ≠ .await) → ∃ t, exec (.peerLost p) s = .next t ∧
    dbit (reg t .peere (p / 32)) (p % 32) = false ∧
    findD t.fabric.tx p [] = (findD s.fabric.tx p []).filter (fun f => !(isRequest f && decide (f.src.toNat = own))) ∧
    (∀ a ∈ t.arrivals, ∀ g o, a.win ≠ some (p, g, o)) ∧ t.fabric.lost = s.fabric.lost ++ [p] ∧
    (∀ r ∈ s.fabric.remotes, r.peer = p → ∀ e ∈ t.fabric.remotes, e.tag ≠ r.tag) ∧ t.mem = s.mem ∧
    ∀ k n, k ≠ .peere → k ≠ .cbal → k ≠ .cuse → k ≠ .tuse → reg t k n = reg s k n) ∧
  ∀ id at' f, s.fabric.relay.find? (fun e => e.1 == id) = some (id, at', f) → at' + 160000 ≤ s.now → f.src.toNat ≠ own → ∃ t g, exec (.relayTimeout id) s = .next t ∧
    t.fabric.relay = s.fabric.relay.filter (fun e => e.1 != id) ∧ findD t.fabric.tx f.src.toNat [] = findD s.fabric.tx f.src.toNat [] ++ [g] ∧
    g.ty = 8 ∧ g.dst = f.src ∧ g.tag = f.tag ∧ same t [] ∧ t.fabric.remotes = s.fabric.remotes

/-- R262, R381, R382, R386, R388. A flit that arrives is relayed, refused, served or delivered, and a bad one that is to be relayed is answered for its
destination: a load is answered with its bytes, a store and an atomic act
when their data flit has come, a reply ends its access and gives its lane the value. A flit is what the receive rings make of it (R482; the sender's width and
the rings' resonances are free: log 69); before the device is ready there is no light (log 72). Where a request's fields lie is log 30, and that a failed unit is
poison is log 53. -/
def Obligations.FlitsArrive : Prop := ∀ (s : State) (f : Flit), let own := ownPeer s
  let src := f.src.toNat
  let same (t : State) : Prop := (∀ k n, reg t k n = reg s k n) ∧ t.warps = s.warps ∧ t.wgs = s.wgs ∧ t.cores = s.cores
  let sends (t : State) (g : Flit) : Prop := findD t.fabric.tx src [] = findD s.fabric.tx src [] ++ [g] ∧ g.dst = f.src ∧ g.tag = f.tag
  let bad : Prop := powered s = true ∧ flitOk (received s s.tick f) = false
  let good : Prop := powered s = true ∧ flitOk (received s s.tick f) = true
  let none' : State := { s with tick := s.tick + 1 }
  (powered s = false → exec (.flitReceive f) s = .next none') ∧
  ((∀ k j, k < 256 → j < 8 → rxOff s s.tick k j = false) → received s s.tick f = f) ∧
  (bad → f.ty = 9 → exec (.flitReceive f) s = .next none') ∧
  (bad → f.ty ≠ 9 → f.dst.toNat ≠ own → let ends := if isRequest f then (f.dst, f.src) else (f.src, f.dst)
    ∃ t g, exec (.flitReceive f) s = .next t ∧ findD t.fabric.tx ends.2.toNat [] = findD s.fabric.tx ends.2.toNat [] ++ [g] ∧ g.src = ends.1 ∧ g.dst = ends.2 ∧
      g.tag = f.tag ∧ g.ty = 8 ∧ same t ∧ t.mem = s.mem) ∧
  (bad → f.dst.toNat = own → isRequest f = true → ∃ t g, exec (.flitReceive f) s = .next t ∧ sends t g ∧ g.ty = 8 ∧ same t ∧
    t.mem = s.mem) ∧
  (good → f.dst.toNat ≠ own → f.hop = 1 → s.fabric.relay.length < relayRoom s → ∃ t, exec (.flitReceive f) s = .next t ∧
    t.fabric = { s.fabric with relay := s.fabric.relay ++ [(s.nextId, s.now, sealed { f with hop := 2 })] } ∧ same t ∧ t.mem = s.mem) ∧
  (good → f.dst.toNat ≠ own → (f.hop ≠ 1 ∨ relayRoom s ≤ s.fabric.relay.length) → exec (.flitReceive f) s = .next none') ∧
  (good → f.dst.toNat = own → f.ty = 0 → let r := reqOf f []
    (∀ c, reqCheck s r = c → c ≠ 0 → ∃ t g, exec (.flitReceive f) s = .next t ∧ sends t g ∧ g.ty = 8 ∧ g.off.toNat = c ∧ same t ∧ t.mem = s.mem) ∧
    (reqCheck s r = 0 → r.size ≤ 64 → ∃ t g, exec (.flitReceive f) s = .next t ∧ sends t g ∧ g.ty = 1 ∧
      g.payload.take r.size = memBytes s.mem (segBase s r + r.off) r.size ∧ (src ≠ own → same t) ∧ t.mem = s.mem)) ∧
  (good → f.dst.toNat = own → f.ty = 2 ∨ f.ty = 4 →
    let mine (g : Flit) : Bool := g.src == f.src && g.tag == f.tag && g.ty == f.ty
    (s.fabric.inbox.find? mine = none → ∃ t, exec (.flitReceive f) s = .next t ∧ t.fabric = { s.fabric with inbox := s.fabric.inbox ++ [f] } ∧ same t ∧ t.mem = s.mem) ∧
    (∀ h, s.fabric.inbox.find? mine = some h → let r := reqOf h f.payload
      let pa := segBase s r + r.off
      reqCheck s r = 0 → ∃ t g, exec (.flitReceive f) s = .next t ∧ sends t g ∧ t.warps = s.warps ∧ Rest s t [.mem, .cores, .fabric] ∧ t.fabric.inbox = s.fabric.inbox.filter (fun e => !mine e) ∧
        (f.ty = 2 → g.ty = 3 ∧ ∀ a, memGet t.mem a = if pa ≤ a ∧ a < pa + min r.size 64 then nth f.payload (a - pa) 0 else memGet s.mem a) ∧
        (f.ty = 4 → (r.size = 4 ∨ r.size = 8 ∧ Rmw.ofNum r.op ≠ .fadd) →
          memNat t.mem pa r.size = rmwNew (Rmw.ofNum r.op) (r.size == 8) (memNat s.mem pa r.size) (fieldAt f.payload 0 r.size) (fieldAt f.payload r.size r.size) ∧
          (∀ a, ¬(pa ≤ a ∧ a < pa + r.size) → memGet t.mem a = memGet s.mem a) ∧
          (r.nr = false → g.ty = 5 ∧ leNat (g.payload.take r.size) = memNat s.mem pa r.size) ∧ (r.nr = true → g.ty = 3)))) ∧
  ∀ r, good → f.dst.toNat = own → remoteOfFlit s f = some r →
    (f.ty = 3 → (r.kind = 2 ∨ r.kind = 3) → ∃ t, exec (.flitReceive f) s = .next t ∧ (∀ e ∈ t.fabric.remotes, e.tag ≠ r.tag) ∧
      (ctxOf t r.ctx).lastSink = s.now ∧ (ctxOf t r.ctx).wd = 0 ∧ t.warps = s.warps ∧ t.mem = s.mem) ∧
    (∀ w o bytes sext, (f.ty = 1 ∧ r.kind = 0 ∨ f.ty = 5 ∧ r.kind = 1) → find s.warps r.wk = some w → w.outs.find? (fun u => u.id == r.out) = some o →
      o.kind = .remote bytes sext → inMask o.left r.lane = true → r.lane < w.lanes.length → (∀ v, o.res.dst = .v v → r.lane < o.res.vals.length) → o.res.n ≤ 4 →
      1 ≤ r.bytes → r.bytes ≤ 16 → let b := leNat (f.payload.take r.bytes)
      ∃ t u, exec (.flitReceive f) s = .next t ∧ find t.warps r.wk = some u ∧ (∀ e ∈ t.fabric.remotes, e.tag ≠ r.tag) ∧ t.mem = s.mem ∧
        Fills w u r.lane o.res.dst o.res.n (if sext = true ∧ b / 2 ^ (8 * r.bytes - 1) % 2 = 1 then (b + 2 ^ 32 - 2 ^ (8 * r.bytes)) % 2 ^ 32 else b)) ∧
    (∀ w o bytes sext, f.ty = 8 → f.off.toNat < 2 ^ 20 → r.kind = 0 → find s.warps r.wk = some w → w.outs.find? (fun u => u.id == r.out) = some o →
      o.kind = .remote bytes sext →
      inMask o.left r.lane = true → r.lane < w.lanes.length → (∀ v, o.res.dst = .v v → r.lane < o.res.vals.length) → o.res.n ≤ 4 →
      ∃ t u, exec (.flitReceive f) s = .next t ∧ find t.warps r.wk = some u ∧ (∀ e ∈ t.fabric.remotes, e.tag ≠ r.tag) ∧ t.mem = s.mem ∧
        Fills w u r.lane o.res.dst o.res.n 0xFFC00BADFFC00BADFFC00BADFFC00BAD ∧ u.rem.count ≠ 0 ∧
        (w.rem.count = 0 → u.rem.code = wd (f.off.toNat % 256) ∧ u.rem.ifa = r.ifa))

/-- R329, R409, R432 to R435, R440, R441. A firmware core that crashes or stalls is held, reloaded, and after a third failure within a second given up; a command
processor that is back takes over from the fallback scheduler; bring-up goes from step to step or ends in a failure; a register-cache fill is charged, and once its
role's share is full replaces a line of that share. Which line of its image a register-cache fill is for is open (log 37); how the images reach an island is log 67; the root of trust's own thread is the
model's (log 72), and so are the key's format and the parameters that the standards leave open in what verifies an image (log 71). -/
def Obligations.FirmwareAndBringup : Prop := ∀ (s : State), Inv s →
  let fails (i : Instr) (c : Nat) : Prop := ∃ t, exec i s = .next t ∧
    (let recent := ((fwOf s c).fails.filter fun a => decide (s.now < a + 1000000000)) ++ [s.now]
     let st := if 3 ≤ recent.length then 3 else 2
     fwOf t c = { fwOf s c with status := st, crash := false, fails := recent } ∧
     dbits (reg t .istat (fwIsland c)) (if c < 7 then 5 else 8) 3 = st ∧ (c < 7 → fallback t (fwIsland c) = true)) ∧
    (∀ k w, find t.warps k = some w → w.fw ≠ some c) ∧ RegsBut s t [(.istat, fwIsland c)] ∧ Beside s t
  (∀ c, 1 ≤ c → c ≤ 12 → (fwOf s c).crash = true → fails (.firmwareCoreTrap c) c) ∧
  (∀ c, 1 ≤ c → c ≤ 12 → (fwOf s c).status = 1 → powered s = true →
    ((fwOf s c).last + 1000000 ≤ s.now ∨ c < 7 ∧ ∃ key q a, (key, q) ∈ s.queues ∧ 1 + key / 64 = c ∧ q.held = some a ∧ a + 10000000 ≤ s.now) →
    fails (.firmwareWatchdogExpiry c) c) ∧
  (∀ c, 1 ≤ c → c ≤ 12 → (fwOf s c).status = 2 → let img := imageOf s c
    let copied (t : State) : Prop := ∀ a, memGet t.mem a = if img.addr ≤ a ∧ a < img.addr + img.len then nth img.bytes (a - img.addr) 0 else memGet s.mem a
    (vendorOk s.flash.vkey img.hash img.sig = true → ∃ t w, exec (.firmwareReloadComplete c) s = .next t ∧ (fwOf t c).status = 1 ∧ (fwOf t c).last = s.now ∧
      find t.warps s.nextId = some w ∧ w.fw = some c ∧ w.activeSet = 1 ∧ (laneOf w 0).pc = dw img.addr + 4 ∧ copied t ∧
      t.boot.m = sha256 (s.boot.m ++ img.hash) ∧ (7 ≤ c → dbits (reg t .istat (fwIsland c)) 8 3 = 1)) ∧
    (vendorOk s.flash.vkey img.hash img.sig = false → ∃ t, exec (.firmwareReloadComplete c) s = .next t ∧ (fwOf t c).status = 3 ∧
      dbits (reg t .istat (fwIsland c)) (if c < 7 then 5 else 8) 3 = 3 ∧ copied t ∧ ∀ k w, find t.warps k = some w → w.fw ≠ some c)) ∧
  (∀ i, i < 6 → (fwOf s (1 + i)).status = 1 → dbits (reg s .istat i) 5 3 = 2 → ∃ t, exec (.fallbackHandOver i) s = .next t ∧ fallback t i = false ∧
    dbits (reg t .istat i) 5 3 = 1 ∧ (islandOf t i).held = [] ∧ t.warps = s.warps ∧ t.wgs = s.wgs) ∧
  (∀ c line hbm, let i := Instr.registerCacheFill c line hbm
    ((imageVa s c line).bind (rcOwner s c) = none → exec i s = .next s) ∧
    ∀ k g role, (imageVa s c line).bind (rcOwner s c) = some (k, g, role) → let rc := (coreOf s g.core).rc
      let own := rc.filter fun e => !e.free && e.wg == k && e.role == role
      ((∃ e ∈ rc, e.line = line) → exec i s = .next s) ∧
      ((∀ e ∈ rc, e.line ≠ line) → ctxValid s c = true → c < 1024 → ∃ t, exec i s = .next t ∧ t.warps = s.warps ∧ Rest s t [.mem, .cores] ∧
        (let cost : Int := (weight s (homeCluster (64 * line)) 9 + if hbm then weight s (clusterNo g.core) 11 else 0 : Nat)
         reg t .cbal c = BitVec.ofInt 64 (sat64 ((reg s .cbal c).toInt - cost))) ∧ (∃ e ∈ t.llc, e.line = line) ∧
        (own.length < rcShare (rcWhole s g.core k) (recOf s g) role → rc.length < 8192 →
          (coreOf t g.core).rc = rc ++ [⟨c, k, role, line, false⟩] ∧ ∀ a, memGet t.mem a = memGet s.mem a) ∧
        (rcShare (rcWhole s g.core k) (recOf s g) role ≤ own.length → own ≠ [] → rc.length ≤ 8192 → ∃ e ∈ own,
          (coreOf t g.core).rc = rc.filter (fun x => x.line != e.line) ++ [⟨c, k, role, line, false⟩] ∧
          ∀ a, a / 64 ≠ e.line → memGet t.mem a = memGet s.mem a))) ∧
  (s.boot.running = true → bootIsland s < 6 → let i := bootIsland s
    let step := dbits (reg s .istat i) 0 3
    let fails (e : Instr) (code st : Nat) : Prop := ∃ t, exec e s = .next t ∧ devState t = 2 ∧ dbits (reg t .bstat 0) 16 8 = code ∧
      dbits (reg t .istat i) 0 3 = st ∧ t.boot.running = false ∧ ∀ k w, find t.warps k = some w → w.fw = some 0
    let ok (c : Nat) : Prop := vendorOk s.flash.vkey (imageOf s c).hash (imageOf s c).sig = true
    let on (P : State → Prop) : Prop := ∃ t, exec .bringupStepComplete s = .next t ∧ P t
    (s.boot.due < s.now → step < 4 → fails .bringupStepTimeout 3 5 ∧ exec .bringupStepComplete s = .next s) ∧
    ((s.now ≤ s.boot.due ∨ step = 4) → exec .bringupStepTimeout s = .next s) ∧
    (s.now ≤ s.boot.due → step < 4 → Config.sensorOk s.tick = false → fails .bringupStepComplete 3 5) ∧
    (s.now ≤ s.boot.due → step < 3 → Config.sensorOk s.tick = true → on fun t => dbits (reg t .istat i) 0 3 = step + 1 ∧
      t.boot.due = s.now + (if step + 1 = 1 then 2000000 else if step + 1 = 2 then 100000 else 5000000) ∧ devState t = devState s ∧ t.mem = s.mem ∧ t.warps = s.warps) ∧
    (s.now ≤ s.boot.due → step = 3 → Config.sensorOk s.tick = true → on fun t => dbits (reg t .istat i) 0 3 = 4 ∧ t.boot = s.boot ∧ t.warps = s.warps ∧
      ∀ a, memGet t.mem a = if dbit (reg s .bstat 0) 8 = false ∧ a / 0x1800000000 = i then 0 else memGet s.mem a) ∧
    (step = 4 → imagesReach s i = false → exec .bringupStepComplete s = .next s) ∧
    (step = 4 → imagesReach s i = true → ¬(ok (1 + i) ∧ ok (7 + i)) → fails .bringupStepComplete 4 0) ∧
    (step = 4 → imagesReach s i = true → ok (1 + i) → ok (7 + i) → on fun t => dbits (reg t .istat i) 0 3 = 4 ∧ dbits (reg t .istat i) 5 3 = 1 ∧
      dbits (reg t .istat i) 8 3 = 1 ∧ (fwOf t (1 + i)).status = 1 ∧ (fwOf t (7 + i)).status = 1 ∧
      t.boot.m = sha256 (sha256 (s.boot.m ++ (imageOf s (1 + i)).hash) ++ (imageOf s (7 + i)).hash) ∧
      (i < 5 → bootIsland t = i + 1 ∧ dbits (reg t .istat (i + 1)) 0 3 = 1 ∧ devState t = devState s ∧ t.boot.due = s.now + 2000000) ∧
      (i = 5 → devState t = 1 ∧ t.boot.running = false ∧ t.now = 0)))

/-- R431, R434, R436, R437, R442 to R444, R446. Power-up resets the registers and starts bring-up; a trap of the root of trust and a hard trip cut power;
a soft trip stops every context and logs itself, and ends a bring-up once its entries are written; the log goes out in order. When power is cut after a hard trip is log 47, and what a bring-up's soft trip logs is log 46. The root of trust's thread, which
starts from ROM, and the package's values at its trap are the model's (log 72); how a certificate gives its key, and the search for primes, are free (log 71). -/
def Obligations.PowerAndTrips : Prop := ∀ (s : State), Inv s →
  let dark (t : State) : Prop := (∀ k w, find t.warps k = some w → w.fw = some 0) ∧ t.wgs = [] ∧ t.launches = [] ∧ t.queues = [] ∧ t.cores = [] ∧
    t.clusters = [] ∧ t.llc = [] ∧ t.tlb = [] ∧ t.fabric.tx = [] ∧ t.boot.running = false
  let rooted (t : State) : Prop := ∃ k w, find t.warps k = some w ∧ w.fw = some 0 ∧ w.activeSet = 1 ∧ (laneOf w 0).pc = dw (64 * Config.romEntry) + 4
  let logged (t : State) (kind info : Nat) : Prop := ∃ e, t.trips.getLast? = some e ∧ e.kind = kind ∧ e.info = info
  let calm (t : State) : Prop := t.warps = s.warps ∧ t.wgs = s.wgs ∧ t.mem = s.mem
  (∀ kept, (∀ l ∈ s.llc, l.dirty = false) → let n := s.tick + 1
    let verified : Prop := sha256 s.flash.vkey = Config.vendorHash ∧ vendorOk s.flash.vkey (sha256 s.flash.config) s.flash.sig = true ∧
      Config.configOk s.flash.config = true
    (identityOk s.flash.helper s.flash.cert n = false → ∃ t, exec (.powerOn kept) s = .next t ∧ devState t = 2 ∧ dbits (reg t .bstat 0) 16 8 = 1 ∧ dark t) ∧
    (identityOk s.flash.helper s.flash.cert n = true →
      (¬verified → ∃ t, exec (.powerOn kept) s = .next t ∧ devState t = 2 ∧ dbits (reg t .bstat 0) 16 8 = 2 ∧ dark t) ∧
      (verified → s.flash.peer < 1024 → ∃ t, exec (.powerOn kept) s = .next t ∧ devState t = 0 ∧ t.boot.running = true ∧
        t.now = 0 ∧ rooted t ∧ t.tlb = [] ∧ dbits (reg t .istat 0) 0 3 = 1 ∧ t.boot.m = sha256 (zeros 32 ++ sha256 s.flash.config) ∧ t.boot.due = 2000000 ∧ logged t 1 0 ∧
        regN t .peerid 0 = s.flash.peer ∧ (∀ p, p < 1024 → (dbit (reg t .peerp (p / 32)) (p % 32) = true ↔ p = s.flash.peer ∨ p ∈ s.flash.populated)) ∧
        ∀ k n, n < kindCount k → k ∉ [.bstat, .istat, .peerid, .peerp, .peere] → reg t k n = regReset k n))) ∧
  (∃ t, exec .rootTrap s = .next t ∧ devState t = 4 ∧ dark t ∧ rooted t ∧ logged t 6 0 ∧ t.boot.m = zeros 32 ∧
    ∀ k n, n < kindCount k → k ≠ .bstat → reg t k n = regReset k n) ∧
  (∀ cl tj, cl < 192 → 420 ≤ tj → tj < 1024 → s.boot.running = false → devState s = 1 → ∃ t, exec (.softTrip cl tj) s = .next t ∧ devState t = 3 ∧
    logged t 2 (cl + 256 * tj) ∧ (∀ c, c < 192 → dbits (reg t .clst c) 8 4 = 0) ∧ dbits (reg t .clst cl) 22 10 = tj ∧
    (∀ n, n < 1024 → ctxValid s n = true → dbit (reg t .ctxs n) 2 = true ∧ ((ctxOf s n).resident = false → (ctxOf s n).stopping = false → dbits (reg t .ctxs n) 0 2 = 3)) ∧
    calm t) ∧
  (∀ cl tj, cl < 192 → 420 ≤ tj → tj < 1024 → s.boot.running = true → ∃ t, exec (.softTrip cl tj) s = .next t ∧ devState t = 3 ∧
    (∀ c, c < 192 → dbits (reg t .clst c) 8 4 = 0) ∧ t.boot.running = false ∧ t.boot.trip = some (islandOfCluster cl) ∧ logged t 2 (cl + 256 * tj) ∧ calm t) ∧
  (∀ isl, s.boot.trip = some isl → devState s = 3 → isl < 6 → (∀ e ∈ s.trips, e.acked = true) → toSave s = [] →
    (∀ e, s.trips.getLast? = some e → e.kind ≠ 4 → ∃ a, saveNext s = some a ∧ logged (run a s) 4 s.boot.saved.length ∧ devState (run a s) = 3) ∧
    (∀ e, s.trips.getLast? = some e → e.kind = 4 → ∃ a, saveNext s = some a ∧ devState (run a s) = 2 ∧ dbits (reg (run a s) .bstat 0) 16 8 = 5 ∧
      dbits (reg (run a s) .bstat 0) 12 4 = isl ∧ dark (run a s))) ∧
  ((∃ e ∈ s.trips, e.acked = false) → saveNext s = none) ∧
  (∀ cl tj, cl < 192 → 460 ≤ tj → tj < 1024 → devState s ≠ 4 → devState s ≠ 2 → ∃ t, exec (.hardTrip cl tj) s = .next t ∧ dark t ∧ logged t 5 (cl + 256 * tj) ∧
    (s.boot.running = false → s.boot.trip = none → devState t = 4) ∧
    (s.boot.running = true ∨ s.boot.trip ≠ none → devState t = 2 ∧ dbits (reg t .bstat 0) 16 8 = 5)) ∧
  ∀ l e r, s.trips = l ++ e :: r → (∀ x ∈ l, x.acked = true) → e.acked = false → exec .tripLogAck s = .next { s with trips := l ++ { e with acked := true } :: r }

/-- R19 to R21, R431, R439. The link's lanes after training; a request is dropped while the link is down, refused in its turn when 64 are outstanding,
and otherwise answered by its kind: status, certificate, attestation, bring-up, and an OP that is not assigned (in every STATE: log 40); a memory read or
write makes its 16-byte accesses one by one and is answered after the last. A request behind an acquire that still reads waits for it, and is then served (R21; that
its checks wait too, and when requests act, is the model's: log 41). -/
def Obligations.HostRequests : Prop := ∀ (s : State),
  (∀ m : BitVec 8, exec (.kebinlinkTraining m) s = .next { s with link := { s.link with lanes :=
    if m = 0xFF then 8 else if m &&& 0xF = 0xF then 4 else if m &&& 3 = 3 then 2 else 0 } }) ∧
  (∀ (p : KPend) (j : HostJob) (u : Nat × Nat), s.link.pending.find? (fun r => r.id == p.id) = some p → p.job = some j → let t := run (hostUnit p.id u) s
    let bs := (j.data.drop u.1).take 16
    let read := j.data.take u.1 ++ memBytes s.mem u.2 16 ++ j.data.drop (u.1 + 16)
    t.warps = s.warps ∧ Rest s t [.mem, .cores] ∧
    (j.write = true → ∀ a, memGet t.mem a = if u.2 ≤ a ∧ a < u.2 + bs.length then nth bs (a - u.2) 0 else memGet s.mem a) ∧
    (j.write = false → t.mem = s.mem) ∧
    ((∃ v ∈ j.units, v.1 ≠ u.1) → ∃ r k, t.link.pending.find? (fun r => r.id == p.id) = some r ∧ r.done = p.done ∧ r.job = some k ∧
      k.units = j.units.filter (fun v => v.1 != u.1) ∧ k.data = if j.write then j.data else read) ∧
    ((∀ v ∈ j.units, v.1 = u.1) → s.link.pending = [p] → t.link.resp = s.link.resp ++ [⟨p.op, p.tag, 0, 0, 0, if j.write then [] else read⟩])) ∧
  ∀ q : KReq, let kinds : List (ReqKind × Instr) := [(.status, .status q), (.cert, .cert q), (.attest, .attest q), (.bringup, .bringup q),
      (.memrd, .memrd q), (.memwr, .memwr q), (.mapq, .mapq q)]
    (∀ e ∈ kinds, (reqKind q.op = some e.1 ↔ q.op = e.1.op) ∧ (reqKind q.op ≠ some e.1 → exec e.2 s = .next s)) ∧
    (reqKind q.op ≠ none → exec (.unassignedOpRequest q) s = .next s) ∧
    (s.link.lanes = 0 → (∀ e ∈ kinds, exec e.2 s = .next s) ∧ exec (.unassignedOpRequest q) s = .next s) ∧
    (s.link.lanes ≠ 0 → (∀ p ∈ s.link.pending, p.id ≠ s.nextId) → s.link.pending.any KPend.holds = true → outstanding s.link < 64 →
      ∀ e ∈ kinds, reqKind q.op = some e.1 → exec e.2 s = .next { s with nextId := s.nextId + 1, link := { s.link with
        pending := s.link.pending ++ [⟨s.nextId, q.op, q.tag, some q, none, none⟩] } }) ∧
    (∀ p, s.link.pending = [p] → p.req = some q → p.done = none → p.op = q.op → p.tag = q.tag → ∃ a, serveHeld s = some a ∧
      (reqKind q.op = none → (run a s).link = { s.link with pending := [], resp := s.link.resp ++ [⟨q.op, q.tag, 2, 0, 0, []⟩] }) ∧
      (q.op = 1 → q.rstat = 0 → q.arg2 = 0 → q.arg1 = 0 → q.arg0 = 0 → q.len = 0 → (run a s).link = { s.link with pending := [], resp := s.link.resp ++
        [⟨q.op, q.tag, 0, 0, 0, le 4 (regN s .bstat 0) ++ (List.range 6).flatMap fun i => le 4 (regN s .istat i)⟩] })) ∧
    (s.link.lanes ≠ 0 → (∀ p ∈ s.link.pending, p.id ≠ s.nextId) → (s.link.pending.any KPend.holds = false ∨ 64 ≤ outstanding s.link) →
      let is (k : ReqKind) : Prop := reqKind q.op = some k ∧ outstanding s.link < 64
      let sent (t : State) (rstat : Nat) (arg0 : Word) (arg1 : DWord) (payload : List Byte) : Prop := t.link = flushLink { s.link with
        pending := s.link.pending ++ [⟨s.nextId, q.op, q.tag, none, none, some ⟨q.op, q.tag, rstat, arg0, arg1, payload⟩⟩] }
      let quiet (t : State) : Prop := t.warps = s.warps ∧ t.hw = s.hw ∧ Beside s t
      let refused (i : Instr) (rstat : Nat) : Prop := ∃ t, exec i s = .next t ∧ sent t rstat 0 0 [] ∧ quiet t
      let plain : Prop := q.rstat = 0 ∧ q.arg2 = 0 ∧ q.arg1 = 0
      (64 ≤ outstanding s.link → (∀ e ∈ kinds, reqKind q.op = some e.1 → refused e.2 5) ∧ (reqKind q.op = none → refused (.unassignedOpRequest q) 5)) ∧
      (reqKind q.op = none → outstanding s.link < 64 → refused (.unassignedOpRequest q) 2) ∧
      (is .status → plain → q.arg0 = 0 → q.len = 0 → ∃ t, exec (.status q) s = .next t ∧ quiet t ∧
        sent t 0 0 0 (le 4 (regN s .bstat 0) ++ (List.range 6).flatMap fun i => le 4 (regN s .istat i))) ∧
      (¬(plain ∧ q.arg0 = 0 ∧ q.len = 0) → (is .status → refused (.status q) 2) ∧ (is .bringup → refused (.bringup q) 2)) ∧
      (is .cert → plain → q.len = 0 → q.arg0.toNat % 64 = 0 → ∃ t, exec (.cert q) s = .next t ∧ quiet t ∧
        sent t 0 (wd s.flash.cert.length) 0 ((s.flash.cert.drop q.arg0.toNat).take 4096)) ∧
      (is .cert → ¬(plain ∧ q.len = 0 ∧ q.arg0.toNat % 64 = 0) → refused (.cert q) 2) ∧
      (is .attest → plain → q.arg0 = 0 → q.len = 32 → (devState s = 2 ∧ dbits (reg s .bstat 0) 16 8 = 1 → refused (.attest q) 3) ∧
        (¬(devState s = 2 ∧ dbits (reg s .bstat 0) 16 8 = 1) → ∃ t, exec (.attest q) s = .next t ∧ quiet t ∧ let b := attestBytes s (reqBody q)
          sent t 0 0 0 (b ++ (List.range 384).map (Config.sign b)))) ∧
      (is .attest → ¬(plain ∧ q.arg0 = 0 ∧ q.len = 32) → refused (.attest q) 2) ∧
      (is .bringup → plain → q.arg0 = 0 → q.len = 0 → devState s ≠ 2 → devState s ≠ 4 → refused (.bringup q) 3) ∧
      (is .bringup → plain → q.arg0 = 0 → q.len = 0 → (devState s = 2 ∨ devState s = 4) → s.link.pending = [] → s.llc = [] →
        identityOk s.flash.helper s.flash.cert (s.tick + 2) = true → configVerified s = true → ∃ t, exec (.bringup q) s = .next t ∧
          t.boot.running = true ∧ devState t = 0 ∧ t.now = 0 ∧ t.link.pending = [] ∧ t.link.resp = s.link.resp ++ [⟨q.op, q.tag, 0, 0, 0, []⟩]) ∧
      (devState s ≠ 1 → (is .memrd → refused (.memrd q) 1) ∧ (is .memwr → refused (.memwr q) 1) ∧ (is .mapq → refused (.mapq q) 1)) ∧
      (devState s = 1 → let ctx := wbits q.arg0 0 10
        let n := wbits q.arg0 16 16
        let begins (i : Instr) (write : Bool) (a : AccKind) (data : List Byte) : Prop := ∃ t, exec i s = .next t ∧ quiet t ∧
          (∀ ea x, xlateAll s ctx true a q.arg1 n = .error (ea, x) → sent t 4 (syndrome a x) ea []) ∧
          (xlateAll s ctx true a q.arg1 n = .ok () → t.link = { s.link with pending := s.link.pending ++ [⟨s.nextId, q.op, q.tag, none,
            some ⟨ctx, write, wbits q.arg0 12 1 == 1,
              (List.range (n / 16)).filterMap (fun i => (paOf s ctx true a (q.arg1.toNat + 16 * i)).map fun pa => (16 * i, pa)), data⟩, none⟩] })
        (memReqBad q = true → (is .memrd → refused (.memrd q) 2) ∧ (is .memwr → refused (.memwr q) 2)) ∧
        (memReqBad q = false → ctxValid s ctx = false → (is .memrd → q.len = 0 → refused (.memrd q) 3) ∧ (is .memwr → q.len = n → refused (.memwr q) 3)) ∧
        (memReqBad q = false → ctxValid s ctx = true → (is .memrd → q.len = 0 → begins (.memrd q) false .read (zeros n)) ∧
          (is .memwr → q.len = n → begins (.memwr q) true .write (reqBody q)))))
end

