-- ==== Sys2Proof/Laws/Maps.lean ====
section
/-! SUPPORT. Sparse maps, the canonical form of memory (R14, R432), and lane masks. -/
namespace Sys2Proof.Machine

/-! ### Sparse maps -/

section
variable {α : Type}
@[simp] theorem find_nil (x : Nat) : find ([] : SMap α) x = none := rfl
@[simp] theorem find_put (m : SMap α) (x y : Nat) (v : α) : find (put m x v) y = if y = x then some v else find m y := by
  induction m with
  | nil => simp [put, find, eq_comm]
  | cons e r ih =>
    obtain ⟨k, w⟩ := e
    unfold put
    split
    · simp only [find]; grind
    · split
      · simp only [find]; grind
      · simp only [find, ih]; grind
@[simp] theorem find_del (m : SMap α) (x y : Nat) : find (del m x) y = if y = x then none else find m y := by
  induction m with
  | nil => simp [del]
  | cons e r ih =>
    obtain ⟨k, w⟩ := e
    unfold del at ih ⊢
    rw [List.filter_cons]
    split
    · simp only [find, ih]; grind
    · simp only [find, ih]; grind
@[simp] theorem find_putO (m : SMap α) (x y : Nat) (v : Option α) : find (putO m x v) y = if y = x then v else find m y := by
  cases v <;> simp [putO]
theorem find_putD [DecidableEq α] (m : SMap α) (x y : Nat) (v d : α) :
    find (putD m x v d) y = if y = x then (if v = d then none else some v) else find m y := by
  unfold putD
  split <;> simp [*]
/-- Reading a map with a default after writing it with the same default. -/
@[simp] theorem findD_putD [DecidableEq α] (m : SMap α) (x y : Nat) (v d : α) :
    findD (putD m x v d) y d = if y = x then v else findD m y d := by
  simp only [findD, find_putD]
  split
  · split <;> simp [*]
  · rfl
@[simp] theorem findD_put (m : SMap α) (x y : Nat) (v d : α) : findD (put m x v) y d = if y = x then v else findD m y d := by
  simp only [findD, find_put]
  split <;> simp

/-! ### Rising keys -/

theorem risingFrom_weaken {lo lo' : Nat} (h : lo' ≤ lo) {m : SMap α} (hm : risingFrom (some lo) m = true) :
    risingFrom (some lo') m = true := by
  cases m with
  | nil => rfl
  | cons e r =>
    obtain ⟨k, v⟩ := e
    simp only [risingFrom, Bool.and_eq_true, decide_eq_true_eq] at hm ⊢
    exact ⟨by omega, hm.2⟩
theorem risingFrom_none_of_some {lo : Nat} {m : SMap α} (hm : risingFrom (some lo) m = true) : risingFrom none m = true := by
  cases m with
  | nil => rfl
  | cons e r =>
    simp only [risingFrom, Bool.and_eq_true] at hm ⊢
    exact hm.2
theorem risingFrom_put {lo : Nat} {m : SMap α} (x : Nat) (v : α) (hx : lo < x) (hm : risingFrom (some lo) m = true) :
    risingFrom (some lo) (put m x v) = true := by
  induction m generalizing lo with
  | nil => simp [put, risingFrom, hx]
  | cons e r ih =>
    obtain ⟨k, w⟩ := e
    simp only [risingFrom, Bool.and_eq_true, decide_eq_true_eq] at hm
    unfold put
    split
    · simp [risingFrom, *]
    · split
      · subst_vars; simp [risingFrom, *]
      · simp only [risingFrom, Bool.and_eq_true, decide_eq_true_eq]
        exact ⟨hm.1, ih (by omega) hm.2⟩
theorem rising_put {m : SMap α} (x : Nat) (v : α) (hm : rising m = true) : rising (put m x v) = true := by
  unfold rising at *
  cases m with
  | nil => rfl
  | cons e r =>
    obtain ⟨k, w⟩ := e
    simp only [risingFrom] at hm
    unfold put
    split
    · simp [risingFrom, *]
    · split
      · subst_vars; simpa [risingFrom] using hm
      · simp only [risingFrom]
        exact risingFrom_put _ _ (by omega) hm
theorem risingFrom_filter {lo : Nat} {m : SMap α} (p : Nat × α → Bool) (hm : risingFrom (some lo) m = true) :
    risingFrom (some lo) (m.filter p) = true := by
  induction m generalizing lo with
  | nil => rfl
  | cons e r ih =>
    obtain ⟨k, w⟩ := e
    simp only [risingFrom, Bool.and_eq_true, decide_eq_true_eq] at hm
    rw [List.filter_cons]
    split
    · simp only [risingFrom, Bool.and_eq_true, decide_eq_true_eq]
      exact ⟨hm.1, ih hm.2⟩
    · exact ih (risingFrom_weaken (by omega) hm.2)
theorem rising_filter {m : SMap α} (p : Nat × α → Bool) (hm : rising m = true) : rising (m.filter p) = true := by
  unfold rising at *
  induction m with
  | nil => rfl
  | cons e r ih =>
    obtain ⟨k, w⟩ := e
    simp only [risingFrom] at hm
    rw [List.filter_cons]
    split
    · simp only [risingFrom]
      exact risingFrom_filter p hm
    · exact ih (risingFrom_none_of_some hm)
theorem mem_put {m : SMap α} {x : Nat} {v : α} {e : Nat × α} (h : e ∈ put m x v) : e = (x, v) ∨ e ∈ m := by
  induction m with
  | nil => simpa [put] using h
  | cons f r ih =>
    obtain ⟨k, w⟩ := f
    unfold put at h
    split at h
    · simpa using h
    · split at h
      · simp only [List.mem_cons] at h ⊢; tauto
      · simp only [List.mem_cons] at h ⊢
        rcases h with h | h
        · tauto
        · rcases ih h with h | h <;> tauto
end

/-! ### Memory -/

/-- Reading a byte after writing one. -/
@[simp] theorem memGet_memSet (m : List Host.Cell) (a x : Nat) (b : Byte) :
    memGet (memSet m a b) x = if x = a then b else memGet m x := by
  unfold memGet memSet
  exact findD_putD m a x b memDefault
/-- A write keeps the canonical form. -/
theorem memWf_memSet {m : List Host.Cell} (a : Nat) (b : Byte) (h : memWf m = true) : memWf (memSet m a b) = true := by
  simp only [memWf, Bool.and_eq_true, List.all_eq_true, bne_iff_ne] at h ⊢
  unfold memSet putD
  split
  · exact ⟨rising_filter _ h.1, fun e he => h.2 e (List.mem_filter.mp he).1⟩
  · refine ⟨rising_put _ _ h.1, fun e he => ?_⟩
    rcases mem_put he with rfl | he
    · assumption
    · exact h.2 e he
/-- Removing entries keeps the canonical form. -/
theorem memWf_filter {m : List Host.Cell} (p : Host.Cell → Bool) (h : memWf m = true) : memWf (m.filter p) = true := by
  simp only [memWf, Bool.and_eq_true, List.all_eq_true, bne_iff_ne] at h ⊢
  exact ⟨rising_filter _ h.1, fun e he => h.2 e (List.mem_filter.mp he).1⟩

/-! ### Lane masks -/

theorem inMask_ge {m : Mask} {i : Nat} (h : 64 ≤ i) : inMask m i = false := by
  unfold inMask
  exact BitVec.getLsbD_of_ge m i h
@[simp] theorem inMask_zero (i : Nat) : inMask 0 i = false := by simp [inMask]
@[simp] theorem inMask_and (a b : Mask) (i : Nat) : inMask (a &&& b) i = (inMask a i && inMask b i) := by simp [inMask]
@[simp] theorem inMask_or (a b : Mask) (i : Nat) : inMask (a ||| b) i = (inMask a i || inMask b i) := by simp [inMask]
theorem inMask_bit (i j : Nat) : inMask (BitVec.ofNat 64 (2 ^ i)) j = (decide (j < 64) && decide (i = j)) := by
  rw [inMask, BitVec.getLsbD_ofNat, Nat.testBit_two_pow]
/-- The lanes of a mask built from a test. -/
@[simp] theorem inMask_maskOf (n : Nat) (f : Nat → Bool) (j : Nat) :
    inMask (maskOf n f) j = (decide (j < 64) && decide (j < n) && f j) := by
  unfold maskOf
  induction n with
  | zero => rw [List.range_zero, List.foldl_nil]; simp [inMask]
  | succ n ih =>
    rw [List.range_succ, List.foldl_append, List.foldl_cons, List.foldl_nil]
    have key : decide (j < n + 1) = (decide (j < n) || decide (n = j)) := by
      rw [← Bool.decide_or]; congr 1; exact propext (by omega)
    split
    · rename_i hf
      rw [inMask_or, ih, inMask_bit, key]
      by_cases hj : n = j
      · subst hj; simp [hf]
      · simp [hj]
    · rename_i hf
      rw [ih, key]
      by_cases hj : n = j
      · subst hj; simp [hf]
      · simp [hj]
theorem mem_lanesOf {m : Mask} {i : Nat} : i ∈ lanesOf m ↔ i < 64 ∧ inMask m i = true := by
  simp [lanesOf]

/-! ### Indexed lists -/

@[simp] theorem length_mapI {α β : Type} (f : Nat → α → β) (l : List α) : (mapI f l).length = l.length := by simp [mapI]
@[simp] theorem getElem?_mapI {α β : Type} (f : Nat → α → β) (l : List α) (i : Nat) :
    (mapI f l)[i]? = l[i]?.map (f i) := by
  simp only [mapI, List.getElem?_map, List.getElem?_zipIdx, Option.map_map]
  cases l[i]? <;> simp
theorem nth_mapI {α : Type} (f : Nat → α → α) (l : List α) (i : Nat) (d : α) (h : i < l.length) :
    nth (mapI f l) i d = f i (nth l i d) := by
  simp [nth, List.getD_eq_getElem?_getD, List.getElem?_eq_getElem h]
theorem nth_of_ge {α : Type} (l : List α) (i : Nat) (d : α) (h : l.length ≤ i) : nth l i d = d := by
  simp [nth, List.getD_eq_getElem?_getD, h]

end Sys2Proof.Machine
end

