-- ==== Sys2Proof/Laws/Inv.lean ====
section
/-! SUPPORT. The invariants of the stored data are kept by every change, and so by every action. -/
namespace Sys2Proof.Machine
open Sys2Proof.Safety

theorem rising_del {α : Type} {m : SMap α} (k : Nat) (h : rising m = true) : rising (del m k) = true := rising_filter _ h
theorem rising_putO {α : Type} {m : SMap α} (k : Nat) (v : Option α) (h : rising m = true) : rising (putO m k v) = true := by
  cases v with
  | none => exact rising_del k h
  | some v => exact rising_put k v h
theorem rising_putD {α : Type} [DecidableEq α] {m : SMap α} (k : Nat) (v d : α) (h : rising m = true) : rising (putD m k v d) = true := by
  unfold putD
  split
  · exact rising_del k h
  · exact rising_put k v h
/-- Every reset value has its reserved bits zero. -/
theorem regReset_reserved (k : RegKind) (n : Nat) : regReset k n &&& ~~~regMask k n = 0 := by
  cases k <;> simp only [regReset, regMask] <;> first | decide | exact BitVec.zero_and | (split <;> decide)
/-- The mask of a register does not depend on the part of its number that its key drops. -/
theorem regMask_mod (k : RegKind) (n m : Nat) (h : n % 65536 = m % 65536) : regMask k n = regMask k m := by
  have h8 : n % 8 = m % 8 := by omega
  cases k <;> simp [regMask, h8]
theorem regKey_eq {k k' : RegKind} {n m : Nat} (h : regKey k n = regKey k' m) : kindNum k = kindNum k' ∧ n % 65536 = m % 65536 := by
  unfold regKey at h; omega
theorem kindNum_eq {k k' : RegKind} (h : kindNum k = kindNum k') : k = k' := by
  revert h; cases k <;> cases k' <;> decide
theorem hwSet_reserved {m : SMap DWord} (k k' : RegKind) (n n' : Nat) (v : DWord) (h : hwGet m k' n' &&& ~~~regMask k' n' = 0) :
    hwGet (hwSet m k n v) k' n' &&& ~~~regMask k' n' = 0 := by
  by_cases e : regKey k' n' = regKey k n
  · obtain ⟨ek, en⟩ := regKey_eq e
    have ek := kindNum_eq ek
    subst ek
    rw [hwGet, hwSet, findD, find_putD, e]
    simp only [if_true]
    split
    · next hd => simp only [Option.getD]; exact regReset_reserved _ _
    · simp only [Option.getD]
      rw [regMask_mod _ _ _ en]
      ext i
      simp
  · rw [hwGet, hwSet, findD, find_putD, if_neg e]
    exact h
/-- Every change keeps the invariants. -/
theorem applyUpd_inv {s : State} (h : Inv s) (u : Upd) : Inv (applyUpd s u) := by
  cases u
  case byte pa b => exact { h with mem := memWf_memSet _ _ h.mem }
  case reg k n v => exact { h with hw := rising_putD _ _ _ h.hw, reserved := fun k' n' => hwSet_reserved _ _ _ _ _ (h.reserved k' n') }
  case warp k w => exact { h with warps := rising_putO _ _ h.warps }
  case wg k w => exact { h with wgs := rising_putO _ _ h.wgs }
  case launch k w => exact { h with launches := rising_putO _ _ h.launches }
  case ctx k w => exact { h with ctxs := rising_put _ _ h.ctxs }
  case ten k w => exact { h with tens := rising_put _ _ h.tens }
  case part k w => exact { h with parts := rising_put _ _ h.parts }
  case queue k w => exact { h with queues := rising_putO _ _ h.queues }
  case cluster k w => exact { h with clusters := rising_put _ _ h.clusters }
  case core k w => exact { h with cores := rising_put _ _ h.cores }
  case island k w => exact { h with islands := rising_put _ _ h.islands }
  case fw k w => exact { h with fws := rising_put _ _ h.fws }
  case memClear n => exact { h with mem := memWf_filter _ h.mem }
  case hwClear => exact { h with hw := rfl, reserved := fun k n => regReset_reserved k n }
  case powerCut => exact { h with
    warps := rising_filter _ h.warps, wgs := rfl, launches := rfl, ctxs := rfl, tens := rfl, parts := rfl, queues := rfl, clusters := rfl,
    cores := rfl, islands := rfl, fws := rising_filter _ h.fws }
  all_goals exact { h with }
theorem commit_inv {s : State} (h : Inv s) (us : List Upd) : Inv (commit s us) := by
  induction us generalizing s with
  | nil => exact h
  | cons u r ih => exact ih (applyUpd_inv h u)
/-- Every action keeps the invariants. -/
theorem run_inv {s : State} (h : Inv s) (a : Action) : Inv (run a s) := commit_inv h _
/-- A value as stored reads without its reserved bits. -/
theorem reg_reserved {s : State} (h : Inv s) (k : RegKind) (n b : Nat) (hb : dbit (regMask k n) b = false) : dbit (reg s k n) b = false := by
  have := congrArg (·.getLsbD b) (h.reserved k n)
  by_cases hlt : b < 64
  · simp [dbit, hlt] at this hb ⊢; simp [hb] at this; exact this
  · simp [dbit]; exact BitVec.getLsbD_of_ge _ _ (by omega)

end Sys2Proof.Machine
end

