-- ==== Sys2Proof/Laws/State.lean ====
section
/-! SUPPORT. What one update leaves in each field of the state, how lists of updates and actions compose, and what the shared
small actions keep. -/
namespace Sys2Proof.Machine

/-! ### One update, field by field -/

@[simp] theorem applyUpd_mem (s : State) (u : Upd) : (applyUpd s u).mem = match u with
    | .byte a b => memSet s.mem a b | .memClear n => s.mem.filter fun e => e.1 / 0x1800000000 != n | _ => s.mem := by
  cases u <;> rfl
@[simp] theorem applyUpd_hw (s : State) (u : Upd) : (applyUpd s u).hw = match u with
    | .reg k n v => hwSet s.hw k n v | .hwClear => [] | _ => s.hw := by
  cases u <;> rfl
@[simp] theorem applyUpd_warps (s : State) (u : Upd) : (applyUpd s u).warps = match u with
    | .warp k w => putO s.warps k w | .powerCut => s.warps.filter fun e => e.2.fw == some 0 | _ => s.warps := by
  cases u <;> rfl
@[simp] theorem applyUpd_wgs (s : State) (u : Upd) : (applyUpd s u).wgs = match u with
    | .wg k g => putO s.wgs k g | .powerCut => [] | _ => s.wgs := by
  cases u <;> rfl
@[simp] theorem applyUpd_launches (s : State) (u : Upd) : (applyUpd s u).launches = match u with
    | .launch k l => putO s.launches k l | .powerCut => [] | _ => s.launches := by
  cases u <;> rfl
@[simp] theorem applyUpd_ctxs (s : State) (u : Upd) : (applyUpd s u).ctxs = match u with
    | .ctx n c => put s.ctxs n c | .powerCut => [] | _ => s.ctxs := by
  cases u <;> rfl
@[simp] theorem applyUpd_tens (s : State) (u : Upd) : (applyUpd s u).tens = match u with
    | .ten n t => put s.tens n t | .powerCut => [] | _ => s.tens := by
  cases u <;> rfl
@[simp] theorem applyUpd_parts (s : State) (u : Upd) : (applyUpd s u).parts = match u with
    | .part n p => put s.parts n p | .powerCut => [] | _ => s.parts := by
  cases u <;> rfl
@[simp] theorem applyUpd_queues (s : State) (u : Upd) : (applyUpd s u).queues = match u with
    | .queue k q => putO s.queues k q | .powerCut => [] | _ => s.queues := by
  cases u <;> rfl
@[simp] theorem applyUpd_clusters (s : State) (u : Upd) : (applyUpd s u).clusters = match u with
    | .cluster n c => put s.clusters n c | .powerCut => [] | _ => s.clusters := by
  cases u <;> rfl
@[simp] theorem applyUpd_cores (s : State) (u : Upd) : (applyUpd s u).cores = match u with
    | .core n c => put s.cores n c | .powerCut => [] | _ => s.cores := by
  cases u <;> rfl
@[simp] theorem applyUpd_islands (s : State) (u : Upd) : (applyUpd s u).islands = match u with
    | .island n i => put s.islands n i | .powerCut => [] | _ => s.islands := by
  cases u <;> rfl
@[simp] theorem applyUpd_fws (s : State) (u : Upd) : (applyUpd s u).fws = match u with
    | .fw n f => put s.fws n f | .powerCut => s.fws.filter fun e => e.1 == 0 | _ => s.fws := by
  cases u <;> rfl
@[simp] theorem applyUpd_stores (s : State) (u : Upd) : (applyUpd s u).stores = match u with
    | .stores l => l | .powerCut => [] | _ => s.stores := by
  cases u <;> rfl
@[simp] theorem applyUpd_llc (s : State) (u : Upd) : (applyUpd s u).llc = match u with
    | .llc l => l | .powerCut => [] | _ => s.llc := by
  cases u <;> rfl
@[simp] theorem applyUpd_tlb (s : State) (u : Upd) : (applyUpd s u).tlb = match u with
    | .tlb l => l | .powerCut => [] | _ => s.tlb := by
  cases u <;> rfl
@[simp] theorem applyUpd_walks (s : State) (u : Upd) : (applyUpd s u).walks = match u with
    | .walks l => l | .powerCut => [] | _ => s.walks := by
  cases u <;> rfl
@[simp] theorem applyUpd_arrivals (s : State) (u : Upd) : (applyUpd s u).arrivals = match u with
    | .arrivals l => l | .powerCut => [] | _ => s.arrivals := by
  cases u <;> rfl
@[simp] theorem applyUpd_fabric (s : State) (u : Upd) : (applyUpd s u).fabric = match u with
    | .fabric f => f | .powerCut => ⟨[], [], [], [], [], [], [], [], s.fabric.out, [], [], []⟩ | _ => s.fabric := by
  cases u <;> rfl
@[simp] theorem applyUpd_boot (s : State) (u : Upd) : (applyUpd s u).boot = match u with
    | .boot b => b | _ => s.boot := by
  cases u <;> rfl
@[simp] theorem applyUpd_flash (s : State) (u : Upd) : (applyUpd s u).flash = s.flash := by cases u <;> rfl
@[simp] theorem applyUpd_link (s : State) (u : Upd) : (applyUpd s u).link = match u with
    | .link l => l | _ => s.link := by
  cases u <;> rfl
@[simp] theorem applyUpd_trips (s : State) (u : Upd) : (applyUpd s u).trips = match u with
    | .trips l => l | _ => s.trips := by
  cases u <;> rfl
@[simp] theorem applyUpd_demands (s : State) (u : Upd) : (applyUpd s u).demands = match u with
    | .demands m => m | .powerCut => [] | _ => s.demands := by
  cases u <;> rfl
@[simp] theorem applyUpd_now (s : State) (u : Upd) : (applyUpd s u).now = match u with
    | .now t => t | _ => s.now := by
  cases u <;> rfl
@[simp] theorem applyUpd_tick (s : State) (u : Upd) : (applyUpd s u).tick = match u with
    | .tick t => t | _ => s.tick := by
  cases u <;> rfl
@[simp] theorem applyUpd_cur (s : State) (u : Upd) : (applyUpd s u).cur = match u with
    | .cur c => c | .powerCut => none | _ => s.cur := by
  cases u <;> rfl
@[simp] theorem applyUpd_agenda (s : State) (u : Upd) : (applyUpd s u).agenda = match u with
    | .agenda l => l | _ => s.agenda := by
  cases u <;> rfl
@[simp] theorem applyUpd_nextId (s : State) (u : Upd) : (applyUpd s u).nextId = match u with
    | .nextId n => n | _ => s.nextId := by
  cases u <;> rfl
@[simp] theorem applyUpd_waits (s : State) (u : Upd) : (applyUpd s u).waits = match u with
    | .waits l => l | .powerCut => [] | _ => s.waits := by
  cases u <;> rfl
@[simp] theorem applyUpd_old (s : State) (u : Upd) : (applyUpd s u).old = match u with
    | .old l => l | .powerCut => [] | _ => s.old := by
  cases u <;> rfl

/-! ### Lists of updates, and actions -/

@[simp] theorem commit_nil (s : State) : commit s [] = s := rfl
@[simp] theorem commit_cons (s : State) (u : Upd) (us : List Upd) : commit s (u :: us) = commit (applyUpd s u) us := rfl
@[simp] theorem commit_append (s : State) (us vs : List Upd) : commit s (us ++ vs) = commit (commit s us) vs := by
  simp [commit, List.foldl_append]
@[simp] theorem run_skip (s : State) : run skip s = s := rfl
@[simp] theorem run_upd (u : Upd) (s : State) : run (upd u) s = applyUpd s u := rfl
@[simp] theorem run_acts_nil (s : State) : run (acts []) s = s := rfl
@[simp] theorem run_acts_cons (a : Action) (r : List Action) (s : State) : run (acts (a :: r)) s = run (acts r) (run a s) := by
  simp [run, acts]
@[simp] theorem run_look (f : State → Action) (s : State) : run (look f) s = run (f s) s := rfl
/-- An action written as a list of actions computed from the state it starts in. -/
theorem run_fun (f : State → List Action) (s : State) : run (fun s => acts (f s) s) s = run (acts (f s)) s := rfl
@[simp] theorem run_whenA (b : Bool) (a : Action) (s : State) : run (whenA b a) s = if b then run a s else s := by
  cases b <;> rfl
@[simp] theorem run_forEach_nil {α : Type} (f : α → Action) (s : State) : run (forEach [] f) s = s := rfl
@[simp] theorem run_forEach_cons {α : Type} (x : α) (l : List α) (f : α → Action) (s : State) :
    run (forEach (x :: l) f) s = run (forEach l f) (run (f x) s) := run_acts_cons _ _ _
@[simp] theorem run_withFree (f : Nat → Action) (s : State) :
    run (withFree f) s = run (f s.tick) (applyUpd s (.tick (s.tick + 1))) := by
  show run (acts [_, _]) s = _
  simp
@[simp] theorem run_withId (f : Nat → Action) (s : State) :
    run (withId f) s = run (f s.nextId) (applyUpd s (.nextId (s.nextId + 1))) := by
  show run (acts [_, _]) s = _
  simp

/-! ### What an action keeps -/

/-- A reading of the state that an action never changes. -/
def Keeps {α : Type} (f : State → α) (a : Action) : Prop := ∀ s, f (run a s) = f s

section
variable {α β : Type} {f : State → α}
theorem keeps_skip : Keeps f skip := fun _ => rfl
theorem keeps_nil : Keeps f fun _ => [] := fun _ => rfl
theorem keeps_upd {u : Upd} (h : ∀ s, f (applyUpd s u) = f s) : Keeps f (upd u) := h
theorem keeps_acts {l : List Action} (h : ∀ a ∈ l, Keeps f a) : Keeps f (acts l) := by
  induction l with
  | nil => exact fun _ => rfl
  | cons a r ih =>
    intro s
    rw [run_acts_cons, ih (fun b hb => h b (List.mem_cons_of_mem _ hb)), h a List.mem_cons_self]
theorem keeps_cons {a : Action} {l : List Action} (h : Keeps f a) (hl : Keeps f (acts l)) : Keeps f (acts (a :: l)) := by
  intro s
  rw [run_acts_cons, hl, h]
theorem keeps_look {g : State → Action} (h : ∀ s, Keeps f (g s)) : Keeps f (look g) := fun s => h s s
theorem keeps_fun {g : State → Action} (h : ∀ s, Keeps f (g s)) : Keeps f fun s => g s s := fun s => h s s
theorem keeps_whenA {b : Bool} {a : Action} (h : Keeps f a) : Keeps f (whenA b a) := by
  cases b
  · exact keeps_skip
  · exact h
theorem keeps_forEach {l : List β} {g : β → Action} (h : ∀ x ∈ l, Keeps f (g x)) : Keeps f (forEach l g) :=
  keeps_acts (by simpa using h)
/-- A list of updates computed from the state. -/
theorem keeps_list {g : State → List Upd} (h : ∀ s, ∀ u ∈ g s, ∀ t, f (applyUpd t u) = f t) : Keeps f g := by
  intro s
  have : ∀ (us : List Upd) (t : State), (∀ u ∈ us, ∀ t, f (applyUpd t u) = f t) → f (commit t us) = f t := by
    intro us
    induction us with
    | nil => intros; rfl
    | cons u us ih =>
      intro t hu
      rw [commit_cons, ih _ (fun v hv => hu v (List.mem_cons_of_mem _ hv)), hu u List.mem_cons_self]
  exact this _ _ (h s)
theorem keeps_withFree {g : Nat → Action} (h : ∀ n, Keeps f (g n)) (ht : ∀ s n, f (applyUpd s (.tick n)) = f s) :
    Keeps f (withFree g) := by
  intro s
  rw [run_withFree, h, ht]
theorem keeps_withId {g : Nat → Action} (h : ∀ n, Keeps f (g n)) (ht : ∀ s n, f (applyUpd s (.nextId n)) = f s) :
    Keeps f (withId g) := by
  intro s
  rw [run_withId, h, ht]
end

/-! ### Changing one part -/

theorem run_modWarp (k : Nat) (g : Warp → Warp) (s : State) (w : Warp) (h : find s.warps k = some w) :
    run (modWarp k g) s = applyUpd s (.warp k (some (g w))) := by simp [run, modWarp, h]
theorem run_modWarp_none (k : Nat) (g : Warp → Warp) (s : State) (h : find s.warps k = none) : run (modWarp k g) s = s := by
  simp [run, modWarp, h]
theorem run_modWg (k : Nat) (g : Workgroup → Workgroup) (s : State) (w : Workgroup) (h : find s.wgs k = some w) :
    run (modWg k g) s = applyUpd s (.wg k (some (g w))) := by simp [run, modWg, h]
theorem run_modLaunch (k : Nat) (g : Launch → Launch) (s : State) (l : Launch) (h : find s.launches k = some l) :
    run (modLaunch k g) s = applyUpd s (.launch k (some (g l))) := by simp [run, modLaunch, h]
@[simp] theorem run_modCore (c : Nat) (g : Core → Core) (s : State) : run (modCore c g) s = applyUpd s (.core c (g (coreOf s c))) := rfl
@[simp] theorem run_modCluster (c : Nat) (g : Cluster → Cluster) (s : State) :
    run (modCluster c g) s = applyUpd s (.cluster c (g (clusterOf s c))) := rfl
@[simp] theorem run_modCtx (n : Nat) (g : Ctx → Ctx) (s : State) : run (modCtx n g) s = applyUpd s (.ctx n (g (ctxOf s n))) := rfl
@[simp] theorem run_modTenant (n : Nat) (g : Tenant → Tenant) (s : State) :
    run (modTenant n g) s = applyUpd s (.ten n (g (tenantOf s n))) := rfl
@[simp] theorem run_modReg (k : RegKind) (n : Nat) (g : DWord → DWord) (s : State) :
    run (modReg k n g) s = applyUpd s (.reg k n (g (reg s k n))) := rfl

section
variable {α : Type} {f : State → α}
theorem keeps_modWarp {k : Nat} {g : Warp → Warp} (h : ∀ s k w, f (applyUpd s (.warp k w)) = f s) : Keeps f (modWarp k g) := by
  refine keeps_list fun s u hu t => ?_
  unfold modWarp at hu
  split at hu
  · simp only [List.mem_singleton] at hu; rw [hu, h]
  · simp at hu
theorem keeps_modWg {k : Nat} {g : Workgroup → Workgroup} (h : ∀ s k w, f (applyUpd s (.wg k w)) = f s) : Keeps f (modWg k g) := by
  refine keeps_list fun s u hu t => ?_
  unfold modWg at hu
  split at hu
  · simp only [List.mem_singleton] at hu; rw [hu, h]
  · simp at hu
theorem keeps_modLaunch {k : Nat} {g : Launch → Launch} (h : ∀ s k w, f (applyUpd s (.launch k w)) = f s) : Keeps f (modLaunch k g) := by
  refine keeps_list fun s u hu t => ?_
  unfold modLaunch at hu
  split at hu
  · simp only [List.mem_singleton] at hu; rw [hu, h]
  · simp at hu
theorem keeps_modCore {c : Nat} {g : Core → Core} (h : ∀ s k w, f (applyUpd s (.core k w)) = f s) : Keeps f (modCore c g) := fun s => h s _ _
theorem keeps_modCluster {c : Nat} {g : Cluster → Cluster} (h : ∀ s k w, f (applyUpd s (.cluster k w)) = f s) :
    Keeps f (modCluster c g) := fun s => h s _ _
theorem keeps_modCtx {c : Nat} {g : Ctx → Ctx} (h : ∀ s k w, f (applyUpd s (.ctx k w)) = f s) : Keeps f (modCtx c g) := fun s => h s _ _
theorem keeps_modTenant {c : Nat} {g : Tenant → Tenant} (h : ∀ s k w, f (applyUpd s (.ten k w)) = f s) :
    Keeps f (modTenant c g) := fun s => h s _ _
theorem keeps_modReg {k : RegKind} {n : Nat} {g : DWord → DWord} (h : ∀ s k n v, f (applyUpd s (.reg k n v)) = f s) :
    Keeps f (modReg k n g) := fun s => h s _ _ _
theorem keeps_setField {k : RegKind} {n lo b v : Nat} (h : ∀ s k n v, f (applyUpd s (.reg k n v)) = f s) :
    Keeps f (setField k n lo b v) := fun s => h s _ _ _
/-- A charge changes registers, the meter sums of a tenant and the sums of clusters, and nothing else (R334, R340, R354). -/
theorem keeps_charge {c : Option Nat} {cs : List Chg} (hr : ∀ s k n v, f (applyUpd s (.reg k n v)) = f s)
    (ht : ∀ s k w, f (applyUpd s (.ten k w)) = f s) (hc : ∀ s k w, f (applyUpd s (.cluster k w)) = f s) : Keeps f (charge c cs) := by
  have hattr : ∀ acct, Keeps f (attrCharge acct cs) := fun acct => keeps_forEach fun c _ => keeps_list fun s u hu t => by
    dsimp only at hu
    split at hu
    · simp at hu
    · simp only [List.mem_singleton] at hu; rw [hu, hc]
  intro s
  unfold charge run
  cases c with
  | none => exact hattr 0 s
  | some n =>
    dsimp only
    split
    · refine keeps_cons ?_ (keeps_cons ?_ (keeps_cons (hattr _) keeps_nil)) s
      · refine keeps_list fun s u hu t => ?_
        unfold debit at hu
        simp only [List.mem_append, List.mem_cons, List.not_mem_nil, or_false] at hu
        rcases hu with (h | h) | h
        · rw [h, hr]
        · rw [h, hr]
        · split at h
          · simp at h
          · simp only [List.mem_singleton] at h; rw [h, hr]
      · refine keeps_list fun s u hu t => ?_
        unfold meterCount at hu
        simp only [List.mem_singleton] at hu; rw [hu, ht]
    · rfl
end

end Sys2Proof.Machine
end

