-- ==== Sys2Proof/Laws/Issue.lean ====
section
/-! SUPPORT. What issuing an instruction does (R69, R71, R335): the outcome of a gate that opens, and the state its body starts from. -/
namespace Sys2Proof.Machine
open Sys2Proof.Safety

/-! ### The issuer -/

theorem issOf_warp {s : State} {i : Instr} {x : Iss} (h : issOf s i = some x) : find s.warps x.k = some x.w := by
  unfold issOf at h
  split at h
  · simp at h
  · split at h
    · simp at h
    · simp only [Option.some.injEq] at h
      subst h; assumption
theorem issOf_ins {s : State} {i : Instr} {x : Iss} (h : issOf s i = some x) : x.i = i := by
  unfold issOf at h
  split at h
  · simp at h
  · split at h
    · simp at h
    · simp only [Option.some.injEq] at h
      subst h; rfl
/-- A guard-true lane is a lane of the group (R57). -/
theorem issOf_guard {s : State} {i : Instr} {x : Iss} (h : issOf s i = some x) (j : Nat) (hj : inMask x.g j = true) :
    inMask x.mask j = true := by
  unfold issOf at h
  split at h
  · simp at h
  · split at h
    · simp at h
    · simp only [Option.some.injEq] at h
      subst h
      simp only [guardMask, inMask_maskOf, Bool.and_eq_true] at hj
      exact hj.2.1
theorem on_guard {x : Iss} {j : Nat} (h : Iss.On x j) : x.g ≠ 0 := by
  intro hg
  have := h.2
  simp [hg, inMask] at this

/-! ### Lanes of a warp -/

@[simp] theorem mapLanes_length (w : Warp) (m : Mask) (f : Nat → Lane → Lane) : (w.mapLanes m f).lanes.length = w.lanes.length := by
  simp [Warp.mapLanes]
theorem laneOf_mapLanes (w : Warp) (m : Mask) (f : Nat → Lane → Lane) (j : Nat) (h : j < w.lanes.length) :
    laneOf (w.mapLanes m f) j = if inMask m j then f j (laneOf w j) else laneOf w j := by
  simp only [laneOf, Warp.mapLanes]
  rw [nth_mapI _ _ _ _ h]
theorem laneOf_absent (w : Warp) (j : Nat) (h : w.lanes.length ≤ j) : laneOf w j = absentLane := nth_of_ge _ _ _ h
/-- Every lane outside a set is as it was. -/
theorem laneOf_mapLanes_out (w : Warp) (m : Mask) (f : Nat → Lane → Lane) (j : Nat) (h : inMask m j = false) :
    laneOf (w.mapLanes m f) j = laneOf w j := by
  by_cases hj : j < w.lanes.length
  · rw [laneOf_mapLanes _ _ _ _ hj]; simp [h]
  · rw [laneOf_absent _ _ (by simpa using Nat.not_lt.mp hj), laneOf_absent _ _ (Nat.not_lt.mp hj)]

/-! ### Registers -/

@[simp] theorem rd_wr (l : Lane) (n m : Nat) (v : Word) : (l.wr n v).rd m = if m = n then v else l.rd m := by
  simp [Lane.rd, Lane.wr]
@[simp] theorem rdS_wrS (w : Warp) (n m : Nat) (v : Word) : (w.wrS n v).rdS m = if m = n then v else w.rdS m := by
  simp [Warp.rdS, Warp.wrS]
@[simp] theorem rdA_wrA (w : Warp) (n m : Nat) (v : Word × Word) : (w.wrA n v).rdA m = if m = n then v else w.rdA m := by
  simp [Warp.rdA, Warp.wrA]
/-- A run of registers written from one value, low word first (R62). -/
theorem rd_wrN (l : Lane) (n m : Nat) (v : BitVec 128) (k : Nat) :
    (l.wrN n v k).rd m = if n ≤ m ∧ m < n + k then v.extractLsb' (32 * (m - n)) 32 else l.rd m := by
  induction k with
  | zero => simp [Lane.wrN]
  | succ k ih =>
    rw [Lane.wrN, rd_wr, ih]
    by_cases h : m = n + k
    · subst h; simp
    · have : (n ≤ m ∧ m < n + (k + 1)) ↔ (n ≤ m ∧ m < n + k) := by omega
      simp only [h, if_false, this]
theorem rdS_wrSN (w : Warp) (n m : Nat) (v : BitVec 128) (k : Nat) :
    (w.wrSN n v k).rdS m = if n ≤ m ∧ m < n + k then v.extractLsb' (32 * (m - n)) 32 else w.rdS m := by
  induction k with
  | zero => simp [Warp.wrSN]
  | succ k ih =>
    rw [Warp.wrSN, rdS_wrS, ih]
    by_cases h : m = n + k
    · subst h; simp
    · have : (n ≤ m ∧ m < n + (k + 1)) ↔ (n ≤ m ∧ m < n + k) := by omega
      simp only [h, if_false, this]
/-- Writing varying registers changes nothing else of a lane. -/
theorem wrN_eq (l : Lane) (n : Nat) (v : BitVec 128) (k : Nat) : l.wrN n v k = { l with v := (l.wrN n v k).v } := by
  induction k with
  | zero => rfl
  | succ k ih => rw [Lane.wrN, ih]; rfl
theorem wrSN_eq (w : Warp) (n : Nat) (v : BitVec 128) (k : Nat) : w.wrSN n v k = { w with s := (w.wrSN n v k).s } := by
  induction k with
  | zero => rfl
  | succ k ih => rw [Warp.wrSN, ih]; rfl

/-! ### Issuing -/

/-- The warp once the instruction has issued: windows updated, the group at the next instruction. -/
def Iss.stepped (x : Iss) (s : State) : Warp := (x.winsAfter s.nextId s.now x.w).advance x.mask x.next
/-- The state in which the body of an issued instruction starts. -/
def Iss.issued (x : Iss) (price : List Chg) (s : State) : State := run (acts [
  upd (.nextId (s.nextId + 1)),
  if x.ejected || x.w.fw.isSome || x.co then skip else noteSlot x.w.core (isMma x.i),
  chargeW x.w price,
  match x.w.fw with
    | some c => fun s => [.fw c { fwOf s c with last := s.now }]
    | none => skip,
  modWarp x.k fun w => (x.winsAfter s.nextId s.now w).advance x.mask x.next]) s

theorem run_go (x : Iss) (price : List Chg) (body : Nat → Action) (s : State) :
    run (x.go price body) s = if x.g != 0 then run (body s.nextId) (x.issued price s) else x.issued price s := by
  show run (acts [_, _, _, _, _, _]) s = _
  unfold Iss.issued
  simp only [run_acts_cons, run_acts_nil, run_whenA] <;> rfl
theorem issue_go {i : Instr} {busy : Iss → State → Bool} {s : State} {x : Iss} (h : Issues i busy s x) (price : Iss → List Chg)
    (body : Iss → Nat → Action) : issue i price busy body s = .next (run (x.go (price x) (body x)) s) := by
  unfold issue
  rw [h.1]
  show Host.Outcome.next (run (issueAct _ _ _ _) s) = _
  unfold issueAct
  rw [run_look, h.2]

section
variable {α : Type} {f : State → α}
/-- Issuing changes names, registers, meter sums, clusters, firmware cores and the issuer's warp, and nothing else. -/
theorem issued_keeps (hn : ∀ s n, f (applyUpd s (.nextId n)) = f s) (hr : ∀ s k n v, f (applyUpd s (.reg k n v)) = f s)
    (ht : ∀ s k w, f (applyUpd s (.ten k w)) = f s) (hc : ∀ s k w, f (applyUpd s (.cluster k w)) = f s)
    (hf : ∀ s k w, f (applyUpd s (.fw k w)) = f s) (hw : ∀ s k w, f (applyUpd s (.warp k w)) = f s)
    (x : Iss) (price : List Chg) (s : State) : f (x.issued price s) = f s := by
  unfold Iss.issued
  refine keeps_cons (keeps_upd fun s => hn s _) (keeps_cons ?_ (keeps_cons ?_ (keeps_cons ?_ (keeps_cons (keeps_modWarp hw) keeps_nil)))) s
  · split
    · exact keeps_skip
    · exact keeps_modCluster hc
  · unfold chargeW
    split
    · exact keeps_skip
    · exact keeps_charge hr ht hc
  · split
    · exact fun s => hf s _ _
    · exact keeps_skip
end

theorem issued_warps (x : Iss) (price : List Chg) (s : State) (h : find s.warps x.k = some x.w) (k : Nat) :
    find (x.issued price s).warps k = if k = x.k then some (x.stepped s) else find s.warps k := by
  unfold Iss.issued
  have key : ∀ (a b c d : Action) (g : Warp → Warp), Keeps (fun s => s.warps) a → Keeps (fun s => s.warps) b →
      Keeps (fun s => s.warps) c → Keeps (fun s => s.warps) d →
      find (run (acts [a, b, c, d, modWarp x.k g]) s).warps k = if k = x.k then some (g x.w) else find s.warps k := by
    intro a b c d g ha hb hc hd
    simp only [run_acts_cons, run_acts_nil]
    have h' : (run d (run c (run b (run a s)))).warps = s.warps := by
      have h1 := hd (run c (run b (run a s))); have h2 := hc (run b (run a s)); have h3 := hb (run a s); have h4 := ha s
      simp only at h1 h2 h3 h4
      rw [h1, h2, h3, h4]
    rw [run_modWarp _ _ _ x.w (by rw [h', h])]
    simp [h']
  rw [key]
  · rfl
  · exact keeps_upd fun s => by simp
  · split
    · exact keeps_skip
    · exact keeps_modCluster (by simp)
  · unfold chargeW
    split
    · exact keeps_skip
    · exact keeps_charge (by simp) (by simp) (by simp)
  · split
    · exact fun s => by simp [run]
    · exact keeps_skip

/-- The registers, flags and predicates of a lane are those it had when its instruction issued. -/
theorem laneOf_stepped (x : Iss) (s : State) (j : Nat) : ∃ l : Lane, laneOf (x.stepped s) j = l ∧ l.v = (laneOf x.w j).v ∧
    l.p = (laneOf x.w j).p ∧ l.flg = (laneOf x.w j).flg ∧ l.gs = (laneOf x.w j).gs ∧ l.st = (laneOf x.w j).st ∧
    (inMask x.mask j = false → l = laneOf x.w j) ∧ (j < x.w.lanes.length → inMask x.mask j = true → l.pc = x.next) := by
  refine ⟨_, rfl, ?_⟩
  unfold Iss.stepped Warp.advance Iss.winsAfter
  by_cases hj : j < x.w.lanes.length
  · rw [laneOf_mapLanes _ _ _ _ (by simpa using hj), laneOf_mapLanes _ _ _ _ hj]
    by_cases hm : inMask x.mask j <;> simp [hm]
  · rw [laneOf_absent _ _ (by simpa using hj), laneOf_absent x.w _ (by simpa using hj)]
    exact ⟨rfl, rfl, rfl, rfl, rfl, fun _ => rfl, fun h => absurd h hj⟩

end Sys2Proof.Machine
end

