-- ==== Sys2Proof/Laws/Order.lean ====
section
/-! SUPPORT. What the points of Machine/Order.lean promise, for later proofs to cite instead of unfolding them. -/
namespace Sys2Proof.Machine

variable {s : State} {sc : Scope} {p : Point} {q : PStore}

/-- Once a release may act, no store that is visible at its point is pending (R217). -/
theorem relDone_store (h : relDone s sc p = true) (hq : q ∈ s.stores) : q.before p = false := by
  simp only [relDone, Bool.and_eq_true, List.all_eq_true] at h
  simpa using h.1.1.2 q hq
/-- The reads of its threads before it have been made (R214). -/
theorem relDone_reads (h : relDone s sc p = true) : readsDone s p = true := by
  simp only [relDone, Bool.and_eq_true] at h
  exact h.1.1.1
/-- The epilogues of its threads before it have been accepted (R225). -/
theorem relDone_epis (h : relDone s sc p = true) : episDone s p = true := by
  simp only [relDone, Bool.and_eq_true] at h
  exact h.2
/-- At scope fab, the remote writes of its threads before it have been answered (R228). -/
theorem relDone_remote {r : Remote} (h : relDone s .fab p = true) (hr : r ∈ s.fabric.remotes) (hp : r.by p = true) (hw : r.writes = true) :
    p.age ≤ r.seq := by
  simp only [relDone, remoteDone, Bool.and_eq_true, List.all_eq_true] at h
  have := h.1.2 r hr
  simpa [hp, hw] using this
/-- A store that may be performed has entered its L1, or may at once. -/
theorem storeReady_entered (h : storeReady s q = true) : q.entered.isSome = true ∨ mayEnter s q = true := by
  simp only [storeReady, Bool.and_eq_true, Bool.or_eq_true] at h
  exact h.1.1.2
/-- Its home is reached: every strait on the way is open (R433). -/
theorem storeReady_reaches (h : storeReady s q = true) : reaches s q.pa = true := by
  simp only [storeReady, Bool.and_eq_true] at h
  exact h.1.1.1
/-- A release store at scope `clus` or wider is performed after everything before it. -/
theorem storeReady_release (h : storeReady s q = true) (hr : q.relFar = true) : relDone s (q.rel.getD .dev) q.po = true := by
  simp only [storeReady, Bool.and_eq_true, Bool.or_eq_true, Bool.not_eq_true'] at h
  simpa [hr] using h.2
/-- Stores of one core and context to a byte they share are performed in the order of their names. -/
theorem storeReady_inOrder {r : PStore} (h : storeReady s q = true) (hr : r ∈ s.stores) (hm : r.mate q = true) (hi : r.id < q.id) :
    r.hits q.pa q.bytes.length = false := by
  simp only [storeReady, Bool.and_eq_true, List.all_eq_true] at h
  have := h.1.2 r hr
  simp only [hm, hi, decide_true, Bool.true_and, Bool.not_true, Bool.false_or, Bool.not_eq_true', Bool.or_eq_false_iff] at this
  exact this.1
/-- A release at scope `warp` or `core` asks less than one at scope `dev` does of the stores of other threads. -/
theorem nearDone_store (h : nearDone s p = true) (hq : q ∈ s.stores) (ho : q.po.same p = true) (ha : q.po.age < p.age) : q.entered.isSome = true := by
  simp only [nearDone, Bool.and_eq_true, List.all_eq_true] at h
  have := h.1.1.2 q hq
  simpa [ho, ha] using this

end Sys2Proof.Machine
end

