-- ==== Sys2Proof/Laws/Result.lean ====
section
/-! SUPPORT. What a register instruction leaves in its warp: the values its destinations get, and the registers it leaves alone. -/
namespace Sys2Proof.Machine
open Sys2Proof.Safety

/-! ### Hardware registers -/

theorem kindNum_inj {k k' : RegKind} (h : kindNum k = kindNum k') : k = k' := by
  revert h; cases k <;> cases k' <;> decide
theorem regKey_ne {k k' : RegKind} (n n' : Nat) (h : k ≠ k') : regKey k n ≠ regKey k' n' := by
  intro e
  unfold regKey at e
  exact h (kindNum_inj (by omega))
/-- A register written leaves those of every other kind. -/
theorem hwGet_hwSet_kind {m : SMap DWord} {k k' : RegKind} (n n' : Nat) {v : DWord} (h : k' ≠ k) :
    hwGet (hwSet m k n v) k' n' = hwGet m k' n' := by
  simp [hwGet, hwSet, findD, find_putD, regKey_ne n' n h]
@[simp] theorem hwGet_hwSet (m : SMap DWord) (k : RegKind) (n : Nat) (v : DWord) : hwGet (hwSet m k n v) k n = v &&& regMask k n := by
  simp only [hwGet, hwSet, findD, find_putD, if_true]
  split
  · next h => simp [h]
  · rfl
/-- A charge leaves every register but the accounts of R334 as it was. -/
theorem charge_hw (c : Option Nat) (cs : List Chg) (k : RegKind) (n : Nat) (h1 : k ≠ .cbal) (h2 : k ≠ .cuse) (h3 : k ≠ .tuse) :
    Keeps (fun s => reg s k n) (charge c cs) := by
  have hattr : ∀ acct, Keeps (fun s => reg s k n) (attrCharge acct cs) := fun acct => keeps_forEach fun c _ => keeps_list fun s u hu t => by
    dsimp only at hu
    split at hu
    · simp at hu
    · simp only [List.mem_singleton] at hu; rw [hu]; simp [reg]
  intro s
  unfold charge run
  cases c with
  | none => exact hattr 0 s
  | some n' =>
    dsimp only
    split
    · refine keeps_cons ?_ (keeps_cons ?_ (keeps_cons (hattr _) keeps_nil)) s
      · refine keeps_list fun s u hu t => ?_
        unfold debit at hu
        simp only [List.mem_append, List.mem_cons, List.not_mem_nil, or_false] at hu
        rcases hu with (h | h) | h
        · rw [h]; simp [reg, hwGet_hwSet_kind _ _ h1]
        · rw [h]; simp [reg, hwGet_hwSet_kind _ _ h2]
        · split at h
          · simp at h
          · simp only [List.mem_singleton] at h; rw [h]; simp [reg, hwGet_hwSet_kind _ _ h3]
      · refine keeps_list fun s u hu t => ?_
        unfold meterCount at hu
        simp only [List.mem_singleton] at hu; rw [hu]; simp [reg]
    · rfl

/-! ### Everything outside the warp -/

/-- Everything outside the issuer's warp that issuing leaves alone. -/
structure Quiet (s t : State) (x : Iss) : Prop where
  mem : t.mem = s.mem
  warps : ∀ k, k ≠ x.k → find t.warps k = find s.warps k
  hw : ∀ k n, k ≠ .cbal → k ≠ .cuse → k ≠ .tuse → reg t k n = reg s k n
  cores : t.cores = s.cores
  wgs : t.wgs = s.wgs
  launches : t.launches = s.launches
  queues : t.queues = s.queues
  ctxs : t.ctxs = s.ctxs
  stores : t.stores = s.stores
  arrivals : t.arrivals = s.arrivals
  fabric : t.fabric = s.fabric

theorem issued_hw (x : Iss) (price : List Chg) (s : State) (k : RegKind) (n : Nat) (h1 : k ≠ .cbal) (h2 : k ≠ .cuse) (h3 : k ≠ .tuse) :
    reg (x.issued price s) k n = reg s k n := by
  unfold Iss.issued
  refine keeps_cons (f := fun s => reg s k n) (keeps_upd fun s => by simp [reg]) (keeps_cons ?_ (keeps_cons ?_ (keeps_cons ?_
    (keeps_cons (keeps_modWarp (by simp [reg])) keeps_nil)))) s
  · split
    · exact keeps_skip
    · exact keeps_modCluster (by simp [reg])
  · unfold chargeW
    split
    · exact keeps_skip
    · exact charge_hw _ _ _ _ h1 h2 h3
  · split
    · exact fun s => by simp [run, reg]
    · exact keeps_skip
theorem issued_quiet (x : Iss) (price : List Chg) (s : State) (h : find s.warps x.k = some x.w) : Quiet s (x.issued price s) x where
  mem := issued_keeps (f := fun s => s.mem) (by simp) (by simp) (by simp) (by simp) (by simp) (by simp) _ _ _
  warps := fun k hk => by rw [issued_warps _ _ _ h]; simp [hk]
  hw := issued_hw x price s
  cores := issued_keeps (f := fun s => s.cores) (by simp) (by simp) (by simp) (by simp) (by simp) (by simp) _ _ _
  wgs := issued_keeps (f := fun s => s.wgs) (by simp) (by simp) (by simp) (by simp) (by simp) (by simp) _ _ _
  launches := issued_keeps (f := fun s => s.launches) (by simp) (by simp) (by simp) (by simp) (by simp) (by simp) _ _ _
  queues := issued_keeps (f := fun s => s.queues) (by simp) (by simp) (by simp) (by simp) (by simp) (by simp) _ _ _
  ctxs := issued_keeps (f := fun s => s.ctxs) (by simp) (by simp) (by simp) (by simp) (by simp) (by simp) _ _ _
  stores := issued_keeps (f := fun s => s.stores) (by simp) (by simp) (by simp) (by simp) (by simp) (by simp) _ _ _
  arrivals := issued_keeps (f := fun s => s.arrivals) (by simp) (by simp) (by simp) (by simp) (by simp) (by simp) _ _ _
  fabric := issued_keeps (f := fun s => s.fabric) (by simp) (by simp) (by simp) (by simp) (by simp) (by simp) _ _ _

/-- An instruction whose body changes its warp only: the next state's warp, and what stays. -/
theorem warp_does {i : Instr} {price : Iss → List Chg} {busy : Iss → State → Bool} {body : Iss → Nat → Action} {s : State} {x : Iss}
    (f : Warp → Warp) (h : Issues i busy s x) (hb : ∀ id t, run (body x id) t = run (modWarp x.k f) t) :
    ∃ t, issue i price busy body s = .next t ∧ warpOf t x = (if x.g != 0 then f (x.stepped s) else x.stepped s) ∧ Quiet s t x := by
  have hw := issOf_warp h.1
  have hi := issued_warps x (price x) s hw x.k
  rw [if_pos rfl] at hi
  have hq := issued_quiet x (price x) s hw
  refine ⟨_, issue_go h _ _, ?_⟩
  rw [run_go]
  by_cases hg : x.g != 0
  · rw [if_pos hg, if_pos hg, hb, run_modWarp _ _ _ _ hi]
    refine ⟨by simp [warpOf], ?_⟩
    constructor <;> try simp only [applyUpd_mem, applyUpd_cores, applyUpd_wgs, applyUpd_launches, applyUpd_queues, applyUpd_ctxs,
      applyUpd_stores, applyUpd_arrivals, applyUpd_fabric]
    · exact hq.mem
    · intro k hk; simp [hk, hq.warps k hk]
    · intro k n h1 h2 h3; rw [← hq.hw k n h1 h2 h3]; simp [reg]
    · exact hq.cores
    · exact hq.wgs
    · exact hq.launches
    · exact hq.queues
    · exact hq.ctxs
    · exact hq.stores
    · exact hq.arrivals
    · exact hq.fabric
  · rw [if_neg hg, if_neg hg]
    exact ⟨by simp [warpOf, hi], hq⟩

/-! ### Registers of the warp left -/

/-- What a change of a warp leaves alone (the first fields of `Leaves`). -/
structure WFrame (w u : Warp) (g : Mask) (keys : List Nat) (flags : Word) : Prop where
  len : u.lanes.length = w.lanes.length
  vary : ∀ j r, r < 256 → (r ∉ keys ∨ inMask g j = false) → (laneOf u j).rd r = (laneOf w j).rd r
  uni : ∀ r, r < 64 → 2048 + r ∉ keys → u.rdS r = w.rdS r
  aff : ∀ r, r < 32 → 1024 + r ∉ keys → u.rdA r = w.rdA r
  pred : ∀ j n, n < 12 → (3072 + n ∉ keys ∨ inMask g j = false) → (laneOf u j).p.getLsbD n = (laneOf w j).p.getLsbD n
  flag : ∀ j, (laneOf u j).flg &&& ~~~flags = (laneOf w j).flg &&& ~~~flags
  flagOff : ∀ j, inMask g j = false → (laneOf u j).flg = (laneOf w j).flg
  gen : ∀ j, (4096 ∉ keys ∨ inMask g j = false) → (laneOf u j).gs = (laneOf w j).gs

section
variable {w u v : Warp} {g : Mask} {keys : List Nat} {flags : Word}
theorem WFrame.refl (w : Warp) (g : Mask) (keys : List Nat) (flags : Word) : WFrame w w g keys flags :=
  ⟨rfl, fun _ _ _ _ => rfl, fun _ _ _ => rfl, fun _ _ _ => rfl, fun _ _ _ _ => rfl, fun _ => rfl, fun _ _ => rfl, fun _ _ => rfl⟩
theorem WFrame.trans (h : WFrame w u g keys flags) (k : WFrame u v g keys flags) : WFrame w v g keys flags where
  len := k.len.trans h.len
  vary := fun j r hr hk => (k.vary j r hr hk).trans (h.vary j r hr hk)
  uni := fun r hr hk => (k.uni r hr hk).trans (h.uni r hr hk)
  aff := fun r hr hk => (k.aff r hr hk).trans (h.aff r hr hk)
  pred := fun j r hr hk => (k.pred j r hr hk).trans (h.pred j r hr hk)
  flag := fun j => (k.flag j).trans (h.flag j)
  flagOff := fun j hj => (k.flagOff j hj).trans (h.flagOff j hj)
  gen := fun j hj => (k.gen j hj).trans (h.gen j hj)
/-- A change of the guard-true lanes. -/
theorem WFrame.lanes {f : Nat → Lane → Lane} (hv : ∀ i l r, r < 256 → r ∉ keys → (f i l).rd r = l.rd r)
    (hp : ∀ i l n, n < 12 → 3072 + n ∉ keys → (f i l).p.getLsbD n = l.p.getLsbD n)
    (hf : ∀ i l, (f i l).flg &&& ~~~flags = l.flg &&& ~~~flags) (hg : ∀ i l, 4096 ∉ keys → (f i l).gs = l.gs) :
    WFrame w (w.mapLanes g f) g keys flags := by
  have hin : ∀ j, laneOf (w.mapLanes g f) j = laneOf w j ∨ inMask g j = true ∧ laneOf (w.mapLanes g f) j = f j (laneOf w j) := by
    intro j
    by_cases hj : j < w.lanes.length
    · rw [laneOf_mapLanes _ _ _ _ hj]
      by_cases hm : inMask g j = true
      · rw [if_pos hm]; exact .inr ⟨hm, rfl⟩
      · rw [if_neg hm]; exact .inl rfl
    · rw [laneOf_absent _ _ (by simpa using hj), laneOf_absent w _ (by simpa using hj)]; exact .inl rfl
  constructor
  · simp
  · intro j r hr hk
    rcases hin j with e | ⟨hm, e⟩
    · rw [e]
    · rw [e, hv _ _ _ hr (by simpa [hm] using hk)]
  · intro r _ _; rfl
  · intro r _ _; rfl
  · intro j n hn hk
    rcases hin j with e | ⟨hm, e⟩
    · rw [e]
    · rw [e, hp _ _ _ hn (by simpa [hm] using hk)]
  · intro j
    rcases hin j with e | ⟨_, e⟩
    · rw [e]
    · rw [e, hf]
  · intro j hm
    rcases hin j with e | ⟨h, _⟩
    · rw [e]
    · simp [hm] at h
  · intro j hk
    rcases hin j with e | ⟨hm, e⟩
    · rw [e]
    · rw [e, hg _ _ (by simpa [hm] using hk)]
theorem orFlags_flag (l : Lane) (f : Nat) (h : wd f &&& ~~~flags = 0) : (l.orFlags f).flg &&& ~~~flags = l.flg &&& ~~~flags := by
  show (l.flg ||| wd f) &&& ~~~flags = _
  ext i hi
  have := congrArg (fun b : Word => b.getLsbD i) h
  simp only [BitVec.getLsbD_and, BitVec.getLsbD_not, hi, decide_true, Bool.true_and] at this
  simp only [← BitVec.getLsbD_eq_getElem]
  cases h1 : l.flg.getLsbD i <;> cases h2 : (wd f).getLsbD i <;> cases h3 : flags.getLsbD i <;> simp_all
theorem wrN_rd_out (l : Lane) (n : Nat) (v : BitVec 128) (k r : Nat) (h : ¬(n ≤ r ∧ r < n + k)) : (l.wrN n v k).rd r = l.rd r := by
  rw [rd_wrN, if_neg h]
/-- A result written. -/
theorem WFrame.write {x : Iss} {d : Opd} {n : Nat} {f : Nat → BitVec 128 × Nat} (hg : x.g = g)
    (hk : ∀ r, r ∈ spanKeys (d, n) → r ∈ keys) (hf : ∀ i, wd (f i).2 &&& ~~~flags = 0) : WFrame w (x.write w d n f) g keys flags := by
  subst hg
  unfold Iss.write
  split
  · next r =>
    refine WFrame.lanes ?_ ?_ ?_ ?_
    · intro i l m _ hm
      show (Lane.wrN l r.val (f i).1 n).rd m = l.rd m
      refine wrN_rd_out _ _ _ _ _ fun ⟨h1, h2⟩ => hm (hk m ?_)
      simp only [spanKeys, List.mem_map, List.mem_range]
      exact ⟨m - r.val, by omega, by omega⟩
    · intro i l m _ _
      show (Lane.wrN l r.val (f i).1 n).p.getLsbD m = _
      rw [wrN_eq]
    · intro i l
      rw [orFlags_flag _ _ (hf i), wrN_eq]
    · intro i l _
      show (Lane.wrN l r.val (f i).1 n).gs = _
      rw [wrN_eq]
  · next r =>
    refine WFrame.trans (u := w.wrSN r.val (f (lowest x.g)).1 n) ?_ (WFrame.lanes ?_ ?_ ?_ ?_)
    · rw [wrSN_eq]
      refine ⟨rfl, fun _ _ _ _ => rfl, ?_, fun _ _ _ => rfl, fun _ _ _ _ => rfl, fun _ => rfl, fun _ _ => rfl, fun _ _ => rfl⟩
      intro m _ hm
      have := rdS_wrSN w r.val m (f (lowest x.g)).1 n
      rw [if_neg] at this
      · exact this
      · rintro ⟨h1, h2⟩
        refine hm (hk _ ?_)
        simp only [spanKeys, List.mem_map, List.mem_range]
        exact ⟨m - r.val, by omega, by omega⟩
    · exact fun _ _ _ _ _ => rfl
    · exact fun _ _ _ _ _ => rfl
    · exact fun i l => orFlags_flag _ _ (hf _)
    · exact fun _ _ _ => rfl
  · exact WFrame.refl _ _ _ _
theorem setP_getLsbD (l : Lane) (n m : Nat) (b : Bool) (hm : m < 12) :
    (l.setP n b).p.getLsbD m = if m = n then b else l.p.getLsbD m := by
  unfold Lane.setP
  have hbit : (BitVec.ofNat 12 (2 ^ n)).getLsbD m = decide (m = n) := by
    simp only [BitVec.getLsbD_ofNat, hm, decide_true, Bool.true_and, Nat.testBit_two_pow]
    simp [eq_comm]
  cases b <;> simp only [if_true, Bool.false_eq_true, if_false, BitVec.getLsbD_and, BitVec.getLsbD_or, BitVec.getLsbD_not, hbit, hm,
    decide_true, Bool.true_and] <;> by_cases h : m = n <;> simp [h]
/-- A predicate written. -/
theorem WFrame.setPred {x : Iss} {d : Opd} {f : Nat → Bool} (hg : x.g = g) (hk : ∀ r, r ∈ spanKeys (d, 1) → r ∈ keys) :
    WFrame w (x.setPred d f w) g keys flags := by
  subst hg
  unfold Iss.setPred Lane.setPOpd
  cases d with
  | p n =>
    refine WFrame.lanes (fun i l r _ _ => ?_) (fun i l m hm hk' => ?_) (fun i l => ?_) (fun i l _ => ?_)
    · dsimp only [Lane.setP]; rfl
    · dsimp only
      rw [setP_getLsbD _ _ _ _ hm, if_neg]
      intro e; subst e; exact hk' (hk _ (by simp [spanKeys]))
    · dsimp only [Lane.setP]
    · dsimp only [Lane.setP]
  | _ =>
    exact WFrame.lanes (fun _ _ _ _ _ => rfl) (fun _ _ _ _ _ => rfl) (fun _ _ => rfl) (fun _ _ _ => rfl)
/-- An affine register written. -/
theorem WFrame.wrA {n : Nat} {v : Word × Word} (hk : 1024 + n ∈ keys) : WFrame w (w.wrA n v) g keys flags := by
  refine ⟨rfl, fun _ _ _ _ => rfl, fun _ _ _ => rfl, ?_, fun _ _ _ _ => rfl, fun _ => rfl, fun _ _ => rfl, fun _ _ => rfl⟩
  intro r _ hr
  rw [rdA_wrA, if_neg]
  intro e; subst e; exact hr hk
end

/-- Issuing leaves every register, predicate and flag. -/
theorem stepped_frame (x : Iss) (s : State) (keys : List Nat) (flags : Word) : WFrame x.w (x.stepped s) x.g keys flags := by
  have h := laneOf_stepped x s
  constructor
  · simp [Iss.stepped, Warp.advance, Iss.winsAfter]
  · intro j r _ _
    obtain ⟨l, e, hv, _⟩ := h j
    rw [e]; simp [Lane.rd, hv]
  · intro r _ _; rfl
  · intro r _ _; rfl
  · intro j n _ _
    obtain ⟨l, e, _, hp, _⟩ := h j
    rw [e, hp]
  · intro j
    obtain ⟨l, e, _, _, hf, _⟩ := h j
    rw [e, hf]
  · intro j _
    obtain ⟨l, e, _, _, hf, _⟩ := h j
    rw [e, hf]
  · intro j _
    obtain ⟨l, e, _, _, _, hg, _⟩ := h j
    rw [e, hg]
theorem leaves_of {s t : State} {x : Iss} {keys : List Nat} {flags : Word} (hq : Quiet s t x) (hw : WFrame x.w (warpOf t x) x.g keys flags) :
    Leaves s t x keys flags where
  left := {
    vary := hw.vary
    uni := hw.uni
    aff := hw.aff
    pred := hw.pred
    flag := hw.flag
    flagOff := hw.flagOff
    gen := hw.gen
    warps := hq.warps }
  right := {
    mem := fun _ a => by rw [hq.mem]
    hw := hq.hw
    cores := fun _ => hq.cores
    wgs := fun _ => hq.wgs
    launches := fun _ => hq.launches
    queues := fun _ => hq.queues
    ctxs := fun _ => hq.ctxs
    stores := fun _ => hq.stores
    arrivals := fun _ => hq.arrivals
    fabric := fun _ => hq.fabric }

/-! ### Values written -/

@[simp] theorem stepped_length (x : Iss) (s : State) : (x.stepped s).lanes.length = x.w.lanes.length :=
  (stepped_frame x s [] 0).len
theorem write_length (x : Iss) (w : Warp) (d : Opd) (n : Nat) (f : Nat → BitVec 128 × Nat) :
    (x.write w d n f).lanes.length = w.lanes.length := by
  unfold Iss.write
  split
  · simp
  · rw [mapLanes_length, wrSN_eq]
  · rfl
theorem setPred_length (x : Iss) (w : Warp) (d : Opd) (f : Nat → Bool) : (x.setPred d f w).lanes.length = w.lanes.length := by
  simp [Iss.setPred]
/-- The low word, or both, of a value written. -/
theorem number_words (rd : Nat → Word) (r : Nat) (wide : Bool) (v : DWord)
    (h : ∀ m, r ≤ m → m < r + wn wide → rd m = (v.setWidth 128).extractLsb' (32 * (m - r)) 32) :
    number rd r wide = v.toNat % 2 ^ bw wide := by
  cases wide with
  | false =>
    have h0 := h r (Nat.le_refl _) (by simp [wn])
    simp only [number, h0, bw, Nat.sub_self, Bool.false_eq_true, if_false]
    simp [BitVec.extractLsb'_toNat]
  | true =>
    have h0 := h r (Nat.le_refl _) (by simp [wn])
    have h1 := h (r + 1) (by omega) (by simp [wn])
    simp only [number, h0, h1, bw, if_true]
    simp only [BitVec.extractLsb'_toNat, BitVec.toNat_setWidth]
    have := v.isLt
    rw [show r - r = 0 by omega, show r + 1 - r = 1 by omega]
    simp only [Nat.mul_zero, Nat.mul_one, Nat.shiftRight_eq_div_pow]
    rw [Nat.mod_eq_of_lt (show v.toNat < 2 ^ 128 by omega), Nat.mod_eq_of_lt (show v.toNat < 2 ^ 64 by omega)]
    omega
/-- A result read back from its destination, when what follows leaves its registers. -/
theorem gets_write {t : State} {x : Iss} {d : Opd} {wide : Bool} {f : Nat → DWord × Nat} {w : Warp}
    (hl : w.lanes.length = x.w.lanes.length)
    (hv : ∀ r j, r < 257 → x.g ≠ 0 → (laneIn t x j).rd r = (laneOf (x.write w d (wn wide) fun i => ((f i).1.setWidth 128, (f i).2)) j).rd r)
    (hs : ∀ r, r < 65 → x.g ≠ 0 → (warpOf t x).rdS r = (x.write w d (wn wide) fun i => ((f i).1.setWidth 128, (f i).2)).rdS r) :
    Gets t x d wide fun j => ((f j).1.toNat : Int) := by
  unfold Gets
  cases d with
  | v r =>
    dsimp only
    intro j hj
    have hg := on_guard hj
    rw [number_words _ _ _ (f j).1]
    · push_cast; rfl
    · intro m h1 h2
      have hb : m < 257 := by have := r.isLt; cases wide <;> simp [wn] at h2 <;> omega
      rw [hv m j hb hg]
      simp only [Iss.write]
      rw [laneOf_mapLanes _ _ _ _ (by rw [hl]; exact hj.1), if_pos hj.2]
      show (Lane.wrN _ _ _ _).rd m = _
      rw [rd_wrN, if_pos ⟨h1, h2⟩]
  | s r =>
    dsimp only
    intro hg
    rw [number_words _ _ _ (f (lowest x.g)).1]
    · push_cast; rfl
    · intro m h1 h2
      have hb : m < 65 := by have := r.isLt; cases wide <;> simp [wn] at h2 <;> omega
      rw [hs m hb hg]
      show (Warp.wrSN _ _ _ _).rdS m = _
      rw [rdS_wrSN, if_pos ⟨h1, h2⟩]
  | _ => trivial
/-- The same where the result is the last thing written. -/
theorem gets_last {t : State} {x : Iss} {d : Opd} {wide : Bool} {f : Nat → DWord × Nat} {s : State}
    (h : warpOf t x = if x.g != 0 then x.write (x.stepped s) d (wn wide) (fun i => ((f i).1.setWidth 128, (f i).2)) else x.stepped s) :
    Gets t x d wide fun j => ((f j).1.toNat : Int) := by
  refine gets_write (w := x.stepped s) (by simp) ?_ ?_ <;> intros <;> simp_all [laneIn]
theorem gets_congr {t : State} {x : Iss} {d : Opd} {wide : Bool} {f g : Nat → Int} (h : Gets t x d wide f)
    (e : ∀ j, f j % 2 ^ bw wide = g j % 2 ^ bw wide) : Gets t x d wide g := by
  unfold Gets at *
  split <;> simp_all
theorem modW_toNat (ty : ITy) (x : Int) : ((modW ty x).toNat : Int) = x % 2 ^ bw ty.wide := by
  have hb : tyBits ty = bw ty.wide := rfl
  have hp : (0 : Int) < 2 ^ bw ty.wide := by cases ty.wide <;> simp [bw]
  have h0 := Int.emod_nonneg x (ne_of_gt hp)
  have h1 := Int.emod_lt_of_pos x hp
  have hle : (2 : Int) ^ bw ty.wide ≤ 2 ^ 64 := by cases ty.wide <;> simp [bw]
  unfold modW
  rw [hb, BitVec.toNat_ofNat, Nat.mod_eq_of_lt (by omega)]
  omega
@[simp] theorem modW_mod (ty : ITy) (x : Int) : ((modW ty x).toNat : Int) % 2 ^ bw ty.wide = x % 2 ^ bw ty.wide := by
  rw [modW_toNat, Int.emod_emod_of_dvd _ (dvd_refl _)]

/-! ### The shapes of register instructions -/

theorem does_imp {i : Instr} {busy : Iss → State → Bool} {P Q : State → Iss → State → Prop} (h : Does i busy P)
    (hpq : ∀ s x t, P s x t → Q s x t) : Does i busy Q := by
  intro s x hi
  obtain ⟨t, ht, hp⟩ := h s x hi
  exact ⟨t, ht, hpq s x t hp⟩
/-- A register instruction that changes its warp by `f`. -/
theorem does_reg {i : Instr} {price : Iss → List Chg} {body : Iss → Nat → Action} (f : Iss → Warp → Warp)
    (he : exec i = issue i price never body) (hb : ∀ x id t, run (body x id) t = run (modWarp x.k (f x)) t)
    {keys : List Nat} {flags : Word} (hf : ∀ x w, WFrame w (f x w) x.g keys flags) :
    Does i never fun s x t => (warpOf t x = if x.g != 0 then f x (x.stepped s) else x.stepped s) ∧ Leaves s t x keys flags := by
  intro s x h
  rw [he]
  obtain ⟨t, ht, hw, hq⟩ := warp_does (f x) h (hb x)
  refine ⟨t, ht, hw, leaves_of hq ?_⟩
  rw [hw]
  split
  · exact (stepped_frame x s keys flags).trans (hf x _)
  · exact stepped_frame x s keys flags
/-- One result without flags. -/
theorem does_D {i : Instr} {d : Opd} {wide : Bool} {f : Iss → Nat → DWord} (he : exec i = issueD i d wide f) :
    Does i never fun s x t => Gets t x d wide (fun j => (f x j).toNat) ∧ Leaves s t x (spanKeys (d, wn wide)) 0 := by
  have h := does_reg (i := i) (price := fun x => x.price (dstPrice d 3)) (body := fun x _ => modWarp x.k fun w => x.writeD w d wide (f x))
    (fun x w => x.writeD w d wide (f x)) he (fun _ _ _ => rfl) (keys := spanKeys (d, wn wide)) (flags := 0)
    (fun x w => WFrame.write rfl (fun _ h => h) (fun _ => by simp [wd]))
  exact does_imp h fun s x t ⟨hw, hl⟩ => ⟨gets_last (f := fun j => (f x j, 0)) hw, hl⟩
/-- A result of an affine-preserving pattern whose destination is not affine. -/
theorem does_aff {i : Instr} {d : Opd} {op : AffOp} {sg : Bool} {a b : Iss → Word × Word} {wide : Bool} {f : Iss → Nat → DWord}
    (he : exec i = issueAff i d op sg a b wide f) (hd : isAff d = false) :
    Does i never fun s x t => Gets t x d wide (fun j => (f x j).toNat) ∧ Leaves s t x (spanKeys (d, wn wide)) 0 := by
  have h := does_reg (i := i) (fun x w => x.writeD w d wide (f x)) he (fun _ _ _ => by simp only [hd]; rfl)
    (keys := spanKeys (d, wn wide)) (flags := 0) (fun x w => WFrame.write rfl (fun _ h => h) (fun _ => by simp [wd]))
  exact does_imp h fun s x t ⟨hw, hl⟩ => ⟨gets_last (f := fun j => (f x j, 0)) hw, hl⟩
theorem lowest_guard {x : Iss} (h : x.g ≠ 0) : inMask x.g (lowest x.g) = true := by
  unfold lowest
  cases hl : lanesOf x.g with
  | nil =>
    exfalso; apply h
    ext k hk
    have : k ∉ lanesOf x.g := by simp [hl]
    rw [mem_lanesOf] at this
    simpa [inMask, hk, BitVec.getLsbD_eq_getElem hk] using this
  | cons a l =>
    have : a ∈ lanesOf x.g := by simp [hl]
    exact (mem_lanesOf.mp this).2
/-- Results equal where the instruction acts are equal results. -/
theorem gets_on {t : State} {x : Iss} {d : Opd} {wide : Bool} {f g : Nat → Int} (h : Gets t x d wide f)
    (e : ∀ j, inMask x.g j = true → f j % 2 ^ bw wide = g j % 2 ^ bw wide) : Gets t x d wide g := by
  unfold Gets at *
  split
  · intro j hj; rw [← e j hj.2]; exact h j hj
  · intro hg; rw [← e _ (lowest_guard hg)]; exact h hg
  · trivial
/-- The flags a result sets, when the last thing written to its lanes. -/
theorem flags_last {t : State} {x : Iss} {d : Opd} {n : Nat} {f : Nat → BitVec 128 × Nat} {s : State}
    (h : warpOf t x = if x.g != 0 then x.write (x.stepped s) d n f else x.stepped s) :
    Flags t x d fun j => (f j).2 := by
  intro j hj
  have hg := on_guard hj
  have hl := (stepped_length x s)
  obtain ⟨l, e, -, -, hf, -⟩ := laneOf_stepped x s j
  have hlen : j < (x.stepped s).lanes.length := by rw [hl]; exact hj.1
  unfold laneIn
  rw [h, if_pos (by simpa using hg)]
  unfold Iss.write
  cases d with
  | v r =>
    simp only
    rw [laneOf_mapLanes _ _ _ _ hlen, if_pos hj.2, wrN_eq]
    simp [Lane.orFlags, e, hf]
  | s r =>
    simp only
    rw [laneOf_mapLanes _ _ _ _ (by rw [wrSN_eq]; exact hlen), if_pos hj.2]
    have : laneOf ((x.stepped s).wrSN r.val (f (lowest x.g)).1 n) j = laneOf (x.stepped s) j := by rw [wrSN_eq]; rfl
    simp [Lane.orFlags, this, e, hf]
  | _ => simp [e, hf, wd]
/-- A predicate read back when it is the last thing written. -/
theorem pred_last {t : State} {x : Iss} {d : Opd} {f : Nat → Bool} {s : State} {u : Warp} (hu : u.lanes.length = x.w.lanes.length)
    (h : warpOf t x = if x.g != 0 then x.setPred d f u else x.stepped s) : GetsPred t x d f := by
  unfold GetsPred
  cases d with
  | p n =>
    intro j hj
    unfold laneIn
    rw [h, if_pos (by simpa using on_guard hj)]
    unfold Iss.setPred
    rw [laneOf_mapLanes _ _ _ _ (by rw [hu]; exact hj.1), if_pos hj.2]
    simp only [Lane.setPOpd]
    rw [setP_getLsbD _ _ _ _ n.isLt, if_pos rfl]
  | _ => trivial

end Sys2Proof.Machine
end

