-- ==== Sys2Proof/Tests/Slice0.lean ====
section
/-! SUPPORT. Tests of the model, one step each on small states, with results worked out by hand from the rules named; and, for every obligation
with hypotheses, states that meet them. -/
namespace Sys2Proof.Tests
open Sys2Proof Sys2Proof.Machine Sys2Proof.Safety
set_option Elab.async false

/-! ### Helpers -/

def c0 : Ctl := ⟨false, .pt, 0, 0, false, false, 0⟩
/-- Format F5 with two sources, format RI. -/
def f2 (d a b : Opd) : O5 := ⟨d, a, b, .none, .none⟩
def ri (d a : Opd) (v : BitVec 32) : ORI := ⟨d, a, v⟩
/-- v1 is 7, v2 is 2^32 - 1, v3 is 2^31, v4 and v5 are 1.0 and 2.0 in FP32, v6 a NaN; in each lane v8 is the lane's number. p0 holds. -/
def lane0 (j : Nat) : Lane :=
  { placeLane with v := [(1, 7), (2, 0xFFFFFFFF), (3, 0x80000000), (4, 0x3F800000), (5, 0x40000000), (6, 0x7FC00000)] ++ (if j = 0 then [] else [(8, wd j)])
                   p := 1, gs := 1 }
/-- s0 is 5, s1 is 2^31, the pairs s2, s4 and s6 addresses 0x50000, 0x40000 (of the block) and 0x51000; a0 is (10, 4), a1 is (3, 0), a3 is (0, 4). -/
def warp0 : Warp :=
  { placeWarp with lanes := (List.range 16).map lane0, s := [(0, 5), (1, 0x80000000), (2, 0x50000), (4, 0x40000), (6, 0x51000)], a := [(0, (10, 4)), (1, (3, 0)), (3, (0, 4))] }
def cur0 : Cur := ⟨0, 0xFFFF, dw (placeBlock + 4), 1, false, false, false⟩
/-- One launched warp of sixteen threads whose group is about to issue. -/
def s0 : State := { State.reset.withFetchWord 96 0 with warps := [(0, warp0)], cur := some cur0 }
def after (i : Instr) (s : State) : State := match exec i s with
  | .next t => t
  | _ => s
/-- A register after an instruction; a varying one or a predicate in lane 1. -/
def got (t : State) (d : Opd) : Nat :=
  let w := (find t.warps 0).getD warp0
  match d with
  | .v n => ((laneOf w 1).rd n.val).toNat
  | .s n => (w.rdS n.val).toNat
  | .p n => b2n ((laneOf w 1).p.getLsbD n.val)
  | .a n => (w.rdA n.val).1.toNat + 2 ^ 32 * (w.rdA n.val).2.toNat
  | .none => (laneOf w 1).flg.toNat
  | _ => 0
def gives (e : Instr × Opd × Nat) : Bool := WellFormed e.1 && got (after e.1 s0) e.2.1 == e.2.2
/-- The instruction issues, and more holds of it. -/
def issuesWith (i : Instr) (busy : Iss → State → Bool) (s : State) (p : Iss → Bool) : Bool := match issOf s i with
  | none => false
  | some x => gate s x (x.g != 0 && busy x s) == .go && x.g != 0 && p x
theorem issues_with {i : Instr} {busy : Iss → State → Bool} {s : State} {p : Iss → Bool} (h : issuesWith i busy s p = true) :
    ∃ x, Issues i busy s x ∧ x.g ≠ 0 ∧ p x = true := by
  unfold issuesWith at h
  split at h
  · simp at h
  · next x e => simp only [Bool.and_eq_true, beq_iff_eq, bne_iff_ne] at h; exact ⟨x, ⟨e, h.1.1⟩, h.1.2, h.2⟩
/-- The instruction issues, with a guard-true thread. -/
def issuesB (i : Instr) (busy : Iss → State → Bool) (s : State) : Bool := match issOf s i with
  | none => false
  | some x => gate s x (x.g != 0 && busy x s) == .go && x.g != 0
theorem issues_of {i : Instr} {busy : Iss → State → Bool} {s : State} (h : issuesB i busy s = true) : ∃ x, Issues i busy s x ∧ x.g ≠ 0 := by
  unfold issuesB at h
  split at h
  · simp at h
  · next x e => simp only [Bool.and_eq_true, beq_iff_eq, bne_iff_ne] at h; exact ⟨x, ⟨e, h.1⟩, h.2⟩
theorem issues_all {l : List Instr} {busy : Iss → State → Bool} {s : State} (h : l.all (issuesB · busy s) = true) :
    ∀ i ∈ l, ∃ x, Issues i busy s x ∧ x.g ≠ 0 := fun i hi => issues_of (List.all_eq_true.mp h i hi)

/-! ### Integers (R125 to R135) -/

def intOps : List (Instr × Opd × Nat) := [
  (.add c0 .n32 (f2 (.v 10) (.v 1) (.v 2)), .v 10, 6),
  (.add c0 .n32 ⟨.v 10, .v 1, .v 2, .none, .p 3⟩, .p 3, 1),
  (.sub c0 .i32 (f2 (.v 10) (.v 1) (.v 2)), .v 10, 8),
  (.addRi c0 .i32 (ri (.v 10) (.v 1) 0xFFFFFFFE), .v 10, 5),
  (.subRi c0 .i32 (ri (.v 10) (.v 1) 9), .v 10, 0xFFFFFFFE),
  (.addSat c0 .i32 (f2 (.v 10) (.v 3) (.v 2)), .v 10, 0x80000000),
  (.subSat c0 .n32 (f2 (.v 10) (.v 1) (.v 2)), .v 10, 0),
  (.mulLo c0 .i32 (f2 (.v 10) (.v 1) (.v 2)), .v 10, 0xFFFFFFF9),
  (.mulLoRi c0 .i32 (ri (.v 10) (.v 1) 6), .v 10, 42),
  (.mulHi c0 .i32 (f2 (.v 10) (.v 3) (.v 1)), .v 10, 0xFFFFFFFC),
  (.mulWide c0 .n32 (f2 (.v 10) (.v 2) (.v 2)), .v 11, 0xFFFFFFFE),
  (.madLo c0 .n32 ⟨.v 10, .v 1, .v 1, .v 2, .none⟩, .v 10, 48),
  (.madWide c0 .n32 ⟨.v 10, .v 1, .v 1, .v 2, .none⟩, .v 11, 0x80000001),
  (.min c0 .i32 (f2 (.v 10) (.v 1) (.v 2)), .v 10, 0xFFFFFFFF),
  (.max c0 .i32 (f2 (.v 10) (.v 1) (.v 2)), .v 10, 7),
  (.minRi c0 .n32 (ri (.v 10) (.v 2) 3), .v 10, 3),
  (.maxRi c0 .i32 (ri (.v 10) (.v 2) 0), .v 10, 0),
  (.neg c0 .i32 (f2 (.v 10) (.v 1) .none), .v 10, 0xFFFFFFF9),
  (.abs c0 .i32 (f2 (.v 10) (.v 3) .none), .v 10, 0x80000000),
  (.absSat c0 .i32 (f2 (.v 10) (.v 3) .none), .v 10, 0x7FFFFFFF)]
theorem test_integers : intOps.all gives = true := by decide +kernel
/-- R112, R126: the clamp sets SAT. -/
theorem test_sat_flag : got (after (.addSat c0 .i32 (f2 (.v 10) (.v 3) (.v 2))) s0) .none = iSAT := by decide +kernel
theorem witness_integers : ∀ i ∈ intOps.map (·.1), ∃ x, Issues i never s0 x ∧ x.g ≠ 0 := issues_all (by decide +kernel)

def bitOps : List (Instr × Opd × Nat) := [
  (.lcomb c0 8 0 (f2 (.v 10) (.v 1) (.v 8)), .v 10, 1),
  (.andRi c0 (ri (.v 10) (.v 1) 5), .v 10, 5),
  (.orRi c0 (ri (.v 10) (.v 1) 8), .v 10, 15),
  (.xorRi c0 (ri (.v 10) (.v 1) 2), .v 10, 5),
  (.shl c0 .n32 (f2 (.v 10) (.v 1) (.imm 31)), .v 10, 0x80000000),
  (.shl c0 .n32 (f2 (.v 10) (.v 1) (.imm 32)), .v 10, 0),
  (.shr c0 .n32 (f2 (.v 10) (.v 3) (.imm 31)), .v 10, 1),
  (.sar c0 .i32 (f2 (.v 10) (.v 3) (.imm 40)), .v 10, 0xFFFFFFFF),
  (.bfe c0 .i32 ⟨.v 10, .v 1, .imm 1, .imm 2, .none⟩, .v 10, 0xFFFFFFFF),
  (.bfi c0 ⟨.v 10, .v 1, .v 2, .imm 4, .imm 4⟩, .v 10, 0xF7),
  (.popc c0 true (f2 (.v 10) (.v 2) .none), .v 10, 33),
  (.clz c0 false (f2 (.v 10) (.v 1) .none), .v 10, 29),
  (.ctz c0 true (f2 (.v 10) (.v 12) .none), .v 10, 64),
  (.brev c0 false (f2 (.v 10) (.v 3) .none), .v 10, 1)]
theorem test_bits : bitOps.all gives = true := by decide +kernel
theorem witness_bits : ∀ i ∈ bitOps.map (·.1), ∃ x, Issues i never s0 x ∧ x.g ≠ 0 := issues_all (by decide +kernel)

/-! ### Moves, lanes and predicates (R136 to R145) -/

def moveOps : List (Instr × Opd × Nat) := [
  (.nop c0 (f2 .none .none .none), .v 1, 7),
  (.sel c0 false ⟨.v 10, .v 1, .v 2, .p 1, .none⟩, .v 10, 0xFFFFFFFF),
  (.mov c0 true (f2 (.v 10) (.v 2) .none), .v 11, 0x80000000),
  (.movRi c0 (ri (.s 10) .none 0x1234), .s 10, 0x1234),
  (.matl c0 (f2 (.v 10) (.a 0) .none), .v 10, 14),
  (.bcst c0 (f2 (.v 10) (.s 0) .none), .v 10, 5),
  (.bcstRi c0 (ri (.v 10) .none 9), .v 10, 9),
  (.agetBase c0 (f2 (.s 10) (.a 0) .none), .s 10, 10),
  (.agetStride c0 (f2 (.s 10) (.a 0) .none), .s 10, 4),
  (.rdlane c0 ⟨.s 10, .v 8, .imm 3, .imm 0, .none⟩, .s 10, 3),
  (.rdlane c0 ⟨.s 10, .v 8, .imm 16, .imm 9, .p 3⟩, .s 10, 9),
  (.lanexSel c0 false ⟨.v 10, .v 8, .v 1, .imm 0, .none⟩, .v 10, 7),
  (.lanexPat c0 false ⟨.v 10, .v 8, .imm 1, .imm 0, .none⟩, .v 10, 0),
  (.vote c0 .cnt (f2 (.s 10) (.p 0) .none), .s 10, 16),
  (.vote c0 .first (f2 (.s 10) (.p 1) .none), .s 10, 16),
  (.cmp c0 .i32 .lt .none ⟨.p 3, .v 2, .v 1, .none, .p 4⟩, .p 3, 1),
  (.cmp c0 .n32 .lt .none ⟨.p 3, .v 2, .v 1, .none, .p 4⟩, .p 4, 1),
  (.cmpRi c0 .i32 .ge (ri (.p 3) (.v 1) 7), .p 3, 1),
  (.pcomb c0 6 0 ⟨.p 3, .p 0, .p 1, .none, .pt⟩, .p 3, 1)]
theorem test_moves : moveOps.all gives = true := by decide +kernel
theorem witness_moves : ∀ i ∈ moveOps.map (·.1), ∃ x, Issues i never s0 x ∧ x.g ≠ 0 := issues_all (by decide +kernel)

/-! ### Affine forms (R116, R137, R140) -/

def affOps : List (Instr × Opd × Nat) := [
  (.add c0 .i32 (f2 (.a 2) (.a 0) (.a 1)), .a 2, 13 + 2 ^ 32 * 4),
  (.sub c0 .i32 (f2 (.a 2) (.a 0) (.a 1)), .a 2, 7 + 2 ^ 32 * 4),
  (.addRi c0 .i32 (ri (.a 2) (.a 0) 5), .a 2, 15 + 2 ^ 32 * 4),
  (.subRi c0 .i32 (ri (.a 2) (.a 0) 1), .a 2, 9 + 2 ^ 32 * 4),
  (.mulLo c0 .i32 (f2 (.a 2) (.a 0) (.s 0)), .a 2, 50 + 2 ^ 32 * 20),
  (.mulLoRi c0 .i32 (ri (.a 2) (.a 0) 3), .a 2, 30 + 2 ^ 32 * 12),
  (.lea c0 2 false (f2 (.a 2) (.s 0) (.a 0)), .a 2, 45 + 2 ^ 32 * 16),
  (.lea c0 2 false (f2 (.v 10) (.v 1) (.a 0)), .v 10, 63),
  (.shl c0 .i32 (f2 (.a 2) (.a 0) (.imm 1)), .a 2, 20 + 2 ^ 32 * 8),
  (.mov c0 false (f2 (.a 2) (.a 0) .none), .a 2, 10 + 2 ^ 32 * 4),
  (.movAS c0 (f2 (.a 2) (.s 0) .none), .a 2, 5),
  (.amk c0 (f2 (.a 2) (.s 0) (.imm 2)), .a 2, 5 + 2 ^ 32 * 2)]
theorem test_affine : affOps.all gives = true := by decide +kernel
/-- R117: 2^31 - 2 + 4 x 15 leaves the signed range, so AOV is set. -/
theorem test_affine_overflow : got (after (.addRi c0 .i32 (ri (.a 2) (.a 0) 0x7FFFFFF0)) s0) .none ≠ 0 := by decide +kernel
theorem witness_affine : ∀ i ∈ affOps.map (·.1), ∃ x, Issues i never s0 x ∧ x.g ≠ 0 := issues_all (by decide +kernel)

/-! ### Flags and the generator (R104, R130, R158, R166) -/

/-- The same machine with every sticky flag set. -/
def sFlg : State := { s0 with warps := [(0, warp0.mapLanes 0xFFFF fun _ l => { l with flg := 0x1FF })] }
theorem test_flags_read_clear : got (after (.flgiRd c0 (f2 (.v 10) .none .none)) sFlg) (.v 10) = 0x1E0 ∧
    got (after (.fflgRd c0 (f2 (.v 10) .none .none)) sFlg) (.v 10) = 0x1F ∧
    got (after (.flgiClr c0 0b0001 (f2 .none .none .none)) sFlg) .none = 0x1DF ∧
    got (after (.fflgClr c0 0b11111 (f2 .none .none .none)) sFlg) .none = 0x1E0 := by decide +kernel
def rngOps : List (Instr × Opd × Nat) := [
  (.rngRd c0 (f2 (.v 10) .none .none), .v 10, 1),
  (.rngSeed c0 (f2 .none (.v 2) .none), .v 1, 7),
  (.rngNext c0 (f2 (.v 10) .none .none), .v 10, 0x910A2DEC)]
/-- The last is the first draw from state 1 by R104's formula. -/
theorem test_generator : rngOps.all gives = true := by decide +kernel
theorem witness_flags : ∀ i ∈ [Instr.flgiRd c0 (f2 (.v 10) .none .none), .fflgRd c0 (f2 (.v 10) .none .none), .flgiClr c0 1 (f2 .none .none .none),
    .fflgClr c0 1 (f2 .none .none .none)] ++ rngOps.map (·.1), ∃ x, Issues i never s0 x ∧ x.g ≠ 0 := issues_all (by decide +kernel)

/-! ### Floating point (R150 to R165) -/

def floatOps : List (Instr × Opd × Nat) := [
  (.fadd c0 .f32 (f2 (.v 10) (.v 4) (.v 5)), .v 10, 0x40400000),
  (.faddRi c0 .f32 (ri (.v 10) (.v 4) 0x3F800000), .v 10, 0x40000000),
  (.fsub c0 .f32 (f2 (.v 10) (.v 4) (.v 4)), .v 10, 0),
  (.fsubRi c0 .f32 (ri (.v 10) (.v 4) 0x40000000), .v 10, 0xBF800000),
  (.fmul c0 .f32 (f2 (.v 10) (.v 5) (.v 5)), .v 10, 0x40800000),
  (.fmulRi c0 .f32 (ri (.v 10) (.v 4) 0xBF800000), .v 10, 0xBF800000),
  (.fma c0 .f32 ⟨.v 10, .v 5, .v 5, .v 4, .none⟩, .v 10, 0x40A00000),
  (.fms c0 .f32 ⟨.v 10, .v 5, .v 5, .v 4, .none⟩, .v 10, 0x40400000),
  (.fnma c0 .f32 ⟨.v 10, .v 5, .v 5, .v 4, .none⟩, .v 10, 0xC0400000),
  (.fmin c0 .f32 (f2 (.v 10) (.v 4) (.v 6)), .v 10, 0x3F800000),
  (.fmax c0 .f32 (f2 (.v 10) (.v 4) (.v 5)), .v 10, 0x40000000),
  (.fmed3 c0 .f32 ⟨.v 10, .v 4, .v 5, .v 12, .none⟩, .v 10, 0x3F800000),
  (.fclamp c0 .f32 ⟨.v 10, .v 5, .v 12, .v 4, .none⟩, .v 10, 0x3F800000),
  (.fabs c0 .f16x2 (f2 (.v 10) (.v 2) .none), .v 10, 0x7FFF7FFF),
  (.fneg c0 .f32 (f2 (.v 10) (.v 4) .none), .v 10, 0xBF800000),
  (.fcmp c0 .f32 .lt .none ⟨.p 3, .v 4, .v 5, .none, .p 4⟩, .p 3, 1),
  (.fcmp c0 .f32 .uno .none ⟨.p 3, .v 4, .v 6, .none, .p 4⟩, .p 3, 1)]
theorem test_floats : floatOps.all gives = true := by decide +kernel
/-- R150: adding 2^-24 to 1.0 in FP32 is a tie, which goes to even, and is inexact. -/
theorem test_float_tie : got (after (.faddRi c0 .f32 (ri (.v 10) (.v 4) 0x33800000)) s0) (.v 10) = 0x3F800000 ∧
    got (after (.faddRi c0 .f32 (ri (.v 10) (.v 4) 0x33800000)) s0) .none = fNX := by decide +kernel
theorem witness_floats : ∀ i ∈ floatOps.map (·.1), ∃ x, Issues i never s0 x ∧ x.g ≠ 0 := issues_all (by decide +kernel)

def cvtOps : List (Instr × Opd × Nat) := [
  (.cvtF32 c0 .i32 .rne false (f2 (.v 10) (.v 2) .none), .v 10, 0xBF800000),
  (.cvtF16 c0 .f32 .rne false (f2 (.v 10) (.v 4) .none), .v 10, 0x3C00),
  (.cvtBf16 c0 .f32 .rne false (f2 (.v 10) (.v 4) (.v 5)), .v 10, 0x40003F80),
  (.cvtE4m3 c0 .f32 .rne false (f2 (.v 10) (.v 4) .none), .v 10, 0x38),
  (.cvtE5m2 c0 .f32 .rne false (f2 (.v 10) (.v 4) .none), .v 10, 0x3C),
  (.cvtI32 c0 .f32 .rz false (f2 (.v 10) (.v 5) .none), .v 10, 2),
  (.cvtN32 c0 .f32 .rz false (f2 (.v 10) (.v 5) .none), .v 10, 2),
  (.cvtI64 c0 .i32 .rne false (f2 (.v 10) (.v 3) .none), .v 11, 0xFFFFFFFF),
  (.cvtN64 c0 .n32 .rne false (f2 (.v 10) (.v 3) .none), .v 10, 0x80000000)]
theorem test_conversions : cvtOps.all gives = true := by decide +kernel
theorem witness_conversions : ∀ i ∈ cvtOps.map (·.1), ∃ x, Issues i never s0 x ∧ x.g ≠ 0 := issues_all (by decide +kernel)

/-- Slot 0 is FP16, slot 1 blocks of Q16N; v20 to v22 hold the codes, the scale code and S of R165's example. -/
def sFmt : State := { s0 with
  launches := [(0, { placeLaunch with lr := { placeRec with fmtv := 3, fmts := [1, 0x10B] } })]
  warps := [(0, warp0.mapLanes 0xFFFF fun _ l => ((l.wr 20 0xE3).wr 21 0xC0).wr 22 0x3DCCCCCD)] }
/-- The value that the newest unfinished instruction holds for lane 1. -/
def held1 (t : State) : Nat := match (find t.warps 0).bind (·.outs.getLast?) with
  | some o => (nth o.res.vals 1 0).toNat
  | none => 0
theorem test_slots : held1 (after (.cvtfTo c0 .rne false false (f2 (.v 10) (.v 4) .none)) sFmt) = 0x3C00 ∧
    held1 (after (.cvtfFrom c0 .rne false false (f2 (.v 10) (.v 20) (.imm 0))) sFmt) = 0x37630000 ∧
    held1 (after (.bsdec { c0 with fmt := 1 } 0 ⟨.v 10, .v 20, .v 21, .v 22, .none⟩) sFmt) = 0x3D66BCE6 := by decide +kernel
theorem witness_slots : issuesWith (.cvtfTo c0 .rne false false (f2 (.v 10) (.v 4) .none)) never sFmt (fun x => slotDesc sFmt x.w 0 == some 1 && !cvtfBad 1) = true ∧
    issuesWith (.cvtfFrom c0 .rne false false (f2 (.v 10) (.v 20) (.imm 0))) never sFmt
      (fun x => slotDesc sFmt x.w 0 == some 1 && !cvtfBad 1 && decide (selOf (.imm 0) < 32 / WF.srcBits (efSrc (dEf 1)))) = true ∧
    issuesWith (.bsdec { c0 with fmt := 1 } 0 ⟨.v 10, .v 20, .v 21, .v 22, .none⟩) never sFmt (fun x => slotDesc sFmt x.w 1 == some 0x10B && !bsdecBad 0 0x10B) = true := by
  decide +kernel

/-! ### Long-latency results (R69, R114, R129, R168, R169) -/

def longOps : List (Instr × Nat) := [
  (.div c0 .i32 (f2 (.v 10) (.v 3) (.v 1)), 0xEDB6DB6E),
  (.rem c0 .n32 (f2 (.v 10) (.v 2) (.v 1)), 3),
  (.frcp c0 .f32 (f2 (.v 10) (.v 5) .none), 0x3F000000),
  (.fsqrt c0 .f32 (f2 (.v 10) (.v 4) .none), 0x3F800000),
  (.fex2 c0 .f32 (f2 (.v 10) (.v 4) .none), 0x40000000),
  (.flg2 c0 .f32 (f2 (.v 10) (.v 5) .none), 0x3F800000),
  (.fdiv c0 .f32 (f2 (.v 10) (.v 4) (.v 5)), 0x3F000000)]
theorem test_long : longOps.all (fun e => WellFormed e.1 && held1 (after e.1 s0) == e.2) = true := by decide +kernel
theorem witness_long : ∀ i ∈ longOps.map (·.1) ++ [.frsq c0 .f32 (f2 (.v 10) (.v 4) .none), .fsinpi c0 .f32 (f2 (.v 10) (.v 4) .none),
    .fcospi c0 .f32 (f2 (.v 10) (.v 4) .none), .ftanh c0 .f32 (f2 (.v 10) (.v 4) .none)], ∃ x, Issues i never s0 x ∧ x.g ≠ 0 :=
  issues_all (by decide +kernel)
def accRdI : Instr := .accRd c0 (f2 (.v 10) (.imm 2) (.imm 0))
/-- A quotient and an accumulator read that are to complete, each of 16 lanes. -/
def sDiv : State := after (.div c0 .i32 (f2 (.v 10) (.v 3) (.v 1))) s0
def sAccRd : State := after accRdI s0
def outOf (s : State) (wk : Nat) : Option Outst := (find s.warps wk).bind (·.outs.getLast?)
theorem test_complete : got (after (.longLatencyComplete 0 s0.nextId) sDiv) (.v 10) = 0xEDB6DB6E := by decide +kernel
theorem witness_complete : (match outOf sDiv 0 with
    | some o => o.id == s0.nextId && o.res.n == 1 && o.kind == .alu && !o.res.dz
    | none => false) = true ∧ (match outOf sAccRd 0 with
    | some o => o.id == s0.nextId && o.kind == .accRd 2 0 && o.res.dst == .v 10 && !passesOn sAccRd 0 2 o.age
    | none => false) = true := by decide +kernel

/-! ### Memory (R206 to R256) -/

/-- Words 100 to 131 at address 0x50000, and a group of the threads of lanes 1 and 2. -/
def sMem : State := { s0 with cur := some { cur0 with mask := 6 }, mem := placeBytes s0.mem 0x50000 ((List.range 32).flatMap fun i => le 4 (100 + i)) }
def om (d : Opd) : OM := ⟨d, .a 3, 2, 0⟩
/-- Every thread's access passes, and leads to memory. -/
def reaches (s : State) (a : AccKind) (n mis : Nat) (os : List Opd) (o : OM) (x : Iss) : Bool :=
  match x.check s a n mis (x.acting os) (x.ea o) with
  | .ok l => !l.isEmpty && l.all fun e => match e.2.2.dest with
    | .mem _ _ => true
    | _ => false
  | _ => false
def ldI : Instr := .ld c0 .b32 false .dev (om (.v 10))
def stI : Instr := .st c0 .b32 false .dev (om (.v 8))
theorem witness_loads : issuesWith ldI (ldBusy 4 [.a 3] (om (.v 10))) sMem (reaches sMem .read 4 12 [.a 3] (om (.v 10))) = true ∧
    issuesWith (.hgath c0 false ⟨.v 10, .a 3, 2, 0⟩) (ldBusy 4 [.v 10] ⟨.v 10, .a 3, 2, 0⟩) sMem (reaches sMem .read 4 12 [.v 10] (om (.v 10))) = true := by decide +kernel
def sLd : State := after ldI sMem
theorem test_load : got (after (.memoryReply 0 sMem.nextId 1) sLd) (.v 10) = 101 := by decide +kernel
theorem witness_reply : (match outOf sLd 0 with
    | some o => o.id == sMem.nextId && inMask o.left 1 && (match o.kind with
      | .load _ 4 false false todo => (todo.find? fun a => a.lane == 1).any fun a => readReady sLd 0 ((find sLd.warps 0).getD warp0) o a 4
      | _ => false)
    | none => false) = true := by decide +kernel
theorem witness_stores : issuesWith stI (stBusy 4 false .dev (om (.v 8))) sMem
    (reaches sMem .write 4 12 [.v 8, .a 3] (om (.v 8))) = true := by decide +kernel
def sSt : State := after stI sMem
def noPoint : Point := ⟨0, 0, 0, 0, 0⟩
def noStore : PStore := ⟨0, noPoint, 0, 0, [], none, false, 0, 0, none, [], none⟩
def st1 : PStore := (sSt.stores.find? fun p => p.pa == 0x50004).getD noStore
theorem witness_store : sSt.stores.filter (fun p => p.id == st1.id) = [st1] ∧ st1.po.same st1.po = true ∧ st1.rmw = none := by decide +kernel
theorem test_store : memNat (after (.storePerformed st1.id) sSt).mem 0x50004 4 = 1 ∧ memNat (after (.storePerformed st1.id) sSt).mem 0x50008 4 = 102 ∧
    storeReady sSt st1 = true := by decide +kernel

def atoms (d : Opd) (sc : Scope) : List (Instr × Rmw) := let o := om d
  [(.atomAdd c0 .rlx sc false false o, .add), (.atomSmin c0 .rlx sc false false o, .smin), (.atomUmin c0 .rlx sc false false o, .umin),
   (.atomSmax c0 .rlx sc false false o, .smax), (.atomUmax c0 .rlx sc false false o, .umax), (.atomAnd c0 .rlx sc false false o, .and),
   (.atomOr c0 .rlx sc false false o, .or), (.atomXor c0 .rlx sc false false o, .xor), (.atomExch c0 .rlx sc false false o, .exch),
   (.atomCas c0 .rlx sc false false o, .cas), (.atomFaddF32 c0 .rlx sc false o, .fadd)]
theorem witness_atomics : (atoms (.v 8) .dev).all (fun e => issuesWith e.1 (atomBusy e.2 .rlx .dev false (om (.v 8))) sMem fun x =>
      reaches sMem .rmw 4 13 (atomOps e.2 (om (.v 8))) (om (.v 8)) x && sMem.stores.isEmpty) = true ∧
    issuesWith (.sred c0 .add (om (.v 8))) (sredBusy (om (.v 8))) sMem (reaches sMem .rmw 4 13 [.v 8, .a 3] (om (.v 8))) = true := by
  decide +kernel
def sAtom : State := after (.atomAdd c0 .rlx .dev false false (om (.v 8))) sMem
/-- The pending operation at an address, performed. -/
def performAt (pa : Nat) (s : State) : State := after (.storePerformed ((s.stores.find? fun p => p.pa == pa).getD noStore).id) s
theorem test_atomic : sAtom.mem = sMem.mem ∧ memNat (performAt 0x50008 sAtom).mem 0x50008 4 = 104 ∧ held1 (performAt 0x50004 sAtom) = 101 ∧
    memNat (performAt 0x50008 (after (.atomUmin c0 .rlx .dev true false (om (.v 8))) sMem)).mem 0x50008 4 = 2 := by decide +kernel
/-- The operation on lane 1's word is ready, and its answer goes to that lane of the atomic. -/
def rmw1 : PStore := (sAtom.stores.find? fun p => p.pa == 0x50004).getD noStore
theorem witness_rmw : sAtom.stores.filter (fun p => p.id == rmw1.id) = [rmw1] ∧ rmw1.po.same rmw1.po = true ∧ (rmw1.rmw.any fun r => r.ret == some (sMem.nextId, 1) &&
      decide (rmw1.bytes.length = (if r.wide then 8 else 4)) && decide (r.x.toNat < 2 ^ 32) && r.cmp == 0) = true ∧ storeReady sAtom rmw1 = true ∧
    rmw1.entersFirst = false ∧ (outOf sAtom 0).any (fun o => o.id == sMem.nextId && decide (1 < o.res.vals.length)) = true ∧
    (outOf (performAt 0x50004 sAtom) 0).any (fun o => inMask o.left 1 && (match o.kind with
      | .reply todo => replyMask o 1 &&& todo == 0
      | _ => false)) = true := by decide +kernel
/-- The thread of lane 1 alone, with the line of its address in the L1. -/
def sNear : State := { sMem with cores := [(0, { coreOf s0 0 with l1 := [⟨0, 0x50000 / 64, 0x50000 / 64, memBytes sMem.mem 0x50000 64, [], 0⟩] })], cur := some { cur0 with mask := 2 } }
theorem witness_near : (atoms (.v 8) .core).all (fun e => issuesWith e.1 (atomBusy e.2 .rlx .core false (om (.v 8))) sNear fun x =>
    reaches sNear .rmw 4 13 (atomOps e.2 (om (.v 8))) (om (.v 8)) x && (match x.check sNear .rmw 4 13 (x.acting (atomOps e.2 (om (.v 8)))) (x.ea (om (.v 8))) with
      | .ok l => localOf l == [(1, 0x50004, 0x50004, true)] && (l1Find (coreOf sNear 0) 0 0x50004).isSome
      | _ => false)) = true := by decide +kernel
/-- The same operation, pending before it enters the L1. -/
def sEnter : State := after (.atomAdd c0 .rlx .core false false (om (.v 8))) sNear
def rmw2 : PStore := (sEnter.stores.find? fun p => p.pa == 0x50004).getD noStore
theorem witness_enter : sEnter.stores.filter (fun p => p.id == rmw2.id) = [rmw2] ∧ rmw2.rmw.isSome = true ∧ rmw2.entersFirst = true ∧ mayEnter sEnter rmw2 = true ∧
    (l1Find (coreOf sEnter 0) 0 rmw2.va).isSome = true := by decide +kernel
/-- R230: the new value of the L1's word goes on as a store. -/
theorem test_enter : ((run (enterPending rmw2.id) sEnter).stores.map fun p => (p.pa, p.bytes, p.rmw.isNone)) = [(0x50004, [102, 0, 0, 0], true)] := by decide +kernel
def fenI : Instr := .fence c0 .sc .dev ⟨.none, .none, 0⟩
def sFen : State := after fenI sMem
theorem witness_fences : issuesB fenI never sMem = true ∧ issuesB (.fence c0 .rel .core ⟨.none, .none, 0⟩) never sMem = true ∧
    issuesWith (.lcln c0 (om .none)) writeBusy sMem (reaches sMem .clean 1 12 [.a 3] (om .none)) = true ∧
    (issOf sFen ldI).any (fun x => x.w.outs.any fun u => u.mask &&& x.mask != 0 && u.kind == .fence .sc .dev) = true ∧ isAccess ldI = true ∧
    (match outOf sFen 0 with
      | some u => (match u.kind with
        | .fence ord sc => u.id == sMem.nextId + 1 && u.mask == 6 && fenceReady sFen (u.point ((find sFen.warps 0).getD warp0) 0 u.mask) ord sc
        | _ => false)
      | none => false) = true := by decide +kernel
/-- R247: the accesses of the fence's threads wait for it, and go on once it has completed. -/
theorem test_fence : issuesB ldI never sFen = false ∧ issuesB ldI never (after (.fenceComplete 0 (sMem.nextId + 1)) sFen) = true := by decide +kernel
theorem witness_windows : issuesB (.wpeer c0 ⟨.s 10, .none, 2, 0⟩) never s0 = true := by decide +kernel
/-- A walk under way, and a line of the LLC. -/
def sWalk : State := { sMem with walks := [⟨5, 0, 0x50000, [0x10000 / 64], 0⟩], llc := [⟨0x50000 / 64, false, none, 0⟩] }
theorem witness_walk : (sWalk.walks.find? fun v => v.id == 5).isSome = true ∧ (sWalk.llc.find? fun e => e.line == 0x1400).isSome = true := by decide +kernel
theorem test_writeback : (after (.lineWriteback 0x1400) sWalk).llc = [] := by decide +kernel

/-! ### The matrix engine (R176 to R201) -/

def sCv : State := after (.cvdecl c0 (f2 (.cv 0) (.v 16) .none)) s0
def signI : Instr := .sign c0 (f2 .none (.cv 0) .none)
def sSign : State := after signI sCv
def mmaO : O5 := ⟨.none, .cv 0, .imm 2, .imm 3, .none⟩
def sMma : State := after (.mmaBf16 c0 0 true false mmaO) sSign
theorem witness_convergence : issuesB (.cvdecl c0 (f2 (.cv 0) (.v 16) .none)) never s0 = true ∧ issuesB signI never sCv = true ∧
    ((find sCv.wgs 0).map fun g => (nth g.cvs 0 noCv).declared) = some true := by decide +kernel
theorem test_sign : ((find sSign.wgs 0).map fun g => (nth g.cvs 0 noCv).sigs) = some 0xFFFF := by decide +kernel
theorem witness_matrix_posts : [Instr.mmaBf16 c0 0 true false mmaO, .mmaSpBf16 c0 0 true false mmaO].all (fun i => issuesWith i (mmaBusy 1 mmaO) sSign fun x =>
    match wgOf sSign x.w with
    | some g => decide (x.uval mmaO.b + 1 ≤ g.accs.length) && decide (x.uval mmaO.c + 1 ≤ g.tiles.length) && (cvWarp sSign (nth g.cvs 0 noCv)).isSome
    | none => false) = true := by decide +kernel
def entry1 (s : State) : ResEntry := ((clusterOf s 0).table.head?).getD ⟨0, noPoint, 0, 0, 0, 0, 0, 0, false, false, false, 0, 0, [], false, 0, [], [], []⟩
/-- Its tile is FULL and granted to it. -/
def sPass : State := { sMma with cores := [(0, { coreOf sMma 0 with tiles := [(3, ⟨.full, none, [(0, 0x80), (1, 0x3F)], some (entry1 sMma).id, none⟩)] })] }
def sGrant : State := after (.matrixPassGrant 0) sPass
theorem witness_passes : (clusterOf sPass 0).table.length = 1 ∧ (entry1 sPass).granted = false ∧ entryReady sPass (clusterOf sPass 0).table (entry1 sPass) = true ∧
    (entry1 sGrant).granted = true ∧ (find sGrant.wgs (entry1 sGrant).wg).isSome = true ∧
    (List.range 16).all (fun f => (accOf (coreOf sGrant 0) f).freeAt.isNone) = true := by decide +kernel
/-- R201: the granted tile is EMPTY. -/
theorem test_grant : (tileOf (coreOf sGrant 0) 3).tag = .empty := by decide +kernel
def two (a b : Opd) : O5 := f2 .none a b
theorem witness_accumulators : issuesB (.accZero c0 (two (.imm 2) (.imm 3))) (accZeroBusy (two (.imm 2) (.imm 3))) s0 = true ∧
    issuesB (.accFree c0 (two (.imm 2) (.imm 3))) (accFreeBusy (two (.imm 2) (.imm 3))) s0 = true ∧
    issuesB (.accWr c0 ⟨.none, .imm 2, .imm 0, .v 4, .none⟩) (accWrBusy ⟨.none, .imm 2, .imm 0, .v 4, .none⟩) s0 = true ∧
    issuesB accRdI (accRdBusy (f2 (.v 10) (.imm 2) (.imm 0))) s0 = true ∧ placeWg.accs.length = 16 ∧ placeWg.accs.Nodup := by decide +kernel
theorem test_accumulators : (accOf (coreOf (after (.accZero c0 (two (.imm 2) (.imm 3))) s0) 0) 4).st = .held ∧
    findD (accOf (coreOf (after (.accWr c0 ⟨.none, .imm 2, .imm 0, .v 4, .none⟩) s0) 0) 2).els 32 0 = 0x3F800000 := by decide +kernel
def otS : OT := ⟨.s 8, .none, 3, .none, 63, 0, none⟩
def epiTI : Instr := .epiT c0 .none false false otS
def omS : OM := ⟨.s 8, .none, 2, 0⟩
def sEpi : State := after epiTI sFmt
def sSent : State := after (.epilogueAccepted 0 sFmt.nextId) sEpi
theorem witness_epilogues : issuesWith epiTI (epiBusy (.s 8)) sFmt (fun x => slotDesc sFmt x.w 0 == some 1 && !epiBad 1 && x.w.outs.isEmpty) = true ∧
    issuesB (.epiSt c0 .none false false false omS) (epiBusy (.s 8)) sFmt = true ∧
    (match find sEpi.warps 0, find sEpi.wgs 0 with
      | some w, some g => w.outs.any fun u => u.id == sFmt.nextId && u.kind == .epi false && epiReady sEpi w g u
      | _, _ => false) = true := by decide +kernel
/-- The tile epilogue, whose arrivals have all been taken. -/
def sTaken : State := { sSent with arrivals := [], wgs := sSent.wgs.map fun e => (e.1, { e.2 with epis := e.2.epis.map fun v => { v with arrivals := [] } }) }
theorem witness_accepted : (match find sTaken.warps 0, find sTaken.wgs 0 with
      | some w, some g => w.outs.any fun u => u.id == sFmt.nextId && u.kind == .epi true && g.epis.any fun v => v.id == u.age && v.arrivals.isEmpty
      | _, _ => false) = true := by decide +kernel
/-- R199: 1,024 elements of two bytes are 32 arrivals. -/
theorem test_epilogue : sSent.arrivals.length = 32 := by decide +kernel

/-! ### Tiles, packages, cards and the fabric (R243 to R263) -/

def tm (d : Opd) : OM := ⟨d, .a 3, 63, 0⟩
def ldsI (tag : LdsTag) : Instr := .lds c0 .b32 tag (tm (.v 10))
/-- Tile 0 is FULL, its first words 100 and 101. -/
def sPad : State := { sMem with cores := [(0, { coreOf s0 0 with tiles := [(0, ⟨.full, none, [(0, 100), (4, 101), (8, 102)], none, none⟩)] })] }
theorem witness_pad : (∀ i ∈ [ldsI .ut, ldsI .wait, ldsI .take], ∃ x, Issues i readBusy sPad x ∧ x.g ≠ 0) ∧
    issuesB (.sts c0 .b32 (tm (.v 8))) stsBusy sPad = true ∧ issuesWith (ldsI .ut) readBusy sPad (fun x => (x.acting [.a 3]).all fun j => (x.ea (tm (.v 10)) j).toNat % 4 == 0 &&
      decide ((x.ea (tm (.v 10)) j).toNat < 2048 * (x.tiles sPad).length)) = true := ⟨issues_all (by decide +kernel), by decide +kernel, by decide +kernel⟩
theorem test_pad : held1 (after (ldsI .ut) sPad) = 101 ∧ padRead (after (.sts c0 .b32 (tm (.v 8))) sPad) 0 8 4 = [2, 0, 0, 0] := by decide +kernel
def tarmI : Instr := .tarm c0 ⟨.none, .none, 1, .none, 63, 2, none⟩
def takeI : Instr := .take c0 .b32 ⟨.none, .none, 0, .none, 63, 0, none⟩
def sTake : State := after (ldsI .take) sPad
theorem witness_tags : issuesWith tarmI (tarmBusy ⟨.none, .none, 1, .none, 63, 2, none⟩) s0 (fun x => decide (1 < (x.tiles s0).length) &&
      (tileOf (coreOf s0 0) 1).tag == .empty) = true ∧ issuesB takeI readBusy { sPad with cur := some cur0 } = true ∧
    (match outOf sTake 0 with
      | some o => (match o.kind with
        | .tile ts true false offs => offs != [] && ts == [0] && tilesReady sTake 0 o.id true ts && inMask o.left 1
        | _ => false)
      | none => false) = true := by decide +kernel
theorem test_tags : (tileOf (coreOf (after tarmI s0) 0) 1).tag = .armed 2 0 ∧ got (after (.memoryReply 0 sPad.nextId 1) sTake) (.v 10) = 101 ∧
    (tileOf (coreOf (after (.tileReadRetire 0 sPad.nextId) sTake) 0) 0).tag = .empty := by decide +kernel
/-- A unit of 64 bytes on its way to tile 1, which expects one. -/
def unit1 : Arrival := ⟨7, 0, 0, none, 0, 0, 1, 128, List.replicate 64 9, noPoint, true, false, none, 0, 0, none, none, none, none, none⟩
def sUnit : State := { s0 with arrivals := [unit1], cores := [(0, { coreOf s0 0 with tiles := [(1, ⟨.armed 1 0, none, [], none, none⟩)] })] }
theorem witness_arrivals : arrReady sUnit unit1 = true ∧ unitHeld sUnit unit1 = false ∧ wgAt sUnit 0 0 = some (0, placeWg) ∧
    filterOk sUnit none unit1 = true ∧ arrReady { sUnit with cores := [] } unit1 = true := by decide +kernel
theorem test_arrivals : (tileOf (coreOf (after (.tileArrival 7) sUnit) 0) 1).tag = .full ∧
    findD (tileOf (coreOf (after (.tileArrival 7) sUnit) 0) 1).bytes 130 0 = 9 ∧
    ((after (.tileArrival 7) { sUnit with cores := [] }).arrivals.map (·.backoff)) = [true] := by decide +kernel
def ot (d : Opd) : OT := ⟨d, .none, 1, .imm 0, 63, 0, none⟩
def rgetO : OT := ⟨.none, .none, 1, .none, 2, 1, none⟩
theorem witness_packages : [Instr.putTRetry c0 4 (ot (.v 8)), .putTRep c0 4 { ot (.v 8) with pd := some 3 }].all (fun i => issuesWith i never s0 fun x =>
      (match launchOf s0 x.w with
        | some l => inRect l (x.val (.imm 0) (lowest x.g)).toNat
        | none => false) && decide (x.tileNo (ot (.v 8)) < placeWg.tiles.length)) = true ∧
    issuesWith (.rgetT c0 rgetO) (rgetBusy rgetO) s0 (fun x => match x.check s0 .read 1 13 (List.range 1) (fun u => x.eaT rgetO (lowest x.g) + dw (64 * u)) with
      | .ok l => l.length == 1 && (localOf l).length == 1
      | _ => false) = true := by decide +kernel
theorem test_put : ((after (.putTRetry c0 4 (ot (.v 8))) s0).arrivals.map fun a => (a.core, a.tile, a.off, nth a.data 4 0)) = [(0, 1, 256, 1)] := by
  decide +kernel
/-- The page of 0x50000 leads to segment 5 of peer 1, at offset 0x70000. -/
def sWin : State := { sMem with
  tlb := [⟨0, 5, 0, 0, 0, 0, 0, 0, some (1, 5, 3, 0x70000), 5, 1⟩]
  hw := [(RegKind.peerp, 0, 2), (.peere, 0, 2), (.tpeer, 0, 0x0FFF0000)].foldl (fun m e => hwSet m e.1 e.2.1 (dw e.2.2)) sMem.hw }
def away (a : AccKind) (os : List Opd) (o : OM) (x : Iss) : Bool := match x.check sWin a 4 12 (x.acting os) (x.ea o) with
  | .ok l => (remoteOf l).length == l.length && l != []
  | _ => false
theorem witness_remote : issuesWith ldI (ldBusy 4 [.a 3] (om (.v 10))) sWin (away .read [.a 3] (om (.v 10))) = true ∧
    issuesWith stI (stBusy 4 false .dev (om (.v 8))) sWin (away .write [.v 8, .a 3] (om (.v 8))) = true := by decide +kernel
theorem test_remote : ((after ldI sWin).fabric.remotes.map fun r => (r.peer, r.ifa, r.lane)) = [(1, ifaOf 1 5 0x70004, 1), (1, ifaOf 1 5 0x70008, 2)] := by
  decide +kernel
def cardO : OM := ⟨.none, .none, 2, 0⟩
def sCard : State := after (.card c0 cardO) s0
def card1 (s : State) : Card := ((clusterOf s 0).cards.head?).getD ⟨0, noPoint, 0, 0, 0, 0, [], 0, none, false, false, 0, 0, [], [], [], 0, 0, [], [], [], []⟩
def sRun : State := after (.cardRun 0 s0.nextId) sCard
/-- R495: OP 1, one input region; one tile of 32 columns from origin 0, each column 64 B on, 32 rows long. -/
def loadCard : Card := { card1 sCard with desc := le 4 0x2001 ++ le 4 32 ++ le 4 0 ++ le 4 64 ++ le 4 (1024 + 2) ++ zeros 12 ++ le 8 0x50000 ++ le 4 2048 ++ zeros 84 }
theorem witness_cards : issuesWith (.card c0 cardO) (cardBusy cardO) s0 (fun x => cardMis x cardO == none && (match cardRead s0 x cardO with
      | .ok l => l == [0x50000, 0x50040]
      | .error _ => false)) = true ∧
    cardReady sCard (clusterOf sCard 0).cards (card1 sCard) = true ∧ cardInvalid (card1 sCard).desc = true ∧
    cOp loadCard.desc = 1 ∧ (cardChecks sCard loadCard 8).isOk = true ∧ (loadRuns loadCard.desc [] 31).all (fun r => inRegions (inRegs loadCard.desc) [r]) = true ∧
    (cardLoads sCard loadCard ((loadRuns loadCard.desc [] 31).take 2)).isOk = true ∧
    (card1 sRun).running = true ∧ (card1 sRun).arrivals = [] ∧ paOf sRun 0 (card1 sRun).sup .write ((card1 sRun).dva.toNat + 0x14) = some 0x50014 := by
  decide +kernel
/-- R261: a descriptor of zeros is invalid, and its STATUS becomes 1. -/
theorem test_card : memNat (after (.cardComplete 0 s0.nextId) sRun).mem 0x50014 4 = 1 := by decide +kernel

/-! ### Control (R294 to R307) -/

def ob (t : Opd) : OB := ⟨0, t, .none⟩
/-- A jump table whose entry 0 is the block. -/
def sJtb : State := { sMem with mem := placeBytes sMem.mem 0x50000 (le 8 placeBlock) }
def jtbO : OB := ⟨0, .imm 0, .imm 1⟩
theorem witness_transfers : issuesWith (.bra c0 (ob .none)) (braBusy (ob .none)) s0 (fun x => hopFault s0 x.w (x.hops false fun _ => x.offTarget (ob .none)) == none) = true ∧
    issuesWith (.call c0 (ob (.v 30))) never s0 (fun x => hopFault s0 x.w (x.hops false fun _ => x.offTarget (ob (.v 30))) == none) = true ∧
    issuesWith (.calli c0 ⟨0, .v 30, .s 4⟩) never s0 (fun x => hopFault s0 x.w (x.hops true (x.val64 (.s 4))) == none) = true ∧
    issuesWith (.ret c0 (ob (.s 4))) never s0 (fun x => hopFault s0 x.w (x.hops false (x.val64 (.s 4))) == none) = true ∧
    issuesWith (.brx c0 (ob (.s 4))) never s0 (fun x => hopFault s0 x.w (x.hops true (x.val64 (.s 4))) == none) = true ∧
    issuesWith (.jtb c0 2 jtbO) (jtbBusy 2 jtbO) sJtb (fun x => match x.check sJtb .read 1 13 [1] (fun j => x.ubase 2 + 8 * zx64 (x.val jtbO.treg j)) with
      | .ok l => (localOf l).length == 1 && hopFault sJtb x.w [⟨1, dw placeBlock, true⟩] == none
      | _ => false) = true := by decide +kernel
/-- The PC of lane 1. -/
def pc1 (t : State) : Option Nat := (find t.warps 0).map fun w => (laneOf w 1).pc.toNat
theorem test_branch : pc1 (after (.bra c0 (ob .none)) s0) = some 0x40004 := by decide +kernel
theorem test_branch_not_taken : pc1 (after (.bra { c0 with neg := true } (ob .none)) s0) = some 0x40044 := by decide +kernel
theorem test_call : got (after (.call c0 (ob (.v 30))) s0) (.v 30) = 0x40040 := by decide +kernel
def sJoin : State := { s0 with warps := [(0, warp0.mapLanes 0xFFFF fun _ l => { l with join := some 3 })] }
theorem witness_ends : issuesWith (.exit c0 (ob .none)) never s0 (fun x => x.w.level == 0 && x.w.activeSet &&& ~~~x.g == 0) = true ∧
    issuesWith (.exit { c0 with pred := .p 1 } (ob .none)) never { s0 with warps := [(0, warp0.mapLanes 1 fun _ l => { l with p := 2 })] }
      (fun x => x.w.activeSet &&& ~~~x.g != 0) = true ∧ (find sJoin.warps 0).isSome = true := by decide +kernel
theorem test_ends : find (after (.exit c0 (ob .none)) s0).warps 0 = none ∧
    ((find (after (.joinTimeout 0 (dw (placeBlock + 4))) sJoin).warps 0).map fun w => (laneOf w 1).join) = some (some 0) := by decide +kernel
def barO (n : BitVec 7) : O5 := ⟨.none, .nb 2, .imm n, .none, .none⟩
def wait1 (t : State) : Option Wait := (find t.warps 0).map fun w => (laneOf w 1).wait
theorem witness_barriers : issuesB (.barw c0 (barO 16)) barBusy s0 = true ∧ issuesB (.bara c0 (barO 17)) barBusy s0 = true ∧
    find placeWg.warps 0 = some 0 ∧ (nth placeWg.bars 2 noBar).e = 0 := by decide +kernel
theorem test_barriers : wait1 (after (.barw c0 (barO 16)) s0) = some .none ∧ wait1 (after (.barw c0 (barO 17)) s0) = some (.barrier 2) ∧
    ((find (after (.bara c0 (barO 17)) s0).wgs 0).map fun g => setSize (nth g.bars 2 noBar).arrived) = some 16 := by decide +kernel
/-- Two neighbours, the second a phase ahead. -/
def sTwo : State := { s0 with launches := [(0, { placeLaunch with w := 2 })], wgs := [(0, placeWg), (1, { placeWg with core := 1, phase := 1, warps := [] })] }
def toEast (s : State) (d : Nat) : Bool := match nbrOf s placeWg d with
  | .at 1 n => recvOf placeWg d != sentPhase s n
  | _ => false
theorem witness_phases : issuesB (.phaseAdv c0 (f2 .none .none .none)) never sTwo = true ∧ issuesB (.phaseRd c0 (f2 (.s 10) (.imm 0) .none)) never sTwo = true ∧
    [1, 2, 3, 4].any (toEast sTwo) = true ∧ leadOk { sTwo with wgs := put sTwo.wgs 0 { placeWg with phase := 1 } } { placeWg with phase := 1 } = false := by
  decide +kernel
theorem test_phases : wait1 (after (.phaseAdv c0 (f2 .none .none .none)) sTwo) = some .phase ∧ wait1 (after (.phaseAdv c0 (f2 .none .none .none)) s0) = some .none ∧
    got (after (.phaseRd c0 (f2 (.s 10) (.imm 0) .none)) { s0 with wgs := [(0, { placeWg with phase := 9 })] }) (.s 10) = 9 := by decide +kernel
/-- One slot for spawned warps, free or taken. -/
def spRec : Launch := { placeLaunch with lr := { placeRec with spawn := 1 } }
def sSpawn : State := { s0 with launches := [(0, spRec)], nextId := 5 }
def sSpawned : State := after (.spawn c0 (ob (.s 8))) sSpawn
def sFull : State := { sSpawn with wgs := [(0, { placeWg with warps := [(0, 0), (1, 3)] })] }
/-- A spawn of a full workgroup, whose slot has become free. -/
def sGranted : State := let s := after (.spawn c0 (ob (.s 8))) sFull
  { s with wgs := s.wgs.map fun e => (e.1, { e.2 with warps := [(0, 0)] }) }
theorem witness_spawns : issuesB (.spawn c0 (ob (.s 8))) spawnBusy sSpawn = true ∧ issuesB (.spawnTry c0 ⟨0, .s 8, .p 3⟩) spawnBusy sSpawn = true ∧
    (freeSlots spRec.lr placeWg)[0]? = some 1 ∧ issuesB (.spawn c0 (ob (.s 8))) spawnBusy sFull = true ∧ issuesB (.spawnTry c0 ⟨0, .s 8, .p 3⟩) spawnBusy sFull = true ∧
    (freeSlots spRec.lr { placeWg with warps := [(0, 0), (1, 3)] })[0]? = none ∧ (match find sGranted.wgs 0, find sGranted.warps 0 with
      | some g, some w => (match g.spawnQ with
        | r :: _ => r.wk == 0 && w.outs.any (fun u => u.id == r.id && u.kind != .held) && (freeSlots spRec.lr g).head? == some 1
        | [] => false)
      | _, _ => false) = true := by decide +kernel
theorem test_spawns : ((find sSpawned.warps 6).map fun u => (u.index, (laneOf u 5).pc, u.spawned)) = some (1, dw (placeBlock + 4), true) ∧
    got (after (.spawnTry c0 ⟨0, .s 8, .p 3⟩) sFull) (.p 3) = 0 ∧ wait1 (after (.spawn c0 (ob (.s 8))) sFull) = some .slot ∧
    (find (after (.spawnSlotGrant 0) sGranted).warps 6).isSome = true := by decide +kernel
def enqO : O5 := ⟨.s 10, .s 6, .s 2, .none, .none⟩
def queue1 : Queue := ⟨0x51000, 0x52000, 0, true, 0, 0, 0, [], false, none, [], none⟩
/-- A queue of one packet, empty or full. -/
def sEnq : State := { s0 with queues := [(0, queue1)], mem := placeBytes s0.mem 0x50000 [1] }
def sEnqFull : State := { sEnq with mem := placeBytes sEnq.mem 0x51010 [1] }
def sRoom : State := { after (.enq c0 enqO) sEnqFull with queues := [(0, { queue1 with rd := 1 })] }
/-- Its packet is in a window of peer 1. -/
def sEnqWin : State := { sEnq with
  warps := [(0, { warp0 with s := put warp0.s 2 0x60000 })]
  tlb := [⟨0, 6, 0, 0, 0, 0, 0, 0, some (1, 5, 3, 0x70000), 6, 1⟩], hw := sWin.hw }
/-- The packet has come. -/
def sCome : State := let s := after (.enq c0 enqO) sEnqWin
  { s with warps := s.warps.map fun e => (e.1, { e.2 with outs := e.2.outs.map fun o => { o with left := 0 } }) }
def fullIs (b : Bool) (s : State) (x : Iss) : Bool := match enqLook s x (x.point s.nextId) enqO with
  | .ok p => p.full == b
  | .error _ => false
theorem witness_pushes : [Instr.enq c0 enqO, .enqTry c0 enqO].all (fun i => issuesWith i (enqBusy enqO) sEnq (fullIs false sEnq) &&
      issuesWith i (enqBusy enqO) sEnqFull (fullIs true sEnqFull)) = true ∧ (match find sRoom.warps 0 with
      | some w => (match waitingEnq w with
        | some (u, o, _) => o == enqO && (match enqLook sRoom (replayIss sRoom 0 w u) (u.point w 0 u.act) o with
          | .ok p => !p.full
          | .error _ => false) && relDone sRoom .dev (u.point w 0 u.act)
        | none => false)
      | none => false) = true ∧ [Instr.enq c0 enqO, .enqTry c0 enqO].all (fun i => issuesWith i (enqBusy enqO) sEnqWin fun x =>
        match enqLook sEnqWin x (x.point sEnqWin.nextId) enqO with
          | .ok p => p.pkt == .win 1 5 0x70000
          | .error _ => false) = true ∧ (match find sCome.warps 0 with
      | some w => (match waitingEnq w with
        | some (u, o, _) => (match enqLook sCome (replayIss sCome 0 w u) (u.point w 0 u.act) o with
          | .ok p => !p.full && p.pkt == .win 1 5 0x70000
          | .error _ => false) && relDone sCome .dev (u.point w 0 u.act)
        | none => false)
      | none => false) = true := by decide +kernel
theorem test_pushes : memNat (after (.enq c0 enqO) sEnq).mem 0x51010 8 = 1 ∧ memNat (after (.enq c0 enqO) sEnq).mem 0x52000 8 = 1 ∧
    got (after (.enqTry c0 enqO) sEnqFull) (.s 10) = 1 ∧ wait1 (after (.enq c0 enqO) sEnqFull) = some .room ∧
    memNat (after (.enqPush 0) sRoom).mem 0x51010 8 = 2 := by decide +kernel
def sTimed : State := after (.waitNs c0 (f2 .none (.imm 7) .none)) s0
theorem witness_yields : issuesB (.yield c0 (f2 .none .none .none)) never s0 = true ∧ issuesB (.waitNs c0 (f2 .none (.imm 7) .none)) never s0 = true ∧
    (find sTimed.warps 0).isSome = true := by decide +kernel
theorem test_yields : ((find (after (.yield c0 (f2 .none .none .none)) s0).warps 0).map (·.hold)) = some (some []) ∧ wait1 sTimed = some (.timed 7) ∧
    wait1 (after (.waitNsExpiry 0) sTimed) = some (.timed 7) ∧ wait1 (after (.waitNsExpiry 0) { sTimed with now := 7 }) = some .none := by decide +kernel

/-! ### Traps (R395 to R423) -/

/-- A trap handler, in the block itself. -/
def hwT (s : State) (l : List (RegKind × Nat × Nat)) : SMap DWord := l.foldl (fun m e => hwSet m e.1 e.2.1 (dw e.2.2)) s.hw
def sTr : State := { s0 with hw := hwT s0 [(.hvec, 0, placeBlock)] }
/-- What `Catches` says, of warp 0, its sixteen threads and frame 0. -/
def catchesB (s : State) (w : Warp) : Bool := find s.warps 0 == some w && w.fw == none && w.level == 0 && w.cpc == 0 && find s.wgs w.wg == some placeWg &&
  freeFrame placeWg == some 0 && frameOk s w placeWg 0 && reg s .hvec w.ctx != 0 && w.outs.all fun o => o.mask &&& 0xFFFF == 0
theorem catches_of {s : State} {w : Warp} (h : catchesB s w = true) : Catches s 0 w 0xFFFF placeWg 0 := by
  simp only [catchesB, Bool.and_eq_true, beq_iff_eq, bne_iff_ne, List.all_eq_true] at h
  obtain ⟨⟨⟨⟨⟨⟨⟨⟨a, b⟩, c⟩, d⟩, e⟩, f⟩, g⟩, i⟩, j⟩ := h
  exact ⟨⟨a, b, c, d, e, f, g, i⟩, j⟩
theorem catches_sTr : Catches sTr 0 warp0 0xFFFF placeWg 0 := catches_of (by decide +kernel)
def trapI : Instr := .trap c0 ⟨.none, .none, 5⟩
/-- The same machine above the allotment of its warp, without energy, and at the user's level. -/
def sPoor : State := { sTr with hw := hwT sTr [(.cbal, 0, 0)] }
def sUser : State := { sTr with hw := hwT sTr [(.ctxd, 0, 0x83010000)] }
def sSmall : State := { sTr with warps := [(0, { warp0 with nv := 8 })] }
def srI : Instr := .srRd c0 ⟨.s 10, .none, 2⟩
def addI : Instr := .add c0 .n32 (f2 (.v 10) (.v 1) (.v 2))
def gateOf (i : Instr) (s : State) : Option Gate := (issOf s i).map fun x => gate s x false
/-- Lanes 0 and 1 only are the group of an instruction that needs the whole active set. -/
def sPartly : State := { sTr with cur := some { cur0 with mask := 3 } }
/-- A division's window is open on v10. -/
def sOpen : State := after (.div { c0 with look := 2 } .i32 (f2 (.v 10) (.v 3) (.v 1))) sTr
theorem test_checks : gateOf srI sUser = some (.trap 5) ∧ gateOf addI sSmall = some (.trap 6) ∧ gateOf addI sOpen = some (.trap 7) ∧
    gateOf addI sPoor = some .energy ∧ gateOf (.movRi c0 (ri (.s 10) .none 1)) sPartly = some (.trap 8) ∧ gateOf addI sTr = some .go := by decide +kernel
theorem witness_refusals : catchesB sUser warp0 = true ∧ catchesB sSmall { warp0 with nv := 8 } = true ∧ (issOf sUser srI).any (fun x => x.k == 0 && x.w == warp0 && x.mask == 0xFFFF) = true := by
  decide +kernel
theorem witness_checks : (∃ x, issOf sPoor addI = some x ∧ x.blocked = false ∧ x.ejected = false ∧ x.w.fw = none) ∧
    (∃ x, issOf (after (.div c0 .i32 (f2 (.v 10) (.v 3) (.v 1))) sTr) addI = some x) ∧ Catches sTr 0 warp0 0xFFFF placeWg 0 :=
  ⟨⟨_, rfl, by decide +kernel, by decide +kernel, by decide +kernel⟩, ⟨_, rfl⟩, catches_sTr⟩
/-- Where the word of memory is not mapped, and where it is misaligned. -/
def omBad : OM := ⟨.v 10, .imm 0, 2, 2⟩
theorem witness_traps : issuesWith trapI never sTr (fun x => x.k == 0 && x.w == warp0 && x.mask == 0xFFFF) = true ∧
    issuesWith (.ld c0 .b32 false .dev omBad) (ldBusy 4 [.imm 0] omBad) sTr (fun x => match x.check sTr .read 4 12 (x.acting [.imm 0]) (x.ea omBad) with
      | .trap 12 v 0 => v == 0x50002
      | _ => false) = true ∧
    issuesWith (.ld c0 .b32 false .dev ⟨.v 10, .v 3, 63, 0⟩) (ldBusy 4 [.v 3] ⟨.v 10, .v 3, 63, 0⟩) sTr (fun x => match x.check sTr .read 4 12 (x.acting [.v 3]) (x.ea ⟨.v 10, .v 3, 63, 0⟩) with
      | .trap 10 v _ => v == 0x80000000
      | _ => false) = true := by decide +kernel
def sTrapped : State := after trapI sTr
def frame0 (s : State) : Frame := ((find s.wgs 0).map fun g => nth g.frames 0 noFrame).getD noFrame
/-- R399, R401, R419: the frame holds cause 32, the syndrome and the next PC, and the group is at the handler at level 1. -/
theorem test_trap_entry : (frame0 sTrapped).cause = 0x120 ∧ (frame0 sTrapped).synd = 5 ∧ (frame0 sTrapped).rpc = 0x40044 ∧ (frame0 sTrapped).fpc = 0x40004 ∧
    pc1 sTrapped = some 0x40004 ∧ (find sTrapped.warps 0).map (·.level) = some 1 := by decide +kernel
def pcW : DWord := dw (placeBlock + 4)
def sWaits : State := { sTr with warps := [(0, { warp0 with pend := [⟨0xFFFF, 32, pcW, pcW, 0, 0, none⟩] })] }
def sAlarm : State := { sTr with warps := [(0, { warp0 with dev := ⟨5, true, false⟩ })], now := 5 }
def sErr : State := { sTr with warps := [(0, { warp0 with rem := ⟨3, 1, 0, 1⟩ })] }
theorem witness_delivered : (match find sWaits.warps 0, find sAlarm.warps 0, find sErr.warps 0 with
    | some u, some v, some w => u.pend.any (trapReady sWaits 0 u) && deadlineDue sAlarm v false && groupsOf v == [(pcW, 0xFFFF)] && errDue sErr w == some (pcW, 0xFFFF) &&
        w.rem.count != 0 && w.pend.isEmpty
    | _, _, _ => false) = true ∧ (ctxOf sTr 0).resident = true ∧ [sWaits, sAlarm, sErr].all (fun s => (find s.warps 0).any (catchesB s)) = true := by decide +kernel
theorem test_delivered : (frame0 (after (.trapEntry 0) sWaits)).cause = 0x120 ∧ (frame0 (after (.timerDeadlineFire 0 false) sAlarm)).cause = 30 ∧
    (frame0 (after (.remoteErrorDelivery 0) sErr)).cause = 31 ∧ (frame0 (after (.remoteErrorDelivery 0) sErr)).synd = 3 := by decide +kernel
theorem witness_escalates : issuesWith trapI never s0 (fun x => x.w.level == 0 && reg s0 .hvec 0 == 0 && (wgOf s0 x.w).isSome) = true ∧
    issuesWith trapI never sTrapped (fun x => x.w.level != 0 && (laneOf x.w 0).st == .trapped && (wgOf sTrapped x.w).isSome) = true := by decide +kernel
/-- R404: without a handler the context stops at level 2. -/
theorem test_escalates : dbit (reg (after trapI s0) .ctxs 0) 3 = true ∧ (ctxOf (after trapI s0) 0).resident = false := by decide +kernel
def retrI : Instr := .retr c0 ⟨.none, .none, 0⟩
def retrCI : Instr := .retrC c0 ⟨.none, .v 12, 0⟩
/-- A serviced continuation frame of the whole warp, whose token is 0. -/
def contFrame : Frame := { frame0 sTrapped with cause := 0x200, state := 3, token := 0, gen := 0 }
def sCont : State := { sTr with wgs := [(0, { placeWg with frames := contFrame :: List.replicate 7 noFrame })] }
def mayReturn (s : State) (x : Iss) : Bool := match wgOf s x.w with
  | some g => retrDue s g == none && (frame0 s).warp == x.k && (frame0 s).rep == [] && liveLanes x.w (frame0 s).gmask != 0 &&
      liveLanes x.w (frame0 s).gmask &&& ~~~x.g == 0 && decide (0 < g.frames.length)
  | none => false
theorem witness_returns : issuesWith retrI never sTrapped (fun x => mayReturn sTrapped x && !isCont (frame0 sTrapped) && x.w.level == 1 && x.w.frame == some 0 &&
      (frame0 sTrapped).state == 1) = true ∧
    issuesWith retrCI never sCont (fun x => mayReturn sCont x && isCont (frame0 sCont) && x.w.level == 0 && (frame0 sCont).state == 3 &&
      x.val (.v 12) (lowest x.g) == tokenOf x.w 0 (frame0 sCont).gen && x.g &&& ~~~(frame0 sCont).gmask == 0) = true := by decide +kernel
theorem test_returns : pc1 (after retrI sTrapped) = some 0x40044 ∧ (find (after retrI sTrapped).warps 0).map (·.level) = some 0 ∧
    (frame0 (after retrI sTrapped)).state = 0 ∧ (frame0 (after retrCI sCont)).state = 0 := by decide +kernel
def frmRdI : Instr := .frmRd c0 ⟨.v 10, .none, 5⟩
def frmWrI (sel : BitVec 16) : Instr := .frmWr c0 ⟨.v 10, .none, sel⟩
def frmOk (s : State) (o : OX) (x : Iss) : Bool := match frmLook s x o with
  | .ok e => e.1 == 0
  | .error _ => false
def contSetI : Instr := .contSet c0 ⟨.none, .s 4, 0⟩
def contSigI : Instr := .contSig c0 ⟨.s 10, .imm 0, 0⟩
def sPend : State := { sCont with wgs := [(0, { placeWg with frames := { contFrame with state := 2 } :: List.replicate 7 noFrame })] }
theorem witness_frames : issuesWith frmRdI never sTrapped (frmOk sTrapped ⟨.v 10, .none, 5⟩) = true ∧
    [3, 10, 11].all (fun n => issuesWith (frmWrI n) never sTrapped (frmOk sTrapped ⟨.v 10, .none, n⟩)) = true ∧
    [9, 12].all (fun n => issuesWith (.frmWr c0 ⟨.v 10, .imm 7, n⟩) never sTrapped (frmOk sTrapped ⟨.v 10, .imm 7, n⟩)) = true ∧
    issuesB contSetI never sTr = true ∧ issuesB contSigI relBusyNow sTr = true ∧ issuesB contSigI relBusyNow sPend = true ∧ pendingFrame sTr 0 = none ∧
    (pendingFrame sPend 0).isSome = true ∧ (find sPend.warps 0).map (fun w => (laneOf w 0).wait) = some .none := by decide +kernel
theorem test_frames : got (after frmRdI sTrapped) (.v 10) = 5 ∧ (find (after contSetI sTr).warps 0).map (·.cpc) = some 0x40000 ∧
    got (after contSigI sTr) (.s 10) = 1 ∧ (frame0 (after contSigI sPend)).state = 3 := by decide +kernel

/-! ### Registers, contexts and energy (R357 to R362, R424 to R427) -/

/-- A thread of a service core. -/
def sFw : State := { s0 with warps := [(0, { warp0 with fw := some 7 })] }
def sysOk (s : State) (o : OX) (write : Bool) (k : RegKind) (x : Iss) : Bool := match sysLook s x o write with
  | .ok e => e == (k, 0)
  | .error _ => false
def enOk (s : State) (o : OX) (write : Bool) (k : RegKind) (x : Iss) : Bool := match energyLook s x o write with
  | .ok e => e == (k, 0)
  | .error _ => false
theorem witness_registers : issuesWith srI never s0 (sysOk s0 ⟨.s 10, .none, 2⟩ false .hvec) = true ∧
    [(2, RegKind.hvec), (0, .ctxt), (0x10, .evrb), (4, .ctxs)].all (fun e => issuesWith (.srWr c0 ⟨.s 2, .none, e.1⟩) never s0 (sysOk s0 ⟨.s 2, .none, e.1⟩ true e.2)) = true ∧
    issuesWith (.erd c0 ⟨.s 10, .none, 0x20⟩) never s0 (enOk s0 ⟨.s 10, .none, 0x20⟩ false .pcfg) = true ∧
    issuesWith (.ewr c0 ⟨.s 2, .none, 0x21⟩) never s0 (enOk s0 ⟨.s 2, .none, 0x21⟩ true .opmb) = true ∧
    issuesWith (.ewr c0 ⟨.s 2, .imm 0, 1⟩) never sFw (enOk sFw ⟨.s 2, .imm 0, 1⟩ true .cinf) = true ∧
    issuesWith (.ewr c0 ⟨.s 2, .none, 0x51⟩) never sFw (enOk sFw ⟨.s 2, .none, 0x51⟩ true .rack) = true := by decide +kernel
/-- R358: the reset value of PCFG (R345) is read; R424: HVEC keeps a block address. -/
theorem test_registers : got (after (.erd c0 ⟨.s 10, .none, 0x20⟩) s0) (.s 10) = 0x60 ∧ reg (after (.srWr c0 ⟨.s 2, .none, 2⟩) s0) .hvec 0 = 0x50000 ∧
    reg (after (.ewr c0 ⟨.s 2, .imm 0, 1⟩) sFw) .cinf 0 = 0x50000 := by decide +kernel
def ctlI (n : BitVec 7) : Instr := .ctxCtlHold c0 ⟨.s 10, .imm n, 0⟩
theorem witness_contexts : [ctlI 0, .ctxCtlRelease c0 ⟨.s 10, .imm 0, 1⟩, .ctxCtlKill c0 ⟨.s 10, .imm 0, 2⟩, ctlI 5].all (fun i => issuesB i never s0) = true ∧
    ctxValid s0 0 = true ∧ ctxValid s0 5 = false ∧ ctxTenant s0 5 = 0 ∧
    issuesB (.tlbiVa c0 ⟨.s 2, .none, 0⟩) (fun x => tlbiBusy (tlbiCtx x ⟨.s 2, .none, 0⟩) x) s0 = true ∧
    issuesB (.tlbiCtx c0 ⟨.none, .none, 0⟩) (fun x => tlbiBusy (tlbiCtx x ⟨.none, .none, 0⟩) x) s0 = true ∧
    issuesB (.tlbiTen c0 ⟨.none, .imm 0, 0⟩) (tlbiBusy none) { sFw with cur := some cur0 } = true := by decide +kernel
theorem test_contexts : dbit (reg (after (ctlI 0) s0) .ctxs 0) 2 = true ∧ got (after (ctlI 5) s0) (.s 10) = 1 ∧
    (ctxOf (after (.ctxCtlKill c0 ⟨.s 10, .imm 0, 2⟩) s0) 0).resident = false ∧
    (after (.tlbiVa c0 ⟨.s 2, .none, 0⟩) { s0 with tlb := [⟨0, 4, 0, 0, 0, 0, 0, 0, none, 4, 1⟩, ⟨0, 5, 0, 0, 0, 0, 0, 0, none, 5, 1⟩] }).tlb.map (·.page) = [4] := by decide +kernel
/-- s10 names bank 0 of cluster 3. -/
def ewtI : Instr := .ewt c0 ⟨.s 2, .s 10, 0⟩
def sImg : State := { sFw with mem := placeBytes s0.mem 0x50000 (le 4 77), warps := [(0, { warp0 with fw := some 7, s := put warp0.s 10 3 })] }
def meterI : Instr := .meter c0 ⟨.s 10, .s 6, 0⟩
def sMeter : State := { s0 with hw := hwT s0 [(.tbud, 0, 2 ^ 63 + 2 ^ 40)] }
theorem witness_weights : WellFormed ewtI = true ∧ issuesWith ewtI (ewtBusy ⟨.s 2, .s 10, 0⟩) sImg (fun x => (match imageAt sImg x (x.val64 (.s 2) (lowest x.g)) with
      | .ok l => l == [0x50000, 0x50040] && sImg.stores.isEmpty && memNat sImg.mem (0x50000 + 4 * 23) 36 == 0
      | .error _ => false) && bankTargets (x.val (.s 10) (lowest x.g)) == some [3]) = true ∧ fallback sImg (islandOfCluster 3) = false ∧
    issuesWith meterI never sMeter (fun x => (xlateAll sMeter 0 true .write (x.val64 (.s 6) (lowest x.g)) 1024).isOk) = true ∧
    issuesWith meterI never s0 (fun x => (xlateAll s0 0 true .write (x.val64 (.s 6) (lowest x.g)) 1024).isOk) = true ∧
    [Instr.tmrRd c0 false ⟨.s 10, .none, 0⟩, .tmrArm c0 true ⟨.none, .s 2, 0⟩, .tmrOff c0 false ⟨.none, .none, 0⟩].all (issuesB · never s0) = true := by decide +kernel
theorem test_weights : weightIn (after ewtI sImg) 3 0 0 = 77 ∧ got (after meterI s0) (.s 10) = 2 ∧ got (after meterI sMeter) (.s 10) = 0 ∧
    got (after (.tmrRd c0 false ⟨.s 10, .none, 0⟩) { s0 with now := 9 }) (.s 10) = 9 ∧
    ((find (after (.tmrArm c0 true ⟨.none, .s 2, 0⟩) s0).warps 0).map fun w => w.ctxd.t) = some 0x50000 := by decide +kernel

/-! ### Invariants -/

theorem hwT_reserved {m : SMap DWord} (l : List (RegKind × Nat × Nat)) (h : ∀ k n, hwGet m k n &&& ~~~regMask k n = 0) (k : RegKind) (n : Nat) :
    hwGet (l.foldl (fun m e => hwSet m e.1 e.2.1 (dw e.2.2)) m) k n &&& ~~~regMask k n = 0 := by
  induction l generalizing m with
  | nil => exact h k n
  | cons e r ih => exact ih fun k' n' => hwSet_reserved _ _ _ _ _ (h k' n')
/-- What `Inv` says beside the reserved bits. -/
def shaped (s : State) : Bool := memWf s.mem && rising s.hw && rising s.warps && rising s.wgs && rising s.launches && rising s.ctxs && rising s.tens &&
  rising s.parts && rising s.queues && rising s.clusters && rising s.cores && rising s.islands && rising s.fws
theorem inv_of {s : State} (h : shaped s = true) (hr : ∀ k n, reg s k n &&& ~~~regMask k n = 0) : Inv s := by
  simp only [shaped, Bool.and_eq_true] at h
  obtain ⟨⟨⟨⟨⟨⟨⟨⟨⟨⟨⟨⟨a, b⟩, c⟩, d⟩, e⟩, f⟩, g⟩, i⟩, j⟩, k⟩, l⟩, m⟩, n⟩ := h
  exact ⟨a, b, c, d, e, f, g, i, j, k, l, m, n, hr⟩
theorem reserved_s0 : ∀ k n, hwGet s0.hw k n &&& ~~~regMask k n = 0 :=
  hwT_reserved (m := []) [(.bstat, 0, 1), (.istat, 0, 0x124), (.part, 0, 0x80000000), (.ctxd, 0, 0x83010002), (.ctxt, 0, 2 ^ 63 + placeRoot1),
    (.s2r, 0, 2 ^ 63 + placeRoot2), (.cbal, 0, 2 ^ 40), (.ctxs, 0, 1)] regReset_reserved
/-- R219: a step from a state of the invariants; its group issues. -/
theorem witness_step : Inv s0 ∧ (match step (State.reset.withFetchWord 96 0x005E003FFFFFFFFFFFF00000) with
    | .next t => pc1 t == some 0x40044
    | _ => false) = true := ⟨inv_of (by decide +kernel) reserved_s0, by decide +kernel⟩

/-- R32, R335: a second warp of the context, on another lane quarter at the same PC, joins the slot of a `nop`, and the base weight
is charged once. -/
def sPair : State := let s := State.reset.withFetchWord 96 0x005E003FFFFFFFFFFFF00000
  { s with warps := [(0, placeWarp), (1, { placeWarp with index := 1 })] }
def sFirst : State := match coreOffer sPair 0 with
  | some (c, .issue cur i) => let p := planOffer (c, .issue cur i)
    match exec i (run p.pre sPair) with
    | .next t => t
    | _ => sPair
  | _ => sPair
theorem test_coissue : (match coOffer sFirst 0 with
    | some (c, cur, i) => c.wk == 1 && cur.co && (match exec i (run (planJoin (c, cur, i)).pre sFirst) with
      | .next t => pc1 t == some 0x40044 && reg sFirst .cbal 0 != reg sPair .cbal 0 && reg t .cbal 0 == reg sFirst .cbal 0 &&
          (find t.warps 1).any (fun w => (laneOf w 3).pc == 0x40044#64)
      | _ => false)
    | none => false) = true := by decide +kernel

/-! ### Schedules and energy (R321 to R355) -/

def sIdle : State := { s0 with ctxs := [(0, ⟨false, 0, false, true, 0, 0, 0, false⟩)] }
def sOut : State := { s0 with ctxs := [(0, ⟨false, 0, false, false, 0, 0, 0, false⟩)] }
def sSlice : State := { s0 with now := 200000 }
def sHang : State := { s0 with ctxs := [(0, ⟨true, 0, false, false, 0, 1000000, 0, false⟩)] }
theorem witness_schedule : Inv s0 ∧ (ctxOf s0 0).resident = true ∧ Inv sIdle ∧ (ctxOf sIdle 0).stopping = true ∧ quiet sIdle 0 = true ∧ Inv sOut ∧
    canEnter sOut 0 = true ∧ Inv sSlice ∧ (partOf sSlice 0).ranked + 1000 * dbits (reg sSlice .psch 0) 0 16 ≤ sSlice.now ∧ fallback sSlice 0 = false ∧
    Inv sHang ∧ hangDue sHang 0 = true :=
  ⟨inv_of (by decide +kernel) reserved_s0, by decide +kernel, inv_of (by decide +kernel) reserved_s0, by decide +kernel, by decide +kernel,
    inv_of (by decide +kernel) reserved_s0, by decide +kernel, inv_of (by decide +kernel) reserved_s0, by decide +kernel, by decide +kernel,
    inv_of (by decide +kernel) reserved_s0, by decide +kernel⟩
theorem test_schedule : dbits (reg (after (.contextSwitchOut 0) s0) .ctxs 0) 0 2 = 2 ∧ dbits (reg (after (.contextSwitchOut 0) sIdle) .ctxs 0) 0 2 = 0 ∧
    (ctxOf (after (.contextSwitchIn 0) sOut) 0).resident = true ∧ (partOf (after (.sliceBoundary 0) sSlice) 0).ranked = 200000 := by decide +kernel
/-- An operating-point move of cluster 0 that is to end at point 7. -/
def sMove : State := { s0 with clusters := [(0, { clusterOf s0 0 with move := some ⟨7, 5⟩ })], now := 5 }
theorem witness_energy : Inv sMove ∧ (clusterOf sMove 0).move = some ⟨7, 5⟩ ∧ rising [(3, 5), (4, 7)] = true ∧ ctxValid sMove 0 = true ∧ fallback sMove 0 = false :=
  ⟨inv_of (by decide +kernel) reserved_s0, by decide +kernel, by decide +kernel, by decide +kernel, by decide +kernel⟩
/-- R338: a context's inflow; R349: the move ends at its point. -/
theorem test_energy : opNow (after (.opMoveComplete 0) sMove) 0 = 7 ∧
    reg (run (ctxPeriod 0) { s0 with hw := hwT s0 [(.cinf, 0, 1000)] }) .cbal 0 = 2 ^ 40 + 1000 := by decide +kernel
/-- A cap group whose only other member is peer 3. -/
def sRack : State := { s0 with hw := hwT s0 [(.rcfg, 0, 0x05DC0001)], flash := { s0.flash with members := [3] }, demands := [(0, (0, 4000)), (3, (0, 2000))] }
/-- A reading whose span has ended, before and after its bytes are taken; the record goes to 0x51000. -/
def sRead (snap : List Byte) : State := { sMeter with tens := [(0, { tenantOf s0 0 with reading := some ⟨0, 0x51000, 10000, snap⟩ })], now := 10000 }
theorem witness_samples : Inv sRack ∧ capGroup sRack ≠ 0 ∧ canBroadcast sRack = true ∧ demandOf sRack (ownPeer sRack) = some 4000 ∧ demandOf sRack 3 = some 2000 ∧
    demandOf { sRack with now := 1000000 } 3 = none ∧ Inv (sRead []) ∧
    Inv (sRead (zeros 512)) ∧ (tenantOf (sRead (zeros 512)) 0).reading = some ⟨0, 0x51000, 10000, zeros 512⟩ ∧
    [0, 1023].all (fun i => paOf (sRead (zeros 512)) 0 true .write (0x51000 + i) == some (0x51000 + i)) = true :=
  ⟨inv_of (by decide +kernel) (hwT_reserved _ reserved_s0), by decide +kernel, by decide +kernel, by decide +kernel,
    by decide +kernel, by decide +kernel, inv_of (by decide +kernel) (hwT_reserved _ reserved_s0), inv_of (by decide +kernel) (hwT_reserved _ reserved_s0),
    by decide +kernel, by decide +kernel⟩
/-- The page of the record in the translation cache: its addresses are the same in every state that differs in memory and tiles alone. -/
def sRec : State := { sRead (zeros 512) with tlb := [⟨0, 5, 0x50000, 0, 0x3F, 0x3F, 0, 0, none, 5, 1⟩] }
theorem witness_record (u : State) (h : Rest sRec u [.mem, .cores]) (ht : u.tlb = sRec.tlb) (i : Nat) (hi : i < 1024) :
    paOf u 0 true .write (0x51000 + i) = some (0x51000 + i) := by
  have h1 : reg u .ctxt 0 = reg sRec .ctxt 0 := h.hw _ _ (by decide) (by decide) (by decide)
  have h2 : reg u .ctxd 0 = reg sRec .ctxd 0 := h.hw _ _ (by decide) (by decide) (by decide)
  have h3 : ∀ n, reg u .s2r n = reg sRec .s2r n := fun n => h.hw _ _ (by decide) (by decide) (by decide)
  have key : ∀ i, i < 1024 → (dw (0x51000 + i)).toNat < 2 ^ 52 ∧ (sRec.tlb.find? fun t => t.ctx == 0 && t.page == (dw (0x51000 + i)).toNat / 65536).bind
      (tlbHit .write true (dw (0x51000 + i)).toNat) = some ⟨.mem (0x51000 + i) true, []⟩ := by decide +kernel
  have c1 : dbit (reg sRec .ctxt 0) 63 = true := by decide +kernel
  have c2 : dbit (reg sRec .s2r (dbits (reg sRec .ctxd 0) 8 8)) 63 = true := by decide +kernel
  simp only [paOf, xlateCtx, ctxTenant, h1, h2, h3, ht, (key i hi).2, c1, c2, Nat.not_le.mpr (key i hi).1]
  rfl
theorem test_samples : ((tenantOf (after (.meterRecordWrite 0) (sRead [])) 0).seq) = 1 ∧ (after .rackCapBroadcast sRack).demands = [(0, (0, 5000)), (3, (0, 2000))] := by
  decide +kernel

/-! ### Words and well-formed terms (R56 to R66) -/

/-- Fields as R56 and R63 to R66 lay them out, from the opcode down, with guard `pt`; operand codes as in R60 and R61. -/
def upper (opc : BitVec 10) : BitVec 26 := opc ++ 0#1 ++ 15#4 ++ 0#11
def f5w (opc d a b c e : BitVec 10) (m : BitVec 8) : BitVec 96 := upper opc ++ d ++ a ++ b ++ c ++ e ++ m ++ 0#12
def riw (opc d a : BitVec 10) (m : BitVec 8) (i : BitVec 32) : BitVec 96 := upper opc ++ d ++ a ++ m ++ i ++ 0#10
def tw (opc data tile timm addr : BitVec 10) (u c : BitVec 6) (m : BitVec 8) (pd : BitVec 4) : BitVec 96 :=
  upper opc ++ data ++ tile ++ timm ++ addr ++ u ++ c ++ m ++ pd ++ 0#6
def bw' (opc : BitVec 10) (offb : BitVec 30) (t l : BitVec 10) (m : BitVec 8) : BitVec 96 := upper opc ++ offb ++ t ++ l ++ m ++ 0#12
def xw (opc d a : BitVec 10) (sel : BitVec 16) (m : BitVec 8) : BitVec 96 := upper opc ++ d ++ a ++ sel ++ m ++ 0#26
def words : List (BitVec 96 × Instr) := [
  (0x005E003FFFFFFFFFFFF00000, .nop c0 (f2 .none .none .none)),
  (f5w 0x002 0x00A 0x001 0x002 0x3FF 0x383 1, .add c0 .n32 ⟨.v 10, .v 1, .v 2, .none, .p 3⟩),
  (riw 0x003 0x20A 0x200 0 0xFFFFFFFE, .addRi c0 .i32 (ri (.s 10) (.s 0) 0xFFFFFFFE)),
  (f5w 0x006 0x00A 0x001 0x341 0x3FF 0x3FF 4, .subSat c0 .i32 (f2 (.v 10) (.v 1) (.imm 65))),
  (f5w 0x010 0x00A 0x001 0x002 0x3FF 0x3FF 0, .div c0 .i32 (f2 (.v 10) (.v 1) (.v 2))),
  (f5w 0x040 0x00A 0x001 0x002 0x3FF 0x3FF 8, .lcomb c0 8 0 (f2 (.v 10) (.v 1) (.v 2))),
  (f5w 0x045 0x00A 0x001 0x002 0x304 0x304 0, .bfi c0 ⟨.v 10, .v 1, .v 2, .imm 4, .imm 4⟩),
  (f5w 0x0A1 0x102 0x200 0x302 0x3FF 0x3FF 0, .amk c0 (f2 (.a 2) (.s 0) (.imm 2))),
  (riw 0x0C3 0x00A 0x004 0 0xBF800000, .fmulRi c0 .f32 (ri (.v 10) (.v 4) 0xBF800000)),
  (f5w 0x106 0x00A 0x005 0x3FF 0x3FF 0x3FF 0x10, .cvtN32 c0 .f32 .rz false (f2 (.v 10) (.v 5) .none)),
  (f5w 0x150 0x3FF 0x302 0x303 0x3FF 0x3FF 0, .accZero c0 (two (.imm 2) (.imm 3))),
  (0x60A820009410000060180000, .ld { c0 with neg := true, pred := .p 4, look := 1, hint := 0 } .n16 false .dev ⟨.v 9, .a 4, 0, 0x60⟩),
  (0x629E0020CFFC020E40180000, .st c0 .b32 false .dev ⟨.s 12, .none, 0, 0x20E40⟩),
  (xw 0x1E0 0x3FF 0x3FF 0 0x1C, fenI),
  (tw 0x1F0 0x3FF 0x3FF 1 0x3FF 63 2 0 15, tarmI),
  (bw' 0x246 0 0x3FF 0x3FF 0, .exit c0 (ob .none)),
  (f5w 0x272 0x3FF 0x3FF 0x3FF 0x3FF 0x3FF 0, .yield c0 (f2 .none .none .none)),
  (xw 0x280 0x3FF 0x3FF 5 0, trapI),
  (xw 0x286 0x20A 0x3FF 2 0, srI)]
def decodesTo (e : BitVec 96 × Instr) : Bool := match decodeWord e.1 with
  | .ok i => decide (i = e.2)
  | .error _ => false
theorem test_words : words.all decodesTo = true := by decide +kernel
/-- An unassigned opcode, guard 12, a reserved bit, an illegal special index, an affine index above 31. -/
theorem test_refused : [f5w 0x001 0x00A 0x001 0x002 0x3FF 0x3FF 0, 0x0058003FFFFFFFFFFFF00000, 0x005E003FFFFFFFFFFFF00001, f5w 0x002 0x00A 0x38C 0x002 0x3FF 0x3FF 0,
    f5w 0x002 0x00A 0x120 0x002 0x3FF 0x3FF 0].all (fun w => match decodeWord w with
      | .ok _ => false
      | .error _ => true) = true := by decide +kernel
/-- A term that each check refuses: LOOK, a destination that is no register, mixed classes, an odd pair, a type, a predicate, F2 without C, tiles, UBASE,
a jump table's base, a frame selector, a register selector, a level's width. -/
theorem test_ill_formed : [Instr.add { c0 with look := 1 } .n32 (f2 (.v 10) (.v 1) (.v 2)), .add c0 .n32 (f2 (.imm 1) (.v 1) (.v 2)),
    .add c0 .n32 (f2 (.s 10) (.v 1) (.v 2)), .add c0 .n64 (f2 (.v 11) (.v 2) (.v 4)), .addSat c0 .i64 (f2 (.v 10) (.v 2) (.v 4)),
    .cmp c0 .i32 .lt .none ⟨.v 3, .v 2, .v 1, .none, .p 4⟩, .lcomb c0 8 1 (f2 (.v 10) (.v 1) (.v 2)), .accZero c0 (two (.v 2) (.imm 3)),
    .tarm c0 ⟨.none, .none, 768, .none, 63, 2, none⟩, .tarm c0 ⟨.none, .none, 1, .none, 63, 0, none⟩, .tarm c0 ⟨.none, .none, 1, .none, 63, 2, some 3⟩,
    .ld c0 .b32 false .dev ⟨.v 10, .a 3, 3, 0⟩, .ld c0 .b64 false .dev ⟨.v 11, .a 3, 2, 0⟩, .jtb c0 3 jtbO, .exit c0 ⟨1, .none, .none⟩,
    .barw c0 ⟨.none, .v 2, .imm 1, .none, .none⟩, .frmRd c0 ⟨.v 10, .none, 17⟩, .srRd c0 ⟨.s 10, .none, 5⟩, .srRd c0 ⟨.s 11, .none, 0⟩,
    .tmrRd c0 false ⟨.s 11, .none, 0⟩].all (fun i => !WellFormed i) = true := by decide +kernel
theorem witness_words : WellFormed addI = true ∧ (encode addI).isSome = true := by decide +kernel

/-! ### Queues and launches (R309 to R319) -/

/-- A funded tenant with an image of 4 MiB at 0x400000, and a queue of four packets whose ring is at 0x52000. -/
def queue4 : Queue := ⟨0x51000, 0x52000, 2, true, 0, 0, 1, [], false, none, [], none⟩
def sQueue (pkt : List Byte) : State := { s0 with
  hw := hwT s0 [(.tbud, 0, 2 ^ 63 + 2 ^ 40), (.cimg, 0, 4 * 2 ^ 52 + 0x400000)]
  tens := [(0, { tenantOf s0 0 with ceil := 2 ^ 40, avail := 2 ^ 40 })]
  queues := [(0, queue4)], warps := [], wgs := [], launches := [], mem := placeBytes s0.mem 0x52000 pkt }
def wrsigP : List Byte := le 8 2 ++ le 8 0x53000 ++ le 8 77 ++ le 8 0x53008 ++ le 8 5
def waitP : List Byte := le 8 3 ++ le 8 0x53000 ++ le 8 1
/-- A rectangle of two by two cores at the partition's corner, with its record at 0x54000 and its completion record at 0x53000. -/
def launchP : List Byte := le 4 1 ++ le 4 (2 * 2 ^ 10 + 2 * 2 ^ 16) ++ le 8 0x54000 ++ le 8 0x53000
def record1 : List Byte := le 4 0x01020010 ++ le 4 0 ++ le 4 (16 * 2 ^ 16 + 8) ++ le 4 1000000 ++ zeros 16 ++ le 8 placeBlock ++ le 4 (16 + 4 * 2 ^ 16) ++ le 4 2
def sLaunch : State := { sQueue launchP with mem := placeBytes (sQueue launchP).mem 0x54000 record1 }
def headIs (s : State) (kind : Nat) : Bool := match served s 0 0 with
  | some (0, q, .pkt k) => q == queue4 && k.kind == kind
  | _ => false
def launchOk (s : State) : Bool := match served s 0 0 with
  | some (_, q, .pkt k) => let u := run (startPacket 0 0 q) s
    (launchCheck u u.tick q k 0).isOk
  | _ => false
theorem witness_packets : headIs (sQueue wrsigP) 2 = true ∧ headIs (sQueue waitP) 3 = true ∧ headIs sLaunch 1 = true ∧ headIs (sQueue (le 8 9)) 9 = true ∧
    headIs (sQueue launchP) 1 = true ∧ launchOk sLaunch = true ∧ launchOk (sQueue launchP) = false ∧ (devPa (sQueue []) 0 .rmw 0x51000).isOk = true ∧
    paOf (sQueue []) 0 true .write 0x51018 = some 0x51018 := by decide +kernel
theorem test_packets : memNat (after (.wrsig 0 0) (sQueue wrsigP)).mem 0x53000 8 = 77 ∧ memNat (after (.wrsig 0 0) (sQueue wrsigP)).mem 0x53008 8 = 5 ∧
    memNat (after (.wrsig 0 0) (sQueue wrsigP)).mem 0x51018 8 = 1 ∧ ((find (after (.wait 0 0) (sQueue waitP)).queues 0).map fun q => q.wait.isSome) = some true ∧
    ((find (after (.invalidKindPacket 0 0) (sQueue (le 8 9))).queues 0).map (·.stopped)) = some true := by decide +kernel
def sWr (n : Nat) : State := { sQueue [] with mem := placeBytes s0.mem 0x51010 (le 8 n) }
def sWaiting : State := { sQueue [] with queues := [(0, { queue4 with wait := some (0x53000, 0, 0) })], now := 2000 }
/-- R309: WR may move up to a ring's length ahead of RD. -/
theorem test_queue_wr : ((find (after (.queueWrChange 0 0) (sWr 4)).queues 0).map fun q => (q.wr, q.stopped)) = some (4, false) ∧
    ((find (after (.queueWrChange 0 0) (sWr 5)).queues 0).map (·.stopped)) = some true ∧
    ((find (after (.waitReload 0 0) sWaiting).queues 0).map fun q => q.wait.isSome) = some false := by decide +kernel
theorem test_launch : ((after (.launch 0 0) sLaunch).launches.getLast?.map Prod.snd |>.map fun l => (l.w, l.h, l.lr.width, l.lr.acc)) = some (2, 2, 16, 16) ∧
    memNat (after (.launch 0 0) (sQueue launchP)).mem 0x53000 4 = 5 := by decide +kernel
def sPlaced : State := { sQueue [] with launches := [(0, { placeLaunch with released := [] })], queues := [], nextId := 1 }
/-- A launch whose one core has ended, with its completion record at 0x53000. -/
def sEnded : State := { sQueue [] with launches := [(0, { placeLaunch with ended := [0], compl := 0x53000, lr := { placeRec with cor := true } })] }
def sMap : State := { sQueue [] with tens := [(0, { tenantOf s0 0 with map := some ⟨true, 0, 0x51000, false, none⟩ })] }
theorem witness_launches : canTake sPlaced 0 placeRec = true ∧ findArea sPlaced 0 (areaSize placeRec) = some 0x3000 ∧ rectCores placeLaunch = [0] ∧
    launchDone sEnded 0 ((find sEnded.launches 0).getD placeLaunch) = true ∧ dbit (reg s0 .qstat 0) 31 = false ∧
    dbit (reg { s0 with hw := hwT s0 [(.qstat, 0, 2 ^ 31)] } .qstat 0) 31 = true ∧ (tenantOf sMap 0).map = some ⟨true, 0, 0x51000, false, none⟩ := by decide +kernel
/-- R41: role 0 of 16 threads is one warp of 16, at its entry block. -/
theorem test_release : ((run (acts [upd (.wg 1 (some (freshWg 0 0 5 0x3000 placeRec [0] [0]))), startWarps 1 placeRec]) sPlaced).warps.map fun e =>
    (e.1, e.2.core, e.2.lanes.length, (laneOf e.2 15).pc)) = [(1, 5, 16, dw (placeBlock + 4))] := by decide +kernel
theorem test_launches : (find (after (.launchComplete 0) sEnded).launches 0) = none ∧ memNat (after (.launchComplete 0) { sEnded with now := 9 }).mem 0x53008 8 = 9 ∧
    (find (after (.qmapComplete 0) sMap).queues 0) = none ∧ dbit (reg (after (.qmapMap 0 0x51040) s0) .qstat 0) 31 = true := by decide +kernel

/-! ### Register writes and optics (R4, R24, R376 to R394) -/

theorem test_register_writes : reg (after (.registerWrite .hvec 0 0xFFFF .supervisor) s0) .hvec 0 = 0xFFC0 ∧
    after (.registerWrite .hvec 0 0xFFFF .program) s0 = s0 ∧ dbit (reg (after (.ctxdWrite 5 0x80000000) s0) .ctxd 5) 0 = true ∧
    ctxShare (after (.ctxdWrite 5 0x80FF0000) s0) 5 = 255 ∧ reg (after (.pschWrite 0 0) s0) .psch 0 = 100 ∧
    dbit (reg (after (.pcfgWrite 0 0x0000000F) s0) .pcfg 0) 31 = true ∧ ownerOf (after (.pcfgWrite 0 0x000000F0) s0) 0 = 0 ∧
    dbits (reg (after (.opmbWrite 0 0xF) s0) .opmb 0) 0 4 = 6 ∧ dbit (reg (after (.ilimWrite 0 1101) s0) .ilim 0) 31 = true ∧
    dbit (reg (after (.partWrite 1 0x80000000) s0) .part 1) 30 = true ∧ partRect (after (.partWrite 1 0x80000001) s0) 1 = (1, 0, 1, 1) ∧
    dbit (reg (after (.fsegWrite 3 0 0x80000000) s0) .fseg 24) 30 = true ∧ dbit (reg (after (.peereWrite 0 2) s0) .peere 0) 1 = false ∧
    dbit (reg (after (.otxmWrite 7 0) s0) .otxm 7) 31 = true ∧ dbits (reg (after (.ostrWrite 7 1) s0) .ostr 7) 0 2 = 1 ∧
    dbit (reg (after (.ostrWrite 7 3) s0) .ostr 7) 31 = true := by decide +kernel
/-- Channel 2 of rotor 7 wakes, and a relayed flit has waited 160 µs. -/
def flit1 (dst src ty : Nat) : Flit := sealed ⟨BitVec.ofNat 12 dst, BitVec.ofNat 12 src, 0, 0x50000, BitVec.ofNat 4 ty, 0, 1, 9, 0, 0, zeros 64, 0, 0⟩
def sOpt : State := { s0 with fabric := { s0.fabric with waking := [(8 * 7 + 2, 5)], relay := [(4, 0, flit1 5 3 0)] }, now := 160000 }
/-- A load of peer 3 is a millisecond late. -/
def sLate : State := { s0 with fabric := { s0.fabric with remotes := [⟨9, 3, 0, 0, 0, 1, 4, 0, 0, 1, 0, 0, 0⟩] }, now := 1000000 }
theorem witness_writes_optics : Inv s0 ∧ Inv sOpt ∧ find sOpt.fabric.waking (8 * 7 + 2) = some 5 ∧ Inv sLate ∧ sLate.fabric.remotes.length = 1 ∧
    (sOpt.fabric.relay.find? fun e => e.1 == 4) = some (4, 0, flit1 5 3 0) ∧ ownPeer sOpt = 0 ∧ fallback s0 (islandOfPart s0 (ctxTenant s0 0)) = false ∧
    (sLate.fabric.remotes.all fun r => r.kind != 4 && r.sent != 0 && decide (r.sent - 1 + 1000000 ≤ sLate.now)) = true :=
  ⟨inv_of (by decide +kernel) reserved_s0, inv_of (by decide +kernel) reserved_s0, by decide +kernel, inv_of (by decide +kernel) reserved_s0, by decide +kernel,
    by decide +kernel, by decide +kernel, by decide +kernel, by decide +kernel⟩
theorem test_optics : find (after (.laserLock 7 2) sOpt).fabric.waking (8 * 7 + 2) = none ∧ (after (.relayTimeout 4) sOpt).fabric.relay = [] ∧
    (reg (after .rotorSlotBoundary s0) .rots 0).toNat = 1 ∧ (after (.peerLost 3) sLate).fabric.remotes = [] := by decide +kernel
def sLink (st : Nat) : State := { s0 with link := { s0.link with lanes := 8 }, hw := hwT s0 [(.bstat, 0, st)] }
/-- In slot 10 no rotor connects this package with package 3, so that no receive ring has a part in what comes from there. -/
def sSlot : State := { s0 with hw := hwT s0 [(.rots, 0, 10)] }
/-- A segment of 64 KiB from address 0, for every peer, to be read and written. -/
def sSeg : State := { s0 with hw := hwT s0 [(.rots, 0, 10), (.fseg, 0, 0x9C000000), (.fseg, 4, 64)] }
/-- A flit for package 5 that relays here, and one whose check fails. -/
def flitBad : Flit := { flit1 5 3 0 with chk := (flit1 5 3 0).chk + 1 }
def flitRelay : Flit := sealed { flit1 5 3 0 with hop := 1 }
def sAlone : State := { sSlot with flash := { sSlot.flash with fabric := false } }
def comes (s : State) (f : Flit) : Bool := powered s && flitOk (received s s.tick f)
def spoilt (s : State) (f : Flit) : Bool := powered s && !flitOk (received s s.tick f)
theorem witness_relay : comes sSlot flitRelay = true ∧ flitRelay.hop = 1 ∧ s0.fabric.relay.length < relayRoom sSlot ∧ relayRoom sAlone = 0 ∧ comes sAlone flitRelay = true ∧
    spoilt sSlot flitBad = true ∧ flitBad.ty ≠ 9 ∧ flitBad.dst.toNat ≠ ownPeer s0 ∧ spoilt sSlot { flitBad with ty := 9 } = true ∧ powered (sLink 0) = false := by
  decide +kernel
/-- R386: a relay keeps a flit on its first hop, and none without its region; R380: it answers a bad flit's source with an error. -/
theorem test_relay : ((after (.flitReceive flitRelay) sSlot).fabric.relay.map fun e => e.2.2.hop) = [2] ∧ (after (.flitReceive flitRelay) sAlone).fabric.relay = [] ∧
    (findD (after (.flitReceive flitBad) sSlot).fabric.tx 3 []).map (fun f => (f.ty, f.dst.toNat)) = [(8, 3)] := by decide +kernel
def sInbox : State := { sSeg with fabric := { sSeg.fabric with inbox := [flit1 0 3 2] } }
/-- A load, a store and an atomic with a return of lane 1 away at peer 3, and their answers. -/
def awayAt (kind : Nat) : State := let s := after (if kind == 1 then .atomAdd c0 .rlx .dev false false (om (.v 8)) else if kind == 2 then stI else ldI) sWin
  { s with hw := hwSet s.hw .rots 0 10, fabric := { s.fabric with remotes := s.fabric.remotes.map fun r => { r with peer := 3, sent := 1 } } }
def answer (kind : Nat) (ty : Nat) (off : Nat) : Flit := sealed { flit1 0 3 ty with off := BitVec.ofNat 40 off, tag := BitVec.ofNat 16 (((awayAt kind).fabric.remotes.head?.map (·.tag)).getD 0) }
def answered (kind : Nat) (f : Flit) : Bool := comes (awayAt kind) f && match remoteOfFlit (awayAt kind) f with
  | some r => r.kind == kind && r.lane == 1 && (kind == 2 || match outOf (awayAt kind) 0 with
    | some o => o.id == r.out && inMask o.left 1 && decide (1 < o.res.vals.length) && (match o.kind with | .remote _ _ => true | _ => false) && r.bytes == 4
    | none => false)
  | none => false
theorem witness_flits : comes sSeg (flit1 0 3 0) = true ∧ reqCheck sSeg (reqOf (flit1 0 3 0) []) = 0 ∧ reqCheck s0 (reqOf (flit1 0 3 0) []) = 1 ∧
    spoilt sSeg { flit1 0 3 0 with chk := (flit1 0 3 0).chk + 1 } = true ∧ (sInbox.fabric.inbox.find? fun g => g.src == 3 && g.tag == 9 && g.ty == 2).isSome = true ∧
    comes sInbox (flit1 0 3 2) = true ∧ comes sInbox (flit1 0 3 4) = true ∧ isRequest (flit1 0 3 0) = true ∧
    answered 0 (answer 0 1 0) = true ∧ answered 0 (answer 0 8 0) = true ∧ answered 1 (answer 1 5 0) = true ∧ answered 2 (answer 2 3 0) = true := by decide +kernel
theorem test_flits : (findD (after (.flitReceive (flit1 0 3 0)) sSeg).fabric.tx 3 []).map (·.ty) = [1] ∧
    (findD (after (.flitReceive (flit1 0 3 0)) sSlot).fabric.tx 3 []).map (fun f => (f.ty, f.off.toNat)) = [(8, 1)] ∧
    (after (.flitReceive (flit1 0 3 2)) sSeg).fabric.inbox.length = 1 ∧
    (findD (after (.flitReceive (flit1 0 3 2)) sInbox).fabric.tx 3 []).map (·.ty) = [3] := by decide +kernel

/-! ### Firmware, power and the host (R19 to R22, R429 to R446) -/

def fwS (f : FwCore) (now : Nat) : State := { s0 with fws := [(1, f)], now := now }
def sCrash : State := fwS { fwOf s0 1 with crash := true } 5
def sStall : State := fwS { fwOf s0 1 with status := 1, last := 0 } 1000000
def sReload : State := fwS { fwOf s0 1 with status := 2 } 5
/-- The command processor of island 0 is back while its fallback scheduler runs. -/
def sBack : State := { fwS { fwOf s0 1 with status := 1 } 5 with hw := hwT s0 [(.istat, 0, 0x944)] }
/-- Island 0 at step 1 of bring-up, in time or late; and at step 3. -/
def sBoot (step due : Nat) : State := { s0 with hw := hwT s0 [(.bstat, 0, 0), (.istat, 0, step)], boot := { s0.boot with running := true, due := due }, now := 10 }
theorem witness_firmware : Inv sCrash ∧ (fwOf sCrash 1).crash = true ∧ Inv sStall ∧ devState sStall ≠ 0 ∧ (fwOf sStall 1).last + 1000000 ≤ sStall.now ∧ Inv sReload ∧
    (fwOf sReload 1).status = 2 ∧ Inv sBack ∧ (fwOf sBack 1).status = 1 ∧ dbits (reg sBack .istat 0) 5 3 = 2 ∧ fallback sBack 0 = true ∧ Inv (sBoot 1 9) ∧
    bootIsland (sBoot 1 9) = 0 ∧ Inv (sBoot 3 20) ∧ dbits (reg (sBoot 3 20) .istat 0) 0 3 = 3 ∧ ctxValid sCrash 0 = true :=
  ⟨inv_of (by decide +kernel) reserved_s0, by decide +kernel, inv_of (by decide +kernel) reserved_s0, by decide +kernel, by decide +kernel,
    inv_of (by decide +kernel) reserved_s0, by decide +kernel, inv_of (by decide +kernel) (hwT_reserved _ reserved_s0), by decide +kernel, by decide +kernel,
    by decide +kernel, inv_of (by decide +kernel) (hwT_reserved _ reserved_s0), by decide +kernel, inv_of (by decide +kernel) (hwT_reserved _ reserved_s0),
    by decide +kernel, by decide +kernel⟩
theorem test_firmware : (fwOf (after (.firmwareCoreTrap 1) sCrash) 1).status = 2 ∧ fallback (after (.firmwareCoreTrap 1) sCrash) 0 = true ∧
    (fwOf (after (.firmwareWatchdogExpiry 1) sStall) 1).status = 2 ∧ fallback (after (.fallbackHandOver 0) sBack) 0 = false ∧
    devState (after .bringupStepTimeout (sBoot 1 9)) = 2 ∧ dbits (reg (after .bringupStepTimeout (sBoot 1 9)) .bstat 0) 16 8 = 3 := by decide +kernel
/-- The image of context 0 is at 0x400000, and line 0x11880 is the first of its warp area. -/
def sFill (rc : List RcLine) : State := { s0 with
  hw := hwT s0 [(.cimg, 0, 4 * 2 ^ 52 + 0x400000)], wgs := [(0, { placeWg with area := 0 })], cores := [(0, { coreOf s0 0 with rc := rc })] }
theorem witness_fill : (((imageVa (sFill []) 0 0x11880).bind (rcOwner (sFill []) 0)).map fun e => (e.1, e.2.1.core, e.2.2)) = some (0, 0, 0) ∧
    ((imageVa s0 0 0x11880).bind (rcOwner s0 0)) = none ∧ rcWhole (sFill []) 0 0 = 8192 ∧ rcShare 8192 placeRec 0 = 8192 ∧ recOf (sFill []) placeWg = placeRec ∧ ctxValid (sFill []) 0 = true ∧
    rcShare 8192 { placeRec with roles := 2, r0 := ⟨0, 16, 16, 0, 0⟩, r1 := ⟨0, 48, 16, 0, 0⟩ } 0 = 2048 := by decide +kernel
theorem inv_fill : Inv (sFill []) := inv_of (by decide +kernel) (hwT_reserved _ reserved_s0)
/-- R409: the line is held afterwards, and its fill is charged. -/
theorem test_fill : ((coreOf (after (.registerCacheFill 0 0x11880 false) (sFill [])) 0).rc.map fun e => (e.wg, e.role, e.line)) = [(0, 0, 0x11880)] := by
  decide +kernel
/-- R36, R43: the registers of a warp of 16 lanes and 256 varying registers fill 32 + 256 lines of their own. -/
theorem test_rcEnter : ((coreOf (run (rcEnter 0 0) (sFill [])) 0).rc.map (·.line)) = (List.range 32).map (0x11880 + ·) ++ (List.range 256).map (0x11AD0 + ·) := by
  decide +kernel
def trip1 : Trip := ⟨0, 0, 1, 0, 0, 0, false⟩
theorem witness_power : Inv s0 ∧ devState s0 = 1 ∧ s0.boot.running = false ∧ Inv (sBoot 1 9) ∧ (sBoot 1 9).boot.running = true ∧
    ({ s0 with trips := [trip1] } : State).trips = [] ++ trip1 :: [] ∧ trip1.acked = false :=
  ⟨inv_of (by decide +kernel) reserved_s0, by decide +kernel, by decide +kernel, inv_of (by decide +kernel) (hwT_reserved _ reserved_s0), by decide +kernel,
    rfl, rfl⟩
theorem test_power : devState (after .rootTrap s0) = 4 ∧ devState (after (.hardTrip 3 460) s0) = 4 ∧
    (after .tripLogAck { s0 with trips := [trip1] }).trips = [{ trip1 with acked := true }] := by decide +kernel
def req (op : BitVec 16) (len : Nat) (arg0 : BitVec 32) (arg1 : BitVec 64) (p : List Byte) : KReq := ⟨op, len, 7, 0, arg0, arg1, 0, p⟩
def resp (s : State) : List (Nat × Nat) := s.link.resp.map fun r => (r.rstat, r.payload.length)
/-- A read or a write of 16 bytes, whose access is still to be made. -/
def hostJob (write : Bool) (pa : Nat) : KPend :=
  ⟨s0.nextId, if write then 0x31 else 0x30, 7, none, some ⟨0, write, false, [(0, pa)], if write then [1, 2, 3, 4] ++ zeros 12 else zeros 16⟩, none⟩
def sHost (write : Bool) (pa : Nat) : State := { sLink 1 with link := { (sLink 1).link with pending := [hostJob write pa] } }
theorem witness_host : (sLink 1).link.lanes ≠ 0 ∧ outstanding (sLink 1).link < 64 ∧ devState (sLink 1) = 1 ∧ devState (sLink 2) = 2 ∧ s0.link.lanes = 0 ∧
    (sLink 2).llc = [] ∧ memReqBad (req 0x30 0 (16 * 2 ^ 16) 0x40000 []) = false ∧ ctxValid (sLink 1) 0 = true ∧ ctxValid (sLink 1) 5 = false ∧
    (xlateAll (sLink 1) 0 true .read 0x40000 16).isOk = true ∧ (xlateAll (sLink 1) 0 true .read 0x80000000 16).isOk = false ∧
    [1, 2, 3, 0x10, 0x20, 0x30, 0x31, 99].map (fun n => (reqKind n).isSome) = [true, true, true, true, true, true, true, false] ∧
    (sHost false 0x40000).link.pending.find? (fun p => p.id == (hostJob false 0x40000).id) = some (hostJob false 0x40000) ∧
    hostUnits (sHost false 0x40000) = [(s0.nextId, 0, 0x40000)] := by decide +kernel
theorem test_host : resp (after (.status (req 1 0 0 0 [])) (sLink 1)) = [(0, 28)] ∧ resp (after (.unassignedOpRequest (req 99 0 0 0 [])) (sLink 1)) = [(2, 0)] ∧
    after (.status (req 2 0 0 0 [])) (sLink 1) = sLink 1 ∧ resp (after (.memrd (req 0x30 0 (16 * 2 ^ 16) 0x40000 [])) (sLink 2)) = [(1, 0)] ∧
    resp (after (.memwr (req 0x31 16 (16 * 2 ^ 16 + 5) 0x40000 (zeros 16))) (sLink 1)) = [(3, 0)] ∧ (after (.kebinlinkTraining 0x1F) s0).link.lanes = 4 := by
  decide +kernel
/-- R21: the accesses are made one by one, and the last lets the request be answered. -/
theorem test_host_units : (after (.memrd (req 0x30 0 (16 * 2 ^ 16) 0x40000 [])) (sLink 1)).link.pending = [hostJob false 0x40000] ∧
    (after (.memwr (req 0x31 16 (16 * 2 ^ 16) 0x53000 ([1, 2, 3, 4] ++ zeros 12))) (sLink 1)).link.pending = [hostJob true 0x53000] ∧
    resp (run (hostUnit s0.nextId (0, 0x40000)) (sHost false 0x40000)) = [(0, 16)] ∧
    memNat (run (hostUnit s0.nextId (0, 0x53000)) (sHost true 0x53000)).mem 0x53000 4 = 0x04030201 := by decide +kernel
/-- R20: the header's fields, in their order. -/
theorem test_request : parseReq (le 2 0x30 ++ le 2 5 ++ le 4 7 ++ le 4 1 ++ le 4 2 ++ le 8 3 ++ le 8 4 ++ [9]) = ⟨0x30, 5, 7, 1, 2, 3, 4, [9]⟩ := by decide +kernel

/-! ### Rounding, units and windows (R103, R253, R254, R262, R264, R376, R377) -/

/-- R103: 1 + 2^-24 of FP32 has a number; each class of value; three encodings with sums, differences and products that are not zero. -/
theorem witness_rounding : (∃ x, numOf (.fin false (2 ^ 24 + 1) (-24)) = some x ∧ x ≠ 0) ∧ numOf (.fin true 0 3) = some 0 ∧
    ∃ x y z, numOf (fp16.decode 0x3C00) = some x ∧ numOf (fp16.decode 0x4000) = some y ∧ numOf (fp16.decode 0xC200) = some z ∧
      x + y ≠ 0 ∧ x - y ≠ 0 ∧ x * y ≠ 0 ∧ y ≠ 0 ∧ x ≠ 0 ∧ ∀ nb : Bool, (if nb then -(x * y) else x * y) + z ≠ 0 := by
  refine ⟨⟨_, rfl, by norm_num⟩, by norm_num [numOf], ?_⟩
  have h1 : fp16.decode 0x3C00 = .fin false 1024 (-10) := by decide +kernel
  have h2 : fp16.decode 0x4000 = .fin false 1024 (-9) := by decide +kernel
  have h3 : fp16.decode 0xC200 = .fin true 1536 (-9) := by decide +kernel
  rw [h1, h2, h3]
  refine ⟨_, _, _, rfl, rfl, rfl, by norm_num, by norm_num, by norm_num, by norm_num, by norm_num, fun nb => by cases nb <;> norm_num⟩
/-- A unit that backs off, and one for a window. -/
def unitOff : Arrival := { unit1 with backoff := true }
def sOff : State := { sUnit with arrivals := [unitOff, { unit1 with id := 8 }] }
def unitWin : Arrival := { unit1 with win := some (3, 5, 0x70000) }
def sUnitWin : State := { sUnit with arrivals := [unitWin] }
theorem witness_backoff : sOff.arrivals.find? (fun b => b.id == 7) = some unitOff ∧ unitOff.backoff = true ∧ unitOff.src = none ∧ unitHeld sOff unitOff = false ∧
    (tasks sOff).contains (.ins (.arrivalRetry 7)) = true ∧ arrReady sUnitWin unitWin = true ∧ unitHeld sUnitWin unitWin = false ∧ unitWin.data.length = 64 := by decide +kernel
/-- R254: no attempt while it backs off; then it is behind the other. -/
theorem test_backoff : after (.tileArrival 7) sOff = sOff ∧ ((after (.arrivalRetry 7) sOff).arrivals.map fun a => (a.id, a.backoff)) = [(8, false), (7, false)] ∧
    ((after (.tileArrival 7) sUnitWin).fabric.remotes.map fun r => (r.kind, r.peer, r.out, r.ifa)) = [(4, 3, 7, ifaOf 3 5 0x70000)] := by decide +kernel
/-- A window of 2 MiB from address 0x4000000, in the window table at 0x48000: segment 5 of peer 1 from offset 0x70000. The pair s2 is its base plus `b`. -/
def sTab (b : Nat) : State := { sMem with
  warps := [(0, { warp0 with s := put warp0.s 2 (wd (0x4000000 + b)) })]
  mem := placeBytes sMem.mem 0x48000 (le 8 0x4000000 ++ le 4 1 ++ le 2 1 ++ [5, 3] ++ le 8 0x70000 ++ zeros 8)
  hw := [(RegKind.cwin, 0, 0x48001), (.peerp, 0, 2), (.peere, 0, 2), (.tpeer, 0, 0x0FFF0000)].foldl (fun m e => hwSet m e.1 e.2.1 (dw e.2.2)) sMem.hw }
def awayAll (s : State) (a : AccKind) (n mis : Nat) (os : List Opd) (o : OM) (x : Iss) : Bool := match x.check s a n mis (x.acting os) (x.ea o) with
  | .ok l => (remoteOf l).length == l.length && l != []
  | _ => false
/-- Lane 1 in memory, lane 2 in the window that follows it. -/
def sMix : State := { sWin with
  warps := [(0, { warp0 with s := put warp0.s 2 0x4FFF8 })] }
def mixedAt (a : AccKind) (os : List Opd) (o : OM) (x : Iss) : Bool := match x.check sMix a 4 12 (x.acting os) (x.ea o) with
  | .ok l => (remoteOf l).length == 1 && (localOf l).length == 1 && l.length == 2
  | _ => false
def otWin (d : Opd) : OT := { ot d with addr := .none, ubase := 2 }
theorem witness_windows_used : (atoms (.v 8) .dev).all (fun e => issuesWith e.1 (atomBusy e.2 .rlx .dev false (om (.v 8))) sWin
      (awayAll sWin .rmw 4 13 (atomOps e.2 (om (.v 8))) (om (.v 8)))) = true ∧
    issuesWith (.sred c0 .add (om (.v 8))) (sredBusy (om (.v 8))) sWin (awayAll sWin .rmw 4 13 [.v 8, .a 3] (om (.v 8))) = true ∧
    issuesWith ldI (ldBusy 4 [.a 3] (om (.v 10))) sMix (mixedAt .read [.a 3] (om (.v 10))) = true ∧
    issuesWith stI (stBusy 4 false .dev (om (.v 8))) sMix (mixedAt .write [.v 8, .a 3] (om (.v 8))) = true ∧
    issuesWith (.rgetT c0 rgetO) (rgetBusy rgetO) sWin (fun x => match x.check sWin .read 1 13 (List.range 1) (fun u => x.eaT rgetO (lowest x.g) + dw (64 * u)) with
      | .ok l => (remoteOf l).length == 1 && l.length == 1
      | _ => false) = true ∧
    [Instr.putTRetry c0 4 (otWin (.v 8)), .putTRep c0 4 { otWin (.v 8) with pd := some 3 }].all (fun i => issuesWith i never { sTab 0 with cur := some cur0 } fun x =>
      let ea := x.eaT (otWin (.v 8)) (lowest x.g)
      ea == 0x4000000 && (match findWindow (sTab 0) 0 ea.toNat with | .ok (some _, _) => true | _ => false) &&
      (match x.check (sTab 0) .write 1 13 [lowest x.g] (fun _ => ea) with
        | .ok [(j, a, r)] => j == lowest x.g && a == ea && r.dest == .win 1 5 0x70000
        | _ => false)) = true := by decide +kernel
theorem test_windows_used : ((after (.atomAdd c0 .rlx .dev false false (om (.v 8))) sWin).fabric.remotes.map fun r => (r.kind, r.ifa)) =
      [(1, ifaOf 1 5 0x70004), (1, ifaOf 1 5 0x70008)] ∧
    ((after stI sMix).stores.map (·.pa)) = [0x4FFFC] ∧ ((after stI sMix).fabric.remotes.map fun r => (r.kind, r.lane)) = [(2, 2)] ∧
    ((after (.rgetT c0 rgetO) sWin).fabric.remotes.map fun r => (r.kind, r.ifa, r.bytes)) = [(5, ifaOf 1 5 0x70000, 64)] ∧
    ((after (.putTRetry c0 4 (otWin (.v 8))) { sTab 0 with cur := some cur0 }).arrivals.map fun a => (a.win, a.tile, a.off)) = [(some (1, 5, 0x70000), 1, 256)] := by
  decide +kernel
/-- Units of an `rget.t` on their way, which read for themselves. -/
def sGet : State := after (.rgetT c0 rgetO) sMem
theorem witness_get : (match sGet.arrivals.head? with
    | some a => a.src == some (0x50000, 0) && runReady sGet a.po 0x50000 64 && sGet.arrivals.find? (fun b => b.id == a.id) == some a
    | none => false) = true := by decide +kernel
theorem test_get : ((run (readUnit ((sGet.arrivals.head?.map (·.id)).getD 0)) sGet).arrivals.map fun a => (a.src, nth a.data 4 0, a.data.length)) = [(none, 101, 64)] := by
  decide +kernel

/-! ### Cards at work (R211, R259 to R261) -/

def cdesc (ctl len str t : Nat) (i o : Nat × Nat) : List Byte := le 4 ctl ++ le 4 len ++ le 4 0 ++ le 4 str ++ le 4 t ++ zeros 12 ++
  le 8 i.1 ++ le 4 i.2 ++ zeros 4 ++ zeros 48 ++ le 8 o.1 ++ le 4 o.2 ++ zeros 20
/-- A machine whose cluster has one card of a descriptor; tile 0 is FULL, and granted to a STORE with
TAKE; slot 0 is FP16. -/
def sJob (d : List Byte) : State := { sCard with
  mem := sMem.mem, launches := sFmt.launches
  cores := [(0, { coreOf s0 0 with tiles := [(0, ⟨.full, none, [(0, 100)], if fld d 0 4 = 0x90003 then some s0.nextId else none, none⟩)] })]
  clusters := [(0, { clusterOf sCard 0 with cards := [{ card1 sCard with desc := d }] })] }
/-- A COPY of 24 bytes, a STORE of one tile, with and without TAKE, a LOAD and a DECODE of one tile. -/
def copyD : List Byte := cdesc 0x12000 24 0 0 (0x50000, 24) (0x54000, 24)
def storeD (take : Nat) : List Byte := cdesc (0x10003 + take * 2 ^ 19) 0 0 0x400 (0, 0) (0x54000, 2048)
def loadD : List Byte := cdesc 0x2001 32 64 0x402 (0x50000, 2048) (0, 0)
def decodeD : List Byte := cdesc 0x2002 32 0 0x402 (0x50000, 2048) (0, 0)
def job (s : State) : Card := ((clusterOf s 0).cards.head?).getD (card1 s)
def started (d : List Byte) : State := after (.cardRun 0 s0.nextId) (sJob d)
/-- One unit of the running card. -/
def stepped (d : List Byte) : State := run (cardStep 0 s0.nextId) (started d)
theorem witness_card_starts : [zeros 128, copyD, storeD 0, storeD 1, loadD, decodeD].all (fun d => (clusterOf (sJob d) 0).cards.find? (cardReady (sJob d) (clusterOf (sJob d) 0).cards) == some (job (sJob d))) = true ∧
    cOp copyD = 0 ∧ cardInvalid copyD = false ∧ inRegions (inRegs copyD) [((region copyD 0).1, cLen copyD)] = true ∧ inRegions (outRegs copyD) [((region copyD 4).1, cLen copyD)] = true ∧
    cOp (storeD 1) = 3 ∧ cardInvalid (storeD 1) = false ∧ cTake (storeD 1) = true ∧ inRegions (outRegs (storeD 1)) [((region (storeD 1) 4).1, 2048)] = true ∧
    [loadD, decodeD].all (fun d => match cardChecks (sJob d) (job (sJob d)) 8 with
      | .ok (_, perm, _) => ((List.range 32).map (cardRows (sJob d) { job (sJob d) with perm := perm })).all fun r => inRegions (inRegs d) (List.flatten r)
      | .error _ => false) = true ∧ slotOfLaunch (sJob (cdesc 0x2402 32 0 0x402 (0x50000, 2048) (0, 0))) 0 1 ≠ none ∧
    slotOfLaunch (sJob decodeD) 0 5 = none := by decide +kernel
theorem test_card_starts : [copyD, storeD 0, loadD, decodeD].map (fun d => ((job (started d)).running, (job (started d)).status, (job (started d)).todo.length)) =
      [(true, 0, 1), (true, 0, 128), (true, 0, 128), (true, 0, 128)] ∧ (tileOf (coreOf (started (storeD 1)) 0) 0).tag = .empty ∧
    (tileOf (coreOf (started (storeD 0)) 0) 0).tag = .full := by decide +kernel
/-- R211: a COPY's first unit writes 16 bytes, and its second is still to be made. -/
theorem test_card_units : memNat (stepped copyD).mem 0x54004 4 = 101 ∧ memNat (stepped copyD).mem 0x5400C 4 = 103 ∧ memNat (stepped copyD).mem 0x54010 4 = 0 ∧
    (job (stepped copyD)).todo = [16] := by decide +kernel

/-! ### Epilogues that store, failing accesses, level 2 (R196, R294, R398, R399, R404) -/

/-- An epilogue to memory that is held, at 0x50000 or where nothing is mapped. -/
def epiStI : Instr := .epiSt c0 .none false false false omS
def sEpiSt (a : Nat) : State := after epiStI { sFmt with hw := sTr.hw, warps := sFmt.warps.map fun e => (e.1, { e.2 with s := put e.2.s 2 (wd a) }) }
def epiOut (s : State) : Bool × Bool × Bool := match find s.warps 0 with
  | some w => (match w.outs with
    | [u] =>
      let pieces := (List.range 32).flatMap fun r => chop16 10 ((((replayIss s 0 w u).ea omS (lowest u.act)).toNat + r * 64) % 2 ^ 64) (zeros 64)
      (u.ins == epiStI && u.kind == .epi false && epiReady s w placeWg u && !faultWaits w u && slotDesc s w 0 == some 1 && pcGroups w u.mask == [u.mask] && w.level == 0 && w.cpc == 0,
        (match epiXlate s w u pieces with
          | .ok l => l != [] && l.all fun e => match e.2.1 with | .mem _ _ => true | _ => false
          | .error _ => false), frameOk s w placeWg 0)
    | _ => (false, false, false))
  | none => (false, false, false)
theorem witness_epi_stores : epiOut (sEpiSt 0x50000) = (true, true, true) ∧ epiOut (sEpiSt 0x80000000) = (true, false, true) := by decide +kernel
/-- Where a page is not mapped it traps, and stores nothing. -/
theorem test_epi_stores : (after (.epilogueAccepted 0 sFmt.nextId) (sEpiSt 0x80000000)).stores = [] ∧ (frame0 (after (.epilogueAccepted 0 sFmt.nextId) (sEpiSt 0x80000000))).cause = 0x10A := by
  decide +kernel
/-- Checks of the access instructions that fail: v3 is 2^31 in every lane, where nothing is mapped; the immediate 2 is no multiple of four. -/
def omFar (d : Opd) : OM := ⟨d, .v 3, 63, 0⟩
def omOff (d : Opd) : OM := ⟨d, .imm 2, 63, 0⟩
def failing (l : Nat) : List (Instr × (Iss → State → Bool) × AccKind × Nat × Nat × List Opd × OM) :=
  let k : Ctl := { c0 with look := BitVec.ofNat 4 l }
  let two (f : OM → Instr × (Iss → State → Bool) × AccKind × Nat × Nat × List Opd × OM) := [f (omFar (.v 8)), f (omOff (.v 8))]
  two (fun o => (.ld k .b32 false .dev o, ldBusy 4 [o.addr] o, .read, 4, 12, [o.addr], o)) ++
  two (fun o => (.st { k with look := 0 } .b32 false .dev o, stBusy 4 false .dev o, .write, 4, 12, [.v 8, o.addr], o)) ++
  two (fun o => (.atomAdd k .rlx .dev false false o, atomBusy .add .rlx .dev false o, .rmw, 4, 13, [.v 8, o.addr], o)) ++
  two (fun o => (.sred { k with look := 0 } .add o, sredBusy o, .rmw, 4, 13, [.v 8, o.addr], o))
def fails (s : State) (e : Instr × (Iss → State → Bool) × AccKind × Nat × Nat × List Opd × OM) : Option Nat :=
  (issOf s e.1).bind fun x => if gate s x (x.g != 0 && e.2.1 x s) != .go then none else
    match x.check s e.2.2.1 e.2.2.2.1 e.2.2.2.2.1 (x.acting e.2.2.2.2.2.1) (x.ea e.2.2.2.2.2.2) with
    | .trap n _ _ => some n
    | _ => none
theorem witness_failing : (failing 0).map (fails sTr) = [some 10, some 12, some 10, some 12, some 10, some 13, some 10, some 13] ∧
    (failing 2).map (fails sTr) = [some 10, some 12, some 10, some 12, some 10, some 13, some 10, some 13] ∧
    (failing 0).map (fails s0) = (failing 0).map (fails sTr) := by decide +kernel
/-- A load that fails with a window open waits for its trap; a division is unfinished beside it. -/
def sDivLook : State := after (.div { c0 with look := 4 } .i32 (f2 (.v 10) (.v 3) (.v 1))) sTr
def again (s : State) : State := { s with cur := some cur0, warps := s.warps.map fun e => (e.1, e.2.mapLanes 0xFFFF fun _ l => { l with pc := dw (placeBlock + 4) }) }
def sFaulty : State := after (.ld { c0 with look := 2 } .b32 false .dev (omFar (.v 11))) (again sDivLook)
theorem witness_faulty : (match find sFaulty.warps 0 with
    | some w => (match w.outs with
      | [d, u] => d.kind == .alu && decide (d.age < sFaulty.nextId) && (match u.kind with | .faulty 10 _ _ => true | _ => false) && decide (u.age < sFaulty.nextId) &&
          pcGroups w u.mask == [0xFFFF] && u.mask == 0xFFFF
      | _ => false)
    | none => false) = true ∧ (find sFaulty.warps 0).any (fun w => w.outs.any fun u => faultWaits w u) = false := by decide +kernel
/-- At level 1, and at level 0 without a handler: an `exit`, a trap of the gate, a failing load. -/
theorem witness_level2 : issuesWith (.exit c0 (ob .none)) never sTrapped (fun x => x.w.level != 0 && (laneOf x.w 0).st == .trapped && inMask x.mask 0 && (wgOf sTrapped x.w).isSome) = true ∧
    (issOf { sPartly with hw := s0.hw } (.movRi c0 (ri (.s 10) .none 1))).any (fun x => gate { sPartly with hw := s0.hw } x false == .trap 8 && x.w.level == 0) = true ∧
    reg s0 .hvec 0 = 0 ∧ (failing 0).map (fails sTrapped) = [some 10, some 12, some 10, some 12, some 10, some 13, some 10, some 13] := by decide +kernel
theorem test_level2 : dbit (reg (after (.exit c0 (ob .none)) sTrapped) .ctxs 0) 3 = true ∧ dbit (reg (after (.ld c0 .b32 false .dev (omFar (.v 8))) s0) .ctxs 0) 3 = true ∧
    dbit (reg (after (.movRi c0 (ri (.s 10) .none 1)) { sPartly with hw := s0.hw }) .ctxs 0) 3 = true := by decide +kernel

/-! ### Queue maps, registers, the selector, light, power and the host again (R306, R316, R384, R424, R440, R444, R21) -/

/-- A queue-map request of tenant 0: whether it unmaps, the header's address and whether it failed its own checks; `qs` are the queues, and the header at
0x55000 names a ring of 4 packets at an address. -/
def sAsk (unmap : Bool) (hdr : Nat) (bad : Bool) (qs : SMap Queue) (ring : Nat) : State := { sQueue [] with
  tens := [(0, { tenantOf s0 0 with map := some ⟨unmap, 0, dw hdr, bad, none⟩ })], queues := qs
  mem := placeBytes s0.mem 0x55000 (le 8 ring ++ le 4 0x12 ++ zeros 4 ++ zeros 8 ++ le 8 7 ++ zeros 32) }
def asks : List (State × Nat) := [(sAsk false 0x55000 true [] 0x52000, 2), (sAsk true 0x55000 false [] 0x52000, 5),
  (sAsk false 0x51000 false [(0, queue4)] 0x52000, 6), (sAsk true 0x51000 false [(0, queue4)] 0x52000, 0), (sAsk false 0x80000000 false [] 0x52000, 4),
  (sAsk false 0x56000 false [] 0x52000, 3), (sAsk false 0x55000 false [] 0x80000000, 4),
  (sAsk false 0x55000 false ((List.range 64).map fun k => (k, queue4)) 0x52000, 1), (sAsk false 0x55000 false [(0, queue4)] 0x52000, 0)]
/-- R316: each result. -/
theorem test_mapping : asks.all (fun e => dbits (reg (after (.qmapComplete 0) e.1) .qstat 0) 16 8 == e.2) = true ∧
    ((find (after (.qmapComplete 0) (sAsk false 0x55000 false [(0, queue4)] 0x52000)).queues 1).map fun q => (q.ring, q.wr, q.rd, q.logn)) = some (0x52000, 7, 7, 2) := by
  decide +kernel
theorem witness_mapping : asks.all (fun e => (tenantOf e.1 0).map.isSome && ctxValid e.1 0 && partValid e.1 0 && islandOfPart e.1 0 == 0) = true ∧
    (devPa (sAsk false 0x80000000 false [] 0) 0 .rmw 0x80000000).isOk = false ∧ (devPa (sAsk false 0x55000 false [] 0) 0 .rmw 0x55000).isOk = true ∧
    (xlateAll (sAsk false 0x55000 false [] 0) 0 true .read 0x52000 256).isOk = true ∧ (xlateAll (sAsk false 0x55000 false [] 0) 0 true .read 0x80000000 256).isOk = false := by
  decide +kernel
/-- A queue whose header translates no longer, with a packet observed. -/
def sGone : State := { sQueue wrsigP with queues := [(0, { queue4 with hdr := 0x80000000 })] }
theorem witness_gone : (match served sGone 0 0 with | some (0, _, .header _ _) => true | _ => false) = true ∧ (devPa sGone 0 .rmw 0x80000000).isOk = false := by decide +kernel
theorem test_gone : ((find (after (.invalidKindPacket 0 0) sGone).queues 0).map fun q => (q.stopped, q.rd)) = some (true, 0) ∧
    ((find (after (.queueWrChange 0 0) sGone).queues 0).map (·.stopped)) = some true := by decide +kernel
/-- The other registers that `sr.wr` and `ewr` write, and the accesses that trap. -/
def srWrI (n : BitVec 16) : Instr := .srWr c0 ⟨.s 2, .none, n⟩
def ewrFw (sel : BitVec 16) (k : RegKind) (idx : Bool) : Bool := issuesWith (.ewr c0 ⟨.s 2, if idx then .imm 0 else .none, sel⟩) never sFw
  (enOk sFw ⟨.s 2, if idx then .imm 0 else .none, sel⟩ true k)
def trapsAt (s : State) (i : Instr) (o : OX) (write energy : Bool) : Option Nat := (issOf s i).bind fun x => if gate s x false != .go then none else
  match if energy then energyLook s x o write else sysLook s x o write with
  | .error e => some e
  | .ok _ => none
theorem witness_written : [(1, RegKind.cwin), (3, .cimg), (0x12, .qmap)].all (fun e => issuesWith (srWrI e.1) never s0 (sysOk s0 ⟨.s 2, .none, e.1⟩ true e.2)) = true ∧
    ewrFw 0 .cbal true = true ∧ ewrFw 0x10 .tbud true = true ∧ ewrFw 0x20 .pcfg true = true ∧ ewrFw 0x30 .ilim true = true ∧ ewrFw 0x50 .rcfg false = true ∧ ewrFw 0x52 .pdem false = true ∧
    trapsAt sTr (.srRd c0 ⟨.s 10, .s 1, 2⟩) ⟨.s 10, .s 1, 2⟩ false false = some cauReg ∧ trapsAt sTr (.srWr c0 ⟨.s 10, .none, 8⟩) ⟨.s 10, .none, 8⟩ true false = some 5 ∧
    trapsAt sTr (.erd c0 ⟨.s 10, .s 1, 0x10⟩) ⟨.s 10, .s 1, 0x10⟩ false true = some cauReg ∧ trapsAt sTr (.ewr c0 ⟨.s 2, .s 0, 0x21⟩) ⟨.s 2, .s 0, 0x21⟩ true true = some 5 := by
  decide +kernel
/-- R424: the queue-map register starts a request; CTXD is not for a supervisor to write. -/
theorem test_written : dbit (reg (after (srWrI 0x12) { s0 with warps := [(0, { warp0 with s := put (put warp0.s 2 0x51000) 3 0x40000000 })] }) .qstat 0) 31 = true ∧
    (frame0 (after (.srWr c0 ⟨.s 10, .none, 8⟩) sTr)).cause = 0x105 := by decide +kernel
/-- Two ready warps of a core, the first held back since its `yield`. -/
def sYield (l : List Nat) : State := { sPair with warps := [(0, { placeWarp with hold := some l }), (1, { placeWarp with index := 1 })] }
def holds (s : State) : List (Option (List Nat)) := s.warps.map (·.2.hold)
/-- R306: it is offered once the other has been. -/
theorem test_selector : (coreOffer (sYield []) 0).map (·.1.wk) = some 1 ∧ (readyWarps (sYield []) 0).length = 2 ∧ holds (run (noteOffer (sYield []) 0 1) (sYield [])) = [none, none] ∧
    holds (run (noteOffer (sYield []) 0 7) (sYield [])) = [some [7], none] ∧ (coOffer sFirst 0).map (·.1.wk) = some 1 := by decide +kernel
/-- A neighbour's phase that may be received, no unit of its being on its way before it. -/
theorem witness_received : unitsFirst sTwo { placeWg with core := 1, phase := 1, warps := [] } placeWg 1 = false := by decide +kernel
/-- A flit for peer 3 at the beginning of slot 0, in which rotor 64 connects it, and in slot 10, in which none does. -/
def sTx (slot : Nat) : State := { s0 with
  hw := hwT s0 [(.peerp, 0, 9), (.peere, 0, 9), (.rots, 0, slot)], now := Config.rotorPhase % 2500
  fabric := { s0.fabric with tx := [(3, [flit1 3 0 0])] } }
theorem witness_sends : pathTo (sTx 0) 3 = .direct 64 ∧ usedTime (sTx 0) 64 + flitTime (sTx 0) 64 < 25000 ∧ slotTime (sTx 0) = 0 ∧ Inv (sTx 0) ∧
    pathTo (sTx 10) 3 = .hold ∧ (∃ r ∈ sLate.fabric.remotes, r.peer = 3 ∧ r.sent ≠ 0 ∧ r.sent - 1 + 1000000 ≤ sLate.now) ∧ sLate.arrivals = [] ∧ (find sLate.warps 0).any (fun w => w.outs.isEmpty) = true :=
  ⟨by decide +kernel, by decide +kernel, by simp only [slotTime, sTx]; omega, inv_of (by decide +kernel) (hwT_reserved _ reserved_s0), by decide +kernel,
    ⟨⟨9, 3, 0, 0, 0, 1, 4, 0, 0, 1, 0, 0, 0⟩, by decide +kernel⟩, by decide +kernel, by decide +kernel⟩
/-- A command processor that has left a packet standing for 10 ms; images that reach an island, or not. -/
def sIdleCp : State := { fwS { fwOf s0 1 with status := 1, last := 10000000 } 10000000 with queues := [(0, { queue4 with held := some 0 })] }
theorem witness_firmware_more : Inv sIdleCp ∧ powered sIdleCp = true ∧ (fwOf sIdleCp 1).status = 1 ∧ Inv (sBoot 4 20) ∧ dbits (reg (sBoot 4 20) .istat 0) 0 3 = 4 ∧ imagesReach (sBoot 4 20) 0 = true ∧
    imagesReach { sBoot 4 20 with flash := { s0.flash with images := [(1, ⟨0x9000000000, 64, [], []⟩)] } } 0 = false :=
  ⟨inv_of (by decide +kernel) reserved_s0, by decide +kernel, by decide +kernel, inv_of (by decide +kernel) (hwT_reserved _ reserved_s0), by decide +kernel, by decide +kernel,
    by decide +kernel⟩
/-- R440: 10 ms, and 1 ms. -/
theorem test_firmware_more : (fwOf (after (.firmwareWatchdogExpiry 1) sIdleCp) 1).status = 2 ∧
    (fwOf (after (.firmwareWatchdogExpiry 1) { sIdleCp with now := 9999999 }) 1).status = 1 := by decide +kernel
/-- A soft trip that ends a bring-up at island 2, its first entry written or all of them. -/
def sTrip (e : Trip) : State := { s0 with hw := hwT s0 [(.bstat, 0, 3)], boot := { s0.boot with trip := some 2 }, trips := [e] }
theorem witness_trips : Inv (sTrip { trip1 with acked := true }) ∧ devState (sTrip trip1) = 3 ∧ toSave (sTrip trip1) = [0] ∧
    toSave { sTrip { trip1 with acked := true } with wgs := [] } = [] ∧ powered (sTrip trip1) = false :=
  ⟨inv_of (by decide +kernel) (hwT_reserved _ reserved_s0), by decide +kernel, by decide +kernel, by decide +kernel, by decide +kernel⟩
def saved (s : State) : Option State := (saveNext s).map fun a => run a s
theorem test_trips : saveNext (sTrip trip1) = none ∧
    ((saved { sTrip { trip1 with acked := true } with wgs := [] }).bind fun t => t.trips.getLast?.map (·.kind)) = some 4 ∧
    ((saved { sTrip { trip1 with acked := true, kind := 4 } with wgs := [] }).map fun t => (devState t, dbits (reg t .bstat 0) 12 4)) = some (2, 2) := by decide +kernel
/-- A STATUS request behind an acquire, and alone. -/
def heldReq : KPend := ⟨9, 1, 7, some (req 1 0 0 0 []), none, none⟩
def sBehind : State := { sLink 1 with link := { (sLink 1).link with pending := [⟨8, 0x30, 7, none, some ⟨0, false, true, [(0, 0x40000)], zeros 16⟩, none⟩] } }
def sAloneReq : State := { sLink 1 with link := { (sLink 1).link with pending := [heldReq] } }
theorem witness_held : sBehind.link.pending.any KPend.holds = true ∧ outstanding sBehind.link < 64 ∧ (serveHeld sAloneReq).isSome = true ∧ (serveHeld sBehind).isNone = true := by
  decide +kernel
theorem test_held : (after (.status (req 1 0 0 0 [])) sBehind).link.resp = [] ∧ ((after (.status (req 1 0 0 0 [])) sBehind).link.pending.map (·.req.isSome)) = [false, true] ∧
    ((serveHeld sAloneReq).map fun a => resp (run a sAloneReq)) = some [(0, 28)] := by decide +kernel

/-! ### Images of contexts (R410 to R416, R453) -/

/-- A context with an image of 4 MiB at 0x400000, whose page of the warp's area is in the translation cache. -/
def sEndImg : State := { s0 with
  hw := hwT s0 [(.cimg, 0, 4 * 2 ^ 52 + 0x400000)], wgs := [(0, { placeWg with area := 0 })], tlb := [⟨0, 0x46, 0x460000, 0, 0x3F, 0x3F, 0, 0, none, 0x46, 1⟩] }
theorem witness_ends_image (m : List Host.Cell) (n : Nat) (h1 : 0x462000 ≤ n) (h2 : n < 0x462000 + warpArea 16 256) :
    paOf { sEndImg with mem := m } 0 true .write n = some (0x462000 + (n - 0x462000)) := by
  have h3 : n < 0x470000 := by simp [warpArea] at h2; omega
  have hn : (dw n).toNat = n := by simp [dw]; omega
  have hp : n / 65536 = 0x46 := by omega
  have c1 : dbit (reg { sEndImg with mem := m } .ctxt 0) 63 = true := by
    show dbit (hwGet sEndImg.hw .ctxt 0) 63 = true
    decide +kernel
  have c2 : dbit (reg { sEndImg with mem := m } .s2r (ctxTenant { sEndImg with mem := m } 0)) 63 = true := by
    show dbit (hwGet sEndImg.hw .s2r (dbits (hwGet sEndImg.hw .ctxd 0) 8 8)) 63 = true
    decide +kernel
  have hf : (({ sEndImg with mem := m } : State).tlb.find? fun t => t.ctx == 0 && t.page == 0x46) = some ⟨0, 0x46, 0x460000, 0, 0x3F, 0x3F, 0, 0, none, 0x46, 1⟩ := rfl
  have hq : permit .write true 0x3F 0 0x3F 0 = .ok true := by decide +kernel
  simp only [paOf, xlateCtx, hn, hp, c1, c2, hf, Option.bind_some, tlbHit, hq, Except.map]
  rw [if_neg (by omega)]
  simp only [Bool.not_true, Bool.false_eq_true, if_false]
  exact congrArg some (by omega)
theorem witness_image : imgSize sEndImg 0 ≠ 0 ∧ imgBase sEndImg 0 + warpOffset placeRec 0 = 0x462000 ∧
    issuesWith (.exit c0 (ob .none)) never sEndImg (fun x => x.w.level == 0 && x.w.fw == none && x.w.activeSet &&& ~~~x.g == 0 && x.w.swq.isEmpty && x.w.width == 16 && x.w.nv == 256) = true ∧
    find placeWg.warps 0 = some 0 := by decide +kernel
/-- The same context switched out, with an image to be read back; and with a restartable workgroup that has given back what it held. -/
def sBackIn (g : Workgroup) : State := { sEndImg with
  ctxs := [(0, ⟨false, 0, false, false, 0, 0, 0, false⟩)], wgs := [(0, g)], warps := [(0, { warp0 with s := [] })]
  mem := placeBytes (placeBytes s0.mem 0x462000 (le 4 77)) 0x400008 (le 8 1234), tlb := [], nextId := 5 }
def givenBack : Workgroup := { placeWg with area := 0, restart := true, tiles := [], accs := [] }
theorem witness_back_in : [{ placeWg with area := 0 }, givenBack].all (fun g => canEnter (sBackIn g) 0) = true ∧ imgSize (sBackIn placeWg) 0 ≠ 0 ∧
    paOf (sBackIn placeWg) 0 true .read 0x400000 = some 0x400000 ∧ paOf (sBackIn placeWg) 0 true .read 0x462000 = some 0x462000 := by decide +kernel

/-! ### Where addresses and links lie (R9, R14, R15, R18) -/

/-- R15's worked example; the first and last fibre pairs of the islands of the upper row. -/
theorem test_places : stackOf 0x2A4C3F1E40 = 2 ∧ stackAddr 0x2A4C3F1E40 = 0x9261F8F40 ∧ homeCluster 0x2A4C3F1E40 = 58 ∧
    [0, 47, 48, 79, 80, 127].map islandOfPair = [0, 0, 1, 1, 2, 2] ∧ stacksOfIsland 5 = [10, 11] := by decide +kernel

end Sys2Proof.Tests
end

section
/-! The invariants of the stored data hold after reset, and every step keeps them (R4, R432): an instruction that issues and an event
both end in the state that an action leaves, and every action keeps them. -/
namespace Sys2Proof.Machine
open Sys2Proof.Safety

/-- With nothing stored, a register reads its reset value. -/
theorem reg_reset (k : RegKind) (n : Nat) : reg State.reset k n = regReset k n := rfl
/-- Settles O1: every map is empty at reset, so each register reads what its table gives. -/
theorem resetValues : Obligations.ResetValues := by
  unfold Obligations.ResetValues
  simp only [ctxValid, ctxShare, reg_reset, regReset, true_and, and_true, implies_true]
  exact ⟨fun _ => rfl, rfl, rfl, rfl, rfl, rfl, rfl, fun _ => ⟨rfl, rfl⟩, fun _ => rfl, fun _ _ => rfl⟩
/-- Settles O2: the maps are empty, and no reset value sets a reserved bit. -/
theorem resetInv : Obligations.ResetInv where
  mem := rfl
  hw := rfl
  warps := rfl
  wgs := rfl
  launches := rfl
  ctxs := rfl
  tens := rfl
  parts := rfl
  queues := rfl
  clusters := rfl
  cores := rfl
  islands := rfl
  fws := rfl
  reserved := regReset_reserved

/-- Whatever the gate answers, an instruction that finds its issuer ends in what an action leaves. -/
theorem issue_inv {i : Instr} {price : Iss → List Chg} {busy : Iss → State → Bool} {body : Iss → Nat → Action} {s t : State}
    (hs : Inv s) (h : issue i price busy body s = .next t) : Inv t := by
  unfold issue at h
  split at h
  · exact nomatch h
  · rw [← Host.Outcome.next.inj h]
    exact run_inv hs _
theorem event_inv {a : Action} {s t : State} (hs : Inv s) (h : event a s = .next t) : Inv t := by
  rw [← Host.Outcome.next.inj h]
  exact run_inv hs a
/-- An event makes its changes; every other instruction issues. -/
theorem exec_inv {i : Instr} {s t : State} (hs : Inv s) (h : exec i s = .next t) : Inv t := by
  cases i
  case matrixPassGrant | matrixPassComplete | epilogueAccepted | fenceComplete | memoryReply | storePerformed | pageWalkComplete |
      lineWriteback | tileReadRetire | tileArrival | arrivalRetry | cardRun | cardComplete | joinTimeout | phaseAdvanceReceive |
      spawnSlotGrant | enqPush | waitNsExpiry | sinkWatchdogExpiry | trapEntry | remoteErrorDelivery | timerDeadlineFire |
      meterRecordWrite | contextSwitchOut | contextSwitchIn | sliceBoundary | periodBoundary | correctionInterval | opMoveComplete |
      imeasSample | rackCapBroadcast | rackCapCompute | mapq | qmapMap | qmapUnmap | qmapBadOp | qmapComplete | launch |
      workgroupRelease | launchComplete | wrsig | wait | waitReload | ctxdWrite | pschWrite | pcfgWrite | opmbWrite | ilimWrite |
      partWrite | fsegWrite | peereWrite | otxmWrite | ostrWrite | laserLock | registerWrite | opticsSample | rotorSlotBoundary |
      flitReceive | relayTimeout | peerLost | bringupStepComplete | bringupStepTimeout | firmwareCoreTrap | firmwareWatchdogExpiry |
      firmwareReloadComplete | fallbackHandOver | rootTrap | longLatencyComplete | invalidKindPacket | queueWrChange | registerCacheFill |
      status | cert | attest | bringup | memrd | memwr | kebinlinkTraining | unassignedOpRequest | powerOn | tripLogAck | softTrip |
      hardTrip =>
    exact event_inv hs h
  all_goals exact issue_inv hs h
theorem afterStep_inv {time : Bool} {o : Host.Outcome State Fault Refusal} {t : State} (ho : ∀ u, o = .next u → Inv u)
    (h : afterStep time o = .next t) : Inv t := by
  cases o with
  | next u =>
    rw [← Host.Outcome.next.inj h]
    split
    · exact run_inv (ho u rfl) _
    · exact ho u rfl
  | fault f => exact nomatch h
  | refused r => exact nomatch h
/-- Settles O3: the changes of the plan, the instruction or event it chooses, and the passage of time each keep the invariants. -/
theorem stepKeepsInv : Obligations.StepKeepsInv := by
  intro s t hs h
  have hpre : Inv (run (plan s).pre s) := run_inv hs _
  unfold step at h
  dsimp only at h
  split at h
  · exact afterStep_inv (fun u hu => Host.Outcome.next.inj hu ▸ hpre) h
  · exact afterStep_inv (fun u hu => exec_inv hpre hu) h

end Sys2Proof.Machine
end

section
/-! Writes of the hardware registers (R4): the bits of a field, what a plain write leaves in each bit, what a write leaves alone, and
register by register what one that is checked does. -/
namespace Sys2Proof.Machine
open Sys2Proof.Safety

/-! ### Bits -/

theorem nbits_testBit (x lo n i : Nat) : (nbits x lo n).testBit i = (decide (i < n) && x.testBit (lo + i)) := by
  rw [nbits, Nat.testBit_mod_two_pow, Nat.testBit_div_two_pow, Nat.add_comm]
/-- A field replaced leaves every bit outside it. -/
theorem setBits_testBit (x lo n v i : Nat) :
    (setBits x lo n v).testBit i = if lo ≤ i ∧ i < lo + n then v.testBit (i - lo) else x.testBit i := by
  have hx : x = 2 ^ lo * (2 ^ n * (x / 2 ^ lo / 2 ^ n) + nbits x lo n) + x % 2 ^ lo := by
    rw [nbits, Nat.div_add_mod, Nat.div_add_mod]
  have hs : setBits x lo n v = 2 ^ lo * (2 ^ n * (x / 2 ^ lo / 2 ^ n) + v % 2 ^ n) + x % 2 ^ lo := by
    have : x - nbits x lo n * 2 ^ lo = 2 ^ lo * (2 ^ n * (x / 2 ^ lo / 2 ^ n)) + x % 2 ^ lo := by
      conv_lhs => lhs; rw [hx]
      rw [Nat.mul_add, Nat.mul_comm (nbits x lo n)]; omega
    rw [setBits, this, Nat.mul_add, Nat.mul_comm (v % 2 ^ n)]; omega
  have hlo : x % 2 ^ lo < 2 ^ lo := Nat.mod_lt _ (by positivity)
  have hv : v % 2 ^ n < 2 ^ n := Nat.mod_lt _ (by positivity)
  rw [hs, Nat.testBit_two_pow_mul_add _ hlo, Nat.testBit_two_pow_mul_add _ hv]
  by_cases h1 : i < lo
  · rw [if_pos h1, if_neg (by omega), Nat.testBit_mod_two_pow]; simp [h1]
  · rw [if_neg h1]
    by_cases h2 : i - lo < n
    · rw [if_pos h2, if_pos (by omega), Nat.testBit_mod_two_pow]; simp [h2]
    · rw [if_neg h2, if_neg (by omega), Nat.testBit_div_two_pow, Nat.testBit_div_two_pow]
      congr 1; omega
theorem dbit_dw (n i : Nat) (hi : i < 64) : dbit (dw n) i = n.testBit i := by
  rw [dbit, dw, BitVec.getLsbD_ofNat]; simp [hi]
theorem dbit_dset (x : DWord) (lo n v i : Nat) (hi : i < 64) :
    dbit (dset x lo n v) i = if lo ≤ i ∧ i < lo + n then v.testBit (i - lo) else dbit x i :=
  (dbit_dw _ i hi).trans (setBits_testBit x.toNat lo n v i)
theorem dbits_testBit (x : DWord) (lo n i : Nat) : (dbits x lo n).testBit i = (decide (i < n) && dbit x (lo + i)) :=
  nbits_testBit x.toNat lo n i
/-- Fields are equal when their bits are. -/
theorem dbits_congr {x y : DWord} {lo lo' n : Nat} (h : ∀ i, i < n → dbit x (lo + i) = dbit y (lo' + i)) : dbits x lo n = dbits y lo' n := by
  apply Nat.eq_of_testBit_eq
  intro i
  rw [dbits_testBit, dbits_testBit]
  by_cases hi : i < n
  · rw [h i hi]
  · simp [hi]
/-- A field has the value of a number when its bits are that number's. -/
theorem dbits_eq {x : DWord} {lo n v : Nat} (hv : v < 2 ^ n) (h : ∀ i, i < n → dbit x (lo + i) = v.testBit i) : dbits x lo n = v := by
  apply Nat.eq_of_testBit_eq
  intro i
  rw [dbits_testBit]
  by_cases hi : i < n
  · simp [hi, h i hi]
  · simp [hi, Nat.testBit_lt_two_pow (Nat.lt_of_lt_of_le hv (Nat.pow_le_pow_right (by omega) (Nat.not_lt.mp hi)))]
theorem dbits_lt (x : DWord) (lo n : Nat) : dbits x lo n < 2 ^ n := Nat.mod_lt _ (by positivity)
theorem dword_ext {x y : DWord} (h : ∀ b, b < 64 → dbit x b = dbit y b) : x = y := BitVec.eq_of_getLsbD_eq h
@[simp] theorem dbit_and (x y : DWord) (b : Nat) : dbit (x &&& y) b = (dbit x b && dbit y b) := by simp [dbit]
@[simp] theorem dbit_or (x y : DWord) (b : Nat) : dbit (x ||| y) b = (dbit x b || dbit y b) := by simp [dbit]
theorem dbit_not (x : DWord) (b : Nat) (hb : b < 64) : dbit (~~~x) b = !dbit x b := by simp [dbit, hb]
@[simp] theorem dbit_zx64 (v : Word) (b : Nat) : dbit (zx64 v) b = v.getLsbD b := by
  by_cases h : b < 64
  · simp [dbit, zx64, h]
  · simp only [dbit]
    rw [BitVec.getLsbD_of_ge _ _ (by omega), BitVec.getLsbD_of_ge _ _ (by omega)]
@[simp] theorem dbits_zx64 (v : Word) (lo n : Nat) : dbits (zx64 v) lo n = wbits v lo n := by
  have : (zx64 v).toNat = v.toNat := by simp [zx64]; omega
  rw [dbits, wbits, this]

section
variable {x y m : DWord} {lo lo' n n' v : Nat}
theorem dbits_dset_same (h : lo + n ≤ 64) (hv : v < 2 ^ n) : dbits (dset x lo n v) lo n = v :=
  dbits_eq hv fun i hi => by rw [dbit_dset _ _ _ _ _ (by omega), if_pos (by omega)]; congr 1; omega
theorem dbits_dset_ne (h : lo + n ≤ 64) (hd : lo + n ≤ lo' ∨ lo' + n' ≤ lo) : dbits (dset x lo' n' v) lo n = dbits x lo n :=
  dbits_congr fun i hi => by rw [dbit_dset _ _ _ _ _ (by omega), if_neg (by omega)]
theorem dbit_dset_ne {i : Nat} (hi : i < 64) (hd : i < lo ∨ lo + n ≤ i) : dbit (dset x lo n v) i = dbit x i := by
  rw [dbit_dset _ _ _ _ _ hi, if_neg (by omega)]
theorem dbit_dset_one {i : Nat} (hi : i < 64) : dbit (dset x i 1 1) i = true := by
  rw [dbit_dset _ _ _ _ _ hi, if_pos (by omega), Nat.sub_self]
  rfl
/-- A field inside a mask passes it. -/
theorem dbits_mask (h : ∀ i, i < n → dbit m (lo + i) = true) : dbits (x &&& m) lo n = dbits x lo n :=
  dbits_congr fun i hi => by simp [h i hi]
end

/-! ### A register after a write -/

/-- No field that a write may set is reserved. -/
theorem fields_not_reserved (k : RegKind) (n : Nat) : (rwMask k ||| fwMask k n) &&& ~~~regMask k n = 0 := by
  cases k
  case fseg =>
    simp only [rwMask, fwMask]
    split
    · next h => simp only [regMask, h]; decide
    · ext; simp
  all_goals simp only [rwMask, fwMask, regMask]; decide
/-- A masked bit that no mask drops. -/
theorem dbit_regMask_of_field {k : RegKind} {n b : Nat} (hb : b < 64) (h : dbit (rwMask k ||| fwMask k n) b = true) :
    dbit (regMask k n) b = true := by
  have := congrArg (dbit · b) (fields_not_reserved k n)
  simp only [dbit_and, h, dbit_not _ _ hb, Bool.true_and] at this
  simpa [dbit] using this

theorem kindCount_lt (k : RegKind) : kindCount k < 65536 := by cases k <;> decide
section
variable {s : State} {k k' : RegKind} {n n' : Nat} {v : DWord}
@[simp] theorem reg_applyUpd_same : reg (applyUpd s (.reg k n v)) k n = v &&& regMask k n := by simp [reg]
theorem reg_applyUpd_kind (h : k' ≠ k) : reg (applyUpd s (.reg k n v)) k' n' = reg s k' n' := by
  simp [reg, hwGet_hwSet_kind _ _ h]
/-- A register written leaves every other. -/
theorem reg_applyUpd_ne (hn : n < kindCount k) (hn' : n' < kindCount k') (h : (k', n') ≠ (k, n)) :
    reg (applyUpd s (.reg k n v)) k' n' = reg s k' n' := by
  have hk : regKey k' n' ≠ regKey k n := fun e => by
    obtain ⟨ek, en⟩ := regKey_eq e
    have := kindCount_lt k
    have := kindCount_lt k'
    exact h (by rw [kindNum_eq ek, show n' = n by omega])
  simp only [reg, applyUpd_hw, hwGet, hwSet, findD, find_putD, if_neg hk]
/-- A value kept to the register's own bits is stored as it is. -/
theorem reg_dset_mask (hs : Inv s) {lo m x : Nat} (h : ∀ i, i < m → dbit (regMask k n) (lo + i) = true) :
    dset (reg s k n) lo m x &&& regMask k n = dset (reg s k n) lo m x := by
  refine dword_ext fun b hb => ?_
  rw [dbit_and, dbit_dset _ _ _ _ _ hb]
  by_cases hm : dbit (regMask k n) b = true
  · simp [hm]
  · have hm : dbit (regMask k n) b = false := by simpa using hm
    split
    · have := h (b - lo) (by omega)
      rw [show lo + (b - lo) = b by omega, hm] at this
      exact nomatch this
    · simp [hm, reg_reserved hs k n b hm]
theorem written_bit (hb : dbit (rwMask k ||| fwMask k n) n' = true) : dbit (written s k n v) n' = dbit v n' := by
  have h64 : n' < 64 := Nat.not_le.mp fun h => by simp only [dbit, BitVec.getLsbD_of_ge _ _ h] at hb; exact nomatch hb
  simp only [written, dbit_or, dbit_and, dbit_not _ _ h64] at hb ⊢
  simp [hb]
theorem written_field {lo m : Nat} (h : ∀ i, i < m → dbit (rwMask k ||| fwMask k n) (lo + i) = true) :
    dbits (written s k n v) lo m = dbits v lo m :=
  dbits_congr fun i hi => written_bit (h i hi)
/-- R4: a plain write sets its fields, clears what is written 1 to clear, and leaves the rest. -/
theorem plain_bit (hs : Inv s) {b : Nat} (hb : b < 64) : dbit (reg (run (plain k n v) s) k n) b =
    if dbit (rwMask k ||| fwMask k n) b then dbit v b else dbit (reg s k n) b && !(dbit (w1cMask k n) b && dbit v b) := by
  show dbit (reg (applyUpd s (.reg k n (written s k n v))) k n) b = _
  rw [reg_applyUpd_same, dbit_and, written]
  by_cases hf : dbit (rwMask k ||| fwMask k n) b = true
  · simp only [dbit_or, dbit_and, dbit_not _ _ hb, dbit_regMask_of_field hb hf] at hf ⊢
    simp [hf]
  · have hm := reg_reserved hs k n b
    have hf' : dbit (rwMask k ||| fwMask k n) b = false := by simpa using hf
    rw [if_neg hf]
    simp only [dbit_or, dbit_and, dbit_not _ _ hb] at hf' ⊢
    simp only [hf']
    cases hr : dbit (regMask k n) b
    · simp [hm hr]
    · simp
theorem plain_w1c (hs : Inv s) {b : Nat} (hf : dbit (rwMask k ||| fwMask k n) b = false) (hw : dbit (w1cMask k n) b = true) :
    dbit (reg (run (plain k n v) s) k n) b = (dbit (reg s k n) b && !dbit v b) := by
  have hb : b < 64 := Nat.not_le.mp fun h => by simp [dbit, BitVec.getLsbD_of_ge _ _ h] at hw
  rw [plain_bit hs hb, hf, hw, Bool.true_and]
  rfl
theorem plain_kept (hs : Inv s) {b : Nat} (hb : b < 64) (hf : dbit (rwMask k ||| fwMask k n) b = false) (hw : dbit (w1cMask k n) b = false) :
    dbit (reg (run (plain k n v) s) k n) b = dbit (reg s k n) b := by
  rw [plain_bit hs hb, hf, hw, Bool.false_and]
  exact Bool.and_true _
/-- A register that is all fields takes the value written. -/
theorem plain_whole (hs : Inv s) (h : rwMask k ||| fwMask k n = regMask k n) : reg (run (plain k n v) s) k n = v &&& regMask k n := by
  refine dword_ext fun b hb => ?_
  rw [plain_bit hs hb, dbit_and, h]
  by_cases hm : dbit (regMask k n) b = true
  · rw [if_pos hm, hm, Bool.and_true]
  · rw [if_neg hm, Bool.eq_false_of_not_eq_true hm, Bool.and_false, reg_reserved hs _ _ _ (Bool.eq_false_of_not_eq_true hm), Bool.false_and]
theorem plain_field (hs : Inv s) {lo m : Nat} (hlo : lo + m ≤ 64) (h : ∀ i, i < m → dbit (rwMask k ||| fwMask k n) (lo + i) = true) :
    dbits (reg (run (plain k n v) s) k n) lo m = dbits v lo m :=
  dbits_congr fun i hi => by rw [plain_bit hs (by omega), if_pos (h i hi)]
end

/-! ### What a write leaves alone -/

/-- Every hardware register but those of `ks` is as it was, and so are warps, memory and workgroups. -/
def Least (s t : State) (ks : List (RegKind × Nat)) : Prop :=
  (∀ k i, i < kindCount k → (k, i) ∉ ks → reg t k i = reg s k i) ∧ t.warps = s.warps ∧ t.mem = s.mem ∧ t.wgs = s.wgs
/-- `Least`, and the cores are as they were. -/
def Only (s t : State) (ks : List (RegKind × Nat)) : Prop :=
  (∀ k i, i < kindCount k → (k, i) ∉ ks → reg t k i = reg s k i) ∧ t.warps = s.warps ∧ t.mem = s.mem ∧ t.cores = s.cores ∧ t.wgs = s.wgs
/-- Event `i` is discarded as a whole, with bit `b` of the register set. -/
def Discards (s : State) (i : Instr) (k : RegKind) (n b : Nat) : Prop :=
  ∃ t, exec i s = .next t ∧ reg t k n = dset (reg s k n) b 1 1 ∧ Only s t [(k, n)] ∧ t.queues = s.queues ∧ t.tlb = s.tlb

/-- The registers outside `ks`, as one reading of the state. -/
def regsBeyond (ks : List (RegKind × Nat)) (s : State) (e : { e : RegKind × Nat // e.2 < kindCount e.1 ∧ e ∉ ks }) : DWord := reg s e.1.1 e.1.2
/-- What `Least` says is left alone. -/
def leastView (ks : List (RegKind × Nat)) (s : State) := (regsBeyond ks s, s.warps, s.mem, s.wgs)
/-- What `Only` says is left alone. -/
def onlyView (ks : List (RegKind × Nat)) (s : State) := (regsBeyond ks s, s.warps, s.mem, s.cores, s.wgs)
section
variable {s : State} {a : Action} {ks : List (RegKind × Nat)}
theorem least_of_keeps (h : Keeps (leastView ks) a) : Least s (run a s) ks := by
  obtain ⟨hr, hrest⟩ := Prod.mk.inj (h s)
  simp only [Prod.mk.injEq] at hrest
  exact ⟨fun k i hi hk => congrFun hr ⟨(k, i), hi, hk⟩, hrest⟩
theorem only_of_keeps (h : Keeps (onlyView ks) a) : Only s (run a s) ks := by
  obtain ⟨hr, hrest⟩ := Prod.mk.inj (h s)
  simp only [Prod.mk.injEq] at hrest
  exact ⟨fun k i hi hk => congrFun hr ⟨(k, i), hi, hk⟩, hrest⟩
/-- A register of `ks` written leaves the others. -/
theorem regsBeyond_reg {k : RegKind} {n : Nat} (hm : (k, n) ∈ ks) (hn : n < kindCount k) (s : State) (v : DWord) :
    regsBeyond ks (applyUpd s (.reg k n v)) = regsBeyond ks s :=
  funext fun e => reg_applyUpd_ne hn e.2.1 fun he => e.2.2 ((show e.1 = (k, n) from he) ▸ hm)
theorem leastView_reg {k : RegKind} {n : Nat} (hm : (k, n) ∈ ks) (hn : n < kindCount k) (s : State) (v : DWord) :
    leastView ks (applyUpd s (.reg k n v)) = leastView ks s := Prod.ext (regsBeyond_reg hm hn s v) rfl
theorem onlyView_reg {k : RegKind} {n : Nat} (hm : (k, n) ∈ ks) (hn : n < kindCount k) (s : State) (v : DWord) :
    onlyView ks (applyUpd s (.reg k n v)) = onlyView ks s := Prod.ext (regsBeyond_reg hm hn s v) rfl
theorem reg_only {k : RegKind} {n : Nat} (hn : n < kindCount k) (v : DWord) : Only s (applyUpd s (.reg k n v)) [(k, n)] :=
  only_of_keeps (a := upd (.reg k n v)) (keeps_upd fun s => onlyView_reg (by simp) hn s v)
end

section
variable {α : Type} {f : State → α} {k : RegKind} {n : Nat} {v : DWord}
theorem keeps_plain (h : ∀ s v, f (applyUpd s (.reg k n v)) = f s) : Keeps f (plain k n v) := fun s => h s _
theorem keeps_field {lo b x : Nat} (h : ∀ s v, f (applyUpd s (.reg k n v)) = f s) : Keeps f (setField k n lo b x) := fun s => h s _
theorem keeps_updateCap (h : ∀ s v, f (applyUpd s (.reg .ilim n v)) = f s) : Keeps f (updateCap n) := fun s => h s _
end

/-! ### Writes that come, and writes that do not -/

section
variable {s : State} {k : RegKind} {n : Nat} {v : DWord} {lv : Priv}
/-- R4, R433: below the level of one of its fields, by a program, or while the islands are not up, a write does nothing. -/
theorem run_writeAt_barred (h : powered s = false ∨ lv = .program ∨ fwMask k n ≠ 0 ∧ lv ≠ .firmware) : run (writeAt k n v lv) s = s := by
  unfold writeAt
  rw [run_look, if_pos, run_skip]
  rcases h with h | h | ⟨h, h'⟩
  · simp [h]
  · simp [h]
  · rw [bne_iff_ne.mpr h, bne_iff_ne.mpr h', Bool.and_self, Bool.or_true]
theorem run_writeAt (hp : powered s = true) (hn : n < kindCount k) (hl : lv = .firmware ∨ lv = .supervisor ∧ fwMask k n = 0) :
    run (writeAt k n v lv) s = run (writeReg k n v) s := by
  unfold writeAt
  rw [run_look, if_neg]
  rcases hl with rfl | ⟨rfl, h⟩
  · simp [hp, regOk, hn]
  · simp [hp, regOk, hn, h]
theorem discardErr_discards {i : Instr} (hs : Inv s) {b : Nat} (hn : n < kindCount k) (hb : dbit (regMask k n) b = true)
    (hx : exec i s = .next (run (discardErr k n b) s)) : Discards s i k n b := by
  refine ⟨_, hx, ?_, reg_only hn _, rfl, rfl⟩
  show reg (applyUpd s (.reg k n _)) k n = _
  rw [reg_applyUpd_same, reg_dset_mask hs]
  intro i hi
  rwa [show b + i = b by omega]
end
/-- The registers whose writes are checked or have effects beyond their own bits. -/
def specialKinds : List RegKind :=
  [.cinf, .ohtr, .tbud, .pcfg, .opmb, .ilim, .ctxt, .cwin, .cimg, .ctxd, .evrb, .qmap, .psch, .part, .peere, .fseg, .otxm, .orxm, .ostr]
theorem writeReg_plain {k : RegKind} {n : Nat} {v : DWord} (h : k ∉ specialKinds) : writeReg k n v = plain k n v := by
  cases k
  case cinf | ohtr | tbud | pcfg | opmb | ilim | ctxt | cwin | cimg | ctxd | evrb | qmap | psch | part | peere | fseg | otxm | orxm | ostr =>
    exact absurd (by simp [specialKinds]) h
  all_goals rfl

theorem beside_reg (s : State) (k : RegKind) (n : Nat) (v : DWord) : Beside s (applyUpd s (.reg k n v)) :=
  ⟨fun _ => rfl, rfl, rfl, rfl, rfl, rfl, rfl, rfl, rfl⟩
/-- The first part of O54: writes of a register without checks or effects. -/
theorem registerWrite_plain (s : State) (k : RegKind) (n : Nat) (v : DWord) (hs : Inv s) (hn : n < kindCount k) (lv : Priv)
    (hp : powered s = true) (hl : lv = .firmware ∨ lv = .supervisor ∧ fwMask k n = 0) (hk : k ∉ specialKinds) :
    ∃ t, exec (.registerWrite k n v lv) s = .next t ∧ (∀ b, b < 64 → dbit (reg t k n) b =
      if dbit (rwMask k ||| fwMask k n) b then dbit v b else dbit (reg s k n) b && !(dbit (w1cMask k n) b && dbit v b)) ∧
      (∀ k' n', n' < kindCount k' → (k', n') ≠ (k, n) → reg t k' n' = reg s k' n') ∧ t.warps = s.warps ∧ Beside s t := by
  refine ⟨run (plain k n v) s, ?_, fun b hb => plain_bit hs hb, fun k' n' hn' h => reg_applyUpd_ne hn hn' h, rfl, beside_reg _ _ _ _⟩
  show Host.Outcome.next (run (writeAt k n v lv) s) = _
  rw [run_writeAt hp hn hl, writeReg_plain hk]
/-- R329: inflow is frozen while the fallback scheduler serves the island. -/
theorem registerWrite_cinf (s : State) (n : Nat) (v : DWord) (hs : Inv s) (hp : powered s = true) (hn : n < 1024) :
    (fallback s (islandOfPart s (ctxTenant s n)) = true → exec (.registerWrite .cinf n v .firmware) s = .next s) ∧
      (fallback s (islandOfPart s (ctxTenant s n)) = false → ∃ t, exec (.registerWrite .cinf n v .firmware) s = .next t ∧
        reg t .cinf n = v &&& 0x7FFFFFFFFFFF ∧ RegsBut s t [(.cinf, n)] ∧ t.warps = s.warps ∧ Beside s t) := by
  have hx : exec (.registerWrite .cinf n v .firmware) s = .next (run (writeCinf n v) s) :=
    congrArg Host.Outcome.next (run_writeAt hp hn (.inl rfl))
  rw [hx]
  unfold writeCinf
  rw [run_look]
  exact ⟨fun h => by rw [if_pos h, run_skip], fun h => ⟨run (plain .cinf n v) s, by rw [if_neg (by simp [h])],
    plain_whole hs (BitVec.zero_or), fun k i hi hk _ _ _ => (reg_only hn _).1 k i hi hk, rfl, beside_reg _ _ _ _⟩⟩
/-- R390: the code before a heater write is noted with the time of the write. -/
theorem registerWrite_ohtr (s : State) (n : Nat) (v : DWord) (hs : Inv s) (hp : powered s = true) (hn : n < 4096) :
    ∃ t, exec (.registerWrite .ohtr n v .firmware) s = .next t ∧ dbits (reg t .ohtr n) 0 12 = dbits v 0 12 ∧ RegsBut s t [(.ohtr, n)] ∧
      t.fabric = { s.fabric with heat := put s.fabric.heat n (dbits (reg s .ohtr n) 0 12, s.now) } ∧ t.warps = s.warps ∧
      Rest { s with hw := t.hw } t [.fabric] := by
  let u : State := run (fun s => [.fabric { s.fabric with heat := put s.fabric.heat n (dbits (reg s .ohtr n) 0 12, s.now) }]) s
  have hu : Inv u := run_inv hs _
  have hx : exec (.registerWrite .ohtr n v .firmware) s = .next (run (plain .ohtr n v) u) :=
    congrArg Host.Outcome.next (run_writeAt hp hn (.inl rfl))
  refine ⟨_, hx, plain_field hu (by omega) (by simp only [rwMask, fwMask]; decide), fun k i hi hk _ _ _ =>
    (reg_only (s := u) hn _).1 k i hi hk, rfl, rfl, ?_⟩
  constructor
  case fabric => exact fun h => absurd (by simp) h
  all_goals intros; rfl

/-! ### Registers that check what is written to them -/

section
variable {s : State} {n : Nat} {v : Word}

/-- R393: a woken laser is stable. -/
theorem laserLock_locks (hs : Inv s) {j d : Nat} (hn : n < 256) (hj : j < 8) (hd : find s.fabric.waking (8 * n + j) = some d) :
    ∃ t, exec (.laserLock n j) s = .next t ∧ Only s t [(.ostr, n)] ∧ reg t .ostr n = dset (reg s .ostr n) (16 + j) 1 1 ∧
      find t.fabric.waking (8 * n + j) = none ∧ ∀ m, m ≠ 8 * n + j → find t.fabric.waking m = find s.fabric.waking m := by
  let lock : Action := acts [modReg .ostr n fun r => dset r (16 + j) 1 1,
    fun s => [.fabric { s.fabric with waking := del s.fabric.waking (8 * n + j) }]]
  have hx : exec (.laserLock n j) s = .next (run lock s) := by
    show Host.Outcome.next (run (look _) s) = _
    rw [run_look, hd]
  refine ⟨_, hx, only_of_keeps (keeps_cons (keeps_field (onlyView_reg (by simp) hn)) fun _ => rfl), ?_, ?_, fun m hm => ?_⟩
  · show reg (applyUpd s (.reg .ostr n _)) .ostr n = _
    have hbits : ∀ j, j < 8 → dbit 0x80FFFF0F (16 + j + 0) = true := by decide
    rw [reg_applyUpd_same, reg_dset_mask hs]
    intro i hi
    rw [show i = 0 by omega]
    exact hbits j hj
  · show find (del s.fabric.waking (8 * n + j)) (8 * n + j) = none
    simp
  · show find (del s.fabric.waking (8 * n + j)) m = _
    simp [hm]

/-- R324, R329. -/
theorem pschWrite_does (hs : Inv s) (hp : powered s = true) (hn : n < 192) :
    (wbits v 0 16 = 0 ∨ fallback s (islandOfPart s n) = true → exec (.pschWrite n v) s = .next s) ∧
    (wbits v 0 16 ≠ 0 → fallback s (islandOfPart s n) = false → ∃ t, exec (.pschWrite n v) s = .next t ∧
      reg t .psch n = zx64 v &&& 0x3FFFF ∧ Only s t [(.psch, n)]) := by
  have hx : exec (.pschWrite n v) s = .next (run (writePsch n (zx64 v)) s) := congrArg Host.Outcome.next (run_writeAt hp hn (.inl rfl))
  rw [hx, writePsch, run_look, dbits_zx64]
  refine ⟨fun h => by rw [if_pos (by simpa using h), run_skip], fun h h' =>
    ⟨run (plain .psch n (zx64 v)) s, by rw [if_neg (by simp [h, h'])], ?_, ?_⟩⟩
  · exact plain_whole hs BitVec.zero_or
  · exact reg_only hn _

/-- R344, R345. -/
theorem pcfgWrite_does (hs : Inv s) (hp : powered s = true) (hn : n < 192) :
    ((wbits v 4 4 < wbits v 0 4 ∨ ctxValid s (wbits v 16 10) = false) → Discards s (.pcfgWrite n v) .pcfg n 31) ∧
    (wbits v 0 4 ≤ wbits v 4 4 → ctxValid s (wbits v 16 10) = true → ∃ t, exec (.pcfgWrite n v) s = .next t ∧ Only s t [(.pcfg, n), (.opmb, n)] ∧
      dbits (reg t .pcfg n) 0 8 = wbits v 0 8 ∧ ownerOf t n = wbits v 16 10 ∧
      dbits (reg t .opmb n) 0 4 = max (wbits v 0 4) (min (wbits v 4 4) (dbits (reg s .opmb n) 0 4))) := by
  have hx : exec (.pcfgWrite n v) s = .next (run (writePcfg n (zx64 v)) s) := congrArg Host.Outcome.next (run_writeAt hp hn (.inl rfl))
  refine ⟨fun h => discardErr_discards hs hn (by simp only [regMask]; decide) ?_, fun h h' => ?_⟩
  · rw [hx]; unfold run writePcfg
    simp only [dbits_zx64]
    rw [if_pos (by simpa using h)]
  · let target := max (wbits v 0 4) (min (wbits v 4 4) (dbits (reg s .opmb n) 0 4))
    have ht : target < 2 ^ 4 := by
      have := dbits_lt (zx64 v) 0 4
      have := dbits_lt (zx64 v) 4 4
      simp only [dbits_zx64] at *
      omega
    let u := run (plain .pcfg n (zx64 v)) s
    refine ⟨run (acts [plain .pcfg n (zx64 v), setField .opmb n 0 4 target]) s, ?_, ?_, ?_, ?_, ?_⟩
    · rw [hx]; unfold run writePcfg
      simp only [dbits_zx64]
      rw [if_neg (by simp [h, h'])]
    · exact only_of_keeps (keeps_cons (keeps_plain (onlyView_reg (by simp) hn)) (keeps_cons (keeps_field (onlyView_reg (by simp) hn)) keeps_nil))
    · show dbits (reg (applyUpd u (.reg .opmb n _)) .pcfg n) 0 8 = _
      rw [reg_applyUpd_kind (by decide), plain_field hs (by omega) (by simp only [rwMask, fwMask]; decide), dbits_zx64]
    · show dbits (reg (applyUpd u (.reg .opmb n _)) .pcfg n) 16 10 = _
      rw [reg_applyUpd_kind (by decide), plain_field hs (by omega) (by simp only [rwMask, fwMask]; decide), dbits_zx64]
    · show dbits (reg (applyUpd u (.reg .opmb n _)) .opmb n) 0 4 = target
      rw [reg_applyUpd_same, dbits_mask (by simp only [regMask]; decide), dbits_dset_same (by omega) ht]

/-- R345: the mailbox takes the target, held within the bounds. -/
theorem opmbWrite_does (hs : Inv s) (hp : powered s = true) (hn : n < 192) :
    let u := max (dbits (reg s .pcfg n) 0 4) (min (dbits (reg s .pcfg n) 4 4) (wbits v 0 4))
    ∃ t, exec (.opmbWrite n v) s = .next t ∧ Only s t [(.opmb, n)] ∧ dbits (reg t .opmb n) 0 4 = u ∧
      dbit (reg t .opmb n) 31 = (decide (u ≠ wbits v 0 4) || dbit (reg s .opmb n) 31 && !v.getLsbD 31) := by
  intro u
  have hu : u < 2 ^ 4 := by
    have := dbits_lt (reg s .pcfg n) 0 4
    have := dbits_lt (reg s .pcfg n) 4 4
    omega
  let w := run (plain .opmb n (dset (zx64 v) 0 4 u)) s
  have hx : exec (.opmbWrite n v) s = .next (run (writeOpmb n (zx64 v)) s) :=
    congrArg Host.Outcome.next (run_writeAt hp hn (.inr ⟨rfl, rfl⟩))
  have hw4 : dbits (reg w .opmb n) 0 4 = u := by
    rw [plain_field hs (by omega) (by simp only [rwMask, fwMask]; decide), dbits_dset_same (by omega) hu]
  have hw31 : dbit (reg w .opmb n) 31 = (dbit (reg s .opmb n) 31 && !v.getLsbD 31) := by
    rw [plain_w1c hs (by simp only [rwMask, fwMask]; decide) (by simp only [w1cMask]; decide), dbit_dset_ne (by omega) (by omega), dbit_zx64]
  refine ⟨run (acts [plain .opmb n (dset (zx64 v) 0 4 u), if u = wbits v 0 4 then skip else setField .opmb n 31 1 1]) s, ?_, ?_, ?_⟩
  · rw [hx]; unfold run writeOpmb
    simp only [dbits_zx64]
    rfl
  · split
    · exact only_of_keeps (keeps_cons (keeps_plain (onlyView_reg (by simp) hn)) fun _ => rfl)
    · exact only_of_keeps (keeps_cons (keeps_plain (onlyView_reg (by simp) hn)) (keeps_cons (keeps_field (onlyView_reg (by simp) hn)) keeps_nil))
  · by_cases he : u = wbits v 0 4
    · rw [if_pos he]
      show dbits (reg w .opmb n) 0 4 = u ∧ dbit (reg w .opmb n) 31 = _
      exact ⟨hw4, by simp [hw31, he]⟩
    · rw [if_neg he]
      show dbits (reg (applyUpd w (.reg .opmb n (dset (reg w .opmb n) 31 1 1))) .opmb n) 0 4 = u ∧
        dbit (reg (applyUpd w (.reg .opmb n (dset (reg w .opmb n) 31 1 1))) .opmb n) 31 = _
      rw [reg_applyUpd_same, dbits_mask (by simp only [regMask]; decide), dbits_dset_ne (by omega) (by omega), hw4, dbit_and,
        dbit_dset_one (by omega)]
      exact ⟨rfl, by rw [decide_eq_true (p := u ≠ wbits v 0 4) he, Bool.true_or]; simp only [regMask]; decide⟩

/-- R24, R353: the limit takes effect, and CAP follows it. -/
theorem ilimWrite_does (hs : Inv s) (hp : powered s = true) (hn : n < 6) :
    ((wbits v 0 11 = 0 ∨ 1100 < wbits v 0 11) → Discards s (.ilimWrite n v) .ilim n 31) ∧
    (wbits v 0 11 ≠ 0 → wbits v 0 11 ≤ 1100 → ∃ t, exec (.ilimWrite n v) s = .next t ∧ Only s t [(.ilim, n)] ∧
      dbits (reg t .ilim n) 0 11 = wbits v 0 11 ∧ dbits (reg t .ilim n) 16 11 = max 1 (min (wbits v 0 11)
        ((dbits (reg s .pcap 0) 0 16 - Config.freeOther (s.now / 1000000)) * 1000 / (6 * opMilliVolt (topOp s n))))) := by
  have hx : exec (.ilimWrite n v) s = .next (run (writeIlim n (zx64 v)) s) := congrArg Host.Outcome.next (run_writeAt hp hn (.inl rfl))
  rw [writeIlim, dbits_zx64] at hx
  refine ⟨fun h => discardErr_discards hs hn (by simp only [regMask]; decide) ?_, fun h h' => ?_⟩
  · rw [hx, if_pos (by simpa using h)]
  · let u := run (plain .ilim n (zx64 v)) s
    have hu : dbits (reg u .ilim n) 0 11 = wbits v 0 11 := by
      rw [plain_field hs (by omega) (by simp only [rwMask, fwMask]; decide), dbits_zx64]
    have hcap : capOf u n = max 1 (min (wbits v 0 11)
        ((dbits (reg s .pcap 0) 0 16 - Config.freeOther (s.now / 1000000)) * 1000 / (6 * opMilliVolt (topOp s n)))) := by
      have hop : topOp u n = topOp s n := by
        have : opNow u = opNow s := funext fun c => by rw [opNow, opNow, show reg u .clst c = reg s .clst c from reg_applyUpd_kind (by decide)]
        rw [topOp, topOp, this]
      rw [capOf, hu, hop, show reg u .pcap 0 = reg s .pcap 0 from reg_applyUpd_kind (by decide)]
      rfl
    have hlt : capOf u n < 2 ^ 11 := by rw [hcap]; omega
    refine ⟨run (acts [plain .ilim n (zx64 v), updateCap n]) s, ?_, ?_, ?_, ?_⟩
    · rw [hx, if_neg (by simp [h, h'])]
    · exact only_of_keeps (keeps_cons (keeps_plain (onlyView_reg (by simp) hn))
        (keeps_cons (keeps_updateCap (onlyView_reg (by simp) hn)) keeps_nil))
    · show dbits (reg (applyUpd u (.reg .ilim n (dset (reg u .ilim n) 16 11 (capOf u n)))) .ilim n) 0 11 = _
      rw [reg_applyUpd_same, dbits_mask (by simp only [regMask]; decide), dbits_dset_ne (by omega) (by omega), hu]
    · show dbits (reg (applyUpd u (.reg .ilim n (dset (reg u .ilim n) 16 11 (capOf u n)))) .ilim n) 16 11 = _
      rw [reg_applyUpd_same, dbits_mask (by simp only [regMask]; decide), dbits_dset_same (by omega) hlt, hcap]

/-- R381: word `w` of descriptor `n`. -/
theorem fsegWrite_does (hs : Inv s) (hp : powered s = true) {w : Nat} (hn : n < 256) (hw : w < 8) :
    let word (i : Nat) : Nat := regN s .fseg (8 * n + i)
    let bad : Prop := w = 0 ∧ v.getLsbD 31 = true ∧ (v.getLsbD 29 = true ∧ ctxValid s (word 1 % 1024) = false ∨
      v.getLsbD 29 = false ∧ (word 4 = 0 ∨ 0x9000000000 < word 2 + 2 ^ 32 * word 3 + 65536 * word 4))
    (bad → Discards s (.fsegWrite n w v) .fseg (8 * n + w) 30) ∧
    (¬bad → ∃ t, exec (.fsegWrite n w v) s = .next t ∧ Only s t [(.fseg, 8 * n + w)] ∧
      (w ≠ 0 → reg t .fseg (8 * n + w) = zx64 v &&& regMask .fseg w) ∧
      (w = 0 → reg t .fseg (8 * n) &&& 0xBCFFF0FF = zx64 v &&& 0xBCFFF0FF ∧
        dbit (reg t .fseg (8 * n)) 30 = (dbit (reg s .fseg (8 * n)) 30 && !v.getLsbD 30))) := by
  intro word bad
  have hk : 8 * n + w < kindCount .fseg := by simp only [kindCount]; omega
  have hmod : (8 * n + w) % 8 = w := by omega
  have hx : exec (.fsegWrite n w v) s = .next (run (writeFseg (8 * n + w) (zx64 v)) s) := by
    show Host.Outcome.next (run (if w < 8 then _ else _) s) = _
    rw [if_pos hw, run_writeAt hp hk (.inl rfl)]
    rfl
  have hbad : (w == 0 && v.getLsbD 31 && if v.getLsbD 29 then !ctxValid s (word 1 % 1024)
      else word 4 == 0 || decide (0x9000000000 < word 2 + 2 ^ 32 * word 3 + 65536 * word 4)) = true ↔ bad := by
    dsimp only [bad]
    generalize v.getLsbD 29 = system
    cases system <;> simp [and_assoc]
  have hw : run (writeFseg (8 * n + w) (zx64 v)) s =
      if bad then run (discardErr .fseg (8 * n + w) 30) s else run (plain .fseg (8 * n + w) (zx64 v)) s := by
    unfold run writeFseg
    simp only [hmod, show (8 * n + w) / 8 = n by omega, dbit_zx64]
    rw [apply_ite (commit s)]
    exact if_congr hbad rfl rfl
  rw [hw] at hx
  refine ⟨fun h => ?_, fun h => ⟨run (plain .fseg (8 * n + w) (zx64 v)) s, by rw [hx, if_neg h], ?_, fun h0 => ?_, fun h0 => ?_⟩⟩
  · refine discardErr_discards hs hk ?_ (by rw [hx, if_pos h])
    simp only [regMask, hmod.trans h.1]
    decide
  · exact reg_only hk _
  · have hf : rwMask .fseg ||| fwMask .fseg (8 * n + w) = regMask .fseg (8 * n + w) := by
      simp only [rwMask, fwMask, hmod, if_neg h0]
      exact BitVec.zero_or
    rw [plain_whole hs hf]
    simp only [regMask, hmod, Nat.mod_eq_of_lt ‹w < 8›]
  · subst h0
    have hf : rwMask .fseg ||| fwMask .fseg (8 * n + 0) = 0xBCFFF0FF := by
      simp only [rwMask, fwMask, hmod, if_true]
      exact BitVec.zero_or
    refine ⟨dword_ext fun b hb => ?_, ?_⟩
    · show dbit (reg (run (plain .fseg (8 * n + 0) (zx64 v)) s) .fseg (8 * n + 0) &&& _) b = _
      rw [dbit_and, dbit_and, plain_bit hs hb, hf]
      by_cases hm : dbit 0xBCFFF0FF b = true
      · rw [if_pos hm]
      · rw [Bool.eq_false_of_not_eq_true hm, Bool.and_false, Bool.and_false]
    · rw [← dbit_zx64]
      exact plain_w1c hs (n := 8 * n + 0) (by rw [hf]; decide) (by simp only [w1cMask, hmod]; decide)

/-- R378: an unpopulated peer is not enabled, and the own peer's bit always reads 1. -/
theorem peereWrite_does (hp : powered s = true) (hn : n < 32) :
    ∃ t, exec (.peereWrite n v) s = .next t ∧ Only s t [(.peere, n)] ∧ ∀ b, b < 32 →
      dbit (reg t .peere n) b = (v.getLsbD b && dbit (reg s .peerp n) b || decide (regN s .peerid 0 = 32 * n + b)) := by
  have hx : exec (.peereWrite n v) s = .next (run (writePeere n (zx64 v)) s) := congrArg Host.Outcome.next (run_writeAt hp hn (.inl rfl))
  refine ⟨_, hx, reg_only hn _, fun b hb => ?_⟩
  show dbit (reg (applyUpd s (.reg .peere n _)) .peere n) b = _
  have hm : ∀ b, b < 32 → dbit 0xFFFFFFFF b = true := by decide
  rw [reg_applyUpd_same, dbit_and, dbit_or, dbit_and, dbit_zx64, show regMask .peere n = 0xFFFFFFFF from rfl, hm b hb, Bool.and_true]
  congr 1
  split
  · next h =>
    rw [dbit_dw _ _ (by omega), Nat.testBit_two_pow]
    exact decide_eq_decide.mpr (by omega)
  · next h => rw [decide_eq_false (by omega)]; simp [dbit]

theorem isPerm_zx64 : isPerm (zx64 v) = true ↔ ∀ c, c < 8 → ∃ i, i < 8 ∧ wbits v (3 * i) 3 = c := by
  simp [isPerm]
/-- R392: a ring map is a permutation of the eight channels. -/
theorem otxmWrite_does (hs : Inv s) (hp : powered s = true) (hn : n < 256) :
    let perm : Prop := ∀ c, c < 8 → ∃ i, i < 8 ∧ wbits v (3 * i) 3 = c
    (¬perm → Discards s (.otxmWrite n v) .otxm n 31) ∧
    (perm → ∃ t, exec (.otxmWrite n v) s = .next t ∧ Only s t [(.otxm, n)] ∧ dbits (reg t .otxm n) 0 24 = wbits v 0 24 ∧ t.fabric = s.fabric) := by
  have hx : exec (.otxmWrite n v) s = .next (run (writeRings .otxm n (zx64 v)) s) := congrArg Host.Outcome.next (run_writeAt hp hn (.inl rfl))
  rw [writeRings] at hx
  refine ⟨fun h => discardErr_discards hs hn (by simp only [regMask]; decide) ?_, fun h =>
    ⟨run (plain .otxm n (zx64 v)) s, ?_, reg_only hn _, ?_, rfl⟩⟩
  · rw [hx, if_neg (isPerm_zx64.not.mpr h)]
  · rw [hx, if_pos (isPerm_zx64.mpr h)]
  · rw [plain_field hs (by omega) (by simp only [rwMask, fwMask]; decide), dbits_zx64]

/-! ### Lasers (R393) -/

theorem stripeOf_le (code : Nat) : stripeOf code ≤ 8 := by
  unfold stripeOf
  split_ifs <;> omega
theorem find_foldl_put {α : Type} (l : List Nat) (m : SMap α) (a j : Nat) (x : α) :
    find (l.foldl (fun m i => put m (a + i) x) m) (a + j) = if j ∈ l then some x else find m (a + j) := by
  induction l generalizing m with
  | nil => simp
  | cons i r ih =>
    rw [List.foldl_cons, ih, find_put]
    by_cases hr : j ∈ r
    · simp [hr]
    · by_cases hi : j = i
      · simp [hi]
      · simp [hr, hi]
/-- The stripe width that a transmitter's lasers light. -/
def litWidth (r : DWord) : Nat := max (stripeOf (dbits r 0 2)) (stripeOf (dbits r 2 2))
theorem litWidth_le (r : DWord) : litWidth r ≤ 8 := max_le (stripeOf_le _) (stripeOf_le _)
/-- The register with its lasers following REQ and CUR. -/
def litReg (r : DWord) : DWord := dset (dset r 8 8 (2 ^ litWidth r - 1)) 16 8 (dbits r 16 8 &&& (2 ^ litWidth r - 1))
/-- The lasers that wake, those newly lit among them. -/
def litWaking (s : State) (n : Nat) : SMap Nat :=
  ((List.range 8).filter fun j => decide (j < litWidth (reg s .ostr n)) && !dbit (reg s .ostr n) (8 + j)).foldl
    (fun m j => put m (8 * n + j) (s.now + 1500))
    (s.fabric.waking.filter fun e => e.1 / 8 != n || decide (e.1 % 8 < litWidth (reg s .ostr n)))
section
variable (s n)
theorem lasers_eq : lasers n s = [.reg .ostr n (litReg (reg s .ostr n)), .fabric { s.fabric with waking := litWaking s n }] := rfl
theorem run_lasers : run (lasers n) s =
    applyUpd (applyUpd s (.reg .ostr n (litReg (reg s .ostr n)))) (.fabric { s.fabric with waking := litWaking s n }) := by
  rw [run, lasers_eq]
  rfl
theorem reg_lasers : reg (run (lasers n) s) .ostr n = litReg (reg s .ostr n) &&& regMask .ostr n := by
  simp only [run_lasers, reg, applyUpd_hw, hwGet_hwSet]
/-- A field below ON is as it was. -/
theorem lasers_low {lo m : Nat} (h : lo + m ≤ 4) : dbits (reg (run (lasers n) s) .ostr n) lo m = dbits (reg s .ostr n) lo m := by
  have hmask : ∀ i, i < 4 → dbit 0x80FFFF0F i = true := by decide
  rw [reg_lasers, litReg, dbits_mask (m := regMask .ostr n) fun i hi => hmask (lo + i) (by omega), dbits_dset_ne (by omega) (by omega),
    dbits_dset_ne (by omega) (by omega)]
theorem lasers_on : dbits (reg (run (lasers n) s) .ostr n) 8 8 = 2 ^ litWidth (reg s .ostr n) - 1 := by
  have hw := Nat.pow_le_pow_right (n := 2) (by omega) (litWidth_le (reg s .ostr n))
  rw [reg_lasers, litReg, dbits_mask (by simp only [regMask]; decide), dbits_dset_ne (by omega) (by omega), dbits_dset_same (by omega) (by omega)]
theorem lasers_lock {j : Nat} (hj : j < 8) : dbit (reg (run (lasers n) s) .ostr n) (16 + j) =
    (dbit (reg s .ostr n) (16 + j) && decide (j < litWidth (reg s .ostr n))) := by
  have hmask : ∀ j, j < 8 → dbit 0x80FFFF0F (16 + j) = true := by decide
  rw [reg_lasers, litReg, dbit_and, show dbit (regMask .ostr n) (16 + j) = true from hmask j hj, Bool.and_true, dbit_dset _ _ _ _ _ (by omega),
    if_pos (by omega), Nat.testBit_and, Nat.add_sub_cancel_left, dbits_testBit, Nat.testBit_two_pow_sub_one]
  simp [hj]
/-- A channel newly lit starts to lock. -/
theorem lasers_wake {j : Nat} (hj : j < 8) (hw : j < litWidth (reg s .ostr n)) (hoff : dbit (reg s .ostr n) (8 + j) = false) :
    find (run (lasers n) s).fabric.waking (8 * n + j) = some (s.now + 1500) := by
  have hin : j ∈ (List.range 8).filter fun j => decide (j < litWidth (reg s .ostr n)) && !dbit (reg s .ostr n) (8 + j) := by simp [hj, hw, hoff]
  rw [run_lasers]
  exact (find_foldl_put _ _ (8 * n) j _).trans (if_pos hin)
end
theorem keeps_lasers {α : Type} {f : State → α} (h : ∀ s v, f (applyUpd s (.reg .ostr n v)) = f s)
    (hf : ∀ s w, f (applyUpd s (.fabric w)) = f s) : Keeps f (lasers n) := fun s => by
  rw [run_lasers]
  exact (hf _ _).trans (h s _)

/-- R393: a stripe width is requested, and the lasers follow. -/
theorem ostrWrite_does (hs : Inv s) (hp : powered s = true) (hn : n < 256) :
    (wbits v 0 2 = 3 → Discards s (.ostrWrite n v) .ostr n 31) ∧
    (wbits v 0 2 ≠ 3 → ∃ t, exec (.ostrWrite n v) s = .next t ∧ Only s t [(.ostr, n)] ∧
      let r := reg t .ostr n
      let w := max (stripeOf (wbits v 0 2)) (stripeOf (dbits (reg s .ostr n) 2 2))
      dbits r 0 2 = wbits v 0 2 ∧ dbits r 2 2 = dbits (reg s .ostr n) 2 2 ∧ dbits r 8 8 = 2 ^ w - 1 ∧
      ∀ j, j < 8 → dbit r (16 + j) = (dbit (reg s .ostr n) (16 + j) && decide (j < w)) ∧
        (j < w → dbit (reg s .ostr n) (8 + j) = false → find t.fabric.waking (8 * n + j) = some (s.now + 1500))) := by
  have hx : exec (.ostrWrite n v) s = .next (run (writeOstr n (zx64 v)) s) := congrArg Host.Outcome.next (run_writeAt hp hn (.inl rfl))
  rw [writeOstr, dbits_zx64] at hx
  refine ⟨fun h => discardErr_discards hs hn (by simp only [regMask]; decide) (by rw [hx, if_pos h]), fun h => ?_⟩
  let u := run (plain .ostr n (zx64 v)) s
  have hreq : dbits (reg u .ostr n) 0 2 = wbits v 0 2 := by
    rw [plain_field hs (by omega) (by simp only [rwMask, fwMask]; decide), dbits_zx64]
  have hkept : ∀ b, 2 ≤ b → b < 24 → dbit (reg u .ostr n) b = dbit (reg s .ostr n) b := fun b h2 h24 => by
    have hf : ∀ b, b < 24 → 2 ≤ b → dbit (0 ||| 0x3) b = false ∧ dbit 0x80000000 b = false := by decide
    exact plain_kept hs (by omega) (hf b h24 h2).1 (hf b h24 h2).2
  have hcur : dbits (reg u .ostr n) 2 2 = dbits (reg s .ostr n) 2 2 := dbits_congr fun i hi => hkept _ (by omega) (by omega)
  have hwidth : litWidth (reg u .ostr n) = max (stripeOf (wbits v 0 2)) (stripeOf (dbits (reg s .ostr n) 2 2)) := by
    rw [litWidth, hreq, hcur]
  have ht : run (acts [plain .ostr n (zx64 v), lasers n]) s = run (lasers n) u := by rw [run_acts_cons, run_acts_cons, run_acts_nil]
  refine ⟨run (lasers n) u, by rw [hx, if_neg h, ht], ?_, ?_, ?_, ?_, fun j hj => ⟨?_, fun hw hoff => ?_⟩⟩
  · rw [← ht]
    exact only_of_keeps (keeps_cons (keeps_plain (onlyView_reg (by simp) hn)) (keeps_cons (keeps_lasers (onlyView_reg (by simp) hn) fun _ _ => rfl) keeps_nil))
  · rw [lasers_low _ _ (by omega), hreq]
  · rw [lasers_low _ _ (by omega), hcur]
  · rw [lasers_on, hwidth]
  · rw [lasers_lock _ _ hj, hwidth, hkept _ (by omega) (by omega)]
  · exact lasers_wake u n hj (hwidth ▸ hw) (by rw [hkept _ (by omega) (by omega), hoff])

/-! ### Partitions (R365) -/

theorem keeps_restartResidency {α : Type} {f : State → α} {cl : Nat} (h : ∀ s k w, f (applyUpd s (.cluster k w)) = f s) :
    Keeps f (restartResidency cl) := fun s => h s _ _
theorem keeps_bankResidency {α : Type} {f : State → α} (ht : ∀ s k w, f (applyUpd s (.ten k w)) = f s)
    (hc : ∀ s k w, f (applyUpd s (.cluster k w)) = f s) : Keeps f (bankResidency n) :=
  keeps_look fun _ => keeps_cons (keeps_modTenant ht) (keeps_cons (keeps_forEach fun _ _ => keeps_restartResidency hc) keeps_nil)
theorem keeps_mailboxBits {α : Type} {f : State → α} (h : ∀ s v, f (applyUpd s (.reg .opmb n v)) = f s) : Keeps f (mailboxBits n) :=
  fun s => h s _
/-- What an accepted write of a partition's register does, where its fields change or not. -/
def setPart (n : Nat) (new : DWord) (changes : Bool) : Action := acts [
  if changes then bankResidency n else skip, upd (.reg .part n new),
  if changes then look fun s => forEach (clustersOfPart s n) restartResidency else skip, mailboxBits n]
section
variable {α : Type} {f : State → α} {changes : Bool} {new : DWord} (ht : ∀ s k w, f (applyUpd s (.ten k w)) = f s)
  (hc : ∀ s k w, f (applyUpd s (.cluster k w)) = f s)
include ht hc
theorem keeps_bankIf : Keeps f (if changes then bankResidency n else skip) := by
  split
  · exact keeps_bankResidency ht hc
  · exact keeps_skip
omit ht in
theorem keeps_restartIf : Keeps f (if changes then look fun s => forEach (clustersOfPart s n) restartResidency else skip) := by
  split
  · exact keeps_look fun s => keeps_forEach fun _ _ => keeps_restartResidency hc
  · exact keeps_skip
theorem keeps_setPart (hp : ∀ s v, f (applyUpd s (.reg .part n v)) = f s) (ho : ∀ s v, f (applyUpd s (.reg .opmb n v)) = f s) :
    Keeps f (setPart n new changes) :=
  keeps_cons (keeps_bankIf ht hc) (keeps_cons (keeps_upd fun s => hp s _) (keeps_cons (keeps_restartIf hc)
    (keeps_cons (keeps_mailboxBits ho) keeps_nil)))
end
theorem reg_part_setPart (s : State) (n : Nat) (new : DWord) (changes : Bool) :
    reg (run (setPart n new changes) s) .part n = new &&& regMask .part n := by
  have hlast := keeps_cons (f := fun s => reg s .part n) (keeps_restartIf (changes := changes) (n := n) fun _ _ _ => rfl)
    (keeps_cons (l := []) (keeps_mailboxBits (n := n) fun _ _ => reg_applyUpd_kind (by decide)) keeps_nil)
  rw [setPart, run_acts_cons, run_acts_cons]
  exact (hlast _).trans reg_applyUpd_same
/-- MOVE and HELD of the mailbox follow the clusters; its other bits stay. -/
theorem dbit_mailboxBits (hs : Inv s) {b : Nat} (h12 : b ≠ 12) (h13 : b ≠ 13) :
    dbit (reg (run (mailboxBits n) s) .opmb n) b = dbit (reg s .opmb n) b := by
  obtain ⟨moving, held, h⟩ : ∃ x y, run (mailboxBits n) s = applyUpd s (.reg .opmb n (dset (dset (reg s .opmb n) 12 1 x) 13 1 y)) :=
    ⟨_, _, rfl⟩
  by_cases hb : b < 64
  · rw [h, reg_applyUpd_same, dbit_and, dbit_dset_ne hb (by omega), dbit_dset_ne hb (by omega)]
    cases hm : dbit (regMask .opmb n) b
    · rw [reg_reserved hs _ _ _ hm, Bool.and_false]
    · rw [Bool.and_true]
  · simp only [dbit]
    rw [BitVec.getLsbD_of_ge _ _ (by omega), BitVec.getLsbD_of_ge _ _ (by omega)]
theorem dbit_opmb_setPart (hs : Inv s) (new : DWord) (changes : Bool) {b : Nat} (h12 : b ≠ 12) (h13 : b ≠ 13) :
    dbit (reg (run (setPart n new changes) s) .opmb n) b = dbit (reg s .opmb n) b := by
  have hbank := keeps_bankIf (f := fun s => reg s .opmb n) (changes := changes) (n := n) (fun _ _ _ => rfl) fun _ _ _ => rfl
  have hrest := keeps_restartIf (f := fun s => reg s .opmb n) (changes := changes) (n := n) fun _ _ _ => rfl
  rw [setPart, run_acts_cons, run_acts_cons, run_acts_cons, run_acts_cons, run_acts_nil,
    dbit_mailboxBits (run_inv (run_inv (run_inv hs _) _) _) h12 h13]
  have h := (hrest (run (upd (.reg .part n new)) (run (if changes then bankResidency n else skip) s))).trans
    ((reg_applyUpd_kind (by decide)).trans (hbank s))
  exact congrArg (dbit · b) h

/-- The rectangle that a partition's register names: column, row, width, height. -/
def clusterBox (w : Nat) : Nat × Nat × Nat × Nat := (nbits w 0 5, nbits w 8 3, nbits w 16 5 + 1, nbits w 24 3 + 1)
/-- Two rectangles share no cluster. -/
def Apart (a b : Nat × Nat × Nat × Nat) : Prop := a.1 + a.2.2.1 ≤ b.1 ∨ b.1 + b.2.2.1 ≤ a.1 ∨ a.2.1 + a.2.2.2 ≤ b.2.1 ∨ b.2.1 + b.2.2.2 ≤ a.2.1
/-- An enabled partition lies on the die and apart from every other. -/
def PartFits (s : State) (n : Nat) (v : Word) : Prop := v.getLsbD 31 = false ∨
  (clusterBox v.toNat).1 + (clusterBox v.toNat).2.2.1 ≤ 24 ∧ (clusterBox v.toNat).2.1 + (clusterBox v.toNat).2.2.2 ≤ 8 ∧
    ∀ p, p < 192 → p ≠ n → partValid s p = true → Apart (clusterBox v.toNat) (partRect s p)
/-- The write changes no field, or no valid context belongs to the partition. -/
def PartKept (s : State) (n : Nat) (v : Word) : Prop :=
  v &&& 0x871F071F = (reg s .part n).setWidth 32 &&& 0x871F071F ∨ ∀ c, c < 1024 → ctxValid s c = true → ctxTenant s c ≠ n

/-- Two rectangles share a cluster. -/
def boxesMeet (a b : Nat × Nat × Nat × Nat) : Bool :=
  decide (b.1 < a.1 + a.2.2.1) && decide (a.1 < b.1 + b.2.2.1) && decide (b.2.1 < a.2.1 + a.2.2.2) && decide (a.2.1 < b.2.1 + b.2.2.2)
theorem boxesMeet_iff (a b : Nat × Nat × Nat × Nat) : boxesMeet a b = true ↔ ¬Apart a b := by
  simp only [boxesMeet, Bool.and_eq_true, decide_eq_true_iff, Apart, not_or, not_le, and_assoc]
/-- A rectangle leaves the die, or meets that of another partition in force. -/
def partClash (s : State) (n : Nat) (b : Nat × Nat × Nat × Nat) : Bool :=
  (decide (24 < b.1 + b.2.2.1) || decide (8 < b.2.1 + b.2.2.2)) ||
  (List.range 192).any fun p => p != n && partValid s p && boxesMeet b (partRect s p)
/-- A value differs from the register in one of the fields. -/
def partChanges (s : State) (n : Nat) (new : DWord) : Bool := (new &&& fwMask .part n) != (reg s .part n &&& fwMask .part n)
/-- A valid context belongs to the partition (R365). -/
def partBusy (s : State) (n : Nat) : Bool := (List.range 1024).any fun c => ctxValid s c && ctxTenant s c == n
/-- The checks of R365, then the changes. -/
theorem run_writePart (s : State) (n : Nat) (v : DWord) : run (writePart n v) s =
    let new := written s .part n v
    if (dbit new 31 && partClash s n (clusterBox new.toNat)) || (partChanges s n new && partBusy s n) then run (discardErr .part n 30) s
    else run (setPart n new (partChanges s n new)) s := by
  show commit s (if _ then discardErr .part n 30 s else setPart n _ _ s) = _
  rw [apply_ite (commit s)]
  rfl

theorem part_field {lo m : Nat} (h : ∀ i, i < m → dbit (0 ||| 0x871F071F) (lo + i) = true) :
    dbits (written s .part n (zx64 v)) lo m = wbits v lo m :=
  (written_field (k := .part) (n := n) h).trans (dbits_zx64 v lo m)
theorem clusterBox_written : clusterBox (written s .part n (zx64 v)).toNat = clusterBox v.toNat := by
  show (dbits _ 0 5, dbits _ 8 3, dbits _ 16 5 + 1, dbits _ 24 3 + 1) = (wbits v 0 5, wbits v 8 3, wbits v 16 5 + 1, wbits v 24 3 + 1)
  rw [part_field (by decide), part_field (by decide), part_field (by decide), part_field (by decide)]
theorem part_valid : dbit (written s .part n (zx64 v)) 31 = v.getLsbD 31 :=
  (written_bit (by simp only [rwMask, fwMask]; decide)).trans (dbit_zx64 v 31)
theorem partClash_iff (b : Nat × Nat × Nat × Nat) : partClash s n b = true ↔ ¬(b.1 + b.2.2.1 ≤ 24 ∧ b.2.1 + b.2.2.2 ≤ 8 ∧
    ∀ p, p < 192 → p ≠ n → partValid s p = true → Apart b (partRect s p)) := by
  have hany : ((List.range 192).any fun p => p != n && partValid s p && boxesMeet b (partRect s p)) = true ↔
      ¬∀ p, p < 192 → p ≠ n → partValid s p = true → Apart b (partRect s p) := by
    simp only [List.any_eq_true, Bool.and_eq_true, boxesMeet_iff, List.mem_range, bne_iff_ne, not_forall, exists_prop, and_assoc]
  rw [partClash, Bool.or_eq_true, hany, Bool.or_eq_true, decide_eq_true_iff, decide_eq_true_iff, ← not_le, ← not_le, ← not_and_or, ← not_and_or,
    and_assoc]
theorem partChanges_iff : partChanges s n (written s .part n (zx64 v)) = false ↔ v &&& 0x871F071F = (reg s .part n).setWidth 32 &&& 0x871F071F := by
  have hz : ∀ x : DWord, x &&& fwMask .part n = zx64 (x.setWidth 32 &&& 0x871F071F) := fun x => by
    have hm : fwMask .part n = zx64 0x871F071F := by simp only [fwMask]; decide
    rw [hm]
    refine dword_ext fun b hb => ?_
    rw [dbit_and, dbit_zx64, dbit_zx64]
    by_cases h : b < 32
    · simp [dbit, h]
    · simp [BitVec.getLsbD_of_ge _ _ (Nat.not_lt.mp h)]
  have hnew : written s .part n (zx64 v) &&& fwMask .part n = zx64 v &&& fwMask .part n := dword_ext fun b hb => by
    rw [dbit_and, dbit_and]
    by_cases hf : dbit (fwMask .part n) b = true
    · rw [written_bit (by rw [dbit_or, hf, Bool.or_true])]
    · rw [Bool.eq_false_of_not_eq_true hf, Bool.and_false, Bool.and_false]
  have hv : (zx64 v).setWidth 32 = v := by simp [zx64]
  have hinj : ∀ x y : Word, zx64 x = zx64 y ↔ x = y := fun x y =>
    ⟨fun h => BitVec.eq_of_getLsbD_eq fun i hi => by rw [← dbit_zx64, ← dbit_zx64, h], fun h => h ▸ rfl⟩
  rw [partChanges, hnew, hz, hz, hv, bne_eq_false_iff_eq, hinj]
theorem partBusy_iff : partBusy s n = false ↔ ∀ c, c < 1024 → ctxValid s c = true → ctxTenant s c ≠ n := by
  simp [partBusy]

/-- R365: the rectangle of a partition. -/
theorem partWrite_does (hs : Inv s) (hp : powered s = true) (hn : n < 192) :
    (PartFits s n v → PartKept s n v → ∃ t, exec (.partWrite n v) s = .next t ∧ Only s t [(.part, n), (.opmb, n)] ∧
      (∀ b, b ≠ 12 → b ≠ 13 → dbit (reg t .opmb n) b = dbit (reg s .opmb n) b) ∧ partValid t n = v.getLsbD 31 ∧ partRect t n = clusterBox v.toNat) ∧
    (¬(PartFits s n v ∧ PartKept s n v) → Discards s (.partWrite n v) .part n 30) := by
  have hx : exec (.partWrite n v) s = .next (run (writePart n (zx64 v)) s) := congrArg Host.Outcome.next (run_writeAt hp hn (.inl rfl))
  let new := written s .part n (zx64 v)
  have hfits : (dbit new 31 && partClash s n (clusterBox new.toNat)) = false ↔ PartFits s n v := by
    rw [Bool.and_eq_false_iff, part_valid, ← Bool.not_eq_true (partClash _ _ _), partClash_iff, not_not, clusterBox_written]
    rfl
  have hkept : (partChanges s n new && partBusy s n) = false ↔ PartKept s n v := by
    rw [Bool.and_eq_false_iff, partChanges_iff, partBusy_iff]
    rfl
  have hrefused : ((dbit new 31 && partClash s n (clusterBox new.toNat)) || (partChanges s n new && partBusy s n)) = true ↔
      ¬(PartFits s n v ∧ PartKept s n v) := by
    rw [← hfits, ← hkept, ← Bool.or_eq_false_iff, Bool.not_eq_false]
  rw [run_writePart] at hx
  refine ⟨fun hf hk => ⟨run (setPart n new (partChanges s n new)) s, ?_, ?_, fun b => dbit_opmb_setPart hs _ _, ?_, ?_⟩, fun h =>
    discardErr_discards hs hn (by simp only [regMask]; decide) (by rw [hx, if_pos (hrefused.mpr h)])⟩
  · rw [hx, if_neg (hrefused.not.mpr (not_not.mpr ⟨hf, hk⟩))]
  · exact only_of_keeps (keeps_setPart (fun _ _ _ => rfl) (fun _ _ _ => rfl) (onlyView_reg (by simp) hn) (onlyView_reg (by simp) hn))
  · rw [partValid, reg_part_setPart, dbit_and, part_valid]
    simp only [regMask]
    exact Bool.and_true _
  · rw [partRect, reg_part_setPart]
    rw [dbits_mask (by simp only [regMask]; decide), dbits_mask (by simp only [regMask]; decide), dbits_mask (by simp only [regMask]; decide),
      dbits_mask (by simp only [regMask]; decide)]
    exact clusterBox_written
end

/-! ### Maps after a list of changes -/

theorem mem_of_find {α : Type} {m : SMap α} {x : Nat} {v : α} (h : find m x = some v) : (x, v) ∈ m := by
  induction m with
  | nil => exact nomatch h
  | cons e r ih =>
    obtain ⟨k, w⟩ := e
    simp only [find] at h
    split at h
    · next hk => rw [← hk, ← Option.some.inj h]; exact List.mem_cons_self
    · exact List.mem_cons_of_mem _ (ih h)
/-- A core after a list of cores has been stored: one that was stored, or one that no entry names. -/
theorem find_commit_cores {g : Core → Core} {l : List (Nat × Core)} {s : State} {c : Nat} {r : Core}
    (h : find (commit s (l.map fun e => Upd.core e.1 (g e.2))).cores c = some r) :
    (∃ e ∈ l, r = g e.2) ∨ (∀ e ∈ l, e.1 ≠ c) ∧ find s.cores c = some r := by
  induction l generalizing s with
  | nil => exact .inr ⟨by simp, h⟩
  | cons e l ih =>
    rcases ih h with ⟨e', he', hr⟩ | ⟨hl, hf⟩
    · exact .inl ⟨e', List.mem_cons_of_mem _ he', hr⟩
    · simp only [applyUpd_cores, find_put] at hf
      split at hf
      · exact .inl ⟨e, List.mem_cons_self, (Option.some.inj hf).symm⟩
      · next hc => exact .inr ⟨by simpa [Ne.symm hc] using hl, hf⟩
/-- A queue still in its slot is one that no entry of the list names. -/
theorem find_commit_queues {l : List (Nat × Queue)} {s : State} {k : Nat} {q : Queue}
    (h : find (commit s (l.map fun e => Upd.queue e.1 none)).queues k = some q) : (∀ e ∈ l, e.1 ≠ k) ∧ find s.queues k = some q := by
  induction l generalizing s with
  | nil => exact ⟨by simp, h⟩
  | cons e l ih =>
    obtain ⟨hl, hf⟩ := ih h
    simp only [applyUpd_queues, find_putO] at hf
    split at hf
    · exact nomatch hf
    · next hk => exact ⟨by simpa [Ne.symm hk] using hl, hf⟩

/-! ### A context that leaves (R249, R316, R363, R374) -/

section
variable {s : State} {n : Nat}

/-- A core holds nothing of a context: no line of its L1, and no tile that the context held last. -/
def CoreClear (n : Nat) (r : Core) : Prop := (∀ l ∈ r.l1, l.ctx ≠ n) ∧ ∀ p, (tileOf r p).last ≠ some n
/-- A core without what it keeps of a context. -/
def forgetIn (n : Nat) (r : Core) : Core := { r with
  l1 := r.l1.filter fun l => l.ctx != n, rc := r.rc.filter fun l => l.ctx != n
  tiles := r.tiles.map fun t => if t.2.last = some n then (t.1, { t.2 with last := none }) else t }
/-- A core holds something of a context. -/
def remembers (n : Nat) (r : Core) : Bool :=
  (r.l1.any fun l => l.ctx == n) || (r.rc.any fun l => l.ctx == n) || r.tiles.any fun t => t.2.last == some n
theorem forgetCtx_run : run (forgetCtx n) s =
    let t := commit s ((s.cores.filter fun e => remembers n e.2).map fun e => Upd.core e.1 (forgetIn n e.2))
    applyUpd t (.walks (t.walks.filter fun w => w.ctx != n)) := by
  rw [forgetCtx, run_acts_cons, run_acts_cons, run_acts_nil]
  rfl
/-- No tile of a core was last held by a context when no entry of its map says so. -/
theorem tiles_clear {r : Core} (h : ∀ e ∈ r.tiles, e.2.last ≠ some n) (p : Nat) : (tileOf r p).last ≠ some n := by
  unfold tileOf findD
  cases hf : find r.tiles p with
  | none => simp
  | some t => exact h _ (mem_of_find hf)
theorem coreClear_forgetIn (r : Core) : CoreClear n (forgetIn n r) := by
  refine ⟨fun l hl => ?_, tiles_clear fun e he => ?_⟩
  · simpa using (List.mem_filter.mp hl).2
  · obtain ⟨t, _, rfl⟩ := List.mem_map.mp he
    dsimp only
    split
    · simp
    · assumption
theorem coreClear_of_not_remembers {r : Core} (h : remembers n r = false) : CoreClear n r := by
  simp only [remembers, Bool.or_eq_false_iff, List.any_eq_false, beq_iff_eq] at h
  obtain ⟨⟨hl, _⟩, ht⟩ := h
  exact ⟨hl, tiles_clear ht⟩
/-- R249, R363, R374: no core holds anything of the context any more. -/
theorem forgetCtx_clear (c : Nat) : CoreClear n (coreOf (run (forgetCtx n) s) c) := by
  rw [forgetCtx_run]
  unfold coreOf findD
  simp only [applyUpd_cores]
  cases hf : find _ c with
  | none => exact ⟨by simp, tiles_clear (by simp)⟩
  | some r =>
    rcases find_commit_cores hf with ⟨e, _, rfl⟩ | ⟨hl, hs⟩
    · exact coreClear_forgetIn _
    · refine coreClear_of_not_remembers (Bool.eq_false_of_not_eq_true fun hr => hl (c, r) ?_ rfl)
      exact List.mem_filter.mpr ⟨mem_of_find hs, hr⟩

section
variable {α : Type} {f : State → α}
theorem keeps_storeCores {l : List (Nat × Core)} {g : Core → Core} (h : ∀ s k w, f (applyUpd s (.core k w)) = f s) :
    Keeps f fun _ => l.map fun e => Upd.core e.1 (g e.2) := by
  refine keeps_list fun s u hu t => ?_
  obtain ⟨e, _, rfl⟩ := List.mem_map.mp hu
  exact h t _ _
theorem keeps_forgetCtx (hc : ∀ s k w, f (applyUpd s (.core k w)) = f s) (hw : ∀ s w, f (applyUpd s (.walks w)) = f s) : Keeps f (forgetCtx n) :=
  keeps_cons (fun s => keeps_storeCores (l := s.cores.filter fun e => remembers n e.2) (g := forgetIn n) hc s)
    (keeps_cons (fun s => hw s _) keeps_nil)
theorem keeps_dropTlb {p : Tlb → Bool} (h : ∀ s w, f (applyUpd s (.tlb w)) = f s) : Keeps f (dropTlb p) := fun s => h s _
theorem keeps_abandonOf {slot : Nat} (h : ∀ s k w, f (applyUpd s (.launch k w)) = f s) : Keeps f (abandonOf slot) := by
  refine keeps_list fun s u hu t => ?_
  obtain ⟨e, _, rfl⟩ := List.mem_map.mp hu
  exact h t _ _
theorem keeps_unmapQueues (h : ∀ s k w, f (applyUpd s (.queue k w)) = f s) : Keeps f (unmapQueues n) := by
  refine keeps_list fun s u hu t => ?_
  obtain ⟨e, _, rfl⟩ := List.mem_map.mp hu
  exact h t _ _
theorem keeps_abandonAll (h : ∀ s k w, f (applyUpd s (.launch k w)) = f s) :
    Keeps f (look fun s => forEach (s.queues.filter fun e => e.2.ctx == n) fun e => abandonOf e.1) :=
  keeps_look fun _ => keeps_forEach fun _ _ => keeps_abandonOf h
theorem keeps_unmapAll (hl : ∀ s k w, f (applyUpd s (.launch k w)) = f s) (hq : ∀ s k w, f (applyUpd s (.queue k w)) = f s) :
    Keeps f (unmapAll n) := keeps_cons (keeps_abandonAll hl) (keeps_cons (keeps_unmapQueues hq) keeps_nil)
end
theorem forgetCtx_walks : (run (forgetCtx n) s).walks = s.walks.filter fun w => w.ctx != n := by
  rw [forgetCtx_run]
  exact congrArg (List.filter _) (keeps_storeCores (f := fun s => s.walks) (g := forgetIn n) (fun _ _ _ => rfl) s)
/-- R316: no queue of the context is left. -/
theorem unmapAll_queues {k : Nat} {q : Queue} (h : find (run (unmapAll n) s).queues k = some q) : q.ctx ≠ n := by
  rw [unmapAll, run_acts_cons, run_acts_cons, run_acts_nil] at h
  obtain ⟨hl, hf⟩ := find_commit_queues h
  intro hq
  exact hl (k, q) (List.mem_filter.mpr ⟨mem_of_find hf, by simpa using hq⟩) rfl
end

/-! ### Writes of a context's register (R324, R329, R361) -/

section
variable {s : State} {n : Nat} {v : Word}

/-- The context is valid and its island in fallback: SHARE and CLASS keep their values. -/
def ctxFrozen (s : State) (n : Nat) : Bool := ctxValid s n && fallback s (islandOfPart s (ctxTenant s n))
/-- The value that is written, with the fields that stay. -/
def ctxdNew (s : State) (n : Nat) (v : Word) : DWord :=
  if ctxFrozen s n then dset (dset (zx64 v) 16 8 (ctxShare s n)) 24 2 (ctxClass s n) else zx64 v
theorem ctxdNew_bit {b : Nat} (hb : b < 64) (h : b < 16 ∨ 26 ≤ b) : dbit (ctxdNew s n v) b = v.getLsbD b := by
  unfold ctxdNew
  split
  · rw [dbit_dset_ne hb (by omega), dbit_dset_ne hb (by omega), dbit_zx64]
  · exact dbit_zx64 v b
theorem ctxdNew_tenant : dbits (ctxdNew s n v) 8 8 = wbits v 8 8 :=
  (dbits_congr fun i hi => by rw [ctxdNew_bit (by omega) (by omega), dbit_zx64]).trans (dbits_zx64 v 8 8)
theorem ctxdNew_share : dbits (ctxdNew s n v) 16 8 = if ctxFrozen s n then ctxShare s n else wbits v 16 8 := by
  unfold ctxdNew
  split
  · exact (dbits_dset_ne (by omega) (by omega)).trans (dbits_dset_same (by omega) (dbits_lt _ _ _))
  · exact dbits_zx64 v 16 8
theorem ctxdNew_class : dbits (ctxdNew s n v) 24 2 = if ctxFrozen s n then ctxClass s n else wbits v 24 2 := by
  unfold ctxdNew
  split
  · exact dbits_dset_same (by omega) (dbits_lt _ _ _)
  · exact dbits_zx64 v 24 2
/-- What an accepted write does: the register, the time of a context newly valid, the queues and translations of one no longer valid, and
what cores hold of one that is no longer valid or of another tenant. -/
def setCtxd (n : Nat) (new : DWord) (valid was same : Bool) : Action := acts [plain .ctxd n new,
  if valid && !was then modCtx n fun c => { c with time := 0 } else skip,
  if valid then skip else acts [unmapAll n, dropTlb fun t => t.ctx == n],
  if valid && same then skip else forgetCtx n]
theorem run_writeCtxd : run (writeCtxd n (zx64 v)) s =
    if dbits (ctxdNew s n v) 16 8 = 0 ∨ 191 < wbits v 8 8 then run (discardErr .ctxd n 0) s
    else run (setCtxd n (ctxdNew s n v) (v.getLsbD 31) (ctxValid s n) (wbits v 8 8 == ctxTenant s n)) s := by
  rw [← ctxdNew_bit (s := s) (n := n) (v := v) (b := 31) (by omega) (by omega), ← ctxdNew_tenant (s := s) (n := n)]
  let new := ctxdNew s n v
  have hx : run (writeCtxd n (zx64 v)) s = commit s (if (decide (dbits new 16 8 = 0) || decide (191 < dbits new 8 8)) = true then
    discardErr .ctxd n 0 s else setCtxd n new (dbit new 31) (ctxValid s n) (dbits new 8 8 == ctxTenant s n) s) := rfl
  rw [hx, apply_ite (commit s)]
  exact if_congr (by rw [Bool.or_eq_true, decide_eq_true_iff, decide_eq_true_iff]) rfl rfl

section
variable {α : Type} {f : State → α} {new : DWord} {valid was same : Bool}
theorem keeps_startIf (h : ∀ s k w, f (applyUpd s (.ctx k w)) = f s) :
    Keeps f (if valid && !was then modCtx n fun c => { c with time := 0 } else skip) := by
  split
  · exact keeps_modCtx h
  · exact keeps_skip
theorem keeps_endIf (hl : ∀ s k w, f (applyUpd s (.launch k w)) = f s) (hq : ∀ s k w, f (applyUpd s (.queue k w)) = f s)
    (ht : ∀ s w, f (applyUpd s (.tlb w)) = f s) : Keeps f (if valid then skip else acts [unmapAll n, dropTlb fun t => t.ctx == n]) := by
  split
  · exact keeps_skip
  · exact keeps_cons (keeps_unmapAll hl hq) (keeps_cons (keeps_dropTlb ht) keeps_nil)
theorem keeps_moveIf (hc : ∀ s k w, f (applyUpd s (.core k w)) = f s) (hw : ∀ s w, f (applyUpd s (.walks w)) = f s) :
    Keeps f (if valid && same then skip else forgetCtx n) := by
  split
  · exact keeps_skip
  · exact keeps_forgetCtx hc hw
end
theorem setCtxd_least (new : DWord) (valid was same : Bool) (hn : n < 1024) : Least s (run (setCtxd n new valid was same) s) [(.ctxd, n)] :=
  least_of_keeps (keeps_cons (keeps_plain (leastView_reg (by simp) hn)) (keeps_cons (keeps_startIf fun _ _ _ => rfl)
    (keeps_cons (keeps_endIf (fun _ _ _ => rfl) (fun _ _ _ => rfl) fun _ _ => rfl)
      (keeps_cons (keeps_moveIf (fun _ _ _ => rfl) fun _ _ => rfl) keeps_nil))))
theorem setCtxd_reg (new : DWord) (valid was same : Bool) :
    reg (run (setCtxd n new valid was same) s) .ctxd n = reg (run (plain .ctxd n new) s) .ctxd n := by
  rw [setCtxd, run_acts_cons]
  exact keeps_cons (f := fun s => reg s .ctxd n) (l := [_, _]) (keeps_startIf fun _ _ _ => rfl)
    (keeps_cons (l := [_]) (keeps_endIf (fun _ _ _ => rfl) (fun _ _ _ => rfl) fun _ _ => rfl)
      (keeps_cons (l := []) (keeps_moveIf (fun _ _ _ => rfl) fun _ _ => rfl) keeps_nil)) _
/-- A context that stays valid in its tenant leaves cores and walks alone. -/
theorem setCtxd_stays (new : DWord) (was : Bool) : (run (setCtxd n new true was true) s).cores = s.cores ∧
    (run (setCtxd n new true was true) s).walks = s.walks := by
  have h := keeps_cons (f := fun s => (s.cores, s.walks)) (keeps_plain (k := .ctxd) (n := n) (v := new) fun _ _ => rfl)
    (keeps_cons (l := [skip, skip]) (keeps_startIf (n := n) (valid := true) (was := was) fun _ _ _ => rfl) fun _ => rfl) s
  exact Prod.mk.inj h
/-- One that leaves its tenant, or is no longer valid, is forgotten. -/
theorem setCtxd_moves (new : DWord) (valid was same : Bool) (h : (valid && same) = false) :
    (∀ c, CoreClear n (coreOf (run (setCtxd n new valid was same) s) c)) ∧
      (run (setCtxd n new valid was same) s).walks = s.walks.filter fun w => w.ctx != n := by
  have hw := keeps_cons (f := fun s => s.walks) (keeps_plain (k := .ctxd) (n := n) (v := new) fun _ _ => rfl)
    (keeps_cons (keeps_startIf (n := n) (valid := valid) (was := was) fun _ _ _ => rfl)
      (keeps_cons (l := []) (keeps_endIf (n := n) (valid := valid) (fun _ _ _ => rfl) (fun _ _ _ => rfl) fun _ _ => rfl) keeps_nil)) s
  rw [run_acts_cons, run_acts_cons, run_acts_cons, run_acts_nil] at hw
  rw [setCtxd, h, run_acts_cons, run_acts_cons, run_acts_cons, run_acts_cons, run_acts_nil]
  exact ⟨fun c => forgetCtx_clear c, forgetCtx_walks.trans (congrArg (List.filter _) hw)⟩
/-- A valid context keeps its queues and translations; the time of one newly valid starts at 0. -/
theorem setCtxd_valid (new : DWord) (was same : Bool) :
    (run (setCtxd n new true was same) s).queues = s.queues ∧ (run (setCtxd n new true was same) s).tlb = s.tlb ∧
      (was = false → (ctxOf (run (setCtxd n new true was same) s) n).time = 0) := by
  have h := keeps_cons (f := fun s => (s.queues, s.tlb)) (keeps_plain (k := .ctxd) (n := n) (v := new) fun _ _ => rfl)
    (keeps_cons (keeps_startIf (n := n) (valid := true) (was := was) fun _ _ _ => rfl) (keeps_cons (a := skip) keeps_skip
      (keeps_cons (l := []) (keeps_moveIf (n := n) (valid := true) (same := same) (fun _ _ _ => rfl) fun _ _ => rfl) keeps_nil))) s
  refine ⟨(Prod.mk.inj h).1, (Prod.mk.inj h).2, fun hw => ?_⟩
  subst hw
  let u := run (modCtx n fun c => { c with time := 0 }) (run (plain .ctxd n new) s)
  have hm : (ctxOf (run (if true && same then skip else forgetCtx n) u) n).time = (ctxOf u n).time :=
    keeps_moveIf (f := fun s => (ctxOf s n).time) (fun _ _ _ => rfl) (fun _ _ => rfl) u
  have hu : (ctxOf u n).time = 0 := by simp [u, ctxOf]
  rw [setCtxd, run_acts_cons, run_acts_cons, run_acts_cons, run_acts_cons, run_acts_nil]
  exact hm.trans hu
/-- One no longer valid keeps neither. -/
theorem setCtxd_invalid (new : DWord) (was same : Bool) :
    (∀ k q, find (run (setCtxd n new false was same) s).queues k = some q → q.ctx ≠ n) ∧
      (run (setCtxd n new false was same) s).tlb = s.tlb.filter fun e => e.ctx != n := by
  have hf : ∀ u, (run (forgetCtx n) u).queues = u.queues ∧ (run (forgetCtx n) u).tlb = u.tlb := fun u =>
    Prod.mk.inj (keeps_forgetCtx (f := fun s => (s.queues, s.tlb)) (fun _ _ _ => rfl) (fun _ _ => rfl) u)
  let u := run (plain .ctxd n new) s
  have hu : run (setCtxd n new false was same) s = run (forgetCtx n) (run (dropTlb fun t => t.ctx == n) (run (unmapAll n) u)) := by
    simp only [setCtxd, Bool.false_and, Bool.false_eq_true, if_false, run_acts_cons, run_acts_nil, run_skip, u]
  rw [hu, (hf _).1, (hf _).2]
  refine ⟨fun k q hq => unmapAll_queues hq, ?_⟩
  have htlb : (run (unmapAll n) u).tlb = u.tlb := keeps_unmapAll (f := fun s => s.tlb) (fun _ _ _ => rfl) (fun _ _ _ => rfl) u
  show (run (unmapAll n) u).tlb.filter _ = _
  rw [htlb]
  rfl

/-- R324, R329, R361. -/
theorem ctxdWrite_does (hs : Inv s) (hp : powered s = true) (hn : n < 1024) :
    let frozen := ctxValid s n && fallback s (islandOfPart s (ctxTenant s n))
    let share := if frozen then ctxShare s n else wbits v 16 8
    ((share = 0 ∨ 191 < wbits v 8 8) → Discards s (.ctxdWrite n v) .ctxd n 0) ∧
    (share ≠ 0 → wbits v 8 8 ≤ 191 → ∃ t, exec (.ctxdWrite n v) s = .next t ∧ Least s t [(.ctxd, n)] ∧ ctxValid t n = v.getLsbD 31 ∧
      ctxClass t n = (if frozen then ctxClass s n else wbits v 24 2) ∧ ctxShare t n = share ∧ ctxTenant t n = wbits v 8 8 ∧ ctxSup t n = v.getLsbD 1 ∧
      (v.getLsbD 31 = true → wbits v 8 8 = ctxTenant s n → t.cores = s.cores ∧ t.walks = s.walks) ∧
      ((v.getLsbD 31 = false ∨ wbits v 8 8 ≠ ctxTenant s n) → (∀ c, ∀ l ∈ (coreOf t c).l1, l.ctx ≠ n) ∧
        (∀ c p, (tileOf (coreOf t c) p).last ≠ some n) ∧ t.walks = s.walks.filter fun w => w.ctx != n) ∧
      (v.getLsbD 31 = true → t.queues = s.queues ∧ t.tlb = s.tlb ∧ (ctxValid s n = false → (ctxOf t n).time = 0)) ∧
      (v.getLsbD 31 = false → (∀ k q, find t.queues k = some q → q.ctx ≠ n) ∧ t.tlb = s.tlb.filter fun e => e.ctx != n)) := by
  intro frozen share
  have hshare : dbits (ctxdNew s n v) 16 8 = share := ctxdNew_share
  have hx : exec (.ctxdWrite n v) s = .next (run (writeCtxd n (zx64 v)) s) := congrArg Host.Outcome.next (run_writeAt hp hn (.inl rfl))
  rw [run_writeCtxd, hshare] at hx
  refine ⟨fun h => discardErr_discards hs hn (by simp only [regMask]; decide) (by rw [hx, if_pos h]), fun h h' => ?_⟩
  rw [if_neg (by omega)] at hx
  have hreg := setCtxd_reg (s := s) (n := n) (ctxdNew s n v) (v.getLsbD 31) (ctxValid s n) (wbits v 8 8 == ctxTenant s n)
  refine ⟨_, hx, setCtxd_least _ _ _ _ hn, ?_, ?_, ?_, ?_, ?_, fun hv ht => ?_, fun hm => ?_, fun hv => ?_, fun hv => ?_⟩
  · rw [ctxValid, hreg, plain_bit hs (by omega), if_pos (by simp only [rwMask, fwMask]; decide), ctxdNew_bit (by omega) (by omega)]
  · rw [ctxClass, hreg, plain_field hs (by omega) (by simp only [rwMask, fwMask]; decide)]
    exact ctxdNew_class
  · rw [ctxShare, hreg, plain_field hs (by omega) (by simp only [rwMask, fwMask]; decide), hshare]
  · rw [ctxTenant, hreg, plain_field hs (by omega) (by simp only [rwMask, fwMask]; decide), ctxdNew_tenant]
  · rw [ctxSup, hreg, plain_bit hs (by omega), if_pos (by simp only [rwMask, fwMask]; decide), ctxdNew_bit (by omega) (by omega)]
  · rw [hv, ht, beq_self_eq_true]
    exact setCtxd_stays _ _
  · obtain ⟨hclear, hwalks⟩ := setCtxd_moves (s := s) (n := n) (ctxdNew s n v) (v.getLsbD 31) (ctxValid s n) (wbits v 8 8 == ctxTenant s n)
      (by simpa only [Bool.and_eq_false_iff, beq_eq_false_iff_ne] using hm)
    exact ⟨fun c => (hclear c).1, fun c => (hclear c).2, hwalks⟩
  · rw [hv]
    exact setCtxd_valid _ _ _
  · rw [hv]
    exact setCtxd_invalid _ _ _
end

/-- R433: no write of a program or of firmware comes while the islands are not up. -/
theorem writes_unpowered {s : State} (hp : powered s = false) (n : Nat) (v : Word) : ∀ w, ∀ i ∈ [Instr.ctxdWrite n v, .pschWrite n v, .pcfgWrite n v,
    .opmbWrite n v, .ilimWrite n v, .partWrite n v, .fsegWrite n w v, .peereWrite n v, .otxmWrite n v, .ostrWrite n v], exec i s = .next s := by
  have hoff : ∀ k n lv, run (writeAt k n (zx64 v) lv) s = s := fun k n lv => run_writeAt_barred (.inl hp)
  have hseg : ∀ w, run (if w < 8 then writeAt .fseg (8 * n + w) (zx64 v) .firmware else skip) s = s := fun w => by
    split
    · exact hoff _ _ _
    · rfl
  intro w
  simp only [List.forall_mem_cons, List.not_mem_nil, false_implies, implies_true, and_true]
  exact ⟨congrArg _ (hoff _ _ _), congrArg _ (hoff _ _ _), congrArg _ (hoff _ _ _), congrArg _ (hoff _ _ _), congrArg _ (hoff _ _ _),
    congrArg _ (hoff _ _ _), congrArg _ (hseg w), congrArg _ (hoff _ _ _), congrArg _ (hoff _ _ _), congrArg _ (hoff _ _ _)⟩

/-- Settles O54: a plain write by R4's access codes, then each register whose write is checked or has effects. -/
theorem registerWrites : Obligations.RegisterWrites := by
  unfold Obligations.RegisterWrites
  refine ⟨fun s k n v hs hn => ⟨fun lv h => ?_, fun lv hp hl hk => ?_⟩, fun s n v hs hp => ⟨?_, ?_⟩, fun s n v hs => ⟨?_, ?_, fun hp => ?_⟩⟩
  · exact congrArg Host.Outcome.next (run_writeAt_barred h)
  · exact registerWrite_plain s k n v hs hn lv hp hl hk
  · exact registerWrite_cinf s n v hs hp
  · exact registerWrite_ohtr s n v hs hp
  · exact fun j d hn hj hd => laserLock_locks hs hn hj hd
  · exact fun hp => writes_unpowered hp n v
  · exact ⟨ctxdWrite_does hs hp, pschWrite_does hs hp, pcfgWrite_does hs hp, opmbWrite_does hs hp, ilimWrite_does hs hp, partWrite_does hs hp,
      fun w hn hw => fsegWrite_does hs hp hn hw, peereWrite_does hp, otxmWrite_does hs hp, ostrWrite_does hs hp⟩

end Sys2Proof.Machine
end

section
/-! The checks before issue (R71, R269, R276, R337): what the gate answers, in the order of the checks, and what an instruction leaves whose
group does not issue. -/
namespace Sys2Proof.Machine
open Sys2Proof.Safety

/-! ### The gate, check by check -/

section
variable {s : State} {x : Iss} {b : Bool}
/-- A group that no unfinished instruction holds back takes the checks of R71. -/
theorem gate_open (hb : x.blocked = false) (he : x.ejected = false) : gate s x b = match x.fails s with
    | some c => .trap c
    | none =>
      if x.w.fw.isNone && decide ((reg s .cbal x.w.ctx).toInt ≤ 0) then .energy
      else if needsWhole x.i && !x.whole then
        if x.w.lanes.any fun l => l.st == .ejected then .wait else .trap 8
      else if x.locked s || x.fenced || (takesEntry x.i && decide (16 ≤ entries s x.k x.w)) || b then .wait else .go := by
  rw [gate, hb, he]
  rfl
/-- R71: privilege, allotment and open windows are checked in this order. -/
theorem fails_core (hf : x.w.fw = none) : x.fails s =
    if privNow s x.w < privNum (privOf x.i) then some 5 else if !x.allotted s then some 6 else if x.conflict then some 7 else none := by
  rw [Iss.fails, hf]
  rfl
/-- A group is the whole active set when it has every active lane and every guard is true (R35). -/
theorem whole_iff : x.whole = true ↔ x.mask = x.w.activeSet ∧ x.g = x.mask := by
  simp [Iss.whole]
end

/-! ### What stays -/

theorem rest_refl (s : State) (but : List Safety.Part) : Rest s s but :=
  ⟨fun _ _ => rfl, fun _ _ _ _ _ => rfl, fun _ => rfl, fun _ => rfl, fun _ => rfl, fun _ => rfl, fun _ => rfl, fun _ => rfl, fun _ => rfl,
    fun _ => rfl⟩
/-- A warp stored leaves everything beside the warps. -/
theorem rest_warp (s : State) (k : Nat) (w : Option Warp) (but : List Safety.Part) : Rest s (applyUpd s (.warp k w)) but :=
  { rest_refl s but with }
theorem rest_ctx (s : State) (n : Nat) (c : Ctx) : Rest s (applyUpd s (.ctx n c)) [.ctxs] :=
  { rest_refl s [.ctxs] with ctxs := fun h => absurd List.mem_cons_self h }

/-! ### A group that does not issue -/

section
variable {i : Instr} {price : Iss → List Chg} {busy : Iss → State → Bool} {body : Iss → Nat → Action} {s : State} {x : Iss}
/-- An instruction that finds its issuer does what the gate answers. -/
theorem issue_eq (hx : issOf s i = some x) :
    issue i price busy body s = .next (run (issueAct x (price x) (busy x) (body x)) s) := by
  rw [issue, hx]
theorem issue_wait (hx : issOf s i = some x) (hq : gate s x (x.g != 0 && busy x s) = .wait) : issue i price busy body s = .next s := by
  rw [issue_eq hx, issueAct, run_look, hq]
  rfl
/-- R337: a group whose context has no balance is left as it is, and the context marked. -/
theorem issue_energy (hx : issOf s i = some x) (hq : gate s x (x.g != 0 && busy x s) = .energy) :
    issue i price busy body s = .next (applyUpd s (.ctx x.w.ctx { ctxOf s x.w.ctx with energyOut := true })) := by
  rw [issue_eq hx, issueAct, run_look, hq]
  rfl
/-- R276: an ejected thread is a thread of its warp again. -/
theorem issue_bounce (hx : issOf s i = some x) (hq : gate s x (x.g != 0 && busy x s) = .bounce) : issue i price busy body s =
    .next (applyUpd s (.warp x.k (some (x.w.mapLanes x.mask fun _ l => { l with st := .grouped })))) := by
  rw [issue_eq hx, issueAct, run_look, hq]
  exact congrArg _ (run_modWarp _ _ _ _ (issOf_warp hx))
end

/-- Settles O40: the gate takes its checks one after the other, and each answer but `go` and `trap` changes one thing at most. -/
theorem issueChecks : Obligations.IssueChecks := by
  unfold Obligations.IssueChecks
  refine ⟨fun s x b hb he hf => ?_, fun i price busy body hi s x hx => ⟨fun hq => ?_, fun hq => ?_, fun hq => ?_⟩⟩
  · dsimp only
    rw [gate_open hb he, fails_core hf]
    refine ⟨fun h1 => ?_, fun h1 h2 => ?_, fun h1 h2 h3 => ?_, fun h1 h2 h3 h4 => ?_, fun h1 h2 h3 h4 h5 h6 h7 => ?_⟩
    · rw [if_pos (of_decide_eq_true h1)]
    · rw [if_neg (of_decide_eq_false h1), h2]; rfl
    · rw [if_neg (of_decide_eq_false h1), h2, h3]; rfl
    · rw [if_neg (of_decide_eq_false h1), h2, h3, hf, h4]; rfl
    · have hw : x.whole = false := Bool.eq_false_iff.mpr fun h => h6 (whole_iff.mp h)
      have hl : (x.w.lanes.any fun l => l.st == .ejected) = false := by simpa [List.any_eq_false] using h7
      rw [if_neg (of_decide_eq_false h1), h2, h3, hf, h4, h5, hw, hl]; rfl
  · rw [hi, issue_wait hx hq]
  · rw [hi, issue_energy hx hq]
    exact ⟨_, rfl, by simp [ctxOf], rfl, rest_ctx _ _ _⟩
  · rw [hi, issue_bounce hx hq]
    exact ⟨_, _, rfl, (find_put _ _ _ _).trans (if_pos rfl), fun j hj hm => by rw [laneOf_mapLanes _ _ _ _ hj, if_pos hm], fun j hm => laneOf_mapLanes_out _ _ _ _ hm,
      rest_warp _ _ _ _⟩

end Sys2Proof.Machine
end

section
/-! What the shared actions of execution change: the walks of the device's own accesses (R375), barriers and returns that wait (R282, R407), and what
a workgroup gives back (R249, R290). -/
namespace Sys2Proof.Machine

section
variable {α : Type} {f : State → α}
theorem keeps_modWg_of {k : Nat} {m : Workgroup → Workgroup}
    (h : ∀ s g, find s.wgs k = some g → f (applyUpd s (.wg k (some (m g)))) = f s) : Keeps f (modWg k m) := by
  intro s
  cases hg : find s.wgs k with
  | none => simp [run, modWg, hg]
  | some g => rw [run_modWg _ _ _ _ hg, h s g hg]
theorem keeps_noteWalk {n cl : Nat} {ea : DWord} {lines : List Nat} (hw : ∀ s l, f (applyUpd s (.walks l)) = f s)
    (hn : ∀ s n, f (applyUpd s (.nextId n)) = f s) : Keeps f (noteWalk n cl ea lines) := by
  refine keeps_list fun s u hu t => ?_
  unfold noteWalk at hu
  split at hu
  · exact nomatch hu
  · rcases List.mem_cons.mp hu with rfl | hu
    · exact hw _ _
    · rw [List.mem_singleton.mp hu, hn]
theorem keeps_vaWalks {ctx cl : Nat} {a : AccKind} {eas : List Nat} (hw : ∀ s l, f (applyUpd s (.walks l)) = f s)
    (hn : ∀ s n, f (applyUpd s (.nextId n)) = f s) : Keeps f (vaWalks ctx cl a eas) :=
  keeps_look fun _ => keeps_forEach fun _ _ => keeps_noteWalk hw hn
theorem keeps_modTile {core t : Nat} {g : Tile → Tile} (h : ∀ s k w, f (applyUpd s (.core k w)) = f s) : Keeps f (modTile core t g) :=
  keeps_modCore h
theorem keeps_modAcc {core a : Nat} {g : Acc → Acc} (h : ∀ s k w, f (applyUpd s (.core k w)) = f s) : Keeps f (modAcc core a g) :=
  keeps_modCore h
/-- The epilogues of a workgroup that end leave its list, and their blocks wait for them no longer (R177). -/
theorem keeps_endEpis {wg : Nat} {ages : List Nat} (hg : ∀ p : Epi → Bool, Keeps f (modWg wg fun g => { g with epis := g.epis.filter p }))
    (hc : ∀ s k w, f (applyUpd s (.core k w)) = f s) : Keeps f (endEpis wg ages) := by
  refine keeps_look fun s => ?_
  split
  · exact keeps_skip
  · exact keeps_forEach fun e _ => keeps_cons (hg _) (keeps_cons (keeps_modAcc hc) keeps_nil)
theorem keeps_releaseTiles {core ctx : Nat} {l : List Nat} (h : ∀ s k w, f (applyUpd s (.core k w)) = f s) : Keeps f (releaseTiles core ctx l) := by
  refine keeps_forEach fun t _ => ?_
  split
  · exact keeps_modTile h
  · exact keeps_modCore h
theorem keeps_releaseAccs {core : Nat} {l : List Nat} (h : ∀ s k w, f (applyUpd s (.core k w)) = f s) : Keeps f (releaseAccs core l) := by
  refine keeps_forEach fun t _ => ?_
  split
  · exact keeps_modAcc h
  · exact keeps_modCore h
theorem keeps_rcDrop {core wg : Nat} (h : ∀ s k w, f (applyUpd s (.core k w)) = f s) : Keeps f (rcDrop core wg) := by
  refine keeps_list fun s u hu t => ?_
  unfold rcDrop at hu
  split at hu
  · rw [List.mem_singleton.mp hu, h]
  · exact nomatch hu
/-- What an ended workgroup gives back, its warps aside. -/
theorem keeps_dropRest {gk : Nat} {g : Workgroup} (hc : ∀ s k w, f (applyUpd s (.core k w)) = f s) (hg : ∀ s k w, f (applyUpd s (.wg k w)) = f s) :
    Keeps f (acts [releaseTiles g.core g.ctx g.tiles, releaseAccs g.core g.accs, rcDrop g.core gk, upd (.wg gk none)]) :=
  keeps_cons (keeps_releaseTiles hc) (keeps_cons (keeps_releaseAccs hc) (keeps_cons (keeps_rcDrop hc) (keeps_cons (keeps_upd fun s => hg s _ _) keeps_nil)))
theorem keeps_dropWg {gk : Nat} (hw : ∀ s k w, f (applyUpd s (.warp k w)) = f s) (hc : ∀ s k w, f (applyUpd s (.core k w)) = f s)
    (hg : ∀ s k w, f (applyUpd s (.wg k w)) = f s) : Keeps f (dropWg gk) := by
  refine keeps_look fun s => ?_
  split
  · exact keeps_skip
  · exact keeps_cons (keeps_forEach fun e _ => keeps_upd fun s => hw s _ _) (keeps_dropRest hc hg)
theorem keeps_detachWg {gk : Nat} {g : Workgroup} (hc : ∀ s k w, f (applyUpd s (.core k w)) = f s)
    (hg : ∀ s k w, f (applyUpd s (.wg k w)) = f s) : Keeps f (detachWg gk g) :=
  keeps_look fun _ => keeps_cons (keeps_forEach fun _ _ => keeps_modTile hc) (keeps_cons (keeps_forEach fun _ _ => keeps_modAcc hc)
    (keeps_cons (keeps_releaseTiles hc) (keeps_cons (keeps_releaseAccs hc) (keeps_cons (keeps_modWg hg) keeps_nil))))
/-- A workgroup that ends (R300): `hd` is what dropping it keeps. -/
theorem keeps_endIdleWg {gk : Nat} (hd : Keeps f (dropWg gk)) (hc : ∀ s k w, f (applyUpd s (.core k w)) = f s)
    (hg : ∀ s k w, f (applyUpd s (.wg k w)) = f s) (hcl : ∀ s k w, f (applyUpd s (.cluster k w)) = f s)
    (hl : ∀ s k w, f (applyUpd s (.launch k w)) = f s) : Keeps f (endIdleWg gk) := by
  refine keeps_look fun s => ?_
  split
  · exact keeps_skip
  · split
    · exact keeps_skip
    · refine keeps_cons (keeps_modCluster hcl) (keeps_cons (keeps_modLaunch hl) (keeps_cons (keeps_look fun s => ?_) keeps_nil))
      split
      · exact hd
      · split
        · exact keeps_detachWg hc hg
        · exact keeps_skip
/-- R282: barriers that complete wake lanes and change the workgroup's barriers. -/
theorem keeps_checkAll {gk : Nat} (hw : ∀ s k w, f (applyUpd s (.warp k w)) = f s)
    (hg : ∀ k m, Keeps f (modWg gk fun g => modBar g k m)) : Keeps f (checkAll gk) := by
  refine keeps_look fun s => ?_
  split
  · exact keeps_skip
  · refine keeps_forEach fun k _ => keeps_look fun s => ?_
    split
    · exact keeps_skip
    · dsimp only
      split
      · refine keeps_cons (keeps_forEach fun e _ => ?_) (keeps_cons (hg _ _) keeps_nil)
        split
        · exact keeps_modWarp hw
        · exact keeps_skip
      · exact keeps_skip
/-- R407: a return that is completed changes names, its warp, its frame and the workgroup's epilogues. -/
theorem keeps_settleRetr {gk : Nat} (hn : ∀ s n, f (applyUpd s (.nextId n)) = f s) (hw : ∀ s k w, f (applyUpd s (.warp k w)) = f s)
    (hc : ∀ s k w, f (applyUpd s (.core k w)) = f s) (hf : ∀ k j h, Keeps f (modFrame k j h))
    (hg : ∀ (k : Nat) (p : Epi → Bool), Keeps f (modWg k fun g => { g with epis := g.epis.filter p })) : Keeps f (settleRetr gk) := by
  refine keeps_look fun s => ?_
  split
  · exact keeps_skip
  · split
    · exact keeps_look fun s => keeps_cons (keeps_upd fun s => hn s _) (keeps_cons (keeps_upd fun s => hw s _ _) (keeps_cons (hf _ _ _)
        (keeps_cons (keeps_endEpis (hg _) hc) keeps_nil)))
    · exact keeps_skip
end

end Sys2Proof.Machine
end

section
/-! Writes of a context's image (R409, R412 to R414): which bytes they change, and that nothing but the registers and caches of translation and
memory itself decides where they go. -/
namespace Sys2Proof.Machine
open Sys2Proof.Safety

/-! ### What translation reads -/

/-- The hardware registers, the accounts of energy (R334) aside. -/
def steadyRegs (s : State) (e : { k : RegKind // k ≠ .cbal ∧ k ≠ .cuse ∧ k ≠ .tuse } × Nat) : DWord := reg s e.1.1 e.2
/-- Everything of `Rest` but memory, cores, workgroups and launches; and the cached translations. -/
def farView (s : State) := (steadyRegs s, s.queues, s.ctxs, s.stores, s.arrivals, s.fabric, s.tlb)
section
variable {s t : State}
theorem farView_reg (h : farView s = farView t) {k : RegKind} (h1 : k ≠ .cbal) (h2 : k ≠ .cuse) (h3 : k ≠ .tuse) (n : Nat) :
    reg s k n = reg t k n := congrFun (Prod.mk.inj h).1 (⟨k, h1, h2, h3⟩, n)
theorem farView_tlb (h : farView s = farView t) : s.tlb = t.tlb := congrArg (·.2.2.2.2.2.2) h
theorem rest_of_farView (h : farView t = farView s) : Rest s t [.mem, .cores, .wgs, .launches] where
  mem := fun h => absurd (by decide) h
  hw := fun k n h1 h2 h3 => farView_reg h h1 h2 h3 n
  cores := fun h => absurd (by decide) h
  wgs := fun h => absurd (by decide) h
  launches := fun h => absurd (by decide) h
  queues := fun _ => congrArg (·.2.1) h
  ctxs := fun _ => congrArg (·.2.2.1) h
  stores := fun _ => congrArg (·.2.2.2.1) h
  arrivals := fun _ => congrArg (·.2.2.2.2.1) h
  fabric := fun _ => congrArg (·.2.2.2.2.2.1) h
theorem ctxTenant_congr (h : farView s = farView t) (n : Nat) : ctxTenant s n = ctxTenant t n := by
  rw [ctxTenant, ctxTenant, farView_reg h (by decide) (by decide) (by decide)]
theorem imgBase_congr (h : farView s = farView t) (n : Nat) : imgBase s n = imgBase t n := by
  rw [imgBase, imgBase, farView_reg h (by decide) (by decide) (by decide)]
theorem imgSize_congr (h : farView s = farView t) (n : Nat) : imgSize s n = imgSize t n := by
  rw [imgSize, imgSize, farView_reg h (by decide) (by decide) (by decide)]

section
variable (h : farView s = farView t) (hm : s.mem = t.mem)
include h hm
theorem walk2_congr (n stage ipa : Nat) : walk2 s n stage ipa = walk2 t n stage ipa := by
  rw [walk2, walk2, farView_reg h (k := .s2r) (by decide) (by decide) (by decide), hm]
theorem walk1From_congr (n ea : Nat) (l : List Level) (table : Nat) (lines : List Nat) :
    walk1From s n ea l table lines = walk1From t n ea l table lines := by
  induction l generalizing table lines with
  | nil => rfl
  | cons e r ih => simp only [walk1From, walk2_congr h hm, ih, hm]
theorem windowTable_congr (n : Nat) : windowTable s n = windowTable t n := by
  simp only [windowTable, farView_reg h (k := .cwin) (by decide) (by decide) (by decide), ctxTenant_congr h, walk2_congr h hm, hm]
theorem findWindow_congr (n ea : Nat) : findWindow s n ea = findWindow t n ea := by
  rw [findWindow, findWindow, windowTable_congr h hm]
/-- R367, R374: translation reads its registers, the cached translations and the tables in memory, and nothing else. -/
theorem xlateCtx_congr (n : Nat) (sup : Bool) (a : AccKind) (ea : DWord) : xlateCtx s n sup a ea = xlateCtx t n sup a ea := by
  simp only [xlateCtx, farView_reg h (k := .ctxt) (by decide) (by decide) (by decide), farView_reg h (k := .s2r) (by decide) (by decide) (by decide),
    ctxTenant_congr h, farView_tlb h, findWindow_congr h hm, walk1From_congr h hm, walk2_congr h hm]
theorem paOf_congr (n : Nat) (sup : Bool) (a : AccKind) (ea : Nat) : paOf s n sup a ea = paOf t n sup a ea := by
  rw [paOf, paOf, xlateCtx_congr h hm]
theorem imgWrite_congr (n ea : Nat) (bs : List Byte) : imgWrite n ea bs s = imgWrite n ea bs t := by
  simp only [imgWrite, paOf_congr h hm]
end
end

/-! ### Bytes written -/

/-- A change of one byte. -/
def IsByte (u : Upd) : Prop := ∃ a b, u = .byte a b
theorem isByte_run {pa : Nat} {bs : List Byte} {u : Upd} (h : u ∈ mapI (fun i b => Upd.byte (pa + i) b) bs) : IsByte u := by
  simp only [mapI, List.mem_map] at h
  obtain ⟨e, -, rfl⟩ := h
  exact ⟨_, _, rfl⟩
theorem isByte_imgWrite {ctx ea : Nat} {bs : List Byte} {s : State} {u : Upd} (h : u ∈ imgWrite ctx ea bs s) : IsByte u := by
  have part : ∀ (o : Option Nat) (l : List Byte), u ∈ (match o with
      | some pa => mapI (fun i b => Upd.byte (pa + i) b) l
      | none => []) → IsByte u := fun o l hu => by
    cases o with
    | none => exact nomatch hu
    | some pa => exact isByte_run hu
  unfold imgWrite at h
  rcases List.mem_append.mp h with h | h
  · exact part _ _ h
  · split at h
    · exact part _ _ h
    · exact nomatch h
/-- Bytes stored change memory alone. -/
theorem commit_bytes {us : List Upd} (h : ∀ u ∈ us, IsByte u) (s : State) : commit s us = { s with mem := (commit s us).mem } := by
  induction us generalizing s with
  | nil => rfl
  | cons u us ih =>
    obtain ⟨a, b, rfl⟩ := h u List.mem_cons_self
    exact ih (fun v hv => h v (List.mem_cons_of_mem _ hv)) (applyUpd s (.byte a b))
/-- A byte that has changed was stored. -/
theorem byte_of_changed {us : List Upd} (h : ∀ u ∈ us, IsByte u) {s : State} {a : Nat} (hc : memGet (commit s us).mem a ≠ memGet s.mem a) :
    ∃ b, Upd.byte a b ∈ us := by
  induction us generalizing s with
  | nil => exact absurd rfl hc
  | cons u us ih =>
    obtain ⟨a', b, rfl⟩ := h u List.mem_cons_self
    by_cases ha : a = a'
    · exact ⟨b, ha ▸ List.mem_cons_self⟩
    · obtain ⟨b', hb⟩ := ih (s := applyUpd s (.byte a' b)) (fun v hv => h v (List.mem_cons_of_mem _ hv)) (by simpa [ha] using hc)
      exact ⟨b', List.mem_cons_of_mem _ hb⟩
/-- A run of bytes stored, byte by byte. -/
theorem memGet_run (s : State) (pa : Nat) (bs : List Byte) (a : Nat) :
    memGet (commit s (mapI (fun i b => Upd.byte (pa + i) b) bs)).mem a =
      if pa ≤ a ∧ a < pa + bs.length then nth bs (a - pa) 0 else memGet s.mem a := by
  induction bs using List.reverseRecOn with
  | nil => rw [if_neg (by simp)]; rfl
  | append_singleton l b ih =>
    have hmap : mapI (fun i b => Upd.byte (pa + i) b) (l ++ [b]) = mapI (fun i b => Upd.byte (pa + i) b) l ++ [Upd.byte (pa + l.length) b] := by
      simp [mapI, List.zipIdx_append]
    rw [hmap, commit_append, commit_cons, commit_nil, applyUpd_mem, memGet_memSet, ih]
    by_cases ha : a = pa + l.length
    · rw [if_pos ha, if_pos (by simp; omega), ha, Nat.add_sub_cancel_left, nth, List.getD_append_right _ _ _ _ le_rfl, Nat.sub_self]; rfl
    · rw [if_neg ha]
      by_cases hr : pa ≤ a ∧ a < pa + l.length
      · rw [if_pos hr, if_pos (by simp; omega), nth, nth, List.getD_append _ _ _ _ (by omega)]
      · rw [if_neg hr, if_neg (by simp; omega)]

/-! ### Fields written into an image -/

/-- Fields written one after another (R409). -/
def imgWrites (ctx : Nat) (l : List (Nat × List Byte)) : Action := forEach l fun e => imgWrite ctx e.1 e.2
section
variable {ctx : Nat} {s t : State} {l : List (Nat × List Byte)}
theorem run_imgWrite (e : Nat × List Byte) (s : State) :
    run (imgWrite ctx e.1 e.2) s = { s with mem := (run (imgWrite ctx e.1 e.2) s).mem } := commit_bytes (fun _ => isByte_imgWrite) s
theorem run_imgWrites_cons (e : Nat × List Byte) (l : List (Nat × List Byte)) (s : State) :
    run (imgWrites ctx (e :: l)) s = run (imgWrites ctx l) (run (imgWrite ctx e.1 e.2) s) := run_forEach_cons _ _ _ _
/-- Only bytes that some field covers change. -/
theorem imgWrites_changed {a : Nat} (h : memGet (run (imgWrites ctx l) s).mem a ≠ memGet s.mem a) :
    ∃ e ∈ l, ∃ m b, Upd.byte a b ∈ imgWrite ctx e.1 e.2 { s with mem := m } := by
  induction l generalizing s with
  | nil => exact absurd rfl h
  | cons e l ih =>
    rw [run_imgWrites_cons] at h
    by_cases he : memGet (run (imgWrite ctx e.1 e.2) s).mem a = memGet s.mem a
    · rw [← he, run_imgWrite] at h
      obtain ⟨e', he', m, b, hb⟩ := ih h
      exact ⟨e', List.mem_cons_of_mem _ he', m, b, hb⟩
    · obtain ⟨b, hb⟩ := byte_of_changed (fun _ => isByte_imgWrite) he
      exact ⟨e, List.mem_cons_self, s.mem, b, hb⟩
/-- Where the bytes go does not depend on the rest of the state. -/
theorem imgWrites_congr (hv : farView s = farView t) (hm : s.mem = t.mem) (l : List (Nat × List Byte)) :
    (run (imgWrites ctx l) s).mem = (run (imgWrites ctx l) t).mem := by
  have commits : ∀ (us : List Upd) (s t : State), (∀ u ∈ us, IsByte u) → s.mem = t.mem → (commit s us).mem = (commit t us).mem := by
    intro us
    induction us with
    | nil => exact fun _ _ _ h => h
    | cons u us ih =>
      intro s t hu h
      obtain ⟨a, b, rfl⟩ := hu u List.mem_cons_self
      exact ih _ _ (fun v hv => hu v (List.mem_cons_of_mem _ hv)) (by rw [applyUpd_mem, applyUpd_mem, h])
  induction l generalizing s t with
  | nil => exact hm
  | cons e l ih =>
    rw [run_imgWrites_cons, run_imgWrites_cons]
    refine ih ?_ ?_
    · rw [run_imgWrite, run_imgWrite (s := t)]; exact hv
    · rw [run, run, imgWrite_congr hv hm]
      exact commits _ _ _ (fun _ => isByte_imgWrite) hm

/-! ### An area of the image that lies in one piece of memory -/

/-- The `size` bytes of the image from `base` on lie in memory from `p` on, whatever memory holds. -/
def MapsTo (s : State) (ctx base size p : Nat) : Prop :=
  ∀ m n, base ≤ n → n < base + size → paOf { s with mem := m } ctx true .write n = some (p + (n - base))
section
variable {base size p : Nat}
theorem MapsTo.congr (h : MapsTo s ctx base size p) (hv : farView t = farView s) : MapsTo t ctx base size p := fun m n h1 h2 =>
  (paOf_congr (s := { t with mem := m }) (t := { s with mem := m }) hv rfl ctx true .write n).trans (h m n h1 h2)
/-- A field within the area changes its own bytes of memory and no other of the area. -/
theorem memGet_imgWrite (h : MapsTo s ctx base size p) {ea : Nat} {bs : List Byte} (h1 : base ≤ ea) (h2 : ea + bs.length ≤ base + size)
    (i : Nat) : memGet (run (imgWrite ctx ea bs) s).mem (p + i) =
      if ea ≤ base + i ∧ base + i < ea + bs.length then nth bs (base + i - ea) 0 else memGet s.mem (p + i) := by
  have hpa : ∀ n, base ≤ n → n < base + size → paOf s ctx true .write n = some (p + (n - base)) := h s.mem
  by_cases hb : bs = []
  · subst hb
    have hnil : imgWrite ctx ea [] s = [] := by simp only [imgWrite, List.take_nil]; split <;> simp [mapI]
    rw [run, hnil, if_neg (by simp)]; rfl
  · have hlen : 0 < bs.length := List.length_pos_iff.mpr hb
    simp only [run, imgWrite, hpa ea h1 (by omega)]
    generalize hn : 65536 - ea % 65536 = n
    by_cases hsplit : n < bs.length
    · simp only [if_pos hsplit, hpa (ea + n) (by omega) (by omega), commit_append, memGet_run, List.length_drop, List.length_take]
      by_cases hin : ea ≤ base + i ∧ base + i < ea + bs.length
      · rw [if_pos hin]
        by_cases hlow : base + i < ea + n
        · rw [if_neg (by omega), if_pos (by omega), nth, nth, List.getD_eq_getElem?_getD, List.getD_eq_getElem?_getD,
            List.getElem?_take_of_lt (by omega), show p + i - (p + (ea - base)) = base + i - ea by omega]
        · rw [if_pos (by omega), nth, nth, List.getD_eq_getElem?_getD, List.getD_eq_getElem?_getD, List.getElem?_drop,
            show n + (p + i - (p + (ea + n - base))) = base + i - ea by omega]
      · rw [if_neg hin, if_neg (by omega), if_neg (by omega)]
    · simp only [if_neg hsplit, List.append_nil, memGet_run, List.take_of_length_le (Nat.not_lt.mp hsplit)]
      by_cases hin : ea ≤ base + i ∧ base + i < ea + bs.length
      · rw [if_pos hin, if_pos (by omega), show p + i - (p + (ea - base)) = base + i - ea by omega]
      · rw [if_neg hin, if_neg (by omega)]
/-- A byte that some field covers, and on which the fields agree that cover it, holds their value. -/
theorem memGet_imgWrites (h : MapsTo s ctx base size p) (hin : ∀ e ∈ l, base ≤ e.1 ∧ e.1 + e.2.length ≤ base + size) {i : Nat} {v : Byte}
    (hall : ∀ e ∈ l, e.1 ≤ base + i → base + i < e.1 + e.2.length → nth e.2 (base + i - e.1) 0 = v)
    (hsome : (∃ e ∈ l, e.1 ≤ base + i ∧ base + i < e.1 + e.2.length) ∨ memGet s.mem (p + i) = v) :
    memGet (run (imgWrites ctx l) s).mem (p + i) = v := by
  induction l generalizing s with
  | nil => exact hsome.resolve_left (by simp)
  | cons e l ih =>
    have hw := memGet_imgWrite h (hin e List.mem_cons_self).1 (hin e List.mem_cons_self).2 i
    rw [run_imgWrites_cons]
    refine ih ?_ (fun e' he' => hin e' (List.mem_cons_of_mem _ he')) (fun e' he' => hall e' (List.mem_cons_of_mem _ he')) ?_
    · exact h.congr (by rw [run_imgWrite]; rfl)
    · by_cases hc : e.1 ≤ base + i ∧ base + i < e.1 + e.2.length
      · right
        rw [hw, if_pos hc, hall e List.mem_cons_self hc.1 hc.2]
      · rw [hw, if_neg hc]
        refine hsome.imp_left fun ⟨e', he', hc'⟩ => ?_
        rcases List.mem_cons.mp he' with rfl | he'
        · exact absurd hc' hc
        · exact ⟨e', he', hc'⟩
end
end

end Sys2Proof.Machine
end

section
/-! The area of a warp in its context's image (R414): where its registers lie, and that they read back as they were. -/
namespace Sys2Proof.Machine

/-! ### Numbers as bytes -/

@[simp] theorem length_toBytes (n x : Nat) : (toBytes n x).length = n := by
  induction n generalizing x with
  | zero => rfl
  | succ n ih => rw [toBytes, List.length_cons, ih]
/-- R90: the bytes of a number give it back. -/
theorem leNat_toBytes (n x : Nat) : leNat (toBytes n x) = x % 256 ^ n := by
  induction n generalizing x with
  | zero => simp [toBytes, leNat, Nat.mod_one]
  | succ n ih =>
    rw [toBytes, leNat, ih, BitVec.toNat_ofNat, show 256 ^ (n + 1) = 256 * 256 ^ n from Nat.pow_succ', Nat.mod_mul]
/-- A number reads from memory as it was stored. -/
theorem memNat_of_bytes {m : List Host.Cell} {a n x : Nat} (h : ∀ i, i < n → memGet m (a + i) = nth (toBytes n x) i 0) (hx : x < 256 ^ n) :
    memNat m a n = x := by
  have hb : memBytes m a n = toBytes n x := by
    refine List.ext_getElem (by simp [memBytes]) fun i h1 h2 => ?_
    have hi : i < n := by simpa using h2
    rw [show (memBytes m a n)[i] = memGet m (a + i) by simp [memBytes], h i hi, nth, List.getD_eq_getElem?_getD, List.getElem?_eq_getElem h2]
    rfl
  rw [memNat, hb, leNat_toBytes, Nat.mod_eq_of_lt hx]

/-! ### The fields of a warp -/

/-- A field lies in the first part of the area, and if it meets the uniform registers it is one of them; or it is a varying register. -/
inductive FieldAt (w : Warp) (f : Fld Warp) : Prop where
  | uniform (r : Nat) (hr : r < 64) (off : f.off = 4 * r) (n : f.n = 4) (get : f.get w = (w.rdS r).toNat)
  | other (lo : 0x100 ≤ f.off) (hi : f.off + f.n ≤ 0x800)
  | varying (r j : Nat) (hr : r < w.nv) (hj : j < w.width) (off : f.off = 0x9400 + 4 * (w.width * r + j)) (n : f.n = 4)
      (get : f.get w = ((laneOf w j).rd r).toNat)
theorem laneField_at {w : Warp} {f : Fld Warp} {j : Nat} (hj : j < 64) (h : f ∈ laneFields j) : FieldAt w f := by
  simp only [laneFields, List.mem_cons, List.not_mem_nil, or_false] at h
  rcases h with rfl | rfl | rfl | rfl | rfl <;> exact .other (by dsimp only; omega) (by dsimp only; omega)
theorem warpField_at {w : Warp} {f : Fld Warp} (hw : w.width ≤ 64) (h : f ∈ warpFields w) : FieldAt w f := by
  simp only [warpFields, List.mem_append, List.mem_map, List.mem_flatMap, List.mem_range] at h
  rcases h with (((⟨r, hr, rfl⟩ | ⟨r, hr, h⟩) | ⟨j, hj, h⟩) | h) | ⟨r, hr, j, hj, rfl⟩
  · exact .uniform r hr rfl rfl rfl
  · simp only [List.mem_cons, List.not_mem_nil, or_false] at h
    rcases h with rfl | rfl <;> exact .other (by dsimp only; omega) (by dsimp only; omega)
  · exact laneField_at (by omega) h
  · simp only [gap, List.mem_cons, List.not_mem_nil, or_false] at h
    rcases h with rfl | rfl | rfl | rfl | rfl | rfl | rfl | rfl | rfl | rfl | rfl <;> exact .other (by dsimp only; omega) (by dsimp only; omega)
  · exact .varying r j hr hj (by dsimp only; rw [Nat.mul_add, Nat.mul_assoc]; omega) rfl rfl

/-! ### The image of a warp -/

section
variable {w : Warp} {base : Nat}
/-- A warp that holds no switched instruction writes its fields and the empty entries of its switch queue. -/
theorem mem_warpImage (hq : w.swq = []) {e : Nat × List Byte} (h : e ∈ warpImage base w) :
    (∃ f ∈ warpFields w, e = (base + f.off, le f.n (f.get w))) ∨ ∃ i, i < 16 ∧ e = (base + 0x1000 + 64 * i + 0x2C, zeros 4) := by
  rw [warpImage, hq] at h
  simp only [fldWrites, repWrites, List.mem_append, List.mem_map, List.mem_range, List.map_nil, List.length_nil, Nat.sub_zero, Nat.zero_add] at h
  rcases h with ⟨f, hf, rfl⟩ | h | ⟨i, hi, rfl⟩
  · exact .inl ⟨f, hf, rfl⟩
  · exact absurd h (by simp [mapI])
  · exact .inr ⟨i, hi, rfl⟩
theorem field_mem_warpImage {f : Fld Warp} (h : f ∈ warpFields w) : (base + f.off, le f.n (f.get w)) ∈ warpImage base w :=
  List.mem_append_left _ (List.mem_map_of_mem (f := fun f : Fld Warp => (base + f.off, le f.n (f.get w))) h)
/-- The field of a uniform register, and of a varying one in a lane. -/
def uniformField (r : Nat) : Fld Warp := ⟨4 * r, 4, fun w => (w.rdS r).toNat, fun w x => w.wrS r (wd x)⟩
def varyingField (width r j : Nat) : Fld Warp :=
  ⟨0x9400 + 4 * width * r + 4 * j, 4, fun w => ((laneOf w j).rd r).toNat, fun w x => setLane w j fun l => l.wr r (wd x)⟩
theorem uniform_mem_warpFields {r : Nat} (hr : r < 64) : uniformField r ∈ warpFields w := by
  simp only [warpFields, List.mem_append, List.mem_map, List.mem_range]
  exact .inl (.inl (.inl (.inl ⟨r, hr, rfl⟩)))
theorem varying_mem_warpFields {r j : Nat} (hr : r < w.nv) (hj : j < w.width) : varyingField w.width r j ∈ warpFields w := by
  simp only [warpFields, List.mem_append, List.mem_flatMap, List.mem_map, List.mem_range]
  exact .inr ⟨r, hr, j, hj, rfl⟩
/-- A varying register lies within the registers' part of the area. -/
theorem slot_lt {r j : Nat} (hr : r < w.nv) (hj : j < w.width) : w.width * r + j < w.width * w.nv :=
  calc w.width * r + j < w.width * r + w.width := by omega
    _ = w.width * (r + 1) := rfl
    _ ≤ w.width * w.nv := Nat.mul_le_mul_left _ hr
/-- Varying registers lie apart. -/
theorem slot_inj {r j r' j' : Nat} (hj : j < w.width) (hj' : j' < w.width) (h : w.width * r + j = w.width * r' + j') : r = r' ∧ j = j' := by
  have hp : 0 < w.width := by omega
  have hr : (w.width * r + j) / w.width = (w.width * r' + j') / w.width := by rw [h]
  rw [Nat.mul_add_div hp, Nat.mul_add_div hp, Nat.div_eq_of_lt hj, Nat.div_eq_of_lt hj', Nat.add_zero, Nat.add_zero] at hr
  subst hr
  exact ⟨rfl, by omega⟩
theorem warpArea_ge (width nv : Nat) : 0x9400 + 4 * (width * nv) ≤ warpArea width nv := by
  rw [warpArea, Nat.mul_assoc]; omega
/-- Everything written lies within the area. -/
theorem warpImage_within (hw : w.width ≤ 64) (hq : w.swq = []) {e : Nat × List Byte} (h : e ∈ warpImage base w) :
    base ≤ e.1 ∧ e.1 + e.2.length ≤ base + warpArea w.width w.nv := by
  have ha := warpArea_ge w.width w.nv
  rcases mem_warpImage hq h with ⟨f, hf, rfl⟩ | ⟨i, hi, rfl⟩
  · simp only [le, length_toBytes]
    cases warpField_at hw hf with
    | uniform r hr off n => omega
    | other lo hi => omega
    | varying r j hr hj off n => have := slot_lt hr hj; omega
  · simp only [zeros, List.length_replicate]; omega

section
variable {s : State} {ctx p : Nat} (hm : MapsTo s ctx base (warpArea w.width w.nv) p) (hw : w.width ≤ 64) (hq : w.swq = [])
include hm hw hq
/-- A field of four bytes with which every field that meets it agrees reads back from memory. -/
theorem memNat_field {f : Fld Warp} {v : Word} (hf : f ∈ warpFields w) (hn : f.n = 4) (hplace : f.off + 4 ≤ 0x1000 ∨ 0x9400 ≤ f.off)
    (hall : ∀ f' ∈ warpFields w, f'.off < f.off + 4 → f.off < f'.off + f'.n → f'.off = f.off ∧ f'.n = 4 ∧ f'.get w = v.toNat) :
    memNat (run (imgWrites ctx (warpImage base w)) s).mem (p + f.off) 4 = v.toNat := by
  refine memNat_of_bytes (fun i hi => ?_) v.isLt
  rw [Nat.add_assoc]
  refine memGet_imgWrites hm (fun e he => warpImage_within hw hq he) (fun e he h1 h2 => ?_) (.inl ⟨_, field_mem_warpImage hf, ?_, ?_⟩)
  · rcases mem_warpImage hq he with ⟨f', hf', rfl⟩ | ⟨k, hk, rfl⟩
    · simp only [le, length_toBytes] at h1 h2 ⊢
      obtain ⟨ho, hn', hg⟩ := hall f' hf' (by omega) (by omega)
      rw [hn', hg, ho, show base + (f.off + i) - (base + f.off) = i by omega]
    · simp only [zeros, List.length_replicate] at h1 h2
      omega
  · dsimp only; omega
  · simp only [le, length_toBytes]; omega
/-- R414: the uniform registers lie at the start of the area. -/
theorem memNat_uniform {r : Nat} (hr : r < 64) : memNat (run (imgWrites ctx (warpImage base w)) s).mem (p + 4 * r) 4 = (w.rdS r).toNat := by
  have hoff : (uniformField r).off = 4 * r := rfl
  refine memNat_field hm hw hq (f := uniformField r) (uniform_mem_warpFields hr) rfl (.inl (by omega)) fun f hf h1 h2 => ?_
  cases warpField_at hw hf with
  | uniform r' hr' off n get =>
    have hr : r' = r := by omega
    exact ⟨hr ▸ off, n, hr ▸ get⟩
  | other lo hi => omega
  | varying r' j hr' hj off n get => omega
/-- R414: the varying registers follow one another from 0x9400 on, lane by lane. -/
theorem memNat_varying {r j : Nat} (hr : r < w.nv) (hj : j < w.width) :
    memNat (run (imgWrites ctx (warpImage base w)) s).mem (p + 0x9400 + 4 * (w.width * r + j)) 4 = ((laneOf w j).rd r).toNat := by
  have hoff : (varyingField w.width r j).off = 0x9400 + 4 * (w.width * r + j) := by
    rw [varyingField]; dsimp only; rw [Nat.mul_add, Nat.mul_assoc, Nat.add_assoc]
  rw [Nat.add_assoc, ← hoff]
  refine memNat_field hm hw hq (f := varyingField w.width r j) (varying_mem_warpFields hr hj) rfl (.inr (by omega)) fun f hf h1 h2 => ?_
  cases warpField_at hw hf with
  | uniform r' hr' off n get => omega
  | other lo hi => omega
  | varying r' j' hr' hj' off n get =>
    obtain ⟨rfl, rfl⟩ := slot_inj hj hj' (show w.width * r + j = w.width * r' + j' by omega)
    exact ⟨off.trans hoff.symm, n, get⟩
end
end

end Sys2Proof.Machine
end

section
/-! Threads that end (R300): what `exit` leaves of its warp, and what a warp that ends leaves in memory (R49). -/
namespace Sys2Proof.Machine
open Sys2Proof.Safety

/-! ### Lanes that have ended stay so -/

/-- A warp later on, while its active set stays the same: a lane that has ended stays as it ended, and once no lane is active, so do the registers. -/
structure LivesOn (w u : Warp) : Prop where
  fw : u.fw = w.fw
  wg : u.wg = w.wg
  index : u.index = w.index
  width : u.width = w.width
  nv : u.nv = w.nv
  swq : u.swq = w.swq
  active : ∀ j, (laneOf u j).active = (laneOf w j).active
  ended : ∀ j, (laneOf w j).active = false → (laneOf u j).st = (laneOf w j).st
  regs : w.activeSet = 0 → u.s = w.s ∧ ∀ j, (laneOf u j).v = (laneOf w j).v
section
variable {w u v : Warp}
theorem LivesOn.refl (w : Warp) : LivesOn w w :=
  ⟨rfl, rfl, rfl, rfl, rfl, rfl, fun _ => rfl, fun _ _ => rfl, fun _ => ⟨rfl, fun _ => rfl⟩⟩
theorem LivesOn.activeSet (h : LivesOn w u) : u.activeSet = w.activeSet := by
  simp only [Warp.activeSet, h.width, h.active]
theorem LivesOn.trans (h : LivesOn w u) (k : LivesOn u v) : LivesOn w v where
  fw := k.fw.trans h.fw
  wg := k.wg.trans h.wg
  index := k.index.trans h.index
  width := k.width.trans h.width
  nv := k.nv.trans h.nv
  swq := k.swq.trans h.swq
  active := fun j => (k.active j).trans (h.active j)
  ended := fun j hj => (k.ended j ((h.active j).trans hj)).trans (h.ended j hj)
  regs := fun h0 => by
    obtain ⟨hs, hv⟩ := h.regs h0
    obtain ⟨ks, kv⟩ := k.regs (h.activeSet.trans h0)
    exact ⟨ks.trans hs, fun j => (kv j).trans (hv j)⟩
/-- Lanes whose state and registers a change leaves. -/
theorem LivesOn.mapLanes {m : Mask} {f : Nat → Lane → Lane} (hst : ∀ i l, (f i l).st = l.st) (hv : ∀ i l, (f i l).v = l.v) :
    LivesOn w (w.mapLanes m f) := by
  have lane : ∀ j, (laneOf (w.mapLanes m f) j).st = (laneOf w j).st ∧ (laneOf (w.mapLanes m f) j).v = (laneOf w j).v := fun j => by
    by_cases hj : j < w.lanes.length
    · rw [laneOf_mapLanes _ _ _ _ hj]
      split
      · exact ⟨hst _ _, hv _ _⟩
      · exact ⟨rfl, rfl⟩
    · rw [laneOf_absent _ _ (by simpa using hj), laneOf_absent w _ (by simpa using hj)]
      exact ⟨rfl, rfl⟩
  exact ⟨rfl, rfl, rfl, rfl, rfl, rfl, fun j => by rw [Lane.active, Lane.active, (lane j).1], fun j _ => (lane j).1, fun _ => ⟨rfl, fun j => (lane j).2⟩⟩
theorem inMask_activeSet {j : Nat} : inMask w.activeSet j = (decide (j < 64) && decide (j < w.width) && (laneOf w j).active) := by
  rw [Warp.activeSet, inMask_maskOf]
end

/-! ### Actions that a warp lives through -/

/-- An action that a warp lives through. -/
def LivesThrough (k : Nat) (a : Action) : Prop := ∀ s w, find s.warps k = some w → ∃ u, find (run a s).warps k = some u ∧ LivesOn w u
section
variable {k : Nat}
theorem livesThrough_of_keeps {a : Action} (h : Keeps (fun s => s.warps) a) : LivesThrough k a := fun s w hw =>
  ⟨w, (congrArg (find · k) (h s)).trans hw, .refl w⟩
theorem livesThrough_acts {l : List Action} (h : ∀ a ∈ l, LivesThrough k a) : LivesThrough k (acts l) := by
  induction l with
  | nil => exact livesThrough_of_keeps fun _ => rfl
  | cons a r ih =>
    intro s w hw
    obtain ⟨u, hu, h1⟩ := h a List.mem_cons_self s w hw
    obtain ⟨v, hv, h2⟩ := ih (fun b hb => h b (List.mem_cons_of_mem _ hb)) _ u hu
    exact ⟨v, by rwa [run_acts_cons], h1.trans h2⟩
theorem livesThrough_forEach {β : Type} {l : List β} {f : β → Action} (h : ∀ x ∈ l, LivesThrough k (f x)) : LivesThrough k (forEach l f) :=
  livesThrough_acts (by simpa using h)
theorem livesThrough_modWarp {k' : Nat} {f : Warp → Warp} (h : ∀ w, LivesOn w (f w)) : LivesThrough k (modWarp k' f) := by
  intro s w hw
  cases hk : find s.warps k' with
  | none => exact ⟨w, by rwa [run_modWarp_none _ _ _ hk], .refl w⟩
  | some v =>
    rw [run_modWarp _ _ _ _ hk, applyUpd_warps, find_putO]
    split
    · next e => subst e; rw [hw] at hk; exact ⟨_, rfl, Option.some.inj hk ▸ h w⟩
    · exact ⟨w, hw, .refl w⟩
theorem livesThrough_look {g : State → Action} (h : ∀ s, LivesThrough k (g s)) : LivesThrough k (look g) := fun s => h s s
theorem livesThrough_skip : LivesThrough k skip := livesThrough_of_keeps keeps_skip
/-- R282: a barrier that completes wakes lanes. -/
theorem livesThrough_checkAll (gk : Nat) : LivesThrough k (checkAll gk) := by
  refine livesThrough_look fun s => ?_
  split
  · exact livesThrough_skip
  · refine livesThrough_forEach fun b _ => livesThrough_look fun s => ?_
    split
    · exact livesThrough_skip
    · dsimp only
      split
      · refine livesThrough_acts (List.forall_mem_cons.mpr ⟨livesThrough_forEach fun e _ => ?_, List.forall_mem_singleton.mpr ?_⟩)
        · split
          · exact livesThrough_modWarp fun w => .mapLanes (fun _ l => by split <;> rfl) fun _ l => by split <;> rfl
          · exact livesThrough_skip
        · exact livesThrough_of_keeps (keeps_modWg (by simp))
      · exact livesThrough_skip
/-- A return that can be completed is one of a warp with a live lane in the frame. -/
theorem retrDue_spec {s : State} {g : Workgroup} {wk f : Nat} {w : Warp} (h : retrDue s g = some (wk, w, f)) :
    find s.warps wk = some w ∧ w.activeSet ≠ 0 := by
  obtain ⟨f', -, h⟩ := List.exists_of_findSome?_eq_some h
  dsimp only at h
  split at h
  · next v hv =>
    split at h
    · next hr =>
      obtain ⟨rfl, rfl, rfl⟩ : (nth g.frames f' noFrame).warp = wk ∧ v = w ∧ f' = f := by simpa using h
      refine ⟨hv, fun h0 => ?_⟩
      simp [retrReady, allReturned, h0] at hr
    · exact nomatch h
  · exact nomatch h
/-- R407: a return puts lanes of the active set back, and no other. -/
theorem livesOn_restore {w : Warp} {m : Mask} {f : Nat → Lane → Lane} (hw : w.activeSet ≠ 0) (hf : ∀ i l, (f i l).st = .grouped) :
    LivesOn w (w.mapLanes (liveLanes w m) f) := by
  have lane : ∀ j, laneOf (w.mapLanes (liveLanes w m) f) j = laneOf w j ∨
      (laneOf w j).active = true ∧ (laneOf (w.mapLanes (liveLanes w m) f) j).active = true := fun j => by
    by_cases hj : j < w.lanes.length
    · rw [laneOf_mapLanes _ _ _ _ hj]
      split
      · next hm =>
        rw [liveLanes, inMask_and, inMask_activeSet] at hm
        simp only [Bool.and_eq_true] at hm
        exact .inr ⟨hm.2.2, by rw [Lane.active, hf]; rfl⟩
      · exact .inl rfl
    · exact .inl (by rw [laneOf_absent _ _ (by simpa using hj), laneOf_absent w _ (by simpa using hj)])
  refine ⟨rfl, rfl, rfl, rfl, rfl, rfl, fun j => ?_, fun j hj => ?_, fun h => absurd h hw⟩
  · rcases lane j with h | ⟨h1, h2⟩
    · rw [h]
    · rw [h1, h2]
  · rcases lane j with h | ⟨h1, -⟩
    · rw [h]
    · rw [h1] at hj; exact nomatch hj
theorem foldl_wrS (l : List Nat) (v : Nat → Word) (w : Warp) :
    l.foldl (fun w j => w.wrS j (v j)) w = { w with s := (l.foldl (fun w j => w.wrS j (v j)) w).s } := by
  induction l generalizing w with
  | nil => rfl
  | cons j l ih => rw [List.foldl_cons, ih]; rfl
/-- Uniform registers restored, the trap level and the unfinished instructions changed. -/
theorem livesOn_leave {w u : Warp} (hw : w.activeSet ≠ 0) (h : LivesOn w u) (b : Bool) (l : List Nat) (v : Nat → Word) (outs : List Outst) :
    LivesOn w { (if b then u else { l.foldl (fun w j => w.wrS j (v j)) u with level := 0, frame := none }) with outs := outs } := by
  rw [foldl_wrS]
  cases b <;> exact ⟨h.fw, h.wg, h.index, h.width, h.nv, h.swq, h.active, h.ended, fun h0 => absurd h0 hw⟩
/-- A completed return stores its warp with lanes of the active set put back. -/
theorem livesThrough_leaveFrame {s : State} {wk f : Nat} {w v : Warp} {g : Workgroup} (hwk : find s.warps wk = some v) (hv : v.activeSet ≠ 0)
    (hw : find s.warps k = some w) : ∃ u, find (run (leaveFrame wk v g f) s).warps k = some u ∧ LivesOn w u := by
  unfold leaveFrame
  rw [run_look]
  simp only [run_acts_cons, run_acts_nil, run_upd]
  have hrest : ∀ (h : Frame → Frame) (ages : List Nat) (t : State), (run (endEpis v.wg ages) (run (modFrame v.wg f h) t)).warps = t.warps :=
    fun h ages t => (keeps_endEpis (f := fun s => s.warps) (fun _ => keeps_modWg (by simp)) (by simp) _).trans (keeps_modWg (f := fun s => s.warps) (by simp) t)
  rw [hrest, applyUpd_warps, find_putO]
  split
  · next e =>
    obtain rfl : v = w := Option.some.inj (hwk.symm.trans (e ▸ hw))
    exact ⟨_, rfl, livesOn_leave hv (livesOn_restore hv fun i l => rfl) _ _ _ _⟩
  · exact ⟨w, hw, .refl w⟩
theorem livesThrough_settleRetr (gk : Nat) : LivesThrough k (settleRetr gk) := by
  intro s w hw
  unfold settleRetr
  rw [run_look]
  split
  · exact ⟨w, hw, .refl w⟩
  · split
    · next h =>
      obtain ⟨hwk, hv⟩ := retrDue_spec h
      exact livesThrough_leaveFrame hwk hv hw
    · exact ⟨w, hw, .refl w⟩
end

end Sys2Proof.Machine
end

section
/-! `exit` (R300): the state in which the warp may end, and what a warp that ends leaves (R49). -/
namespace Sys2Proof.Machine
open Sys2Proof.Safety

/-! ### Before the warp ends -/

/-- What places a workgroup: its launch, its context, its area of the image and its warps. -/
def roster (g : Workgroup) : Nat × Nat × Nat × SMap Nat := (g.launch, g.ctx, g.area, g.warps)
/-- The far view, memory, launches and where each workgroup stands. -/
def placeView (s : State) := (farView s, s.mem, s.launches, fun k => (find s.wgs k).map roster)
theorem keeps_modWg_place {k : Nat} {m : Workgroup → Workgroup} (h : ∀ g, roster (m g) = roster g) : Keeps placeView (modWg k m) :=
  keeps_modWg_of fun s g hg => by
    have hr : (fun k' => (find (applyUpd s (.wg k (some (m g)))).wgs k').map roster) = fun k' => (find s.wgs k').map roster := funext fun k' => by
      rw [applyUpd_wgs, find_putO]
      split
      · next e => rw [e, hg, Option.map_some, Option.map_some, h]
      · rfl
    exact congrArg (fun r => (farView s, s.mem, s.launches, r)) hr
theorem farView_of_placeView {s t : State} (h : placeView s = placeView t) : farView s = farView t := congrArg (·.1) h
theorem mem_of_placeView {s t : State} (h : placeView s = placeView t) : s.mem = t.mem := congrArg (·.2.1) h
theorem launches_of_placeView {s t : State} (h : placeView s = placeView t) : s.launches = t.launches := congrArg (·.2.2.1) h
/-- A workgroup stands where it stood. -/
theorem wg_of_placeView {s t : State} (h : placeView s = placeView t) {k : Nat} {g : Workgroup} (hg : find s.wgs k = some g) :
    ∃ g', find t.wgs k = some g' ∧ roster g' = roster g := by
  have hk : (find s.wgs k).map roster = (find t.wgs k).map roster := congrFun (congrArg (·.2.2.2) h) k
  rw [hg, Option.map_some] at hk
  cases ht : find t.wgs k with
  | none => rw [ht] at hk; exact nomatch hk
  | some g' => rw [ht, Option.map_some] at hk; exact ⟨g', rfl, (Option.some.inj hk).symm⟩
theorem recOf_roster {s t : State} (hl : s.launches = t.launches) {g g' : Workgroup} (h : g'.launch = g.launch) : recOf s g = recOf t g' := by
  rw [recOf, recOf, hl, h]
theorem placeView_issued (x : Iss) (price : List Chg) (s : State) (h : find s.warps x.k = some x.w) : placeView (x.issued price s) = placeView s := by
  have hq := issued_quiet x price s h
  have htlb : (x.issued price s).tlb = s.tlb := issued_keeps (f := fun s => s.tlb) (by simp) (by simp) (by simp) (by simp) (by simp) (by simp) _ _ _
  have hr : steadyRegs (x.issued price s) = steadyRegs s := funext fun e => hq.hw _ _ e.1.2.1 e.1.2.2.1 e.1.2.2.2
  simp only [placeView, farView, hr, hq.queues, hq.ctxs, hq.stores, hq.arrivals, hq.fabric, htlb, hq.mem, hq.launches, hq.wgs]
/-- The guard-true lanes have exited. -/
def exited (x : Iss) (w : Warp) : Warp := w.mapLanes x.g fun _ l => { l with st := .exited, wait := .none, wins := [], join := none }
/-- The threads end, barriers that waited for them complete, and so do returns. -/
def endThreadsOf (x : Iss) : Action := acts [modWarp x.k (exited x), checkAll x.w.wg, settleRetr x.w.wg]
theorem keeps_endThreadsOf (x : Iss) : Keeps placeView (endThreadsOf x) :=
  keeps_cons (keeps_modWarp fun _ _ _ => rfl) (keeps_cons (keeps_checkAll (fun _ _ _ => rfl) fun _ _ => keeps_modWg_place fun _ => rfl)
    (keeps_cons (keeps_settleRetr (fun _ _ => rfl) (fun _ _ _ => rfl) (fun _ _ _ => rfl) (fun _ _ _ => keeps_modWg_place fun _ => rfl)
      fun _ _ => keeps_modWg_place fun _ => rfl) keeps_nil))
/-- The state in which the warp of an `exit` may end. -/
def afterExit (x : Iss) (s : State) : State := run (endThreadsOf x) (x.issued (x.price .ctl) s)
section
variable {c : Ctl} {o : OB} {s : State} {x : Iss}
theorem exec_exit (h : Issues (.exit c o) never s x) (hg : x.g ≠ 0) (hl : x.w.level = 0) :
    exec (.exit c o) s = .next (run (endWarp x.k) (afterExit x s)) := by
  show issue _ _ _ _ _ = _
  rw [issue_go h, run_go, if_pos (by simpa using hg), performExit, hl, if_neg (by decide)]
  simp only [afterExit, endThreadsOf, run_acts_cons, run_acts_nil]
  rfl
theorem placeView_afterExit (h : find s.warps x.k = some x.w) : placeView (afterExit x s) = placeView s :=
  (keeps_endThreadsOf x _).trans (placeView_issued x _ s h)
/-- The warp, its guard-true lanes ended. -/
theorem afterExit_warp (h : find s.warps x.k = some x.w) : ∃ w, find (afterExit x s).warps x.k = some w ∧ LivesOn (exited x (x.stepped s)) w := by
  have hi : find (x.issued (x.price .ctl) s).warps x.k = some (x.stepped s) := (issued_warps x _ s h x.k).trans (if_pos rfl)
  rw [afterExit, endThreadsOf, run_acts_cons, run_modWarp _ _ _ _ hi]
  refine livesThrough_acts (List.forall_mem_cons.mpr ⟨livesThrough_checkAll _, List.forall_mem_singleton.mpr (livesThrough_settleRetr _)⟩) _ _ ?_
  rw [applyUpd_warps, find_putO, if_pos rfl]
/-- The lanes of the warp as it issued, but that guard-true ones have exited. -/
theorem exited_lane (x : Iss) (s : State) (j : Nat) : (laneOf (exited x (x.stepped s)) j).v = (laneOf x.w j).v ∧
    (laneOf (exited x (x.stepped s)) j).st = if j < x.w.lanes.length ∧ inMask x.g j = true then .exited else (laneOf x.w j).st := by
  obtain ⟨l, e, hv, -, -, -, hst, -⟩ := laneOf_stepped x s j
  by_cases hj : j < x.w.lanes.length
  · rw [exited, laneOf_mapLanes _ _ _ _ (by simpa using hj), e]
    by_cases hm : inMask x.g j = true
    · rw [if_pos hm, if_pos ⟨hj, hm⟩]; exact ⟨hv, rfl⟩
    · rw [if_neg hm, if_neg fun h => hm h.2]; exact ⟨hv, hst⟩
  · rw [exited, laneOf_absent _ _ (by simpa using hj), laneOf_absent x.w _ (by simpa using hj), if_neg fun h => hj h.1]
    exact ⟨rfl, rfl⟩
/-- R27: the active set is what is left of it. -/
theorem exited_activeSet (x : Iss) (s : State) : (exited x (x.stepped s)).activeSet = x.w.activeSet &&& ~~~x.g := by
  refine BitVec.eq_of_getLsbD_eq fun j hj => ?_
  show inMask _ j = _
  rw [inMask_activeSet, BitVec.getLsbD_and, BitVec.getLsbD_not, Lane.active, (exited_lane x s j).2]
  have hl := @inMask_activeSet x.w j
  rw [inMask] at hl
  rw [hl, Lane.active, show (exited x (x.stepped s)).width = x.w.width from rfl, show x.g.getLsbD j = inMask x.g j from rfl]
  by_cases hlen : j < x.w.lanes.length
  · cases inMask x.g j <;> simp [hj, hlen]
  · simp [hlen, laneOf_absent _ _ (Nat.not_lt.mp hlen), absentLane]
end

/-! ### The warp ends -/

section
variable {s : State} {k : Nat} {w : Warp}
theorem endWarp_stays (hw : find s.warps k = some w) (h : ¬(w.fw = none ∧ w.activeSet = 0)) : run (endWarp k) s = s := by
  rw [endWarp, run_look, hw]
  exact (congrArg (run · s) (if_neg (by simpa using h))).trans rfl
/-- A workgroup that a warp has left: its slot is free, and so are its frames. -/
def withoutWarp (k : Nat) (w : Warp) (g : Workgroup) : Workgroup := { g with
  warps := del g.warps w.index
  frames := g.frames.map fun f => if f.state != 0 && f.warp == k then { f with state := 0, rep := [] } else f
  spawnQ := g.spawnQ.filter fun r => r.wk != k }
/-- The epilogues of a warp end, those queued in its frames with them. -/
def endOwnEpis (s : State) (k : Nat) (w : Warp) : Action := match wgOf s w with
  | some g => endEpis w.wg (w.outs.map (·.age) ++ ((g.frames.filter fun f => f.state != 0 && f.warp == k).flatMap fun f => f.rep.map (·.o.age)))
  | none => skip
/-- What a warp that ends has still to do before its area is written: its epilogues end, and it leaves its workgroup. -/
def leaveWg (s : State) (k : Nat) (w : Warp) : Action := acts [endOwnEpis s k w, modWg w.wg (withoutWarp k w)]
theorem endWarp_ends (hw : find s.warps k = some w) (hf : w.fw = none) (h0 : w.activeSet = 0) : run (endWarp k) s =
    run (endIdleWg w.wg) (applyUpd (run (match wgOf s w with
      | some g => if find g.warps w.index = some k then imageWarp w.wg w.index k else skip
      | none => skip) (run (leaveWg s k w) s)) (.warp k none)) := by
  rw [endWarp, run_look, hw]
  refine (congrArg (run · s) (if_pos (by simp [hf, h0]))).trans ?_
  simp only [leaveWg, endOwnEpis, run_acts_cons, run_acts_nil, run_upd]
  rfl

/-- An action that removes warps, if it changes any. -/
theorem endIdleWg_none {gk : Nat} (h : find s.warps k = none) : find (run (endIdleWg gk) s).warps k = none := by
  have hdel : ∀ (l : SMap Nat) (s : State), find s.warps k = none → find (run (forEach l fun e => upd (.warp e.2 none)) s).warps k = none := by
    intro l
    induction l with
    | nil => exact fun _ h => h
    | cons e l ih =>
      intro s h
      rw [run_forEach_cons]
      refine ih _ ?_
      rw [run_upd, applyUpd_warps, find_putO]
      split <;> simp [h]
  have hdrop : ∀ s : State, find s.warps k = none → find (run (dropWg gk) s).warps k = none := fun s h => by
    rw [dropWg, run_look]
    split
    · exact h
    · rw [run_acts_cons]
      exact (congrArg (find · k) (keeps_dropRest (f := fun s => s.warps) (by simp) (by simp) _)).trans (hdel _ s h)
  rw [endIdleWg, run_look]
  split
  · exact h
  · split
    · exact h
    · rw [run_acts_cons, run_acts_cons, run_acts_cons, run_acts_nil, run_look]
      have hkeep : ∀ (m : Cluster → Cluster) (n j : Nat) (l : Launch → Launch), find (run (modLaunch j l) (run (modCluster n m) s)).warps k = none :=
        fun m n j l => (congrArg (find · k) (keeps_modLaunch (f := fun s => s.warps) (by simp) _)).trans h
      split
      · exact hdrop _ (hkeep _ _ _ _)
      · split
        · exact (congrArg (find · k) (keeps_detachWg (f := fun s => s.warps) (by simp) (by simp) _)).trans (hkeep _ _ _ _)
        · exact hkeep _ _ _ _
/-- R27: the warp is gone. -/
theorem endWarp_none (hw : find s.warps k = some w) (hf : w.fw = none) (h0 : w.activeSet = 0) : find (run (endWarp k) s).warps k = none := by
  rw [endWarp_ends hw hf h0]
  exact endIdleWg_none (by simp)

section
variable {α : Type} {f : State → α}
theorem keeps_endOwnEpis (hc : ∀ s k w, f (applyUpd s (.core k w)) = f s)
    (hg : ∀ p : Epi → Bool, Keeps f (modWg w.wg fun g => { g with epis := g.epis.filter p })) : Keeps f (endOwnEpis s k w) := by
  unfold endOwnEpis
  split
  · exact keeps_endEpis hg hc
  · exact keeps_skip
theorem keeps_leaveWg (hc : ∀ s k w, f (applyUpd s (.core k w)) = f s) (hg : ∀ s k w, f (applyUpd s (.wg k w)) = f s) : Keeps f (leaveWg s k w) :=
  keeps_cons (keeps_endOwnEpis hc fun _ => keeps_modWg hg) (keeps_cons (keeps_modWg hg) keeps_nil)
theorem keeps_imgWrites {ctx : Nat} {l : List (Nat × List Byte)} (h : ∀ s a b, f (applyUpd s (.byte a b)) = f s) : Keeps f (imgWrites ctx l) :=
  keeps_forEach fun e _ => keeps_list fun s u hu t => by
    obtain ⟨a, b, rfl⟩ := isByte_imgWrite hu
    exact h _ _ _
theorem keeps_imageWarp {wg i wk : Nat} (hb : ∀ s a b, f (applyUpd s (.byte a b)) = f s) (hw : ∀ s l, f (applyUpd s (.walks l)) = f s)
    (hn : ∀ s n, f (applyUpd s (.nextId n)) = f s) : Keeps f (imageWarp wg i wk) := by
  refine keeps_look fun s => ?_
  split
  · split
    · exact keeps_skip
    · exact keeps_cons (keeps_vaWalks hw hn) (keeps_cons (keeps_imgWrites hb) keeps_nil)
  · exact keeps_skip
end
theorem farView_endWarp (hw : find s.warps k = some w) : farView (run (endWarp k) s) = farView s := by
  by_cases h : w.fw = none ∧ w.activeSet = 0
  · rw [endWarp_ends hw h.1 h.2]
    refine (keeps_endIdleWg (f := farView) (keeps_dropWg (fun _ _ _ => rfl) (fun _ _ _ => rfl) fun _ _ _ => rfl) (fun _ _ _ => rfl)
      (fun _ _ _ => rfl) (fun _ _ _ => rfl) (fun _ _ _ => rfl) _).trans ?_
    show farView (run _ _) = _
    have himg : Keeps farView (match wgOf s w with
        | some g => if find g.warps w.index = some k then imageWarp w.wg w.index k else skip
        | none => skip) := by
      split
      · split
        · exact keeps_imageWarp (fun _ _ _ => rfl) (fun _ _ => rfl) fun _ _ => rfl
        · exact keeps_skip
      · exact keeps_skip
    exact (himg _).trans (keeps_leaveWg (fun _ _ _ => rfl) (fun _ _ _ => rfl) s)
  · rw [endWarp_stays hw h]

/-! ### Its area of the image -/

/-- What a warp of a workgroup writes into its area. -/
def areaImage (s : State) (g : Workgroup) (w : Warp) : List (Nat × List Byte) :=
  warpImage (imgBase s g.ctx + g.area + warpOffset (recOf s g) w.index) w
/-- The area written, if the context has an image. -/
def writeArea (s : State) (g : Workgroup) (w : Warp) : Action := if imgSize s g.ctx = 0 then skip else acts [
  vaWalks g.ctx (clusterNo g.core) .write (pagesOf (imgBase s g.ctx + g.area + warpOffset (recOf s g) w.index) (warpArea w.width w.nv)),
  imgWrites g.ctx (areaImage s g w)]
theorem run_imageWarp {t : State} {g : Workgroup} {wg wk : Nat} (hg : find t.wgs wg = some g) (hw : find t.warps wk = some w) :
    run (imageWarp wg w.index wk) t = run (writeArea t g w) t := by
  unfold imageWarp
  rw [run_look]
  split
  · next g' w' hg' hw' =>
    rw [Option.some.inj (hg.symm.trans hg'), Option.some.inj (hw.symm.trans hw')]
    rfl
  · next h => exact absurd hw (h g w hg)
theorem writeArea_mem (t : State) (g : Workgroup) (w : Warp) :
    (run (writeArea t g w) t).mem = if imgSize t g.ctx = 0 then t.mem else (run (imgWrites g.ctx (areaImage t g w)) t).mem := by
  unfold writeArea
  split
  · rfl
  · rw [run_acts_cons, run_acts_cons, run_acts_nil]
    exact imgWrites_congr (keeps_vaWalks (fun _ _ => rfl) (fun _ _ => rfl) t) (keeps_vaWalks (f := fun s => s.mem) (fun _ _ => rfl) (fun _ _ => rfl) t) _
theorem leaveWg_wg {g : Workgroup} (hg : find s.wgs w.wg = some g) : ∃ g', find (run (leaveWg s k w) s).wgs w.wg = some g' ∧
    g'.launch = g.launch ∧ g'.ctx = g.ctx ∧ g'.area = g.area := by
  have hk : Keeps placeView (endOwnEpis s k w) := keeps_endOwnEpis (fun _ _ _ => rfl) fun _ => keeps_modWg_place fun _ => rfl
  obtain ⟨g1, hg1, hr⟩ := wg_of_placeView (hk s).symm hg
  obtain ⟨hl, hc, ha, -⟩ : g1.launch = g.launch ∧ g1.ctx = g.ctx ∧ g1.area = g.area ∧ g1.warps = g.warps := by simpa [roster] using hr
  refine ⟨withoutWarp k w g1, ?_, hl, hc, ha⟩
  rw [leaveWg, run_acts_cons, run_acts_cons, run_acts_nil, run_modWg _ _ _ _ hg1, applyUpd_wgs, find_putO, if_pos rfl]
/-- R49: a warp that ends leaves its last values in its area, and no other byte of memory changes. -/
theorem endWarp_mem (hw : find s.warps k = some w) (hf : w.fw = none) (h0 : w.activeSet = 0) : (run (endWarp k) s).mem =
    match find s.wgs w.wg with
    | some g => if find g.warps w.index = some k ∧ imgSize s g.ctx ≠ 0 then (run (imgWrites g.ctx (areaImage s g w)) s).mem else s.mem
    | none => s.mem := by
  have hfar : farView (run (leaveWg s k w) s) = farView s := keeps_leaveWg (fun _ _ _ => rfl) (fun _ _ _ => rfl) s
  have hmem : (run (leaveWg s k w) s).mem = s.mem := keeps_leaveWg (f := fun s => s.mem) (fun _ _ _ => rfl) (fun _ _ _ => rfl) s
  have hlau : (run (leaveWg s k w) s).launches = s.launches := keeps_leaveWg (f := fun s => s.launches) (fun _ _ _ => rfl) (fun _ _ _ => rfl) s
  have hwarp : find (run (leaveWg s k w) s).warps k = some w :=
    (congrArg (find · k) (keeps_leaveWg (f := fun s => s.warps) (fun _ _ _ => rfl) (fun _ _ _ => rfl) s)).trans hw
  rw [endWarp_ends hw hf h0]
  refine (keeps_endIdleWg (f := fun s => s.mem) (keeps_dropWg (fun _ _ _ => rfl) (fun _ _ _ => rfl) fun _ _ _ => rfl)
    (fun _ _ _ => rfl) (fun _ _ _ => rfl) (fun _ _ _ => rfl) (fun _ _ _ => rfl) _).trans ?_
  show (run _ _).mem = _
  rw [wgOf]
  cases hg : find s.wgs w.wg with
  | none => exact hmem
  | some g =>
    obtain ⟨g', hg', hl, hc, ha⟩ := leaveWg_wg (k := k) hg
    have harea : areaImage (run (leaveWg s k w) s) g' w = areaImage s g w := by
      rw [areaImage, areaImage, imgBase_congr hfar, hc, ha, recOf_roster hlau.symm hl]
    dsimp only
    by_cases hidx : find g.warps w.index = some k
    · rw [if_pos hidx, run_imageWarp hg' hwarp, writeArea_mem, imgSize_congr hfar, hc, hmem, harea, imgWrites_congr hfar hmem]
      by_cases hz : imgSize s g.ctx = 0
      · rw [if_pos hz, if_neg fun h => h.2 hz]
      · rw [if_neg hz, if_pos ⟨hidx, hz⟩]
    · rw [if_neg hidx, if_neg fun h => hidx h.1]
      exact hmem
theorem endWarp_mem_area {g : Workgroup} (hw : find s.warps k = some w) (hf : w.fw = none) (h0 : w.activeSet = 0) (hg : find s.wgs w.wg = some g)
    (hidx : find g.warps w.index = some k) (himg : imgSize s g.ctx ≠ 0) :
    (run (endWarp k) s).mem = (run (imgWrites g.ctx (areaImage s g w)) s).mem := by
  rw [endWarp_mem hw hf h0, hg]
  exact if_pos ⟨hidx, himg⟩
end

end Sys2Proof.Machine
end

section
/-! Threads end and JOIN waits run out (R27, R49, R279, R300). -/
namespace Sys2Proof.Machine
open Sys2Proof.Safety

/-! ### `exit`, part by part -/

section
variable {s : State} {x : Iss} {w : Warp} (hl : LivesOn (exited x (x.stepped s)) w) (hw : find (afterExit x s).warps x.k = some w)
  (hx : find s.warps x.k = some x.w)
include hl
/-- The registers of a warp that has no active lane left are those it issued with. -/
theorem exit_registers (h0 : x.w.activeSet &&& ~~~x.g = 0) : (∀ r, w.rdS r = x.w.rdS r) ∧ ∀ j r, (laneOf w j).rd r = (laneOf x.w j).rd r := by
  obtain ⟨hs, hv⟩ := hl.regs ((exited_activeSet x s).trans h0)
  refine ⟨fun r => ?_, fun j r => ?_⟩
  · rw [Warp.rdS, hs]; rfl
  · rw [Lane.rd, hv, (exited_lane x s j).1]; rfl
/-- The area written is that of the warp's place in the state it issued in. -/
theorem exit_area (hx : find s.warps x.k = some x.w) {g g' : Workgroup} (hr : roster g' = roster g) : g'.ctx = g.ctx ∧ g'.warps = g.warps ∧
    areaImage (afterExit x s) g' w = warpImage (imgBase s g.ctx + g.area + warpOffset (recOf s g) x.w.index) w := by
  obtain ⟨hlau, hc, ha, hws⟩ : g'.launch = g.launch ∧ g'.ctx = g.ctx ∧ g'.area = g.area ∧ g'.warps = g.warps := by simpa [roster] using hr
  have hv := placeView_afterExit hx
  refine ⟨hc, hws, ?_⟩
  rw [areaImage, imgBase_congr (farView_of_placeView hv), hc, ha, ← recOf_roster (launches_of_placeView hv).symm hlau, hl.index]
  rfl
include hw
theorem exit_lanes {u : Warp} (hu : find (run (endWarp x.k) (afterExit x s)).warps x.k = some u) {j : Nat} (hj : Iss.On x j) :
    (laneOf u j).st = .exited := by
  by_cases hend : w.fw = none ∧ w.activeSet = 0
  · rw [endWarp_none hw hend.1 hend.2] at hu
    exact nomatch hu
  · rw [endWarp_stays hw hend, hw] at hu
    have hst : (laneOf (exited x (x.stepped s)) j).st = .exited := (exited_lane x s j).2.trans (if_pos hj)
    rw [← Option.some.inj hu, hl.ended j (by rw [Lane.active, hst]; rfl), hst]
theorem exit_ends (hf : x.w.fw = none) (h0 : x.w.activeSet &&& ~~~x.g = 0) : find (run (endWarp x.k) (afterExit x s)).warps x.k = none :=
  endWarp_none hw (hl.fw.trans hf) (hl.activeSet.trans ((exited_activeSet x s).trans h0))
theorem exit_stays (h0 : x.w.activeSet &&& ~~~x.g ≠ 0) : ∃ u, find (run (endWarp x.k) (afterExit x s)).warps x.k = some u := by
  rw [endWarp_stays hw fun h => h0 ((exited_activeSet x s).symm.trans (hl.activeSet.symm.trans h.2))]
  exact ⟨w, hw⟩
include hx
/-- R49: memory changes in the warp's area alone, and only when the warp ends. -/
theorem exit_changes {a : Nat} (ha : memGet (run (endWarp x.k) (afterExit x s)).mem a ≠ memGet s.mem a) :
    x.w.fw = none ∧ x.w.activeSet &&& ~~~x.g = 0 ∧ ∃ g u e m b, wgOf s x.w = some g ∧ imgSize s g.ctx ≠ 0 ∧
      u.width = x.w.width ∧ u.nv = x.w.nv ∧ e ∈ warpImage (imgBase s g.ctx + g.area + warpOffset (recOf s g) x.w.index) u ∧
      Upd.byte a b ∈ imgWrite g.ctx e.1 e.2 { s with mem := m } := by
  have hv := placeView_afterExit hx
  have hfar := farView_of_placeView hv
  rw [← mem_of_placeView hv] at ha
  by_cases hend : w.fw = none ∧ w.activeSet = 0
  · rw [endWarp_mem hw hend.1 hend.2] at ha
    split at ha
    · next g' hg' =>
      split at ha
      · next himg =>
        obtain ⟨g, hg, hr⟩ := wg_of_placeView hv hg'
        obtain ⟨hc, -, harea⟩ := exit_area hl hx hr.symm
        obtain ⟨e, he, m, b, hb⟩ := imgWrites_changed ha
        refine ⟨hl.fw.symm.trans hend.1, (exited_activeSet x s).symm.trans (hl.activeSet.symm.trans hend.2), g, w, e, m, b, ?_, ?_, hl.width, hl.nv,
          harea ▸ he, ?_⟩
        · rw [wgOf, ← hg, hl.wg]; rfl
        · rw [← imgSize_congr hfar, ← hc]; exact himg.2
        · rw [← imgWrite_congr (s := { afterExit x s with mem := m }) (t := { s with mem := m }) hfar rfl, ← hc]; exact hb
      · exact absurd rfl ha
    · exact absurd rfl ha
  · rw [endWarp_stays hw hend] at ha
    exact absurd rfl ha
/-- R49, R414: a warp that ends leaves its registers in its area. -/
theorem exit_values {g : Workgroup} {p : Nat} (hg : wgOf s x.w = some g) (hidx : find g.warps x.w.index = some x.k) (hf : x.w.fw = none)
    (h0 : x.w.activeSet &&& ~~~x.g = 0) (himg : imgSize s g.ctx ≠ 0) (hq : x.w.swq = []) (hwid : x.w.width ≤ 64)
    (hm : MapsTo s g.ctx (imgBase s g.ctx + g.area + warpOffset (recOf s g) x.w.index) (warpArea x.w.width x.w.nv) p) :
    (∀ r, r < 64 → memNat (run (endWarp x.k) (afterExit x s)).mem (p + 4 * r) 4 = (x.w.rdS r).toNat) ∧
    ∀ r j, r < x.w.nv → j < x.w.width →
      memNat (run (endWarp x.k) (afterExit x s)).mem (p + 0x9400 + 4 * (x.w.width * r + j)) 4 = ((laneOf x.w j).rd r).toNat := by
  have hv := placeView_afterExit hx
  have hfar := farView_of_placeView hv
  obtain ⟨g', hg', hr⟩ := wg_of_placeView hv.symm hg
  obtain ⟨hc, hws, harea⟩ := exit_area hl hx hr
  obtain ⟨hs, hlanes⟩ := exit_registers hl h0
  have hwid' : w.width = x.w.width := hl.width
  have hnv : w.nv = x.w.nv := hl.nv
  have hmem : (run (endWarp x.k) (afterExit x s)).mem = (run (imgWrites g.ctx
      (warpImage (imgBase s g.ctx + g.area + warpOffset (recOf s g) x.w.index) w)) (afterExit x s)).mem := by
    have hgw : find (afterExit x s).wgs w.wg = some g' := (congrArg (find _) hl.wg).trans hg'
    rw [endWarp_mem_area hw (hl.fw.trans hf) (hl.activeSet.trans ((exited_activeSet x s).trans h0)) hgw
      (by rw [hws, hl.index]; exact hidx) (by rw [hc, imgSize_congr hfar]; exact himg), hc, harea]
  have hm' := hm.congr hfar
  rw [← hwid', ← hnv] at hm' ⊢
  rw [hmem]
  refine ⟨fun r hr => ?_, fun r j hr hj => ?_⟩
  · rw [memNat_uniform hm' (hwid'.trans_le hwid) (hl.swq.trans hq) hr, hs]
  · rw [memNat_varying hm' (hwid'.trans_le hwid) (hl.swq.trans hq) hr hj, hlanes]
end

/-! ### JOIN waits -/

/-- R279: the wait of the group at a PC has run out. -/
def joinDone (w : Warp) (pc : DWord) : Warp := w.mapLanes (lanesAt w (groupSt w) pc) fun _ l => { l with join := l.join.map fun _ => 0 }
theorem exec_joinTimeout {s : State} {wk : Nat} {w : Warp} (hw : find s.warps wk = some w) (pc : DWord) :
    exec (.joinTimeout wk pc) s = .next (applyUpd s (.warp wk (some (joinDone w pc)))) :=
  congrArg Host.Outcome.next (run_modWarp _ _ _ _ hw)
theorem inMask_lanesAt {w : Warp} {st : LaneSt} {pc : DWord} {j : Nat} (h1 : j < w.width) (h2 : j < 64) :
    inMask (lanesAt w st pc) j = true ↔ (laneOf w j).st = st ∧ (laneOf w j).wait = .none ∧ (laneOf w j).pc = pc := by
  rw [lanesAt, Warp.lanesIn, inMask_maskOf]
  simp [h1, h2, and_assoc]
theorem joinDone_lane (w : Warp) (pc : DWord) (j : Nat) : (laneOf (joinDone w pc) j).pc = (laneOf w j).pc ∧ (laneOf (joinDone w pc) j).v = (laneOf w j).v := by
  by_cases hm : inMask (lanesAt w (groupSt w) pc) j = true
  · by_cases hj : j < w.lanes.length
    · rw [joinDone, laneOf_mapLanes _ _ _ _ hj, if_pos hm]; exact ⟨rfl, rfl⟩
    · rw [joinDone, laneOf_absent _ _ (by simpa using hj), laneOf_absent w _ (by simpa using hj)]; exact ⟨rfl, rfl⟩
  · rw [joinDone, laneOf_mapLanes_out _ _ _ _ (by simpa using hm)]; exact ⟨rfl, rfl⟩

/-- Settles O36: the threads end in a state in which the warp lives on; when none is left, its area of the image is the last thing written. -/
theorem endsAndJoins : Obligations.EndsAndJoins := by
  unfold Obligations.EndsAndJoins
  refine ⟨fun c o s x h hg hlev => ?_, fun s wk pc w hw => ?_⟩
  · have hx := issOf_warp h.1
    obtain ⟨w, hw, hl⟩ := afterExit_warp hx
    exact ⟨_, exec_exit h hg hlev, fun u hu j hj => exit_lanes hl hw hu hj, exit_ends hl hw, exit_stays hl hw,
      rest_of_farView ((farView_endWarp hw).trans (farView_of_placeView (placeView_afterExit hx))), fun a ha => exit_changes hl hw hx ha,
      fun g p hg hidx hf h0 himg hq hwid hm => exit_values hl hw hx hg hidx hf h0 himg hq hwid hm⟩
  · refine ⟨_, joinDone w pc, exec_joinTimeout hw pc, by simp, fun j h1 h2 h3 => ?_, joinDone_lane w pc,
      fun k hk => by simp [hk], rest_warp _ _ _ _⟩
    have hat := inMask_lanesAt (st := groupSt w) (pc := pc) h2 h3
    rw [joinDone, laneOf_mapLanes _ _ _ _ h1]
    by_cases hm : inMask (lanesAt w (groupSt w) pc) j = true
    · rw [if_pos hm]
      exact (if_pos (hat.mp hm)).symm
    · rw [if_neg hm]
      exact (if_neg fun hh => hm (hat.mpr hh)).symm

end Sys2Proof.Machine
end

section
/-! A packet behind a fabric window (R305): the read of it marks every unfinished instruction of the warp that bears its name. -/
namespace Sys2Proof.Machine
open Sys2Proof.Safety

/-- A push of the packet at the pair s2 into the queue at the pair s6, its result into s10. -/
def pushOps : O5 := ⟨.s 10, .s 6, .s 2, .none, .none⟩
def pushInstr : Instr := .enq ⟨false, .pt, 0, 0, false, false, 0⟩ pushOps
/-- An unfinished instruction of no lane that bears the name `n`; its lane 0 has been answered. -/
def answered (n : Nat) : Outst := ⟨n, 0, pushInstr, 0, 1, [], .alu, noRes, 0, false, 0, 0, [], 0⟩
/-- A warp about to push a packet at 0x60000, where the window of peer 1 lies, while it holds an instruction of the name that comes next. -/
def namesakeWarp : Warp := { placeWarp with s := [(2, 0x60000), (6, 0x51000)], outs := [answered State.reset.nextId] }
def namesakeState : State := { State.reset.withFetchWord 96 0 with
  warps := [(0, namesakeWarp)]
  cur := some ⟨0, 0xFFFF, dw (placeBlock + 4), 1, false, false, false⟩
  queues := [(0, ⟨0x51000, 0x52000, 0, true, 0, 0, 0, [], false, none, [], none⟩)]
  tlb := [⟨0, 6, 0, 0, 0, 0, 0, 0, some (1, 5, 3, 0x70000), 6, 1⟩]
  hw := [(RegKind.peerp, 0, 2), (.peere, 0, 2), (.tpeer, 0, 0x0FFF0000)].foldl (fun m e => hwSet m e.1 e.2.1 (dw e.2.2)) (placeHw []) }
def namesakePush : Push := ⟨0, 0x51000, 0x52000, .win 1 5 0x70000, 0, false⟩
/-- The group of `cur` as the issuer. -/
def namesakeIss : Iss := ⟨0, namesakeWarp, pushInstr, dw (placeBlock + 4), 1, false, false, 0xFFFF, guardMask namesakeWarp (ctlOf pushInstr) 0xFFFF,
  konstOf namesakeState namesakeWarp, false, none⟩

theorem namesake_issues : Issues pushInstr (enqBusy pushOps) namesakeState namesakeIss := ⟨rfl, by decide +kernel⟩
theorem namesake_looks : enqLook namesakeState namesakeIss (namesakeIss.point namesakeState.nextId) pushOps = .ok namesakePush := by
  decide +kernel
/-- The lanes still to be answered of the issuer's oldest unfinished instruction. -/
def oldestLeft (t : State) (x : Iss) : Option Mask := (warpOf t x).outs.head?.map (·.left)
/-- The read begun marks the older instruction of the name too. -/
theorem namesake_marked : (match exec pushInstr namesakeState with
    | .next t => oldestLeft t namesakeIss
    | _ => none) = some 1 := by decide +kernel

/-- Refutes O38: the read of a packet behind a window sets the unanswered lanes of every unfinished instruction that bears the new name, and the
statement does not ask that the warp holds none of that name; here it holds one, which does not stay as it was. -/
theorem not_spawnsAndPushes : ¬ Obligations.SpawnsAndPushes := by
  unfold Obligations.SpawnsAndPushes
  intro h
  obtain ⟨-, hpush⟩ := h
  obtain ⟨-, -, hfetch, -⟩ := hpush ⟨false, .pt, 0, 0, false, false, 0⟩ pushOps namesakePush
  obtain ⟨t, r, ht, ⟨⟨u, houts, -⟩, -⟩, -⟩ := hfetch namesakeState namesakeIss 1 5 0x70000 ⟨namesake_issues, by decide +kernel, namesake_looks⟩ rfl
  have hm : oldestLeft t namesakeIss = some 1 := by
    have hrun := namesake_marked
    rwa [show exec pushInstr namesakeState = .next t from ht] at hrun
  rw [oldestLeft, houts] at hm
  exact absurd (show some (0 : Mask) = some 1 from hm) (by decide)

end Sys2Proof.Machine
end

section
/-! A queue-map request by a write of `QMAP` (R316) while the islands are not up (R433). -/
namespace Sys2Proof.Machine
open Sys2Proof.Safety

/-- While the islands are not up no write comes, and so no request starts (R433). -/
theorem qmapMap_unpowered {s : State} (hp : powered s = false) (n : Nat) (v : DWord) : exec (.qmapMap n v) s = .next s :=
  congrArg Host.Outcome.next (run_writeAt_barred (.inl hp))
/-- Refutes O53: after reset the islands are not up, so a write of `QMAP` of partition 0, which has no request in progress, does not set BUSY;
the statement does not ask that they are up. -/
theorem not_launchesAndMapping : ¬ Obligations.LaunchesAndMapping := by
  unfold Obligations.LaunchesAndMapping
  intro h
  obtain ⟨-, -, -, hq, -⟩ := h State.reset
  obtain ⟨⟨-, hmap⟩, -⟩ := hq 0 0 (by decide)
  obtain ⟨t, ht, hbusy, -⟩ := hmap (by decide)
  rw [qmapMap_unpowered (by decide)] at ht
  rw [← Host.Outcome.next.inj ht] at hbusy
  exact absurd hbusy (by decide)

end Sys2Proof.Machine
end

section
/-! Words and instructions (R50, R56 to R67, R71, R74): every field is read as it is written, so decoding and encoding agree. -/
namespace Sys2Proof

/-! ### Operand fields -/

@[simp] theorem Konst.num_lt (k : Konst) : k.num < 16 := by cases k <;> decide
@[simp] theorem Konst.dec_num (k : Konst) : Konst.dec k.num = k := by cases k <;> rfl
theorem Konst.num_dec {n : Nat} (h : n < 16) : (Konst.dec n).num = n := by
  interval_cases n <;> rfl

/-- Class and index of a field (R60). -/
theorem decOpd_class {c n : Nat} (hc : c < 4) (hn : n < 256) : decOpd (BitVec.ofNat 10 (256 * c + n)) =
    if c = 0 then some (.v ⟨n, hn⟩) else if c = 1 then (if h : n < 32 then some (.a ⟨n, h⟩) else none)
    else if c = 2 then (if h : n < 64 then some (.s ⟨n, h⟩) else none) else decSpecial n := by
  simp only [decOpd, BitVec.toNat_ofNat, show (256 * c + n) % 2 ^ 10 / 256 = c by omega, show (256 * c + n) % 2 ^ 10 % 256 = n by omega]

/-- Class 0b11, range by range (R61). -/
theorem decSpecial_imm {n : Nat} (h : n < 128) : decSpecial n = some (.imm (BitVec.ofNat 7 n)) := if_pos h
theorem decSpecial_p (n : Fin 12) : decSpecial (0x80 + n.val) = some (.p n) := by
  simp [decSpecial]
theorem decSpecial_cv (n : Fin 8) : decSpecial (0x90 + n.val) = some (.cv n) := by
  simp [decSpecial, show ¬ 144 + n.val - 128 < 12 by omega, show 144 + n.val ≠ 143 by omega]; omega
theorem decSpecial_nb (n : Fin 16) : decSpecial (0xA0 + n.val) = some (.nb n) := by
  simp [decSpecial, show ¬ 160 + n.val - 128 < 12 by omega, show 160 + n.val ≠ 143 by omega, show ¬ 160 + n.val - 144 < 8 by omega]; omega
theorem decSpecial_const (k : Konst) : decSpecial (0xC0 + k.num) = some (.const k) := by
  have := k.num_lt
  simp [decSpecial, show ¬ 192 + k.num - 128 < 12 by omega, show 192 + k.num ≠ 143 by omega, show ¬ 192 + k.num - 144 < 8 by omega,
    show ¬ 192 + k.num - 160 < 16 by omega, show 192 + k.num < 208 by omega]; omega

/-- An operand read back from its field. -/
theorem decOpd_encOpd (o : Opd) : decOpd (encOpd o) = some o := by
  cases o with
  | v n => simpa [encOpd] using decOpd_class (c := 0) (by decide) n.isLt
  | a n => simpa [encOpd] using decOpd_class (c := 1) (n := n.val) (by decide) (by omega)
  | s n => simpa [encOpd] using decOpd_class (c := 2) (n := n.val) (by decide) (by omega)
  | imm n => simpa [encOpd, decSpecial_imm n.isLt] using decOpd_class (c := 3) (n := n.toNat) (by decide) (by omega)
  | p n => simpa [encOpd, decSpecial_p, ← Nat.add_assoc] using decOpd_class (c := 3) (n := 0x80 + n.val) (by decide) (by omega)
  | pt => decide
  | cv n => simpa [encOpd, decSpecial_cv, ← Nat.add_assoc] using decOpd_class (c := 3) (n := 0x90 + n.val) (by decide) (by omega)
  | nb n => simpa [encOpd, decSpecial_nb, ← Nat.add_assoc] using decOpd_class (c := 3) (n := 0xA0 + n.val) (by decide) (by omega)
  | const k =>
    have := k.num_lt
    simpa [encOpd, decSpecial_const, ← Nat.add_assoc] using decOpd_class (c := 3) (n := 0xC0 + k.num) (by decide) (by omega)
  | none => decide

/-- A field of class 0b11 is the field of the operand it names. -/
theorem encOpd_decSpecial {n : Nat} {o : Opd} (hn : n < 256) (h : decSpecial n = some o) : (encOpd o).toNat = 0x300 + n := by
  unfold decSpecial at h
  split at h
  · cases h; simp [encOpd]; omega
  split at h
  · cases h; simp [encOpd]; omega
  split at h
  · cases h; simp [encOpd, *]
  split at h
  · cases h; simp [encOpd]; omega
  split at h
  · cases h; simp [encOpd]; omega
  split at h
  · cases h; simp [encOpd, Konst.num_dec (show n - 192 < 16 by omega)]; omega
  split at h
  · cases h; simp [encOpd, *]
  · cases h
/-- A field is the field of the operand it names. -/
theorem encOpd_of_decOpd {f : BitVec 10} {o : Opd} (h : decOpd f = some o) : encOpd o = f := by
  apply BitVec.eq_of_toNat_eq
  have := f.isLt
  unfold decOpd at h
  dsimp only at h
  split at h
  · cases h; simp [encOpd]; omega
  split at h
  · split at h
    · cases h; simp [encOpd]; omega
    · cases h
  split at h
  · split at h
    · cases h; simp [encOpd]; omega
    · cases h
  · rw [encOpd_decSpecial (by omega) h]; omega
theorem decOpd_eq_some {f : BitVec 10} {o : Opd} : decOpd f = some o ↔ encOpd o = f :=
  ⟨encOpd_of_decOpd, fun h => h ▸ decOpd_encOpd o⟩

/-! ### The guard and the common fields -/

theorem decPSel_eq_some {f : BitVec 4} {p : PSel} : decPSel f = some p ↔ encPSel p = f := by
  revert f
  cases p with
  | p n => revert n; decide
  | pt => decide
theorem decPd_eq_some {f : BitVec 4} {p : Option (Fin 12)} : decPd f = some p ↔ encPd p = f := by
  revert f
  cases p with
  | some n => revert n; decide
  | none => decide

/-! ### Fields side by side -/

/-- Two fields side by side are a stretch of a word exactly if each is its part of it. -/
theorem append_eq_bits {w m n : Nat} (x : BitVec m) (y : BitVec n) (z : BitVec w) (lo : Nat) :
    x ++ y = bits z lo (m + n) ↔ x = bits z (lo + n) m ∧ y = bits z lo n := by
  have hs : bits z lo (m + n) = bits z (lo + n) m ++ bits z lo n := by
    ext i hi
    simp only [bits, BitVec.getElem_append, BitVec.getElem_extractLsb']
    split
    · rfl
    · congr 1; omega
  rw [hs]
  constructor
  · intro h
    have := congrArg (fun v => (v.extractLsb' n m, v.extractLsb' 0 n)) h
    simpa [BitVec.extractLsb'_append_eq_left, BitVec.extractLsb'_append_eq_right] using this
  · rintro ⟨rfl, rfl⟩; rfl
theorem ofBool_eq_bits {w : Nat} (b : Bool) (z : BitVec w) (lo : Nat) : BitVec.ofBool b = bits z lo 1 ↔ b = z.getLsbD lo := by
  rw [BitVec.eq_of_getLsbD_eq_iff]
  simp [bits]
theorem bits_all {w : Nat} (z : BitVec w) : bits z 0 w = z := by
  simp [bits]

theorem decCtl_eq_some {w : BitVec 96} {c : Ctl} : decCtl w = some c ↔ encCtl c = bits w 70 16 := by
  obtain ⟨neg, pred, look, hint, reuse, split, fmt⟩ := c
  show _ ↔ BitVec.ofBool neg ++ encPSel pred ++ look ++ hint ++ BitVec.ofBool reuse ++ BitVec.ofBool split ++ fmt =
    bits w 70 (1 + 4 + 4 + 2 + 1 + 1 + 3)
  simp only [append_eq_bits, ofBool_eq_bits, decCtl, Option.map_eq_some_iff, decPSel_eq_some, Ctl.mk.injEq]
  grind

/-- The format of the fields. -/
def Body.fmt : Body → Fmt
  | .f5 _ _ => .f5 | .ri _ _ => .ri | .m _ _ => .m | .t _ _ => .t | .b _ _ => .b | .x _ _ => .x

theorem fmt_of_unpack {f : Fmt} {w : BitVec 70} {b : Body} (h : unpack f w = some b) : b.fmt = f := by
  cases f <;> simp only [unpack, Option.bind_eq_bind, Option.bind_eq_some_iff, Option.ite_none_right_eq_some, Option.some.injEq] at h
  all_goals grind [Body.fmt]

theorem unpack_eq_some_iff {w : BitVec 70} {b : Body} : unpack b.fmt w = some b ↔ pack b = bits w 0 70 := by
  cases b with
  | f5 o m =>
    obtain ⟨d, a, b, c, e⟩ := o
    show _ ↔ encOpd d ++ encOpd a ++ encOpd b ++ encOpd c ++ encOpd e ++ m ++ (0 : BitVec 12) = bits w 0 (10 + 10 + 10 + 10 + 10 + 8 + 12)
    simp only [append_eq_bits]
    simp [Body.fmt, unpack, Option.bind_eq_some_iff, decOpd_eq_some]
    grind
  | ri o m =>
    obtain ⟨d, a, imm⟩ := o
    show _ ↔ encOpd d ++ encOpd a ++ m ++ imm ++ (0 : BitVec 10) = bits w 0 (10 + 10 + 8 + 32 + 10)
    simp only [append_eq_bits]
    simp [Body.fmt, unpack, Option.bind_eq_some_iff, decOpd_eq_some]
    grind
  | m o m =>
    obtain ⟨data, addr, ubase, off⟩ := o
    show _ ↔ encOpd data ++ encOpd addr ++ ubase ++ off ++ m ++ (0 : BitVec 16) = bits w 0 (10 + 10 + 6 + 20 + 8 + 16)
    simp only [append_eq_bits]
    simp [Body.fmt, unpack, Option.bind_eq_some_iff, decOpd_eq_some]
    grind
  | t o m =>
    obtain ⟨data, tile, timm, addr, ubase, count, pd⟩ := o
    show _ ↔ encOpd data ++ encOpd tile ++ timm ++ encOpd addr ++ ubase ++ count ++ m ++ encPd pd ++ (0 : BitVec 6) =
      bits w 0 (10 + 10 + 10 + 10 + 6 + 6 + 8 + 4 + 6)
    simp only [append_eq_bits]
    simp [Body.fmt, unpack, Option.bind_eq_some_iff, decOpd_eq_some, decPd_eq_some]
    grind
  | b o m =>
    obtain ⟨offb, treg, tlen⟩ := o
    show _ ↔ offb ++ encOpd treg ++ encOpd tlen ++ m ++ (0 : BitVec 12) = bits w 0 (30 + 10 + 10 + 8 + 12)
    simp only [append_eq_bits]
    simp [Body.fmt, unpack, Option.bind_eq_some_iff, decOpd_eq_some]
    grind
  | x o m =>
    obtain ⟨d, a, sel⟩ := o
    show _ ↔ encOpd d ++ encOpd a ++ sel ++ m ++ (0 : BitVec 26) = bits w 0 (10 + 10 + 16 + 8 + 26)
    simp only [append_eq_bits]
    simp [Body.fmt, unpack, Option.bind_eq_some_iff, decOpd_eq_some]
    grind

/-! ### MOD (R56): its fields side by side -/

@[simp] theorem eq_append_iff {a b : Nat} (x : BitVec a) (y : BitVec b) (w : BitVec (a + b)) : w = x ++ y ↔ bits w b a = x ∧ bits w 0 b = y := by
  have h := append_eq_bits x y w 0
  rwa [bits_all, Nat.zero_add, eq_comm, eq_comm (a := x), eq_comm (a := y)] at h
@[simp] theorem eq_append_iff₃ {a b c : Nat} (x : BitVec a) (y : BitVec b) (z : BitVec c) (w : BitVec (a + b + c)) :
    w = x ++ y ++ z ↔ bits w (b + c) a = x ∧ bits w c b = y ∧ bits w 0 c = z := by
  rw [eq_append_iff, eq_comm, append_eq_bits, Nat.add_comm c b, and_assoc, eq_comm, eq_comm (a := y)]
@[simp] theorem eq_append_iff₄ {a b c d : Nat} (x : BitVec a) (y : BitVec b) (z : BitVec c) (u : BitVec d) (w : BitVec (a + b + c + d)) :
    w = x ++ y ++ z ++ u ↔ bits w (b + c + d) a = x ∧ bits w (c + d) b = y ∧ bits w d c = z ∧ bits w 0 d = u := by
  rw [eq_append_iff, eq_comm (b := x ++ y ++ z), append_eq_bits, append_eq_bits, show d + c + b = b + c + d by omega, Nat.add_comm d c,
    and_assoc, and_assoc, eq_comm (a := x), eq_comm (a := y), eq_comm (a := z)]
@[simp] theorem bits_eq_ofBool {w : Nat} (b : Bool) (z : BitVec w) (lo : Nat) : bits z lo 1 = BitVec.ofBool b ↔ z.getLsbD lo = b := by
  rw [eq_comm, ofBool_eq_bits, eq_comm]

section
variable {m : BitVec 8} {x y : Bool}
@[simp] theorem eq_tyMod_iff {s t} : m = tyMod s t ↔ bits m 2 6 = s ∧ bits m 0 2 = t := eq_append_iff s t m
@[simp] theorem eq_ftMod_iff {s t} : m = ftMod s t ↔ bits m 3 5 = s ∧ bits m 0 3 = t := eq_append_iff s t m
@[simp] theorem eq_cvtMod_iff {sf : SrcF} {rm : Rnd} : m = cvtMod sf rm x ↔ m.getLsbD 7 = x ∧ bits m 4 3 = rm.code ∧ bits m 0 4 = sf.code := by
  rw [← bits_eq_ofBool]; exact eq_append_iff₃ (.ofBool x) rm.code sf.code m
@[simp] theorem eq_cvtfMod_iff {rm : Rnd} : m = cvtfMod rm x y ↔ bits m 5 3 = 0 ∧ m.getLsbD 4 = y ∧ m.getLsbD 3 = x ∧ bits m 0 3 = rm.code := by
  rw [← bits_eq_ofBool, ← bits_eq_ofBool]; exact eq_append_iff₄ (0 : BitVec 3) (.ofBool y) (.ofBool x) rm.code m
@[simp] theorem eq_mmaMod_iff {n} : m = mmaMod n x y ↔ bits m 4 4 = 0 ∧ m.getLsbD 3 = y ∧ m.getLsbD 2 = x ∧ bits m 0 2 = n := by
  rw [← bits_eq_ofBool, ← bits_eq_ofBool]; exact eq_append_iff₄ (0 : BitVec 4) (.ofBool y) (.ofBool x) n m
@[simp] theorem eq_atomMod_iff {a : AOrd} {sc : Scope} :
    m = atomMod a sc x y ↔ m.getLsbD 7 = y ∧ m.getLsbD 6 = x ∧ bits m 3 3 = sc.code ∧ bits m 0 3 = a.code := by
  rw [← bits_eq_ofBool, ← bits_eq_ofBool]; exact eq_append_iff₄ (.ofBool y) (.ofBool x) sc.code a.code m
@[simp] theorem eq_ordMod_iff {strong} {sc : Scope} :
    m = ordMod strong x sc ↔ bits m 6 2 = 0 ∧ bits m 3 3 = sc.code ∧ bits m 0 3 = if x then strong else 0 :=
  eq_append_iff₃ (0 : BitVec 2) sc.code (if x then strong else 0) m
@[simp] theorem eq_putMod_iff {u k} : m = putMod u k ↔ m.getLsbD 7 = false ∧ bits m 2 5 = u ∧ bits m 0 2 = k := by
  rw [← bits_eq_ofBool]; exact eq_append_iff₃ (0 : BitVec 1) u k m
theorem eq_epiMod_iff {a : Act} {z : Bool} : m = epiMod a x y z ↔
    bits m 6 2 = 0 ∧ m.getLsbD 5 = z ∧ m.getLsbD 4 = y ∧ m.getLsbD 3 = x ∧ bits m 0 3 = a.code := by
  have h := eq_append_iff ((0 : BitVec 2) ++ BitVec.ofBool z ++ BitVec.ofBool y ++ BitVec.ofBool x) a.code m
  rw [eq_comm (b := _ ++ BitVec.ofBool x), append_eq_bits, append_eq_bits, append_eq_bits, ofBool_eq_bits, ofBool_eq_bits, ofBool_eq_bits] at h
  exact h.trans (by grind)
@[simp] theorem eq_lcombMod_iff {f1 f2 : BitVec 4} : m = f2 ++ f1 ↔ bits m 4 4 = f2 ∧ bits m 0 4 = f1 := eq_append_iff f2 f1 m
@[simp] theorem eq_fflgMod_iff {k : BitVec 5} : m = k ++ 4#3 ↔ bits m 3 5 = k ∧ bits m 0 3 = 4 := eq_append_iff k (4 : BitVec 3) m
@[simp] theorem eq_bsdecMod_iff {k : BitVec 2} : m = 0#6 ++ k ↔ bits m 2 6 = 0 ∧ bits m 0 2 = k := eq_append_iff 0 k m
@[simp] theorem eq_jtbMod_iff {b : BitVec 6} : m = 0#2 ++ b ↔ bits m 6 2 = 0 ∧ bits m 0 6 = b := eq_append_iff 0 b m
@[simp] theorem eq_boolMod_iff {k : BitVec 7} : m = k ++ BitVec.ofBool x ↔ bits m 1 7 = k ∧ m.getLsbD 0 = x := by
  rw [← bits_eq_ofBool]; exact eq_append_iff k (.ofBool x) m
@[simp] theorem eq_leaMod_iff {k : BitVec 3} : m = 0#4 ++ BitVec.ofBool x ++ k ↔ bits m 4 4 = 0 ∧ m.getLsbD 3 = x ∧ bits m 0 3 = k := by
  rw [← bits_eq_ofBool]; exact eq_append_iff₃ (0 : BitVec 4) (.ofBool x) k m
@[simp] theorem eq_lanexMod_iff {k : BitVec 2} : m = 0#5 ++ BitVec.ofBool x ++ k ↔ bits m 3 5 = 0 ∧ m.getLsbD 2 = x ∧ bits m 0 2 = k := by
  rw [← bits_eq_ofBool]; exact eq_append_iff₃ (0 : BitVec 5) (.ofBool x) k m
@[simp] theorem eq_fcmpMod_iff {b : BitVec 2} {k t : BitVec 3} : m = b ++ k ++ t ↔ bits m 6 2 = b ∧ bits m 3 3 = k ∧ bits m 0 3 = t :=
  eq_append_iff₃ b k t m
@[simp] theorem eq_cmpRiMod_iff {k : BitVec 3} {t : BitVec 2} : m = 0#3 ++ k ++ t ↔ bits m 5 3 = 0 ∧ bits m 2 3 = k ∧ bits m 0 2 = t :=
  eq_append_iff₃ (0 : BitVec 3) k t m
@[simp] theorem eq_cmpMod_iff {b t : BitVec 2} {k : BitVec 3} : m = 0#1 ++ b ++ k ++ t ↔
    m.getLsbD 7 = false ∧ bits m 5 2 = b ∧ bits m 2 3 = k ∧ bits m 0 2 = t := by
  rw [← bits_eq_ofBool]; exact eq_append_iff₄ (0 : BitVec 1) b k t m
theorem eq_epiMod_false_iff {a : Act} : m = epiMod a x y false ↔ bits m 5 3 = 0 ∧ m.getLsbD 4 = y ∧ m.getLsbD 3 = x ∧ bits m 0 3 = a.code := by
  rw [← bits_eq_ofBool, ← bits_eq_ofBool]; exact eq_append_iff₄ (0 : BitVec 3) (.ofBool y) (.ofBool x) a.code m
end

/-! ### Codes and what they are read as -/

@[simp] theorem ITy.eq_code_iff {b : BitVec 2} {t : ITy} : b = t.code ↔ ITy.dec b = t := by revert b; cases t <;> decide
@[simp] theorem BOp.eq_code_iff {b : BitVec 2} {t : BOp} : b = t.code ↔ BOp.dec b = t := by revert b; cases t <;> decide
@[simp] theorem FCond.eq_code_iff {b : BitVec 3} {t : FCond} : b = t.code ↔ FCond.dec b = t := by revert b; cases t <;> decide
@[simp] theorem FTy.eq_code_iff {b : BitVec 3} {t : FTy} : b = t.code ↔ FTy.dec b.toNat = some t := by revert b; cases t <;> decide
@[simp] theorem Cond.eq_code_iff {b : BitVec 3} {t : Cond} : b = t.code ↔ Cond.dec b.toNat = some t := by revert b; cases t <;> decide
@[simp] theorem SrcF.eq_code_iff {b : BitVec 4} {t : SrcF} : b = t.code ↔ SrcF.dec b.toNat = some t := by revert b; cases t <;> decide
@[simp] theorem Rnd.eq_code_iff {b : BitVec 3} {t : Rnd} : b = t.code ↔ Rnd.dec b.toNat = some t := by revert b; cases t <;> decide
@[simp] theorem VoteMode.eq_code_iff {b : BitVec 8} {t : VoteMode} : b = t.code ↔ VoteMode.dec b.toNat = some t := by revert b; cases t <;> decide
@[simp] theorem Act.eq_code_iff {b : BitVec 3} {t : Act} : b = t.code ↔ Act.dec b.toNat = some t := by revert b; cases t <;> decide
@[simp] theorem Scope.eq_code_iff {b : BitVec 3} {t : Scope} : b = t.code ↔ Scope.dec b.toNat = some t := by revert b; cases t <;> decide
@[simp] theorem AOrd.eq_code_iff {b : BitVec 3} {t : AOrd} : b = t.code ↔ AOrd.dec b.toNat = some t := by revert b; cases t <;> decide
@[simp] theorem FOrd.eq_code_iff {b : BitVec 3} {t : FOrd} : b = t.code ↔ FOrd.dec b.toNat = some t := by revert b; cases t <;> decide
@[simp] theorem LdsTag.eq_code_iff {b : BitVec 8} {t : LdsTag} : b = t.code ↔ LdsTag.dec b.toNat = some t := by revert b; cases t <;> decide
@[simp] theorem TSz.eq_code_iff {b : BitVec 8} {t : TSz} : b = t.code ↔ TSz.dec b.toNat = some t := by revert b; cases t <;> decide
@[simp] theorem SredOp.eq_code_iff {b : BitVec 8} {t : SredOp} : b = t.code ↔ SredOp.dec b.toNat = some t := by revert b; cases t <;> decide
@[simp] theorem eq_wideCode_iff {m : BitVec 8} {w : Bool} : bits m 0 2 = wideCode w ↔ wideOf m = some w := by revert m; cases w <;> decide

/-! ### From a word to an instruction: opcode and MOD are those that the instruction is given by -/

section
variable {c : Ctl} {n : Nat} {m : BitVec 8} {i : Instr}
theorem parts_of_mod {k : BitVec 10} {m' : BitVec 8} {f : BitVec 8 → Body} (h : parts i = some (c, k, f m')) (hm : m = m') :
    parts i = some (c, k, f m) := hm ▸ h
theorem parts_of_decF5 {o : O5} (h : decF5 n m c o = some i) : parts i = some (c, BitVec.ofNat 10 n, .f5 o m) := by
  unfold decF5 at h
  simp only [only, ftWith, cvtWith, cvtfWith, mmaWith, Option.bind, Option.map] at h
  repeat' split at h
  all_goals cases h
  all_goals refine parts_of_mod (f := .f5 o) rfl ?_
  all_goals simp_all [BitVec.toNat_eq_nat]
theorem parts_of_decRI {o : ORI} (h : decRI n m c o = some i) : parts i = some (c, BitVec.ofNat 10 n, .ri o m) := by
  unfold decRI at h
  simp only [only, ftWith, Option.bind, Option.map] at h
  repeat' split at h
  all_goals cases h
  all_goals refine parts_of_mod (f := .ri o) rfl ?_
  all_goals simp_all [BitVec.toNat_eq_nat]
theorem parts_of_decM {o : OM} (h : decM n m c o = some i) : parts i = some (c, BitVec.ofNat 10 n, .m o m) := by
  unfold decM at h
  simp only [only, ordWith, atomWith, Option.bind, Option.map] at h
  repeat' split at h
  all_goals cases h
  all_goals refine parts_of_mod (f := .m o) rfl ?_
  all_goals simp_all [eq_epiMod_iff]
theorem parts_of_decT {o : OT} (h : decT n m c o = some i) : parts i = some (c, BitVec.ofNat 10 n, .t o m) := by
  unfold decT at h
  simp only [only, Option.map] at h
  repeat' split at h
  all_goals cases h
  all_goals refine parts_of_mod (f := .t o) rfl ?_
  all_goals simp_all [BitVec.toNat_eq_nat, eq_epiMod_false_iff]
theorem parts_of_decB {o : OB} (h : decB n m c o = some i) : parts i = some (c, BitVec.ofNat 10 n, .b o m) := by
  unfold decB at h
  simp only [only] at h
  repeat' split at h
  all_goals cases h
  all_goals refine parts_of_mod (f := .b o) rfl ?_
  all_goals simp_all
theorem parts_of_decX {o : OX} (h : decX n m c o = some i) : parts i = some (c, BitVec.ofNat 10 n, .x o m) := by
  unfold decX at h
  simp only [only, Option.bind, Option.map] at h
  repeat' split at h
  all_goals cases h
  all_goals refine parts_of_mod (f := .x o) rfl ?_
  all_goals simp_all [BitVec.toNat_eq_nat]
end

/-! ### From an instruction to a word: MOD is read as it was written -/

section
variable {c : Ctl} {n : BitVec 10} {b : Body} {i : Instr}

theorem cvtWith_cvtMod {k : SrcF → Rnd → Bool → Instr} (sf : SrcF) (rm : Rnd) (sat : Bool) : cvtWith k (cvtMod sf rm sat) = some (k sf rm sat) := by
  obtain ⟨h1, h2, h3⟩ := eq_cvtMod_iff.1 (rfl : cvtMod sf rm sat = _)
  simp_all [cvtWith]
theorem cvtfWith_cvtfMod {k : Rnd → Bool → Bool → Instr} (rm : Rnd) (slot sat : Bool) : cvtfWith k (cvtfMod rm slot sat) = some (k rm slot sat) := by
  obtain ⟨h1, h2, h3, h4⟩ := eq_cvtfMod_iff.1 (rfl : cvtfMod rm slot sat = _)
  simp_all [cvtfWith]
theorem mmaWith_mmaMod {k : BitVec 2 → Bool → Bool → Instr} (n : BitVec 2) (take z : Bool) : mmaWith k (mmaMod n take z) = some (k n take z) := by
  obtain ⟨h1, h2, h3, h4⟩ := eq_mmaMod_iff.1 (rfl : mmaMod n take z = _)
  simp_all [mmaWith]
theorem atomWith_atomMod {k : AOrd → Scope → Bool → Bool → Instr} (a : AOrd) (sc : Scope) (nr w : Bool) :
    atomWith (atomMod a sc nr w) k = some (k a sc nr w) := by
  obtain ⟨h1, h2, h3, h4⟩ := eq_atomMod_iff.1 (rfl : atomMod a sc nr w = _)
  simp_all [atomWith]
theorem ordWith_ordMod {strong : BitVec 3} {k : Bool → Scope → Instr} (q : Bool) (sc : Scope) (hs : strong ≠ 0) :
    ordWith (ordMod strong q sc) strong k = some (k q sc) := by
  obtain ⟨h1, h2, h3⟩ := eq_ordMod_iff.1 (rfl : ordMod strong q sc = _)
  cases q <;> simp_all [ordWith]

section
variable {o : O5}
theorem decF5_flgiClr (k : BitVec 4) : decF5 0x018 (k ++ 4#4) c o = some (.flgiClr c k o) := by
  obtain ⟨h1, h2⟩ := (eq_lcombMod_iff (f1 := 4#4) (f2 := k)).1 rfl
  have h0 : ¬ k ++ 4#4 = 0#8 := fun e => absurd (e ▸ h2) (by decide)
  simp [decF5, h0, h1, h2]
theorem decF5_fflgClr (k : BitVec 5) : decF5 0x0FE (k ++ 4#3) c o = some (.fflgClr c k o) := by
  obtain ⟨h1, h2⟩ := (eq_fflgMod_iff (k := k)).1 rfl
  have h0 : ¬ k ++ 4#3 = 0#8 := fun e => absurd (e ▸ h2) (by decide)
  simp [decF5, h0, h1, h2]
theorem decF5_lcomb (f1 f2 : BitVec 4) : decF5 0x040 (f2 ++ f1) c o = some (.lcomb c f1 f2 o) := by
  obtain ⟨h1, h2⟩ := (eq_lcombMod_iff (f1 := f1) (f2 := f2)).1 rfl
  simp [decF5, h1, h2]
theorem decF5_pcomb (f1 f2 : BitVec 4) : decF5 0x082 (f2 ++ f1) c o = some (.pcomb c f1 f2 o) := by
  obtain ⟨h1, h2⟩ := (eq_lcombMod_iff (f1 := f1) (f2 := f2)).1 rfl
  simp [decF5, h1, h2]
theorem decF5_lea (k : BitVec 3) (u : Bool) : decF5 0x060 (0#4 ++ BitVec.ofBool u ++ k) c o = some (.lea c k u o) := by
  obtain ⟨h1, h2, h3⟩ := (eq_leaMod_iff (x := u) (k := k)).1 rfl
  rw [BitVec.getLsbD_eq_getElem (by decide)] at h2
  simp [decF5, h1, h2, h3]
theorem decF5_cmp (ty : ITy) (k : Cond) (b : BOp) : decF5 0x080 (0#1 ++ b.code ++ k.code ++ ty.code) c o = some (.cmp c ty k b o) := by
  obtain ⟨h1, h2, h3, h4⟩ := (eq_cmpMod_iff (b := b.code) (k := k.code) (t := ty.code)).1 rfl
  rw [BitVec.getLsbD_eq_getElem (by decide)] at h1
  rw [BOp.eq_code_iff] at h2; rw [Cond.eq_code_iff] at h3; rw [ITy.eq_code_iff] at h4
  simp [decF5, h1, h2, h3, h4]
theorem decF5_fcmp (ft : FTy) (k : FCond) (b : BOp) : decF5 0x0CA (b.code ++ k.code ++ ft.code) c o = some (.fcmp c ft k b o) := by
  obtain ⟨h1, h2, h3⟩ := (eq_fcmpMod_iff (b := b.code) (k := k.code) (t := ft.code)).1 rfl
  rw [BOp.eq_code_iff] at h1; rw [FCond.eq_code_iff] at h2; rw [FTy.eq_code_iff] at h3
  simp [decF5, ftWith, h1, h2, h3]
theorem decF5_bsdec (k : BitVec 2) : decF5 0x112 (0#6 ++ k) c o = some (.bsdec c k o) := by
  obtain ⟨h1, h2⟩ := (eq_bsdecMod_iff (k := k)).1 rfl
  simp [decF5, h1, h2]
end
theorem decRI_cmpRi {o : ORI} (ty : ITy) (k : Cond) : decRI 0x081 (0#3 ++ k.code ++ ty.code) c o = some (.cmpRi c ty k o) := by
  obtain ⟨h1, h2, h3⟩ := (eq_cmpRiMod_iff (k := k.code) (t := ty.code)).1 rfl
  rw [Cond.eq_code_iff] at h2; rw [ITy.eq_code_iff] at h3
  simp [decRI, h1, h2, h3]
theorem decM_atomFaddF32 {o : OM} (a : AOrd) (sc : Scope) (nr : Bool) :
    decM 0x1CA (atomMod a sc nr false) c o = some (.atomFaddF32 c a sc nr o) := by
  have h1 := ((eq_atomMod_iff (a := a) (sc := sc) (x := nr) (y := false)).1 rfl).1
  rw [BitVec.getLsbD_eq_getElem (by decide)] at h1
  simp [decM, h1, atomWith_atomMod]
theorem decT_putTRetry {o : OT} (u : BitVec 5) : decT 0x1F2 (putMod u 1#2) c o = some (.putTRetry c u o) := by
  obtain ⟨h1, h2, h3⟩ := (eq_putMod_iff (u := u) (k := 1#2)).1 rfl
  rw [BitVec.getLsbD_eq_getElem (by decide)] at h1
  simp [decT, h1, h2, h3]
theorem decT_putTRep {o : OT} (u : BitVec 5) : decT 0x1F2 (putMod u 2#2) c o = some (.putTRep c u o) := by
  obtain ⟨h1, h2, h3⟩ := (eq_putMod_iff (u := u) (k := 2#2)).1 rfl
  rw [BitVec.getLsbD_eq_getElem (by decide)] at h1
  simp [decT, h1, h2, h3]
theorem decB_jtb {o : OB} (base : BitVec 6) : decB 0x245 (0#2 ++ base) c o = some (.jtb c base o) := by
  obtain ⟨h1, h2⟩ := (eq_jtbMod_iff (b := base)).1 rfl
  simp [decB, h1, h2]

theorem decBody_of_parts (h : parts i = some (c, n, b)) (hw : WellFormed i = true) : decBody n c b = some i := by
  cases i
  case add _ ty _ | sub _ ty _ | addSat _ ty _ | subSat _ ty _ | mulLo _ ty _ | mulHi _ ty _ | mulWide _ ty _ | madLo _ ty _ | madWide _ ty _
      | min _ ty _ | max _ ty _ | neg _ ty _ | abs _ ty _ | absSat _ ty _ | div _ ty _ | rem _ ty _ | shl _ ty _ | shr _ ty _ | sar _ ty _ | bfe _ ty _
      | addRi _ ty _ | subRi _ ty _ | mulLoRi _ ty _ | minRi _ ty _ | maxRi _ ty _ => cases h; cases ty <;> rfl
  case popc _ w _ | clz _ w _ | ctz _ w _ | brev _ w _ | sel _ w _ | mov _ w _ | lanexSel _ w _ | lanexPat _ w _ | hgath _ w _
      | tmrRd _ w _ | tmrArm _ w _ | tmrOff _ w _ => cases h; cases w <;> rfl
  case fadd _ ft _ | fsub _ ft _ | fmul _ ft _ | fma _ ft _ | fms _ ft _ | fnma _ ft _ | fmin _ ft _ | fmax _ ft _ | fmed3 _ ft _ | fclamp _ ft _
      | fabs _ ft _ | fneg _ ft _ | frcp _ ft _ | frsq _ ft _ | fsqrt _ ft _ | fex2 _ ft _ | flg2 _ ft _ | fsinpi _ ft _ | fcospi _ ft _ | ftanh _ ft _
      | fdiv _ ft _ | faddRi _ ft _ | fsubRi _ ft _ | fmulRi _ ft _ => cases h; cases ft <;> rfl
  case cvtF32 | cvtF16 | cvtBf16 | cvtE4m3 | cvtE5m2 | cvtI32 | cvtN32 | cvtI64 | cvtN64 =>
    cases h; unfold decBody decF5; exact cvtWith_cvtMod _ _ _
  case cvtfTo | cvtfFrom => cases h; unfold decBody decF5; exact cvtfWith_cvtfMod _ _ _
  case mmaBf16 | mmaSpBf16 => cases h; unfold decBody decF5; exact mmaWith_mmaMod _ _ _
  case atomAdd | atomSmin | atomUmin | atomSmax | atomUmax | atomAnd | atomOr | atomXor | atomExch | atomCas =>
    cases h; unfold decBody decM; exact atomWith_atomMod _ _ _ _
  case ld sz _ _ _ => cases sz <;> (cases h; unfold decBody decM; exact ordWith_ordMod _ _ (by decide))
  case st sz _ _ _ => cases sz <;> (cases h; unfold decBody decM; exact ordWith_ordMod _ _ (by decide))
  case lds sz t _ => cases sz <;> cases t <;> (cases h; rfl)
  case sts sz _ => cases sz <;> (cases h; rfl)
  case vote _ k _ | take _ k _ | sred _ k _ => cases h; cases k <;> rfl
  case flgiClr => cases h; exact decF5_flgiClr _
  case fflgClr => cases h; exact decF5_fflgClr _
  case lcomb => cases h; exact decF5_lcomb _ _
  case pcomb => cases h; exact decF5_pcomb _ _
  case lea => cases h; exact decF5_lea _ _
  case cmp => cases h; exact decF5_cmp _ _ _
  case fcmp => cases h; exact decF5_fcmp _ _ _
  case bsdec => cases h; exact decF5_bsdec _
  case cmpRi => cases h; exact decRI_cmpRi _ _
  case atomFaddF32 => cases h; exact decM_atomFaddF32 _ _ _
  case putTRetry => cases h; exact decT_putTRetry _
  case putTRep => cases h; exact decT_putTRep _
  case jtb => cases h; exact decB_jtb _
  case epiSt _ a x y z _ => cases h; cases a <;> cases x <;> cases y <;> cases z <;> rfl
  case epiT _ a x y _ => cases h; cases a <;> cases x <;> cases y <;> rfl
  case fence _ a sc _ => cases h; cases a <;> cases sc <;> rfl
  case ctxCtlHold _ o | ctxCtlRelease _ o | ctxCtlKill _ o =>
    cases h
    have hs := eq_of_beq (Bool.and_eq_true_iff.1 hw).2
    obtain ⟨d, a, sel⟩ := o
    cases hs
    rfl
  all_goals cases h
  all_goals rfl
theorem fmtOf_of_parts (h : parts i = some (c, n, b)) : fmtOf n = some b.fmt := by
  cases i
  case ld sz _ _ _ => cases sz <;> (cases h; rfl)
  case st sz _ _ _ => cases sz <;> (cases h; rfl)
  case lds sz _ _ => cases sz <;> (cases h; rfl)
  case sts sz _ => cases sz <;> (cases h; rfl)
  all_goals cases h
  all_goals rfl
end

/-! ### The word -/

theorem encodeParts_eq_iff {c : Ctl} {n : BitVec 10} {b : Body} {w : BitVec 96} :
    encodeParts (c, n, b) = w ↔ bits w 86 10 = n ∧ decCtl w = some c ∧ unpack b.fmt (bits w 0 70) = some b := by
  have hw : bits w 0 (10 + 16 + 70) = w := bits_all w
  show n ++ encCtl c ++ pack b = w ↔ _
  rw [decCtl_eq_some, unpack_eq_some_iff, bits_all, ← and_assoc, eq_comm (a := bits w 86 10)]
  calc n ++ encCtl c ++ pack b = w
    _ ↔ n ++ encCtl c ++ pack b = bits w 0 (10 + 16 + 70) := by rw [hw]
    _ ↔ _ := by rw [append_eq_bits, append_eq_bits]
theorem decodeWord_eq_ok {w : BitVec 96} {i : Instr} : decodeWord w = .ok i ↔ WellFormed i = true ∧
    ∃ f c, fmtOf (bits w 86 10) = some f ∧ decCtl w = some c ∧ (unpack f (bits w 0 70)).bind (decBody (bits w 86 10) c) = some i := by
  unfold decodeWord
  cases fmtOf (bits w 86 10) with
  | none => simp
  | some f =>
    cases decCtl w with
    | none => simp
    | some c =>
      simp only [Option.some.injEq, exists_and_left, exists_eq_left']
      cases (unpack f (bits w 0 70)).bind (decBody (bits w 86 10) c) with
      | none => simp
      | some j => grind
theorem parts_of_decBody {n : BitVec 10} {c : Ctl} {b : Body} {i : Instr} (h : decBody n c b = some i) : parts i = some (c, n, b) := by
  have hn : BitVec.ofNat 10 n.toNat = n := by simp
  rw [← hn]
  cases b with
  | f5 => exact parts_of_decF5 h
  | ri => exact parts_of_decRI h
  | m => exact parts_of_decM h
  | t => exact parts_of_decT h
  | b => exact parts_of_decB h
  | x => exact parts_of_decX h

/-- Settles O5: the fields of a word are stretches of it that decoder and encoder read and write alike, and so are the codes in its MOD. -/
theorem roundTrip : Obligations.RoundTrip := by
  intro w i
  rw [decodeWord_eq_ok]
  refine and_congr_right fun hw => ?_
  rw [encode, Option.map_eq_some_iff]
  constructor
  · rintro ⟨f, c, -, hc, hb⟩
    obtain ⟨b, hu, hi⟩ := Option.bind_eq_some_iff.1 hb
    obtain rfl := fmt_of_unpack hu
    exact ⟨(c, _, b), parts_of_decBody hi, encodeParts_eq_iff.2 ⟨rfl, hc, hu⟩⟩
  · rintro ⟨⟨c, n, b⟩, hp, he⟩
    obtain ⟨rfl, hc, hu⟩ := encodeParts_eq_iff.1 he
    exact ⟨b.fmt, c, fmtOf_of_parts hp, hc, Option.bind_eq_some_iff.2 ⟨b, hu, decBody_of_parts hp hw⟩⟩

/-- Settles O6: each of the words is the encoding of its instruction. -/
theorem specWords : Obligations.SpecWords := by
  unfold Obligations.SpecWords
  refine ⟨?_, ?_, ?_, ?_, ?_, ?_, ?_, ?_, ?_, ?_, ?_, ?_, ?_, ?_, ?_⟩
  all_goals exact (roundTrip _ _).2 ⟨by decide, by decide⟩

end Sys2Proof
end

section
/-! Long-latency results (R69, R113, R114, R129, R168, R169, R195): an instruction that only joins the unfinished ones of its warp, and the
completion that writes what it held. -/
namespace Sys2Proof.Machine
open Sys2Proof.Safety

/-! ### Held at issue -/

section
variable {i : Instr} {busy : Iss → State → Bool} {s : State} {x : Iss}

theorem issOf_width (h : issOf s i = some x) {j : Nat} (hj : inMask x.g j = true) : j < x.w.width := by
  unfold issOf at h
  split at h
  · simp at h
  · split at h
    · simp at h
    · simp only [Option.some.injEq] at h
      subst h
      simp only [guardMask, inMask_maskOf, Bool.and_eq_true, decide_eq_true_eq] at hj
      exact hj.1.2
/-- The body of an issued instruction runs under one name, the state's next. -/
theorem issue_named (h : Issues i busy s x) (price : Iss → List Chg) (body : Iss → Nat → Action) :
    issue i price busy body s = issue i price busy (fun x _ => body x s.nextId) s := by
  rw [issue_go h, issue_go h, run_go, run_go]

/-- A warp with one more unfinished instruction. -/
def Warp.holding (o : Outst) (w : Warp) : Warp := { w with outs := w.outs ++ [o] }
theorem holding_frame {w u : Warp} {g : Mask} {keys : List Nat} {flags : Word} (o : Outst) (h : WFrame w u g keys flags) :
    WFrame w (u.holding o) g keys flags :=
  ⟨h.len, h.vary, h.uni, h.aff, h.pred, h.flag, h.flagOff, h.gen⟩

/-- What the results of an instruction hold for a uniform destination. -/
theorem res_uniform (r : Fin 64) (n : Nat) (f : Nat → BitVec 128 × Nat) :
    nth (x.res (.s r) n f).vals 0 0 = (f (lowest x.g)).1 ∧ nth (x.res (.s r) n f).flags 0 0 = (f (lowest x.g)).2 := ⟨rfl, rfl⟩
/-- What they hold for a guard-true lane otherwise. -/
theorem res_lane {d : Opd} (hd : ∀ r, d ≠ .s r) (n : Nat) (f : Nat → BitVec 128 × Nat) {j : Nat} (hw : j < x.w.width) (hj : inMask x.g j = true) :
    nth (x.res d n f).vals j 0 = (f j).1 ∧ nth (x.res d n f).flags j 0 = (f j).2 := by
  have key : x.res d n f = (let l := (List.range x.w.width).map fun i => if inMask x.g i then f i else (0, 0)
      ⟨d, n, l.map (·.1), l.map (·.2), l.any fun r => r.2 / iDZ % 2 == 1⟩) := by
    unfold Iss.res
    split
    · next r => exact absurd rfl (hd r)
    · rfl
  rw [key]
  simp [nth, hw, hj]
theorem res_dst (d : Opd) (n : Nat) (f : Nat → BitVec 128 × Nat) : (x.res d n f).dst = d ∧ (x.res d n f).n = n := by
  unfold Iss.res
  split <;> exact ⟨rfl, rfl⟩

/-- R69: a long-latency register instruction joins its warp's unfinished ones with its results, and writes nothing. -/
theorem performAlu_does {p : Price} {d : Opd} {n : Nat} {f : Iss → Nat → BitVec 128 × Nat} (h : Issues i busy s x) :
    ∃ t, issueLong i p busy (performAlu d n f) s = .next t ∧ Held t x s.nextId d n (fun j => (f x j).1) (fun j => (f x j).2) ∧
      Leaves s t x [] 0 := by
  let o := x.out s.nextId .alu (x.res d n (f x))
  obtain ⟨t, ht, hw, hq⟩ := warp_does (price := fun x => x.price p) (body := fun x _ => performAlu d n f x s.nextId) (Warp.holding o) h fun _ _ => rfl
  refine ⟨t, (issue_named h _ _).trans ht, fun hg => ⟨o, ?_, rfl, rfl, rfl, rfl, rfl, (res_dst d n (f x)).1, (res_dst d n (f x)).2, ?_⟩, leaves_of hq ?_⟩
  · rw [hw, if_pos (by simpa using hg)]; rfl
  · have lane (hd : ∀ r, d ≠ .s r) (j : Nat) (hj : Iss.On x j) : nth o.res.vals j 0 = (f x j).1 ∧ nth o.res.flags j 0 = (f x j).2 :=
      res_lane hd n (f x) (issOf_width h.1 hj.2) hj.2
    cases d with
    | s r => exact res_uniform r n (f x)
    | _ => exact lane nofun
  · rw [hw]
    split
    · exact holding_frame o (stepped_frame x s [] 0)
    · exact stepped_frame x s [] 0
end

/-! ### What division holds -/

section
variable (ty : ITy) (a b : Int)
theorem modW_setWidth (q : Int) : (modW ty q).setWidth 128 = BitVec.ofNat 128 (q % 2 ^ bw ty.wide).toNat := by
  apply BitVec.eq_of_toNat_eq
  have h := modW_toNat ty q
  have hlt := (modW ty q).isLt
  rw [BitVec.toNat_setWidth, BitVec.toNat_ofNat, ← h, Int.toNat_natCast]
/-- Quotient and remainder, with the case that overflows (R129). -/
theorem divRem_eq : divRem ty a b = if b = 0 then (0, a, iDZ) else
    if ty.signed ∧ a = -2 ^ (bw ty.wide - 1) ∧ b = -1 then (a, 0, iOV) else (a.tdiv b, a - b * a.tdiv b, 0) := by
  have hmin : ty.signed ∧ a = tyMin ty ∧ b = -1 ↔ ty.signed ∧ a = -2 ^ (bw ty.wide - 1) ∧ b = -1 := and_congr_right fun h => by
    rw [tyMin, if_pos h]; rfl
  simp only [divRem, hmin, Int.tmod_def]
theorem divRem_quot : ((divRem ty a b).1, (divRem ty a b).2.2) =
    if b = 0 then (0, iDZ) else if ty.signed ∧ a = -2 ^ (bw ty.wide - 1) ∧ b = -1 then (a, iOV) else (a.tdiv b, 0) := by
  rw [divRem_eq]
  split_ifs <;> rfl
theorem divRem_rem : ((divRem ty a b).2.1, (divRem ty a b).2.2) =
    if b = 0 then (a, iDZ) else if ty.signed ∧ a = -2 ^ (bw ty.wide - 1) ∧ b = -1 then (0, iOV) else (a - b * a.tdiv b, 0) := by
  rw [divRem_eq]
  split_ifs <;> rfl
end

/-! ### What a completion keeps -/

/-- Everything of `Rest`, and the cached translations. -/
def restView (s : State) := (farView s, s.mem, s.cores, s.wgs, s.launches)
theorem rest_of_restView {s t : State} (h : restView t = restView s) : Rest s t [] := by
  have hfar := rest_of_farView (congrArg (·.1) h)
  exact {
    mem := fun _ a => by rw [show t.mem = s.mem from congrArg (·.2.1) h]
    hw := hfar.hw
    cores := fun _ => congrArg (·.2.2.1) h
    wgs := fun _ => congrArg (·.2.2.2.1) h
    launches := fun _ => congrArg (·.2.2.2.2) h
    queues := fun _ => hfar.queues (by decide)
    ctxs := fun _ => hfar.ctxs (by decide)
    stores := fun _ => hfar.stores (by decide)
    arrivals := fun _ => hfar.arrivals (by decide)
    fabric := fun _ => hfar.fabric (by decide) }
/-- A charge changes accounts, meter sums and clusters only. -/
theorem keeps_charge_rest (c : Option Nat) (cs : List Chg) : Keeps (fun s => (restView s, s.warps)) (charge c cs) := by
  intro s
  have hregs : steadyRegs (run (charge c cs) s) = steadyRegs s := funext fun ⟨⟨k, h1, h2, h3⟩, n⟩ => charge_hw c cs k n h1 h2 h3 s
  have hrest := keeps_charge (f := fun s => (s.queues, s.ctxs, s.stores, s.arrivals, s.fabric, s.tlb, s.mem, s.cores, s.wgs, s.launches, s.warps))
    (c := c) (cs := cs) (fun _ _ _ _ => rfl) (fun _ _ _ => rfl) (fun _ _ _ => rfl) s
  simp only [Prod.mk.injEq] at hrest
  simp only [restView, farView, hregs, hrest]
theorem keeps_llcTouches_rest (lines : List Nat) (mark : Nat) (dirty : Option (Option Nat)) :
    Keeps (fun s => (restView s, s.warps)) (llcTouches lines mark dirty) := fun _ => rfl
theorem keeps_homeHinted_rest (c : Option Nat) (cl mark : Nat) (write : Bool) (lines : List Nat) :
    Keeps (fun s => (restView s, s.warps)) (homeHinted c cl mark write lines) := fun s =>
  keeps_cons (keeps_charge_rest _ _) (keeps_cons (keeps_llcTouches_rest _ _ _) keeps_nil) s
theorem keeps_sliceAccess_rest (c : Option Nat) (cl mark : Nat) (write : Bool) (lines : List Nat) :
    Keeps (fun s => (restView s, s.warps)) (sliceAccess c cl mark write lines) := fun s =>
  keeps_cons (keeps_charge_rest _ _) (keeps_cons (keeps_llcTouches_rest _ _ _) keeps_nil) s

/-! ### Delivery -/

section
variable {k id : Nat} {s : State} {w : Warp} {o : Outst}

theorem deliver_outs (w : Warp) (o : Outst) (m : Mask) : (deliver w o m).outs = w.outs := by
  unfold deliver
  split
  · rfl
  · rw [wrSN_eq]; rfl
  · rfl
/-- A warp that an instruction leaves. -/
def Warp.without (id : Nat) (w : Warp) : Warp := { w with outs := w.outs.filter fun o => o.id != id }
/-- With its last lanes an instruction leaves its warp, and nothing else of the machine changes but accounts and the marks of lines (R69, R239). -/
theorem finishLanes_last (hw : find s.warps k = some w) (ho : w.outs.find? (fun o => o.id == id) = some o) :
    find (run (finishLanes k id o.left) s).warps k = some (w.without id) ∧ restView (run (finishLanes k id o.left) s) = restView s := by
  have hleft : o.left &&& ~~~o.left = 0 := by simp
  have drop (a : Action) (ha : Keeps (fun s => (restView s, s.warps)) a) :
      find (run (acts [dropOut k id, a]) s).warps k = some (w.without id) ∧ restView (run (acts [dropOut k id, a]) s) = restView s := by
    have h : run (acts [dropOut k id, a]) s = run a (applyUpd s (.warp k (some (w.without id)))) := by
      rw [run_acts_cons, run_acts_cons, run_acts_nil, dropOut, run_modWarp _ _ _ _ hw]; rfl
    have hk := Prod.mk.inj (ha (applyUpd s (.warp k (some (w.without id)))))
    rw [h]
    exact ⟨by rw [hk.2]; simp, hk.1⟩
  unfold finishLanes
  rw [run_look]
  simp only [hw, ho, hleft, if_true]
  refine drop _ ?_
  split
  · exact keeps_sliceAccess_rest _ _ _ _ _
  · split
    · exact keeps_charge_rest _ _
    · exact keeps_homeHinted_rest _ _ _ _ _
/-- All the lanes of an instruction delivered (R69, R238). -/
theorem deliverLanes_all (hw : find s.warps k = some w) (ho : w.outs.find? (fun o => o.id == id) = some o) :
    find (run (deliverLanes k id o.left) s).warps k = some ((deliver w o o.left).without id) ∧
      restView (run (deliverLanes k id o.left) s) = restView s := by
  let t := applyUpd s (.warp k (some (deliver w o o.left)))
  have hrun : run (deliverLanes k id o.left) s = run (finishLanes k id o.left) t := by
    show run (acts [_, _]) s = _
    rw [run_acts_cons, run_acts_cons, run_acts_nil, run_modWarp _ _ _ _ hw, ho]
    show run _ (applyUpd s (.warp k (some (deliver w o (o.left &&& o.left))))) = _
    rw [BitVec.and_self]
  have ht : find t.warps k = some (deliver w o o.left) := by simp [t]
  rw [hrun]
  exact finishLanes_last ht (by rwa [deliver_outs])
end

/-! ### What is delivered -/

theorem wd_extract (v : BitVec 128) (k : Nat) : v.extractLsb' (32 * k) 32 = wd (v.toNat / 2 ^ (32 * k)) := by
  apply BitVec.eq_of_toNat_eq
  simp [wd, BitVec.extractLsb'_toNat, Nat.shiftRight_eq_div_pow]
/-- A warp `u` is `w` with the results of an instruction written, `vals` to its lanes (R113, R238). -/
structure Delivered (w u : Warp) (o : Outst) (vals : Nat → Nat) : Prop where
  fills : ∀ j, j < w.lanes.length → inMask o.left j = true → Fills w u j o.res.dst o.res.n (vals j)
  flagsVary : ∀ r j, o.res.dst = .v r → j < w.lanes.length → inMask o.left j = true → (laneOf w j).active = true →
    (laneOf u j).flg = (laneOf w j).flg ||| wd (nth o.res.flags j 0)
  flagsUni : ∀ r j, o.res.dst = .s r → j < w.lanes.length → inMask o.act j = true →
    (laneOf u j).flg = (laneOf w j).flg ||| wd (nth o.res.flags 0 0)
  off : ∀ r j, o.res.dst = .v r → inMask o.left j = false → laneOf u j = laneOf w j
  pc : ∀ j, (laneOf u j).pc = (laneOf w j).pc
/-- The result that a lane reads: its own, or the only one of a uniform destination. -/
def resAt (r : Res) (j : Nat) : Nat := (nth r.vals (match r.dst with | .s _ => 0 | _ => j) 0).toNat
section
variable {w : Warp} {o : Outst}
theorem deliver_vary {r : Fin 256} (hd : o.res.dst = .v r) (m : Mask) : deliver w o m = w.mapLanes m fun i l =>
    if l.active then (l.wrN r.val (nth o.res.vals i 0) o.res.n).orFlags (nth o.res.flags i 0) else l := by
  rw [deliver, hd]
theorem deliver_uni {r : Fin 64} (hd : o.res.dst = .s r) (m : Mask) : deliver w o m =
    (w.wrSN r.val (nth o.res.vals 0 0) o.res.n).mapLanes o.act fun _ l => l.orFlags (nth o.res.flags 0 0) := by
  rw [deliver, hd]
theorem deliver_other (hv : ∀ r, o.res.dst ≠ .v r) (hs : ∀ r, o.res.dst ≠ .s r) (m : Mask) : deliver w o m = w := by
  unfold deliver
  split
  · next r h => exact absurd h (hv r)
  · next r h => exact absurd h (hs r)
  · rfl
/-- A live lane of a varying result. -/
theorem laneOf_deliver {r : Fin 256} (hd : o.res.dst = .v r) {m : Mask} {j : Nat} (hj : j < w.lanes.length) (hm : inMask m j = true)
    (ha : (laneOf w j).active = true) : laneOf (deliver w o m) j =
      ((laneOf w j).wrN r.val (nth o.res.vals j 0) o.res.n).orFlags (nth o.res.flags j 0) := by
  rw [deliver_vary hd, laneOf_mapLanes _ _ _ _ hj, if_pos hm, if_pos ha]
theorem mapLanes_pc {m : Mask} {f : Nat → Lane → Lane} (hf : ∀ i l, (f i l).pc = l.pc) (j : Nat) : (laneOf (w.mapLanes m f) j).pc = (laneOf w j).pc := by
  by_cases hj : j < w.lanes.length
  · rw [laneOf_mapLanes _ _ _ _ hj]
    split
    · exact hf _ _
    · rfl
  · rw [laneOf_absent _ _ (by simpa using hj), laneOf_absent w _ (by simpa using hj)]
theorem wrSN_lanes (n : Nat) (v : BitVec 128) (k : Nat) : (w.wrSN n v k).lanes = w.lanes := by rw [wrSN_eq]
theorem delivered_vary {r : Fin 256} (hd : o.res.dst = .v r) : Delivered w (deliver w o o.left) o (resAt o.res) where
  fills := fun j hj hm => by
    rw [hd]
    intro ha k hk
    show (laneOf (deliver w o o.left) j).rd (r.val + k) = _
    have hv : resAt o.res j = (nth o.res.vals j 0).toNat := by rw [resAt, hd]
    rw [laneOf_deliver hd hj hm ha, hv, ← wd_extract]
    show ((laneOf w j).wrN r.val _ _).rd (r.val + k) = _
    rw [rd_wrN, if_pos ⟨by omega, by omega⟩, Nat.add_sub_cancel_left]
  flagsVary := fun r' j _ hj hm ha => by
    rw [laneOf_deliver hd hj hm ha, wrN_eq]; rfl
  flagsUni := fun r' j h => by rw [hd] at h; cases h
  off := fun r' j _ hm => by rw [deliver_vary hd, laneOf_mapLanes_out _ _ _ _ hm]
  pc := fun j => by
    rw [deliver_vary hd]
    refine mapLanes_pc (fun i l => ?_) j
    split
    · rw [wrN_eq]; rfl
    · rfl
theorem delivered_uni {r : Fin 64} (hd : o.res.dst = .s r) : Delivered w (deliver w o o.left) o (resAt o.res) where
  fills := fun j _ _ => by
    rw [hd]
    intro k hk
    have hv : resAt o.res j = (nth o.res.vals 0 0).toNat := by rw [resAt, hd]
    rw [deliver_uni hd, hv, ← wd_extract]
    show (w.wrSN r.val _ _).rdS (r.val + k) = _
    rw [rdS_wrSN, if_pos ⟨by omega, by omega⟩, Nat.add_sub_cancel_left]
  flagsVary := fun r' j h => by rw [hd] at h; cases h
  flagsUni := fun r' j _ hj hm => by
    rw [deliver_uni hd, laneOf_mapLanes _ _ _ _ (by rwa [wrSN_lanes]), if_pos hm, laneOf, wrSN_lanes]; rfl
  off := fun r' j h => by rw [hd] at h; cases h
  pc := fun j => by
    rw [deliver_uni hd, mapLanes_pc (fun _ _ => by rfl), laneOf, wrSN_lanes]; rfl
theorem delivered (w : Warp) (o : Outst) : Delivered w (deliver w o o.left) o (resAt o.res) := by
  by_cases hv : ∃ r, o.res.dst = .v r
  · obtain ⟨r, hd⟩ := hv
    exact delivered_vary hd
  by_cases hs : ∃ r, o.res.dst = .s r
  · obtain ⟨r, hd⟩ := hs
    exact delivered_uni hd
  rw [not_exists] at hv hs
  rw [deliver_other hv hs]
  refine ⟨fun j _ _ => ?_, fun r j h => absurd h (hv r), fun r j h => absurd h (hs r), fun r j h => absurd h (hv r), fun _ => rfl⟩
  unfold Fills
  split
  · next r h => exact absurd h (hv r)
  · next r h => exact absurd h (hs r)
  · trivial
end

/-! ### Completion -/

/-- What LONG_LATENCY_COMPLETE does to an unfinished instruction of a warp: its results delivered, the instruction finished. -/
def Completes (s : State) (wk id : Nat) (w : Warp) (o : Outst) (vals : Nat → Nat) : Prop :=
  ∃ t u, exec (.longLatencyComplete wk id) s = .next t ∧ find t.warps wk = some u ∧
    u.outs = w.outs.filter (fun v => v.id != id) ∧ Delivered w u o vals ∧ Rest s t []
section
variable {s : State} {wk id : Nat} {w : Warp} {o : Outst}
theorem complete_alu (hw : find s.warps wk = some w) (ho : w.outs.find? (fun u => u.id == id) = some o) (hk : o.kind = .alu)
    (hz : o.res.dz = false) : Completes s wk id w o (resAt o.res) := by
  have hrun : exec (.longLatencyComplete wk id) s = .next (run (deliverLanes wk id o.left) s) := by
    show Host.Outcome.next _ = _
    rw [run_look]
    simp only [hw, ho, hk, hz, Bool.false_and, Bool.false_eq_true, if_false, run_acts_cons, run_acts_nil]
    rfl
  obtain ⟨hu, hv⟩ := deliverLanes_all hw ho
  refine ⟨_, _, hrun, hu, ?_, ⟨(delivered w o).fills, (delivered w o).flagsVary, (delivered w o).flagsUni, (delivered w o).off, (delivered w o).pc⟩,
    rest_of_restView hv⟩
  show (deliver w o o.left).outs.filter _ = _
  rw [deliver_outs]

/-- An unfinished instruction with its values read. -/
def Outst.reading (vals : List (BitVec 128)) (o : Outst) : Outst := { o with res := { o.res with vals := vals } }
/-- The unfinished instructions of a warp, those of a name with their values read. -/
def readOuts (id : Nat) (vals : List (BitVec 128)) (l : List Outst) : List Outst := l.map fun o => if o.id = id then o.reading vals else o
theorem readOuts_find (vals : List (BitVec 128)) {l : List Outst} (ho : l.find? (fun u => u.id == id) = some o) :
    (readOuts id vals l).find? (fun u => u.id == id) = some (o.reading vals) := by
  induction l with
  | nil => cases ho
  | cons a r ih =>
    by_cases ha : a.id = id
    · have : a = o := by simpa [List.find?_cons, ha] using ho
      subst this
      simp [readOuts, ha, Outst.reading]
    · rw [List.find?_cons_of_neg (by simpa using ha)] at ho
      have := ih ho
      simpa [readOuts, ha] using this
theorem readOuts_filter (vals : List (BitVec 128)) (l : List Outst) :
    (readOuts id vals l).filter (fun u => u.id != id) = l.filter fun u => u.id != id := by
  induction l with
  | nil => rfl
  | cons a r ih =>
    by_cases ha : a.id = id
    · simpa [readOuts, ha, Outst.reading] using ih
    · simpa [readOuts, ha] using ih
theorem complete_accRd {blk f0 : Nat} (hw : find s.warps wk = some w) (ho : w.outs.find? (fun u => u.id == id) = some o)
    (hk : o.kind = .accRd blk f0) (hp : passesOn s w.wg blk o.age = false) :
    Completes s wk id w o (resAt (o.reading (accVals s w blk f0)).res) := by
  let vals := accVals s w blk f0
  let v : Warp := { w with outs := readOuts id vals w.outs }
  let t := applyUpd s (.warp wk (some v))
  have hrun : exec (.longLatencyComplete wk id) s = .next (run (deliverLanes wk id (o.reading vals).left) t) := by
    show Host.Outcome.next _ = _
    rw [run_look]
    simp only [hw, ho, hk, hp, Bool.false_eq_true, if_false, run_acts_cons, run_acts_nil, modOut, run_modWarp _ _ _ _ hw]
    rfl
  have ht : find t.warps wk = some v := by simp [t]
  obtain ⟨hu, hv⟩ := deliverLanes_all ht (readOuts_find vals ho)
  have hd := delivered v (o.reading vals)
  refine ⟨_, _, hrun, hu, ?_, ⟨hd.fills, hd.flagsVary, hd.flagsUni, hd.off, hd.pc⟩, rest_of_restView hv⟩
  show (deliver v (o.reading vals) _).outs.filter _ = _
  rw [deliver_outs]
  exact readOuts_filter vals w.outs
/-- The value that an `acc.rd` reads for a lane (R195). -/
theorem accVals_nth {g : Workgroup} {blk f0 j : Nat} (hg : wgOf s w = some g) (hj : j < w.width) :
    (nth (accVals s w blk f0) j 0).toNat =
      (findD (accOf (coreOf s g.core) (nth g.accs blk 0)).els (32 * ((f0 + j) % 32) + (f0 + j) % 1024 / 32) 0).toNat := by
  have hkey : accKey f0 j = 32 * ((f0 + j) % 32) + (f0 + j) % 1024 / 32 := by
    simp only [accKey, Nat.mod_mod_of_dvd _ (show 32 ∣ 1024 by decide)]
  have hval : nth (accVals s w blk f0) j 0 =
      (findD (accOf (coreOf s g.core) (nth g.accs blk 0)).els (accKey f0 j) 0).setWidth 128 := by
    simp [accVals, hg, nth, hj]
  rw [hval, hkey, BitVec.toNat_setWidth]
  exact Nat.mod_eq_of_lt (lt_trans (BitVec.isLt _) (by norm_num))
end

/-- Settles O17: an issued division or special function only joins its warp's unfinished instructions, and its completion delivers what it held. -/
theorem longResults : Obligations.LongResults := by
  refine ⟨fun c ty ft o => ?_, fun s wk id w o hw ho _ => ⟨fun hk hz => ?_, fun blk f0 r g hk hd hg hp hlen => ?_⟩⟩
  · have ints (i : Instr) (g : Int → Int → Int × Nat) (f : Int → Int → Int × Nat) (hf : f = g)
        (he : ∀ s, exec i s = issueLong i (dstPrice o.d 3) never (performAlu o.d (wn ty.wide) fun x j =>
          wide128 (modW ty (f (x.int ty o.a j) (x.int ty o.b j)).1, (f (x.int ty o.a j) (x.int ty o.b j)).2)) s) :
        Does i never fun s x t => Held t x s.nextId o.d (wn ty.wide)
          (fun j => BitVec.ofNat 128 ((g (x.int ty o.a j) (x.int ty o.b j)).1 % 2 ^ bw ty.wide).toNat)
          (fun j => (g (x.int ty o.a j) (x.int ty o.b j)).2) ∧ Leaves s t x [] 0 := by
      subst hf
      intro s x h
      obtain ⟨t, ht, hh, hl⟩ := performAlu_does (p := dstPrice o.d 3) (d := o.d) (n := wn ty.wide) (f := fun x j =>
        wide128 (modW ty (f (x.int ty o.a j) (x.int ty o.b j)).1, (f (x.int ty o.a j) (x.int ty o.b j)).2)) h
      refine ⟨t, (he s).trans ht, ?_, hl⟩
      simpa only [wide128, modW_setWidth] using hh
    have floats (i : Instr) (g : Iss → Nat → Nat × Nat) (he : ∀ s, exec i s = issueLong i (dstPrice o.d 6) never (performAlu o.d 1 fun x j =>
          (BitVec.ofNat 128 (g x j).1, (g x j).2)) s) :
        Does i never fun s x t => Held t x s.nextId o.d 1 (fun j => BitVec.ofNat 128 (g x j).1) (fun j => (g x j).2) ∧ Leaves s t x [] 0 :=
      fun s x h => by
        obtain ⟨t, ht, hp⟩ := performAlu_does (p := dstPrice o.d 6) (d := o.d) (n := 1) (f := fun x j => (BitVec.ofNat 128 (g x j).1, (g x j).2)) h
        exact ⟨t, (he s).trans ht, hp⟩
    exact ⟨ints _ _ (fun a b => ((divRem ty a b).1, (divRem ty a b).2.2)) (funext₂ (divRem_quot ty)) fun _ => rfl,
      ints _ _ (fun a b => ((divRem ty a b).2.1, (divRem ty a b).2.2)) (funext₂ (divRem_rem ty)) fun _ => rfl,
      floats _ _ fun _ => rfl, floats _ _ fun _ => rfl, floats _ _ fun _ => rfl, floats _ _ fun _ => rfl, floats _ _ fun _ => rfl,
      floats _ _ fun _ => rfl, floats _ _ fun _ => rfl, floats _ _ fun _ => rfl, floats _ _ fun _ => rfl⟩
  · obtain ⟨t, u, ht, hu, houts, hd, hr⟩ := complete_alu hw ho hk hz
    exact ⟨t, u, ht, hu, houts, hd.fills, hd.flagsVary, hd.flagsUni, hd.off, hd.pc, hr⟩
  · obtain ⟨t, u, ht, hu, houts, h, hr⟩ := complete_accRd hw ho hk hp
    refine ⟨t, u, ht, hu, houts, fun j hj hm => ?_, h.flagsVary, h.flagsUni, h.off, h.pc, hr⟩
    have hval : resAt (o.reading (accVals s w blk f0)).res j = (nth (accVals s w blk f0) j 0).toNat := by
      show (nth (accVals s w blk f0) (match o.res.dst with | .s _ => 0 | _ => j) 0).toNat = _
      rw [hd]
    have := h.fills j hj hm
    rwa [hval, accVals_nth hg (lt_of_lt_of_le hj hlen)] at this

end Sys2Proof.Machine
end

section
/-! Two warps under one key (R29 keeps them apart; the invariant's rising keys say so, the statement does not): a co-issue slot is checked against the
warp that the key finds, while the group offered is the other's. -/
namespace Sys2Proof.Machine
open Sys2Proof.Safety

def plainNop : Instr := .nop ⟨false, .pt, 0, 0, false, false, 0⟩ ⟨.none, .none, .none, .none, .none⟩
/-- A warp of context 1 on another core, with no lanes and nothing mapped. -/
def unmappedWarp : Warp := { placeWarp with ctx := 1, core := 1, lanes := [] }
/-- A placed warp about to run a `nop` of context 0, behind one of context 1 under the same key; the slot open on their core is context 1's. -/
def doubledState : State := { State.reset.withFetchWord 96 0x005E003FFFFFFFFFFFF00000 with
  warps := [(0, unmappedWarp), (0, placeWarp)]
  cores := [(0, ⟨[], [], [], none, some ⟨State.reset.now, 1, dw (placeBlock + 4), []⟩, []⟩)] }
def doubledCand : Cand := ⟨0, dw (placeBlock + 4), 0xFFFF, false⟩
def doubledCur : Cur := ⟨0, 0xFFFF, dw (placeBlock + 4), 1, false, false, true⟩

theorem doubled_offered : coOffer doubledState 0 = some (doubledCand, doubledCur, plainNop) := by decide +kernel
/-- The warp of context 1 cannot fetch the block. -/
theorem doubled_unmapped : (fetchBlock doubledState unmappedWarp doubledCand.pc).toBool = false := by decide +kernel

/-- Refutes O4: no hypothesis keeps two warps from sharing a key. Here the warp that the key finds is of the open slot's context and cannot fetch
the block, and the warp that fetches it is of another context, so no one warp meets every part of the conclusion. -/
theorem not_stepRunsDecoded : ¬ Obligations.StepRunsDecoded := by
  unfold Obligations.StepRunsDecoded
  intro h
  obtain ⟨-, -, hco, -⟩ := h doubledState
  obtain ⟨w, b, l, -, q, hw, hfetch, -, -, -, -, -, -, hq, -, hctx, -⟩ := hco 0 doubledCand doubledCur plainNop doubled_offered
  have hslot : q = ⟨State.reset.now, 1, dw (placeBlock + 4), []⟩ := (Option.some.inj hq).symm
  have hwarp : w = unmappedWarp ∨ w = placeWarp := by simpa [doubledState, doubledCand] using hw
  rcases hwarp with rfl | rfl
  · have hno := doubled_unmapped
    rw [hfetch] at hno
    exact absurd (show true = false from hno) (by decide)
  · rw [hslot] at hctx
    exact absurd hctx (by decide)

end Sys2Proof.Machine
end

section
/-! Two queues in one slot of a queue table (R309, R316 give a slot one queue; the invariant's rising keys say so, the statement does not): an island
that serves a queue writes back, with no held mark (R440), every queue of its slots that bears one, and so the marked one of a slot
replaces the one that the slot is read as. -/
namespace Sys2Proof.Machine

/-- A queue of context 0 with one packet observed; it bears no held mark. -/
def servedQueue : Queue := ⟨0x51000, 0x52000, 2, true, 0, 0, 1, [], false, none, [], none⟩
/-- A queue of the same slot with two packets observed, which bears a held mark. -/
def markedQueue : Queue := { servedQueue with wr := 2, held := some 0 }
/-- A supervisor context that is up, on an island that its fallback scheduler serves (R329); the ring's first packet is 64 bytes of zero, of KIND 0. -/
def doubledSlot : State := { State.reset.withFetchWord 96 0 with
  hw := hwSet (placeHw []) .istat 0 0x924
  queues := [(0, servedQueue), (0, markedQueue)] }
def blankPacket : Packet := ⟨0, zeros 64⟩

theorem doubledSlot_served : served doubledSlot 0 0 = some (0, servedQueue, .pkt blankPacket) := by decide +kernel
/-- The packet of the one queue starts, and the slot holds the other. -/
theorem doubledSlot_started : (find (run (startPacket 0 0 servedQueue) doubledSlot).queues 0).map (·.wr) = some 2 := by decide +kernel

/-- Refutes O52: no hypothesis keeps two queues from sharing a slot. Here the queue whose packet starts has seen WR at 1, and the slot afterwards
holds a queue with WR at 2, not the one served with RD moved past its packet. -/
theorem not_packets : ¬ Obligations.Packets := by
  unfold Obligations.Packets
  intro h
  obtain ⟨-, -, -, hpkt, -⟩ := h doubledSlot 0 0 servedQueue
  obtain ⟨⟨hslot, -⟩, -⟩ := hpkt blankPacket doubledSlot_served
  have hwr := congrArg (Option.map Queue.wr) hslot
  rw [show Option.map Queue.wr (find (run (startPacket 0 0 servedQueue) doubledSlot).queues 0) = some 2 from doubledSlot_started] at hwr
  exact absurd (show some 2 = some 1 from hwr) (by decide)

end Sys2Proof.Machine
end

section
/-! Affine forms (R116, R117, R119, R137, R140): what an instruction whose body depends on the state it starts in leaves in its warp, the pair
that an affine destination gets, and the lanes that set AOV. -/
namespace Sys2Proof.Machine
open Sys2Proof.Safety

/-! ### The state that a body starts in -/

section
variable {i : Instr} {busy : Iss → State → Bool} {s : State} {x : Iss}
/-- A body counts by what it does in the state that issuing leaves. -/
theorem issue_body_congr (h : Issues i busy s x) {price : Iss → List Chg} {body body' : Iss → Nat → Action}
    (hb : run (body x s.nextId) (x.issued (price x) s) = run (body' x s.nextId) (x.issued (price x) s)) :
    issue i price busy body s = issue i price busy body' s := by
  rw [issue_go h, issue_go h, run_go, run_go, hb]
/-- Issuing leaves the launch of a warp. -/
theorem launchOf_issued (h : Issues i busy s x) (price : List Chg) (w : Warp) : launchOf (x.issued price s) w = launchOf s w := by
  have hq := issued_quiet x price s (issOf_warp h.1)
  simp only [launchOf, wgOf, hq.wgs, hq.launches]
/-- An issued instruction whose body changes its warp by `f` in the state it starts in. -/
theorem warp_leaves {price : Iss → List Chg} {body : Iss → Nat → Action} (f : Warp → Warp) (h : Issues i busy s x)
    (hb : run (body x s.nextId) (x.issued (price x) s) = run (modWarp x.k f) (x.issued (price x) s)) {keys : List Nat} {flags : Word}
    (hf : ∀ w, WFrame w (f w) x.g keys flags) :
    ∃ t, issue i price busy body s = .next t ∧ (warpOf t x = if x.g != 0 then f (x.stepped s) else x.stepped s) ∧ Leaves s t x keys flags := by
  obtain ⟨t, ht, hw, hq⟩ := warp_does (price := price) (body := fun _ _ => modWarp x.k f) f h fun _ _ => rfl
  refine ⟨t, (issue_body_congr h hb).trans ht, hw, leaves_of hq ?_⟩
  rw [hw]
  split
  · exact (stepped_frame x s keys flags).trans (hf _)
  · exact stepped_frame x s keys flags
end

/-! ### The warp that an affine result leaves -/

/-- An affine register written, with AOV in every guard-true thread where it is raised (R117). -/
def affWarp (x : Iss) (n : Fin 32) (v : Word × Word) (raised : Bool) (w : Warp) : Warp :=
  (w.wrA n.val v).mapLanes x.g fun _ l => if raised then l.orFlags aOV else l
theorem affWarp_false (x : Iss) (n : Fin 32) (v : Word × Word) (w : Warp) : affWarp x n v false w = w.wrA n.val v := by
  have h (l : List Lane) : mapI (fun _ l => l) l = l := by simp [mapI]
  simp [affWarp, Warp.mapLanes, h]
theorem affWarp_frame (x : Iss) (n : Fin 32) (v : Word × Word) (raised : Bool) (w : Warp) :
    WFrame w (affWarp x n v raised w) x.g [1024 + n.val] (wd aOV) := by
  refine (WFrame.wrA (v := v) List.mem_cons_self).trans (WFrame.lanes ?_ ?_ ?_ ?_)
  · intro i l r _ _; cases raised <;> rfl
  · intro i l m _ _; cases raised <;> rfl
  · intro i l
    cases raised
    · rfl
    · exact orFlags_flag _ _ (by decide)
  · intro i l _; cases raised <;> rfl

/-- What an affine form leaves (R116, R117): the pair in its destination, AOV where it is raised, and everything else as it was. -/
structure AffineResult (s t : State) (x : Iss) (n : Fin 32) (d : Opd) (v : Word × Word) (raised : Prop) : Prop where
  pair : GetsAff t x d v
  flag : ∀ j, Iss.On x j → (raised → (laneIn t x j).flg = (laneOf x.w j).flg ||| wd aOV) ∧ (¬raised → (laneIn t x j).flg = (laneOf x.w j).flg)
  rest : Leaves s t x [1024 + n.val] (wd aOV)
theorem affineResult_of {s t : State} {x : Iss} {n : Fin 32} {v : Word × Word} {raised : Prop} {b : Bool} (hb : b = true ↔ raised)
    (hw : warpOf t x = if x.g != 0 then affWarp x n v b (x.stepped s) else x.stepped s) (hl : Leaves s t x [1024 + n.val] (wd aOV)) :
    AffineResult s t x n (.a n) v raised where
  pair := fun hg => by
    rw [hw, if_pos (by simpa using hg)]
    show ((x.stepped s).wrA n.val v).rdA n.val = v
    simp
  flag := fun j hj => by
    obtain ⟨l, e, -, -, hf, -⟩ := laneOf_stepped x s j
    have hlane : laneIn t x j = if b then (laneOf (x.stepped s) j).orFlags aOV else laneOf (x.stepped s) j := by
      rw [laneIn, hw, if_pos (by simpa using on_guard hj), affWarp,
        laneOf_mapLanes _ _ _ _ (show j < ((x.stepped s).wrA n.val v).lanes.length from (stepped_length x s).symm ▸ hj.1), if_pos hj.2]
      rfl
    rw [hlane, e, ← hf, ← hb]
    cases b <;> simp [Lane.orFlags]
  rest := hl

/-! ### The forms -/

/-- An affine form (R116, R117): its pair, and in which lanes the exact value is not the one read. -/
def AffineForm (n : Fin 32) (i : Instr) (d : Opd) (res : Iss → Word × Word) (off : Iss → Nat → Prop) : Prop :=
  d = .a n → Does i never fun s x t =>
    let aov : Prop := ∃ j, inMask x.w.activeSet j = true ∧ off x j
    (¬aov ∨ ∀ l, launchOf s x.w = some l → l.lr.aovt = false) → GetsAff t x d (res x) ∧
      (∀ j, Iss.On x j → (aov → (laneIn t x j).flg = (laneOf x.w j).flg ||| wd aOV) ∧ (¬aov → (laneIn t x j).flg = (laneOf x.w j).flg)) ∧
      Leaves s t x [1024 + n.val] (wd aOV)

/-- AOV is raised exactly where some lane of the active set differs (R117). -/
theorem aovOf_iff {op : AffOp} {sg : Bool} {a b : Word × Word} {m : Mask} :
    aovOf op sg a b m = true ↔ ∃ j, inMask m j = true ∧ aovAt op sg a b j = true := by
  simp only [aovOf, List.any_eq_true, mem_lanesOf]
  refine exists_congr fun j => and_congr_left fun _ => and_iff_right_of_imp fun h => ?_
  by_contra hj
  rw [inMask_ge (Nat.not_lt.mp hj)] at h
  exact Bool.false_ne_true h
/-- Without a trap, the body of an affine-preserving operation writes its pair and raises AOV. -/
theorem run_affBody {t : State} {op : AffOp} {sg : Bool} {n : Fin 32} {a b : Word × Word} {x : Iss}
    (h : aovOf op sg a b x.w.activeSet = false ∨ ∀ l, launchOf t x.w = some l → l.lr.aovt = false) :
    run (affBody op sg (.a n) a b x) t = run (modWarp x.k (affWarp x n (affResult op a b) (aovOf op sg a b x.w.activeSet))) t := by
  unfold affBody
  rw [run_look]
  dsimp only
  rw [run_acts_cons, run_acts_cons, run_acts_nil, if_neg]
  · rfl
  · rcases h with h | h
    · simp [h]
    · cases hl : launchOf t x.w with
      | none => simp
      | some l => simp [h l hl]
/-- An affine-preserving operation issued to an affine destination. -/
theorem affineForm_of {i : Instr} {n : Fin 32} {d : Opd} {op : AffOp} {sg : Bool} {a b : Iss → Word × Word} {price : Iss → List Chg}
    {body : Iss → Nat → Action} {res : Iss → Word × Word} {off : Iss → Nat → Prop} (he : exec i = issue i price never body)
    (hbody : ∀ x id, isAff d = true → body x id = affBody op sg d (a x) (b x) x) (hres : ∀ x, affResult op (a x) (b x) = res x)
    (hoff : ∀ x j, aovAt op sg (a x) (b x) j = true ↔ off x j) : AffineForm n i d res off := by
  rintro rfl s x h
  have haov : aovOf op sg (a x) (b x) x.w.activeSet = true ↔ ∃ j, inMask x.w.activeSet j = true ∧ off x j := by
    simp only [aovOf_iff, hoff]
  by_cases hn : aovOf op sg (a x) (b x) x.w.activeSet = false ∨ ∀ l, launchOf s x.w = some l → l.lr.aovt = false
  · have hrun := run_affBody (t := x.issued (price x) s) (n := n) (by simpa only [launchOf_issued h] using hn)
    obtain ⟨t, ht, hw, hl⟩ := warp_leaves (price := price) (body := body) _ h (by rw [hbody x _ rfl, hrun]) (affWarp_frame x n _ _)
    have hr := affineResult_of haov hw hl
    exact ⟨t, by rw [he, ht], fun _ => ⟨hres x ▸ hr.pair, hr.flag, hr.rest⟩⟩
  · rw [not_or, Bool.not_eq_false, haov] at hn
    exact ⟨_, by rw [he, issue_go h], fun hno => absurd hno (not_or.mpr ⟨not_not.mpr hn.1, hn.2⟩)⟩
/-- An affine register written without a check (R140). -/
theorem affineForm_reg {i : Instr} {n : Fin 32} {d : Opd} {p : Price} {res : Iss → Word × Word}
    (he : exec i = issueReg i p fun x => wrAOpd d (res x)) : AffineForm n i d res fun _ _ => False := by
  rintro rfl s x h
  obtain ⟨t, ht, hw, hl⟩ := warp_leaves (price := fun x => x.price p) (body := fun x _ => modWarp x.k (wrAOpd (.a n) (res x)))
    (affWarp x n (res x) false) h (by rw [funext (affWarp_false x n (res x))]; rfl) (affWarp_frame x n _ _)
  have hr := affineResult_of (raised := ∃ j, inMask x.w.activeSet j = true ∧ False) (by simp) hw hl
  exact ⟨t, by rw [he]; exact ht, fun _ => ⟨hr.pair, hr.flag, hr.rest⟩⟩

/-! ### The pairs of each operation -/

theorem affResult_mul (x y : Word × Word) :
    affResult .mul x y = if x.2 = 0 then (x.1 * y.1, x.1 * y.2) else (x.1 * y.1, x.2 * y.1) := by
  simp only [affResult, BitVec.mul_comm]
theorem affResult_and (x y : Word × Word) :
    affResult .and x y = if x.2 = 0 then (x.1 &&& y.1, x.1 &&& y.2) else (x.1 &&& y.1, x.2 &&& y.1) := by
  simp only [affResult, BitVec.and_comm]
theorem shiftLeft_eq_mul_wd (a : Word) (k : Nat) : a <<< k = a * wd (2 ^ k) := by
  apply BitVec.eq_of_toNat_eq
  simp [wd, Nat.shiftLeft_eq]
theorem affResult_lea (k : Nat) (x y : Word × Word) : affResult (.lea k) x y = (x.1 + y.1 * wd (2 ^ k), x.2 + y.2 * wd (2 ^ k)) := by
  simp only [affResult, shiftLeft_eq_mul_wd]
theorem affResult_shl (x y : Word × Word) : affResult .shl x y = (x.1 <<< y.1.toNat, x.2 <<< y.1.toNat) := by
  simp only [affResult]
  split
  · next h => rw [BitVec.shiftLeft_eq_zero h, BitVec.shiftLeft_eq_zero h]; rfl
  · rfl
theorem aovAt_mul (sg : Bool) (x y : Word × Word) (j : Nat) : aovAt .mul sg x y j = true ↔
    (readW sg x.1 + x.2.toInt * j) * (readW sg y.1 + y.2.toInt * j) ≠
      readW sg (laneVal (if x.2 = 0 then (x.1 * y.1, x.1 * y.2) else (x.1 * y.1, x.2 * y.1)) j) := by
  rw [← affResult_mul]
  exact bne_iff_ne
theorem aovAt_and (sg : Bool) (x y : Word × Word) (j : Nat) : aovAt .and sg x y j = true ↔
    laneVal x j &&& laneVal y j ≠ laneVal (if x.2 = 0 then (x.1 &&& y.1, x.1 &&& y.2) else (x.1 &&& y.1, x.2 &&& y.1)) j := by
  rw [← affResult_and]
  exact bne_iff_ne
theorem aovAt_lea (k : Nat) (sg : Bool) (x y : Word × Word) (j : Nat) : aovAt (.lea k) sg x y j = true ↔
    readW sg x.1 + x.2.toInt * j + (readW sg y.1 + y.2.toInt * j) * 2 ^ k ≠
      readW sg (laneVal (x.1 + y.1 * wd (2 ^ k), x.2 + y.2 * wd (2 ^ k)) j) := by
  rw [← affResult_lea]
  exact bne_iff_ne
/-- The check of a shift, which past the width is of a result that reads as zero (R117). -/
theorem aovAt_shl (sg : Bool) (x y : Word × Word) (j : Nat) : aovAt .shl sg x y j = true ↔
    (readW sg x.1 + x.2.toInt * j) * 2 ^ y.1.toNat ≠ readW sg (laneVal (x.1 <<< y.1.toNat, x.2 <<< y.1.toNat) j) := by
  simp only [aovAt, affResult_shl]
  split
  · next h =>
    have hz : readW sg (laneVal (0#32, 0#32) j) = 0 := by cases sg <;> simp [readW, laneVal]
    rw [BitVec.shiftLeft_eq_zero h, BitVec.shiftLeft_eq_zero h, hz]
    simp
  · rw [bne_iff_ne]

/-- An instruction of an affine-preserving pattern issued to an affine destination. -/
theorem affineForm_issueAff {i : Instr} {n : Fin 32} {d : Opd} {op : AffOp} {sg wide : Bool} {a b : Iss → Word × Word} {f : Iss → Nat → DWord}
    {res : Iss → Word × Word} {off : Iss → Nat → Prop} (he : exec i = issueAff i d op sg a b wide f)
    (hres : ∀ x, affResult op (a x) (b x) = res x) (hoff : ∀ x j, aovAt op sg (a x) (b x) j = true ↔ off x j) : AffineForm n i d res off :=
  affineForm_of he (fun _ _ h => if_pos h) hres hoff

/-- Settles O18: the body of an affine-preserving operation writes the pair and raises AOV by the check of R117; the forms of R140 only write. -/
theorem affineForms : Obligations.AffineForms := by
  intro c ty wide uns k f1 f2 n o r
  refine ⟨affineForm_of (op := .add) rfl (fun _ _ h => if_pos h) (fun _ => rfl) fun _ _ => bne_iff_ne,
    affineForm_issueAff (op := .add) rfl (fun _ => rfl) fun _ _ => bne_iff_ne,
    affineForm_of (op := .sub) rfl (fun _ _ h => if_pos h) (fun _ => rfl) fun _ _ => bne_iff_ne,
    affineForm_issueAff (op := .sub) rfl (fun _ => rfl) fun _ _ => bne_iff_ne,
    affineForm_issueAff (op := .mul) rfl (fun _ => affResult_mul _ _) fun _ _ => aovAt_mul _ _ _ _,
    affineForm_issueAff (op := .mul) rfl (fun _ => affResult_mul _ _) fun _ _ => aovAt_mul _ _ _ _,
    affineForm_issueAff (op := .lea k.toNat) rfl (fun _ => affResult_lea _ _ _) fun _ _ => aovAt_lea _ _ _ _ _,
    affineForm_issueAff (op := .shl) rfl (fun _ => affResult_shl _ _) fun _ _ => aovAt_shl _ _ _ _,
    affineForm_issueAff (op := .and) rfl (fun _ => affResult_and _ _) fun _ _ => aovAt_and _ _ _ _,
    affineForm_issueAff (op := .and) rfl (fun _ => affResult_and _ _) fun _ _ => aovAt_and _ _ _ _,
    affineForm_issueAff (op := .mov) rfl (fun _ => rfl) fun _ _ => by simp [aovAt],
    affineForm_reg rfl, affineForm_reg rfl, fun hd => ?_⟩
  refine does_imp (does_aff (op := .lea k.toNat) rfl hd) fun s x t ⟨hv, hl⟩ => ⟨gets_congr hv fun j => ?_, hl⟩
  rw [show bw false = 32 from rfl]
  simp [zx64, Nat.shiftLeft_eq]

end Sys2Proof.Machine
end

section
/-! Conversions (R104, R161 to R165): the flags that they can raise, what a conversion leaves in its warp, and what one through a format slot
holds. -/
namespace Sys2Proof.Machine
open Sys2Proof.Safety

/-! ### Flags of conversions (R111, R112) -/

/-- No flag but those of floating-point results and SAT. -/
def CvtFlags (f : Nat) : Prop := wd f &&& ~~~((0x1F : Word) ||| wd iSAT) = 0
theorem cvtFlags_or {a b : Nat} (ha : CvtFlags a) (hb : CvtFlags b) : CvtFlags (a ||| b) := by
  have h : wd (a ||| b) = wd a ||| wd b := by simp [wd, BitVec.ofNat_or]
  unfold CvtFlags at *
  rw [h, BitVec.and_or_distrib_right, ha, hb]
  rfl
theorem cvtFlags_zero : CvtFlags 0 := by unfold CvtFlags; decide
theorem cvtFlags_iv : CvtFlags fIV := by unfold CvtFlags; decide
theorem cvtFlags_nx : CvtFlags fNX := by unfold CvtFlags; decide
theorem cvtFlags_sat : CvtFlags iSAT := by unfold CvtFlags; decide
theorem cvtFlags_roundMag (f : FFmt) (mode : Rnd) (sat : Bool) (r : Nat) (neg : Bool) (n : Nat) (e : Int) (st : Bool) :
    CvtFlags (roundMag f mode sat r neg n e st).2 := by
  have hof : CvtFlags fOF := by unfold CvtFlags; decide
  have huf : CvtFlags (fNX + fUF) := by unfold CvtFlags; decide
  have hfl (p q : Prop) [Decidable p] [Decidable q] : CvtFlags (if p then 0 else fNX + if q then fUF else 0) := by
    split_ifs
    exacts [cvtFlags_zero, huf, cvtFlags_nx]
  unfold roundMag
  dsimp only
  rw [apply_ite Prod.snd]
  exact iteInduction (fun _ => hfl _ _) fun _ => cvtFlags_or (cvtFlags_or (hfl _ _) hof) cvtFlags_nx
theorem cvtFlags_convert (f : FFmt) (mode : Rnd) (sat : Bool) (r : Nat) (v : FVal) : CvtFlags (convert f mode sat r v).2 := by
  cases v with
  | nan sig => cases sig; exacts [cvtFlags_zero, cvtFlags_iv]
  | inf neg =>
    show CvtFlags (if sat then _ else if f.e4m3 then _ else _ : Nat × Nat).2
    split_ifs
    exacts [cvtFlags_zero, cvtFlags_iv, cvtFlags_zero]
  | fin neg n e =>
    show CvtFlags (if n = 0 then _ else _ : Nat × Nat).2
    split_ifs
    exacts [cvtFlags_zero, cvtFlags_roundMag _ _ _ _ _ _ _ _]
theorem cvtFlags_toInt (mode : Rnd) (r : Nat) (lo hi : Int) (v : FVal) : CvtFlags (toInt mode r lo hi v).2 := by
  cases v with
  | nan sig => exact cvtFlags_iv
  | inf neg => exact cvtFlags_iv
  | fin neg n e =>
    unfold toInt
    dsimp only
    rw [apply_ite Prod.snd, apply_ite Prod.snd]
    exact iteInduction (fun _ => cvtFlags_iv) fun _ => iteInduction (fun _ => cvtFlags_iv) fun _ =>
      iteInduction (motive := CvtFlags) (fun _ => cvtFlags_zero) fun _ => cvtFlags_nx
theorem cvtFlags_saturate (ty : ITy) (v : Int) : CvtFlags (saturate ty v).2 := by
  unfold saturate
  split_ifs
  exacts [cvtFlags_sat, cvtFlags_sat, cvtFlags_zero]
theorem cvtFlags_toIntTy (ty : ITy) (sf : SrcF) (rm : Rnd) (sat : Bool) (b r : Nat) : CvtFlags (toIntTy ty sf rm sat b r).2 := by
  unfold toIntTy
  split_ifs
  exacts [cvtFlags_toInt _ _ _ _ _, cvtFlags_saturate _ _, cvtFlags_zero]
theorem cvtFlags_cvtElems {rm : Rnd} {w : Nat} {f : Nat → Nat → Nat × Nat} (hf : ∀ b r, CvtFlags (f b r).2) (l : List (Nat × Nat)) (gs : DWord) :
    CvtFlags (cvtElems rm w f l gs).1.2 := by
  induction l generalizing gs with
  | nil => exact cvtFlags_zero
  | cons e r ih => exact cvtFlags_or (hf _ _) (ih _)

/-! ### Generator states written -/

/-- The generator state of each lane of a set written. -/
def Warp.seed (m : Mask) (gs : Nat → DWord) (w : Warp) : Warp := w.mapLanes m fun i l => { l with gs := gs i }
theorem laneOf_seed (m : Mask) (gs : Nat → DWord) (w : Warp) (j : Nat) : ∃ g, laneOf (w.seed m gs) j = { laneOf w j with gs := g } := by
  by_cases hj : j < w.lanes.length
  · rw [Warp.seed, laneOf_mapLanes _ _ _ _ hj]
    split
    · exact ⟨_, rfl⟩
    · exact ⟨_, rfl⟩
  · exact ⟨0, by rw [laneOf_absent _ _ (by simpa [Warp.seed] using hj), laneOf_absent _ _ (by simpa using hj)]; rfl⟩
theorem gs_seed (m : Mask) (gs : Nat → DWord) (w : Warp) {j : Nat} (hj : j < w.lanes.length) (hm : inMask m j = true) :
    (laneOf (w.seed m gs) j).gs = gs j := by
  rw [Warp.seed, laneOf_mapLanes _ _ _ _ hj, if_pos hm]
theorem seed_frame {w u : Warp} {g : Mask} {keys : List Nat} {flags : Word} (gs : Nat → DWord) (hk : 4096 ∈ keys) (h : WFrame w u g keys flags) :
    WFrame w (u.seed g gs) g keys flags :=
  h.trans (WFrame.lanes (fun _ _ _ _ _ => rfl) (fun _ _ _ _ _ => rfl) (fun _ _ => rfl) fun _ _ hn => absurd hk hn)

/-! ### A conversion -/

section
variable {t u : State} {x : Iss} {d : Opd} {wide : Bool}
/-- A result is read from the registers only. -/
theorem gets_of_registers {f : Nat → Int} (h : Gets u x d wide f) (hv : ∀ j, (laneIn t x j).v = (laneIn u x j).v)
    (hs : (warpOf t x).s = (warpOf u x).s) : Gets t x d wide f := by
  have hrd : ∀ j, (laneIn t x j).rd = (laneIn u x j).rd := fun j => funext fun r => by rw [Lane.rd, Lane.rd, hv]
  have hrdS : (warpOf t x).rdS = (warpOf u x).rdS := funext fun r => by rw [Warp.rdS, Warp.rdS, hs]
  unfold Gets at *
  simpa only [hrd, hrdS] using h
theorem flags_of_lanes {f : Nat → Nat} (h : Flags u x d f) (hf : ∀ j, (laneIn t x j).flg = (laneIn u x j).flg) : Flags t x d f :=
  fun j hj => (hf j).trans (h j hj)
end

/-- What a conversion leaves (R162): its elements with their flags, and under RS the generator state after the last of them. -/
theorem does_cvt {i : Instr} {d : Opd} {wide : Bool} {rm : Rnd} {w : Nat} {els : Iss → Nat → List (Nat × Nat)} {f : Nat → Nat → Nat × Nat}
    (he : exec i = issueCvt i d wide rm w els f) (hf : ∀ b r, CvtFlags (f b r).2) :
    Does i never fun s x t =>
      let r (j : Nat) := cvtElems rm w f (els x j) (laneOf x.w j).gs
      Gets t x d wide (fun j => (r j).1.1) ∧ Flags t x d (fun j => (r j).1.2) ∧
      (rm = .rs → ∀ j, Iss.On x j → (laneIn t x j).gs = (r j).2) ∧
      Leaves s t x (spanKeys (d, wn wide) ++ if rm = .rs then [4096] else []) (0x1F ||| wd iSAT) := by
  let r (x : Iss) (j : Nat) := cvtElems rm w f (els x j) (laneOf x.w j).gs
  let put (x : Iss) (v : Warp) : Warp := x.put d wide (fun j => (dw (r x j).1.1, (r x j).1.2)) v
  have hput (x : Iss) (v : Warp) : WFrame v (put x v) x.g (spanKeys (d, wn wide) ++ if rm = .rs then [4096] else []) (0x1F ||| wd iSAT) :=
    WFrame.write rfl (fun _ h => List.mem_append_left _ h) fun _ => cvtFlags_cvtElems hf _ _
  have hbody (x : Iss) (v : Warp) : cvtBody d wide rm w els f x v = if rm == .rs then (put x v).seed x.g (fun j => (r x j).2) else put x v := rfl
  have hframe (x : Iss) (v : Warp) : WFrame v (cvtBody d wide rm w els f x v) x.g (spanKeys (d, wn wide) ++ if rm = .rs then [4096] else [])
      (0x1F ||| wd iSAT) := by
    rw [hbody]
    split
    · next h => exact seed_frame _ (by simp [show rm = .rs by simpa using h]) (hput x v)
    · exact hput x v
  refine does_imp (does_reg (cvtBody d wide rm w els f) he (fun _ _ _ => rfl) hframe) fun s x t ⟨hw, hl⟩ => ?_
  let u := applyUpd t (.warp x.k (some (if x.g != 0 then put x (x.stepped s) else x.stepped s)))
  have hu : warpOf u x = if x.g != 0 then put x (x.stepped s) else x.stepped s := by simp [u, warpOf]
  have hs : (warpOf t x).s = (warpOf u x).s := by
    rw [hw, hu, hbody]
    split_ifs <;> rfl
  have hlane (j : Nat) : (laneIn t x j).v = (laneIn u x j).v ∧ (laneIn t x j).flg = (laneIn u x j).flg := by
    rw [laneIn, laneIn, hw, hu, hbody]
    split_ifs
    · obtain ⟨g, hg⟩ := laneOf_seed x.g (fun j => (r x j).2) (put x (x.stepped s)) j
      rw [hg]
      exact ⟨rfl, rfl⟩
    · exact ⟨rfl, rfl⟩
    · exact ⟨rfl, rfl⟩
  refine ⟨gets_congr (gets_of_registers (gets_last hu) (fun j => (hlane j).1) hs) fun j => ?_,
    flags_of_lanes (flags_last hu) fun j => (hlane j).2, fun hrs j hj => ?_, hl⟩
  · show ((dw (r x j).1.1).toNat : Int) % 2 ^ bw wide = ((r x j).1.1 : Int) % 2 ^ bw wide
    rw [dw, BitVec.toNat_ofNat]
    push_cast
    exact Int.emod_emod_of_dvd _ (by cases wide <;> norm_num [bw])
  · rw [laneIn, hw, if_pos (by simpa using on_guard hj), hbody, if_pos (by rw [hrs]; rfl)]
    refine gs_seed _ _ _ ?_ hj.2
    rw [(hput x _).len, stepped_length]
    exact hj.1

/-! ### A conversion through a format slot -/

theorem put_put {α : Type} (m : SMap α) (k : Nat) (v w : α) : put (put m k v) k w = put m k w := by
  induction m with
  | nil => simp [put]
  | cons e r ih =>
    obtain ⟨n, y⟩ := e
    by_cases h1 : k < n
    · simp [put, h1]
    · by_cases h2 : k = n
      · simp [put, h2]
      · simp [put, h1, h2, ih]
/-- Two changes of one warp are one. -/
theorem run_modWarp_twice (k : Nat) (f g : Warp → Warp) (t : State) :
    run (acts [modWarp k f, modWarp k g]) t = run (modWarp k fun w => g (f w)) t := by
  rw [run_acts_cons, run_acts_cons, run_acts_nil]
  cases hw : find t.warps k with
  | none => rw [run_modWarp_none _ _ _ hw, run_modWarp_none _ _ _ hw, run_modWarp_none _ _ _ hw]
  | some w =>
    rw [run_modWarp _ _ _ w hw, run_modWarp _ _ _ w hw, run_modWarp _ _ _ (f w) (by simp)]
    simp [applyUpd, putO, put_put]

section
variable {i : Instr} {busy : Iss → State → Bool} {s t : State} {x : Iss}
/-- Issuing leaves the format slots of a warp. -/
theorem slotDesc_issued (h : Issues i busy s x) (price : List Chg) (w : Warp) (k : Nat) : slotDesc (x.issued price s) w k = slotDesc s w k := by
  simp only [slotDesc, launchOf_issued h]
/-- An instruction whose slot is bound and suits it (R163). -/
theorem run_withSlot {bad : BitVec 128 → Bool} {f : BitVec 128 → Action} {desc : BitVec 128}
    (hd : slotDesc t x.w (ctlOf x.i).fmt.toNat = some desc) (hok : bad desc = false) : run (withSlot x bad f) t = run (f desc) t := by
  unfold withSlot
  rw [run_look, hd]
  simp only [hok, Bool.false_eq_true, if_false]
/-- What an unfinished register instruction of a warp holds (R69). -/
theorem held_of_outs {d : Opd} {n id : Nat} {f : Nat → BitVec 128 × Nat} (h : Issues i busy s x)
    (ho : x.g ≠ 0 → (warpOf t x).outs = x.w.outs ++ [x.out id .alu (x.res d n f)]) :
    Held t x id d n (fun j => (f j).1) (fun j => (f j).2) := by
  refine fun hg => ⟨_, ho hg, rfl, rfl, rfl, rfl, rfl, (res_dst d n f).1, (res_dst d n f).2, ?_⟩
  have lane (hd : ∀ r, d ≠ .s r) (j : Nat) (hj : Iss.On x j) : nth (x.res d n f).vals j 0 = (f j).1 ∧ nth (x.res d n f).flags j 0 = (f j).2 :=
    res_lane hd n f (issOf_width h.1 hj.2) hj.2
  cases d with
  | s r => exact res_uniform r n f
  | _ => exact lane nofun

/-- A warp that holds one more unfinished instruction, the generator of its guard-true lanes advanced where one draws (R104, R166). -/
def heldWarp (x : Iss) (o : Outst) (gen : Bool) (gs : Nat → DWord) (w : Warp) : Warp :=
  if gen then (w.holding o).seed x.g gs else w.holding o
theorem heldWarp_outs (o : Outst) (gen : Bool) (gs : Nat → DWord) (w : Warp) : (heldWarp x o gen gs w).outs = w.outs ++ [o] := by
  cases gen <;> rfl
theorem heldWarp_frame (o : Outst) (gen : Bool) (gs : Nat → DWord) (w : Warp) :
    WFrame w (heldWarp x o gen gs w) x.g (if gen then [4096] else []) 0 := by
  have h := holding_frame o (WFrame.refl w x.g (if gen then [4096] else []) 0)
  cases gen
  · exact h
  · exact seed_frame gs List.mem_cons_self h
/-- The record of a conversion through a slot: the result of each lane, and its flags. -/
def slotOut (x : Iss) (id : Nat) (d : Opd) (g : Nat → (Nat × Nat) × DWord) : Outst :=
  x.out id .alu (x.res d 1 fun j => (BitVec.ofNat 128 (g j).1.1, (g j).1.2))
/-- An instruction that only holds results, and advances the generator where one draws. -/
theorem holds_results {price : Iss → List Chg} {body : Iss → Nat → Action} {d : Opd} {gen : Bool} (g : Nat → (Nat × Nat) × DWord)
    (h : Issues i never s x) (hb : run (body x s.nextId) (x.issued (price x) s) =
      run (modWarp x.k (heldWarp x (slotOut x s.nextId d g) gen fun j => (g j).2)) (x.issued (price x) s)) :
    ∃ t, issue i price never body s = .next t ∧
      Held t x s.nextId d 1 (fun j => BitVec.ofNat 128 (g j).1.1) (fun j => (g j).1.2) ∧
      (gen = true → ∀ j, Iss.On x j → (laneIn t x j).gs = (g j).2) ∧ Leaves s t x (if gen then [4096] else []) 0 := by
  obtain ⟨t, ht, hw, hl⟩ := warp_leaves _ h hb (heldWarp_frame _ _ _)
  refine ⟨t, ht, held_of_outs (f := fun j => (BitVec.ofNat 128 (g j).1.1, (g j).1.2)) h fun hg => ?_, fun hgen j hj => ?_, hl⟩
  · rw [hw, if_pos (by simpa using hg), heldWarp_outs]
    rfl
  · subst hgen
    rw [laneIn, hw, if_pos (by simpa using on_guard hj)]
    exact gs_seed _ _ _ (show j < (x.stepped s).lanes.length from (stepped_length x s).symm ▸ hj.1) hj.2
/-- An instruction through a slot that suits it, which only holds results. -/
theorem holds_through_slot {p : Price} {bad : BitVec 128 → Bool} {f : Iss → Nat → BitVec 128 → Action} {desc : BitVec 128} {d : Opd} {gen : Bool}
    {g : Nat → (Nat × Nat) × DWord} (he : exec i = issueLong i p never fun x id => withSlot x bad (f x id)) (h : Issues i never s x)
    (hd : slotDesc s x.w (ctlOf i).fmt.toNat = some desc) (hok : bad desc = false)
    (hf : ∀ t, run (f x s.nextId desc) t = run (modWarp x.k (heldWarp x (slotOut x s.nextId d g) gen fun j => (g j).2)) t) :
    ∃ t, exec i s = .next t ∧ Held t x s.nextId d 1 (fun j => BitVec.ofNat 128 (g j).1.1) (fun j => (g j).1.2) ∧
      (gen = true → ∀ j, Iss.On x j → (laneIn t x j).gs = (g j).2) ∧ Leaves s t x (if gen then [4096] else []) 0 := by
  rw [he]
  refine holds_results g h ?_
  rw [run_withSlot (by rwa [slotDesc_issued h, issOf_ins h.1]) hok]
  exact hf _
/-- The elements of a conversion through a slot are held, and the generator advances at issue (R166). -/
theorem run_performCvtf (d : Opd) (rm : Rnd) (f : Nat → Nat → Nat × Nat) (src : Nat → Nat) (id : Nat) (t : State) :
    let g (j : Nat) := cvtElems rm 32 f [(0, src j)] (laneOf x.w j).gs
    run (performCvtf d rm f src x id) t = run (modWarp x.k (heldWarp x (slotOut x id d g) (rm == .rs) fun j => (g j).2)) t := by
  intro g
  unfold performCvtf
  cases rm == .rs
  · rw [run_acts_cons, run_acts_cons, run_acts_nil]
    rfl
  · exact run_modWarp_twice x.k _ _ t
theorem wbits_low_byte (v : Word) : wbits v 0 8 = v.toNat % 256 := by simp [wbits, nbits]
end

/-- Settles O16: a conversion writes its elements, their flags and the state of the generator; one through a slot that suits it holds them. -/
theorem conversions : Obligations.Conversions := by
  refine ⟨fun c sf rm sat o => ?_, fun c rm slot sat k o desc => ⟨fun s x h hd hok => ?_, fun s x h hd hok => ?_, fun s x h hd hok => ?_⟩⟩
  · have float (f : FFmt) (b r : Nat) : CvtFlags (toFloat f sf rm sat b r).2 := cvtFlags_convert _ _ _ _ _
    have int (ty : ITy) := cvtFlags_toIntTy ty sf rm sat
    exact ⟨does_cvt rfl (float _), does_cvt rfl (float _), does_cvt rfl (float _), does_cvt rfl (float _), does_cvt rfl (float _),
      does_cvt rfl (int _), does_cvt rfl (int _), does_cvt rfl (int _), does_cvt rfl (int _)⟩
  · exact holds_through_slot rfl h hd (by simpa using hok) fun t => run_performCvtf _ _ _ _ _ t
  · rw [Bool.and_eq_true, decide_eq_true_eq] at hok
    refine holds_through_slot rfl h hd (by simpa using hok.1) fun t => ?_
    dsimp only
    rw [if_neg (Nat.not_le.mpr hok.2)]
    exact run_performCvtf _ _ _ _ _ t
  · refine holds_through_slot (gen := false) rfl h hd (by simpa using hok) fun t => ?_
    simp only [wbits_low_byte]
    rfl

end Sys2Proof.Machine
end

section
/-! The numbers of a format (R91, R92): the magnitudes of its encodings, in their order, and the encoding that a rounded magnitude gets (R103). -/
namespace Sys2Proof.Machine
open Sys2Proof.Safety

/-! ### Magnitudes of encodings -/

/-- The number that the bits of an encoding below its sign stand for (R92). -/
def FFmt.mag (f : FFmt) (enc : ℕ) : ℚ :=
  if enc / 2 ^ (f.p - 1) = 0 then (enc % 2 ^ (f.p - 1) : ℕ) * 2 ^ f.qmin
  else (2 ^ (f.p - 1) + enc % 2 ^ (f.p - 1) : ℕ) * 2 ^ (f.qmin + (((enc / 2 ^ (f.p - 1) : ℕ) : ℤ) - 1))

/-- A format of precision `p`, least exponent `emin` and greatest number `top`: its fields fill its width, and its greatest finite encoding
lies below those of an infinity and of a NaN (R91). -/
structure IsFormat (f : FFmt) (p : ℕ) (emin : ℤ) (top : ℚ) : Prop where
  prec : f.p = p
  least : f.emin = emin
  two_le : 2 ≤ f.p
  le_24 : f.p ≤ 24
  width : f.w - 1 = f.p - 1 + f.eb
  width_pos : 0 < f.w
  normal : 2 ^ (f.p - 1) ≤ f.maxEnc
  below : f.maxEnc < 2 ^ (f.w - 1)
  finite : f.e4m3 = false → f.maxEnc / 2 ^ (f.p - 1) ≠ 2 ^ f.eb - 1
  noNan : f.e4m3 = true → f.w = 8 ∧ f.maxEnc < 0x7F
  greatest : f.mag f.maxEnc = top

theorem isFormat_fp32 : IsFormat fp32 24 (-126) ((2 ^ 24 - 1) * 2 ^ 104) :=
  ⟨rfl, rfl, by decide, by decide, rfl, by decide, by decide, by decide, by decide, by decide, by norm_num [FFmt.mag, fp32, FFmt.qmin, FFmt.emin]⟩
theorem isFormat_fp16 : IsFormat fp16 11 (-14) 65504 :=
  ⟨rfl, rfl, by decide, by decide, rfl, by decide, by decide, by decide, by decide, by decide, by norm_num [FFmt.mag, fp16, FFmt.qmin, FFmt.emin]⟩
theorem isFormat_bf16 : IsFormat bf16 8 (-126) ((2 ^ 8 - 1) * 2 ^ 120) :=
  ⟨rfl, rfl, by decide, by decide, rfl, by decide, by decide, by decide, by decide, by decide, by norm_num [FFmt.mag, bf16, FFmt.qmin, FFmt.emin]⟩
theorem isFormat_e4m3 : IsFormat e4m3 4 (-6) 448 :=
  ⟨rfl, rfl, by decide, by decide, rfl, by decide, by decide, by decide, by decide, by decide, by norm_num [FFmt.mag, e4m3, FFmt.qmin, FFmt.emin]⟩
theorem isFormat_e5m2 : IsFormat e5m2 3 (-14) 57344 :=
  ⟨rfl, rfl, by decide, by decide, rfl, by decide, by decide, by decide, by decide, by decide, by norm_num [FFmt.mag, e5m2, FFmt.qmin, FFmt.emin]⟩

/-- The factor of a sign. -/
def sgn (neg : Bool) : ℚ := if neg then -1 else 1
@[simp] theorem sgn_false : sgn false = 1 := rfl
@[simp] theorem sgn_true : sgn true = -1 := rfl

section
variable {f : FFmt}
/-- The encoding of `m` spacings at the `j`-th exponent, also where `m` is the first of the next exponent. -/
theorem mag_encode {j m : ℕ} (hm : m ≤ 2 * 2 ^ (f.p - 1)) (hj : j = 0 ∨ 2 ^ (f.p - 1) ≤ m) :
    f.mag (j * 2 ^ (f.p - 1) + m) = m * 2 ^ (f.qmin + j) := by
  have hB : 0 < 2 ^ (f.p - 1) := by positivity
  unfold FFmt.mag
  generalize 2 ^ (f.p - 1) = B at *
  rcases lt_or_ge m B with hlt | hge
  · obtain rfl : j = 0 := hj.resolve_right (by omega)
    simp [Nat.div_eq_of_lt hlt, Nat.mod_eq_of_lt hlt]
  rcases hm.lt_or_eq with hlt | rfl
  · obtain ⟨r, rfl⟩ := Nat.exists_eq_add_of_le hge
    have hr : r < B := by omega
    have e : j * B + (B + r) = r + B * (j + 1) := by ring
    rw [e, Nat.add_mul_div_left _ _ hB, Nat.add_mul_mod_self_left, Nat.div_eq_of_lt hr, Nat.mod_eq_of_lt hr, if_neg (by omega)]
    push_cast
    congr 2
    ring
  · have e : j * B + 2 * B = 0 + B * (j + 2) := by ring
    rw [e, Nat.add_mul_div_left _ _ hB, Nat.add_mul_mod_self_left, Nat.zero_div, Nat.zero_mod, if_neg (by omega)]
    push_cast
    rw [show f.qmin + (0 + ((j : ℤ) + 2) - 1) = f.qmin + j + 1 by ring, zpow_add_one₀ two_ne_zero]
    ring
/-- Greater encodings stand for greater numbers. -/
theorem mag_strictMono (f : FFmt) : StrictMono f.mag := by
  refine strictMono_nat_of_lt_succ fun n => ?_
  have hB : 0 < 2 ^ (f.p - 1) := by positivity
  obtain ⟨j, m, rfl, hm, hj⟩ : ∃ j m, n = j * 2 ^ (f.p - 1) + m ∧ m < 2 * 2 ^ (f.p - 1) ∧ (j = 0 ∨ 2 ^ (f.p - 1) ≤ m) := by
    generalize 2 ^ (f.p - 1) = B at *
    have hdiv := Nat.div_add_mod n B
    have hmod := Nat.mod_lt n hB
    rcases Nat.eq_zero_or_pos (n / B) with h | h
    · exact ⟨0, n, by omega, by rw [h] at hdiv; omega, .inl rfl⟩
    · obtain ⟨j, hj⟩ := Nat.exists_eq_add_of_le h
      refine ⟨j, B + n % B, ?_, by omega, .inr (by omega)⟩
      rw [hj] at hdiv
      have : B * (Nat.succ 0 + j) = j * B + B := by rw [Nat.succ_eq_add_one]; ring
      omega
  rw [add_assoc, mag_encode hm.le hj, mag_encode hm (by omega)]
  have : (0 : ℚ) < 2 ^ (f.qmin + j) := by positivity
  push_cast
  nlinarith
/-- The bits below the sign are those of the magnitude. -/
theorem nbits_signed (neg : Bool) (enc : ℕ) {lo n : ℕ} (h : lo + n ≤ f.w - 1) : nbits (f.signed neg enc) lo n = enc / 2 ^ lo % 2 ^ n := by
  obtain ⟨r, hr⟩ := Nat.exists_eq_add_of_le h
  have e : b2n neg * 2 ^ (lo + n + r) + enc = enc + 2 ^ lo * (2 ^ n * (2 ^ r * b2n neg)) := by ring
  rw [nbits, FFmt.signed, hr, e, Nat.add_mul_div_left _ _ (by positivity), Nat.add_mul_mod_self_left]
theorem signed_lt {p : ℕ} {emin : ℤ} {top : ℚ} (hf : IsFormat f p emin top) (neg : Bool) {enc : ℕ} (h : enc ≤ f.maxEnc) :
    f.signed neg enc < 2 ^ f.w := by
  have hlt := h.trans_lt hf.below
  have hw : 2 ^ f.w = 2 * 2 ^ (f.w - 1) := by rw [← pow_succ', Nat.sub_add_cancel hf.width_pos]
  rw [hw, FFmt.signed]
  cases neg <;> simp [b2n] <;> omega
/-- An encoding up to the greatest finite one, with a sign, stands for its magnitude with that sign. -/
theorem numOf_decode_signed {p : ℕ} {emin : ℤ} {top : ℚ} (hf : IsFormat f p emin top) (neg : Bool) {enc : ℕ} (h : enc ≤ f.maxEnc) :
    numOf (f.decode (f.signed neg enc)) = some (sgn neg * f.mag enc) := by
  have hlt : enc < 2 ^ (f.p - 1 + f.eb) := hf.width ▸ h.trans_lt hf.below
  have hsign : (nbits (f.signed neg enc) (f.w - 1) 1 == 1) = neg := by
    rw [nbits, FFmt.signed, hf.width, Nat.add_comm, Nat.add_mul_div_right _ _ (by positivity), Nat.div_eq_of_lt hlt]
    cases neg <;> rfl
  have hlow {lo n : ℕ} (hn : lo + n ≤ f.w - 1) := nbits_signed (f := f) neg enc hn
  have hexp : nbits (f.signed neg enc) (f.p - 1) f.eb = enc / 2 ^ (f.p - 1) := by
    rw [hlow (by rw [hf.width]), Nat.mod_eq_of_lt]
    exact Nat.div_lt_of_lt_mul (by rwa [← pow_add])
  have hfrac : nbits (f.signed neg enc) 0 (f.p - 1) = enc % 2 ^ (f.p - 1) := by
    rw [hlow (by rw [hf.width]; omega)]
    simp
  have hnan : (f.e4m3 && nbits (f.signed neg enc) 0 7 == 0x7F) = false := by
    rw [Bool.and_eq_false_imp]
    intro h8
    obtain ⟨hw, hmax⟩ := hf.noNan h8
    rw [hlow (by omega), pow_zero, Nat.div_one, Nat.mod_eq_of_lt (by omega)]
    simp
    omega
  have hinf : (!f.e4m3 && nbits (f.signed neg enc) (f.p - 1) f.eb == 2 ^ f.eb - 1) = false := by
    rw [hexp, Bool.and_eq_false_imp]
    intro h8
    have hne := hf.finite (by simpa using h8)
    have hle : enc / 2 ^ (f.p - 1) ≤ f.maxEnc / 2 ^ (f.p - 1) := Nat.div_le_div_right h
    have hmax : f.maxEnc / 2 ^ (f.p - 1) < 2 ^ f.eb := Nat.div_lt_of_lt_mul (by rw [← pow_add, ← hf.width]; exact hf.below)
    simp
    omega
  unfold FFmt.decode FFmt.mag
  dsimp only
  rw [hnan, hinf, hsign, hexp, hfrac, if_neg Bool.false_ne_true, if_neg Bool.false_ne_true]
  split
  · exact congrArg some (mul_assoc _ _ _)
  · exact congrArg some (mul_assoc _ _ _)
end

/-! ### The encoding of a rounded magnitude -/

/-- The encoding and the flags of a magnitude that has been rounded, the greatest number or an infinity where it is too great (R103). -/
def FFmt.pack (f : FFmt) (mode : Rnd) (sat neg : Bool) (enc fl : ℕ) : ℕ × ℕ :=
  if enc ≤ f.maxEnc then (f.signed neg enc, fl)
  else
    let toMax := sat || mode == .rz || (mode == .ru && neg) || (mode == .rd && !neg)
    (if toMax then f.signed neg f.maxEnc else if f.e4m3 then f.nan else f.inf neg, (fl ||| fOF) ||| fNX)

theorem abs_signed {neg : Bool} {a y : ℚ} (ha : 0 ≤ a) (hy : y = sgn neg * a) : |y| = a := by
  rw [hy]
  cases neg <;> simp [abs_of_nonneg ha]

section
variable {f : FFmt} {p : ℕ} {emin : ℤ} {top : ℚ} (hf : IsFormat f p emin top) {j m : ℕ} (hm : m ≤ 2 * 2 ^ (f.p - 1)) (hj : j = 0 ∨ 2 ^ (f.p - 1) ≤ m)
include hf hm hj
/-- A magnitude is finite exactly where it is at most the greatest number. -/
theorem encoded_le_top : (m : ℚ) * 2 ^ (f.qmin + j) ≤ top ↔ j * 2 ^ (f.p - 1) + m ≤ f.maxEnc := by
  rw [← hf.greatest, ← mag_encode hm hj, (mag_strictMono f).le_iff_le]
variable {mode : Rnd} {sat neg : Bool} {x y : ℚ} {fl : ℕ} (hneg : neg = true ↔ x < 0) (hy : y = sgn neg * (m * 2 ^ (f.qmin + j)))
include hneg hy
/-- A rounded number that is not too great is encoded as it is. -/
theorem pack_finite (htop : |y| ≤ top) : numOf (f.decode (f.pack mode sat neg (j * 2 ^ (f.p - 1) + m) fl).1) = some y ∧
    (f.pack mode sat neg (j * 2 ^ (f.p - 1) + m) fl).1 < 2 ^ f.w ∧
    (y = 0 → (f.pack mode sat neg (j * 2 ^ (f.p - 1) + m) fl).1 = if x < 0 then 2 ^ (f.w - 1) else 0) ∧
    (f.pack mode sat neg (j * 2 ^ (f.p - 1) + m) fl).2 = fl := by
  have habs := abs_signed (by positivity) hy
  rw [habs, encoded_le_top hf hm hj] at htop
  rw [FFmt.pack, if_pos htop]
  refine ⟨?_, signed_lt hf neg htop, fun h0 => ?_, rfl⟩
  · rw [numOf_decode_signed hf neg htop, mag_encode hm hj, hy]
  · rw [h0, abs_zero, eq_comm, mul_eq_zero, or_iff_left (zpow_ne_zero _ two_ne_zero), Nat.cast_eq_zero] at habs
    subst habs
    obtain rfl : j = 0 := hj.resolve_right (by simp)
    simp only [← hneg, FFmt.signed]
    cases neg <;> simp [b2n]
/-- One that is too great gives the greatest number or an infinity, as the mode and the sign say. -/
theorem pack_overflow (hx : x ≠ 0) (htop : top < |y|) (hfl : fl = 0 ∨ fl = fNX) :
    (f.pack mode sat neg (j * 2 ^ (f.p - 1) + m) fl).2 = fOF + fNX ∧ (f.pack mode sat neg (j * 2 ^ (f.p - 1) + m) fl).1 =
      if sat = true ∨ mode = .rz ∨ mode = .ru ∧ x < 0 ∨ mode = .rd ∧ 0 < x then f.signed (x < 0) f.maxEnc
      else if f.e4m3 then f.nan else f.inf (x < 0) := by
  rw [abs_signed (by positivity) hy, ← not_le, encoded_le_top hf hm hj] at htop
  have hpos : neg = false ↔ 0 < x := by
    rw [← Bool.not_eq_true, hneg, not_lt]
    exact ⟨fun h => h.lt_of_ne hx.symm, le_of_lt⟩
  have hdec : decide (x < 0) = neg := by rw [← Bool.coe_iff_coe, decide_eq_true_iff, hneg]
  rw [FFmt.pack, if_neg htop, hdec]
  refine ⟨by rcases hfl with rfl | rfl <;> rfl, if_congr ?_ rfl rfl⟩
  simp [← hneg, ← hpos, or_assoc]
end

end Sys2Proof.Machine
end

section
/-! Round (R103): a magnitude rounded to its nearest spacings is Round of the number it is of, in every mode. -/
namespace Sys2Proof.Machine
open Sys2Proof.Safety

/-! ### The neighbour taken -/

/-- Whether the upper neighbour is taken for a number that lies the fraction `σ` of a spacing above `m` spacings (R103). -/
def TakesUpper (mode : Rnd) (neg : Bool) (draw : ℕ) (m : ℤ) (σ : ℚ) : Prop :=
  match mode with
  | .rne => 1 < 2 * σ ∨ 1 = 2 * σ ∧ m % 2 = 1
  | .rz => neg = true
  | .ru => True
  | .rd => False
  | .rs => draw < σ * 2 ^ 32
/-- Whether the neighbour away from zero is taken for a magnitude that lies the fraction `ρ` of a spacing above `m` spacings. -/
def TakesOuter (mode : Rnd) (neg : Bool) (draw : ℕ) (m : ℕ) (ρ : ℚ) : Prop :=
  match mode with
  | .rne => 1 < 2 * ρ ∨ 1 = 2 * ρ ∧ m % 2 = 1
  | .rz => False
  | .ru => neg = false
  | .rd => neg = true
  | .rs => if neg then (1 - ρ) * 2 ^ 32 ≤ draw else draw < ρ * 2 ^ 32
/-- Above zero the upper neighbour is the outer one. -/
theorem takesUpper_pos {mode : Rnd} {draw m : ℕ} {ρ : ℚ} : TakesUpper mode false draw m ρ ↔ TakesOuter mode false draw m ρ := by
  cases mode
  case rne => exact or_congr_right (and_congr_right fun _ => by omega)
  case rz => exact iff_of_false Bool.false_ne_true id
  case ru => exact iff_of_true trivial rfl
  case rd => exact iff_of_false id Bool.false_ne_true
  case rs => exact Iff.rfl
/-- Below zero it is the inner one. -/
theorem takesUpper_neg {mode : Rnd} {draw m : ℕ} {ρ : ℚ} : TakesUpper mode true draw (-(m + 1)) (1 - ρ) ↔ ¬TakesOuter mode true draw m ρ := by
  cases mode
  case rne =>
    show (1 < 2 * (1 - ρ) ∨ 1 = 2 * (1 - ρ) ∧ (-((m : ℤ) + 1)) % 2 = 1) ↔ ¬(1 < 2 * ρ ∨ 1 = 2 * ρ ∧ m % 2 = 1)
    rcases lt_trichotomy (2 * ρ) 1 with h | h | h
    · exact iff_of_true (.inl (by linarith)) (by rintro (h' | ⟨h', -⟩) <;> linarith)
    · have h1 : 2 * (1 - ρ) = 1 := by linarith
      simp only [h, h1, lt_irrefl, false_or, true_and]
      omega
    · exact iff_of_false (by rintro (h' | ⟨h', -⟩) <;> linarith) fun h' => h' (.inl h)
  case rz => exact iff_of_true rfl id
  case ru => exact iff_of_true trivial Bool.noConfusion
  case rd => exact iff_of_false id fun h => h rfl
  case rs => exact not_le.symm

section
variable {mode : Rnd} {neg st : Bool} {draw m rem sh : ℕ} {δ : ℚ}
theorem one_lt_two_mul_div : 1 < 2 * ((rem + δ) / 2 ^ sh) ↔ (2 : ℚ) ^ sh < 2 * (rem + δ) := by
  rw [← mul_div_assoc, one_lt_div (by positivity)]
theorem one_eq_two_mul_div : 1 = 2 * ((rem + δ) / 2 ^ sh) ↔ (2 : ℚ) ^ sh = 2 * (rem + δ) := by
  rw [← mul_div_assoc, eq_div_iff (by positivity), one_mul]
/-- Whether the bits below a spacing, with nothing below them, take the outer neighbour. -/
theorem roundsUp_exact (hrem : rem < 2 ^ sh) (h0 : rem ≠ 0) :
    roundsUp mode neg draw m rem sh false = true ↔ TakesOuter mode neg draw m (rem / 2 ^ sh) := by
  have hpos : (0 : ℚ) < 2 ^ sh := by positivity
  have hne : ((rem == 0) && !false) = false := by simpa using h0
  unfold roundsUp
  dsimp only
  rw [hne, if_neg Bool.false_ne_true]
  cases mode
  case rne =>
    have hgt := one_lt_two_mul_div (rem := rem) (sh := sh) (δ := 0)
    have heq := one_eq_two_mul_div (rem := rem) (sh := sh) (δ := 0)
    rw [add_zero] at hgt heq
    simp only [TakesOuter, hgt, heq, Bool.or_eq_true, Bool.and_eq_true, decide_eq_true_eq, beq_iff_eq, Bool.false_eq_true, false_or]
    norm_cast
    rw [eq_comm (a := 2 * rem)]
  case rz => exact iff_of_false Bool.false_ne_true id
  case ru => cases neg; exacts [iff_of_true rfl rfl, iff_of_false Bool.false_ne_true Bool.noConfusion]
  case rd => exact Iff.rfl
  case rs =>
    cases neg
    · have h : (draw : ℚ) < rem / 2 ^ sh * 2 ^ 32 ↔ draw * 2 ^ sh < rem * 2 ^ 32 := by
        rw [div_mul_eq_mul_div, lt_div_iff₀ hpos, ← Nat.cast_lt (α := ℚ)]
        push_cast
        rfl
      simp only [TakesOuter, h, Bool.false_eq_true, if_false, decide_eq_true_eq]
    · have h : (1 - (rem : ℚ) / 2 ^ sh) * 2 ^ 32 ≤ draw ↔ (2 ^ sh - rem) * 2 ^ 32 ≤ draw * 2 ^ sh := by
        rw [one_sub_div hpos.ne', div_mul_eq_mul_div, div_le_iff₀ hpos, ← Nat.cast_le (α := ℚ)]
        push_cast [hrem.le]
        rfl
      simp only [TakesOuter, h, if_true, Bool.not_eq_true', decide_eq_false_iff_not, not_lt]
/-- With something below them, ties cannot be. -/
theorem roundsUp_sticky (hsh : sh ≠ 0) (h0 : 0 < δ) (h1 : δ < 1) :
    roundsUp .rne neg draw m rem sh true = true ↔ TakesOuter .rne neg draw m ((rem + δ) / 2 ^ sh) := by
  obtain ⟨k, rfl⟩ := Nat.exists_eq_succ_of_ne_zero hsh
  have hhalf : (2 : ℚ) ^ (k + 1) ≤ 2 * (rem + δ) → 2 ^ k ≤ rem := fun h => by
    rw [pow_succ'] at h
    by_contra hlt
    have : (rem : ℚ) + 1 ≤ 2 ^ k := by exact_mod_cast Nat.lt_of_not_le hlt
    linarith
  have hup : roundsUp .rne neg draw m rem (k + 1) true = true ↔ 2 ^ k ≤ rem := by
    simp only [roundsUp, Bool.not_true, Bool.and_false, Bool.false_eq_true, if_false, Bool.true_or, Bool.and_true, Bool.or_eq_true,
      decide_eq_true_eq, beq_iff_eq, pow_succ']
    omega
  rw [hup]
  simp only [TakesOuter, Nat.succ_eq_add_one, one_lt_two_mul_div, one_eq_two_mul_div]
  refine ⟨fun h => .inl ?_, fun h => hhalf (h.elim le_of_lt fun h => h.1.le)⟩
  have : (2 : ℚ) ^ k ≤ rem := by exact_mod_cast h
  rw [pow_succ']
  linarith
/-- What the machine decides from the bits below a spacing, and from whether anything lies below those. -/
theorem roundsUp_iff (hrem : rem < 2 ^ sh) (h0 : 0 ≤ δ) (h1 : δ < 1) (hst : st = true ↔ δ ≠ 0) (hsticky : δ ≠ 0 → mode = .rne ∧ sh ≠ 0) :
    roundsUp mode neg draw m rem sh st = true ↔ (rem + δ) / 2 ^ sh ≠ 0 ∧ TakesOuter mode neg draw m ((rem + δ) / 2 ^ sh) := by
  by_cases hδ : δ = 0
  · subst hδ
    obtain rfl : st = false := by simpa using hst
    rw [add_zero]
    by_cases hr : rem = 0
    · subst hr
      exact iff_of_false Bool.false_ne_true fun h => h.1 (by simp)
    · rw [roundsUp_exact hrem hr, iff_and_self]
      exact fun _ => by positivity
  · obtain ⟨rfl, hsh⟩ := hsticky hδ
    obtain rfl : st = true := hst.mpr hδ
    have hpos : 0 < δ := h0.lt_of_ne (Ne.symm hδ)
    rw [roundsUp_sticky hsh hpos h1, iff_and_self]
    exact fun _ => by positivity
end

/-! ### Round of a number -/

/-- The last part of Round (R103): the encoding and the flags of the neighbour `y` taken for `x`. -/
def Encodes (f : FFmt) (emin : ℤ) (top : ℚ) (mode : Rnd) (sat : Bool) (x y : ℚ) (r : ℕ × ℕ) : Prop :=
  (|y| ≤ top → numOf (f.decode r.1) = some y ∧ r.1 < 2 ^ f.w ∧ (y = 0 → r.1 = if x < 0 then 2 ^ (f.w - 1) else 0) ∧
    r.2 = if y = x then 0 else fNX + if |x| < 2 ^ emin then fUF else 0) ∧
  (top < |y| → r.2 = fOF + fNX ∧ r.1 =
    if sat = true ∨ mode = .rz ∨ mode = .ru ∧ x < 0 ∨ mode = .rd ∧ 0 < x then f.signed (x < 0) f.maxEnc else if f.e4m3 then f.nan else f.inf (x < 0))

section
variable {f : FFmt} {p : ℕ} {emin : ℤ} {top : ℚ} {mode : Rnd} {sat neg : Bool} {draw : ℕ} {x : ℚ} {r : ℕ × ℕ}
/-- Round of a number from the fraction of a spacing that it lies above one. -/
theorem rounds_of_fraction {e m : ℤ} {up : Bool} {σ : ℚ} (he : emin ≤ e) (hlt : |x| < 2 ^ (e + 1)) (hge : e = emin ∨ 2 ^ e ≤ |x|)
    (hx : x = (m + σ) * 2 ^ (e - p + 1)) (h0 : 0 ≤ σ) (h1 : σ < 1) (hneg : neg = true ↔ x < 0)
    (hup : up = true ↔ σ ≠ 0 ∧ TakesUpper mode neg draw m σ) (henc : Encodes f emin top mode sat x ((m + if up then 1 else 0) * 2 ^ (e - p + 1)) r) :
    Rounds f p emin top mode sat draw x r := by
  have hq : (0 : ℚ) < 2 ^ (e - p + 1) := by positivity
  have hsub : x - m * 2 ^ (e - p + 1) = σ * 2 ^ (e - p + 1) := by rw [hx]; ring
  refine ⟨e, m, up, he, hlt, hge, ?_, ?_, ?_, henc⟩
  · rw [← sub_nonneg, hsub]
    positivity
  · rw [hx]
    gcongr
  · have hne : x ≠ m * 2 ^ (e - p + 1) ↔ σ ≠ 0 := by rw [← sub_ne_zero, hsub, mul_ne_zero_iff, and_iff_left hq.ne']
    rw [hup, hne, hsub]
    refine and_congr_right fun _ => ?_
    cases mode
    case rne =>
      show 1 < 2 * σ ∨ 1 = 2 * σ ∧ m % 2 = 1 ↔ _ < 2 * (σ * _) ∨ _ = 2 * (σ * _) ∧ m % 2 = 1
      rw [← mul_assoc, lt_mul_iff_one_lt_left hq, eq_comm (a := (2 : ℚ) ^ (e - p + 1)), mul_eq_right₀ hq.ne', eq_comm (a := (1 : ℚ))]
    case rz => exact hneg
    case ru => exact Iff.rfl
    case rd => exact Iff.rfl
    case rs =>
      show (draw : ℚ) < σ * 2 ^ 32 ↔ draw * _ < σ * _ * 2 ^ 32
      rw [mul_right_comm, mul_lt_mul_iff_left₀ hq]
/-- A magnitude rounded to `m` spacings of the `j`-th exponent is encoded as Round says. -/
theorem encodes_pack (hf : IsFormat f p emin top) {y : ℚ} {j m : ℕ} (hm : m ≤ 2 * 2 ^ (f.p - 1)) (hj : j = 0 ∨ 2 ^ (f.p - 1) ≤ m) (hx : x ≠ 0)
    (hneg : neg = true ↔ x < 0) (hy : y = sgn neg * (m * 2 ^ (f.qmin + j)))
    (hsmall : |x| < 2 ^ emin → j = 0 ∧ m ≤ 2 ^ (f.p - 1)) :
    Encodes f emin top mode sat x y
      (f.pack mode sat neg (j * 2 ^ (f.p - 1) + m) (if y = x then 0 else fNX + if |x| < 2 ^ emin then fUF else 0)) := by
  refine ⟨pack_finite hf hm hj hneg hy, fun htop => pack_overflow hf hm hj hneg hy hx htop ?_⟩
  have hbig : ¬|x| < 2 ^ emin := fun h => by
    obtain ⟨rfl, hle⟩ := hsmall h
    refine htop.not_ge ?_
    rw [abs_signed (by positivity) hy, encoded_le_top hf hm hj, zero_mul, zero_add]
    exact hle.trans hf.normal
  rw [if_neg hbig]
  split_ifs
  exacts [.inl rfl, .inr rfl]

/-- A magnitude that lies the fraction `ρ` of a spacing above `m` spacings, at an exponent that R103 gives it. -/
structure Spaced (p : ℕ) (emin : ℤ) (a : ℚ) (e : ℤ) (m : ℕ) (ρ : ℚ) : Prop where
  least : emin ≤ e
  pos : 0 < a
  below : a < 2 ^ (e + 1)
  above : e = emin ∨ 2 ^ e ≤ a
  eq : a = (m + ρ) * 2 ^ (e - p + 1)
  nonneg : 0 ≤ ρ
  lt_one : ρ < 1

/-- Powers of two of the exponent in spacings. -/
theorem spacing_mul (hp : 1 ≤ p) (e : ℤ) : (2 : ℚ) ^ e = (2 ^ (p - 1) : ℕ) * 2 ^ (e - p + 1) := by
  obtain ⟨n, rfl⟩ := Nat.exists_eq_add_of_le hp
  rw [Nat.add_sub_cancel_left, Nat.cast_pow, ← zpow_natCast, Nat.cast_ofNat, ← zpow_add₀ two_ne_zero]
  congr 1
  push_cast
  ring
section
variable {a ρ : ℚ} {e : ℤ} {m : ℕ} (hp : 1 ≤ p) (h : Spaced p emin a e m ρ)
include hp h
theorem Spaced.lt : m < 2 * 2 ^ (p - 1) := by
  have hq : (0 : ℚ) < 2 ^ (e - p + 1) := by positivity
  have hlt := h.below
  rw [h.eq, zpow_add_one₀ two_ne_zero e, spacing_mul hp e, mul_right_comm, mul_lt_mul_iff_left₀ hq] at hlt
  have hm : (m : ℚ) < 2 ^ (p - 1) * 2 := by
    have := h.nonneg
    push_cast at hlt
    linarith
  rw [mul_comm]
  exact_mod_cast hm
theorem Spaced.ge : e = emin ∨ 2 ^ (p - 1) ≤ m := by
  have hq : (0 : ℚ) < 2 ^ (e - p + 1) := by positivity
  refine h.above.imp_right fun hge => ?_
  rw [h.eq, spacing_mul hp e, mul_le_mul_iff_left₀ hq] at hge
  have hm : ((2 ^ (p - 1) : ℕ) : ℚ) < m + 1 := by
    have := h.lt_one
    linarith
  exact Nat.lt_succ_iff.mp (by exact_mod_cast hm)
/-- Below the least normal number the exponent is the least, and fewer spacings than those of a normal number fit. -/
theorem Spaced.subnormal (ha : a < 2 ^ emin) : e = emin ∧ m < 2 ^ (p - 1) := by
  have hq : (0 : ℚ) < 2 ^ (e - p + 1) := by positivity
  have he : e = emin := h.above.resolve_right fun hge =>
    absurd ha (not_lt.mpr ((zpow_le_zpow_right₀ one_le_two h.least).trans hge))
  subst he
  rw [h.eq, spacing_mul hp e, mul_lt_mul_iff_left₀ hq] at ha
  have hm : (m : ℚ) < (2 ^ (p - 1) : ℕ) := by
    have := h.nonneg
    linarith
  exact ⟨rfl, by exact_mod_cast hm⟩
end

section
variable {a ρ : ℚ} {e : ℤ} {m : ℕ} {up : Bool}
/-- A neighbour of a magnitude, taken or not where the magnitude is between two, is encoded as Round says. -/
theorem encodes_spaced (hf : IsFormat f p emin top) (h : Spaced p emin a e m ρ) (hup : up = true → ρ ≠ 0) :
    Encodes f emin top mode sat (sgn neg * a) (sgn neg * ((m + b2n up : ℕ) * 2 ^ (e - p + 1)))
      (f.pack mode sat neg ((e - emin).toNat * 2 ^ (f.p - 1) + (m + b2n up)) (if ρ = 0 then 0 else fNX + if a < 2 ^ emin then fUF else 0)) := by
  have hp : 1 ≤ p := hf.prec ▸ one_le_two.trans hf.two_le
  have hq : (0 : ℚ) < 2 ^ (e - p + 1) := by positivity
  have habs : |sgn neg * a| = a := abs_signed h.pos.le rfl
  have hneg : neg = true ↔ sgn neg * a < 0 := by
    have := h.pos
    cases neg <;> simp [this, this.le]
  have hx : sgn neg * a ≠ 0 := by
    rw [← abs_ne_zero, habs]
    exact h.pos.ne'
  have hspacing : f.qmin + ((e - emin).toNat : ℤ) = e - p + 1 := by
    rw [Int.toNat_of_nonneg (sub_nonneg.mpr h.least), FFmt.qmin, hf.prec, hf.least]
    ring
  have hb : b2n up ≤ 1 := by cases up <;> decide
  have hlt := h.lt hp
  have hle : m + b2n up ≤ 2 * 2 ^ (f.p - 1) := by rw [hf.prec]; omega
  have hj : (e - emin).toNat = 0 ∨ 2 ^ (f.p - 1) ≤ m + b2n up := by
    rw [hf.prec]
    exact (h.ge hp).imp (fun he => by simp [he]) fun hm => hm.trans (Nat.le_add_right _ _)
  have hexact : sgn neg * (((m + b2n up : ℕ) : ℚ) * 2 ^ (e - p + 1)) = sgn neg * a ↔ ρ = 0 := by
    rw [mul_right_inj' (by cases neg <;> norm_num), h.eq, mul_left_inj' hq.ne', Nat.cast_add, add_right_inj]
    cases up
    · exact eq_comm
    · exact iff_of_false h.lt_one.ne' (hup rfl)
  have henc := encodes_pack (mode := mode) (sat := sat) hf hle hj hx hneg rfl (by
    rw [habs, hf.prec]
    intro ha
    obtain ⟨rfl, hm⟩ := h.subnormal hp ha
    exact ⟨by simp, by omega⟩)
  simpa only [hspacing, habs, hexact] using henc
/-- Above zero the upper neighbour is the outer one. -/
theorem rounds_above (h : Spaced p emin a e m ρ) (hup : up = true ↔ ρ ≠ 0 ∧ TakesOuter mode false draw m ρ)
    (henc : Encodes f emin top mode sat a ((m + b2n up : ℕ) * 2 ^ (e - p + 1)) r) : Rounds f p emin top mode sat draw a r := by
  have habs : |a| = a := abs_of_pos h.pos
  have hy : (((m : ℤ) : ℚ) + if up then 1 else 0) * 2 ^ (e - p + 1) = (m + b2n up : ℕ) * 2 ^ (e - p + 1) := by
    cases up <;> simp [b2n]
  exact rounds_of_fraction (m := m) (neg := false) h.least (habs.symm ▸ h.below) (habs.symm ▸ h.above) (by simpa using h.eq) h.nonneg h.lt_one
    (by simpa using h.pos.le) (by rw [hup, ← takesUpper_pos]) (by rwa [hy])
/-- Below zero it is the inner one, and the number lies above the neighbour away from zero where it lies between two. -/
theorem rounds_below (h : Spaced p emin a e m ρ) (hup : up = true ↔ ρ ≠ 0 ∧ TakesOuter mode true draw m ρ)
    (henc : Encodes f emin top mode sat (-a) (-((m + b2n up : ℕ) * 2 ^ (e - p + 1))) r) : Rounds f p emin top mode sat draw (-a) r := by
  have habs : |-a| = a := by rw [abs_neg, abs_of_pos h.pos]
  have hneg : true = true ↔ -a < 0 := by simpa using h.pos
  by_cases h0 : ρ = 0
  · obtain rfl : up = false := by simpa [h0] using hup
    have hx : -a = (((-m : ℤ) : ℚ) + 0) * 2 ^ (e - p + 1) := by
      rw [h.eq, h0]
      push_cast
      ring
    have hy : (((-m : ℤ) : ℚ) + if false then 1 else 0) * 2 ^ (e - p + 1) = -((m + b2n false : ℕ) * 2 ^ (e - p + 1)) := by
      simp [b2n]
    exact rounds_of_fraction (up := false) h.least (habs.symm ▸ h.below) (habs.symm ▸ h.above) hx le_rfl one_pos hneg (by simp) (by rwa [hy])
  · have hx : -a = (((-(m + 1) : ℤ) : ℚ) + (1 - ρ)) * 2 ^ (e - p + 1) := by
      rw [h.eq]
      push_cast
      ring
    have hinner : (!up) = true ↔ 1 - ρ ≠ 0 ∧ TakesUpper mode true draw (-(m + 1)) (1 - ρ) := by
      rw [takesUpper_neg, and_iff_right (sub_ne_zero.mpr h.lt_one.ne'), ← and_iff_right (b := TakesOuter _ _ _ _ _) h0, ← hup,
        Bool.not_eq_true', Bool.not_eq_true]
    have hy : (((-(m + 1) : ℤ) : ℚ) + if !up then 1 else 0) * 2 ^ (e - p + 1) = -((m + b2n up : ℕ) * 2 ^ (e - p + 1)) := by
      cases up
      · simp [b2n]
      · simp only [b2n, Bool.not_true, Bool.false_eq_true, if_false, if_true]
        push_cast
        ring
    exact rounds_of_fraction h.least (habs.symm ▸ h.below) (habs.symm ▸ h.above) hx (sub_nonneg.mpr h.lt_one.le)
      (sub_lt_self 1 (h.nonneg.lt_of_ne (Ne.symm h0))) hneg hinner (by rwa [hy])
/-- A magnitude whose outer neighbour is taken where R103 says is Round of its number. -/
theorem rounds_pack (hf : IsFormat f p emin top) (h : Spaced p emin a e m ρ) (hup : up = true ↔ ρ ≠ 0 ∧ TakesOuter mode neg draw m ρ) :
    Rounds f p emin top mode sat draw (sgn neg * a) (f.pack mode sat neg ((e - emin).toNat * 2 ^ (f.p - 1) + (m + b2n up))
      (if ρ = 0 then 0 else fNX + if a < 2 ^ emin then fUF else 0)) := by
  have henc := encodes_spaced (mode := mode) (sat := sat) (neg := neg) hf h fun hu => (hup.mp hu).1
  cases neg
  case false =>
    rw [sgn_false, one_mul] at henc ⊢
    rw [one_mul] at henc
    exact rounds_above h hup henc
  case true =>
    rw [sgn_true, neg_one_mul] at henc ⊢
    rw [neg_one_mul] at henc
    exact rounds_below h hup henc
end

/-! ### The machine's Round -/

/-- The whole spacings of `2 ^ q` in `n` units of `2 ^ e`. -/
def wholes (n : ℕ) (e q : ℤ) : ℕ := if e ≤ q then n / 2 ^ (q - e).toNat else n * 2 ^ (e - q).toNat
/-- The units beyond them. -/
def beyond (n : ℕ) (e q : ℤ) : ℕ := if e ≤ q then n % 2 ^ (q - e).toNat else 0
theorem beyond_lt (n : ℕ) (e q : ℤ) : beyond n e q < 2 ^ (q - e).toNat := by
  unfold beyond
  split
  · exact Nat.mod_lt _ (by positivity)
  · positivity
/-- A magnitude is its whole spacings and what lies beyond them. -/
theorem wholes_beyond {n : ℕ} {e q : ℤ} {δ : ℚ} (h : e ≤ q ∨ δ = 0) :
    (n + δ) * (2 : ℚ) ^ e = (wholes n e q + (beyond n e q + δ) / 2 ^ (q - e).toNat) * 2 ^ q := by
  by_cases hle : e ≤ q
  · have hq : (2 : ℚ) ^ q = 2 ^ (q - e).toNat * 2 ^ e := by
      rw [← zpow_natCast, ← zpow_add₀ two_ne_zero, Int.toNat_of_nonneg (by omega), sub_add_cancel]
    have hn : (n : ℚ) = 2 ^ (q - e).toNat * (n / 2 ^ (q - e).toNat : ℕ) + (n % 2 ^ (q - e).toNat : ℕ) := by
      exact_mod_cast (Nat.div_add_mod n (2 ^ (q - e).toNat)).symm
    rw [wholes, beyond, if_pos hle, if_pos hle, hq, hn]
    field_simp
    ring
  · have hq : (2 : ℚ) ^ e = 2 ^ (e - q).toNat * 2 ^ q := by
      rw [← zpow_natCast, ← zpow_add₀ two_ne_zero, Int.toNat_of_nonneg (by omega), sub_add_cancel]
    rw [wholes, beyond, if_neg hle, if_neg hle, h.resolve_left hle, hq]
    push_cast
    ring
theorem roundMag_eq (f : FFmt) (mode : Rnd) (sat : Bool) (r : ℕ) (neg : Bool) (n : ℕ) (e : ℤ) (st : Bool) :
    roundMag f mode sat r neg n e st =
      let q := max ((n.log2 : ℤ) + e) f.emin - f.p + 1
      f.pack mode sat neg ((q - f.qmin).toNat * 2 ^ (f.p - 1) +
        (wholes n e q + b2n (roundsUp mode neg r (wholes n e q) (beyond n e q) (q - e).toNat st)))
        (if (beyond n e q == 0 && !st) = true then 0 else fNX + if (n.log2 : ℤ) + e < f.emin then fUF else 0) := rfl
/-- The powers of two about a magnitude. -/
theorem log2_bounds {n : ℕ} {e : ℤ} {δ : ℚ} (hn : n ≠ 0) (h0 : 0 ≤ δ) (h1 : δ < 1) :
    (2 : ℚ) ^ ((n.log2 : ℤ) + e) ≤ (n + δ) * 2 ^ e ∧ (n + δ) * 2 ^ e < (2 : ℚ) ^ ((n.log2 : ℤ) + e + 1) := by
  have hlow : (2 : ℚ) ^ n.log2 ≤ n := by exact_mod_cast Nat.log2_self_le hn
  have hhigh : (n : ℚ) + 1 ≤ 2 ^ (n.log2 + 1) := by exact_mod_cast Nat.lt_log2_self
  constructor
  · rw [zpow_add₀ two_ne_zero, zpow_natCast]
    gcongr
    linarith
  · rw [add_right_comm, zpow_add₀ two_ne_zero _ e]
    gcongr
    rw [show ((n.log2 : ℤ) + 1) = ((n.log2 + 1 : ℕ) : ℤ) by push_cast; rfl, zpow_natCast]
    linarith

/-- Round of a magnitude that lies `δ` units of `2 ^ e` above `n` of them (R103), where the rest is known only to be there (`st`). -/
theorem rounds_roundMag (hf : IsFormat f p emin top) {n : ℕ} {e : ℤ} {δ : ℚ} {st : Bool} (hn : n ≠ 0) (h0 : 0 ≤ δ) (h1 : δ < 1)
    (hst : st = true ↔ δ ≠ 0) (hsticky : δ ≠ 0 → mode = .rne ∧ p ≤ n.log2) :
    Rounds f p emin top mode sat draw (sgn neg * ((n + δ) * 2 ^ e)) (roundMag f mode sat draw neg n e st) := by
  obtain rfl := hf.prec
  obtain rfl := hf.least
  obtain ⟨hlow, hhigh⟩ := log2_bounds (e := e) hn h0 h1
  have hdeep : δ ≠ 0 → mode = .rne ∧ (max ((n.log2 : ℤ) + e) f.emin - f.p + 1 - e).toNat ≠ 0 := fun hδ => by
    have := (hsticky hδ).2
    exact ⟨(hsticky hδ).1, by omega⟩
  rw [roundMag_eq]
  dsimp only
  generalize hE : max ((n.log2 : ℤ) + e) f.emin = E at *
  generalize hq : E - f.p + 1 = q at *
  have hrem := beyond_lt n e q
  have hup := roundsUp_iff (neg := neg) (draw := draw) (m := wholes n e q) hrem h0 h1 hst hdeep
  have hsp : Spaced f.p f.emin ((n + δ) * 2 ^ e) E (wholes n e q) ((beyond n e q + δ) / 2 ^ (q - e).toNat) := by
    refine ⟨by omega, by positivity, ?_, ?_, hq ▸ wholes_beyond ?_, by positivity, ?_⟩
    · exact hhigh.trans_le (zpow_le_zpow_right₀ one_le_two (by omega))
    · rcases le_total ((n.log2 : ℤ) + e) f.emin with h | h
      · exact .inl (by omega)
      · rw [max_eq_left h] at hE
        exact .inr (hE ▸ hlow)
    · by_cases hδ : δ = 0
      · exact .inr hδ
      · have := (hdeep hδ).2
        exact .inl (by omega)
    · rw [div_lt_one (by positivity)]
      have : (beyond n e q : ℚ) + 1 ≤ 2 ^ (q - e).toNat := by exact_mod_cast hrem
      linarith
  have hexact : (beyond n e q + δ) / 2 ^ (q - e).toNat = 0 ↔ (beyond n e q == 0 && !st) = true := by
    have hst' : st = false ↔ δ = 0 := by rw [← Bool.not_eq_true, hst, not_not]
    rw [div_eq_zero_iff, or_iff_left (by positivity), add_eq_zero_iff_of_nonneg (by positivity) h0]
    simp [hst']
  have hsub : (n + δ) * 2 ^ e < (2 : ℚ) ^ f.emin ↔ (n.log2 : ℤ) + e < f.emin := by
    constructor
    · intro h
      exact (zpow_lt_zpow_iff_right₀ one_lt_two).mp (hlow.trans_lt h)
    · exact fun h => hhigh.trans_le (zpow_le_zpow_right₀ one_le_two h)
  have hqmin : E - f.emin = q - f.qmin := by
    rw [FFmt.qmin]
    omega
  have h := rounds_pack (sat := sat) hf hsp hup
  simpa only [hexact, hsub, hqmin] using h
end

end Sys2Proof.Machine
end

section
/-! Conversions, sums, products, fused forms and quotients of encodings are the exact number rounded (R103, R106, R107). -/
namespace Sys2Proof.Machine
open Sys2Proof.Safety

/-! ### The number of a value -/

theorem numOf_eq_some {v : FVal} {x : ℚ} : numOf v = some x ↔ ∃ neg n e, v = .fin neg n e ∧ x = sgn neg * (n * 2 ^ e) := by
  cases v with
  | nan sig => simp [numOf]
  | inf neg => simp [numOf]
  | fin neg n e =>
    simp only [numOf, Option.some.injEq, FVal.fin.injEq, mul_assoc]
    constructor
    · rintro rfl
      exact ⟨neg, n, e, ⟨rfl, rfl, rfl⟩, rfl⟩
    · rintro ⟨_, _, _, ⟨rfl, rfl, rfl⟩, rfl⟩
      rfl
theorem sign_mul_ne_zero {neg : Bool} {n : ℕ} {e : ℤ} : sgn neg * ((n : ℚ) * 2 ^ e) ≠ 0 ↔ n ≠ 0 := by
  have h2 : (2 : ℚ) ^ e ≠ 0 := zpow_ne_zero e two_ne_zero
  cases neg <;> simp [h2]
theorem sign_mul (s t : Bool) : sgn s * sgn t = sgn (s != t) := by
  cases s <;> cases t <;> norm_num
theorem sign_div (s t : Bool) : sgn s / sgn t = sgn (s != t) := by
  cases s <;> cases t <;> norm_num
theorem numOf_neg {v : FVal} {x : ℚ} (h : numOf v = some x) : numOf v.neg = some (-x) := by
  obtain ⟨neg, n, e, rfl, rfl⟩ := numOf_eq_some.mp h
  refine numOf_eq_some.mpr ⟨!neg, n, e, rfl, ?_⟩
  cases neg <;> simp
/-- The fraction of a decoded number has no more bits than the format's precision. -/
theorem decode_lt {f : FFmt} {i n : ℕ} {neg : Bool} {e : ℤ} (hp : 1 ≤ f.p) (h : f.decode i = .fin neg n e) : n < 2 ^ f.p := by
  have hfr : nbits i 0 (f.p - 1) < 2 ^ (f.p - 1) := Nat.mod_lt _ (by positivity)
  have hpow : 2 ^ f.p = 2 * 2 ^ (f.p - 1) := by rw [← pow_succ', Nat.sub_add_cancel hp]
  unfold FFmt.decode at h
  dsimp only at h
  split_ifs at h
  all_goals simp only [FVal.fin.injEq] at h; omega
/-- The exact sum is the sum of the numbers. -/
theorem addExact_eq (s t : Bool) (n m : ℕ) (e g : ℤ) : ((addExact (s, n, e) (t, m, g)).1 : ℚ) * 2 ^ (addExact (s, n, e) (t, m, g)).2 =
    sgn s * (n * 2 ^ e) + sgn t * (m * 2 ^ g) := by
  have hscale (k : ℤ) (hk : min e g ≤ k) : (2 : ℚ) ^ k = 2 ^ (k - min e g).toNat * 2 ^ min e g := by
    rw [← zpow_natCast, ← zpow_add₀ two_ne_zero, Int.toNat_of_nonneg (by omega), sub_add_cancel]
  rw [hscale e (min_le_left _ _), hscale g (min_le_right _ _)]
  simp only [addExact, sgn]
  push_cast
  ring
/-- The exact product is the product of the numbers. -/
theorem mulX_eq {a b : FVal} {x y : ℚ} (ha : numOf a = some x) (hb : numOf b = some y) : ∃ v, mulX a b = some v ∧ numOf v = some (x * y) := by
  obtain ⟨s, n, e, rfl, rfl⟩ := numOf_eq_some.mp ha
  obtain ⟨t, m, g, rfl, rfl⟩ := numOf_eq_some.mp hb
  refine ⟨_, rfl, numOf_eq_some.mpr ⟨_, _, _, rfl, ?_⟩⟩
  rw [zpow_add₀ two_ne_zero, mul_mul_mul_comm, sign_mul]
  push_cast
  ring

section
variable {f : FFmt} {p : ℕ} {emin : ℤ} {top : ℚ} (hf : IsFormat f p emin top)
include hf

/-! ### Conversions -/

theorem rounds_exact {mode : Rnd} {sat neg : Bool} {draw n : ℕ} (hn : n ≠ 0) (e : ℤ) :
    Rounds f p emin top mode sat draw (sgn neg * (n * 2 ^ e)) (roundMag f mode sat draw neg n e false) := by
  have h := rounds_roundMag (mode := mode) (sat := sat) (neg := neg) (draw := draw) hf (n := n) (e := e) (δ := 0) (st := false) hn le_rfl one_pos
    (by simp) (fun h => absurd rfl h)
  rwa [add_zero] at h
theorem rounds_convert {mode : Rnd} {sat : Bool} {draw : ℕ} {v : FVal} {x : ℚ} (h : numOf v = some x) (hx : x ≠ 0) :
    Rounds f p emin top mode sat draw x (convert f mode sat draw v) := by
  obtain ⟨neg, n, e, rfl, rfl⟩ := numOf_eq_some.mp h
  have hn := sign_mul_ne_zero.mp hx
  rw [convert, if_neg hn]
  exact rounds_exact hf hn e

/-! ### Sums -/

theorem rounds_addV {a b : FVal} {x y : ℚ} (ha : numOf a = some x) (hb : numOf b = some y) (h : x + y ≠ 0) :
    Rounds f p emin top .rne false 0 (x + y) (addV f a b) := by
  obtain ⟨s, n, e, rfl, rfl⟩ := numOf_eq_some.mp ha
  obtain ⟨t, m, g, rfl, rfl⟩ := numOf_eq_some.mp hb
  have hsum := addExact_eq s t n m e g
  rw [← hsum] at h ⊢
  have hadd : addV f (.fin s n e) (.fin t m g) = if (addExact (s, n, e) (t, m, g)).1 = 0 then (f.signed (s && t) 0, 0) else
    roundMag f .rne false 0 (decide ((addExact (s, n, e) (t, m, g)).1 < 0)) (addExact (s, n, e) (t, m, g)).1.natAbs
      (addExact (s, n, e) (t, m, g)).2 false := rfl
  rw [hadd]
  generalize addExact (s, n, e) (t, m, g) = z at *
  obtain ⟨z, k⟩ := z
  have hz : z ≠ 0 := fun h0 => h (by simp [h0])
  have hsign : (z : ℚ) * 2 ^ k = sgn (decide (z < 0)) * (z.natAbs * 2 ^ k) := by
    rw [← mul_assoc]
    congr 1
    rcases lt_or_ge z 0 with h0 | h0
    · simp [h0, Nat.cast_natAbs, abs_of_neg h0]
    · simp [h0.not_gt, Nat.cast_natAbs, abs_of_nonneg h0]
  rw [if_neg hz, hsign]
  exact rounds_exact hf (Int.natAbs_ne_zero.mpr hz) k

/-! ### Products and fused forms -/

theorem rounds_mulV {a b : FVal} {x y : ℚ} (ha : numOf a = some x) (hb : numOf b = some y) (h : x * y ≠ 0) :
    Rounds f p emin top .rne false 0 (x * y) (mulV f a b) := by
  obtain ⟨v, hv, hnum⟩ := mulX_eq ha hb
  rw [mulV, hv]
  exact rounds_convert hf hnum h
theorem rounds_fmaV {a b c : FVal} {x y z : ℚ} (ha : numOf a = some x) (hb : numOf b = some y) (hc : numOf c = some z) (nb : Bool)
    (h : (if nb then -(x * y) else x * y) + z ≠ 0) :
    Rounds f p emin top .rne false 0 ((if nb then -(x * y) else x * y) + z) (fmaV f nb a b c) := by
  obtain ⟨v, hv, hnum⟩ := mulX_eq ha hb
  have hsigned : numOf (if nb then v.neg else v) = some (if nb then -(x * y) else x * y) := by
    cases nb
    · exact hnum
    · exact numOf_neg hnum
  rw [fmaV, hv]
  exact rounds_addV hf hsigned hc h

/-! ### Quotients -/

theorem rounds_divV {i j : ℕ} {x y : ℚ} (ha : numOf (f.decode i) = some x) (hb : numOf (f.decode j) = some y) (hx : x ≠ 0) (hy : y ≠ 0) :
    Rounds f p emin top .rne false 0 (x / y) (divV f (f.decode i) (f.decode j)) := by
  obtain ⟨s, n, e, hdi, rfl⟩ := numOf_eq_some.mp ha
  obtain ⟨t, m, g, hdj, rfl⟩ := numOf_eq_some.mp hb
  have hn := sign_mul_ne_zero.mp hx
  have hm := sign_mul_ne_zero.mp hy
  have hmlt : m < 2 ^ 24 := (decode_lt (one_le_two.trans hf.two_le) hdj).trans_le (Nat.pow_le_pow_right two_pos hf.le_24)
  have hmpos : 0 < m := Nat.pos_of_ne_zero hm
  have hle : 2 ^ p ≤ n * 2 ^ 96 / m := by
    rw [Nat.le_div_iff_mul_le hmpos, ← hf.prec]
    calc 2 ^ f.p * m ≤ 2 ^ 24 * 2 ^ 24 := Nat.mul_le_mul (Nat.pow_le_pow_right two_pos hf.le_24) hmlt.le
      _ ≤ 1 * 2 ^ 96 := by norm_num
      _ ≤ n * 2 ^ 96 := Nat.mul_le_mul_right _ (Nat.pos_of_ne_zero hn)
  have hquot : n * 2 ^ 96 / m ≠ 0 := (lt_of_lt_of_le (by positivity) hle).ne'
  have hval : sgn s * ((n : ℚ) * 2 ^ e) / (sgn t * (m * 2 ^ g)) =
      sgn (s != t) * (((n * 2 ^ 96 / m : ℕ) + ((n * 2 ^ 96 % m : ℕ) : ℚ) / m) * 2 ^ (e - g - 96)) := by
    have hdm : (n : ℚ) * 2 ^ 96 = m * (n * 2 ^ 96 / m : ℕ) + (n * 2 ^ 96 % m : ℕ) := by
      exact_mod_cast (Nat.div_add_mod (n * 2 ^ 96) m).symm
    have hmq : (m : ℚ) ≠ 0 := by exact_mod_cast hm
    have hfrac : ((n * 2 ^ 96 / m : ℕ) + ((n * 2 ^ 96 % m : ℕ) : ℚ) / m) = n * 2 ^ 96 / m := by
      rw [hdm]
      field_simp
    rw [hfrac, zpow_sub₀ two_ne_zero, zpow_sub₀ two_ne_zero, mul_div_mul_comm, sign_div]
    congr 1
    field_simp
  rw [hdi, hdj, hval]
  have hdiv : divV f (.fin s n e) (.fin t m g) = roundMag f .rne false 0 (s != t) (n * 2 ^ 96 / m) (e - g - 96) (n * 2 ^ 96 % m != 0) := by
    rw [divV, if_neg hm, if_neg hn]
  rw [hdiv]
  have hmod := Nat.mod_lt (n * 2 ^ 96) hmpos
  refine rounds_roundMag hf hquot (by positivity) ?_ ?_ fun _ => ⟨rfl, (Nat.le_log2 hquot).mpr hle⟩
  · rw [div_lt_one (by exact_mod_cast hmpos)]
    exact_mod_cast hmod
  · rw [bne_iff_ne, div_ne_zero_iff, and_iff_left (by exact_mod_cast hm), Nat.cast_ne_zero]
end

/-- The formats of R91. -/
def formats : List (FFmt × ℕ × ℤ × ℚ) := [(fp32, 24, -126, (2 ^ 24 - 1) * 2 ^ 104), (fp16, 11, -14, 65504), (bf16, 8, -126, (2 ^ 8 - 1) * 2 ^ 120),
  (e4m3, 4, -6, 448), (e5m2, 3, -14, 57344)]
theorem isFormat_of_mem {k : FFmt × ℕ × ℤ × ℚ} (hk : k ∈ formats) : IsFormat k.1 k.2.1 k.2.2.1 k.2.2.2 ∧ (k.1.e4m3 = true ↔ k.1 = e4m3) := by
  simp only [formats, List.mem_cons, List.not_mem_nil, or_false] at hk
  rcases hk with rfl | rfl | rfl | rfl | rfl
  exacts [⟨isFormat_fp32, by decide⟩, ⟨isFormat_fp16, by decide⟩, ⟨isFormat_bf16, by decide⟩, ⟨isFormat_e4m3, by decide⟩, ⟨isFormat_e5m2, by decide⟩]

/-! ### Zeros and infinities -/

theorem convert_zero {f : FFmt} {mode : Rnd} {sat neg : Bool} {draw n : ℕ} {e : ℤ} (h : numOf (.fin neg n e) = some 0) :
    convert f mode sat draw (.fin neg n e) = (if neg then 2 ^ (f.w - 1) else 0, 0) := by
  obtain ⟨_, _, _, ⟨rfl, rfl, rfl⟩, hz⟩ := numOf_eq_some.mp h
  have hn : n = 0 := by
    by_contra hn
    exact sign_mul_ne_zero.mpr hn hz.symm
  rw [convert, if_pos hn, FFmt.signed]
  cases neg <;> simp [b2n]

/-- Settles O60: a conversion, a sum, a product, a fused form and a quotient each give Round of the exact number, whose magnitude the
machine rounds. -/
theorem rounding : Obligations.Rounding := by
  intro k hk
  obtain ⟨hf, h8⟩ := isFormat_of_mem hk
  refine ⟨fun mode sat draw neg n e => ⟨fun x h hx _ => rounds_convert hf h hx, convert_zero, fun hs => ?_, fun hs h => ?_, fun hs h => ?_, fun _ => rfl⟩,
    fun i j l x y z ha hb hc => ⟨rounds_addV hf ha hb, fun h => ?_, rounds_mulV hf ha hb, fun hy hx => rounds_divV hf ha hb hx hy,
      fun nb => rounds_fmaV hf ha hb hc nb⟩⟩
  · rw [convert, if_pos hs]
  · rw [convert, if_neg (by simp [hs]), if_neg (mt h8.mp h)]
    rfl
  · rw [convert, if_neg (by simp [hs]), if_pos (h8.mpr h), h]
    rfl
  · rw [sub_eq_add_neg] at h ⊢
    exact rounds_addV hf ha (numOf_neg hb) h

end Sys2Proof.Machine
end

section
/-! Shapes of the integer instructions (R33, R57, R62, R113): a result read modulo its width, a result with its flags, a result with a predicate,
predicates alone, and lanes changed in place. -/
namespace Sys2Proof.Machine
open Sys2Proof.Safety

/-! ### Results without flags -/

section
variable {i : Instr} {d : Opd} {wide : Bool} {f : Iss → Nat → DWord} {g : Iss → Nat → Int}
/-- One result, counted modulo its width. -/
theorem does_value (he : exec i = issueD i d wide f) (h : ∀ x j, (f x j).toNat ≡ g x j [ZMOD 2 ^ bw wide]) :
    Does i never fun s x t => Gets t x d wide (g x) ∧ Leaves s t x (spanKeys (d, wn wide)) 0 :=
  does_imp (does_D he) fun _ x _ ⟨hv, hl⟩ => ⟨gets_congr hv (h x), hl⟩
/-- One result of an affine-preserving pattern whose destination is not affine, counted modulo its width. -/
theorem does_affValue {op : AffOp} {sg : Bool} {a b : Iss → Word × Word} (he : exec i = issueAff i d op sg a b wide f) (hd : isAff d = false)
    (h : ∀ x j, (f x j).toNat ≡ g x j [ZMOD 2 ^ bw wide]) :
    Does i never fun s x t => Gets t x d wide (g x) ∧ Leaves s t x (spanKeys (d, wn wide)) 0 :=
  does_imp (does_aff he hd) fun _ x _ ⟨hv, hl⟩ => ⟨gets_congr hv (h x), hl⟩
end
/-- One result at any price. -/
theorem does_writeD {i : Instr} {p : Price} {d : Opd} {wide : Bool} {f : Iss → Nat → DWord}
    (he : exec i = issueReg i p fun x w => x.writeD w d wide (f x)) :
    Does i never fun s x t => Gets t x d wide (fun j => (f x j).toNat) ∧ Leaves s t x (spanKeys (d, wn wide)) 0 := by
  have h := does_reg (i := i) (fun x w => x.writeD w d wide (f x)) he (fun _ _ _ => rfl) (keys := spanKeys (d, wn wide)) (flags := 0)
    fun x w => WFrame.write rfl (fun _ h => h) fun _ => by simp [wd]
  exact does_imp h fun s x t ⟨hw, hl⟩ => ⟨gets_last (f := fun j => (f x j, 0)) hw, hl⟩

/-! ### Results with flags -/

/-- One result with the flags that it sets. -/
theorem does_flagged {i : Instr} {d : Opd} {wide : Bool} {f : Iss → Nat → DWord × Nat} {flags : Word} (he : exec i = issueF i d wide f)
    (hf : ∀ x j, wd (f x j).2 &&& ~~~flags = 0) :
    Does i never fun s x t => Gets t x d wide (fun j => (f x j).1.toNat) ∧ Flags t x d (fun j => (f x j).2) ∧
      Leaves s t x (spanKeys (d, wn wide)) flags := by
  have h := does_reg (i := i) (fun x => x.put d wide (f x)) he (fun _ _ _ => rfl) (keys := spanKeys (d, wn wide)) (flags := flags)
    fun x _ => WFrame.write rfl (fun _ h => h) (hf x)
  exact does_imp h fun s x t ⟨hw, hl⟩ => ⟨gets_last hw, flags_last (f := fun j => ((f x j).1.setWidth 128, (f x j).2)) hw, hl⟩

/-! ### Results with predicates -/

/-- A predicate written changes the predicates of the lanes alone. -/
theorem laneOf_setPred (x : Iss) (d : Opd) (f : Nat → Bool) (w : Warp) (j : Nat) :
    ∃ p, laneOf (x.setPred d f w) j = { laneOf w j with p := p } := by
  by_cases hj : j < w.lanes.length
  · rw [Iss.setPred, laneOf_mapLanes _ _ _ _ hj]
    split
    · cases d <;> exact ⟨_, rfl⟩
    · exact ⟨_, rfl⟩
  · exact ⟨0, by rw [laneOf_absent _ _ (by simpa [Iss.setPred] using hj), laneOf_absent _ _ (by simpa using hj)]; rfl⟩
/-- A predicate written past another one. -/
theorem setPred_getLsbD_ne {x : Iss} {d : Opd} {n : Fin 12} (hn : d ≠ .p n) (f : Nat → Bool) (w : Warp) (j : Nat) :
    (laneOf (x.setPred d f w) j).p.getLsbD n.val = (laneOf w j).p.getLsbD n.val := by
  refine (WFrame.setPred (keys := spanKeys (d, 1)) (flags := 0) rfl fun _ h => h).pred j n.val n.isLt (.inl fun h => hn ?_)
  cases d with
  | p m => simp only [spanKeys, List.mem_singleton] at h; rw [Fin.ext (show m.val = n.val by omega)]
  | v m | s m => simp only [spanKeys, List.range_one, List.map_cons, List.map_nil, List.mem_singleton] at h; omega
  | a m => simp only [spanKeys, List.mem_singleton] at h; omega
  | _ => simp [spanKeys] at h

section
variable {i : Instr} {price : Iss → List Chg} {body : Iss → Nat → Action} {d e : Opd}
/-- A result, and then a predicate. -/
theorem does_valuePred {wide : Bool} (f : Iss → Nat → DWord) (p : Iss → Nat → Bool) (he : exec i = issue i price never body)
    (hb : ∀ x id, body x id = modWarp x.k fun w => x.setPred e (p x) (x.writeD w d wide (f x))) :
    Does i never fun s x t => Gets t x d wide (fun j => (f x j).toNat) ∧ GetsPred t x e (p x) ∧
      Leaves s t x (spanKeys (d, wn wide) ++ spanKeys (e, 1)) 0 := by
  have h := does_reg (i := i) (fun x w => x.setPred e (p x) (x.writeD w d wide (f x))) he (fun x id t => by rw [hb x id])
    (keys := spanKeys (d, wn wide) ++ spanKeys (e, 1)) (flags := 0) fun x w =>
      (WFrame.write rfl (fun _ h => List.mem_append_left _ h) fun _ => by simp [wd]).trans
        (WFrame.setPred rfl fun _ h => List.mem_append_right _ h)
  refine does_imp h fun s x t ⟨hw, hl⟩ => ⟨?_, pred_last ((write_length ..).trans (stepped_length x s)) hw, hl⟩
  refine gets_write (f := fun j => (f x j, 0)) (stepped_length x s) (fun r j _ hg => ?_) fun r _ hg => ?_
  · rw [laneIn, hw, if_pos (by simpa using hg)]
    obtain ⟨q, hq⟩ := laneOf_setPred x e (p x) (x.writeD (x.stepped s) d wide (f x)) j
    rw [hq]
    rfl
  · rw [hw, if_pos (by simpa using hg)]
    rfl
/-- One predicate. -/
theorem does_pred (p : Iss → Nat → Bool) (he : exec i = issue i price never body) (hb : ∀ x id, body x id = modWarp x.k (x.setPred d (p x))) :
    Does i never fun s x t => GetsPred t x d (p x) ∧ Leaves s t x (spanKeys (d, 1)) 0 := by
  have h := does_reg (i := i) (fun x => x.setPred d (p x)) he (fun x id t => by rw [hb x id]) (keys := spanKeys (d, 1)) (flags := 0)
    fun x w => WFrame.setPred rfl fun _ h => h
  exact does_imp h fun s x t ⟨hw, hl⟩ => ⟨pred_last (stepped_length x s) hw, hl⟩
/-- Two predicates, of which the second stands where both are one register. -/
theorem does_preds (p q : Iss → Nat → Bool) (he : exec i = issue i price never body)
    (hb : ∀ x id, body x id = modWarp x.k fun w => x.setPred e (q x) (x.setPred d (p x) w)) :
    Does i never fun s x t => (d ≠ e → GetsPred t x d (p x)) ∧ GetsPred t x e (q x) ∧
      Leaves s t x (spanKeys (d, 1) ++ spanKeys (e, 1)) 0 := by
  have h := does_reg (i := i) (fun x w => x.setPred e (q x) (x.setPred d (p x) w)) he (fun x id t => by rw [hb x id])
    (keys := spanKeys (d, 1) ++ spanKeys (e, 1)) (flags := 0) fun x w =>
      (WFrame.setPred rfl fun _ h => List.mem_append_left _ h).trans (WFrame.setPred rfl fun _ h => List.mem_append_right _ h)
  refine does_imp h fun s x t ⟨hw, hl⟩ => ⟨fun hde => ?_, pred_last ((setPred_length ..).trans (stepped_length x s)) hw, hl⟩
  cases d with
  | p n =>
    intro j hj
    rw [laneIn, hw, if_pos (by simpa using on_guard hj), setPred_getLsbD_ne hde.symm, Iss.setPred,
      laneOf_mapLanes _ _ _ _ ((stepped_length x s).symm ▸ hj.1), if_pos hj.2]
    exact (setP_getLsbD _ _ _ _ n.isLt).trans (if_pos rfl)
  | _ => trivial
end

/-! ### Lanes changed in place -/

/-- Lanes whose sticky flags are changed (R130, R158). -/
theorem does_clear {i : Instr} {p : Price} (mask : Word)
    (he : exec i = issueReg i p fun x w => w.mapLanes x.g fun _ l => { l with flg := l.flg &&& ~~~mask }) :
    Does i never fun s x t => (∀ j, Iss.On x j → (laneIn t x j).flg = (laneOf x.w j).flg &&& ~~~mask) ∧ Leaves s t x [] mask := by
  have hflag (f : Word) : f &&& ~~~mask &&& ~~~mask = f &&& ~~~mask := by rw [BitVec.and_assoc, BitVec.and_self]
  have h := does_reg (i := i) (fun x w => w.mapLanes x.g fun _ l => { l with flg := l.flg &&& ~~~mask }) he (fun _ _ _ => rfl)
    (keys := []) (flags := mask)
    fun x w => WFrame.lanes (fun _ _ _ _ _ => rfl) (fun _ _ _ _ _ => rfl) (fun _ l => hflag l.flg) fun _ _ _ => rfl
  refine does_imp h fun s x t ⟨hw, hl⟩ => ⟨fun j hj => ?_, hl⟩
  obtain ⟨l, e, -, -, hf, -⟩ := laneOf_stepped x s j
  rw [laneIn, hw, if_pos (by simpa using on_guard hj), laneOf_mapLanes _ _ _ _ ((stepped_length x s).symm ▸ hj.1), if_pos hj.2]
  show (laneOf (x.stepped s) j).flg &&& _ = _
  rw [e, hf]

end Sys2Proof.Machine
end

section
/-! Arithmetic (R123, R125 to R128): what the operands of a type read as, and sums, differences, products and order modulo the width of a
type. -/
namespace Sys2Proof.Machine
open Sys2Proof.Safety

/-! ### Numbers modulo a width (R123) -/

theorem bw_le_64 (wide : Bool) : bw wide ≤ 64 := by cases wide <;> decide
theorem modEq_low {a b : Int} {m n : Nat} (h : a ≡ b [ZMOD 2 ^ n]) (hmn : m ≤ n) : a ≡ b [ZMOD 2 ^ m] := h.of_dvd (pow_dvd_pow 2 hmn)
theorem modW_modEq (ty : ITy) (v : Int) : (modW ty v).toNat ≡ v [ZMOD 2 ^ bw ty.wide] := modW_mod ty v
/-- The low word of a result of either width. -/
theorem modW_modEq_low (ty : ITy) (v : Int) : (modW ty v).toNat ≡ v [ZMOD 2 ^ bw false] :=
  modEq_low (modW_modEq ty v) (by cases ty <;> decide)
theorem ofInt_modEq (v : Int) : (BitVec.ofInt 64 v).toNat ≡ v [ZMOD 2 ^ bw true] := by
  rw [BitVec.toNat_ofInt, Int.toNat_of_nonneg (by omega)]
  exact Int.mod_modEq _ _
theorem dw_modEq (n : Nat) (wide : Bool) : (dw n).toNat ≡ n [ZMOD 2 ^ bw wide] := by
  refine modEq_low (n := 64) ?_ (bw_le_64 wide)
  rw [dw, BitVec.toNat_ofNat]
  exact_mod_cast Nat.mod_modEq _ _
@[simp] theorem toNat_zx64 (w : Word) : (zx64 w).toNat = w.toNat := by
  exact BitVec.toNat_setWidth_of_le (by decide)
@[simp] theorem lo32_zx64 (w : Word) : lo32 (zx64 w) = w := by
  apply BitVec.eq_of_toNat_eq
  simpa [lo32, BitVec.extractLsb'_toNat] using w.isLt
/-- A bit vector stands for its signed reading, modulo its width. -/
theorem toNat_modEq_toInt {n : Nat} (v : BitVec n) : (v.toNat : Int) ≡ v.toInt [ZMOD 2 ^ n] := by
  rw [BitVec.toInt_eq_toNat_bmod, Int.ModEq, ← Nat.cast_ofNat, ← Nat.cast_pow]
  exact Int.bmod_emod.symm
theorem sx64_modEq (w : Word) : (sx64 w).toNat ≡ w.toInt [ZMOD 2 ^ bw true] := by
  have h := toNat_modEq_toInt (sx64 w)
  rwa [sx64, BitVec.toInt_signExtend_of_le (by decide)] at h
/-- An immediate of format RI stands for its signed value, modulo the width (R118). -/
theorem immVal_modEq (ty : ITy) (imm : Word) : (immVal ty imm).toNat ≡ imm.toInt [ZMOD 2 ^ bw ty.wide] := by
  unfold immVal
  cases ty.wide
  · rw [if_neg Bool.false_ne_true, toNat_zx64]
    exact toNat_modEq_toInt imm
  · exact sx64_modEq imm
/-- A value under a type's reading is the value, modulo the width (R123). -/
theorem toTy_modEq {ty : ITy} {v : DWord} (h : v.toNat < 2 ^ bw ty.wide) : toTy ty v ≡ v.toNat [ZMOD 2 ^ bw ty.wide] := by
  unfold toTy
  cases ty.signed
  · rfl
  · cases hw : ty.wide
    · have hlo : (lo32 v).toNat = v.toNat := by
        rw [hw] at h
        rw [lo32, BitVec.extractLsb'_toNat, Nat.shiftRight_zero]
        exact Nat.mod_eq_of_lt h
      rw [← hlo]
      exact (toNat_modEq_toInt _).symm
    · exact (toNat_modEq_toInt v).symm
theorem toTy_immVal (ty : ITy) (imm : Word) :
    toTy ty (immVal ty imm) = if ty.signed then imm.toInt else (if ty.wide then (imm.signExtend 64).toNat else imm.toNat) := by
  cases ty
  · show (lo32 (zx64 imm)).toInt = _; rw [lo32_zx64]; rfl
  · show ((zx64 imm).toNat : Int) = _; rw [toNat_zx64]; rfl
  · exact BitVec.toInt_signExtend_of_le (by decide)
  · rfl
theorem immVal_lt (ty : ITy) (imm : Word) : (immVal ty imm).toNat < 2 ^ bw ty.wide := by
  unfold immVal
  cases ty.wide
  · rw [if_neg Bool.false_ne_true, toNat_zx64]; exact imm.isLt
  · exact (sx64 imm).isLt

/-! ### Saturation (R126, R128) -/

theorem tyMin_le_tyMax (ty : ITy) : tyMin ty ≤ tyMax ty := by cases ty <;> decide
/-- A saturated result is the nearest number of the type, and sets SAT unless it is exact. -/
theorem saturate_eq (ty : ITy) (e : Int) :
    saturate ty e = (modW ty (max (tyMin ty) (min (tyMax ty) e)), if tyMin ty ≤ e ∧ e ≤ tyMax ty then 0 else iSAT) := by
  have hb := tyMin_le_tyMax ty
  unfold saturate
  split
  · next h => rw [min_eq_right (by omega), max_eq_left (by omega), if_neg (by omega)]
  · split
    · next h => rw [min_eq_left (by omega), max_eq_right hb, if_neg (by omega)]
    · next h => rw [min_eq_right (by omega), max_eq_right (by omega), if_pos (by omega)]
/-- A saturating form: the exact result or the nearer bound, and SAT. -/
theorem does_saturate {i : Instr} {d : Opd} {ty : ITy} {wide : Bool} {e : Iss → Nat → Int} (hw : wide = ty.wide)
    (he : exec i = issueF i d wide fun x j => saturate ty (e x j)) :
    Does i never fun s x t => Gets t x d ty.wide (fun j => max (tyMin ty) (min (tyMax ty) (e x j))) ∧
      Flags t x d (fun j => if tyMin ty ≤ e x j ∧ e x j ≤ tyMax ty then 0 else iSAT) ∧ Leaves s t x (spanKeys (d, wn ty.wide)) (wd iSAT) := by
  subst hw
  have hflag (v : Int) : wd (saturate ty v).2 &&& ~~~wd iSAT = 0 := by
    rw [saturate_eq]
    dsimp only
    split <;> decide
  refine does_imp (does_flagged he fun _ _ => hflag _) fun s x t ⟨hv, hf, hl⟩ => ⟨gets_congr hv fun j => ?_, ?_, hl⟩
  · rw [saturate_eq]
    exact modW_modEq ty _
  · simpa only [saturate_eq] using hf

/-! ### Carries (R125) -/

/-- A number written modulo the width, with its carry or borrow. -/
theorem does_carry {i : Instr} {price : Iss → List Chg} {body : Iss → Nat → Action} {d e : Opd} {ty : ITy} {num : Iss → Nat → Int}
    {out : Iss → Nat → Bool} (he : exec i = issue i price never body)
    (hb : ∀ x id, body x id = modWarp x.k fun w => x.setPred e (out x) (x.writeD w d ty.wide fun j => modW ty (num x j))) :
    Does i never fun s x t => Gets t x d ty.wide (num x) ∧ GetsPred t x e (out x) ∧
      Leaves s t x (spanKeys (d, wn ty.wide) ++ spanKeys (e, 1)) 0 :=
  does_imp (does_valuePred (fun x j => modW ty (num x j)) out he hb) fun _ _ _ ⟨hv, hp, hl⟩ => ⟨gets_congr hv fun _ => modW_modEq ty _, hp, hl⟩

/-- Settles O7: carries and borrows come from the exact sum or difference, and saturation is to the nearest number of the type. -/
theorem sumsAndDifferences : Obligations.SumsAndDifferences := by
  refine ⟨fun c ty o r => ⟨fun hd => does_carry rfl fun x id => by simp only [hd]; rfl, fun hd => does_carry rfl fun x id => by simp only [hd]; rfl,
      fun hd => does_affValue rfl hd fun x j => ?_, fun hd => does_affValue rfl hd fun x j => ?_⟩,
    fun c ty o => ⟨fun hw => does_saturate hw.symm rfl, fun hw => does_saturate hw.symm rfl, does_saturate rfl rfl⟩⟩
  · refine (modW_modEq ty _).trans ?_
    simpa [b2n] using (immVal_modEq ty r.imm).add_left ((x.valW ty.wide r.a j).toNat : Int)
  · refine (modW_modEq ty _).trans ?_
    simpa [b2n] using (immVal_modEq ty r.imm).sub_left ((x.valW ty.wide r.a j).toNat : Int)

/-! ### Products and order -/

/-- Settles O8: each form is the number itself, written modulo the width of its destination. -/
theorem productsAndOrder : Obligations.ProductsAndOrder := by
  refine ⟨fun c ty o r => ⟨fun hd => does_affValue rfl hd fun _ _ => modW_modEq ty _, fun hd => does_affValue rfl hd fun x j => ?_,
    does_value rfl fun _ _ => modW_modEq_low ty _, does_value rfl fun _ _ => ofInt_modEq _, does_value rfl fun _ _ => modW_modEq_low ty _,
    does_value rfl fun _ _ => ofInt_modEq _⟩, fun c ty o r => ?_⟩
  · exact (modW_modEq ty _).trans (Int.ModEq.mul_left _ ((toTy_modEq (immVal_lt ty r.imm)).trans (immVal_modEq ty r.imm)))
  · simp only [← toTy_immVal ty r.imm]
    exact ⟨does_value rfl fun _ _ => modW_modEq ty _, does_value rfl fun _ _ => modW_modEq ty _, does_value rfl fun _ _ => modW_modEq ty _,
      does_value rfl fun _ _ => modW_modEq ty _, does_value rfl fun _ _ => modW_modEq ty _, does_value rfl fun _ _ => modW_modEq ty _⟩

end Sys2Proof.Machine
end

section
/-! Bits (R132 to R135): the tables of two inputs, shifts and bit fields, bit counts and the bits in reverse. -/
namespace Sys2Proof.Machine
open Sys2Proof.Safety

/-! ### Tables of two inputs (R132) -/

theorem tableW_bit (f : BitVec 4) (a b : Word) {k : Nat} (hk : k < 32) :
    (tableW f a b).getLsbD k = f.getLsbD (2 * b2n (a.getLsbD k) + b2n (b.getLsbD k)) := by
  have hif (c : Bool) (v : Word) : (if c then v else 0).getLsbD k = (c && v.getLsbD k) := by cases c <;> simp
  simp only [tableW, BitVec.getLsbD_or, hif, BitVec.getLsbD_and, BitVec.getLsbD_not, hk, decide_true, Bool.true_and]
  cases a.getLsbD k <;> cases b.getLsbD k <;> simp [b2n]
/-- A word written, given bit by bit. -/
def WordOf (i : Instr) (d : Opd) (f : Iss → Nat → Nat → Bool) : Prop := Does i never fun s x t =>
  ∃ w : Nat → Word, Gets t x d false (fun j => (w j).toNat) ∧ (∀ j k, k < 32 → (w j).getLsbD k = f x j k) ∧
    Leaves s t x (spanKeys (d, 1)) 0
theorem wordOf_D {i : Instr} {d : Opd} {f : Iss → Nat → Nat → Bool} (w : Iss → Nat → Word)
    (he : exec i = issueD i d false fun x j => zx64 (w x j)) (h : ∀ x j k, k < 32 → (w x j).getLsbD k = f x j k) : WordOf i d f :=
  does_imp (does_D he) fun _ x _ ⟨hv, hl⟩ => ⟨w x, gets_congr hv fun j => by rw [toNat_zx64], h x, hl⟩
theorem wordOf_aff {i : Instr} {d : Opd} {op : AffOp} {sg : Bool} {a b : Iss → Word × Word} {f : Iss → Nat → Nat → Bool} (w : Iss → Nat → Word)
    (he : exec i = issueAff i d op sg a b false fun x j => zx64 (w x j)) (hd : isAff d = false)
    (h : ∀ x j k, k < 32 → (w x j).getLsbD k = f x j k) : WordOf i d f :=
  does_imp (does_aff he hd) fun _ x _ ⟨hv, hl⟩ => ⟨w x, gets_congr hv fun j => by rw [toNat_zx64], h x, hl⟩

/-- Settles O9: each form is a word whose bits are those of its table or connective. -/
theorem logic : Obligations.Logic := by
  intro c f1 f2 o r
  refine ⟨fun hd => wordOf_aff (fun x j => lcombW f1 f2 (x.val o.a j) (x.val o.b j) (if o.c == .none then none else some (x.val o.c j))) rfl hd
      fun x j k hk => ?_,
    fun hd => wordOf_aff _ rfl hd fun x j k _ => BitVec.getLsbD_and, wordOf_D _ rfl fun x j k _ => BitVec.getLsbD_or,
    wordOf_D _ rfl fun x j k _ => BitVec.getLsbD_xor⟩
  by_cases hc : o.c = .none
  · simp only [hc, lcombW, beq_self_eq_true, if_true, tableW_bit _ _ _ hk]
  · simp only [hc, lcombW, beq_eq_false_iff_ne.mpr hc, if_false, Bool.false_eq_true, tableW_bit _ _ _ hk]

/-! ### Shifts (R133) -/

theorem valW_lt (x : Iss) (wide : Bool) (o : Opd) (j : Nat) : (x.valW wide o j).toNat < 2 ^ bw wide := by
  unfold Iss.valW
  cases wide
  · rw [if_neg Bool.false_ne_true, toNat_zx64]; exact (x.val o j).isLt
  · exact (x.val64 o j).isLt
theorem int_bounds (x : Iss) (ty : ITy) (o : Opd) (j : Nat) : -2 ^ 64 ≤ x.int ty o j ∧ x.int ty o j < 2 ^ 64 := by
  unfold Iss.int
  dsimp only
  have hlo := (lo32 (x.valW ty.wide o j)).isLt
  have hv := (x.valW ty.wide o j).isLt
  split_ifs
  · rw [BitVec.toInt_eq_toNat_cond]; split_ifs <;> omega
  · rw [BitVec.toInt_eq_toNat_cond]; split_ifs <;> omega
  · omega
/-- A shift by more than every bit is a shift by 64. -/
theorem ediv_two_pow_min {a : Int} (h : -2 ^ 64 ≤ a ∧ a < 2 ^ 64) (n : Nat) : a / 2 ^ min n 64 = a / 2 ^ n := by
  by_cases hn : n ≤ 64
  · rw [min_eq_left hn]
  · have hle : (2 : Int) ^ 64 ≤ 2 ^ n := pow_le_pow_right₀ (by norm_num) (by omega)
    rw [min_eq_right (by omega)]
    rcases lt_or_ge a 0 with ha | ha
    · rw [Int.ediv_eq_neg_one_of_neg_of_le ha (by omega), Int.ediv_eq_neg_one_of_neg_of_le ha (by omega)]
    · rw [Int.ediv_eq_zero_of_lt ha h.2, Int.ediv_eq_zero_of_lt ha (by omega)]
theorem shlW_modEq (ty : ITy) (a : DWord) (n : Nat) : (shlW ty a n).toNat ≡ a.toNat * 2 ^ n [ZMOD 2 ^ bw ty.wide] := by
  unfold shlW
  split
  · next h => exact ((Int.modEq_zero_iff_dvd.mpr ((pow_dvd_pow 2 h).mul_left _)).symm)
  · simpa using modW_modEq ty (a.toNat * 2 ^ n : Nat)
theorem shrW_toNat {ty : ITy} {a : DWord} (h : a.toNat < 2 ^ bw ty.wide) (n : Nat) : (shrW ty a n).toNat = a.toNat / 2 ^ n := by
  unfold shrW
  split
  · next hn => exact (Nat.div_eq_of_lt (h.trans_le (Nat.pow_le_pow_right (by decide) hn))).symm
  · rw [dw, BitVec.toNat_ofNat, Nat.mod_eq_of_lt ((Nat.div_le_self _ _).trans_lt a.isLt)]

/-! ### Bit fields (R134) -/

theorem nbits_one (n k : Nat) : nbits n k 1 = b2n (n.testBit k) := by
  rw [nbits, Nat.pow_one, ← Nat.toNat_testBit]
  cases n.testBit k <;> rfl
theorem wd_modEq (n : Nat) : (wd n).toNat ≡ n [ZMOD 2 ^ 32] := by
  rw [wd, BitVec.toNat_ofNat]
  exact_mod_cast Nat.mod_modEq _ _
/-- The number of a field: sign-extended where the type is signed and the field is not empty (R134). -/
theorem bfeW_modEq (signed : Bool) (a : Word) (pos len : Nat) :
    let l := min len 32
    let v : Int := if signed then a.toInt else a.toNat
    let f := v / 2 ^ pos % 2 ^ l
    (bfeW signed a pos len).toNat ≡ if signed ∧ 0 < l ∧ f / 2 ^ (l - 1) % 2 = 1 then f - 2 ^ l else f [ZMOD 2 ^ 32] := by
  intro l v f
  have hv : -2 ^ 64 ≤ v ∧ v < 2 ^ 64 := by
    have := a.isLt
    rw [show v = if signed then a.toInt else a.toNat from rfl, BitVec.toInt_eq_toNat_cond]
    split_ifs <;> omega
  have hf : (f.toNat : Int) = f := Int.toNat_of_nonneg (Int.emod_nonneg _ (by positivity))
  have hl : 2 ^ l ≤ 2 ^ 32 := Nat.pow_le_pow_right (by decide) (min_le_right _ _)
  have hbit : nbits f.toNat (l - 1) 1 = 1 ↔ f / 2 ^ (l - 1) % 2 = 1 := by
    rw [nbits, ← hf]
    norm_cast
  have hcond : (signed && decide (0 < l) && nbits f.toNat (l - 1) 1 == 1) = true ↔ signed = true ∧ 0 < l ∧ f / 2 ^ (l - 1) % 2 = 1 := by
    rw [Bool.and_eq_true, Bool.and_eq_true, decide_eq_true_eq, beq_iff_eq, hbit, and_assoc]
  have hw : bfeW signed a pos len = wd (if signed && 0 < l && nbits f.toNat (l - 1) 1 == 1 then f.toNat + (2 ^ 32 - 2 ^ l) else f.toNat) := by
    simp only [f, ← ediv_two_pow_min hv pos]
    rfl
  rw [hw]
  refine (wd_modEq _).trans ?_
  by_cases hc : signed = true ∧ 0 < l ∧ f / 2 ^ (l - 1) % 2 = 1
  · rw [if_pos (hcond.mpr hc), if_pos hc]
    rw [Nat.cast_add, Nat.cast_sub hl, hf, Nat.cast_pow, Nat.cast_pow, Nat.cast_ofNat, show f + (2 ^ 32 - 2 ^ l) = f - 2 ^ l + 2 ^ 32 by ring]
    exact Int.add_modEq_right
  · rw [if_neg (mt hcond.mp hc), if_neg hc, hf]
/-- A field inserted replaces the bits of its place alone (R134). -/
theorem bfiW_bit (base ins : Word) (pos len : Nat) {k : Nat} (hk : k < 32) :
    (bfiW base ins pos len).getLsbD k = if pos ≤ k ∧ k < pos + min len 32 then ins.getLsbD (k - pos) else base.getLsbD k := by
  have hm : (wd (2 ^ min len 32 - 1) <<< pos).getLsbD k = decide (pos ≤ k ∧ k < pos + min len 32) := by
    rw [BitVec.getLsbD_shiftLeft, wd, BitVec.getLsbD_ofNat, Nat.testBit_two_pow_sub_one]
    simp only [← Bool.decide_and, ← decide_not]
    congr 1
    exact propext (by omega)
  unfold bfiW
  dsimp only
  split
  · rw [if_neg (by omega)]
  · rw [BitVec.getLsbD_or, BitVec.getLsbD_and, BitVec.getLsbD_and, BitVec.getLsbD_not, hm, BitVec.getLsbD_shiftLeft]
    by_cases hin : pos ≤ k ∧ k < pos + min len 32
    · simp [hin, hk, Nat.not_lt.mpr hin.1]
    · simp [hin, hk]

/-! ### Bit counts (R135) -/

theorem popW_eq (n k : Nat) : popW n k = (List.range k).countP n.testBit := by
  induction k with
  | zero => rfl
  | succ k ih =>
    rw [popW, List.range_succ, List.countP_append, ih, List.countP_singleton, nbits_one, b2n, Nat.add_comm]
/-- The count of leading zeros: zeros down to a one, or to the end. -/
theorem clzW_spec (n k : Nat) : clzW n k ≤ k ∧ (∀ i, k - clzW n k ≤ i → i < k → n.testBit i = false) ∧
    (clzW n k < k → n.testBit (k - clzW n k - 1) = true) := by
  induction k with
  | zero => exact ⟨Nat.le_refl _, fun _ _ h => absurd h (Nat.not_lt_zero _), fun h => absurd h (Nat.not_lt_zero _)⟩
  | succ k ih =>
    obtain ⟨hle, hz, ho⟩ := ih
    rw [clzW, nbits_one]
    cases hb : n.testBit k with
    | true => simp only [b2n, if_true]; exact ⟨Nat.zero_le _, by omega, fun _ => hb⟩
    | false =>
      simp only [b2n, Bool.false_eq_true, if_false, Nat.zero_ne_one, Nat.add_sub_add_right]
      refine ⟨by omega, fun i h1 h2 => ?_, fun h => ho (by omega)⟩
      rcases Nat.lt_succ_iff_lt_or_eq.mp h2 with h | rfl
      · exact hz i h1 h
      · exact hb
/-- The count of trailing zeros from a bit on: zeros up to a one, or to the end. -/
theorem ctzFrom_spec (n i k : Nat) : ctzFrom n i k ≤ k ∧ (∀ m, m < ctzFrom n i k → n.testBit (i + m) = false) ∧
    (ctzFrom n i k < k → n.testBit (i + ctzFrom n i k) = true) := by
  induction k generalizing i with
  | zero => exact ⟨Nat.le_refl _, fun _ h => absurd h (Nat.not_lt_zero _), fun h => absurd h (Nat.not_lt_zero _)⟩
  | succ k ih =>
    obtain ⟨hle, hz, ho⟩ := ih (i + 1)
    rw [ctzFrom, nbits_one]
    cases hb : n.testBit i with
    | true => simp only [b2n, if_true]; exact ⟨Nat.zero_le _, by omega, fun _ => hb⟩
    | false =>
      simp only [b2n, Bool.false_eq_true, if_false, Nat.zero_ne_one]
      refine ⟨by omega, fun m hm => ?_, fun h => ?_⟩
      · cases m with
        | zero => exact hb
        | succ m => rw [← Nat.add_assoc, Nat.add_right_comm]; exact hz m (by omega)
      · rw [← Nat.add_assoc, Nat.add_right_comm]; exact ho (by omega)
theorem brevW_lt (n k : Nat) : brevW n k < 2 ^ k := by
  induction k with
  | zero => exact Nat.one_pos
  | succ k ih =>
    rw [brevW, nbits_one]
    cases n.testBit k <;> simp only [b2n, if_true, if_false, Bool.false_eq_true] <;> omega
theorem brevW_testBit (n k : Nat) {m : Nat} (hm : m < k) : (brevW n k).testBit m = n.testBit (k - 1 - m) := by
  induction k generalizing m with
  | zero => exact absurd hm (Nat.not_lt_zero _)
  | succ k ih =>
    have hbit : brevW n (k + 1) = Nat.bit (n.testBit k) (brevW n k) := by
      rw [brevW, nbits_one, Nat.bit_val, Nat.mul_comm]
      cases n.testBit k <;> rfl
    rw [hbit]
    cases m with
    | zero => rw [Nat.testBit_bit_zero]; rfl
    | succ m => rw [Nat.testBit_bit_succ, ih (by omega)]; congr 1; omega

/-- Settles O10: shifts and fields are of the number modulo its width, inserts and reversal go bit by bit, and each count comes with the bits that
it passes. -/
theorem shiftsFieldsCounts : Obligations.ShiftsFieldsCounts := by
  refine ⟨fun c ty o => ⟨fun hd => does_affValue rfl hd fun _ _ => shlW_modEq ty _ _, does_value rfl fun x j => ?_, does_value rfl fun x j => ?_,
    does_value rfl fun x j => ?_, wordOf_D _ rfl fun x j k hk => bfiW_bit _ _ _ _ hk⟩, fun c wide o => ⟨does_value rfl fun x j => ?_, ?_, ?_, ?_⟩⟩
  · rw [shrW_toNat (valW_lt x ty.wide o.a j)]
  · rw [← ediv_two_pow_min (int_bounds x ty o.a j)]
    exact modW_modEq ty _
  · rw [toNat_zx64]
    exact bfeW_modEq ty.signed _ _ _
  · rw [popW_eq]
    exact dw_modEq _ _
  · exact does_imp (does_value (g := fun x j => clzW (x.valW wide o.a j).toNat (bw wide)) rfl fun _ _ => dw_modEq _ _)
      fun s x t ⟨hv, hl⟩ => ⟨_, hv, fun j => clzW_spec _ _, hl⟩
  · refine does_imp (does_value (g := fun x j => ctzFrom (x.valW wide o.a j).toNat 0 (bw wide)) rfl fun _ _ => dw_modEq _ _)
      fun s x t ⟨hv, hl⟩ => ⟨_, hv, fun j => ?_, hl⟩
    have h := ctzFrom_spec (x.valW wide o.a j).toNat 0 (bw wide)
    simp only [Nat.zero_add] at h
    exact h
  · exact does_imp (does_value (g := fun x j => brevW (x.valW wide o.a j).toNat (bw wide)) rfl fun _ _ => dw_modEq _ _)
      fun s x t ⟨hv, hl⟩ => ⟨_, hv, fun j k => ⟨brevW_lt _ _, fun hk => brevW_testBit _ _ hk⟩, hl⟩

end Sys2Proof.Machine
end

section
/-! Compares and predicate logic (R138, R139), sticky flags (R130, R158) and the generator (R104, R166). -/
namespace Sys2Proof.Machine
open Sys2Proof.Safety

/-- Settles O12: each pair of predicates is the truth of the condition, or of the tables, and its complement. -/
theorem compares : Obligations.Compares := by
  intro c ty cond bop f1 f2 o r holds comb
  have hholds (a b : Int) : holds a b = condOf cond a b := by
    cases cond with
    | ne => exact (decide_not (p := a = b)).symm
    | _ => rfl
  have hcomb (t q : Bool) : comb t q = bopOf bop t q := by cases bop <;> rfl
  simp only [hholds, hcomb, ← toTy_immVal]
  refine ⟨does_preds _ _ rfl fun _ _ => rfl, does_pred _ rfl fun _ _ => rfl, does_preds _ _ rfl fun x id => ?_⟩
  simp only [beq_iff_eq]
  rfl

/-! ### The generator -/

section
variable {i : Instr} {p : Price} {gs : Iss → Nat → DWord}
/-- The generator state of the guard-true lanes after it is the last thing written. -/
theorem gs_last {s t : State} {x : Iss} {u : Warp} {gs : Nat → DWord} (hu : u.lanes.length = x.w.lanes.length)
    (h : warpOf t x = if x.g != 0 then u.seed x.g gs else x.stepped s) {j : Nat} (hj : Iss.On x j) : (laneIn t x j).gs = gs j := by
  rw [laneIn, h, if_pos (by simpa using on_guard hj)]
  exact gs_seed _ _ _ (hu.symm ▸ hj.1) hj.2
/-- The generator seeded. -/
theorem does_seed (he : exec i = issueReg i p fun x w => w.seed x.g (gs x)) :
    Does i never fun s x t => (∀ j, Iss.On x j → (laneIn t x j).gs = gs x j) ∧ Leaves s t x [4096] 0 := by
  have h := does_reg (i := i) (fun x w => w.seed x.g (gs x)) he (fun _ _ _ => rfl) (keys := [4096]) (flags := 0)
    fun x w => seed_frame _ List.mem_cons_self (WFrame.refl w x.g _ _)
  exact does_imp h fun s x t ⟨hw, hl⟩ => ⟨fun j => gs_last (stepped_length x s) hw, hl⟩
/-- A result, and then the generator. -/
theorem does_valueSeed {d : Opd} {wide : Bool} {f : Iss → Nat → DWord}
    (he : exec i = issueReg i p fun x w => (x.writeD w d wide (f x)).seed x.g (gs x)) :
    Does i never fun s x t => Gets t x d wide (fun j => (f x j).toNat) ∧ (∀ j, Iss.On x j → (laneIn t x j).gs = gs x j) ∧
      Leaves s t x (spanKeys (d, wn wide) ++ [4096]) 0 := by
  have h := does_reg (i := i) (fun x w => (x.writeD w d wide (f x)).seed x.g (gs x)) he (fun _ _ _ => rfl)
    (keys := spanKeys (d, wn wide) ++ [4096]) (flags := 0) fun x w =>
      seed_frame _ (by simp) (WFrame.write rfl (fun _ h => List.mem_append_left _ h) fun _ => by simp [wd])
  refine does_imp h fun s x t ⟨hw, hl⟩ => ⟨?_, fun j => gs_last ((write_length ..).trans (stepped_length x s)) hw, hl⟩
  refine gets_write (f := fun j => (f x j, 0)) (stepped_length x s) (fun r j _ hg => ?_) fun r _ hg => ?_
  · rw [laneIn, hw, if_pos (by simpa using hg)]
    obtain ⟨g, hg⟩ := laneOf_seed x.g (gs x) (x.writeD (x.stepped s) d wide (f x)) j
    rw [hg]
    rfl
  · rw [hw, if_pos (by simpa using hg)]
    rfl
end
/-- What NextRand gives is the high word of its mixed state (R104). -/
theorem toNat_zx64_hi32 (v : DWord) : (zx64 (hi32 v)).toNat = v.toNat / 2 ^ 32 := by
  rw [toNat_zx64, hi32, BitVec.extractLsb'_toNat, Nat.shiftRight_eq_div_pow, Nat.mod_eq_of_lt (by omega)]

/-- Settles O13: the flags are read and cleared in place, and the generator's state is a part of each lane that these forms write and read. -/
theorem stickyFlagsAndGenerator : Obligations.StickyFlagsAndGenerator := by
  refine ⟨fun c m4 m5 o => ⟨?_, does_value rfl fun _ _ => by rw [toNat_zx64], does_value rfl fun _ _ => by rw [toNat_zx64],
    does_clear _ rfl, does_clear _ rfl⟩, fun c o => ⟨does_seed rfl, does_value rfl fun _ _ => rfl, ?_⟩⟩
  · exact does_imp (does_reg (i := .nop c o) (fun _ w => w) rfl (fun _ _ _ => rfl) fun x w => WFrame.refl w x.g [] 0) fun _ _ _ h => h.2
  · refine does_imp (does_valueSeed (gs := fun x j => (genNext (laneOf x.w j).gs).1) (d := o.d) (wide := false)
      (f := fun x j => zx64 (genNext (laneOf x.w j).gs).2) rfl) fun s x t ⟨hv, hg, hl⟩ => ⟨gets_congr hv fun j => ?_, hg, hl⟩
    rw [genNext, toNat_zx64_hi32]

end Sys2Proof.Machine
end

section
/-! Selecting, moving, reading other lanes and voting (R136, R140 to R145): the lanes of a set in order, and the summaries of them. -/
namespace Sys2Proof.Machine
open Sys2Proof.Safety

/-! ### The lanes of a set -/

theorem modEq_of_eq {a b n : Int} (h : a = b) : a ≡ b [ZMOD n] := h ▸ Int.ModEq.rfl

theorem lt_64_of_inMask {m : Mask} {j : Nat} (h : inMask m j = true) : j < 64 := by
  by_contra hn
  exact Bool.false_ne_true ((inMask_ge (Nat.not_lt.mp hn)).symm.trans h)
/-- The lanes of a set are those below a width that a test holds of, in order. -/
theorem lanesOf_eq_filter {m : Mask} {n : Nat} {p : Nat → Bool} (h : ∀ j, inMask m j = (decide (j < n) && p j)) :
    lanesOf m = (List.range n).filter p := by
  refine (List.pairwise_lt_range.filter _).eq_of_mem_iff (List.pairwise_lt_range.filter _) fun j => ?_
  rw [List.mem_filter, List.mem_filter, List.mem_range, List.mem_range, and_iff_right_of_imp lt_64_of_inMask, h, Bool.and_eq_true, decide_eq_true_eq]
/-- A number is the sum of the powers of two that it has. -/
theorem mod_two_pow_eq_sum (n k : Nat) : n % 2 ^ k = (((List.range k).filter n.testBit).map (2 ^ ·)).sum := by
  induction k with
  | zero => simp [Nat.mod_one]
  | succ k ih =>
    rw [Nat.mod_pow_succ, ih, ← Nat.toNat_testBit, List.range_succ, List.filter_append, List.map_append, List.sum_append, List.filter_singleton]
    cases n.testBit k <;> simp
theorem toNat_eq_sum (m : Mask) : m.toNat = ((lanesOf m).map (2 ^ ·)).sum :=
  (Nat.mod_eq_of_lt m.isLt).symm.trans (mod_two_pow_eq_sum m.toNat 64)
theorem eq_zero_iff_lanesOf (m : Mask) : m = 0 ↔ lanesOf m = [] := by
  refine ⟨fun h => by rw [h]; exact List.filter_eq_nil_iff.mpr fun j _ => by simp [inMask], fun h => BitVec.eq_of_toNat_eq ?_⟩
  rw [toNat_eq_sum, h]
  rfl

/-! ### Votes (R145) -/

/-- The number that a vote gives: of a set of lanes, those of which the predicate holds and those of which it does not. -/
def voteNumber (mode : VoteMode) (width : Nat) (yes no : List Nat) : Nat :=
  match mode with
  | .mask => (yes.map fun j => 2 ^ j).sum
  | .cnt => yes.length
  | .cntf => no.length
  | .first => yes.head?.getD width
  | .last => yes.getLast?.getD width
theorem voteOf_modEq (mode : VoteMode) (width : Nat) (set : Mask) (p : Nat → Bool) (hset : ∀ j, inMask set j = true → j < width) :
    (voteOf mode width set p).toNat ≡ voteNumber mode width ((List.range width).filter fun j => inMask set j && p j)
      ((List.range width).filter fun j => inMask set j && !p j) [ZMOD 2 ^ bw (mode == .mask)] := by
  let t : Mask := maskOf width fun i => inMask set i && p i
  have ht (j : Nat) : inMask t j = (decide (j < width) && (inMask set j && p j)) := by
    by_cases hj : j < 64
    · simp [t, hj]
    · simp [t, inMask_ge (Nat.not_lt.mp hj)]
  have hno (j : Nat) : inMask (set &&& ~~~t) j = (decide (j < width) && (inMask set j && !p j)) := by
    rw [inMask_and, show inMask (~~~t) j = (decide (j < 64) && !inMask t j) from BitVec.getLsbD_not, ht]
    cases hs : inMask set j with
    | false => simp
    | true => simp [hset j hs, lt_64_of_inMask hs]
  rw [← lanesOf_eq_filter ht, ← lanesOf_eq_filter hno]
  cases mode with
  | mask => exact modEq_of_eq (congrArg _ (toNat_eq_sum t))
  | cnt => exact dw_modEq _ _
  | cntf => exact dw_modEq _ _
  | first =>
    refine (dw_modEq _ _).trans (modEq_of_eq (congrArg _ ?_))
    simp only [eq_zero_iff_lanesOf, lowest, voteNumber]
    show (if lanesOf t = [] then width else (lanesOf t).headD 0) = (lanesOf t).head?.getD width
    cases lanesOf t <;> simp
  | last =>
    refine (dw_modEq _ _).trans (modEq_of_eq (congrArg _ ?_))
    simp only [eq_zero_iff_lanesOf, voteNumber]
    show (if lanesOf t = [] then width else (lanesOf t).getLastD 0) = (lanesOf t).getLast?.getD width
    cases lanesOf t <;> simp [List.getLast?_cons]
theorem lt_width_of_active {w : Warp} {j : Nat} (h : inMask w.activeSet j = true) : j < w.width := by
  rw [Warp.activeSet, inMask_maskOf, Bool.and_eq_true, Bool.and_eq_true, decide_eq_true_eq, decide_eq_true_eq] at h
  exact h.1.2

/-! ### Reads of other lanes (R143, R144) -/

/-- The source lane of a pattern, of six bits of the lane's number (R143). -/
theorem patLane_eq (ctl : Word) (width : Nat) {j : Nat} (hj : j < 64) : patLane ctl width j =
    let k : Int := (BitVec.ofNat 6 j &&& ~~~ctl.extractLsb' 8 6 ^^^ ctl.extractLsb' 0 6).toNat
    let ofs : Int := (ctl.extractLsb' 16 7).toInt
    if ctl.getLsbD 24 then (k + ofs) % width else k + ofs := by
  have hbits (lo : Nat) : wd (wbits ctl lo 6) = (ctl.extractLsb' lo 6).setWidth 32 := by
    apply BitVec.eq_of_toNat_eq
    simp [wd, wbits, nbits, BitVec.extractLsb'_toNat, Nat.shiftRight_eq_div_pow]
  have hlane : wd j = (BitVec.ofNat 6 j).setWidth 32 := by
    apply BitVec.eq_of_toNat_eq
    simp [wd, Nat.mod_eq_of_lt hj]
  have hk : wd j &&& ~~~wd (wbits ctl 8 6) ^^^ wd (wbits ctl 0 6) =
      (BitVec.ofNat 6 j &&& ~~~ctl.extractLsb' 8 6 ^^^ ctl.extractLsb' 0 6).setWidth 32 := by
    rw [hbits, hbits, hlane, BitVec.setWidth_xor, BitVec.setWidth_and]
    congr 1
    ext b hb
    by_cases h6 : b < 6
    · simp [h6]
    · simp [BitVec.getLsbD_of_ge _ b (Nat.not_lt.mp h6)]
  have hnat : (wd j &&& ~~~wd (wbits ctl 8 6) ^^^ wd (wbits ctl 0 6)).toNat =
      (BitVec.ofNat 6 j &&& ~~~ctl.extractLsb' 8 6 ^^^ ctl.extractLsb' 0 6).toNat := by
    rw [hk, BitVec.toNat_setWidth_of_le (by decide)]
  simp only [patLane, hnat]
/-- Predicates equal where the instruction acts are equal predicates. -/
theorem getsPred_on {t : State} {x : Iss} {d : Opd} {f g : Nat → Bool} (h : GetsPred t x d f) (e : ∀ j, inMask x.g j = true → f j = g j) :
    GetsPred t x d g := by
  cases d with
  | p n => exact fun j hj => (h j hj).trans (e j hj.2)
  | _ => trivial
/-- A lane read where the group has it, and the filling value elsewhere (R144). A source lane matters only to lanes that a mask can hold. -/
theorem does_lanex {i : Instr} {p : Price} {wide : Bool} {o : O5} {lane src : Iss → Nat → Int} (he : exec i = issueReg i p (lanexW wide o lane))
    (hs : ∀ x j, j < 64 → lane x j = src x j) : Does i never fun s x t =>
      let ok (j : Nat) : Bool := decide (0 ≤ src x j ∧ src x j < x.w.width) && inMask x.mask (src x j).toNat
      Gets t x o.d wide (fun j => if ok j then ((x.valW wide o.a (src x j).toNat).toNat : Int) else
        (if wide then (x.val o.c j).toInt else (x.val o.c j).toNat)) ∧
      (GetsPred t x o.e fun j => !ok j) ∧ Leaves s t x (spanKeys (o.d, wn wide) ++ spanKeys (o.e, 1)) 0 := by
  let present (x : Iss) (j : Nat) : Bool := decide (0 ≤ lane x j) && decide (lane x j < x.w.width) && inMask x.mask (lane x j).toNat
  let fill (x : Iss) (j : Nat) : DWord := if wide then sx64 (x.val o.c j) else zx64 (x.val o.c j)
  have h := does_valuePred (fun x j => if present x j then x.valW wide o.a (lane x j).toNat else fill x j) (fun x j => !present x j) he
    fun _ _ => rfl
  have hfill (x : Iss) (j : Nat) : (fill x j).toNat ≡ if wide then (x.val o.c j).toInt else (x.val o.c j).toNat [ZMOD 2 ^ bw wide] := by
    cases wide
    · exact modEq_of_eq (congrArg _ (toNat_zx64 _))
    · exact sx64_modEq _
  refine does_imp h fun s x t ⟨hv, hp, hl⟩ => ?_
  intro ok
  have hok {j : Nat} (hj : inMask x.g j = true) : present x j = ok j := by
    simp only [present, ok, hs x j (lt_64_of_inMask hj), Bool.decide_and]
  refine ⟨gets_on hv fun j hj => ?_, getsPred_on hp fun j hj => by rw [hok hj], hl⟩
  rw [hok hj, hs x j (lt_64_of_inMask hj)]
  cases ok j
  · exact hfill x j
  · rfl

/-- Settles O11: the copies are single results, a lane read is a result with a predicate, and a vote is a number read off the lanes in order. -/
theorem selectMoveLanes : Obligations.SelectMoveLanes := by
  have zx (w : Word) (wide : Bool) : ((zx64 w).toNat : Int) ≡ w.toNat [ZMOD 2 ^ bw wide] := by rw [toNat_zx64]
  refine ⟨fun c wide o r => ⟨does_value rfl fun x j => ?_, fun hd => does_affValue rfl hd fun _ _ => rfl, does_value rfl fun _ _ => zx _ _,
      does_value rfl fun _ _ => zx _ _, does_value rfl fun _ _ => zx _ _, does_value rfl fun _ _ => zx _ _, does_value rfl fun _ _ => zx _ _,
      does_value rfl fun _ _ => zx _ _⟩,
    fun c wide mode o => ⟨?_, ⟨does_lanex rfl fun _ _ _ => rfl, does_lanex rfl fun _ _ hj => patLane_eq _ _ hj⟩, ?_⟩⟩
  · rw [apply_ite BitVec.toNat]
  · let ok (x : Iss) : Bool := decide ((x.val o.b 0).toNat < x.w.width) && inMask x.w.activeSet (x.val o.b 0).toNat
    exact does_imp (does_valuePred (fun x _ => zx64 (if ok x then x.val o.a (x.val o.b 0).toNat else x.val o.c 0)) (fun x _ => !ok x) rfl
      fun _ _ => rfl) fun s x t ⟨hv, hp, hl⟩ => ⟨gets_congr hv fun _ => zx _ _, hp, hl⟩
  · refine does_imp (does_writeD rfl) fun s x t ⟨hv, hl⟩ => ⟨gets_congr hv fun _ => ?_, hl⟩
    refine (voteOf_modEq mode _ _ _ fun j => lt_width_of_active).trans (modEq_of_eq ?_)
    cases mode <;> rfl

end Sys2Proof.Machine
end

section
/-! Floating-point results of one rounding or of a selection (R149, R150, R152 to R157): the flags that each can raise (R107, R110, R112), the elements
that an instruction writes, and the sign bit. -/
namespace Sys2Proof.Machine
open Sys2Proof.Safety

/-! ### Flags raised -/

/-- No flag outside a set, as `CvtFlags` says of one set. -/
def FlagsIn (flags : Word) (n : Nat) : Prop := wd n &&& ~~~flags = 0
section
variable {flags : Word}
theorem flagsIn_zero : FlagsIn flags 0 := BitVec.zero_and
theorem flagsIn_or {a b : Nat} (ha : FlagsIn flags a) (hb : FlagsIn flags b) : FlagsIn flags (a ||| b) := by
  have h : wd (a ||| b) = wd a ||| wd b := by simp [wd, BitVec.ofNat_or]
  unfold FlagsIn at *
  rw [h, BitVec.and_or_distrib_right, ha, hb]
  rfl
theorem flagsIn_ite {a b : Nat} {p : Prop} [Decidable p] (ha : FlagsIn flags a) (hb : FlagsIn flags b) : FlagsIn flags (if p then a else b) :=
  iteInduction (fun _ => ha) fun _ => hb
end

/-- The flags of a floating-point result (R112). -/
theorem flagsIn_invalid : FlagsIn 0x1F fIV := by unfold FlagsIn; decide
theorem flagsIn_pack (f : FFmt) (mode : Rnd) (sat neg : Bool) (enc : Nat) {fl : Nat} (h : FlagsIn 0x1F fl) :
    FlagsIn 0x1F (f.pack mode sat neg enc fl).2 := by
  have hover : FlagsIn 0x1F ((fl ||| fOF) ||| fNX) :=
    flagsIn_or (flagsIn_or h (by unfold FlagsIn; decide)) (by unfold FlagsIn; decide)
  unfold FFmt.pack
  split
  · exact h
  · exact hover
theorem flagsIn_roundMag (f : FFmt) (mode : Rnd) (sat : Bool) (r : Nat) (neg : Bool) (n : Nat) (e : Int) (st : Bool) :
    FlagsIn 0x1F (roundMag f mode sat r neg n e st).2 := by
  have hinexact (p : Prop) [Decidable p] : FlagsIn 0x1F (fNX + if p then fUF else 0) := by
    split <;> unfold FlagsIn <;> decide
  rw [roundMag_eq]
  exact flagsIn_pack _ _ _ _ _ (flagsIn_ite flagsIn_zero (hinexact _))
theorem flagsIn_convert (f : FFmt) (mode : Rnd) (sat : Bool) (r : Nat) (v : FVal) : FlagsIn 0x1F (convert f mode sat r v).2 := by
  unfold convert
  split
  · exact flagsIn_ite flagsIn_invalid flagsIn_zero
  · split_ifs
    exacts [flagsIn_zero, flagsIn_invalid, flagsIn_zero]
  · split_ifs
    exacts [flagsIn_zero, flagsIn_roundMag _ _ _ _ _ _ _ _]
theorem flagsIn_addV (f : FFmt) (a b : FVal) : FlagsIn 0x1F (addV f a b).2 := by
  unfold addV
  split
  · exact flagsIn_ite flagsIn_invalid flagsIn_zero
  · exact flagsIn_ite flagsIn_invalid flagsIn_zero
  · split_ifs
    exacts [flagsIn_zero, flagsIn_invalid]
  · exact flagsIn_zero
  · exact flagsIn_zero
  · dsimp only
    split_ifs
    exacts [flagsIn_zero, flagsIn_roundMag _ _ _ _ _ _ _ _]
theorem flagsIn_mulV (f : FFmt) (a b : FVal) : FlagsIn 0x1F (mulV f a b).2 := by
  unfold mulV
  split
  · exact flagsIn_invalid
  · exact flagsIn_convert _ _ _ _ _
theorem flagsIn_fmaV (f : FFmt) (nb : Bool) (a b c : FVal) : FlagsIn 0x1F (fmaV f nb a b c).2 := by
  unfold fmaV
  split
  · exact flagsIn_invalid
  · exact flagsIn_addV _ _ _

/-- The only flag of a selection or of a compare (R110, R157). -/
theorem flagsIn_signalling (b : Bool) : FlagsIn (wd fIV) (if b then fIV else 0) :=
  flagsIn_ite (BitVec.and_not_self _) flagsIn_zero
theorem flagsIn_minMax (f : FFmt) (wantMax : Bool) (a b : Nat) : FlagsIn (wd fIV) (minMax f wantMax a b).2 := by
  unfold minMax
  dsimp only
  rw [apply_ite Prod.snd, apply_ite Prod.snd, apply_ite Prod.snd]
  have h := flagsIn_signalling ((f.decode a).isSig || (f.decode b).isSig)
  exact flagsIn_ite h (flagsIn_ite h (flagsIn_ite h flagsIn_zero))

/-! ### Elements written -/

/-- A result of one element, or of a packed pair of them, with the flags of both (R93, R113). -/
theorem does_elements {i : Instr} {d : Opd} {p : Price} {ft : FTy} {g : Iss → Nat → Nat → Nat × Nat} {flags : Word}
    (he : exec i = issueFp i d p ft g) (hf : ∀ x j e, FlagsIn flags (g x j e).2) :
    Does i never fun s x t =>
      Gets t x d false (fun j => if ftPair ft then (g x j 0).1 + 65536 * (g x j 1).1 else (g x j 0).1) ∧
      Flags t x d (fun j => if ftPair ft then (g x j 0).2 ||| (g x j 1).2 else (g x j 0).2) ∧
      Leaves s t x (spanKeys (d, 1)) flags := by
  have hpack (x : Iss) (j : Nat) : fpack ft (g x j) = (dw (if ftPair ft then (g x j 0).1 + 65536 * (g x j 1).1 else (g x j 0).1),
      if ftPair ft then (g x j 0).2 ||| (g x j 1).2 else (g x j 0).2) := by
    unfold fpack
    split <;> rfl
  have hflags (x : Iss) (j : Nat) : FlagsIn flags (fpack ft (g x j)).2 := by
    rw [hpack]
    exact flagsIn_ite (flagsIn_or (hf ..) (hf ..)) (hf ..)
  have h := does_reg (i := i) (fun x => x.put d false fun j => fpack ft (g x j)) he (fun _ _ _ => rfl) (keys := spanKeys (d, 1)) (flags := flags)
    fun x _ => WFrame.write rfl (fun _ h => h) (hflags x)
  refine does_imp h fun s x t ⟨hw, hl⟩ => ⟨gets_congr (gets_last hw) fun j => ?_, ?_, hl⟩
  · rw [hpack]
    refine (dw_modEq _ false).trans (modEq_of_eq ?_)
    split <;> push_cast <;> rfl
  · have := flags_last (f := fun j => ((fpack ft (g x j)).1.setWidth 128, (fpack ft (g x j)).2)) hw
    simpa only [hpack] using this

/-- Settles O14: each form writes its elements, and a sum, a product and a fused form raise floating-point flags only. -/
theorem floatArithmetic : Obligations.FloatArithmetic := by
  intro c ft o r f elems v imm
  have rule {i : Instr} {d : Opd} {p : Price} {g : Iss → Nat → Nat → Nat × Nat} (he : exec i = issueFp i d p ft g)
      (hf : ∀ x j e, FlagsIn 0x1F (g x j e).2) : elems i d g := does_elements he hf
  clear_value elems
  have sum {i : Instr} {d : Opd} {p : Price} {a b : Iss → Nat → Nat → FVal}
      (he : exec i = issueFp i d p ft fun x j e => addV f (a x j e) (b x j e)) := rule he fun _ _ _ => flagsIn_addV _ _ _
  have product {i : Instr} {d : Opd} {p : Price} {a b : Iss → Nat → Nat → FVal}
      (he : exec i = issueFp i d p ft fun x j e => mulV f (a x j e) (b x j e)) := rule he fun _ _ _ => flagsIn_mulV _ _ _
  have fused {i : Instr} {d : Opd} {p : Price} {nb : Bool} {a b k : Iss → Nat → Nat → FVal}
      (he : exec i = issueFp i d p ft fun x j e => fmaV f nb (a x j e) (b x j e) (k x j e)) := rule he fun _ _ _ => flagsIn_fmaV _ _ _ _ _
  exact ⟨sum rfl, sum rfl, sum rfl, sum rfl, product rfl, product rfl, fused rfl, fused rfl, fused rfl⟩

/-! ### Sign bits (R156) -/

section
variable {f : FFmt} (hw : 0 < f.w)
include hw
theorem two_pow_width : 2 ^ f.w = 2 * 2 ^ (f.w - 1) := by rw [← pow_succ', Nat.sub_add_cancel hw]
/-- The sign bit flipped by an addition modulo the width. -/
theorem flipSign_eq {b : Nat} (hb : b < 2 ^ f.w) :
    (b + 2 ^ (f.w - 1)) % 2 ^ f.w = if b < 2 ^ (f.w - 1) then b + 2 ^ (f.w - 1) else b - 2 ^ (f.w - 1) := by
  rw [two_pow_width hw] at hb ⊢
  split
  · exact Nat.mod_eq_of_lt (by omega)
  · rw [Nat.mod_eq_sub_mod (by omega), Nat.mod_eq_of_lt (by omega)]
    omega
theorem signed_lt_of_lt (neg : Bool) {mag : Nat} (h : mag < 2 ^ (f.w - 1)) : f.signed neg mag < 2 ^ f.w := by
  rw [two_pow_width hw, FFmt.signed]
  cases neg <;> simp only [b2n, if_true, Bool.false_eq_true, if_false] <;> omega
/-- In a format with an infinity every rounded magnitude has the format's width. -/
theorem pack_lt (hmax : f.maxEnc + 1 < 2 ^ (f.w - 1)) (h8 : f.e4m3 = false) (mode : Rnd) (sat neg : Bool) (enc fl : Nat) :
    (f.pack mode sat neg enc fl).1 < 2 ^ f.w := by
  have hsigned {mag : Nat} (h : mag ≤ f.maxEnc + 1) : f.signed neg mag < 2 ^ f.w := signed_lt_of_lt hw neg (h.trans_lt hmax)
  unfold FFmt.pack
  split
  · exact hsigned (by omega)
  · dsimp only
    rw [h8, if_neg Bool.false_ne_true]
    split
    · exact hsigned (Nat.le_succ _)
    · exact hsigned (Nat.le_refl _)
theorem convert_fin_lt (hmax : f.maxEnc + 1 < 2 ^ (f.w - 1)) (h8 : f.e4m3 = false) (mode : Rnd) (sat : Bool) (r : Nat) (neg : Bool)
    (n : Nat) (e : Int) : (convert f mode sat r (.fin neg n e)).1 < 2 ^ f.w := by
  unfold convert
  dsimp only
  split
  · exact signed_lt_of_lt hw neg (by positivity)
  · rw [roundMag_eq]
    exact pack_lt hw hmax h8 _ _ _ _ _
end
/-- An element has its format's width (R149, R150). -/
theorem fbits_lt (x : Iss) (ft : FTy) (a : Opd) (j e : Nat) : x.fbits ft a j e < 2 ^ (ftFmt ft).w := by
  cases a with
  | imm k => exact convert_fin_lt (by cases ft <;> decide) (by cases ft <;> decide) (by cases ft <;> rfl) _ _ _ _ _ _
  | _ => exact Nat.mod_lt _ (by positivity)

/-! ### Compares (R157) -/

/-- A predicate read from the lanes that it was written in. -/
theorem getsPred_of_lanes {t : State} {x : Iss} {d : Opd} {p : Nat → Bool}
    (h : ∀ n : Fin 12, d = .p n → ∀ j, Iss.On x j → (laneIn t x j).p.getLsbD n.val = p j) : GetsPred t x d p := by
  cases d with
  | p n => exact h n rfl
  | _ => trivial
theorem setPred_getLsbD_same (x : Iss) (n : Fin 12) (p : Nat → Bool) (w : Warp) {j : Nat} (hj : j < w.lanes.length) (hg : inMask x.g j = true) :
    (laneOf (x.setPred (.p n) p w) j).p.getLsbD n.val = p j := by
  rw [Iss.setPred, laneOf_mapLanes _ _ _ _ hj, if_pos hg]
  exact (setP_getLsbD _ _ _ _ n.isLt).trans (if_pos rfl)
/-- Two predicates, of which the second stands where both are one register, and then sticky flags. -/
theorem does_predsFlags {i : Instr} {price : Price} {d e : Opd} (p q : Iss → Nat → Bool) (fl : Iss → Nat → Nat) {flags : Word}
    (he : exec i = issueReg i price fun x w => (x.setPred e (q x) (x.setPred d (p x) w)).mapLanes x.g fun j l => l.orFlags (fl x j))
    (hf : ∀ x j, FlagsIn flags (fl x j)) :
    Does i never fun s x t => (d ≠ e → GetsPred t x d (p x)) ∧ GetsPred t x e (q x) ∧
      (∀ j, Iss.On x j → (laneIn t x j).flg = (laneOf x.w j).flg ||| wd (fl x j)) ∧
      Leaves s t x (spanKeys (d, 1) ++ spanKeys (e, 1)) flags := by
  have h := does_reg (i := i) _ he (fun _ _ _ => rfl) (keys := spanKeys (d, 1) ++ spanKeys (e, 1)) (flags := flags) fun x w =>
    ((WFrame.setPred rfl fun _ h => List.mem_append_left _ h).trans (WFrame.setPred rfl fun _ h => List.mem_append_right _ h)).trans
      (WFrame.lanes (fun _ _ _ _ _ => rfl) (fun _ _ _ _ _ => rfl) (fun j l => orFlags_flag l _ (hf x j)) fun _ _ _ => rfl)
  refine does_imp h fun s x t ⟨hw, hl⟩ => ?_
  let first : Warp := x.setPred d (p x) (x.stepped s)
  have hlen : first.lanes.length = x.w.lanes.length := (setPred_length ..).trans (stepped_length x s)
  have hlane {j : Nat} (hj : Iss.On x j) : laneIn t x j = (laneOf (x.setPred e (q x) first) j).orFlags (fl x j) := by
    rw [laneIn, hw, if_pos (by simpa using on_guard hj), laneOf_mapLanes _ _ _ _ (by rw [setPred_length]; exact hlen ▸ hj.1), if_pos hj.2]
  refine ⟨fun hde => getsPred_of_lanes fun n hd j hj => ?_, getsPred_of_lanes fun n hn j hj => ?_, fun j hj => ?_, hl⟩
  · rw [hlane hj]
    refine (setPred_getLsbD_ne (by rw [← hd]; exact hde.symm) _ _ _).trans ?_
    subst hd
    exact setPred_getLsbD_same _ _ _ _ ((stepped_length x s).symm ▸ hj.1) hj.2
  · rw [hlane hj]
    subst hn
    exact setPred_getLsbD_same _ _ _ _ (hlen.symm ▸ hj.1) hj.2
  · obtain ⟨a, ha⟩ := laneOf_setPred x d (p x) (x.stepped s) j
    obtain ⟨b, hb⟩ := laneOf_setPred x e (q x) first j
    obtain ⟨l, hs, -, -, hflg, -⟩ := laneOf_stepped x s j
    rw [hlane hj, hb, ha, hs, ← hflg]
    rfl

/-- Settles O15: the formulas of R155 take minima and maxima one after another and raise what each of them does, an element has a sign bit to clear or
flip, and a compare writes its predicates before its flags. -/
theorem floatSelect : Obligations.FloatSelect := by
  intro c ft cond bop o f elems lo hi v comb
  have select {i : Instr} {p : Price} {g g' : Iss → Nat → Nat → Nat × Nat} (he : exec i = issueFp i o.d p ft g)
      (hf : ∀ x j e, FlagsIn (wd fIV) (g x j e).2) (hg : ∀ x j e, g x j e = g' x j e) : elems i g' := by
    rw [← funext fun x => funext fun j => funext (hg x j)]
    exact does_elements he hf
  clear_value elems
  have hmin (a b : Nat) := flagsIn_minMax f false a b
  have hmax (a b : Nat) := flagsIn_minMax f true a b
  have hcomb (t q : Bool) : comb t q = bopOf bop t q := by cases bop <;> rfl
  have hwidth : 0 < f.w := by cases ft <;> decide
  refine ⟨select rfl (fun _ _ _ => hmin _ _) fun x j e => ?_, select rfl (fun _ _ _ => hmax _ _) fun x j e => ?_,
    select rfl (fun _ _ _ => flagsIn_or (flagsIn_or (flagsIn_or (hmin _ _) (hmax _ _)) (hmin _ _)) (hmax _ _)) fun x j e => ?_,
    select rfl (fun _ _ _ => flagsIn_or (hmax _ _) (hmin _ _)) fun x j e => ?_,
    select rfl (fun _ _ _ => flagsIn_zero) fun _ _ _ => rfl,
    select rfl (fun _ _ _ => flagsIn_zero) fun x j e => congrArg (·, 0) (flipSign_eq hwidth (fbits_lt x ft o.a j e)), ?_⟩
  · simp [lo, v, f]
  · simp [hi, v, f]
  · simp [lo, hi, v, f, fmedB, Nat.or_assoc]
  · simp [lo, hi, v, f, fclampB]
  · simp only [hcomb]
    exact does_predsFlags _ _ _ rfl fun _ _ => flagsIn_signalling _

end Sys2Proof.Machine
end

section
/-! What actions leave beside the warps (`Rest`), what issuing leaves to the body of an instruction, and the reservation tables of the clusters. -/
namespace Sys2Proof.Machine
open Sys2Proof.Safety

/-! ### Parts that an action spares -/

theorem rest_trans {s t u : State} {but : List Safety.Part} (h : Rest s t but) (k : Rest t u but) : Rest s u but where
  mem := fun hp a => (k.mem hp a).trans (h.mem hp a)
  hw := fun r n h1 h2 h3 => (k.hw r n h1 h2 h3).trans (h.hw r n h1 h2 h3)
  cores := fun hp => (k.cores hp).trans (h.cores hp)
  wgs := fun hp => (k.wgs hp).trans (h.wgs hp)
  launches := fun hp => (k.launches hp).trans (h.launches hp)
  queues := fun hp => (k.queues hp).trans (h.queues hp)
  ctxs := fun hp => (k.ctxs hp).trans (h.ctxs hp)
  stores := fun hp => (k.stores hp).trans (h.stores hp)
  arrivals := fun hp => (k.arrivals hp).trans (h.arrivals hp)
  fabric := fun hp => (k.fabric hp).trans (h.fabric hp)
theorem rest_mono {s t : State} {but but' : List Safety.Part} (h : Rest s t but) (hb : but ⊆ but') : Rest s t but' where
  mem := fun hp => h.mem fun hm => hp (hb hm)
  hw := h.hw
  cores := fun hp => h.cores fun hm => hp (hb hm)
  wgs := fun hp => h.wgs fun hm => hp (hb hm)
  launches := fun hp => h.launches fun hm => hp (hb hm)
  queues := fun hp => h.queues fun hm => hp (hb hm)
  ctxs := fun hp => h.ctxs fun hm => hp (hb hm)
  stores := fun hp => h.stores fun hm => hp (hb hm)
  arrivals := fun hp => h.arrivals fun hm => hp (hb hm)
  fabric := fun hp => h.fabric fun hm => hp (hb hm)

/-- An update that changes no part but those named, and no hardware register. -/
def Upd.Within (but : List Safety.Part) : Upd → Prop
  | .byte _ _ => .mem ∈ but
  | .reg _ _ _ | .memClear _ | .powerCut | .hwClear => False
  | .wg _ _ => .wgs ∈ but
  | .launch _ _ => .launches ∈ but
  | .ctx _ _ => .ctxs ∈ but
  | .queue _ _ => .queues ∈ but
  | .core _ _ => .cores ∈ but
  | .stores _ => .stores ∈ but
  | .arrivals _ => .arrivals ∈ but
  | .fabric _ => .fabric ∈ but
  | _ => True
theorem rest_applyUpd {but : List Safety.Part} {u : Upd} (h : u.Within but) (s : State) : Rest s (applyUpd s u) but := by
  cases u
  case reg | memClear | powerCut | hwClear => exact h.elim
  case byte => exact { rest_refl s but with mem := fun hp => absurd h hp }
  case wg => exact { rest_refl s but with wgs := fun hp => absurd h hp }
  case launch => exact { rest_refl s but with launches := fun hp => absurd h hp }
  case ctx => exact { rest_refl s but with ctxs := fun hp => absurd h hp }
  case queue => exact { rest_refl s but with queues := fun hp => absurd h hp }
  case core => exact { rest_refl s but with cores := fun hp => absurd h hp }
  case stores => exact { rest_refl s but with stores := fun hp => absurd h hp }
  case arrivals => exact { rest_refl s but with arrivals := fun hp => absurd h hp }
  case fabric => exact { rest_refl s but with fabric := fun hp => absurd h hp }
  all_goals exact { rest_refl s but with }

/-- An action that changes no part but those named. -/
def Spares (but : List Safety.Part) (a : Action) : Prop := ∀ s, Rest s (run a s) but
section
variable {but : List Safety.Part}
theorem spares_skip : Spares but skip := fun s => rest_refl s but
theorem spares_nil : Spares but (acts []) := fun s => rest_refl s but
theorem spares_cons {a : Action} {l : List Action} (h : Spares but a) (hl : Spares but (acts l)) : Spares but (acts (a :: l)) := fun s => by
  rw [run_acts_cons]
  exact rest_trans (h s) (hl _)
theorem spares_forEach {β : Type} {l : List β} {f : β → Action} (h : ∀ x ∈ l, Spares but (f x)) : Spares but (forEach l f) := by
  induction l with
  | nil => exact spares_nil
  | cons x l ih => exact spares_cons (h x List.mem_cons_self) (ih fun y hy => h y (List.mem_cons_of_mem _ hy))
theorem spares_look {g : State → Action} (h : ∀ s, Spares but (g s)) : Spares but (look g) := fun s => h s s
theorem spares_ite {p : Prop} [Decidable p] {a b : Action} (ha : Spares but a) (hb : Spares but b) : Spares but (if p then a else b) := by
  split
  exacts [ha, hb]
/-- A list of updates computed from the state. -/
theorem spares_list {g : State → List Upd} (h : ∀ s, ∀ u ∈ g s, u.Within but) : Spares but g := fun s => by
  have key (us : List Upd) (hu : ∀ u ∈ us, u.Within but) (t : State) : Rest t (commit t us) but := by
    induction us generalizing t with
    | nil => exact rest_refl t but
    | cons u us ih => exact rest_trans (rest_applyUpd (hu u List.mem_cons_self) t) (ih (fun v hv => hu v (List.mem_cons_of_mem _ hv)) _)
  exact key _ (h s) s
theorem spares_upd {u : Upd} (h : u.Within but) : Spares but (upd u) := rest_applyUpd h
theorem spares_modCore {c : Nat} {f : Core → Core} (h : .cores ∈ but) : Spares but (modCore c f) := fun _ => rest_applyUpd (u := .core _ _) h _
theorem spares_modCluster {c : Nat} {f : Cluster → Cluster} : Spares but (modCluster c f) := fun _ => rest_applyUpd (u := .cluster _ _) trivial _
theorem spares_modWarp {k : Nat} {f : Warp → Warp} : Spares but (modWarp k f) := spares_list fun s u hu => by
  unfold modWarp at hu
  split at hu
  · rw [List.mem_singleton.mp hu]; trivial
  · exact nomatch hu
theorem spares_modWg {k : Nat} {f : Workgroup → Workgroup} (h : .wgs ∈ but) : Spares but (modWg k f) := spares_list fun s u hu => by
  unfold modWg at hu
  split at hu
  · rw [List.mem_singleton.mp hu]; exact h
  · exact nomatch hu
theorem spares_charge {c : Option Nat} {cs : List Chg} : Spares but (charge c cs) := fun s =>
  rest_mono (rest_of_restView (congrArg Prod.fst (keeps_charge_rest c cs s))) (List.nil_subset _)
theorem spares_chargeW {w : Warp} {cs : List Chg} : Spares but (chargeW w cs) := spares_ite spares_skip spares_charge
theorem keeps_chargeW_warps (w : Warp) (cs : List Chg) : Keeps (fun s => s.warps) (chargeW w cs) := by
  unfold chargeW
  split
  · exact keeps_skip
  · exact keeps_charge (by simp) (by simp) (by simp)
theorem spares_l1Discard {c : Nat} (h : .cores ∈ but) : Spares but (l1Discard c) := fun _ => rest_applyUpd (u := .core _ _) h _
end

/-! ### What issuing leaves to a body -/

section
variable {i : Instr} {busy : Iss → State → Bool} {s t : State} {x : Iss} {price : List Chg}
theorem issued_rest (h : Issues i busy s x) (price : List Chg) (but : List Safety.Part) : Rest s (x.issued price s) but :=
  have hframe : WFrame x.w (warpOf (x.issued price s) x) x.g [] 0 := by
    rw [warpOf, issued_warps _ _ _ (issOf_warp h.1), if_pos rfl]
    exact stepped_frame x s [] 0
  rest_mono (leaves_of (issued_quiet x price s (issOf_warp h.1)) hframe).2 (List.nil_subset _)
/-- Where some guard is true, the outcome is what the body leaves. -/
theorem issue_run (h : Issues i busy s x) (hg : x.g ≠ 0) (price : Iss → List Chg) (body : Iss → Nat → Action) :
    issue i price busy body s = .next (run (body x s.nextId) (x.issued (price x) s)) := by
  rw [issue_go h, run_go, if_pos (by simpa using hg)]
theorem wgOf_issued (h : Issues i busy s x) (price : List Chg) (w : Warp) : wgOf (x.issued price s) w = wgOf s w := by
  rw [wgOf, wgOf, (issued_quiet x price s (issOf_warp h.1)).wgs]
theorem coreOf_issued (h : Issues i busy s x) (price : List Chg) (n : Nat) : coreOf (x.issued price s) n = coreOf s n := by
  rw [coreOf, coreOf, (issued_quiet x price s (issOf_warp h.1)).cores]
theorem still_of_frame {keys : List Nat} {flags : Word} (hf : WFrame x.w (warpOf t x) x.g keys flags)
    (hw : ∀ k, k ≠ x.k → find t.warps k = find s.warps k) : Still s t x keys flags :=
  ⟨hf.vary, hf.uni, hf.aff, hf.pred, hf.flag, hf.flagOff, hf.gen, hw⟩
/-- A body that leaves the warps leaves every register. -/
theorem still_of_issued (h : Issues i busy s x) (hw : t.warps = (x.issued price s).warps) : Still s t x [] 0 := by
  have hi := issued_warps x price s (issOf_warp h.1)
  have hwarp : warpOf t x = x.stepped s := by rw [warpOf, hw, hi, if_pos rfl]; rfl
  exact still_of_frame (hwarp ▸ stepped_frame x s [] 0) fun k hk => by rw [hw, hi, if_neg hk]
end

/-! ### Reservation tables -/

/-- The entries of each cluster's table, and the passes that a block has before it. -/
def tableView (s : State) : (Nat → List ResEntry) × (Nat → Nat → Nat → Bool) := (fun n => (clusterOf s n).table, passesOn s)
section
variable {α : Type}
theorem any_of_findD {m : SMap α} {k : Nat} {d : α} {p : α → Bool} (hd : p d = false) (h : p (findD m k d) = true) :
    (m.any fun e => p e.2) = true := by
  induction m with
  | nil => exact absurd h (by simp [findD, hd])
  | cons e r ih =>
    obtain ⟨j, w⟩ := e
    by_cases hj : j = k
    · simp [show p w = true by simpa [findD, find, hj] using h]
    · simp [ih (by simpa [findD, find, hj] using h)]
/-- A test of the values of a map, after a change of one that passes it as before. -/
theorem any_put (m : SMap α) (k : Nat) (v d : α) (p : α → Bool) (hv : p v = p (findD m k d)) (hd : p d = false) :
    ((put m k v).any fun e => p e.2) = m.any fun e => p e.2 := by
  have hput : ((put m k v).any fun e => p e.2) = (p v || (m.any fun e => p e.2)) := by
    clear hd
    induction m with
    | nil => simp [put]
    | cons e r ih =>
      obtain ⟨j, w⟩ := e
      unfold put
      split
      · rfl
      · split
        · next hj => simp [show p w = p v by rw [hv]; simp [findD, find, hj]]
        · next hj =>
          have hr : p v = p (findD r k d) := by rw [hv, findD, find, if_neg (fun e => hj e.symm)]; rfl
          rw [List.any_cons, List.any_cons, ih hr, Bool.or_left_comm]
  rw [hput]
  cases hp : p v with
  | false => rfl
  | true => rw [any_of_findD hd (hv ▸ hp)]; rfl
end
theorem tableView_cluster (s : State) (n : Nat) (c : Cluster) (h : c.table = (clusterOf s n).table) :
    tableView (applyUpd s (.cluster n c)) = tableView s := by
  refine Prod.ext (funext fun k => ?_) (funext fun gk => funext fun b => funext fun age => ?_)
  · show (findD (put s.clusters n c) k _).table = _
    rw [findD_put]
    split
    · next hk => rw [hk]; exact h
    · rfl
  · refine any_put s.clusters n c ⟨[], [], [], [], 0, none, 0, [], []⟩
      (fun c => c.table.any fun r => r.wg == gk && decide (r.id < age) && decide (r.blk ≤ b) && decide (b < r.blk + r.n)) ?_ rfl
    rw [h]; rfl
theorem keeps_modCluster_table {n : Nat} {f : Cluster → Cluster} (h : ∀ c, (f c).table = c.table) : Keeps tableView (modCluster n f) :=
  fun s => tableView_cluster s n _ (h _)
theorem keeps_attrCharge_table (acct : Nat) (cs : List Chg) : Keeps tableView (attrCharge acct cs) := keeps_forEach fun c _ s => by
  unfold run
  dsimp only
  split
  · rfl
  · exact tableView_cluster s _ _ rfl
/-- A charge adds to sums of clusters, not to their tables. -/
theorem keeps_charge_table (c : Option Nat) (cs : List Chg) : Keeps tableView (charge c cs) := by
  intro s
  unfold charge run
  cases c with
  | none => exact keeps_attrCharge_table 0 cs s
  | some n =>
    dsimp only
    split
    · refine keeps_cons ?_ (keeps_cons (fun _ => rfl) (keeps_cons (keeps_attrCharge_table _ _) keeps_nil)) s
      refine keeps_list fun s u hu t => ?_
      unfold debit at hu
      simp only [List.mem_append, List.mem_cons, List.not_mem_nil, or_false] at hu
      rcases hu with (rfl | rfl) | h
      · rfl
      · rfl
      · split at h
        · exact nomatch h
        · rw [List.mem_singleton.mp h]; rfl
    · rfl
theorem keeps_chargeW_table (w : Warp) (cs : List Chg) : Keeps tableView (chargeW w cs) := by
  unfold chargeW
  split
  · exact keeps_skip
  · exact keeps_charge_table _ _
theorem issued_table (x : Iss) (price : List Chg) (s : State) : tableView (x.issued price s) = tableView s := by
  unfold Iss.issued
  refine keeps_cons (fun _ => rfl) (keeps_cons ?_ (keeps_cons (keeps_chargeW_table _ _) (keeps_cons ?_ (keeps_cons (keeps_modWarp fun _ _ _ => rfl) keeps_nil)))) s
  · split
    · exact keeps_skip
    · exact keeps_modCluster_table fun _ => rfl
  · split
    · exact fun _ => rfl
    · exact keeps_skip

end Sys2Proof.Machine
end

section
/-! Convergence registers (R178 to R182, R190, R191): their declaration and signatures, and the A block that a matrix instruction takes (R173). -/
namespace Sys2Proof.Machine
open Sys2Proof.Safety

/-! ### A workgroup's convergence registers -/

section
variable {g : Workgroup} {k n : Nat} {f : Cv → Cv}
theorem nth_modCv_same (h : n < g.cvs.length) : nth (modCv g n f).cvs n noCv = f (nth g.cvs n noCv) := by
  rw [modCv, nth_mapI _ _ _ _ h, if_pos rfl]
theorem nth_modCv_ne (h : k ≠ n) : nth (modCv g n f).cvs k noCv = nth g.cvs k noCv := by
  by_cases hk : k < g.cvs.length
  · rw [modCv, nth_mapI _ _ _ _ hk, if_neg h]
  · rw [modCv, nth_of_ge _ _ _ (by simpa using Nat.not_lt.mp hk), nth_of_ge _ _ _ (Nat.not_lt.mp hk)]
end

section
variable {i : Instr} {busy : Iss → State → Bool} {s : State} {x : Iss} {g : Workgroup}
/-- An issued instruction whose body changes its workgroup alone. -/
theorem wg_does {price : Iss → List Chg} {body : Iss → Nat → Action} (f : Workgroup → Workgroup) (h : Issues i busy s x) (hg : x.g ≠ 0)
    (hw : wgOf s x.w = some g)
    (hb : run (body x s.nextId) (x.issued (price x) s) = run (modWg x.w.wg f) (x.issued (price x) s)) :
    ∃ t, issue i price busy body s = .next t ∧ find t.wgs x.w.wg = some (f g) ∧ Still s t x [] 0 ∧ Rest s t [.wgs] := by
  have hi : find (x.issued (price x) s).wgs x.w.wg = some g := (wgOf_issued h (price x) x.w).trans hw
  refine ⟨_, issue_run h hg price body, ?_, ?_, rest_trans (issued_rest h (price x) _) ?_⟩
  · rw [hb, run_modWg _ _ _ _ hi]
    simp
  · rw [hb, run_modWg _ _ _ _ hi]
    exact still_of_issued h rfl
  · rw [hb]
    exact spares_modWg (by decide) _
/-- An issued instruction whose body changes nothing. -/
theorem skip_does {price : Iss → List Chg} {body : Iss → Nat → Action} (h : Issues i busy s x) (hg : x.g ≠ 0)
    (hb : run (body x s.nextId) (x.issued (price x) s) = x.issued (price x) s) :
    ∃ t, issue i price busy body s = .next t ∧ Still s t x [] 0 ∧ Rest s t [] :=
  ⟨_, issue_run h hg price body, by rw [hb]; exact still_of_issued h rfl, by rw [hb]; exact issued_rest h _ _⟩
end

/-- What `cvdecl` makes of its register (R190). -/
def declared (o : O5) (x : Iss) : Cv := ⟨true, x.w.index, x.k, match o.a with | .v n => n.val | _ => 0,
  (match o.b with | .s _ => x.val64 o.b 0 | _ => 0xFFFFFFFFFFFFFFFF) &&& maskOf 64 (fun i => decide (i < x.w.width)), 0, none⟩
def cvdeclBody (o : O5) (x : Iss) (_ : Nat) : Action := modWg x.w.wg fun g => modCv g (cvNo o.d) fun _ => declared o x
theorem exec_cvdecl (c : Ctl) (o : O5) (s : State) :
    exec (.cvdecl c o) s = issue (.cvdecl c o) (fun x => x.price .uni) never (cvdeclBody o) s := rfl
/-- Signatures added to a register (R191). -/
def Cv.signed (g : Mask) (v : Cv) : Cv := { v with sigs := v.sigs ||| (g &&& v.m) }
def signBody (o : O5) (x : Iss) (_ : Nat) : Action := look fun s => match wgOf s x.w with
  | none => skip
  | some g =>
    let v := cvOf g (cvNo o.a)
    if !v.declared then x.trap cauCv 0 0
    else if v.wk != x.k then skip
    else modWg x.w.wg fun g => modCv g (cvNo o.a) (Cv.signed x.g)
theorem exec_sign (c : Ctl) (o : O5) (s : State) :
    exec (.sign c o) s = issue (.sign c o) (fun x => x.price (.vary 3)) never (signBody o) s := rfl
/-- Only the declaring warp signs. -/
theorem run_signBody {o : O5} {x : Iss} {id : Nat} {t : State} {g : Workgroup} (hw : wgOf t x.w = some g)
    (hd : (cvOf g (cvNo o.a)).declared = true) : run (signBody o x id) t =
      if (cvOf g (cvNo o.a)).wk = x.k then run (modWg x.w.wg fun g => modCv g (cvNo o.a) (Cv.signed x.g)) t else t := by
  rw [signBody, run_look, hw]
  dsimp only
  rw [hd, Bool.not_true, if_neg Bool.false_ne_true]
  by_cases hk : (cvOf g (cvNo o.a)).wk = x.k
  · rw [if_pos hk, if_neg (by simpa using hk)]
  · rw [if_neg hk, if_pos (by simpa using hk)]; rfl

/-- Settles O26: the body of either instruction changes one convergence register of its workgroup, and `sign` of a warp that did not declare it none. -/
theorem convergence : Obligations.Convergence := by
  intro c n o g
  refine ⟨fun hd s x h hg hw hn => ?_, fun ha s x h hg hw hn hdecl => ?_⟩
  · obtain ⟨t, ht, hwg, hst, hr⟩ := wg_does (price := fun x => x.price .uni) (body := cvdeclBody o) _ h hg hw rfl
    refine ⟨t, _, (exec_cvdecl c o s).trans ht, hwg, ?_, fun k hk => ?_, hst, hr⟩
    · rw [hd]
      exact nth_modCv_same hn
    · rw [hd]
      exact nth_modCv_ne hk
  · have hcv : cvOf g (cvNo o.a) = nth g.cvs n.val noCv := by rw [ha]; rfl
    have hbody := run_signBody (o := o) (id := s.nextId) ((wgOf_issued h (x.price (.vary 3)) x.w).trans hw) (hcv ▸ hdecl)
    rw [hcv] at hbody
    rw [exec_sign]
    by_cases hk : (nth g.cvs n.val noCv).wk = x.k
    · rw [if_pos hk] at hbody
      obtain ⟨t, ht, hwg, hst, hr⟩ := wg_does (price := fun x => x.price (.vary 3)) (body := signBody o) _ h hg hw hbody
      refine ⟨t, ht, hst, fun _ => ⟨hr, _, hwg, ?_, fun k hk => ?_⟩, fun hne => absurd hk hne⟩
      · rw [ha]
        exact nth_modCv_same hn
      · rw [ha]
        exact nth_modCv_ne hk
    · rw [if_neg hk] at hbody
      obtain ⟨t, ht, hst, hr⟩ := skip_does (price := fun x => x.price (.vary 3)) (body := signBody o) h hg hbody
      exact ⟨t, ht, hst, fun he => absurd he hk, fun _ => hr⟩

end Sys2Proof.Machine
end

section
/-! Matrix instructions (R172, R173, R181, R183, R192): the A block that GetA takes, and the entry that they post. -/
namespace Sys2Proof.Machine
open Sys2Proof.Safety

/-! ### Runs of equal length -/

section
variable {α : Type} {f : Nat → List α} {n : Nat}
theorem length_flatMap_range (hf : ∀ k, (f k).length = n) (a : Nat) : ((List.range a).flatMap f).length = n * a := by
  induction a with
  | zero => rfl
  | succ a ih => rw [List.range_succ, List.flatMap_append, List.length_append, ih, List.flatMap_singleton, hf, Nat.mul_succ]
theorem getElem?_flatMap_range (hf : ∀ k, (f k).length = n) {a k j : Nat} (hk : k < a) (hj : j < n) :
    ((List.range a).flatMap f)[n * k + j]? = (f k)[j]? := by
  induction a with
  | zero => exact absurd hk (Nat.not_lt_zero k)
  | succ a ih =>
    rw [List.range_succ, List.flatMap_append, List.flatMap_singleton]
    rcases Nat.lt_succ_iff_lt_or_eq.mp hk with h | rfl
    · rw [List.getElem?_append_left (by rw [length_flatMap_range hf]; nlinarith), ih h]
    · rw [List.getElem?_append_right (by rw [length_flatMap_range hf]; omega), length_flatMap_range hf, Nat.add_sub_cancel_left]
end

/-! ### The A block (R173) -/

section
variable {w u : Warp} {vb : Nat} {set : Mask} {m k : Nat}
theorem half_eq (w : Word) (h : Nat) : half w h = w.toNat / 2 ^ (16 * h) % 2 ^ 16 := rfl
theorem aElem_lt : aElem w vb set m k < 2 ^ 16 := by
  unfold aElem
  dsimp only
  split
  · exact Nat.mod_lt _ (by norm_num)
  · norm_num
/-- Element (m, k) is a half of a word of the block. -/
theorem aAt_aBlock (hm : m < 32) (hk : k < 32) : (aAt (aBlock w vb set) m k).toNat = aElem w vb set m k := by
  have hword : nth (aBlock w vb set) (16 * k + m / 2) 0 =
      wd (aElem w vb set (2 * (m / 2)) k + 65536 * aElem w vb set (2 * (m / 2) + 1) k) := by
    rw [nth, List.getD_eq_getElem?_getD, aBlock, getElem?_flatMap_range (n := 16) (by simp) hk (by omega)]
    simp [show m / 2 < 16 by omega]
  have h0 : aElem w vb set (2 * (m / 2)) k < 2 ^ 16 := aElem_lt
  have h1 : aElem w vb set (2 * (m / 2) + 1) k < 2 ^ 16 := aElem_lt
  rw [aAt, hword, half_eq, wd, wd, BitVec.toNat_ofNat, BitVec.toNat_ofNat]
  rcases Nat.mod_two_eq_zero_or_one m with he | ho
  · have e : 2 * (m / 2) = m := by omega
    rw [e] at h0 h1 ⊢
    rw [he]; omega
  · have e : 2 * (m / 2) + 1 = m := by omega
    rw [e] at h1 ⊢
    rw [ho]; omega
/-- The block depends on the registers, the states of the lanes and the width alone. -/
theorem aBlock_congr (hw : u.width = w.width) (hr : ∀ j r, (laneOf u j).rd r = (laneOf w j).rd r)
    (ha : ∀ j, (laneOf u j).active = (laneOf w j).active) : aBlock u vb set = aBlock w vb set := by
  have (m k : Nat) : aElem u vb set m k = aElem w vb set m k := by simp only [aElem, hw, hr, ha]
  simp only [aBlock, this]
end
/-- An instruction that its own warp issues leaves the block as it was. -/
theorem aBlock_stepped (x : Iss) (s : State) (vb : Nat) (set : Mask) : aBlock (x.stepped s) vb set = aBlock x.w vb set := by
  refine aBlock_congr rfl (fun j r => ?_) fun j => ?_ <;> obtain ⟨l, e, hv, -, -, -, hst, -⟩ := laneOf_stepped x s j
  · rw [e, Lane.rd, hv]; rfl
  · rw [e, Lane.active, hst]; rfl

/-! ### GetA and the entry -/

/-- What GetA takes of a register: the latch, or the block of the declaring warp. -/
def getA (s : State) (v : Cv) : List Word := match v.latch with
  | some a => a
  | none => match cvWarp s v with
    | some w => aBlock w v.vb v.m
    | none => List.replicate 512 0
/-- The register after a matrix instruction has taken `a` (R181). -/
def Cv.taken (reuse : Bool) (a : List Word) (v : Cv) : Cv :=
  { v with sigs := if v.latch.isNone then 0 else v.sigs, latch := if reuse then some a else none }
/-- The entry that a matrix instruction posts. -/
def mmaEntry (n : Nat) (take z sparse : Bool) (o : O5) (x : Iss) (id prio : Nat) (a : List Word) : ResEntry :=
  ⟨id, x.point id, x.w.core, x.w.ctx, x.w.wg, x.uval o.b, x.uval o.c, n, take, z, sparse, prio, 0, a, false, 0, [], [], []⟩
/-- An instruction posts an entry: its register, the table, and with TAKE the tiles that may be granted to it. -/
def postEntry (x : Iss) (q : Nat) (reuse : Bool) (g : Workgroup) (e : ResEntry) : Action := acts [
  modWg x.w.wg fun g => modCv g q (Cv.taken reuse e.a),
  modCluster (clusterNo x.w.core) fun c => { c with table := c.table ++ [e] },
  if e.take then forEach (tileRun g e.tile e.n) fun p => regrant x.w.wg p else skip]

section
variable {s t : State} {x : Iss} {g : Workgroup} {n : Nat} {o : O5} {take z sparse : Bool}
/-- The checks of a matrix instruction whose blocks and tiles are allotted and whose register is declared. -/
theorem mmaCheck_none (hw : wgOf t x.w = some g) (hd : (cvOf g (cvNo o.a)).declared = true) (hb : x.uval o.b + n ≤ g.accs.length)
    (hc : x.uval o.c + n ≤ g.tiles.length) : mmaCheck t x n o = none := by
  rw [mmaCheck, Iss.accs, Iss.tiles, hw]
  dsimp only
  rw [if_neg (by omega), if_neg (by omega), hd]
  rfl
theorem run_mmaPost (hw : wgOf t x.w = some g) (hd : (cvOf g (cvNo o.a)).declared = true) (hb : x.uval o.b + n ≤ g.accs.length)
    (hc : x.uval o.c + n ≤ g.tiles.length) (id : Nat) : run (mmaPost n take z sparse o x id) t =
      run (postEntry x (cvNo o.a) (ctlOf x.i).reuse g
        (mmaEntry n take z sparse o x id (ctxClass t x.w.ctx) (getA t (cvOf g (cvNo o.a))))) t := by
  rw [mmaPost, run_look, mmaCheck_none hw hd hb hc, hw]
  rfl
/-- R248: a tile granted changes its core alone. -/
theorem keeps_regrant {α : Type} {f : State → α} {gk p : Nat} (h : ∀ s k w, f (applyUpd s (.core k w)) = f s) : Keeps f (regrant gk p) := by
  refine keeps_look fun s => ?_
  split
  · exact keeps_skip
  · dsimp only
    split
    · split
      · exact keeps_modTile h
      · exact keeps_skip
    · exact keeps_skip
theorem spares_regrant {but : List Safety.Part} {gk p : Nat} (h : .cores ∈ but) : Spares but (regrant gk p) := by
  refine spares_look fun s => ?_
  split
  · exact spares_skip
  · refine spares_ite ?_ spares_skip
    split
    · exact spares_modCore h
    · exact spares_skip
theorem keeps_regrants {α : Type} {f : State → α} {e : ResEntry} (h : ∀ s k w, f (applyUpd s (.core k w)) = f s) :
    Keeps f (if e.take then forEach (tileRun g e.tile e.n) fun p => regrant x.w.wg p else skip) := by
  split
  · exact keeps_forEach fun p _ => keeps_regrant h
  · exact keeps_skip
theorem spares_postEntry {q : Nat} {reuse : Bool} {e : ResEntry} : Spares [.wgs, .cores] (postEntry x q reuse g e) :=
  spares_cons (spares_modWg (by decide)) (spares_cons spares_modCluster (spares_cons
    (spares_ite (spares_forEach fun _ _ => spares_regrant (by decide)) spares_skip) spares_nil))
theorem run_postEntry {q : Nat} {reuse : Bool} {e : ResEntry} (hw : wgOf t x.w = some g) :
    let t' := run (postEntry x q reuse g e) t
    find t'.wgs x.w.wg = some (modCv g q (Cv.taken reuse e.a)) ∧ t'.warps = t.warps ∧
      (clusterOf t' (clusterNo x.w.core)).table = (clusterOf t (clusterNo x.w.core)).table ++ [e] := by
  let u := applyUpd t (.wg x.w.wg (some (modCv g q (Cv.taken reuse e.a))))
  let v := run (modCluster (clusterNo x.w.core) fun c => { c with table := c.table ++ [e] }) u
  have hrun : run (postEntry x q reuse g e) t = run (if e.take then forEach (tileRun g e.tile e.n) fun p => regrant x.w.wg p else skip) v := by
    rw [postEntry, run_acts_cons, run_acts_cons, run_acts_cons, run_acts_nil, run_modWg _ _ _ _ hw]
  intro t'
  have hkeep : (t'.wgs, t'.warps, t'.clusters) = (v.wgs, v.warps, v.clusters) := by
    show (fun s : State => (s.wgs, s.warps, s.clusters)) (run _ _) = _
    rw [hrun]
    exact keeps_regrants (f := fun s => (s.wgs, s.warps, s.clusters)) (fun _ _ _ => rfl) v
  obtain ⟨hwgs, hwarps, hclusters⟩ : t'.wgs = v.wgs ∧ t'.warps = v.warps ∧ t'.clusters = v.clusters := by simpa using hkeep
  refine ⟨?_, hwarps, ?_⟩
  · rw [hwgs]
    exact (find_put _ _ _ _).trans (if_pos rfl)
  · rw [clusterOf, hclusters]
    show (findD (put u.clusters _ _) _ _).table = _
    rw [findD_put, if_pos rfl]
    rfl
/-- The declaring warp, before and after the instruction. -/
theorem getA_issued {i : Instr} {busy : Iss → State → Bool} (h : Issues i busy s x) (price : List Chg) {v : Cv} {w : Warp} (hv : cvWarp s v = some w)
    (hl : v.latch = none) : getA (x.issued price s) v = aBlock w v.vb v.m := by
  have hx := issOf_warp h.1
  rw [cvWarp] at hv
  have key (u : Warp) (hu : find (x.issued price s).warps v.wk = some u) : getA (x.issued price s) v = aBlock u v.vb v.m := by
    rw [getA, hl, cvWarp, hu]
  rw [issued_warps x price s hx] at key
  by_cases hk : v.wk = x.k
  · rw [hk, hx] at hv
    rw [key _ (if_pos hk), ← Option.some.inj hv]
    exact aBlock_stepped x s v.vb v.m
  · exact key _ ((if_neg hk).trans hv)
end

/-- Where element (m, k) of an A block lies (R173). -/
theorem aElem_eq (w : Warp) (vb : Nat) (set : Mask) (m k : Nat) : aElem w vb set m k =
    (let (lane, r) := if w.width = 64 then (m + 32 * (k / 16), vb + k % 16 / 2)
      else if w.width = 32 then (m, vb + k / 2) else (m % 16, vb + 16 * (m / 16) + k / 2)
    if inMask set lane = true ∧ (laneOf w lane).active = true then ((laneOf w lane).rd r).toNat / 2 ^ (16 * (k % 2)) % 2 ^ 16 else 0) := by
  unfold aElem aPlace
  split_ifs <;> simp only [Bool.and_eq_true, half_eq]

/-- Settles O27: the body posts the entry behind the others of its table, with what GetA takes of the state that issuing leaves. -/
theorem matrixPosts : Obligations.MatrixPosts := by
  intro c n1 take z o q n post
  have posts (i : Instr) (sparse : Bool) (hc : ctlOf i = c)
      (he : ∀ s, exec i s = issue i (fun x => x.price .uni) (mmaBusy n o) (mmaPost n take z sparse o) s) : post i sparse := by
    intro s x g dw' h hg hw ha hq hd hb ht hdw v el
    let t0 := x.issued (x.price .uni) s
    have hw0 : wgOf t0 x.w = some g := (wgOf_issued h _ _).trans hw
    have hv : cvOf g (cvNo o.a) = v := by rw [ha]; rfl
    have hclass : ctxClass t0 x.w.ctx = ctxClass s x.w.ctx := by
      rw [ctxClass, ctxClass, issued_hw x _ s _ _ (by decide) (by decide) (by decide)]
    let e := mmaEntry n take z sparse o x s.nextId (ctxClass s x.w.ctx) (getA t0 v)
    have hrun : run (mmaPost n take z sparse o x s.nextId) t0 = run (postEntry x q.val c.reuse g e) t0 := by
      rw [run_mmaPost hw0 (hv ▸ hd) hb ht, hv, hclass, issOf_ins h.1, hc, ha]; rfl
    obtain ⟨hwg, hwarps, htable⟩ := run_postEntry (q := q.val) (reuse := c.reuse) (e := e) hw0
    refine ⟨_, e, modCv g q.val (Cv.taken c.reuse e.a), (he s).trans (issue_run h hg _ _), ?_, rfl, rfl, rfl, rfl, rfl, rfl, rfl, rfl, rfl, rfl, rfl, rfl, rfl,
      fun a hl => ?_, fun hl m k hm hk => ?_, ?_, ?_, ?_, ?_, ?_⟩
    · rw [hrun, htable]
      exact congrArg (· ++ [e]) (congrFun (congrArg Prod.fst (issued_table x _ s)) _)
    · show getA t0 v = a
      rw [getA, hl]
    · show (aAt (getA t0 v) m k).toNat = _
      rw [getA_issued h _ hdw hl, aAt_aBlock hm hk, aElem_eq]
    · rw [hrun]; exact hwg
    · rw [nth_modCv_same hq]; rfl
    · rw [nth_modCv_same hq]; rfl
    · rw [hrun]; exact still_of_issued h hwarps
    · rw [hrun]; exact rest_trans (issued_rest h _ _) (spares_postEntry _)
  exact ⟨posts _ _ rfl fun _ => rfl, posts _ _ rfl fun _ => rfl⟩

end Sys2Proof.Machine
end

section
/-! Accumulator blocks (R176, R177, R189, R194, R195): blocks changed one by one, elements written one by one, and what `acc.free` waits for. -/
namespace Sys2Proof.Machine
open Sys2Proof.Safety

/-! ### Blocks changed -/

section
variable {s : State} {core p : Nat}
theorem coreOf_core (s : State) (core c : Nat) (r : Core) : coreOf (applyUpd s (.core core r)) c = if c = core then r else coreOf s c :=
  findD_put _ _ _ _ _
theorem coreOf_core_same (s : State) (core : Nat) (r : Core) : coreOf (applyUpd s (.core core r)) core = r :=
  (coreOf_core _ _ _ _).trans (if_pos rfl)
/-- A block of a core after one of its blocks has changed. -/
theorem accOf_modAcc (a q : Nat) (f : Acc → Acc) (s : State) :
    accOf (coreOf (run (modAcc core a f) s) core) q = if q = a then f (accOf (coreOf s core) a) else accOf (coreOf s core) q := by
  rw [modAcc, run_modCore, coreOf_core_same]
  exact findD_put _ _ _ _ _
theorem run_forEach_append {β : Type} (l m : List β) (f : β → Action) (s : State) :
    run (forEach (l ++ m) f) s = run (forEach m f) (run (forEach l f) s) := by
  induction l generalizing s with
  | nil => rfl
  | cons x l ih => rw [List.cons_append, run_forEach_cons, run_forEach_cons, ih]
theorem run_forEach_range_succ (n : Nat) (f : Nat → Action) (s : State) :
    run (forEach (List.range (n + 1)) f) s = run (f n) (run (forEach (List.range n) f) s) := by
  rw [List.range_succ, run_forEach_append, run_forEach_cons, run_forEach_nil]
/-- Distinct blocks changed one after another. -/
theorem accOf_modAccs {place : Nat → Nat} (f : Nat → Acc → Acc) (s : State) (n : Nat) (hp : ∀ i j, i < n → j < n → place i = place j → i = j) :
    let t := run (forEach (List.range n) fun j => modAcc core (place j) (f j)) s
    (∀ j, j < n → accOf (coreOf t core) (place j) = f j (accOf (coreOf s core) (place j))) ∧
      ∀ q, (∀ j, j < n → q ≠ place j) → accOf (coreOf t core) q = accOf (coreOf s core) q := by
  induction n with
  | zero => exact ⟨fun j hj => absurd hj (Nat.not_lt_zero j), fun q _ => rfl⟩
  | succ n ih =>
    obtain ⟨hin, hout⟩ := ih fun i j hi hj => hp i j (by omega) (by omega)
    intro t
    have ht : t = run (modAcc core (place n) (f n)) (run (forEach (List.range n) fun j => modAcc core (place j) (f j)) s) :=
      run_forEach_range_succ _ _ _
    refine ⟨fun j hj => ?_, fun q hq => ?_⟩
    · rw [ht, accOf_modAcc]
      by_cases hjn : j = n
      · subst hjn
        rw [if_pos rfl, hout _ fun i hi e => absurd (hp j i (by omega) (by omega) e) (by omega)]
      · rw [if_neg fun e => hjn (hp j n hj (by omega) e), hin j (by omega)]
    · rw [ht, accOf_modAcc, if_neg (hq n (by omega)), hout q fun j hj => hq j (by omega)]
/-- Changes of blocks of one core that each depend on something of the state that such changes keep. -/
theorem run_forEach_congr {P : State → Prop} {a b : Nat → Action} (h : ∀ j t, P t → run (a j) t = run (b j) t)
    (hP : ∀ j t, P t → P (run (b j) t)) (l : List Nat) (s : State) (hs : P s) : run (forEach l a) s = run (forEach l b) s := by
  induction l generalizing s with
  | nil => rfl
  | cons j l ih => rw [run_forEach_cons, run_forEach_cons, h j s hs, ih _ (hP j s hs)]
theorem nth_inj {l : List Nat} (h : l.Nodup) {i j : Nat} (hi : i < l.length) (hj : j < l.length) (e : nth l i 0 = nth l j 0) : i = j := by
  rw [nth, nth, List.getD_eq_getElem _ _ hi, List.getD_eq_getElem _ _ hj] at e
  exact (List.Nodup.getElem_inj_iff h).mp e
end

/-! ### Elements written -/

section
variable {ι : Type} {key : ι → Nat} {v : ι → Word} {l : List ι}
theorem findD_foldl_putD_out (m : SMap Word) {k : Nat} (hk : ∀ i ∈ l, k ≠ key i) :
    findD (l.foldl (fun m i => putD m (key i) (v i) 0) m) k 0 = findD m k 0 := by
  induction l generalizing m with
  | nil => rfl
  | cons i l ih => rw [List.foldl_cons, ih _ fun j hj => hk j (List.mem_cons_of_mem _ hj), findD_putD, if_neg (hk i List.mem_cons_self)]
theorem findD_foldl_putD_in (m : SMap Word) (hl : l.Nodup) (hinj : ∀ i ∈ l, ∀ j ∈ l, key i = key j → i = j) {i : ι} (hi : i ∈ l) :
    findD (l.foldl (fun m i => putD m (key i) (v i) 0) m) (key i) 0 = v i := by
  induction l generalizing m with
  | nil => exact absurd hi List.not_mem_nil
  | cons j l ih =>
    obtain ⟨hj, hl⟩ := List.nodup_cons.mp hl
    rw [List.foldl_cons]
    rcases List.mem_cons.mp hi with rfl | hi
    · rw [findD_foldl_putD_out _ fun k hk e => hj ?_, findD_putD, if_pos rfl]
      rwa [hinj i List.mem_cons_self k (List.mem_cons_of_mem _ hk) e]
    · exact ih _ hl (fun a ha b hb => hinj a (List.mem_cons_of_mem _ ha) b (List.mem_cons_of_mem _ hb)) hi
end
theorem accKey_eq (f0 i : Nat) : accKey f0 i = 32 * ((f0 + i) % 32) + (f0 + i) % 1024 / 32 := by
  simp only [accKey]; omega
theorem accKey_inj {f0 i j : Nat} (hi : i < 64) (hj : j < 64) (h : accKey f0 i = accKey f0 j) : i = j := by
  have places (F G : Nat) (hF : F < 1024) (hG : G < 1024) (e : 32 * (F % 32) + F / 32 = 32 * (G % 32) + G / 32) : F = G := by omega
  have := places _ _ (Nat.mod_lt _ (by norm_num)) (Nat.mod_lt _ (by norm_num)) h
  omega

/-! ### What `acc.free` waits for -/

/-- Warps that hold the same registers. -/
structure SameRegs (w u : Warp) : Prop where
  len : u.lanes.length = w.lanes.length
  vary : ∀ j, (laneOf u j).v = (laneOf w j).v
  uni : u.s = w.s
  aff : u.a = w.a
section
variable {w u : Warp}
theorem foldl_wr_v {ι : Type} (r : ι → Nat) (v : ι → Word) (js : List ι) {l m : Lane} (h : m.v = l.v) :
    (js.foldl (fun l j => l.wr (r j) (v j)) m).v = (js.foldl (fun l j => l.wr (r j) (v j)) l).v := by
  induction js generalizing l m with
  | nil => exact h
  | cons j js ih => exact ih (by simp only [Lane.wr, h])
theorem SameRegs.uncaptureOne (h : SameRegs w u) (p : Span × List Word) : SameRegs (uncaptureOne w p) (uncaptureOne u p) := by
  obtain ⟨⟨d, n⟩, ws⟩ := p
  cases d with
  | v r =>
    refine ⟨by simp [Machine.uncaptureOne, h.len], fun j => ?_, h.uni, h.aff⟩
    simp only [Machine.uncaptureOne, laneOf]
    by_cases hj : j < w.lanes.length
    · rw [nth_mapI _ _ _ _ hj, nth_mapI _ _ _ _ (h.len ▸ hj)]
      exact foldl_wr_v _ _ _ (h.vary j)
    · rw [nth_of_ge _ _ _ (by rw [length_mapI, h.len]; exact Nat.not_lt.mp hj), nth_of_ge _ _ _ (by simpa using Nat.not_lt.mp hj)]
  | s r =>
    have hs (l : List Nat) (w u : Warp) (h : SameRegs w u) : SameRegs (l.foldl (fun w j => w.wrS (r.val + j) (nth ws j 0)) w)
        (l.foldl (fun w j => w.wrS (r.val + j) (nth ws j 0)) u) := by
      induction l generalizing w u with
      | nil => exact h
      | cons j l ih => exact ih _ _ ⟨h.len, h.vary, by simp only [Warp.wrS, h.uni], h.aff⟩
    exact hs _ _ _ h
  | a r => exact ⟨h.len, h.vary, h.uni, by simp only [Machine.uncaptureOne, Warp.wrA, h.aff]⟩
  | _ => exact h
theorem SameRegs.uncapture (h : SameRegs w u) (i : Instr) (c : List (List Word)) : SameRegs (uncapture w i c) (uncapture u i c) := by
  unfold Machine.uncapture
  generalize (usesOf i).reads.zip c = l
  induction l generalizing w u with
  | nil => exact h
  | cons p l ih => exact ih (h.uncaptureOne p)
/-- A warp that an issued instruction has stepped on holds what it held. -/
theorem sameRegs_stepped (x : Iss) (s : State) (m : Mask) : SameRegs (asGroup x.w m) (asGroup (x.stepped s) m) := by
  have hst (j : Nat) : (laneOf (x.stepped s) j).st = (laneOf x.w j).st ∧ (laneOf (x.stepped s) j).v = (laneOf x.w j).v := by
    obtain ⟨l, e, hv, -, -, -, hst, -⟩ := laneOf_stepped x s j
    rw [e]; exact ⟨hst, hv⟩
  have hlen : (x.stepped s).lanes.length = x.w.lanes.length := stepped_length x s
  have hlevel : (x.stepped s).level = x.w.level := rfl
  unfold asGroup
  simp only [hst, hlevel]
  split
  · exact ⟨hlen, fun j => (hst j).2, rfl, rfl⟩
  · exact ⟨hlen, fun j => (hst j).2, rfl, rfl⟩
/-- An operand reads the same where registers and constants do. -/
theorem val_congr {x y : Iss} (h : SameRegs x.w y.w) (he : y.env = x.env) (o : Opd) (i : Nat) : y.val o i = x.val o i := by
  cases o with
  | v n => simp only [Iss.val, Lane.rd, h.vary]
  | a n => simp only [Iss.val, Warp.rdA, h.aff]
  | s n => simp only [Iss.val, Warp.rdS, h.uni]
  | const k => cases k <;> simp only [Iss.val, he]
  | _ => rfl
end
/-- Reads of a block by `acc.rd` that a workgroup's warps and frames hold, one by one. -/
theorem rdsOn_eq (s : State) (g : Workgroup) (b age : Nat) : rdsOn s g b age =
    let reads (w : Warp) (o : Outst) : Bool := decide (o.age < age) && accRdBlock s w o == some b
    ((g.warps.any fun e => (find s.warps e.2).any fun w => (w.outs ++ w.swq).any (reads w)) ||
      g.frames.any fun f => (find s.warps f.warp).any fun w => f.rep.any fun r => reads w r.o) := by
  have onWarp (o : Option Warp) (f : Warp → List (Warp × Outst)) (p : Warp × Outst → Bool) :
      (match o with | some w => f w | none => []).any p = o.any fun w => (f w).any p := by
    cases o <;> rfl
  rw [rdsOn, heldOuts, List.any_append, List.any_flatMap, List.any_flatMap]
  congr 1 <;> refine congrArg _ (funext fun e => (onWarp _ _ _).trans ?_) <;> simp only [List.any_map, Function.comp_def]
section
variable {i : Instr} {busy : Iss → State → Bool} {s : State} {x : Iss}
/-- The block that a held `acc.rd` of the issuer's warp names stays the same. -/
theorem accRdBlock_stepped (h : Issues i busy s x) (price : List Chg) (o : Outst) :
    accRdBlock (x.issued price s) (x.stepped s) o = accRdBlock s x.w o := by
  have hq := issued_quiet x price s (issOf_warp h.1)
  have hregs : SameRegs (replayIss s 0 x.w o).w (replayIss (x.issued price s) 0 (x.stepped s) o).w := (sameRegs_stepped x s o.mask).uncapture _ _
  have henv : (replayIss (x.issued price s) 0 (x.stepped s) o).env = (replayIss s 0 x.w o).env := funext fun k => by
    show konstOf (x.issued price s) (x.stepped s) k = konstOf s x.w k
    simp only [konstOf, hq.wgs, hq.launches]
    rfl
  simp only [accRdBlock, val_congr hregs henv]
theorem accRdBlock_issued (h : Issues i busy s x) (price : List Chg) (w : Warp) (o : Outst) :
    accRdBlock (x.issued price s) w o = accRdBlock s w o := by
  have hq := issued_quiet x price s (issOf_warp h.1)
  have henv : konstOf (x.issued price s) w = konstOf s w := funext fun k => by
    simp only [konstOf, hq.wgs, hq.launches]
  simp only [accRdBlock, replayIss, henv]
/-- A test of a warp, where that of the issuer's warp stays. -/
theorem any_issued (h : Issues i busy s x) (price : List Chg) {p q : Warp → Bool} (hx : p (x.stepped s) = q x.w) (hp : ∀ w, p w = q w) (k : Nat) :
    (find (x.issued price s).warps k).any p = (find s.warps k).any q := by
  have hk := issOf_warp h.1
  rw [issued_warps x price s hk]
  split
  · next e => rw [e, hk]; exact hx
  · exact congrArg (fun p => (find s.warps k).any p) (funext hp)
/-- Issuing leaves what an `acc.free` has to follow. -/
theorem freeWaits_issued (h : Issues i busy s x) (price : List Chg) (gk : Nat) (g : Workgroup) (b age : Nat) :
    freeWaits (x.issued price s) gk g b age = freeWaits s gk g b age := by
  have hp : passesOn (x.issued price s) = passesOn s := congrArg Prod.snd (issued_table x price s)
  have hr : rdsOn (x.issued price s) g b age = rdsOn s g b age := by
    rw [rdsOn_eq, rdsOn_eq]
    dsimp only
    congr 1
    · exact congrArg _ (funext fun e => any_issued h price (by simp only [accRdBlock_stepped h]; rfl) (fun w => by simp only [accRdBlock_issued h]) _)
    · exact congrArg _ (funext fun f => any_issued h price (by simp only [accRdBlock_stepped h]) (fun w => by simp only [accRdBlock_issued h]) _)
  rw [freeWaits, freeWaits, hp, hr]
end

/-! ### The accumulator instructions -/

section
variable {i : Instr} {busy : Iss → State → Bool} {s t : State} {x : Iss} {g : Workgroup} {o : O5}
theorem runOk_true (hw : wgOf t x.w = some g) (h1 : 1 ≤ x.uval o.b) (h2 : x.uval o.b ≤ 768) (h3 : x.uval o.a + x.uval o.b ≤ g.accs.length) :
    runOk t x o = true := by
  simp [runOk, Iss.accs, hw, h1, h2, h3]
/-- A run of blocks of a workgroup lies in distinct places. -/
theorem accs_place_inj (hd : g.accs.Nodup) {a n : Nat} (h : a + n ≤ g.accs.length) (i j : Nat) (hi : i < n) (hj : j < n)
    (e : nth g.accs (a + i) 0 = nth g.accs (a + j) 0) : i = j := by
  have := nth_inj hd (by omega) (by omega) e
  omega
/-- R194: the blocks zeroed, and the charge. -/
def accZeroBody (o : O5) (x : Iss) (_ : Nat) : Action := look fun s =>
  match runOk s x o, wgOf s x.w with
  | true, some g => acts [
      forEach (accRun g (x.uval o.a) (x.uval o.b)) fun a => modAcc g.core a fun _ => ⟨.held, [], [], none⟩,
      chargeW x.w [⟨19, x.uval o.b, clusterNo x.w.core⟩]]
  | _, _ => x.trap cauAcc 0 0
theorem exec_accZero (c : Ctl) (o : O5) (s : State) :
    exec (.accZero c o) s = issue (.accZero c o) (fun x => x.price .uni) (accZeroBusy o) (accZeroBody o) s := rfl
theorem run_accZeroBody (hw : wgOf t x.w = some g) (hok : runOk t x o = true) (id : Nat) : run (accZeroBody o x id) t =
    run (chargeW x.w [⟨19, x.uval o.b, clusterNo x.w.core⟩])
      (run (forEach (List.range (x.uval o.b)) fun j => modAcc g.core (nth g.accs (x.uval o.a + j) 0) fun _ => ⟨.held, [], [], none⟩) t) := by
  rw [accZeroBody, run_look, hok, hw]
  dsimp only
  rw [run_acts_cons, run_acts_cons, run_acts_nil, accRun, forEach, forEach, List.map_map]
  rfl

/-- What `acc.free` of age `age` makes of a block (R177, R189): `waits` says that something is still to come before it. -/
def Acc.freed (g : Workgroup) (b age : Nat) (waits : Bool) (a : Acc) : Acc :=
  if waits then { a with freeAt := some age } else match a.st with
    | .held =>
      let ws := (g.epis.filter fun e => decide (e.id < age) && e.blk == b).map (·.id)
      if ws.isEmpty then ⟨.free, [], [], none⟩ else { a with st := .releasing, waits := ws, freeAt := none }
    | _ => { a with freeAt := none }
def accFreeBody (o : O5) (x : Iss) (id : Nat) : Action := look fun s =>
  match runOk s x o, wgOf s x.w with
  | true, some g => forEach (List.range (x.uval o.b)) fun j => look fun s =>
      let b := x.uval o.a + j
      if freeWaits s x.w.wg g b id then modAcc g.core (nth g.accs b 0) fun a => { a with freeAt := some id }
      else freeBlock g b id
  | _, _ => x.trap cauAcc 0 0
theorem exec_accFree (c : Ctl) (o : O5) (s : State) :
    exec (.accFree c o) s = issue (.accFree c o) (fun x => x.price .uni) (accFreeBusy o) (accFreeBody o) s := rfl
/-- The blocks are freed one after another; a block freed leaves what the others have to follow. -/
theorem run_accFreeBody (hw : wgOf t x.w = some g) (hok : runOk t x o = true) (id : Nat) : run (accFreeBody o x id) t =
    run (forEach (List.range (x.uval o.b)) fun j => modAcc g.core (nth g.accs (x.uval o.a + j) 0)
      (Acc.freed g (x.uval o.a + j) id (freeWaits t x.w.wg g (x.uval o.a + j) id))) t := by
  rw [accFreeBody, run_look, hok, hw]
  dsimp only
  refine run_forEach_congr (P := fun u => freeWaits u = freeWaits t) (fun j u hu => ?_) (fun j u hu => ?_) _ _ rfl
  case refine_2 => exact hu
  rw [run_look, hu]
  split
  · next h => rw [h]; rfl
  · next h =>
    rw [Bool.not_eq_true] at h
    rw [h]; rfl

/-- The block that `acc.wr` leaves (R195). -/
def Acc.writes (x : Iss) (o : O5) (a : Acc) : Acc :=
  ⟨.held, (lanesOf x.g).foldl (fun m i => putD m (accKey (x.uval o.b) i) (x.val o.c i) 0) a.els, [], none⟩
def accWrBody (o : O5) (x : Iss) (_ : Nat) : Action := look fun s =>
  match decide (x.uval o.a < x.accs s), wgOf s x.w with
  | true, some g => modAcc g.core (nth g.accs (x.uval o.a) 0) (Acc.writes x o)
  | _, _ => x.trap cauAcc 0 0
theorem exec_accWr (c : Ctl) (o : O5) (s : State) :
    exec (.accWr c o) s = issue (.accWr c o) (fun x => x.price (.vary 3)) (accWrBusy o) (accWrBody o) s := rfl
theorem run_accWrBody (hw : wgOf t x.w = some g) (ha : x.uval o.a < g.accs.length) (id : Nat) :
    run (accWrBody o x id) t = run (modAcc g.core (nth g.accs (x.uval o.a) 0) (Acc.writes x o)) t := by
  have hlt : decide (x.uval o.a < x.accs t) = true := by simpa [Iss.accs, hw] using ha
  rw [accWrBody, run_look, hlt, hw]
theorem writes_in (a : Acc) {j : Nat} (hj : inMask x.g j = true) : findD (Acc.writes x o a).els (accKey (x.uval o.b) j) 0 = x.val o.c j :=
  findD_foldl_putD_in (v := x.val o.c) a.els (List.Nodup.filter _ List.nodup_range)
    (fun _ hi _ hj => accKey_inj (mem_lanesOf.mp hi).1 (mem_lanesOf.mp hj).1) (mem_lanesOf.mpr ⟨lt_64_of_inMask hj, hj⟩)
theorem writes_out (a : Acc) {k : Nat} (hk : ∀ j, inMask x.g j = true → k ≠ accKey (x.uval o.b) j) :
    findD (Acc.writes x o a).els k 0 = findD a.els k 0 :=
  findD_foldl_putD_out (v := x.val o.c) a.els fun i hi => hk i (mem_lanesOf.mp hi).2

/-- An issued instruction whose body changes blocks of its core and accounts. -/
theorem core_does {price : Iss → List Chg} {body : Iss → Nat → Action} (h : Issues i busy s x) (hg : x.g ≠ 0)
    (hw : (run (body x s.nextId) (x.issued (price x) s)).warps = (x.issued (price x) s).warps)
    (hr : Rest (x.issued (price x) s) (run (body x s.nextId) (x.issued (price x) s)) [.cores]) :
    ∃ t, issue i price busy body s = .next t ∧ t = run (body x s.nextId) (x.issued (price x) s) ∧ Still s t x [] 0 ∧ Rest s t [.cores] :=
  ⟨_, issue_run h hg price body, rfl, still_of_issued h hw, rest_trans (issued_rest h _ _) hr⟩
end

/-- Settles O29: each instruction changes the blocks it names, one by one and in places of their own; `acc.rd` joins its warp's unfinished ones. -/
theorem accumulators : Obligations.Accumulators := by
  intro c o g block run' others
  refine ⟨fun s x h ⟨hg, hw, h1, h2, h3, hd⟩ => ?_, fun s x h ⟨hg, hw, h1, h2, h3, hd⟩ => ?_, fun s x h hg hw ha => ?_, fun s x h hg hw ha => ?_⟩
  · let t0 := x.issued (x.price .uni) s
    have hw0 : wgOf t0 x.w = some g := (wgOf_issued h _ _).trans hw
    have hrun := run_accZeroBody (o := o) hw0 (runOk_true hw0 h1 h2 h3) s.nextId
    obtain ⟨hin, hout⟩ := accOf_modAccs (core := g.core) (fun _ _ => ⟨.held, [], [], none⟩) t0 (x.uval o.b)
      (accs_place_inj hd h3)
    set t1 := run (forEach (List.range (x.uval o.b)) fun j => modAcc g.core (nth g.accs (x.uval o.a + j) 0) fun _ => ⟨.held, [], [], none⟩) t0
    have hspare : Rest t0 t1 [.cores] := spares_forEach (fun _ _ => spares_modCore (by decide)) t0
    have hwarps : t1.warps = t0.warps := keeps_forEach (f := fun s => s.warps) (fun _ _ => keeps_modAcc (by simp)) t0
    let cs : List Chg := [⟨19, x.uval o.b, clusterNo x.w.core⟩]
    have hcharge : (run (chargeW x.w cs) t1).warps = t1.warps := keeps_chargeW_warps x.w cs t1
    have hcores : coreOf (run (chargeW x.w cs) t1) g.core = coreOf t1 g.core := by
      rw [coreOf, coreOf, (spares_chargeW (but := []) t1).cores (by decide)]
    obtain ⟨t, ht, e, hst, hr⟩ := core_does (price := fun x => x.price .uni) (body := accZeroBody o) h hg
      (by rw [hrun]; exact hcharge.trans hwarps) (by rw [hrun]; exact rest_trans hspare (spares_chargeW t1))
    rw [hrun] at e
    refine ⟨t, (exec_accZero c o s).trans ht, fun j hj => ?_, fun p hp => ?_, hst, hr⟩
    · show accOf (coreOf t g.core) _ = _
      rw [e, hcores, hin j hj]
    · show accOf (coreOf t g.core) p = _
      rw [e, hcores, hout p hp, coreOf_issued h]
  · let t0 := x.issued (x.price .uni) s
    have hw0 : wgOf t0 x.w = some g := (wgOf_issued h _ _).trans hw
    have hrun := run_accFreeBody (o := o) hw0 (runOk_true hw0 h1 h2 h3) s.nextId
    obtain ⟨hin, hout⟩ := accOf_modAccs (core := g.core)
      (fun j => Acc.freed g (x.uval o.a + j) s.nextId (freeWaits t0 x.w.wg g (x.uval o.a + j) s.nextId)) t0 (x.uval o.b) (accs_place_inj hd h3)
    obtain ⟨t, ht, e, hst, hr⟩ := core_does (price := fun x => x.price .uni) (body := accFreeBody o) h hg
      (by rw [hrun]; exact keeps_forEach (f := fun s => s.warps) (fun _ _ => keeps_modAcc (by simp)) t0)
      (by rw [hrun]; exact spares_forEach (fun _ _ => spares_modCore (by decide)) t0)
    rw [hrun] at e
    refine ⟨t, (exec_accFree c o s).trans ht, fun j hj => ?_, fun p hp => ?_, hst, hr⟩
    · have hblock : block t (x.uval o.a + j) =
          Acc.freed g (x.uval o.a + j) s.nextId (freeWaits s x.w.wg g (x.uval o.a + j) s.nextId) (block s (x.uval o.a + j)) := by
        show accOf (coreOf t g.core) _ = _
        rw [e, hin j hj, freeWaits_issued h, coreOf_issued h]
      refine ⟨fun hf hs => ?_, fun hf => ?_⟩
      · rw [hblock, hf, Acc.freed, if_neg Bool.false_ne_true, hs]
        simp only [List.isEmpty_iff]
      · rw [hblock, hf]; rfl
    · show accOf (coreOf t g.core) p = _
      rw [e, hout p hp, coreOf_issued h]
  · let t0 := x.issued (x.price (.vary 3)) s
    have hrun := run_accWrBody (o := o) (x := x) ((wgOf_issued h (x.price (.vary 3)) x.w).trans hw) ha s.nextId
    obtain ⟨t, ht, e, hst, hr⟩ := core_does (price := fun x => x.price (.vary 3)) (body := accWrBody o) h hg (by rw [hrun]; rfl)
      (by rw [hrun]; exact spares_modCore (by decide) _)
    rw [hrun] at e
    have hacc (p : Nat) := accOf_modAcc (core := g.core) (nth g.accs (x.uval o.a) 0) p (Acc.writes x o) t0
    have hblock : block t (x.uval o.a) = Acc.writes x o (block s (x.uval o.a)) := by
      show accOf (coreOf t g.core) _ = _
      rw [e, hacc, if_pos rfl, coreOf_issued h]
    refine ⟨t, (exec_accWr c o s).trans ht, ?_, fun j hj => ?_, fun k hk => ?_, fun p hp => ?_, hst, hr⟩
    · rw [hblock]; rfl
    · rw [hblock, ← accKey_eq]
      exact writes_in _ hj
    · rw [hblock]
      exact writes_out _ fun j hj => (accKey_eq (x.uval o.b) j) ▸ hk j hj
    · show accOf (coreOf t g.core) p = _
      rw [e, hacc, if_neg (show p ≠ nth g.accs (x.uval o.a) 0 from hp 0 (by decide)), coreOf_issued h]
  · let u := x.out s.nextId (.accRd (x.uval o.a) (x.uval o.b)) (x.res o.d 1 fun _ => (0, 0))
    have hacc : x.accs (x.issued (x.price (.vary 3)) s) = g.accs.length := by
      rw [Iss.accs, wgOf_issued h, hw]
    obtain ⟨t, ht, hwarp, hl⟩ := warp_leaves (price := fun x => x.price (.vary 3)) (body := performAccRd o) (Warp.holding u) h
      (by rw [performAccRd, run_look, hacc, if_neg (Nat.not_le.mpr ha)]; rfl) fun w => holding_frame u (WFrame.refl w _ [] 0)
    refine ⟨t, u, ht, ⟨?_, rfl, rfl, rfl, rfl, rfl, rfl⟩, rfl, (res_dst _ _ _).1, (res_dst _ _ _).2, hl⟩
    rw [hwarp, if_pos (by simpa using hg)]
    rfl

end Sys2Proof.Machine
end

section
/-! Passes of the matrix engine (R184, R188, R201, R248): the arbiter's choice, the tiles that a grant empties, and the elements that a pass accumulates. -/
namespace Sys2Proof.Machine
open Sys2Proof.Safety

/-! ### The arbiter (R184) -/

/-- One comparison of the arbiter: an entry displaces one of lower priority only. -/
def better (best : Option ResEntry) (e : ResEntry) : Option ResEntry := match best with
  | none => some e
  | some b => if effPrio b < effPrio e then some e else some b
theorem foldl_better_some {b : ResEntry} {l : List ResEntry} (h : ∀ r ∈ l, effPrio r ≤ effPrio b) : l.foldl better (some b) = some b := by
  induction l with
  | nil => rfl
  | cons r l ih =>
    rw [List.foldl_cons, better, if_neg (Nat.not_lt.mpr (h r List.mem_cons_self))]
    exact ih fun q hq => h q (List.mem_cons_of_mem _ hq)
/-- Entries of lower priority leave nothing that an entry would not displace. -/
theorem better_foldl {e : ResEntry} {l : List ResEntry} (h : ∀ r ∈ l, effPrio r < effPrio e) : better (l.foldl better none) e = some e := by
  have key : ∀ (l : List ResEntry) (o : Option ResEntry), (∀ r ∈ l, effPrio r < effPrio e) → (∀ b, o = some b → effPrio b < effPrio e) →
      ∀ b, l.foldl better o = some b → effPrio b < effPrio e := by
    intro l
    induction l with
    | nil => exact fun o _ ho => ho
    | cons r l ih =>
      intro o hl ho
      refine ih _ (fun q hq => hl q (List.mem_cons_of_mem _ hq)) fun b hb => ?_
      have hr := hl r List.mem_cons_self
      cases o with
      | none => rw [← Option.some.inj hb]; exact hr
      | some c =>
        rw [better] at hb
        split at hb
        · rw [← Option.some.inj hb]; exact hr
        · exact ho b hb
  cases hb : l.foldl better none with
  | none => rfl
  | some b => rw [better, if_pos (key l none h (fun _ h => nomatch h) b hb)]
/-- The arbiter takes the highest priority, the earliest posted among equals. -/
theorem arbiter_eq {l1 l2 : List ResEntry} {e : ResEntry} (h1 : ∀ r ∈ l1, effPrio r < effPrio e) (h2 : ∀ r ∈ l2, effPrio r ≤ effPrio e) :
    arbiter (l1 ++ e :: l2) = some e := by
  show (l1 ++ e :: l2).foldl better none = some e
  rw [List.foldl_append, List.foldl_cons, better_foldl h1, foldl_better_some h2]

/-! ### Tiles emptied (R248) -/

section
variable {core : Nat} {tiles : List Nat}
theorem keeps_readTiles {α : Type} {f : State → α} {wk id : Nat} (hc : ∀ s k w, f (applyUpd s (.core k w)) = f s)
    (ho : ∀ g : Outst → Outst, Keeps f (modOut wk id g)) : Keeps f (readTiles wk id) := by
  refine keeps_look fun s => ?_
  split
  · exact keeps_skip
  · split
    · exact keeps_skip
    · split
      · exact keeps_cons (fun s => hc s _ _) (keeps_cons (ho _) keeps_nil)
      · exact keeps_skip
theorem keeps_serveReads {α : Type} {f : State → α} (hc : ∀ s k w, f (applyUpd s (.core k w)) = f s)
    (ho : ∀ (k id : Nat) (g : Outst → Outst), Keeps f (modOut k id g)) : Keeps f (serveReads core tiles) := by
  refine keeps_look fun s => keeps_forEach fun e _ => keeps_forEach fun o _ => ?_
  split
  · split
    · exact keeps_readTiles hc (ho _ _)
    · exact keeps_skip
  · split
    · split
      · exact keeps_cons (fun s => hc s _ _) (keeps_cons (ho _ _ _) keeps_nil)
      · exact keeps_skip
    · exact keeps_skip
  · exact keeps_skip
theorem keeps_retireTiles {α : Type} {f : State → α} (hc : ∀ s k w, f (applyUpd s (.core k w)) = f s) : Keeps f (retireTiles core tiles) :=
  keeps_forEach fun _ _ => keeps_modTile hc
theorem keeps_serveEngines {α : Type} {f : State → α} (hc : ∀ s k w, f (applyUpd s (.core k w)) = f s)
    (hcl : ∀ s k w, f (applyUpd s (.cluster k w)) = f s) : Keeps f (serveEngines core tiles) := by
  refine keeps_look fun s => keeps_cons ?_ (keeps_cons (keeps_modCluster hcl) keeps_nil)
  split
  · exact fun s => hc s _ _
  · exact keeps_skip
theorem spares_emptyTiles : Spares [.cores] (emptyTiles core tiles) := by
  have reads : Spares [.cores] (serveReads core tiles) := by
    refine spares_look fun s => spares_forEach fun e _ => spares_forEach fun o _ => ?_
    split
    · refine spares_ite (spares_look fun s => ?_) spares_skip
      split
      · exact spares_skip
      · split
        · exact spares_skip
        · split
          · exact spares_cons (spares_l1Discard (by decide)) (spares_cons spares_modWarp spares_nil)
          · exact spares_skip
    · split
      · exact spares_ite (spares_cons (spares_l1Discard (by decide)) (spares_cons spares_modWarp spares_nil)) spares_skip
      · exact spares_skip
    · exact spares_skip
  exact spares_cons reads (spares_cons (spares_look fun s => spares_cons (spares_ite (spares_l1Discard (by decide)) spares_skip)
    (spares_cons spares_modCluster spares_nil)) (spares_cons (spares_forEach fun _ _ => spares_modCore (by decide)) spares_nil))
theorem run_emptyTiles (s : State) : run (emptyTiles core tiles) s =
    run (retireTiles core tiles) (run (serveEngines core tiles) (run (serveReads core tiles) s)) := by
  rw [emptyTiles, run_acts_cons, run_acts_cons, run_acts_cons, run_acts_nil]

theorem tileOf_modTile (a q : Nat) (f : Tile → Tile) (s : State) :
    tileOf (coreOf (run (modTile core a f) s) core) q = if q = a then f (tileOf (coreOf s core) a) else tileOf (coreOf s core) q := by
  rw [modTile, run_modCore, coreOf_core_same]
  exact findD_put _ _ _ _ _
/-- Each of the tiles is EMPTY. -/
theorem retireTiles_empty {p : Nat} (s : State) (h : p ∈ tiles ∨ (tileOf (coreOf s core) p).tag = .empty) :
    (tileOf (coreOf (run (retireTiles core tiles) s) core) p).tag = .empty := by
  unfold retireTiles
  induction tiles generalizing s with
  | nil => exact h.resolve_left List.not_mem_nil
  | cons a l ih =>
    rw [run_forEach_cons]
    refine ih _ ?_
    rw [tileOf_modTile]
    by_cases ha : p = a
    · rw [if_pos ha]; exact .inr rfl
    · rw [if_neg ha]
      exact h.imp_left fun hm => (List.mem_cons.mp hm).resolve_left ha
theorem emptyTiles_empty {p : Nat} (s : State) (h : p ∈ tiles) : (tileOf (coreOf (run (emptyTiles core tiles) s) core) p).tag = .empty := by
  rw [run_emptyTiles]
  exact retireTiles_empty _ (.inl h)

/-- The warps but for what their unfinished instructions hold. -/
def idleWarps (s : State) (k : Nat) : Option Warp := (find s.warps k).map fun w => { w with outs := [] }
theorem keeps_modOut_idle (k id : Nat) (f : Outst → Outst) : Keeps idleWarps (modOut k id f) := by
  intro s
  unfold modOut
  cases hk : find s.warps k with
  | none => rw [run_modWarp_none _ _ _ hk]
  | some w =>
    rw [run_modWarp _ _ _ _ hk]
    funext j
    simp only [idleWarps, applyUpd_warps, find_putO]
    split
    · next e => rw [e, hk]; rfl
    · rfl
theorem keeps_emptyTiles_idle : Keeps idleWarps (emptyTiles core tiles) :=
  keeps_cons (keeps_serveReads (fun _ _ _ => rfl) keeps_modOut_idle)
    (keeps_cons (keeps_serveEngines (fun _ _ _ => rfl) fun _ _ _ => rfl) (keeps_cons (keeps_retireTiles fun _ _ _ => rfl) keeps_nil))

/-- An entry but for what it has read of its B tiles. -/
def ResEntry.blind (e : ResEntry) : ResEntry := { e with b := [], live := [] }
/-- Engine operations that wait read their B tiles before these are EMPTY; an entry granted has read them. -/
theorem emptyTiles_table (s : State) (cl : Nat) : ∃ f : ResEntry → ResEntry, (∀ r, (f r).blind = r.blind) ∧ (∀ r, r.granted = true → f r = r) ∧
    (clusterOf (run (emptyTiles core tiles) s) cl).table = (clusterOf s cl).table.map f := by
  have hreads : (run (serveReads core tiles) s).clusters = s.clusters :=
    keeps_serveReads (f := fun s => s.clusters) (fun _ _ _ => rfl) (fun k id g => keeps_modWarp fun _ _ _ => rfl) s
  have hretire (u : State) : (run (retireTiles core tiles) u).clusters = u.clusters := keeps_retireTiles (f := fun s => s.clusters) (fun _ _ _ => rfl) u
  have hs : clusterOf (run (serveReads core tiles) s) = clusterOf s := funext fun n => by rw [clusterOf, clusterOf, hreads]
  have ht : clusterOf (run (emptyTiles core tiles) s) = clusterOf (run (serveEngines core tiles) (run (serveReads core tiles) s)) := by
    rw [run_emptyTiles]
    exact funext fun n => by rw [clusterOf, clusterOf, hretire]
  rw [ht, ← hs]
  generalize run (serveReads core tiles) s = u
  rw [serveEngines, run_look, run_acts_cons, run_acts_cons, run_acts_nil, run_modCluster]
  have hfirst (b : Bool) : clusterOf (run (if b then l1Discard core else skip) u) = clusterOf u := by cases b <;> rfl
  have hcl (v : State) (c : Cluster) : clusterOf (applyUpd v (.cluster (clusterNo core) c)) cl = if cl = clusterNo core then c else clusterOf v cl :=
    findD_put _ _ _ _ _
  rw [hcl]
  split
  · next h =>
    refine ⟨_, fun r => ?_, fun r hr => ?_, by rw [hfirst, h]⟩
    · dsimp only
      split
      · rfl
      · split <;> rfl
    · dsimp only
      rw [hr]; rfl
  · exact ⟨id, fun _ => rfl, fun _ _ => rfl, by rw [hfirst, List.map_id]⟩
end

/-! ### A grant (R184, R201) -/

/-- A table entry after the grant of `e`, which becomes `e'`: the other ready ones are promoted. -/
def ResEntry.afterGrant (ready : List ResEntry) (e e' r : ResEntry) : ResEntry :=
  if r.id = e.id then e'
  else if (ready.any fun x => x.id == r.id) then { r with promo := r.promo + e.n } else { r with promo := 0 }
/-- The entry granted, with its B tiles read. -/
def ResEntry.grantedOf (s : State) (g : Workgroup) (e : ResEntry) : ResEntry := { (if e.b.isEmpty then e.readB s g else e) with granted := true }
def grantPass (cl : Nat) (ready : List ResEntry) (e e' : ResEntry) (ps : List Nat) : Action := acts [
  modCluster cl fun c => { c with table := c.table.map (ResEntry.afterGrant ready e e') },
  l1Discard e.core,
  if e.take then emptyTiles e.core ps else skip]
theorem grantedOf_id (s : State) (g : Workgroup) (e : ResEntry) : (e.grantedOf s g).id = e.id := by
  unfold ResEntry.grantedOf
  split <;> rfl

section
variable {s : State} {cl : Nat} {l1 l2 : List ResEntry} {e : ResEntry} {g : Workgroup}
theorem exec_matrixPassGrant (htb : (clusterOf s cl).table = l1 ++ e :: l2) (hfree : ∀ r ∈ l1 ++ e :: l2, r.granted = false)
    (he : entryReady s (l1 ++ e :: l2) e = true) (hg : find s.wgs e.wg = some g)
    (h1 : ∀ r ∈ l1, entryReady s (l1 ++ e :: l2) r = true → effPrio r < effPrio e)
    (h2 : ∀ r ∈ l2, entryReady s (l1 ++ e :: l2) r = true → effPrio r ≤ effPrio e) :
    exec (.matrixPassGrant cl) s = .next (run (grantPass cl ((l1 ++ e :: l2).filter (entryReady s (l1 ++ e :: l2))) e (e.grantedOf s g)
      (tileRun g e.tile e.n)) s) := by
  have hany : ((l1 ++ e :: l2).any fun e => e.granted) = false := List.any_eq_false.mpr fun r hr => by rw [hfree r hr]; exact Bool.false_ne_true
  have hsplit : (l1 ++ e :: l2).filter (entryReady s (l1 ++ e :: l2)) =
      l1.filter (entryReady s (l1 ++ e :: l2)) ++ e :: l2.filter (entryReady s (l1 ++ e :: l2)) := by
    rw [List.filter_append, List.filter_cons, if_pos he]
  have harb : arbiter ((l1 ++ e :: l2).filter (entryReady s (l1 ++ e :: l2))) = some e := by
    rw [hsplit]
    exact arbiter_eq (fun r hr => h1 r (List.mem_filter.mp hr).1 (List.mem_filter.mp hr).2)
      fun r hr => h2 r (List.mem_filter.mp hr).1 (List.mem_filter.mp hr).2
  show Host.Outcome.next (run (look _) s) = _
  rw [run_look]
  dsimp only
  rw [htb, hany, if_neg Bool.false_ne_true, harb]
  dsimp only
  rw [hg]
  rfl
theorem spares_grantPass {ready : List ResEntry} {e' : ResEntry} {ps : List Nat} : Spares [.cores] (grantPass cl ready e e' ps) :=
  spares_cons spares_modCluster (spares_cons (spares_l1Discard (by decide)) (spares_cons (spares_ite spares_emptyTiles spares_skip) spares_nil))
theorem keeps_grantPass_idle {ready : List ResEntry} {e' : ResEntry} {ps : List Nat} : Keeps idleWarps (grantPass cl ready e e' ps) := by
  refine keeps_cons (fun _ => rfl) (keeps_cons (fun _ => rfl) (keeps_cons ?_ keeps_nil))
  split
  · exact keeps_emptyTiles_idle
  · exact keeps_skip
theorem run_grantPass (ready : List ResEntry) (e' : ResEntry) (ps : List Nat) : run (grantPass cl ready e e' ps) s =
    run (if e.take then emptyTiles e.core ps else skip) (run (l1Discard e.core)
      (applyUpd s (.cluster cl { clusterOf s cl with table := (clusterOf s cl).table.map (ResEntry.afterGrant ready e e') }))) := by
  rw [grantPass, run_acts_cons, run_acts_cons, run_acts_cons, run_acts_nil]
  rfl
/-- The table after a grant. What changes the entries besides reads B tiles that are about to be emptied. -/
theorem grantPass_table (ready : List ResEntry) (e' : ResEntry) (ps : List Nat) : ∃ f : ResEntry → ResEntry, (∀ r, (f r).blind = r.blind) ∧
    (∀ r, r.granted = true → f r = r) ∧ (e.take = false → f = id) ∧
    (clusterOf (run (grantPass cl ready e e' ps) s) cl).table = ((clusterOf s cl).table.map (ResEntry.afterGrant ready e e')).map f := by
  obtain ⟨u, hrun, hu⟩ : ∃ u, run (grantPass cl ready e e' ps) s = run (if e.take then emptyTiles e.core ps else skip) u ∧
      (clusterOf u cl).table = (clusterOf s cl).table.map (ResEntry.afterGrant ready e e') := by
    refine ⟨_, run_grantPass ready e' ps, ?_⟩
    show (findD (put s.clusters cl _) cl _).table = _
    rw [findD_put, if_pos rfl]
  rw [hrun, ← hu]
  cases ht : e.take with
  | false => exact ⟨id, fun _ => rfl, fun _ _ => rfl, fun _ => rfl, (List.map_id _).symm⟩
  | true =>
    obtain ⟨f, hb, hgr, htab⟩ := emptyTiles_table (core := e.core) (tiles := ps) u cl
    exact ⟨f, hb, hgr, nofun, htab⟩
theorem afterGrant_other {tb : List ResEntry} {e' r : ResEntry} (hd : (tb.map (·.id)).Nodup) (hr : r ∈ tb) (hne : r.id ≠ e.id) :
    (ResEntry.afterGrant (tb.filter (entryReady s tb)) e e' r) =
      if entryReady s tb r then { r with promo := r.promo + e.n } else { r with promo := 0 } := by
  have hany : ((tb.filter (entryReady s tb)).any fun x => x.id == r.id) = entryReady s tb r := by
    rw [Bool.eq_iff_iff, List.any_eq_true]
    refine ⟨fun ⟨x, hx, hid⟩ => ?_, fun h => ⟨r, List.mem_filter.mpr ⟨hr, h⟩, beq_self_eq_true _⟩⟩
    obtain ⟨hx, hready⟩ := List.mem_filter.mp hx
    rwa [← List.inj_on_of_nodup_map hd hx hr (beq_iff_eq.mp hid)]
  rw [ResEntry.afterGrant, if_neg hne, hany]
end

/-! ### A pass that completes (R171, R184) -/

section
variable {e : ResEntry}
/-- An element after a pass (R171). -/
def passVal (e : ResEntry) (j n : Nat) (old : SMap Word) (r : Nat) : Word :=
  chunkSum (findD old (32 * r + n) 0) ((nth e.b (32 * j + n) []).map fun t => (aAt e.a r t.1, t.2))
/-- The elements of one column after a pass. -/
def passColumn (e : ResEntry) (j n : Nat) (old m : SMap Word) : SMap Word :=
  (List.range 32).foldl (fun m r => putD m (32 * r + n) (passVal e j n old r) 0) m
theorem findD_passColumn (j n : Nat) (old m : SMap Word) {r c : Nat} (hr : r < 32) (hc : c < 32) (hn : n < 32) :
    findD (passColumn e j n old m) (32 * r + c) 0 = if c = n then passVal e j n old r else findD m (32 * r + c) 0 := by
  rw [passColumn]
  split
  · next h =>
    rw [h]
    exact findD_foldl_putD_in (key := fun r => 32 * r + n) m List.nodup_range (fun _ _ _ _ h => by omega) (List.mem_range.mpr hr)
  · next h => exact findD_foldl_putD_out m fun i _ => by omega
/-- A pass accumulates the live columns. -/
theorem findD_passEls (j : Nat) (old : SMap Word) {r c : Nat} (hr : r < 32) (hc : c < 32) : findD (passEls e j old) (32 * r + c) 0 =
    if (nth e.live j 0).getLsbD c then passVal e j c old r else findD old (32 * r + c) 0 := by
  have key (n : Nat) (hn : n ≤ 32) : findD ((List.range n).foldl (fun m n => if (nth e.live j 0).getLsbD n then passColumn e j n old m else m) old)
      (32 * r + c) 0 = if c < n ∧ (nth e.live j 0).getLsbD c = true then passVal e j c old r else findD old (32 * r + c) 0 := by
    induction n with
    | zero => rw [if_neg (by omega)]; rfl
    | succ n ih =>
      have ih := ih (by omega)
      rw [List.range_succ, List.foldl_append, List.foldl_cons, List.foldl_nil]
      by_cases hl : (nth e.live j 0).getLsbD n = true
      · rw [if_pos hl, findD_passColumn _ _ _ _ hr hc (by omega), ih]
        by_cases h : c = n
        · subst h
          rw [if_pos rfl, if_pos ⟨Nat.lt_succ_self c, hl⟩]
        · rw [if_neg h]
          exact if_congr (and_congr_left fun _ => by omega) rfl rfl
      · rw [if_neg hl, ih]
        refine if_congr ⟨fun ⟨h, hc⟩ => ⟨by omega, hc⟩, fun ⟨h, hc⟩ => ⟨?_, hc⟩⟩ rfl rfl
        have : c ≠ n := fun h => hl (h ▸ hc)
        omega
  exact (key 32 le_rfl).trans (if_congr (and_iff_right hc) rfl rfl)
/-- What a completed pass leaves of its block. -/
def Acc.passed (e : ResEntry) (a : Acc) : Acc := { a with st := .held, els := passEls e e.done (if e.z then [] else a.els) }
/-- The table once the pass of entry `id` has finished. -/
def tableAfter (id : Nat) (last : Bool) (table : List ResEntry) : List ResEntry :=
  if last then table.filter fun r => r.id != id else table.map fun r => if r.id = id then { r with done := r.done + 1 } else r
theorem exec_matrixPassComplete {s : State} {cl id : Nat} {g : Workgroup}
    (hf : (clusterOf s cl).table.find? (fun r => r.id == id && r.granted) = some e) (hg : find s.wgs e.wg = some g) :
    ∃ cs, exec (.matrixPassComplete cl id) s = .next (run (modCluster cl fun c => { c with table := tableAfter id (decide (e.n ≤ e.done + 1)) c.table })
      (run (charge (some e.ctx) cs) (run (modAcc g.core (nth g.accs (e.blk + e.done) 0) (Acc.passed e)) s))) := by
  refine ⟨if e.sparse then [⟨16, 1, cl⟩, ⟨17, popW (nth e.live e.done 0).toNat 32, cl⟩] else [⟨15, 1, cl⟩], ?_⟩
  show Host.Outcome.next (run (look _) s) = _
  rw [run_look, hf]
  dsimp only
  rw [run_acts_cons, run_acts_cons, run_acts_cons, run_acts_nil, hg]
  rfl
end

/-- Settles O28: the arbiter's choice becomes granted in its place of the table and the reads before its tiles are emptied change no more of the other
entries than what they have read; a pass that completes changes its block column by column. -/
theorem matrixPasses : Obligations.MatrixPasses := by
  intro s cl
  refine ⟨?_, ?_⟩
  · intro l1 l2 e g tb htb hfree he hg h1 h2 hd
    let ready := tb.filter (entryReady s tb)
    let e' := e.grantedOf s g
    let ps := tileRun g e.tile e.n
    obtain ⟨f, hblind, hkeep, hid, htable⟩ := grantPass_table (s := s) (cl := cl) (e := e) ready e' ps
    have hids : e.id ∉ l1.map (·.id) ∧ e.id ∉ l2.map (·.id) := by
      have hd' : (l1.map (·.id) ++ e.id :: l2.map (·.id)).Nodup := by simpa only [tb, List.map_append, List.map_cons] using hd
      have := (List.nodup_middle.mp hd')
      have hm := (List.nodup_cons.mp this).1
      exact ⟨fun h => hm (List.mem_append_left _ h), fun h => hm (List.mem_append_right _ h)⟩
    have hother {r : ResEntry} (hr : r ∈ l1 ∨ r ∈ l2) : (ResEntry.afterGrant ready e e' r) =
        if entryReady s tb r then { r with promo := r.promo + e.n } else { r with promo := 0 } := by
      refine afterGrant_other hd ?_ fun h => ?_
      · exact hr.elim (List.mem_append_left _) fun h => List.mem_append_right _ (List.mem_cons_of_mem _ h)
      · exact hr.elim (fun hr => hids.1 (h ▸ List.mem_map_of_mem hr)) fun hr => hids.2 (h ▸ List.mem_map_of_mem hr)
    have hthis : f (ResEntry.afterGrant ready e e' e) = e' := by
      rw [ResEntry.afterGrant, if_pos rfl, hkeep e' rfl]
    have hblinds (l : List ResEntry) (hl : ∀ r ∈ l, r ∈ l1 ∨ r ∈ l2) :
        ((l.map (ResEntry.afterGrant ready e e')).map f).map ResEntry.blind =
          (l.map fun r => if entryReady s tb r then { r with promo := r.promo + e.n } else { r with promo := 0 }).map ResEntry.blind := by
      rw [List.map_map, show ResEntry.blind ∘ f = ResEntry.blind from funext hblind, List.map_congr_left fun r hr => hother (hl r hr)]
    refine ⟨_, (l1.map (ResEntry.afterGrant ready e e')).map f, e', (l2.map (ResEntry.afterGrant ready e e')).map f,
      exec_matrixPassGrant htb hfree he hg h1 h2, ?_, rfl, grantedOf_id s g e, hblinds l1 fun _ => .inl, hblinds l2 fun _ => .inr,
      fun ht r hr => ?_, fun ht p hp => ?_, fun ht => ?_, fun k => ?_, spares_grantPass s⟩
    · rw [htable, htb]
      simp only [tb, List.map_append, List.map_cons, hthis]
    · rw [hid ht, List.map_id, List.map_id, ← List.map_append, List.mem_map] at hr
      obtain ⟨q, hq, rfl⟩ := hr
      refine ⟨q, hq, ?_⟩
      rw [hother (List.mem_append.mp hq)]
      split <;> exact ⟨rfl, rfl, rfl⟩
    · rw [run_grantPass, ht]
      exact emptyTiles_empty _ hp
    · rw [run_grantPass, ht]
      rfl
    · exact congrFun (keeps_grantPass_idle s) k
  · intro id e g hf hg _ old was
    obtain ⟨cs, hexec⟩ := exec_matrixPassComplete hf hg
    let u := run (modAcc g.core (nth g.accs (e.blk + e.done) 0) (Acc.passed e)) s
    let v := run (charge (some e.ctx) cs) u
    let t := run (modCluster cl fun c => { c with table := tableAfter id (decide (e.n ≤ e.done + 1)) c.table }) v
    have hcores : coreOf t g.core = coreOf u g.core := by
      show coreOf v g.core = _
      rw [coreOf, coreOf, (spares_charge (but := []) u).cores (by decide)]
    have hnew : accOf (coreOf t g.core) (nth g.accs (e.blk + e.done) 0) = Acc.passed e old := by
      rw [hcores]
      exact (accOf_modAcc _ _ _ _).trans (if_pos rfl)
    have htable : (clusterOf t cl).table = tableAfter id (decide (e.n ≤ e.done + 1)) (clusterOf s cl).table := by
      have hv : (clusterOf v cl).table = (clusterOf s cl).table := congrFun (congrArg Prod.fst (keeps_charge_table (some e.ctx) cs u)) cl
      rw [← hv]
      show (findD (put v.clusters cl _) cl _).table = _
      rw [findD_put, if_pos rfl]
    have hwas (m n : Nat) : findD (if e.z then [] else old.els) (32 * m + n) 0 = was m n := by
      dsimp only [was]
      split <;> rfl
    refine ⟨t, hexec, ⟨?_, fun m n hm hn => ?_⟩, fun hlast => ?_, fun hmore => ?_, ?_, ?_⟩
    · rw [hnew]; rfl
    · rw [hnew, ← hwas]
      exact findD_passEls e.done _ hm hn
    · rw [htable, tableAfter, if_pos (by simpa using hlast)]
    · rw [htable, tableAfter, if_neg (by simpa using hmore)]
    · exact keeps_charge (f := fun s => s.warps) (by simp) (by simp) (by simp) u
    · exact rest_trans (spares_modCore (by decide) s) (rest_trans (spares_charge u) (spares_modCluster v))

end Sys2Proof.Machine
end

section
/-! Epilogues issued (R196, R197): the checks on slot, block and tiles, and what an epilogue that passes them leaves held. -/
namespace Sys2Proof.Machine
open Sys2Proof.Safety

section
variable {s t : State} {x : Iss} {g : Workgroup} {d : BitVec 128} {bias : Bool} {o : Opd}
/-- The checks passed (R197). -/
theorem run_epiChecks {tiles : BitVec 128 → Option (Nat × Nat)} {rest : BitVec 128 → Action} (hs : slotDesc t x.w (ctlOf x.i).fmt.toNat = some d)
    (hd : epiBad d = false) (hw : wgOf t x.w = some g) (hblk : (x.epiArgs o).1 < g.accs.length)
    (hbias : bias = true → (x.epiArgs o).2.2.1 < g.tiles.length) (hfit : ∀ p n, tiles d = some (p, n) → p + n ≤ g.tiles.length) :
    run (epiChecks x bias o tiles rest) t = run (rest d) t := by
  have hb : (bias && decide (g.tiles.length ≤ (x.epiArgs o).2.2.1)) = false := by
    cases bias with
    | false => rfl
    | true => simpa using hbias rfl
  rw [epiChecks, withSlot, run_look, hs]
  dsimp only
  rw [if_neg (by rw [hd]; exact Bool.false_ne_true), run_look]
  simp only [Iss.tiles, Iss.accs, hw]
  rw [if_neg (Nat.not_le.mpr hblk), if_neg (by rw [hb]; exact Bool.false_ne_true)]
  cases ht : tiles d with
  | none => rfl
  | some e => exact congrArg (run · t) (if_neg (by simpa using hfit e.1 e.2 ht))

/-- The record of an epilogue not yet accepted. -/
def epiRecord (x : Iss) (id blk : Nat) (store : Bool) (bytes : List (Nat × Nat)) (wins : List (Nat × Nat × Nat × Nat)) : Epi :=
  ⟨id, { x.point id with lanes := x.mask }, blk, [], store, bytes, wins⟩
theorem run_epiPost {blk id : Nat} {store : Bool} {bytes : List (Nat × Nat)} {wins : List (Nat × Nat × Nat × Nat)} {w : Warp}
    (hw : find t.warps x.k = some w) (hg : find t.wgs x.w.wg = some g) (hid : ∀ e ∈ g.epis, e.id ≠ id) :
    run (epiPost blk store bytes wins x id) t =
      applyUpd (applyUpd t (.warp x.k (some (w.holding (x.out id (.epi false) noRes)))))
        (.wg x.w.wg (some { g with epis := g.epis ++ [epiRecord x id blk store bytes wins] })) := by
  have hany : (g.epis.any fun e => e.id == id) = false := List.any_eq_false.mpr fun e he => by simpa using hid e he
  rw [epiPost, run_acts_cons, run_acts_cons, run_acts_nil, addOut, run_modWarp _ _ _ _ hw]
  have hg' : find (applyUpd t (.warp x.k (some (w.holding (x.out id (.epi false) noRes))))).wgs x.w.wg = some g := hg
  refine (run_modWg _ _ _ g hg').trans ?_
  rw [hany]
  rfl

/-- An issued epilogue is held, with its record behind those of its workgroup. -/
structure EpiHeld (s t : State) (x : Iss) (g : Workgroup) (blk : Nat) (store : Bool) (u : Outst) (g' : Workgroup) (e : Epi) : Prop where
  joins : Joins t x s.nextId x.g u
  kind : u.kind = .epi false
  wg : find t.wgs x.w.wg = some g'
  epis : g'.epis = g.epis ++ [e]
  id : e.id = s.nextId
  po : e.po = { x.point s.nextId with lanes := x.mask }
  blk : e.blk = blk
  arrivals : e.arrivals = []
  store : e.store = store
  still : Still s t x [] 0
  rest : Rest s t [.wgs]
theorem epiHeld_of {i : Instr} {busy : Iss → State → Bool} {price : Iss → List Chg} {body : Iss → Nat → Action} {t1 : State} {g1 : Workgroup}
    {blk : Nat} {store : Bool} {bytes : List (Nat × Nat)} {wins : List (Nat × Nat × Nat × Nat)} (h : Issues i busy s x) (hg : x.g ≠ 0)
    (hw : t1.warps = (x.issued (price x) s).warps) (hr : Rest (x.issued (price x) s) t1 [.wgs]) (hwg : find t1.wgs x.w.wg = some g1)
    (hepis : g1.epis = g.epis) (hid : ∀ e ∈ g.epis, e.id ≠ s.nextId)
    (hb : run (body x s.nextId) (x.issued (price x) s) = run (epiPost blk store bytes wins x s.nextId) t1) :
    ∃ t u g' e, issue i price busy body s = .next t ∧ EpiHeld s t x g blk store u g' e := by
  have hi := issued_warps x (price x) s (issOf_warp h.1)
  have hw1 : find t1.warps x.k = some (x.stepped s) := by rw [hw, hi, if_pos rfl]
  have hpost := run_epiPost (blk := blk) (store := store) (bytes := bytes) (wins := wins) hw1 hwg (hepis ▸ hid)
  let u := x.out s.nextId (.epi false) noRes
  let t := run (body x s.nextId) (x.issued (price x) s)
  have ht : t = _ := hb.trans hpost
  have hwarps (k : Nat) : find t.warps k = if k = x.k then some ((x.stepped s).holding u) else find t1.warps k := by
    rw [ht]
    exact find_put _ _ _ _
  have hwarp : warpOf t x = (x.stepped s).holding u := by rw [warpOf, hwarps, if_pos rfl]; rfl
  refine ⟨t, u, { g1 with epis := g1.epis ++ [epiRecord x s.nextId blk store bytes wins] }, epiRecord x s.nextId blk store bytes wins, issue_run h hg price body, ⟨by rw [hwarp]; rfl, rfl, rfl, rfl, rfl, rfl, rfl⟩, rfl, ?_, ?_, rfl, rfl, rfl, rfl, rfl, ?_, ?_⟩
  · rw [ht]
    exact (find_put _ _ _ _).trans (if_pos rfl)
  · show g1.epis ++ _ = _
    rw [hepis]
  · exact still_of_frame (hwarp ▸ holding_frame u (stepped_frame x s [] 0)) fun k hk => by rw [hwarps, if_neg hk, hw, hi, if_neg hk]
  · rw [ht]
    exact rest_trans (issued_rest h _ _) (rest_trans hr (rest_trans (rest_warp _ _ _ _) (rest_applyUpd (u := .wg _ _) (List.mem_singleton_self _) _)))
end

section
variable {s : State} {x : Iss} {g : Workgroup} {d : BitVec 128} {bias : Bool} {c : Ctl} {n : Fin 64}
/-- The epilogue finds its slot, its block and its bias tile (R197). -/
structure EpiFits (s : State) (x : Iss) (c : Ctl) (g : Workgroup) (d : BitVec 128) (bias : Bool) (n : Fin 64) : Prop where
  wg : wgOf s x.w = some g
  slot : slotDesc s x.w c.fmt.toNat = some d
  good : epiBad d = false
  blk : (x.w.rdS n.val).toNat < g.accs.length
  bt : bias = true → (x.w.rdS (n.val + 2)).toNat < g.tiles.length
  fresh : ∀ e ∈ g.epis, e.id ≠ s.nextId
/-- An epilogue to memory whose addresses are aligned. -/
theorem epiSt_does {a : Act} {scl tr : Bool} {o : OM} (ho : o.data = .s n)
    (h : Issues (.epiSt c a scl bias tr o) (epiBusy o.data) s x) (hg : x.g ≠ 0) (hf : EpiFits s x c g d bias n)
    (hea : (x.ea o (lowest x.g)).toNat % (efBits (dEf d) / 8) = 0) (hst : (x.w.rdS (n.val + 3)).toNat % (efBits (dEf d) / 8) = 0) :
    ∃ t u g' e, exec (.epiSt c a scl bias tr o) s = .next t ∧ EpiHeld s t x g (x.w.rdS n.val).toNat true u g' e := by
  let t0 := x.issued (x.price .uni) s
  have hargs : x.epiArgs o.data =
      ((x.w.rdS n.val).toNat, x.w.rdS (n.val + 1), (x.w.rdS (n.val + 2)).toNat, (x.w.rdS (n.val + 3)).toNat) := by rw [ho]; rfl
  have hw0 : find t0.wgs x.w.wg = some g := (wgOf_issued h _ _).trans hf.wg
  have hslot : slotDesc t0 x.w (ctlOf x.i).fmt.toNat = some d := by rw [issOf_ins h.1, slotDesc_issued h]; exact hf.slot
  let t1 := applyUpd t0 (.wg x.w.wg (some { g with restart := false }))
  let l := epiDests t1 x (x.ea o (lowest x.g)).toNat (x.w.rdS (n.val + 3)).toNat (32 * (efBits (dEf d) / 8))
  refine epiHeld_of (t1 := t1) (g1 := { g with restart := false }) (bytes := epiRuns t1 l) (wins := epiWins l) (price := fun x => x.price .uni)
    (body := performEpiSt bias o) h hg rfl (rest_applyUpd (u := .wg _ _) (List.mem_singleton_self _) t0) ((find_put _ _ _ _).trans (if_pos rfl)) rfl
    hf.fresh ?_
  rw [performEpiSt, run_epiChecks hslot hf.good hw0 (by rw [hargs]; exact hf.blk) (by rw [hargs]; exact hf.bt) (by nofun), hargs]
  dsimp only
  rw [hea, hst, if_neg (by decide), run_acts_cons, run_acts_cons, run_acts_nil, noRestart, run_modWg _ _ _ _ hw0, run_look]
/-- An epilogue to tiles that are allotted. -/
theorem epiT_does {a : Act} {scl : Bool} {o : OT} (ho : o.data = .s n)
    (h : Issues (.epiT c a scl bias o) (epiBusy o.data) s x) (hg : x.g ≠ 0) (hf : EpiFits s x c g d bias n)
    (ht : x.tileNo o + (if efBits (dEf d) = 32 then 2 else 1) ≤ g.tiles.length) :
    ∃ t u g' e, exec (.epiT c a scl bias o) s = .next t ∧ EpiHeld s t x g (x.w.rdS n.val).toNat false u g' e := by
  let t0 := x.issued (x.price .uni) s
  have hargs : x.epiArgs o.data =
      ((x.w.rdS n.val).toNat, x.w.rdS (n.val + 1), (x.w.rdS (n.val + 2)).toNat, (x.w.rdS (n.val + 3)).toNat) := by rw [ho]; rfl
  have hw0 : find t0.wgs x.w.wg = some g := (wgOf_issued h _ _).trans hf.wg
  have hslot : slotDesc t0 x.w (ctlOf x.i).fmt.toNat = some d := by rw [issOf_ins h.1, slotDesc_issued h]; exact hf.slot
  refine epiHeld_of (t1 := t0) h hg rfl (rest_refl _ _) hw0 rfl hf.fresh ?_ (price := fun x => x.price .uni) (body := performEpiT bias o)
    (bytes := []) (wins := [])
  rw [performEpiT, run_epiChecks hslot hf.good hw0 (by rw [hargs]; exact hf.blk) (by rw [hargs]; exact hf.bt)
    fun p n e => by rw [epiTiles] at e; obtain ⟨rfl, rfl⟩ := Prod.mk.inj (Option.some.inj e); exact ht, hargs]
end

end Sys2Proof.Machine
end

section
/-! An epilogue to tiles sends its elements (R196, R199): the bytes of all elements, column by column, cut into arrivals of 64 bytes. -/
namespace Sys2Proof.Machine
open Sys2Proof.Safety

/-! ### A list cut into chunks -/

section
variable {β : Type}
theorem flatMap_range_nested (f : Nat → Nat → List β) (a : Nat) {b : Nat} (hb : 0 < b) :
    ((List.range a).flatMap fun i => (List.range b).flatMap (f i)) = (List.range (b * a)).flatMap fun k => f (k / b) (k % b) := by
  induction a with
  | zero => rfl
  | succ a ih =>
    have hrow : (List.range b).flatMap (f a) = (List.range b).flatMap fun j => f ((b * a + j) / b) ((b * a + j) % b) :=
      List.flatMap_congr fun j hj => by
        have hj := List.mem_range.mp hj
        rw [Nat.mul_add_div hb, Nat.div_eq_of_lt hj, Nat.mul_add_mod, Nat.mod_eq_of_lt hj, Nat.add_zero]
    rw [List.range_succ, List.flatMap_append, ih, Nat.mul_succ, List.range_add, List.flatMap_append, List.flatMap_map, List.flatMap_singleton, hrow]
theorem flatMap_chunks (l : List β) (c n : Nat) : ((List.range n).flatMap fun k => (l.drop (c * k)).take c) = l.take (c * n) := by
  induction n with
  | zero => simp
  | succ n ih => rw [List.range_succ, List.flatMap_append, ih, List.flatMap_singleton, Nat.mul_succ, List.take_add]
end

/-! ### Arrivals added -/

/-- The arrivals enter in order, each under an identity of its own. -/
theorem run_addArrivals (l : List Arrival) (s : State) :
    (run (addArrivals l) s).arrivals = s.arrivals ++ mapI (fun i a => { a with id := s.nextId + i }) l := by
  unfold addArrivals
  induction l generalizing s with
  | nil => exact (List.append_nil _).symm
  | cons a l ih =>
    rw [run_forEach_cons, ih]
    refine (List.append_assoc _ [_] _).trans (congrArg (s.arrivals ++ ·) (List.ext_getElem? fun k => ?_))
    cases k with
    | zero => rfl
    | succ k =>
      have hn : (run (fun s => [.arrivals (s.arrivals ++ [{ a with id := s.nextId }]), .nextId (s.nextId + 1)]) s).nextId = s.nextId + 1 := rfl
      simp [hn, Nat.add_assoc, Nat.add_comm 1]
theorem spares_addArrivals {but : List Safety.Part} {l : List Arrival} (h : .arrivals ∈ but) : Spares but (addArrivals l) :=
  spares_forEach fun a _ => spares_list fun s u hu => by
    rcases List.mem_cons.mp hu with rfl | hu
    · exact h
    · rw [List.mem_singleton.mp hu]; trivial
theorem keeps_l1Discard {α : Type} {f : State → α} {c : Nat} (h : ∀ s k w, f (applyUpd s (.core k w)) = f s) : Keeps f (l1Discard c) :=
  fun s => h s _ _

/-! ### An epilogue whose turn it is -/

/-- An epilogue that a warp holds, its block and bias ready. -/
structure EpiTurn (s : State) (wk id : Nat) (w : Warp) (u : Outst) (g : Workgroup) : Prop where
  warp : find s.warps wk = some w
  out : w.outs.find? (fun v => v.id == id) = some u
  wg : wgOf s w = some g
  kind : u.kind = .epi false
  ready : epiReady s w g u = true
  free : faultWaits w u = false
section
variable {s : State} {wk id : Nat} {w : Warp} {u : Outst} {g : Workgroup} {d : BitVec 128} {c : Ctl} {a : Act} {scl bias : Bool} {o : OT}
theorem exec_of_epiTurn (h : EpiTurn s wk id w u g) : exec (.epilogueAccepted wk id) s = .next (run (epiRun wk w g u) s) := by
  show Host.Outcome.next (run (look _) s) = _
  rw [run_look]
  simp only [h.warp, h.out, h.wg, h.kind, h.ready, h.free]
  rfl

/-- Arrival k of a tile epilogue with these bytes. -/
def epiUnit (s : State) (wk : Nat) (w : Warp) (g : Workgroup) (u : Outst) (tile : Nat) (bytes : List Byte) (k : Nat) : Arrival :=
  { noArrival with
    id := s.nextId + k, ctx := w.ctx, srcCore := w.core, launch := g.launch, core := w.core, tile := tile + k / 32, off := 64 * (k % 32)
    po := u.point w wk u.mask, data := (bytes.drop (64 * k)).take 64, retry := true, epi := some (w.wg, u.age) }
theorem epiRun_tiles (hi : u.ins = .epiT c a scl bias o) (hd : slotDesc s w c.fmt.toNat = some d) :
    let x := replayIss s wk w u
    let eb := efBits (dEf d) / 8
    let z := epiAll s g u a scl bias d (x.epiArgs o.data).1 (x.epiArgs o.data).2.1 (x.epiArgs o.data).2.2.1
    let bytes := (List.range 32).flatMap fun n => (List.range 32).flatMap fun m => le eb (nth z (32 * m + n) 0)
    let units := (List.range (16 * eb)).map (epiUnit s wk w g u (x.tileNo o) bytes)
    run (epiRun wk w g u) s = run (acts [charge (some w.ctx) [⟨18, 1, clusterNo w.core⟩], if bias then l1Discard w.core else skip, addArrivals units,
      modOut wk u.id fun o => { o with kind := .epi true },
      modWg w.wg fun g => { g with epis := g.epis.map fun e => if e.id = u.age then { e with arrivals := units.map (·.id) } else e }]) s := by
  have hd' : slotDesc s w (ctlOf (.epiT c a scl bias o)).fmt.toNat = some d := hd
  rw [epiRun, run_look]
  simp only [hd', hi, Option.getD_some]
  rfl
/-- The tiles' arrivals of an epilogue: sixteen for each byte of an element, in the order of the elements' columns. -/
theorem epiT_sends (h : EpiTurn s wk id w u g) (hi : u.ins = .epiT c a scl bias o) (hd : slotDesc s w c.fmt.toNat = some d) :
    let x := replayIss s wk w u
    let eb := efBits (dEf d) / 8
    let z := epiAll s g u a scl bias d (x.epiArgs o.data).1 (x.epiArgs o.data).2.1 (x.epiArgs o.data).2.2.1
    ∃ t l, exec (.epilogueAccepted wk id) s = .next t ∧ t.arrivals = s.arrivals ++ l ∧ l.length = 16 * eb ∧
      (∀ k, k < 16 * eb → ∀ v, l[k]? = some v → v.core = w.core ∧ v.tile = x.tileNo o + k / 32 ∧ v.off = 64 * (k % 32) ∧ v.retry = true ∧
        v.epi = some (w.wg, u.age)) ∧
      l.flatMap (·.data) = (List.range 1024).flatMap (fun j => toBytes eb (nth z (32 * (j % 32) + j / 32) 0)) ∧ Rest s t [.wgs, .arrivals, .cores] := by
  intro x eb z
  let bytes := (List.range 32).flatMap fun n => (List.range 32).flatMap fun m => le eb (nth z (32 * m + n) 0)
  let units := (List.range (16 * eb)).map (epiUnit s wk w g u (x.tileNo o) bytes)
  let first := acts [charge (some w.ctx) [⟨18, 1, clusterNo w.core⟩], if bias then l1Discard w.core else skip]
  let last := acts [modOut wk u.id fun o => { o with kind := .epi true },
    modWg w.wg fun g => { g with epis := g.epis.map fun e => if e.id = u.age then { e with arrivals := units.map (·.id) } else e }]
  let l := mapI (fun i a => { a with id := (run first s).nextId + i }) units
  have hrun : run (epiRun wk w g u) s = run last (run (addArrivals units) (run first s)) := by
    rw [epiRun_tiles hi hd]
    simp only [run_acts_cons, run_acts_nil, first, last]
    rfl
  have hfirst : (run first s).arrivals = s.arrivals := by
    refine keeps_cons (f := fun s : State => s.arrivals) (keeps_charge (fun _ _ _ _ => rfl) (fun _ _ _ => rfl) fun _ _ _ => rfl)
      (keeps_cons ?_ keeps_nil) s
    split
    exacts [keeps_l1Discard fun _ _ _ => rfl, keeps_skip]
  have hlast (t : State) : (run last t).arrivals = t.arrivals :=
    keeps_cons (f := fun s : State => s.arrivals) (keeps_modWarp fun _ _ _ => rfl) (keeps_cons (keeps_modWg fun _ _ _ => rfl) keeps_nil) t
  have hspares : Spares [.wgs, .arrivals, .cores] (acts [first, addArrivals units, last]) :=
    spares_cons (spares_cons spares_charge (spares_cons (spares_ite (spares_l1Discard (by decide)) spares_skip) spares_nil))
      (spares_cons (spares_addArrivals (by decide)) (spares_cons (spares_cons spares_modWarp (spares_cons (spares_modWg (by decide)) spares_nil)) spares_nil))
  have hdata : l.map (·.data) = units.map (·.data) := List.ext_getElem? fun k => by
    simp only [l, List.getElem?_map, getElem?_mapI, Option.map_map]
    rfl
  have hbytes : bytes = (List.range 1024).flatMap fun j => toBytes eb (nth z (32 * (j % 32) + j / 32) 0) :=
    flatMap_range_nested (fun n m => le eb (nth z (32 * m + n) 0)) 32 (by decide)
  refine ⟨_, l, exec_of_epiTurn h, ?_, ?_, fun k hk v hv => ?_, ?_, ?_⟩
  · rw [hrun, hlast, run_addArrivals, hfirst]
  · simp only [l, units, length_mapI, List.length_map, List.length_range]
  · simp only [l, units, getElem?_mapI, List.getElem?_map, List.getElem?_range hk, Option.map_some, Option.some.injEq] at hv
    subst hv
    exact ⟨rfl, rfl, rfl, rfl, rfl⟩
  · calc l.flatMap (·.data) = units.flatMap (·.data) := by rw [List.flatMap_def, hdata, List.flatMap_def]
      _ = (List.range (16 * eb)).flatMap fun k => (bytes.drop (64 * k)).take 64 := List.flatMap_map ..
      _ = bytes.take (64 * (16 * eb)) := flatMap_chunks ..
      _ = bytes := List.take_of_length_le (by
          rw [hbytes, length_flatMap_range (n := eb) fun _ => length_toBytes _ _]; omega)
      _ = _ := hbytes
  · rw [hrun]
    simpa only [run_acts_cons, run_acts_nil] using hspares s
end

end Sys2Proof.Machine
end

section
/-! An epilogue accepted (R177, R198): it leaves its warp and its workgroup, and a block whose release waited for it alone becomes FREE. -/
namespace Sys2Proof.Machine
open Sys2Proof.Safety

/-! ### Epilogues that end -/

/-- A block that waits for an epilogue no longer. -/
def Acc.unwait (id : Nat) (a : Acc) : Acc :=
  let ws := a.waits.filter fun i => i != id
  if a.st == .releasing && ws.isEmpty then ⟨.free, [], [], none⟩ else { a with waits := ws }
/-- One epilogue ends. -/
def endEpi (wg : Nat) (g : Workgroup) (e : Epi) : Action := acts [
  modWg wg fun g => { g with epis := g.epis.filter fun x => x.id != e.id },
  modAcc g.core (nth g.accs e.blk 0) (Acc.unwait e.id)]
section
variable {s : State} {wg : Nat} {g h : Workgroup} {e : Epi}
theorem run_endEpis (hg : find s.wgs wg = some g) (ages : List Nat) :
    run (endEpis wg ages) s = run (forEach (g.epis.filter fun e => ages.contains e.id) (endEpi wg g)) s := by
  rw [endEpis, run_look, hg]
  rfl
theorem find_endEpi (hh : find s.wgs wg = some h) :
    find (run (endEpi wg g e) s).wgs wg = some { h with epis := h.epis.filter fun x => x.id != e.id } := by
  rw [endEpi, run_acts_cons, run_modWg _ _ _ _ hh]
  exact (find_put _ _ _ _).trans (if_pos rfl)
theorem accOf_endEpi (q : Nat) : accOf (coreOf (run (endEpi wg g e) s) g.core) q =
    if q = nth g.accs e.blk 0 then (accOf (coreOf s g.core) q).unwait e.id else accOf (coreOf s g.core) q := by
  have hcore : coreOf (run (modWg wg fun g => { g with epis := g.epis.filter fun x => x.id != e.id }) s) g.core = coreOf s g.core :=
    keeps_modWg (f := fun s => coreOf s g.core) (fun _ _ _ => rfl) s
  rw [endEpi, run_acts_cons, run_acts_cons, run_acts_nil, accOf_modAcc, hcore]
  split
  · next hq => rw [hq]
  · rfl
theorem unwait_of_waits {a : Acc} {id : Nat} (hst : a.st = .releasing) (hw : a.waits = [id]) : a.unwait id = ⟨.free, [], [], none⟩ := by
  simp [Acc.unwait, hst, hw]
/-- Epilogues of one age end: the first one frees the block, the others find nothing left to do. -/
theorem forEach_endEpi {age : Nat} (hg : find s.wgs wg = some g) (l : List Epi) (he : e.id = age) (hl : ∀ v ∈ l, v.id = age) :
    let t := run (forEach (e :: l) (endEpi wg g)) s
    find t.wgs wg = some { g with epis := g.epis.filter fun v => v.id != age } ∧
      ((accOf (coreOf s g.core) (nth g.accs e.blk 0)).st = .releasing → (accOf (coreOf s g.core) (nth g.accs e.blk 0)).waits = [age] →
        accOf (coreOf t g.core) (nth g.accs e.blk 0) = ⟨.free, [], [], none⟩) := by
  let g' : Workgroup := { g with epis := g.epis.filter fun v => v.id != age }
  let free : Acc := ⟨.free, [], [], none⟩
  have hrest (t : State) (ht : find t.wgs wg = some g') : find (run (forEach l (endEpi wg g)) t).wgs wg = some g' := by
    induction l generalizing t with
    | nil => exact ht
    | cons v l ih =>
      rw [run_forEach_cons]
      refine ih (fun x hx => hl x (List.mem_cons_of_mem _ hx)) _ ((find_endEpi ht).trans ?_)
      rw [hl v List.mem_cons_self]
      simp [g']
  have hfree (t : State) (b : Nat) (ht : accOf (coreOf t g.core) b = free) : accOf (coreOf (run (forEach l (endEpi wg g)) t) g.core) b = free := by
    clear hrest
    induction l generalizing t with
    | nil => exact ht
    | cons v l ih =>
      rw [run_forEach_cons]
      refine ih (fun x hx => hl x (List.mem_cons_of_mem _ hx)) (run (endEpi wg g v) t) ?_
      rw [accOf_endEpi, ht]
      split <;> rfl
  refine ⟨?_, fun hst hw => ?_⟩
  · rw [run_forEach_cons]
    exact hrest _ ((find_endEpi hg).trans (by rw [he]))
  · rw [run_forEach_cons]
    exact hfree _ _ (by rw [accOf_endEpi, if_pos rfl, he, unwait_of_waits hst hw])
end

/-! ### Acceptance -/

section
variable {s : State} {wk id : Nat} {w : Warp} {u : Outst} {g : Workgroup} {e : Epi}
theorem spares_endEpis {wg : Nat} {ages : List Nat} : Spares [.wgs, .cores] (endEpis wg ages) := spares_look fun s => by
  split
  · exact spares_skip
  · exact spares_forEach fun e _ => spares_cons (spares_modWg (by decide)) (spares_cons (spares_modCore (by decide)) spares_nil)
theorem spares_mono {but but' : List Safety.Part} {a : Action} (h : Spares but a) (hb : but ⊆ but') : Spares but' a := fun s => rest_mono (h s) hb
theorem spares_epiAccept : Spares [.wgs, .cores, .ctxs] (epiAccept wk w u) :=
  spares_cons spares_modWarp (spares_cons (spares_mono spares_endEpis (by decide))
    (spares_cons (fun _ => rest_applyUpd (u := .ctx _ _) (List.mem_cons_of_mem _ (List.mem_cons_of_mem _ List.mem_cons_self)) _) spares_nil))
theorem find_epiAccept (h : find s.warps wk = some w) :
    find (run (epiAccept wk w u) s).warps wk = some { w with outs := w.outs.filter fun v => v.id != u.id } := by
  have hk : Keeps (fun s : State => s.warps) (acts [endEpis w.wg [u.age], sink w.ctx]) :=
    keeps_cons (keeps_endEpis (fun _ => keeps_modWg fun _ _ _ => rfl) fun _ _ _ => rfl) (keeps_cons (fun _ => rfl) keeps_nil)
  rw [epiAccept, run_acts_cons, show (run _ _).warps = _ from hk _, dropOut, run_modWarp _ _ _ _ h]
  exact (find_put _ _ _ _).trans (if_pos rfl)
theorem wd_epiAccept : (ctxOf (run (epiAccept wk w u) s) w.ctx).wd = 0 := by
  rw [epiAccept, run_acts_cons, run_acts_cons, run_acts_cons, run_acts_nil]
  exact congrArg Ctx.wd ((findD_put _ _ _ _ _).trans (if_pos rfl))
theorem run_epiAccept (h : find s.warps wk = some w) : run (epiAccept wk w u) s =
    run (sink w.ctx) (run (endEpis w.wg [u.age]) (applyUpd s (.warp wk (some { w with outs := w.outs.filter fun v => v.id != u.id })))) := by
  rw [epiAccept, run_acts_cons, run_acts_cons, run_acts_cons, run_acts_nil, dropOut, run_modWarp _ _ _ _ h]
theorem exec_of_accepted (hw : find s.warps wk = some w) (hu : w.outs.find? (fun v => v.id == id) = some u) (hg : wgOf s w = some g)
    (hk : u.kind = .epi true) (ha : ∀ v ∈ g.epis, v.id = u.age → v.arrivals = []) :
    exec (.epilogueAccepted wk id) s = .next (run (epiAccept wk w u) s) := by
  have hall : (g.epis.all fun e => e.id != u.age || e.arrivals.isEmpty) = true := List.all_eq_true.mpr fun v hv => by
    by_cases hi : v.id = u.age
    · simp [ha v hv hi]
    · simp [hi]
  show Host.Outcome.next (run (look _) s) = _
  rw [run_look]
  simp only [hw, hu, hg, hk, hall]
  rfl
/-- A tile epilogue whose arrivals have been taken is accepted. -/
theorem epi_accepted (hw : find s.warps wk = some w) (hu : w.outs.find? (fun v => v.id == id) = some u) (hg : wgOf s w = some g)
    (hk : u.kind = .epi true) (he : g.epis.find? (fun v => v.id == u.age) = some e) (ha : ∀ v ∈ g.epis, v.id = u.age → v.arrivals = []) :
    ∃ t g', exec (.epilogueAccepted wk id) s = .next t ∧ find t.warps wk = some { w with outs := w.outs.filter fun v => v.id != id } ∧
      find t.wgs w.wg = some g' ∧ g'.epis = g.epis.filter (fun v => v.id != u.age) ∧
      ((accOf (coreOf s g.core) (nth g.accs e.blk 0)).st = .releasing → (accOf (coreOf s g.core) (nth g.accs e.blk 0)).waits = [u.age] →
        accOf (coreOf t g.core) (nth g.accs e.blk 0) = ⟨.free, [], [], none⟩) ∧
      (ctxOf t w.ctx).wd = 0 ∧ Rest s t [.wgs, .cores, .ctxs] := by
  obtain rfl : u.id = id := by simpa using List.find?_some hu
  let s1 := applyUpd s (.warp wk (some { w with outs := w.outs.filter fun v => v.id != u.id }))
  have hg1 : find s1.wgs w.wg = some g := hg
  obtain ⟨l, hl⟩ : ∃ l, (g.epis.filter fun e => [u.age].contains e.id) = e :: l := by
    have hh : (g.epis.filter fun e => [u.age].contains e.id).head? = some e := by
      rw [List.head?_filter, ← he]
      exact congrArg (g.epis.find? ·) (funext fun v => by simp [beq_eq_decide])
    exact List.head?_eq_some_iff.mp hh
  have hage (v : Epi) (hv : v ∈ e :: l) : v.id = u.age := by
    have hm := (List.mem_filter.mp (hl ▸ hv : v ∈ g.epis.filter fun e => [u.age].contains e.id)).2
    exact List.mem_singleton.mp (List.contains_iff_mem.mp hm)
  obtain ⟨hwg, hblk⟩ := forEach_endEpi hg1 l (hage e List.mem_cons_self) fun v hv => hage v (List.mem_cons_of_mem _ hv)
  rw [← hl, ← run_endEpis hg1] at hwg hblk
  refine ⟨_, { g with epis := g.epis.filter fun v => v.id != u.age }, exec_of_accepted hw hu hg hk ha, find_epiAccept hw, ?_, rfl, ?_, wd_epiAccept, spares_epiAccept s⟩
  · rw [run_epiAccept hw]
    exact hwg
  · rw [run_epiAccept hw]
    exact hblk
end

end Sys2Proof.Machine
end

section
/-! The pieces of an epilogue to memory, translated and stored (R198, R211, R225): any order of its rows stores the same. -/
namespace Sys2Proof.Machine
open Sys2Proof.Safety

/-! ### Translation -/

/-- What translation reads, and the warps. -/
def xlateView (s : State) := ((farView s, s.mem), s.warps)
section
variable {s t : State} {w : Warp} {u : Outst} {l l' : List (Nat × List Byte)} {r : List (Nat × Where × List Byte)}
theorem translate_congr (h : xlateView s = xlateView t) (n : Nat) (sup : Bool) (a : AccKind) (ea : DWord) :
    translate s n sup a ea = translate t n sup a ea := by
  have hf : farView s = farView t := congrArg (·.1.1) h
  have hpeer (n : Nat) (x : Xlate) : checkPeer s n x = checkPeer t n x := by
    simp only [checkPeer, peerCheck, farView_reg hf (k := .peerp) (by decide) (by decide) (by decide),
      farView_reg hf (k := .peere) (by decide) (by decide) (by decide), farView_reg hf (k := .tpeer) (by decide) (by decide) (by decide)]
  rw [translate, translate, xlateCtx_congr hf (congrArg (·.1.2) h), ctxTenant_congr hf]
  simp only [hpeer]
theorem epiXlate_congr (h : xlateView s = xlateView t) (w : Warp) (u : Outst) (l : List (Nat × List Byte)) :
    epiXlate s w u l = epiXlate t w u l := by
  have hsup : epiSup s w u = epiSup t w u := by
    rw [epiSup, epiSup, ctxSup, ctxSup, farView_reg (congrArg (·.1.1) h) (by decide) (by decide) (by decide)]
  simp only [epiXlate, hsup, translate_congr h]
theorem epiXlate_cons {a : Nat} {bs : List Byte} : epiXlate s w u ((a, bs) :: l) = .ok r ↔
    ∃ x r', translate s w.ctx (epiSup s w u) .write (dw a) = .ok x ∧ epiXlate s w u l = .ok r' ∧ r = (a, x.dest, bs) :: r' := by
  rw [epiXlate, List.foldr_cons, ← epiXlate]
  dsimp only
  cases translate s w.ctx (epiSup s w u) .write (dw a) with
  | error f => simp
  | ok x =>
    cases epiXlate s w u l with
    | error f => simp [Except.map]
    | ok r' => simp [Except.map, eq_comm]
/-- Pieces that translate do so in any order. -/
theorem epiXlate_perm (h : l.Perm l') (hx : epiXlate s w u l = .ok r) : ∃ r', epiXlate s w u l' = .ok r' ∧ r.Perm r' := by
  induction h generalizing r with
  | nil => exact ⟨r, hx, .refl _⟩
  | cons e _ ih =>
    obtain ⟨x, r1, ht, h1, rfl⟩ := epiXlate_cons.mp hx
    obtain ⟨r2, h2, hp⟩ := ih h1
    exact ⟨_, epiXlate_cons.mpr ⟨x, r2, ht, h2, rfl⟩, hp.cons _⟩
  | swap e f l =>
    obtain ⟨x, r1, ht, h1, rfl⟩ := epiXlate_cons.mp hx
    obtain ⟨y, r2, hy, h2, rfl⟩ := epiXlate_cons.mp h1
    exact ⟨_, epiXlate_cons.mpr ⟨y, _, hy, epiXlate_cons.mpr ⟨x, r2, ht, h2, rfl⟩, rfl⟩, .swap _ _ _⟩
  | trans _ _ ih1 ih2 =>
    obtain ⟨r1, h1, hp⟩ := ih1 hx
    obtain ⟨r2, h2, hq⟩ := ih2 h1
    exact ⟨r2, h2, hp.trans hq⟩
end

/-! ### Orders of the rows -/

section
variable {α : Type}
theorem shuffle_perm (c : Nat) (l : List α) : (shuffle c l).Perm l := by
  induction l generalizing c with
  | nil => exact .refl _
  | cons a l ih =>
    have hp := ih (c / (l.length + 1))
    have hle : c % (l.length + 1) ≤ (shuffle (c / (l.length + 1)) l).length := by
      rw [hp.length_eq]; exact Nat.le_of_lt_succ (Nat.mod_lt _ (Nat.succ_pos _))
    exact (List.perm_insertIdx _ _ hle).trans (hp.cons a)
/-- Some order is taken, with a free choice or without one. -/
theorem run_anyOrder (clash : Bool) (l : List α) (f : List α → Action) (s : State) :
    ∃ l' s', l'.Perm l ∧ (s' = s ∨ s' = applyUpd s (.tick (s.tick + 1))) ∧ run (anyOrder clash l f) s = run (f l') s' := by
  cases clash with
  | false => exact ⟨l, s, .refl _, .inl rfl, rfl⟩
  | true => exact ⟨shuffle (Config.freeChoice s.tick) l, _, shuffle_perm _ _, .inr rfl, run_withFree (fun t => f (shuffle (Config.freeChoice t) l)) s⟩
end

/-! ### Stores added -/

section
variable {s : State} {p : Point}
/-- What a store of an instruction says to the memory system. -/
def StoreOp.says (rel : Option Scope) (e : StoreOp) : Point × Nat × List Byte × Option Scope × Bool × Option RmwOp :=
  (e.po, e.pa, e.bytes, rel, e.cached, none)
theorem says_addStores (rel : Option Scope) (hint : Nat) (l : List StoreOp) (s : State) :
    (run (addStores rel hint l) s).stores.map PStore.says = s.stores.map PStore.says ++ l.map (StoreOp.says rel) := by
  have hl : (mapI (fun j e => (j, e)) l).map (fun e => e.2.says rel) = l.map (StoreOp.says rel) := List.ext_getElem? fun k => by
    simp only [List.getElem?_map, getElem?_mapI, Option.map_map]
    rfl
  rw [← hl, addStores]
  generalize mapI (fun j e => (j, e)) l = m
  induction m generalizing s with
  | nil => exact (List.append_nil _).symm
  | cons e m ih =>
    rw [run_forEach_cons, ih, List.map_cons, List.append_cons]
    exact congrArg (· ++ _) (List.map_append ..)
/-- Stores that take their places anew are the same stores. -/
theorem says_behind (ids : List Nat) (s : State) : ((run (behind ids) s).stores.map PStore.says).Perm (s.stores.map PStore.says) := by
  have hid (l : List PStore) : (mapI (fun i q => { q with id := s.nextId + i }) l).map PStore.says = l.map PStore.says :=
    List.ext_getElem? fun k => by
      simp only [List.getElem?_map, getElem?_mapI, Option.map_map]
      rfl
  unfold behind run
  dsimp only
  split
  · exact .refl _
  · refine .trans (.of_eq ?_) ((List.perm_append_comm.trans (List.filter_append_perm (fun q : PStore => ids.contains q.id) s.stores)).map PStore.says)
    exact (List.map_append ..).trans ((congrArg (_ ++ ·) (hid _)).trans (List.map_append ..).symm)
theorem spares_addStores {but : List Safety.Part} {rel : Option Scope} {hint : Nat} {l : List StoreOp} (h : .stores ∈ but) :
    Spares but (addStores rel hint l) := spares_forEach fun e _ => spares_list fun s u hu => by
  rcases List.mem_cons.mp hu with rfl | hu
  · exact h
  · rw [List.mem_singleton.mp hu]; trivial
theorem spares_behind {but : List Safety.Part} {f : State → List Nat} (h : .stores ∈ but) : Spares but fun s => behind (f s) s :=
  spares_list fun s u hu => by
    unfold behind at hu
    dsimp only at hu
    split at hu
    · exact nomatch hu
    · rcases List.mem_cons.mp hu with rfl | hu
      · exact h
      · rw [List.mem_singleton.mp hu]; trivial
theorem keeps_addStores_warps (rel : Option Scope) (hint : Nat) (l : List StoreOp) : Keeps (fun s => s.warps) (addStores rel hint l) :=
  keeps_forEach fun _ _ _ => rfl
theorem keeps_behind_warps (ids : List Nat) : Keeps (fun s => s.warps) (behind ids) := fun s => by
  unfold behind run
  dsimp only
  split <;> rfl
theorem keeps_chargeW_stores (w : Warp) (cs : List Chg) : Keeps (fun s => s.stores) (chargeW w cs) := fun s =>
  (spares_chargeW (but := []) s).stores (by decide)

/-- What a translated piece in memory says as a store of a point. -/
def pieceSays (p : Point) (e : Nat × Where × List Byte) : Option (Point × Nat × List Byte × Option Scope × Bool × Option RmwOp) :=
  match e.2.1 with
  | .mem pa q => some (p, pa, e.2.2, none, q, none)
  | _ => none
/-- The stores of pieces that lie in the own memory. -/
theorem epiStores_does (wk : Nat) (w : Warp) (x : Iss) (u : Outst) {l : List (Nat × Where × List Byte)} (hl : ∀ e ∈ l, ∃ pa q, e.2.1 = .mem pa q)
    (s : State) : let t := run (epiStores wk w x u l) s
    (t.stores.map PStore.says).Perm (s.stores.map PStore.says ++ l.filterMap (pieceSays (u.point w wk u.mask))) ∧ t.warps = s.warps ∧ Rest s t [.stores] := by
  let p := u.point w wk u.mask
  let loc : List StoreOp := l.filterMap fun (a, d, bs) => match d with | .mem pa c => some ⟨p, a, pa, c, bs⟩ | _ => none
  let ids := laterStores s p (loc.map fun e => (e.pa, e.bytes.length))
  have hloc : loc.map (StoreOp.says none) = l.filterMap (pieceSays p) := by
    rw [List.map_filterMap]
    refine congrArg (l.filterMap ·) (funext fun ⟨a, d, bs⟩ => ?_)
    cases d <;> rfl
  have hfar (t : State) : run (forEach l fun (_, d, bs) => match d with
      | .win p g off => remoteAt u.age w.core w.ctx wk 0 (lowest u.mask) 2 p g off bs.length 0 bs
      | _ => skip) t = t := by
    clear hloc ids loc
    induction l generalizing t with
    | nil => rfl
    | cons e l ih =>
      obtain ⟨a, d, bs⟩ := e
      obtain ⟨pa, q, rfl⟩ := hl _ List.mem_cons_self
      rw [run_forEach_cons]
      exact ih (fun e he => hl e (List.mem_cons_of_mem _ he)) t
  let s1 := run (x.lookups (loc.map fun e => (0, dw e.va, e.pa, e.cached))) s
  have hrun : run (epiStores wk w x u l) s = run (behind ids) (run (addStores none 0 loc) s1) := by
    rw [epiStores, run_look]
    simp only [run_acts_cons, run_acts_nil, s1]
    exact hfar _
  have hs1 : s1.stores = s.stores := keeps_chargeW_stores _ _ s
  intro t
  refine ⟨?_, ?_, ?_⟩
  · show ((run _ s).stores.map _).Perm _
    rw [hrun]
    refine (says_behind ids _).trans (.of_eq ?_)
    rw [says_addStores, hs1, hloc]
  · show (run _ s).warps = _
    rw [hrun]
    exact (keeps_behind_warps ids _).trans ((keeps_addStores_warps none 0 loc _).trans (keeps_chargeW_warps _ _ s))
  · show Rest s (run _ s) _
    rw [hrun]
    exact rest_trans (spares_chargeW s) (rest_trans (spares_addStores List.mem_cons_self _)
      (spares_behind (f := fun _ => ids) List.mem_cons_self _))
end

end Sys2Proof.Machine
end

section
/-! An epilogue to memory computes and stores (R196 to R198): its rows, and what it leaves where every piece translates. -/
namespace Sys2Proof.Machine
open Sys2Proof.Safety

/-- Rows cut into pieces. -/
def epiPieces (rows : List (Nat × List Byte)) : List (Nat × List Byte) := rows.flatMap fun (a, bs) => chop16 10 a bs
/-- The rows (with TR the columns) that an epilogue to memory stores. -/
def epiStRows (s : State) (wk : Nat) (w : Warp) (g : Workgroup) (u : Outst) (d : BitVec 128) (a : Act) (scl bias tr : Bool) (o : OM) :
    List (Nat × List Byte) :=
  let x := replayIss s wk w u
  let (blk, scale, bt, stride) := x.epiArgs o.data
  epiRows (x.ea o (lowest u.act)).toNat stride (efBits (dEf d) / 8) tr (epiAll s g u a scl bias d blk scale bt)
/-- The walks of the pages that the pieces lie in. -/
def epiWalks (w : Warp) (u : Outst) (l : List (Nat × List Byte)) : Action :=
  forEach (dedup (l.map fun e => e.1 / 65536)) fun pg => look fun s =>
    noteWalk w.ctx (clusterNo w.core) (dw (65536 * pg)) (match translate s w.ctx (epiSup s w u) .write (dw (65536 * pg)) with
      | .ok t => t.lines
      | .error f => f.lines)
/-- Its rows are stored, translated as the state then has it. -/
def epiStore (wk : Nat) (w : Warp) (x : Iss) (u : Outst) (rows : List (Nat × List Byte)) : Action := look fun s =>
  match epiXlate s w u (epiPieces rows) with
  | .ok l => epiStores wk w x u l
  | .error _ => skip
/-- Its charge, the lines that it acquires for a bias, and its walks. -/
def epiBefore (w : Warp) (u : Outst) (bias : Bool) (l : List (Nat × List Byte)) : Action := acts [
  charge (some w.ctx) [⟨18, 1, clusterNo w.core⟩], if bias then l1Discard w.core else skip, epiWalks w u l]
/-- It traps where a piece does not translate. -/
def epiTraps (wk : Nat) (w : Warp) (u : Outst) (a : Nat) (f : XFault) : Action := acts [
  noteWalk w.ctx (clusterNo w.core) (dw a) f.lines,
  forEach (pcGroups w u.mask) fun m => raise wk ⟨m, faultCause .write f, u.pc, (laneOf w (lowest m)).pc, dw a, syndrome .write f, none⟩]

section
variable {s : State} {wk id : Nat} {w : Warp} {u : Outst} {g : Workgroup} {d : BitVec 128} {c : Ctl} {a : Act} {scl bias tr : Bool} {o : OM}
theorem epiRun_st (hi : u.ins = .epiSt c a scl bias tr o) (hd : slotDesc s w c.fmt.toNat = some d) :
    let x := replayIss s wk w u
    let rows := epiStRows s wk w g u d a scl bias tr o
    run (epiRun wk w g u) s = run (match epiXlate s w u (epiPieces rows) with
      | .error (a, f) => epiTraps wk w u a f
      | .ok _ => acts [epiBefore w u bias (epiPieces rows),
          anyOrder (decide ((x.epiArgs o.data).2.2.2 < 32 * (efBits (dEf d) / 8))) rows (epiStore wk w x u), epiAccept wk w u]) s := by
  have hd' : slotDesc s w (ctlOf (.epiSt c a scl bias tr o)).fmt.toNat = some d := hd
  intro x rows
  rw [epiRun, run_look]
  simp only [hi, hd', Option.getD_some]
  show run (match epiXlate s w u (epiPieces rows) with | .error (a, f) => _ | .ok _ => _) s = _
  cases epiXlate s w u (epiPieces rows) with
  | error e => rfl
  | ok l => simp only [epiBefore, run_acts_cons, run_acts_nil]; rfl
theorem keeps_epiBefore_xlate (l : List (Nat × List Byte)) : Keeps xlateView (epiBefore w u bias l) := by
  have hcharge (cs : List Chg) : Keeps xlateView (charge (some w.ctx) cs) := fun s =>
    congrArg (fun v => ((v.1.1, v.1.2.1), v.2)) (keeps_charge_rest (some w.ctx) cs s)
  refine keeps_cons (hcharge _) (keeps_cons ?_ (keeps_cons ?_ keeps_nil))
  · split
    exacts [keeps_l1Discard fun _ _ _ => rfl, keeps_skip]
  · exact keeps_forEach fun pg _ => keeps_look fun s => keeps_noteWalk (fun _ _ => rfl) fun _ _ => rfl
theorem spares_noteWalk {but : List Safety.Part} {n cl : Nat} {ea : DWord} {lines : List Nat} : Spares but (noteWalk n cl ea lines) :=
  spares_list fun s u hu => by
    unfold noteWalk at hu
    split at hu
    · exact nomatch hu
    · rcases List.mem_cons.mp hu with rfl | hu
      · trivial
      · rw [List.mem_singleton.mp hu]; trivial
theorem spares_epiBefore (l : List (Nat × List Byte)) : Spares [.cores] (epiBefore w u bias l) :=
  spares_cons spares_charge (spares_cons (spares_ite (spares_l1Discard List.mem_cons_self) spares_skip)
    (spares_cons (spares_forEach fun _ _ => spares_look fun _ => spares_noteWalk) spares_nil))
/-- Where its pieces translate into the own memory, they are stored in some order. -/
theorem epiSt_stores (h : EpiTurn s wk id w u g) (hi : u.ins = .epiSt c a scl bias tr o) (hd : slotDesc s w c.fmt.toNat = some d)
    {l : List (Nat × Where × List Byte)} (hx : epiXlate s w u (epiPieces (epiStRows s wk w g u d a scl bias tr o)) = .ok l)
    (hl : ∀ e ∈ l, ∃ pa q, e.2.1 = .mem pa q) : ∃ t, exec (.epilogueAccepted wk id) s = .next t ∧
      (t.stores.map PStore.says).Perm (s.stores.map PStore.says ++ l.filterMap (pieceSays (u.point w wk u.mask))) ∧
      find t.warps wk = some { w with outs := w.outs.filter fun v => v.id != id } ∧ (ctxOf t w.ctx).wd = 0 ∧
      Rest s t [.stores, .wgs, .cores, .ctxs] := by
  let x := replayIss s wk w u
  let rows := epiStRows s wk w g u d a scl bias tr o
  obtain rfl : u.id = id := by simpa using List.find?_some h.out
  let s1 := run (epiBefore w u bias (epiPieces rows)) s
  have hview1 : xlateView s1 = xlateView s := keeps_epiBefore_xlate _ s
  have hrest1 : Rest s s1 [.cores] := spares_epiBefore _ s
  obtain ⟨rows', s2, hperm, hs2, hrun⟩ := run_anyOrder (decide ((x.epiArgs o.data).2.2.2 < 32 * (efBits (dEf d) / 8))) rows (epiStore wk w x u) s1
  have hview2 : xlateView s2 = xlateView s := by rcases hs2 with rfl | rfl <;> exact hview1
  have hrest2 : Rest s s2 [.cores] := by
    rcases hs2 with rfl | rfl
    · exact hrest1
    · exact rest_trans hrest1 (rest_applyUpd (u := .tick _) trivial _)
  have hstores2 : s2.stores = s.stores := hrest2.stores (by decide)
  have hwarps2 : s2.warps = s.warps := congrArg Prod.snd hview2
  obtain ⟨l', hx', hl'⟩ := epiXlate_perm (hperm.symm.flatMap_right _) hx
  obtain ⟨hsays, hwarps, hrest⟩ := epiStores_does wk w x u (fun e he => hl e (hl'.mem_iff.mpr he)) s2
  let s3 := run (epiStores wk w x u l') s2
  have hdone : run (epiRun wk w g u) s = run (epiAccept wk w u) s3 := by
    rw [epiRun_st hi hd, hx, run_acts_cons, run_acts_cons, run_acts_cons, run_acts_nil, hrun, epiStore, run_look, epiXlate_congr hview2]
    show run _ (run (match epiXlate s w u (epiPieces rows') with | .ok l => _ | .error _ => _) s2) = _
    rw [show epiXlate s w u (epiPieces rows') = .ok l' from hx']
  have hwarp3 : find s3.warps wk = some w := by rw [hwarps, hwarps2, h.warp]
  have hstores : (run (epiAccept wk w u) s3).stores = s3.stores := (spares_epiAccept s3).stores (by decide)
  refine ⟨_, exec_of_epiTurn h, ?_, ?_, ?_, ?_⟩ <;> rw [hdone]
  · rw [hstores]
    refine hsays.trans ?_
    rw [hstores2]
    exact (hl'.symm.filterMap _).append_left _
  · exact find_epiAccept hwarp3
  · exact wd_epiAccept
  · exact rest_trans (rest_mono hrest2 (by decide)) (rest_trans (rest_mono hrest (by decide)) (rest_mono (spares_epiAccept s3) (by decide)))
end

end Sys2Proof.Machine
end

section
/-! An epilogue to memory traps where a piece does not translate (R198, R398, R401): a warp at level 0 with a free frame enters its handler, and the
epilogue goes to the frame's replay queue. -/
namespace Sys2Proof.Machine
open Sys2Proof.Safety

/-! ### The way to a handler -/

/-- Everything of `Rest`, the cached translations and the warps. -/
def stillView (s : State) := (restView s, s.warps)
section
variable {s t : State} {k f : Nat} {w : Warp} {g : Workgroup} {c : Trap} {m : Mask}
theorem keeps_noteWalk_still {n cl : Nat} {ea : DWord} {lines : List Nat} : Keeps stillView (noteWalk n cl ea lines) :=
  keeps_noteWalk (fun _ _ => rfl) fun _ _ => rfl
theorem reg_still (h : stillView s = stillView t) {r : RegKind} (h1 : r ≠ .cbal) (h2 : r ≠ .cuse) (h3 : r ≠ .tuse) (n : Nat) : reg s r n = reg t r n :=
  farView_reg (congrArg (·.1.1) h) h1 h2 h3 n
theorem frameOk_congr (h : stillView s = stillView t) (w : Warp) (g : Workgroup) (f : Nat) : frameOk s w g f = frameOk t w g f := by
  have hf : farView s = farView t := congrArg (·.1.1) h
  have hm : s.mem = t.mem := congrArg (·.1.2.1) h
  simp only [frameOk, xlateAll, imgBase_congr hf, xlateCtx_congr hf hm]
theorem handled_congr (h : stillView t = stillView s) (hh : Handled s k w g f) : Handled t k w g f where
  here := (congrArg (fun v => find v.2 k) h).trans hh.here
  core := hh.core
  level := hh.level
  cpc := hh.cpc
  group := (congrArg (fun v => find v.1.2.2.2.1 w.wg) h).trans hh.group
  free := hh.free
  mapped := (frameOk_congr h w g f).trans hh.mapped
  handler := by rw [reg_still h (by decide) (by decide) (by decide)]; exact hh.handler
theorem route_handled (h : Handled s k w g f) (cause : Nat) : route s w g cause = .handler := by
  simpa [route, h.level, h.cpc] using h.handler
/-- The walks of the frame's pages. -/
def frameWalks (s : State) (w : Warp) (g : Workgroup) (f : Nat) : Action :=
  if imgSize s w.ctx = 0 then skip else vaWalks w.ctx (clusterNo w.core) .write (pagesOf (imgBase s w.ctx + g.area + frameOff f) 0x9000)
theorem keeps_frameWalks (s : State) (w : Warp) (g : Workgroup) (f : Nat) : Keeps stillView (frameWalks s w g f) := by
  unfold frameWalks
  split
  · exact keeps_skip
  · exact keeps_vaWalks (fun _ _ => rfl) fun _ _ => rfl
/-- A trap of a group that no other one holds back enters the handler once the accesses before it are settled. -/
theorem run_raise (h : Handled s k w g f) (hb : sentBusy s k w c.mask = false) : run (raise k c) s =
    run (acts [frameWalks s w g f, settle k c.mask, completeDone k c.mask, look fun s => match find s.warps k with
      | some w => enterTrap k w g c false f
      | none => skip]) s := by
  have hbehind : behindHandler w c.mask = false := by simp [behindHandler, h.level]
  rw [raise, run_look]
  simp only [h.here, h.core, show wgOf s w = some g from h.group, hbehind, route_handled h, hb, h.free, h.mapped]
  rfl
end

/-! ### The handler entered -/

/-- A warp in its handler. -/
def trapWarp (w : Warp) (m : Mask) (hvec : DWord) (f now : Nat) : Warp := (toHandler w m hvec f).mapLanes m fun _ l => { l with since := now }
section
variable {s t : State} {k f : Nat} {w : Warp} {g : Workgroup} {c : Trap} {m : Mask}
theorem laneOf_toHandler {hvec : DWord} {j : Nat} (hj : j < w.lanes.length) : laneOf (toHandler w m hvec f) j =
    if inMask m j then { laneOf w j with pc := hvec + 4, st := .trapped, wait := .none, wins := [], join := none, skip := 0 }
    else if (laneOf w j).st == .ejected then { laneOf w j with st := .grouped } else laneOf w j := by
  rw [laneOf, toHandler, nth_mapI _ _ _ _ hj]
  rfl
theorem laneOf_trapWarp {hvec : DWord} {now j : Nat} (hj : j < w.lanes.length) :
    let l := laneOf (trapWarp w m hvec f now) j
    l.v = (laneOf w j).v ∧ l.p = (laneOf w j).p ∧ l.flg = (laneOf w j).flg ∧
      (inMask m j = true → l.pc = hvec + 4 ∧ l.st = .trapped ∧ l.wait = .none) ∧ (inMask m j = false → l.pc = (laneOf w j).pc) := by
  have hlen : j < (toHandler w m hvec f).lanes.length := by rw [toHandler, length_mapI]; exact hj
  dsimp only
  rw [trapWarp, laneOf_mapLanes _ _ _ _ hlen, laneOf_toHandler hj]
  cases hm : inMask m j with
  | true => exact ⟨rfl, rfl, rfl, fun _ => ⟨rfl, rfl, rfl⟩, nofun⟩
  | false =>
    by_cases hst : (laneOf w j).st == .ejected
    · simp [hst]
    · simp [hst]
/-- What a trap takes from a warp leaves its registers. -/
theorem clearRem_regs (w : Warp) (cause : Nat) : (clearRem w cause).lanes = w.lanes ∧ (clearRem w cause).s = w.s ∧ (clearRem w cause).a = w.a := by
  unfold clearRem
  split <;> exact ⟨rfl, rfl, rfl⟩
theorem lt_of_freeFrame (h : freeFrame g = some f) : f < g.frames.length := List.mem_range.mp (List.mem_of_find?_eq_some h)
theorem fillFrame_cause {w : Warp} {old : Frame} {q : List Outst} : (fillFrame w k c false old f q).cause =
    wd (c.cause + if c.cause = 14 ∨ c.cause = 15 ∨ c.cause = 30 ∨ c.cause = 31 then 0 else 256) := by
  have hprec : causePrec c.cause = true ↔ ¬(c.cause = 14 ∨ c.cause = 15 ∨ c.cause = 30 ∨ c.cause = 31) := by simp [causePrec, not_or, and_assoc]
  simp only [fillFrame, hprec, ite_not]
  rfl

/-- The accesses that a trap takes, and what its warp keeps. -/
def taken (w : Warp) (c : Trap) : List Outst × Warp := takeOuts w c.mask c.queue (c.cause == 31)
/-- What it gives back, before its warp enters the handler. -/
def trapDrops (k : Nat) (w : Warp) (c : Trap) : Action := acts [
  charge (some w.ctx) [⟨2, 1, clusterNo w.core⟩], chargeTaken w c.mask, dropGrants w.core ((taken w c).1.map (·.id)),
  fun s => [.arrivals (s.arrivals.filter fun a => !(a.wk == some k && (taken w c).1.any fun o => o.id == a.out))]]
theorem run_enterTrap (k : Nat) (w : Warp) (g : Workgroup) (c : Trap) (f : Nat) (s : State) : run (enterTrap k w g c false f) s =
    run (acts [upd (.warp k (some (trapWarp (clearRem (taken w c).2 c.cause) c.mask (reg s .hvec w.ctx) f s.now))),
      modFrame w.wg f fun _ => fillFrame (taken w c).2 k c false (nth g.frames f noFrame) f (taken w c).1,
      modWg w.wg fun g => { g with restart := false }]) (run (trapDrops k w c) s) := by
  rw [enterTrap, run_look]
  simp only [trapDrops, run_acts_cons, run_acts_nil]
  rfl
theorem keeps_dropGrants {α : Type} {v : State → α} {core : Nat} {ids : List Nat} (h : ∀ s k w, v (applyUpd s (.core k w)) = v s) :
    Keeps v (dropGrants core ids) := keeps_list fun s u hu t => by
  unfold dropGrants at hu
  dsimp only at hu
  split at hu
  · rw [List.mem_singleton.mp hu, h]
  · exact nomatch hu
theorem keeps_trapDrops (ht : takenLines w c.mask = []) : Keeps (fun s => (s.warps, s.wgs)) (trapDrops k w c) := by
  refine keeps_cons (keeps_charge (fun _ _ _ _ => rfl) (fun _ _ _ => rfl) fun _ _ _ => rfl) (keeps_cons ?_
    (keeps_cons (keeps_dropGrants fun _ _ _ => rfl) (keeps_cons (fun _ => rfl) keeps_nil)))
  rw [chargeTaken, ht]
  exact keeps_nil
theorem spares_trapDrops (ht : takenLines w c.mask = []) : Spares [.wgs, .cores, .arrivals] (trapDrops k w c) := by
  refine spares_cons spares_charge (spares_cons ?_ (spares_cons (spares_list fun s u hu => ?_) (spares_cons (spares_list fun s u hu => ?_) spares_nil)))
  · rw [chargeTaken, ht]
    exact spares_nil
  · unfold dropGrants at hu
    dsimp only at hu
    split at hu
    · rw [List.mem_singleton.mp hu]; exact List.mem_cons_of_mem _ List.mem_cons_self
    · exact nomatch hu
  · rw [List.mem_singleton.mp hu]; exact List.mem_cons_of_mem _ (List.mem_cons_of_mem _ List.mem_cons_self)
/-- A trap that takes an access with it, none of them one with lines to pay for. -/
theorem caught_enterTrap (h : Handled s k w g f) (hq : (taken w c).1 ≠ []) (ht : takenLines w c.mask = []) :
    Caught s (run (enterTrap k w g c false f) s) k w c.mask g f c ((taken w c).1.map (·.ins)) := by
  let s1 := run (trapDrops k w c) s
  let fr := fillFrame (taken w c).2 k c false (nth g.frames f noFrame) f (taken w c).1
  let w1 := trapWarp (clearRem (taken w c).2 c.cause) c.mask (reg s .hvec w.ctx) f s.now
  let g1 : Workgroup := { g with frames := mapI (fun j x => if j = f then fr else x) g.frames }
  have hs1 : (s1.warps, s1.wgs) = (s.warps, s.wgs) := keeps_trapDrops ht s
  have hg1 : find (applyUpd s1 (.warp k (some w1))).wgs w.wg = some g := (congrArg (fun v => find v.2 w.wg) hs1).trans h.group
  have hg2 : find (applyUpd (applyUpd s1 (.warp k (some w1))) (.wg w.wg (some g1))).wgs w.wg = some g1 := (find_put _ _ _ _).trans (if_pos rfl)
  have hrun : run (enterTrap k w g c false f) s = applyUpd (applyUpd (applyUpd s1 (.warp k (some w1))) (.wg w.wg (some g1)))
      (.wg w.wg (some { g1 with restart := false })) := by
    rw [run_enterTrap, run_acts_cons, run_acts_cons, run_acts_cons, run_acts_nil, modFrame]
    exact (congrArg (run _) (run_modWg _ _ _ _ hg1)).trans (run_modWg _ _ _ _ hg2)
  have hwarps (n : Nat) : find (run (enterTrap k w g c false f) s).warps n = if n = k then some w1 else find s.warps n := by
    rw [hrun]
    refine (find_put _ _ _ _).trans ?_
    rw [show s1.warps = s.warps from congrArg Prod.fst hs1]
  obtain ⟨hlanes, hss, haa⟩ := clearRem_regs (taken w c).2 c.cause
  have hlane (j : Nat) : laneOf (clearRem (taken w c).2 c.cause) j = laneOf w j := by rw [laneOf, hlanes]; rfl
  refine ⟨⟨w1, (hwarps k).trans (if_pos rfl), rfl, rfl, hss, haa, fun j hj => ?_⟩,
    ⟨{ g1 with restart := false }, ?_, rfl, fun n hn => ?_, ?_⟩, fun n hn => (hwarps n).trans (if_neg hn), ?_⟩
  · have hl := laneOf_trapWarp (w := clearRem (taken w c).2 c.cause) (m := c.mask) (hvec := reg s .hvec w.ctx) (f := f) (now := s.now) (j := j)
      (hlanes ▸ hj)
    rwa [hlane] at hl
  · rw [hrun]
    exact (find_put _ _ _ _).trans (if_pos rfl)
  · show nth g1.frames n noFrame = _
    by_cases hl : n < g.frames.length
    · rw [nth_mapI _ _ _ _ hl, if_neg hn]
    · rw [nth_of_ge _ _ _ (Nat.not_lt.mp hl), nth_of_ge _ _ _ (by simpa [g1] using hl)]
  · have hfr : nth ({ g1 with restart := false } : Workgroup).frames f noFrame = fr := by
      show nth g1.frames f noFrame = fr
      rw [nth_mapI _ _ _ _ (lt_of_freeFrame h.free), if_pos rfl]
    simp only [hfr]
    exact ⟨rfl, fillFrame_cause, rfl, rfl, rfl, rfl, rfl, rfl, rfl, rfl, rfl, rfl, rfl, rfl, by simp only [fr, fillFrame, List.map_map]; rfl⟩
  · rw [if_neg (by simpa using hq), hrun]
    have hwg (s : State) (g : Workgroup) : Rest s (applyUpd s (.wg w.wg (some g))) [.wgs, .cores, .arrivals] := rest_applyUpd (u := .wg _ _) List.mem_cons_self s
    exact rest_trans (spares_trapDrops ht s) (rest_trans (rest_warp _ _ _ _) (rest_trans (hwg _ _) (hwg _ _)))
theorem caught_of_still (h : stillView s = stillView t) {u : State} {rep : List Instr} (hc : Caught s u k w m g f c rep) : Caught t u k w m g f c rep where
  warp := by
    rw [← reg_still h (by decide) (by decide) (by decide)]
    exact hc.warp
  frame := hc.frame
  others := fun n hn => (hc.others n hn).trans (congrArg (fun v => find v.2 n) h)
  rest := rest_trans (rest_mono (rest_of_restView (congrArg Prod.fst h)) (List.nil_subset _)) hc.rest
end

/-! ### The epilogue taken to the frame -/

section
variable {s : State} {wk id f : Nat} {w : Warp} {u : Outst} {g : Workgroup} {c : Trap}
theorem mask_ne_zero_of_pcGroups {m : Mask} (h : pcGroups w m = [m]) : m ≠ 0 := by
  rintro rfl
  have hl : lanesOf (0 &&& w.activeSet) = [] := List.filter_eq_nil_iff.mpr fun i _ => by simp [inMask]
  rw [pcGroups, hl] at h
  exact nomatch h
theorem taken_of_epi (ho : w.outs = [u]) (hk : u.kind = .epi false) (hq : c.queue = none) (hm : c.mask = u.mask) (h0 : u.mask ≠ 0) :
    (taken w c).1.map (·.ins) = [u.ins] := by
  have hstay : finished u = false ∧ performed u.kind = false ∧ (u.kind == .epi true) = false := by
    refine ⟨?_, ?_, ?_⟩
    · rw [finished, hk]
    · rw [hk]; rfl
    · rw [hk]; rfl
  obtain ⟨h1, h2, h3⟩ := hstay
  have h0 : ¬u.mask = 0#64 := h0
  simp [taken, takeOuts, ho, hq, hm, h1, h2, h3, splitOut, h0, queued]
/-- Before the trap there is nothing of the warp's to settle. -/
theorem run_settle_epi (h : find s.warps wk = some w) (ho : w.outs = [u]) (hk : u.kind = .epi false) (m : Mask) : run (settle wk m) s = s := by
  have htodo : todoOf u = [] := by rw [todoOf, hk]
  rw [settle, run_look, h]
  simp only [ho, run_forEach_cons, run_forEach_nil, htodo]
  split <;> rfl
theorem run_completeDone_epi (h : find s.warps wk = some w) (ho : w.outs = [u]) (hk : u.kind = .epi false) (m : Mask) :
    run (completeDone wk m) s = s := by
  have hnone : (w.outs.filter fun o => performed o.kind && o.mask &&& m != 0) = [] := by simp [ho, hk, performed]
  rw [completeDone, run_look, h]
  simp only [hnone]
  rfl
theorem sentBusy_epi (ho : w.outs = [u]) (hk : u.kind = .epi false) (m : Mask) : sentBusy s wk w m = false := by
  rw [sentBusy, ho, List.any_cons, List.any_nil, hk, Bool.and_false]
  rfl
/-- A trap of a group whose warp holds the epilogue alone enters the handler with it. -/
theorem caught_raise (h : Handled s wk w g f) (ho : w.outs = [u]) (hk : u.kind = .epi false) (hq : c.queue = none) (hm : c.mask = u.mask) (h0 : u.mask ≠ 0) :
    Caught s (run (raise wk c) s) wk w c.mask g f c [u.ins] := by
  have htaken := taken_of_epi ho hk hq hm h0
  have hlines : takenLines w c.mask = [] := by simp [takenLines, ho, todoOf, hk]
  have hview := keeps_frameWalks s w g f s
  have hrun := run_raise h (sentBusy_epi ho hk c.mask)
  rw [run_acts_cons, run_acts_cons, run_acts_cons, run_acts_cons, run_acts_nil] at hrun
  generalize run (frameWalks s w g f) s = s1 at hview hrun
  have h1 := handled_congr hview h
  rw [run_settle_epi h1.here ho hk, run_completeDone_epi h1.here ho hk, run_look, h1.here] at hrun
  rw [hrun, ← htaken]
  exact caught_of_still hview (caught_enterTrap h1 (fun e => by rw [e] at htaken; exact nomatch htaken) hlines)
/-- An epilogue to memory with a piece that does not translate traps, and stores nothing. -/
theorem epiSt_traps {d : BitVec 128} {cc : Ctl} {a : Act} {scl bias tr : Bool} {o : OM} {fa : Nat} {e : XFault} (h : EpiTurn s wk id w u g)
    (hi : u.ins = .epiSt cc a scl bias tr o) (hd : slotDesc s w cc.fmt.toNat = some d)
    (hx : epiXlate s w u (epiPieces (epiStRows s wk w g u d a scl bias tr o)) = .error (fa, e)) (hh : Handled s wk w g f) (ho : w.outs = [u])
    (hp : pcGroups w u.mask = [u.mask]) : ∃ t, exec (.epilogueAccepted wk id) s = .next t ∧ t.stores = s.stores ∧
      Caught s t wk w u.mask g f ⟨u.mask, faultCause .write e, u.pc, (laneOf w (lowest u.mask)).pc, dw fa, syndrome .write e, none⟩ [u.ins] := by
  let s0 := run (noteWalk w.ctx (clusterNo w.core) (dw fa) e.lines) s
  let c : Trap := ⟨u.mask, faultCause .write e, u.pc, (laneOf w (lowest u.mask)).pc, dw fa, syndrome .write e, none⟩
  have hview : stillView s0 = stillView s := keeps_noteWalk_still s
  have hrun : run (epiRun wk w g u) s = run (raise wk c) s0 := by
    rw [epiRun_st hi hd, hx]
    simp only [epiTraps, run_acts_cons, run_acts_nil, hp, run_forEach_cons, run_forEach_nil]
    rfl
  have hc : Caught s (run (epiRun wk w g u) s) wk w u.mask g f c [u.ins] := by
    rw [hrun]
    exact caught_of_still hview (caught_raise (handled_congr hview hh) ho h.kind rfl rfl (mask_ne_zero_of_pcGroups hp))
  exact ⟨_, exec_of_epiTurn h, hc.rest.stores (by simp), hc⟩
end

end Sys2Proof.Machine
end

section
/-! Epilogues (R177, R196 to R199): what they post, send, store, and leave when they are accepted. -/
namespace Sys2Proof.Machine
open Sys2Proof.Safety

/-- An epilogue that its workgroup records and its warp holds. -/
theorem EpiHeld.says {s t : State} {x : Iss} {g g' : Workgroup} {blk : Nat} {store : Bool} {u : Outst} {e : Epi} (h : EpiHeld s t x g blk store u g' e) :
    Joins t x s.nextId x.g u ∧ u.kind = .epi false ∧ find t.wgs x.w.wg = some g' ∧ g'.epis = g.epis ++ [e] ∧ e.id = s.nextId ∧
      e.po = { x.point s.nextId with lanes := x.mask } ∧ e.blk = blk ∧ e.arrivals = [] ∧ e.store = store ∧ Still s t x [] 0 ∧ Rest s t [.wgs] :=
  ⟨h.joins, h.kind, h.wg, h.epis, h.id, h.po, h.blk, h.arrivals, h.store, h.still, h.rest⟩
/-- Settles O30: an epilogue that passes its checks adds its record; each of the outputs, to tiles or to memory, is one run of `epiRun`, whose
rows store the same in any order; one that faults enters the handler, and one accepted frees the block that waited for it alone. -/
theorem epilogues : Obligations.Epilogues := by
  unfold Obligations.Epilogues
  intro c a scl bias tr om ot n g d
  refine ⟨?_, ?_, ?_, ?_, ?_⟩
  · intro ho s x h hg hwg hslot hgood hblk hbt ⟨haddr, hstride⟩ hfresh
    obtain ⟨t, u, g', e, hexec, held⟩ := epiSt_does ho h hg ⟨hwg, hslot, hgood, hblk, hbt, hfresh⟩ haddr hstride
    exact ⟨t, u, g', e, hexec, held.says⟩
  · intro ho s x h hg hwg hslot hgood hblk hbt hfits hfresh
    obtain ⟨t, u, g', e, hexec, held⟩ := epiT_does ho h hg ⟨hwg, hslot, hgood, hblk, hbt, hfresh⟩ hfits
    exact ⟨t, u, g', e, hexec, held.says⟩
  · intro s wk id w u hw hu hg hi hk hr hf hd
    exact epiT_sends ⟨hw, hu, hg, hk, hr, hf⟩ hi hd
  · intro s wk id w u hw hu hg hi hk hr hf hd x eb
    have turn : EpiTurn s wk id w u g := ⟨hw, hu, hg, hk, hr, hf⟩
    have hpieces : _ = epiPieces (epiStRows s wk w g u d a scl bias tr om) := (List.flatMap_map ..).symm
    refine ⟨fun l hx hl => epiSt_stores turn hi hd (hpieces ▸ hx) hl, fun fa e f hx hh ho hp => epiSt_traps turn hi hd (hpieces ▸ hx) hh ho hp⟩
  · intro s wk id w u e hw hu hg hk he ha
    exact epi_accepted hw hu hg hk he ha

end Sys2Proof.Machine
end
